-- ==== Sys2Proof/Word.lean ====
section
/-! DEFINITION. The word types of the GX4 and their plainest arithmetic (spec/00, R1; spec/01, R17). -/

namespace Sys2Proof

/-- One byte of memory. -/
abbrev Byte := BitVec 8

/-- A 64-bit register or memory word. -/
abbrev Word := BitVec 64

/-- A 512-bit vector register. -/
abbrev VWord := BitVec 512

/-- A predicate register: bit i governs 32-bit lane i (R18). -/
abbrev Pred := BitVec 16

end Sys2Proof
end

