-- ==== Sys2Proof/Syntax.lean ====
section
/-! DEFINITION. The instructions of Tiund as data (spec/02, R38 to R53, and spec/opcode_table.json): one
constructor of `Instr` for every row of the opcode table. The rows 0 to 223 are the encoded instruction words;
the rows 224 to 308 are the events by which the rest of the module acts, whose operands say which of the
possible moves is meant and what arrives from outside. -/

namespace Sys2Proof

/-- Integer types i32 and i64 (R45, Table 2.2, t = 0b000 and 0b001). -/
inductive IntTy where
  | i32 | i64
  deriving DecidableEq, Repr

/-- The type codes that Table 2.8 calls "fp" (R45, R51). -/
inductive FTy where
  | f16 | bf16 | f32 | f64
  deriving DecidableEq, Repr

/-- The floating-point formats of Table 3.1 (R54). The codes are those of the t field of FCVT, FCVTI, ICVTF, VPACK and VUNPACK in Table 2.8, where 0b000 means E2M1. -/
inductive Fmt where
  | e2m1 | fp16 | bf16 | fp32 | fp64 | e4m3 | e5m2
  deriving DecidableEq, Repr

/-- The source formats of VDOT (Table 2.8, R76). -/
inductive DotTy where
  | int8 | e2m1 | fp16 | bf16 | e4m3 | e5m2
  deriving DecidableEq, Repr

/-- Rounding modes (R46, Table 2.3): nearest even, toward zero, down, up, nearest away, stochastic, to odd. -/
inductive Rm where
  | rne | rtz | rdn | rup | rna | rsr | rod
  deriving DecidableEq, Repr

/-- Sub-operation of ADD and SUB (Table 2.8). -/
inductive AddMode where
  | wrap | sat | usat
  deriving DecidableEq, Repr

/-- Sub-operation of MULH (Table 2.8). -/
inductive MulhMode where
  | signed | unsigned | signedUnsigned
  deriving DecidableEq, Repr

/-- Condition of CMP (Table 2.8). -/
inductive CmpCond where
  | eq | ne | lt | ge | ltu | geu
  deriving DecidableEq, Repr

/-- Condition of FCMP (Table 2.8). -/
inductive FCmpCond where
  | eq | ne | lt | le | un
  deriving DecidableEq, Repr

/-- Integer type of FCVTI and ICVTF, b<1:0> (Table 2.8). -/
inductive CvtInt where
  | i32 | i64 | i8
  deriving DecidableEq, Repr

/-- Operation of VRED, b<1:0> (Table 2.8). -/
inductive VRedFn where
  | add | min | max
  deriving DecidableEq, Repr

/-- Sub-operation of LODE (Table 2.8). -/
inductive LodeFn where
  | raw | u24 | f32
  deriving DecidableEq, Repr

/-- Selector of SEGQ (Table 2.6). -/
inductive SegSel where
  | base | length | rights
  deriving DecidableEq, Repr

/-- FENCE kinds, b<1:0> (R49). -/
inductive FenceKind where
  | full | acq | rel | sc
  deriving DecidableEq, Repr

/-- FENCE scopes (R49). -/
inductive Scope where
  | slot | core | clus | stack | dev | sys
  deriving DecidableEq, Repr

/-- ATOM operations (R49). -/
inductive AtomOp where
  | swap | add | and | or | xor | min | max
  deriving DecidableEq, Repr

/-- RED operations other than FADD (R49). -/
inductive RedOp where
  | add | and | or | xor | min | max
  deriving DecidableEq, Repr

/-- ROWOP operations (Table 2.6, sub 0b010 to 0b110). -/
inductive RowFn where
  | and | or | xor | not | maj3
  deriving DecidableEq, Repr

/-- The sz field of ATOM and RED: sz<1> selects a doubleword, sz<0> an unsigned minimum or maximum (Table 2.5). -/
inductive Sz where
  | word | wordU | dbl | dblU
  deriving DecidableEq, Repr

/-- The machine registers of Table 1.4 (R20). -/
inductive MReg where
  | tid | nthr | cx | cy | stage | ncx | ncy | nstage | core | tile | stack | island | clk | pkt | args | fmt0 | fmt1 | fmt2 | fmt3 | scl0 | scl1 | scl2 | scl3 | flags | srkey | srctr | tvec | tpc | tcause | tinfo0 | tinfo1 | rcto | inbox | wpart | sfq
  deriving DecidableEq, Repr

/-- The name of a thread (R10): the shift's serial number, the crew's index n and the thread index, or a context of
a stope engine that runs a handler (R194), numbered as it starts. -/
inductive ThreadKey where
  | crew (serial crew tid : Nat)
  | handler (id : Nat)
  deriving DecidableEq, Repr

/-- The header of a host command (Table 14.4), on the connection that brings it. Its OP is the instruction's. -/
structure CmdHeader where
  conn : Nat
  seq : Nat
  island : Nat
  tag : Word
  /-- LENGTH: the bytes of the body. -/
  len : BitVec 16
  deriving DecidableEq, Repr

/-- The shape of an island (R302): a rectangle of tiles in one stack, or whole stacks. -/
inductive Shape where
  | rect (stack x y w h : Nat)
  | whole (ss : List Nat)
  deriving DecidableEq, Repr

/-- A firmware image as verification sees it (R353). -/
structure Image where
  digest : BitVec 256
  key : BitVec 256
  version : Nat
  small : Bool
  signature : Nat
  deriving DecidableEq, Repr

/-- What a far message asks (R310, R311, R281, R308). -/
inductive FarReq where
  /-- A load of `size` bytes, or an engine's read of a frozen operand. -/
  | load (va size : Nat)
  | atom (op : AtomOp) (uns : Bool) (va bytes : Nat) (a : Word)
  | cas (va bytes : Nat) (expected new : BitVec 128)
  | red (op : RedOp) (uns : Bool) (va bytes : Nat) (a : Word)
  | fadd (rm : Rm) (fmt : BitVec 13) (va bytes : Nat) (a : Word)
  /-- A granule of a copy pushed to this module; under .F its word becomes full. -/
  | push (va : Nat) (data : Word) (feSet : Bool)
  /-- A remote call: target, entry, payload, caller. -/
  | call (va entry : Nat) (payload : List Word) (caller : Word)
  /-- The reply to a call of this module: its number, status, values. -/
  | reply (id : Nat) (status : BitVec 8) (vals : List Word)
  /-- Halo layers of a linked field: face, sweep, phase, values. -/
  | halo (num face sweep phase first : Nat) (vals : List Nat)
  /-- Invalidation of fetched lines by the owner's THAW: the far-module index and the granule. -/
  | invalidate (fmod granule : Nat)
  /-- A packet of a delivery mode that is not supported. -/
  | unsupported
  deriving DecidableEq, Repr

/-- A wear record (Table 21.3), as the service core measures it. -/
structure Wear where
  kind : Nat
  stack : Nat
  unit : Nat
  margin : Nat
  drift : Int
  hours : Nat
  deriving DecidableEq, Repr

/-- An Ethernet port of 800 Gb/s, or its two halves of 400 Gb/s (R308): the MAC, IPv4 and IPv6 addresses of each. -/
structure Port where
  split : Bool
  mac : List (BitVec 48)
  v4 : List (BitVec 32)
  v6 : List (BitVec 128)
  deriving DecidableEq, Repr

/-- A command connection and the port that carries it (R312). -/
structure Link where
  conn : Nat
  port : Nat
  deriving DecidableEq, Repr

/-- The island that reads through a strait, and the page-table entries that the resident service writes to map the range
for it, each by its location (R304). -/
structure StraitReader where
  island : Nat
  entries : List (Nat × Word)
  deriving DecidableEq, Repr

/-- The place of one module's part of a field (R281): its offset, and the far-module table entry of the part beyond each
face, low and high along each axis. -/
structure FieldPart where
  offset : List Nat
  faces : List (Option Nat)
  deriving DecidableEq, Repr

/-- What a TELEMETRY command reads (R355, R356, R360, R308); `wear`: the records that the service cores have measured
since the last reading. -/
inductive Telemetry where
  | wear (measured : List Wear)
  | clocks
  | attest (stack : Nat) (nonce : BitVec 256)
  | counters
  deriving DecidableEq, Repr

/-- What the sensors of a stack say (Table 21.2): current above its limit, base-die temperature, highest die
temperature, seams at 85 degrees or more, module input power above its limit, every sensor 5 % below its limit. -/
structure Sensors where
  overCurrent : Bool
  baseTemp : Nat
  maxTemp : Nat
  hotSeams : List Nat
  overPower : Bool
  cool : Bool
  deriving DecidableEq, Repr

/-- The instructions: one constructor for every row of spec/opcode_table.json. -/
inductive Instr where
  /-- `NOP` (R81): Does nothing and occupies one unit. -/
  | nop (u : Bool)
  /-- `BC` (R82): Branches to a PC-relative target when bit 0 of the named predicate equals not n. -/
  | bc (u : Bool) (p : BitVec 3) (n : Bool) (off : BitVec 20)
  /-- `BZ` (R83): Branches when g[a] is zero. -/
  | bz (u : Bool) (a : BitVec 6) (off : BitVec 17)
  /-- `BNZ` (R83): Branches when g[a] is nonzero. -/
  | bnz (u : Bool) (a : BitVec 6) (off : BitVec 17)
  /-- `LOOP` (R84): Decrements g[a] modulo 2^64 and branches when the result is nonzero. -/
  | loop (u : Bool) (a : BitVec 6) (off : BitVec 17)
  /-- `CALL` (R85): Conditional PC-relative branch that writes the return address to g63 when taken. -/
  | call (u : Bool) (p : BitVec 3) (n : Bool) (off : BitVec 20)
  /-- `BI` (R86): Transfers control to the address in g[a]. -/
  | bi (u : Bool) (a : BitVec 6)
  /-- `CALLI` (R86): Transfers control to g[a] and writes the return address to g63. -/
  | calli (u : Bool) (a : BitVec 6)
  /-- `RET` (R86): Transfers control to g[a], by default g63. -/
  | ret (u : Bool) (a : BitVec 6)
  /-- `EXIT` (R87): Waits for pending entries, stores and matrix jobs of the thread, then retires it. -/
  | exit (u : Bool)
  /-- `YIELD` (R88): Gives the thread's next turn in the rotation to another ready slot. -/
  | yield (u : Bool)
  /-- `BRK` (R89): Completes its unit and enters the trap path with cause BRK, or parks for gvdbg in a debug shift. -/
  | brk (u : Bool) (code : BitVec 14)
  /-- `TRAP` (R89): Completes its unit and enters the trap path with cause TRAP and its 14-bit code. -/
  | trap (u : Bool) (code : BitVec 14)
  /-- `ERET` (R90): Leaves handler state, replaying the faulted instruction when RPL is 1, and continues at %tpc. -/
  | eret (u : Bool)
  /-- `MRD` (R93): Reads a machine register into g[d]. -/
  | mrd (u : Bool) (d : BitVec 6) (m : MReg)
  /-- `MWR` (R94): Writes g[d] to a machine register, effective for the next unit. -/
  | mwr (u : Bool) (d : BitVec 6) (m : MReg)
  /-- `SEGLD` (R95): Loads a segment register from the handle table entry numbered g[a]. -/
  | segld (u : Bool) (a : BitVec 6) (s : BitVec 3)
  /-- `SEGSUB` (R96): Narrows a segment register in place and removes rights. -/
  | segsub (u : Bool) (d : BitVec 6) (a : BitVec 6) (b : BitVec 6) (s : BitVec 3)
  /-- `SEGQ` (R97): Writes a segment's base, length or rights/space/policy to g[d]. -/
  | segq (u : Bool) (d : BitVec 6) (q : SegSel) (s : BitVec 3)
  /-- `LAUNCH` (R98): Releases at .dev and enqueues a new shift from a work packet, writing its serial number. -/
  | launch (u : Bool) (d : BitVec 6) (a : BitVec 6) (s : BitVec 3)
  /-- `GANG` (R99): Enqueues a new shift whose crews run as gangs of g[b] crews. -/
  | gang (u : Bool) (d : BitVec 6) (a : BitVec 6) (b : BitVec 6) (s : BitVec 3)
  /-- `BARC` (R100): Crew barrier: registers arrival with a release and parks until the generation completes. -/
  | barc (u : Bool)
  /-- `TKILL_THREAD` (R91): Ends the thread of the issuer's crew whose %tid is g[a]. -/
  | tkillThread (u : Bool) (a : BitVec 6)
  /-- `TKILL_CREW` (R91): Ends every thread of the issuer's crew. -/
  | tkillCrew (u : Bool)
  /-- `TKILL_SHIFT` (R91): Ends every thread of the shift and withdraws its undispatched crews. -/
  | tkillShift (u : Bool)
  /-- `LD_B` (R119): Loads a zero-extended byte into g[d] through a pending entry. -/
  | ldB (u : Bool) (la : BitVec 4) (s : BitVec 3) (d : BitVec 6) (a : BitVec 6) (imm : BitVec 5)
  /-- `LD_H` (R119): Loads a zero-extended halfword into g[d] through a pending entry. -/
  | ldH (u : Bool) (la : BitVec 4) (s : BitVec 3) (d : BitVec 6) (a : BitVec 6) (imm : BitVec 5)
  /-- `LD_W` (R119): Loads a zero-extended word into g[d] through a pending entry. -/
  | ldW (u : Bool) (la : BitVec 4) (s : BitVec 3) (d : BitVec 6) (a : BitVec 6) (imm : BitVec 5)
  /-- `LD_D` (R119): Loads a doubleword into g[d] through a pending entry. -/
  | ldD (u : Bool) (la : BitVec 4) (s : BitVec 3) (d : BitVec 6) (a : BitVec 6) (imm : BitVec 5)
  /-- `LD_SB` (R119): Loads a sign-extended byte into g[d]. -/
  | ldSB (u : Bool) (la : BitVec 4) (s : BitVec 3) (d : BitVec 6) (a : BitVec 6) (imm : BitVec 5)
  /-- `LD_SH` (R119): Loads a sign-extended halfword into g[d]. -/
  | ldSH (u : Bool) (la : BitVec 4) (s : BitVec 3) (d : BitVec 6) (a : BitVec 6) (imm : BitVec 5)
  /-- `LD_SW` (R119): Loads a sign-extended word into g[d]. -/
  | ldSW (u : Bool) (la : BitVec 4) (s : BitVec 3) (d : BitVec 6) (a : BitVec 6) (imm : BitVec 5)
  /-- `ST_N` (R121): Writes a 4-bit element into one nibble, locally or as a message. -/
  | stN (u : Bool) (s : BitVec 3) (d : BitVec 6) (a : BitVec 6) (imm : BitVec 5)
  /-- `ST_B` (R120): Stores the low byte of g[d]. -/
  | stB (u : Bool) (s : BitVec 3) (d : BitVec 6) (a : BitVec 6) (imm : BitVec 5)
  /-- `ST_H` (R120): Stores the low halfword of g[d]. -/
  | stH (u : Bool) (s : BitVec 3) (d : BitVec 6) (a : BitVec 6) (imm : BitVec 5)
  /-- `ST_W` (R120): Stores the low word of g[d]. -/
  | stW (u : Bool) (s : BitVec 3) (d : BitVec 6) (a : BitVec 6) (imm : BitVec 5)
  /-- `ST_D` (R120): Stores the doubleword g[d]. -/
  | stD (u : Bool) (s : BitVec 3) (d : BitVec 6) (a : BitVec 6) (imm : BitVec 5)
  /-- `LDV` (R122): Loads 64 bytes into a vector register through a pending entry. -/
  | ldv (u : Bool) (la : BitVec 4) (s : BitVec 3) (d : BitVec 5) (a : BitVec 6) (imm : BitVec 5)
  /-- `STV` (R122): Stores a vector register as 64 bytes. -/
  | stv (u : Bool) (s : BitVec 3) (d : BitVec 5) (a : BitVec 6) (imm : BitVec 5)
  /-- `LDVS` (R123): Strided vector load of one element per lane. -/
  | ldvs (u : Bool) (la : BitVec 4) (s : BitVec 3) (d : BitVec 5) (a : BitVec 5) (dbl : Bool)
  /-- `LDVX` (R123): Indexed vector load using per-lane offsets held in the destination. -/
  | ldvx (u : Bool) (la : BitVec 4) (s : BitVec 3) (d : BitVec 5) (a : BitVec 6) (dbl : Bool)
  /-- `STVS` (R123): Strided vector store of one element per lane. -/
  | stvs (u : Bool) (s : BitVec 3) (d : BitVec 5) (a : BitVec 5) (dbl : Bool)
  /-- `STVX` (R123): Indexed vector store with per-lane offsets from segment offset 0. -/
  | stvx (u : Bool) (s : BitVec 3) (d : BitVec 5) (a : BitVec 5) (dbl : Bool)
  /-- `LDS` (R124): Waits for the word to be full, then reads it as an acquire. -/
  | lds (u : Bool) (la : BitVec 4) (s : BitVec 3) (d : BitVec 6) (a : BitVec 6) (dbl : Bool)
  /-- `LDS_CONSUME` (R124): Waits for full, reads the word and sets it empty. -/
  | ldsConsume (u : Bool) (la : BitVec 4) (s : BitVec 3) (d : BitVec 6) (a : BitVec 6) (dbl : Bool)
  /-- `STS_PRODUCE` (R125): Waits for empty, writes the word, sets it full and serves the wait list. -/
  | stsProduce (u : Bool) (s : BitVec 3) (d : BitVec 6) (a : BitVec 6) (dbl : Bool)
  /-- `STS_OVER` (R127): Writes the word regardless of its bit, sets it full and serves the wait list. -/
  | stsOver (u : Bool) (s : BitVec 3) (d : BitVec 6) (a : BitVec 6) (dbl : Bool)
  /-- `FESET` (R127): Sets the full/empty bit full and serves waiters for full. -/
  | feset (u : Bool) (s : BitVec 3) (a : BitVec 6)
  /-- `FECLR` (R127): Sets the full/empty bit empty and serves waiters for empty. -/
  | feclr (u : Bool) (s : BitVec 3) (a : BitVec 6)
  /-- `FEQ` (R127): Writes 1 to g[d] when the word is full, else 0. -/
  | feq (u : Bool) (s : BitVec 3) (d : BitVec 6) (a : BitVec 6)
  /-- `ATOM` (R128): Indivisible read-modify-write at memory returning the old value. -/
  | atom (u : Bool) (la : BitVec 4) (s : BitVec 3) (d : BitVec 6) (a : BitVec 6) (op : AtomOp) (sz : Sz)
  /-- `CAS` (R129): Compare-and-swap of a word or doubleword returning the old value. -/
  | cas (u : Bool) (la : BitVec 4) (s : BitVec 3) (d : BitVec 5) (a : BitVec 6) (dbl : Bool)
  /-- `CAS2` (R129): Compare-and-swap of 16 aligned bytes. -/
  | cas2 (u : Bool) (la : BitVec 4) (s : BitVec 3) (d : BitVec 4) (a : BitVec 6)
  /-- `RED` (R130): Applies an integer operation at memory and returns nothing. -/
  | red (u : Bool) (s : BitVec 3) (d : BitVec 6) (a : BitVec 6) (op : RedOp) (sz : Sz)
  /-- `RED_FADD` (R130): Adds a floating value at memory with the given rounding. -/
  | redFadd (u : Bool) (rm : Rm) (s : BitVec 3) (d : BitVec 6) (a : BitVec 6) (dbl : Bool)
  /-- `APND` (R133): Appends a message to an inbox ring, parking until its slot is written. -/
  | apnd (u : Bool) (s : BitVec 3) (d : BitVec 6) (a : BitVec 6)
  /-- `FENCE` (R134): Orders the thread's accesses at a scope, drains its write-combining entries and delivers store faults. -/
  | fence (u : Bool) (k : FenceKind) (sc : Scope)
  /-- `DRAIN` (R135): Waits until every earlier store of the thread is performed or faulted and delivers any record. -/
  | drain (u : Bool)
  /-- `TBINIT` (R137): Starts a new generation of a transaction barrier. -/
  | tbinit (u : Bool) (a : BitVec 6) (b : BitVec 6) (s : BitVec 3)
  /-- `TBEXP` (R137): Raises the expected arrival count of a barrier. -/
  | tbexp (u : Bool) (a : BitVec 6) (b : BitVec 6) (s : BitVec 3)
  /-- `TBARV` (R137): Adds arrivals to a barrier as a release. -/
  | tbarv (u : Bool) (a : BitVec 6) (b : BitVec 6) (s : BitVec 3)
  /-- `TBWAIT` (R137): Parks until the barrier's generation is done, then acquires. -/
  | tbwait (u : Bool) (a : BitVec 6) (s : BitVec 3)
  /-- `TBTEST` (R137): Reads a barrier's DONE, GEN, flags and VALUE into g[d]. -/
  | tbtest (u : Bool) (d : BitVec 6) (a : BitVec 6) (s : BitVec 3)
  /-- `XFER` (R139): Releases and kicks the copy hart to push bytes to a handle-offset destination. -/
  | xfer (u : Bool) (d : BitVec 5) (a : BitVec 6) (b : BitVec 6) (s : BitVec 3)
  /-- `XFER_F` (R139): XFER that also sets destination words full and serves their wait lists. -/
  | xferF (u : Bool) (d : BitVec 5) (a : BitVec 6) (b : BitVec 6) (s : BitVec 3)
  /-- `GATH` (R140): Asks the owner of a source range to push it into the issuer's segment. -/
  | gath (u : Bool) (d : BitVec 5) (a : BitVec 6) (b : BitVec 6) (s : BitVec 3)
  /-- `RCALL` (R195): Sends a remote call to a handler entry at the target's stope engine. -/
  | rcall (u : Bool) (d : BitVec 6) (a : BitVec 6) (k : BitVec 3) (rel : Bool) (s : BitVec 3) (e : BitVec 3)
  /-- `RRET` (R196): Ends a handler and sends its reply with status and values. -/
  | rret (u : Bool) (a : BitVec 6) (b : BitVec 6)
  /-- `HSET` (R199): Installs a handler entry in every stope engine of the island and parks until done. -/
  | hset (u : Bool) (e : BitVec 3) (a : BitVec 6) (s : BitVec 3)
  /-- `HCLR` (R199): Empties a handler entry in every engine of the island and parks until done. -/
  | hclr (u : Bool) (e : BitVec 3) (s : BitVec 3)
  /-- `FRZ` (R201): Releases, raises the freeze count of a range and recalls every dirty copy. -/
  | frz (u : Bool) (a : BitVec 6) (b : BitVec 6) (s : BitVec 3)
  /-- `THAW` (R202): Lowers freeze counts, invalidates replicas of granules reaching 0 and arrives at a barrier. -/
  | thaw (u : Bool) (d : BitVec 6) (a : BitVec 6) (b : BitVec 6) (s : BitVec 3)
  /-- `FRZQ` (R203): Reads the freeze state of a granule into g[d]. -/
  | frzq (u : Bool) (d : BitVec 6) (a : BitVec 6) (s : BitVec 3)
  /-- `ROWCPY` (R204): Copies whole DRAM rows at the stope engines and arrives at a barrier. -/
  | rowcpy (u : Bool) (d : BitVec 5) (a : BitVec 6) (b : BitVec 6) (s : BitVec 3)
  /-- `ROWSET` (R204): Fills whole DRAM rows with a repeated pattern. -/
  | rowset (u : Bool) (d : BitVec 5) (a : BitVec 6) (b : BitVec 6) (s : BitVec 3)
  /-- `ROWOP` (R204): Applies AND, OR, XOR, NOT or MAJ3 to whole DRAM rows. -/
  | rowop (u : Bool) (d : BitVec 5) (a : BitVec 6) (b : BitVec 6) (s : BitVec 3) (op : RowFn)
  /-- `FDEF` (R208): Defines a field from a descriptor, or writes a failure reason. -/
  | fdef (u : Bool) (d : BitVec 6) (a : BitVec 6) (s : BitVec 3)
  /-- `FRUN` (R209): Releases, recalls STATE and runs a stopped field, or resumes a stopping one. -/
  | frun (u : Bool) (a : BitVec 6)
  /-- `FSTOP` (R209): Stops a running field or undefines a stopped, limited or faulted one. -/
  | fstop (u : Bool) (a : BitVec 6)
  /-- `FSNAP` (R211): Requests a copy of STATE to TWIN at the next sweep end or at once. -/
  | fsnap (u : Bool) (a : BitVec 6) (b : BitVec 6)
  /-- `FCPL` (R212): Names a new frozen coupling table for the field, parking until checked. -/
  | fcpl (u : Bool) (a : BitVec 6) (b : BitVec 6)
  /-- `FSTAT` (R209): Writes a field's NEXT, state, fault reason and snapshot bit to g[d]. -/
  | fstat (u : Bool) (d : BitVec 6) (a : BitVec 6)
  /-- `MQ` (R177): Checks a job descriptor and queues a dense matrix job on a tile. -/
  | mq (u : Bool) (d : BitVec 6) (a : BitVec 6) (tile : BitVec 4) (s : BitVec 3)
  /-- `MQ_SP` (R177): Queues a 2:4 sparse matrix job on a tile. -/
  | mqSP (u : Bool) (d : BitVec 6) (a : BitVec 6) (tile : BitVec 4) (s : BitVec 3)
  /-- `MQR` (R179): Queues a dense ring job of a gang member. -/
  | mqr (u : Bool) (d : BitVec 6) (a : BitVec 6) (tile : BitVec 4) (s : BitVec 3)
  /-- `MQR_SP` (R179): Queues a sparse ring job of a gang member. -/
  | mqrSP (u : Bool) (d : BitVec 6) (a : BitVec 6) (tile : BitVec 4) (s : BitVec 3)
  /-- `MACQ` (R169): Grants the crew every requested unowned tile and writes the owned mask. -/
  | macq (u : Bool) (d : BitVec 6) (a : BitVec 6)
  /-- `MREL` (R170): Withdraws ownership of tiles at issue and queues their release. -/
  | mrel (u : Bool) (a : BitVec 6)
  /-- `MZERO` (R171): Queues the clearing of a tile in tile order. -/
  | mzero (u : Bool) (tile : BitVec 4)
  /-- `MLD` (R172): Queues a 16 KiB load into a tile arriving at a barrier. -/
  | mld (u : Bool) (d : BitVec 6) (a : BitVec 6) (tile : BitVec 4) (s : BitVec 3)
  /-- `MDRAIN` (R185): Releases, parks and converts a tile to memory under a drain control word. -/
  | mdrain (u : Bool) (d : BitVec 6) (a : BitVec 6) (tile : BitVec 4) (s : BitVec 3) (rm : Rm)
  /-- `MPOLL` (R183): Writes a job's state and completed k-steps to g[d]. -/
  | mpoll (u : Bool) (d : BitVec 6) (a : BitVec 6)
  /-- `MWAIT` (R183): Parks until the named job has ended, then acquires. -/
  | mwait (u : Bool) (a : BitVec 6)
  /-- `ADD` (R101): Scalar integer add, wrapping or saturating by sub-operation. -/
  | add (t : IntTy) (d : BitVec 6) (a : BitVec 6) (b : BitVec 6) (m : AddMode)
  /-- `ADD_V` (R101): Vector integer add per active lane. -/
  | addV (t : IntTy) (d : BitVec 5) (a : BitVec 5) (b : BitVec 5) (p : BitVec 3) (m : AddMode)
  /-- `SUB` (R101): Scalar integer subtract, wrapping or saturating. -/
  | sub (t : IntTy) (d : BitVec 6) (a : BitVec 6) (b : BitVec 6) (m : AddMode)
  /-- `SUB_V` (R101): Vector integer subtract per active lane. -/
  | subV (t : IntTy) (d : BitVec 5) (a : BitVec 5) (b : BitVec 5) (p : BitVec 3) (m : AddMode)
  /-- `MUL` (R103): Scalar integer multiply, low half. -/
  | mul (t : IntTy) (d : BitVec 6) (a : BitVec 6) (b : BitVec 6)
  /-- `MUL_V` (R103): Vector integer multiply, low half. -/
  | mulV (t : IntTy) (d : BitVec 5) (a : BitVec 5) (b : BitVec 5) (p : BitVec 3)
  /-- `MULH` (R103): Scalar high half of the 2w-bit product. -/
  | mulh (t : IntTy) (d : BitVec 6) (a : BitVec 6) (b : BitVec 6) (m : MulhMode)
  /-- `MULH_V` (R103): Vector high half of the product per lane. -/
  | mulhV (t : IntTy) (d : BitVec 5) (a : BitVec 5) (b : BitVec 5) (p : BitVec 3) (m : MulhMode)
  /-- `DIV` (R104): Scalar integer division truncated toward zero, never trapping. -/
  | div (t : IntTy) (d : BitVec 6) (a : BitVec 6) (b : BitVec 6) (uns : Bool)
  /-- `DIV_V` (R104): Vector integer division per lane. -/
  | divV (t : IntTy) (d : BitVec 5) (a : BitVec 5) (b : BitVec 5) (p : BitVec 3) (uns : Bool)
  /-- `REM` (R104): Scalar integer remainder with the sign of A. -/
  | rem (t : IntTy) (d : BitVec 6) (a : BitVec 6) (b : BitVec 6) (uns : Bool)
  /-- `REM_V` (R104): Vector integer remainder per lane. -/
  | remV (t : IntTy) (d : BitVec 5) (a : BitVec 5) (b : BitVec 5) (p : BitVec 3) (uns : Bool)
  /-- `AND` (R101): Scalar bitwise AND. -/
  | and (t : IntTy) (d : BitVec 6) (a : BitVec 6) (b : BitVec 6)
  /-- `AND_V` (R101): Vector bitwise AND. -/
  | andV (t : IntTy) (d : BitVec 5) (a : BitVec 5) (b : BitVec 5) (p : BitVec 3)
  /-- `OR` (R101): Scalar bitwise OR. -/
  | or (t : IntTy) (d : BitVec 6) (a : BitVec 6) (b : BitVec 6)
  /-- `OR_V` (R101): Vector bitwise OR. -/
  | orV (t : IntTy) (d : BitVec 5) (a : BitVec 5) (b : BitVec 5) (p : BitVec 3)
  /-- `XOR` (R101): Scalar bitwise XOR. -/
  | xor (t : IntTy) (d : BitVec 6) (a : BitVec 6) (b : BitVec 6)
  /-- `XOR_V` (R101): Vector bitwise XOR. -/
  | xorV (t : IntTy) (d : BitVec 5) (a : BitVec 5) (b : BitVec 5) (p : BitVec 3)
  /-- `ANDN` (R101): Scalar A AND NOT B. -/
  | andn (t : IntTy) (d : BitVec 6) (a : BitVec 6) (b : BitVec 6)
  /-- `ANDN_V` (R101): Vector A AND NOT B. -/
  | andnV (t : IntTy) (d : BitVec 5) (a : BitVec 5) (b : BitVec 5) (p : BitVec 3)
  /-- `SHL` (R105): Scalar shift left by B mod w. -/
  | shl (t : IntTy) (d : BitVec 6) (a : BitVec 6) (b : BitVec 6)
  /-- `SHL_V` (R105): Vector shift left per lane. -/
  | shlV (t : IntTy) (d : BitVec 5) (a : BitVec 5) (b : BitVec 5) (p : BitVec 3)
  /-- `SHR` (R105): Scalar logical shift right. -/
  | shr (t : IntTy) (d : BitVec 6) (a : BitVec 6) (b : BitVec 6)
  /-- `SHR_V` (R105): Vector logical shift right per lane. -/
  | shrV (t : IntTy) (d : BitVec 5) (a : BitVec 5) (b : BitVec 5) (p : BitVec 3)
  /-- `SRA` (R105): Scalar arithmetic shift right. -/
  | sra (t : IntTy) (d : BitVec 6) (a : BitVec 6) (b : BitVec 6)
  /-- `SRA_V` (R105): Vector arithmetic shift right per lane. -/
  | sraV (t : IntTy) (d : BitVec 5) (a : BitVec 5) (b : BitVec 5) (p : BitVec 3)
  /-- `ROT` (R105): Scalar rotate left. -/
  | rot (t : IntTy) (d : BitVec 6) (a : BitVec 6) (b : BitVec 6)
  /-- `ROT_V` (R105): Vector rotate left per lane. -/
  | rotV (t : IntTy) (d : BitVec 5) (a : BitVec 5) (b : BitVec 5) (p : BitVec 3)
  /-- `MIN` (R106): Scalar signed or unsigned integer minimum. -/
  | min (t : IntTy) (d : BitVec 6) (a : BitVec 6) (b : BitVec 6) (uns : Bool)
  /-- `MIN_V` (R106): Vector integer minimum per lane. -/
  | minV (t : IntTy) (d : BitVec 5) (a : BitVec 5) (b : BitVec 5) (p : BitVec 3) (uns : Bool)
  /-- `MAX` (R106): Scalar signed or unsigned integer maximum. -/
  | max (t : IntTy) (d : BitVec 6) (a : BitVec 6) (b : BitVec 6) (uns : Bool)
  /-- `MAX_V` (R106): Vector integer maximum per lane. -/
  | maxV (t : IntTy) (d : BitVec 5) (a : BitVec 5) (b : BitVec 5) (p : BitVec 3) (uns : Bool)
  /-- `CLZ` (R107): Scalar count of leading zero bits. -/
  | clz (t : IntTy) (d : BitVec 6) (a : BitVec 6)
  /-- `CLZ_V` (R107): Vector count of leading zeros per lane. -/
  | clzV (t : IntTy) (d : BitVec 5) (a : BitVec 5) (p : BitVec 3)
  /-- `CTZ` (R107): Scalar count of trailing zero bits. -/
  | ctz (t : IntTy) (d : BitVec 6) (a : BitVec 6)
  /-- `CTZ_V` (R107): Vector count of trailing zeros per lane. -/
  | ctzV (t : IntTy) (d : BitVec 5) (a : BitVec 5) (p : BitVec 3)
  /-- `POPC` (R107): Scalar population count. -/
  | popc (t : IntTy) (d : BitVec 6) (a : BitVec 6)
  /-- `POPC_V` (R107): Vector population count per lane. -/
  | popcV (t : IntTy) (d : BitVec 5) (a : BitVec 5) (p : BitVec 3)
  /-- `BREV` (R107): Scalar bit reversal. -/
  | brev (t : IntTy) (d : BitVec 6) (a : BitVec 6)
  /-- `BREV_V` (R107): Vector bit reversal per lane. -/
  | brevV (t : IntTy) (d : BitVec 5) (a : BitVec 5) (p : BitVec 3)
  /-- `BSWAP` (R107): Scalar byte swap. -/
  | bswap (t : IntTy) (d : BitVec 6) (a : BitVec 6)
  /-- `BSWAP_V` (R107): Vector byte swap per lane. -/
  | bswapV (t : IntTy) (d : BitVec 5) (a : BitVec 5) (p : BitVec 3)
  /-- `BFX` (R108): Scalar bit-field extract, unsigned or signed. -/
  | bfx (t : IntTy) (d : BitVec 6) (a : BitVec 6) (b : BitVec 6) (sgn : Bool)
  /-- `BFX_V` (R108): Vector bit-field extract per lane. -/
  | bfxV (t : IntTy) (d : BitVec 5) (a : BitVec 5) (b : BitVec 5) (p : BitVec 3) (sgn : Bool)
  /-- `BFI` (R108): Scalar bit-field insert into the destination. -/
  | bfi (t : IntTy) (d : BitVec 6) (a : BitVec 6) (b : BitVec 6)
  /-- `BFI_V` (R108): Vector bit-field insert per lane. -/
  | bfiV (t : IntTy) (d : BitVec 5) (a : BitVec 5) (b : BitVec 5) (p : BitVec 3)
  /-- `SEL` (R109): Selects g[a] or g[b] by bit 0 of a predicate. -/
  | sel (t : IntTy) (d : BitVec 6) (a : BitVec 6) (b : BitVec 6) (p : BitVec 3)
  /-- `CMP` (R110): Scalar integer compare writing a predicate. -/
  | cmp (t : IntTy) (pd : BitVec 3) (a : BitVec 6) (b : BitVec 6) (c : CmpCond)
  /-- `CMP_V` (R110): Vector integer compare writing one predicate bit per active lane. -/
  | cmpV (t : IntTy) (pd : BitVec 3) (a : BitVec 5) (b : BitVec 5) (p : BitVec 3) (c : CmpCond)
  /-- `PAND` (R115): Predicate AND. -/
  | pand (d : BitVec 3) (a : BitVec 3) (b : BitVec 3)
  /-- `POR` (R115): Predicate OR. -/
  | por (d : BitVec 3) (a : BitVec 3) (b : BitVec 3)
  /-- `PXOR` (R115): Predicate XOR. -/
  | pxor (d : BitVec 3) (a : BitVec 3) (b : BitVec 3)
  /-- `PNOT` (R115): Predicate NOT. -/
  | pnot (d : BitVec 3) (a : BitVec 3)
  /-- `PMOV_P` (R115): Moves the low 16 bits of g[a] into a predicate. -/
  | pmovP (d : BitVec 3) (a : BitVec 6)
  /-- `PMOV_G` (R115): Moves a predicate zero-extended into g[d]. -/
  | pmovG (d : BitVec 6) (a : BitVec 3)
  /-- `ADDI` (R112): Adds a sign-extended 13-bit immediate. -/
  | addi (d : BitVec 6) (a : BitVec 6) (imm : BitVec 13)
  /-- `ANDI` (R112): ANDs a sign-extended 13-bit immediate. -/
  | andi (d : BitVec 6) (a : BitVec 6) (imm : BitVec 13)
  /-- `ORI` (R112): ORs a sign-extended 13-bit immediate. -/
  | ori (d : BitVec 6) (a : BitVec 6) (imm : BitVec 13)
  /-- `XORI` (R112): XORs a sign-extended 13-bit immediate. -/
  | xori (d : BitVec 6) (a : BitVec 6) (imm : BitVec 13)
  /-- `SHLI` (R113): Shifts g[a] left by an immediate count. -/
  | shli (d : BitVec 6) (a : BitVec 6) (c : BitVec 6)
  /-- `SHRI` (R113): Shifts g[a] right logically by an immediate count. -/
  | shri (d : BitVec 6) (a : BitVec 6) (c : BitVec 6)
  /-- `SRAI` (R113): Shifts g[a] right arithmetically by an immediate count. -/
  | srai (d : BitVec 6) (a : BitVec 6) (c : BitVec 6)
  /-- `MOVI` (R114): Writes a sign-extended 19-bit immediate. -/
  | movi (d : BitVec 6) (imm : BitVec 19)
  /-- `MOVH` (R114): Writes a 16-bit value into one quarter of g[d]. -/
  | movh (d : BitVec 6) (q : BitVec 2) (v : BitVec 16)
  /-- `LEA` (R111): Computes g[a] plus g[b] scaled by 2^shift. -/
  | lea (d : BitVec 6) (a : BitVec 6) (b : BitVec 6) (sh : BitVec 3)
  /-- `FADD` (R147): Scalar floating add rounded once by rm. -/
  | fadd (t : FTy) (d : BitVec 6) (a : BitVec 6) (b : BitVec 6) (rm : Rm)
  /-- `FADD_V` (R147): Vector floating add per active element. -/
  | faddV (t : FTy) (d : BitVec 5) (a : BitVec 5) (b : BitVec 5) (p : BitVec 3) (rm : Rm)
  /-- `FSUB` (R147): Scalar floating subtract. -/
  | fsub (t : FTy) (d : BitVec 6) (a : BitVec 6) (b : BitVec 6) (rm : Rm)
  /-- `FSUB_V` (R147): Vector floating subtract. -/
  | fsubV (t : FTy) (d : BitVec 5) (a : BitVec 5) (b : BitVec 5) (p : BitVec 3) (rm : Rm)
  /-- `FMUL` (R147): Scalar floating multiply. -/
  | fmul (t : FTy) (d : BitVec 6) (a : BitVec 6) (b : BitVec 6) (rm : Rm)
  /-- `FMUL_V` (R147): Vector floating multiply. -/
  | fmulV (t : FTy) (d : BitVec 5) (a : BitVec 5) (b : BitVec 5) (p : BitVec 3) (rm : Rm)
  /-- `FMA` (R147): Scalar fused multiply-add with d as addend. -/
  | fma (t : FTy) (d : BitVec 6) (a : BitVec 6) (b : BitVec 6) (rm : Rm)
  /-- `FMA_V` (R147): Vector fused multiply-add. -/
  | fmaV (t : FTy) (d : BitVec 5) (a : BitVec 5) (b : BitVec 5) (p : BitVec 3) (rm : Rm)
  /-- `FMS` (R147): Scalar fused multiply-subtract. -/
  | fms (t : FTy) (d : BitVec 6) (a : BitVec 6) (b : BitVec 6) (rm : Rm)
  /-- `FMS_V` (R147): Vector fused multiply-subtract. -/
  | fmsV (t : FTy) (d : BitVec 5) (a : BitVec 5) (b : BitVec 5) (p : BitVec 3) (rm : Rm)
  /-- `FNMA` (R147): Scalar negated fused multiply-add. -/
  | fnma (t : FTy) (d : BitVec 6) (a : BitVec 6) (b : BitVec 6) (rm : Rm)
  /-- `FNMA_V` (R147): Vector negated fused multiply-add. -/
  | fnmaV (t : FTy) (d : BitVec 5) (a : BitVec 5) (b : BitVec 5) (p : BitVec 3) (rm : Rm)
  /-- `FDIV` (R148): Long-latency scalar division, correctly rounded. -/
  | fdiv (t : FTy) (d : BitVec 6) (a : BitVec 6) (la : BitVec 4) (rm : Rm)
  /-- `FDIV_V` (R148): Long-latency vector division. -/
  | fdivV (t : FTy) (d : BitVec 5) (a : BitVec 5) (p : BitVec 3) (la : BitVec 4) (rm : Rm)
  /-- `FSQRT` (R148): Long-latency scalar square root, correctly rounded. -/
  | fsqrt (t : FTy) (d : BitVec 6) (a : BitVec 6) (la : BitVec 4) (rm : Rm)
  /-- `FSQRT_V` (R148): Long-latency vector square root. -/
  | fsqrtV (t : FTy) (d : BitVec 5) (a : BitVec 5) (p : BitVec 3) (la : BitVec 4) (rm : Rm)
  /-- `FMIN` (R149): Scalar floating minimum. -/
  | fmin (t : FTy) (d : BitVec 6) (a : BitVec 6) (b : BitVec 6)
  /-- `FMIN_V` (R149): Vector floating minimum. -/
  | fminV (t : FTy) (d : BitVec 5) (a : BitVec 5) (b : BitVec 5) (p : BitVec 3)
  /-- `FMAX` (R149): Scalar floating maximum. -/
  | fmax (t : FTy) (d : BitVec 6) (a : BitVec 6) (b : BitVec 6)
  /-- `FMAX_V` (R149): Vector floating maximum. -/
  | fmaxV (t : FTy) (d : BitVec 5) (a : BitVec 5) (b : BitVec 5) (p : BitVec 3)
  /-- `FABS` (R150): Scalar absolute value. -/
  | fabs (t : FTy) (d : BitVec 6) (a : BitVec 6)
  /-- `FABS_V` (R150): Vector absolute value. -/
  | fabsV (t : FTy) (d : BitVec 5) (a : BitVec 5) (p : BitVec 3)
  /-- `FNEG` (R150): Scalar negation. -/
  | fneg (t : FTy) (d : BitVec 6) (a : BitVec 6)
  /-- `FNEG_V` (R150): Vector negation. -/
  | fnegV (t : FTy) (d : BitVec 5) (a : BitVec 5) (p : BitVec 3)
  /-- `FCPYS` (R150): Scalar copy-sign. -/
  | fcpys (t : FTy) (d : BitVec 6) (a : BitVec 6) (b : BitVec 6)
  /-- `FCPYS_V` (R150): Vector copy-sign. -/
  | fcpysV (t : FTy) (d : BitVec 5) (a : BitVec 5) (b : BitVec 5) (p : BitVec 3)
  /-- `FCMP` (R151): Scalar floating compare writing a predicate. -/
  | fcmp (t : FTy) (pd : BitVec 3) (a : BitVec 6) (b : BitVec 6) (c : FCmpCond)
  /-- `FCMP_V` (R151): Vector floating compare writing predicate bits. -/
  | fcmpV (dbl : Bool) (pd : BitVec 3) (a : BitVec 5) (b : BitVec 5) (p : BitVec 3) (c : FCmpCond)
  /-- `FCLASS` (R152): Scalar 10-bit class mask of the operand. -/
  | fclass (t : FTy) (d : BitVec 6) (a : BitVec 6)
  /-- `FCLASS_V` (R152): Vector class mask per element. -/
  | fclassV (t : FTy) (d : BitVec 5) (a : BitVec 5) (p : BitVec 3)
  /-- `FRINT` (R153): Scalar round to an integral value in the same format. -/
  | frint (t : FTy) (d : BitVec 6) (a : BitVec 6) (rm : Rm)
  /-- `FRINT_V` (R153): Vector round to integral. -/
  | frintV (t : FTy) (d : BitVec 5) (a : BitVec 5) (p : BitVec 3) (rm : Rm)
  /-- `FCVT` (R154): Scalar conversion between floating formats. -/
  | fcvt (t : Fmt) (d : BitVec 6) (a : BitVec 6) (sat : Bool) (src : Fmt) (rm : Rm)
  /-- `FCVT_V` (R154): Vector conversion between floating formats. -/
  | fcvtV (t : Fmt) (d : BitVec 5) (a : BitVec 5) (sat : Bool) (src : Fmt) (p : BitVec 3) (rm : Rm)
  /-- `FCVTI` (R155): Scalar floating to integer conversion. -/
  | fcvti (t : Fmt) (d : BitVec 6) (a : BitVec 6) (sat : Bool) (uns : Bool) (it : CvtInt) (rm : Rm)
  /-- `FCVTI_V` (R155): Vector floating to integer conversion. -/
  | fcvtiV (t : Fmt) (d : BitVec 5) (a : BitVec 5) (sat : Bool) (uns : Bool) (it : CvtInt) (p : BitVec 3) (rm : Rm)
  /-- `ICVTF` (R155): Scalar integer to floating conversion. -/
  | icvtf (t : Fmt) (d : BitVec 6) (a : BitVec 6) (uns : Bool) (it : CvtInt) (rm : Rm)
  /-- `ICVTF_V` (R155): Vector integer to floating conversion. -/
  | icvtfV (t : Fmt) (d : BitVec 5) (a : BitVec 5) (uns : Bool) (it : CvtInt) (p : BitVec 3) (rm : Rm)
  /-- `FEXP2` (R156): Long-latency scalar 2^x. -/
  | fexp2 (t : FTy) (d : BitVec 6) (a : BitVec 6) (la : BitVec 4) (rm : Rm)
  /-- `FEXP2_V` (R156): Long-latency vector 2^x. -/
  | fexp2V (t : FTy) (d : BitVec 5) (a : BitVec 5) (p : BitVec 3) (la : BitVec 4) (rm : Rm)
  /-- `FLOG2` (R156): Long-latency scalar log2. -/
  | flog2 (t : FTy) (d : BitVec 6) (a : BitVec 6) (la : BitVec 4) (rm : Rm)
  /-- `FLOG2_V` (R156): Long-latency vector log2. -/
  | flog2V (t : FTy) (d : BitVec 5) (a : BitVec 5) (p : BitVec 3) (la : BitVec 4) (rm : Rm)
  /-- `FRCP` (R156): Long-latency scalar reciprocal, correctly rounded. -/
  | frcp (t : FTy) (d : BitVec 6) (a : BitVec 6) (la : BitVec 4) (rm : Rm)
  /-- `FRCP_V` (R156): Long-latency vector reciprocal. -/
  | frcpV (t : FTy) (d : BitVec 5) (a : BitVec 5) (p : BitVec 3) (la : BitVec 4) (rm : Rm)
  /-- `FRSQ` (R156): Long-latency scalar reciprocal square root. -/
  | frsq (t : FTy) (d : BitVec 6) (a : BitVec 6) (la : BitVec 4) (rm : Rm)
  /-- `FRSQ_V` (R156): Long-latency vector reciprocal square root. -/
  | frsqV (t : FTy) (d : BitVec 5) (a : BitVec 5) (p : BitVec 3) (la : BitVec 4) (rm : Rm)
  /-- `FSINPI` (R156): Long-latency scalar sin(pi x). -/
  | fsinpi (t : FTy) (d : BitVec 6) (a : BitVec 6) (la : BitVec 4) (rm : Rm)
  /-- `FSINPI_V` (R156): Long-latency vector sin(pi x). -/
  | fsinpiV (t : FTy) (d : BitVec 5) (a : BitVec 5) (p : BitVec 3) (la : BitVec 4) (rm : Rm)
  /-- `FCOSPI` (R156): Long-latency scalar cos(pi x). -/
  | fcospi (t : FTy) (d : BitVec 6) (a : BitVec 6) (la : BitVec 4) (rm : Rm)
  /-- `FCOSPI_V` (R156): Long-latency vector cos(pi x). -/
  | fcospiV (t : FTy) (d : BitVec 5) (a : BitVec 5) (p : BitVec 3) (la : BitVec 4) (rm : Rm)
  /-- `FTANH` (R156): Long-latency scalar tanh. -/
  | ftanh (t : FTy) (d : BitVec 6) (a : BitVec 6) (la : BitVec 4) (rm : Rm)
  /-- `FTANH_V` (R156): Long-latency vector tanh. -/
  | ftanhV (t : FTy) (d : BitVec 5) (a : BitVec 5) (p : BitVec 3) (la : BitVec 4) (rm : Rm)
  /-- `VBCAST` (R157): Broadcasts g[a] into every lane of a vector. -/
  | vbcast (t : IntTy) (d : BitVec 5) (a : BitVec 6)
  /-- `VEXT` (R157): Extracts a vector lane into g[d] sign-extended. -/
  | vext (t : IntTy) (d : BitVec 6) (a : BitVec 5) (b : BitVec 6)
  /-- `VINS` (R157): Inserts g[a] into one vector lane. -/
  | vins (t : IntTy) (d : BitVec 5) (a : BitVec 6) (b : BitVec 6)
  /-- `VPERM` (R158): Permutes lanes by indices in v[b]. -/
  | vperm (t : IntTy) (d : BitVec 5) (a : BitVec 5) (b : BitVec 5) (p : BitVec 3)
  /-- `VROT` (R158): Rotates lanes by an immediate count. -/
  | vrot (t : IntTy) (d : BitVec 5) (a : BitVec 5) (c : BitVec 5) (p : BitVec 3)
  /-- `VRED` (R160): Reduces the active elements by a fixed pairwise tree. -/
  | vred (t : FTy) (d : BitVec 5) (a : BitVec 5) (fn : VRedFn) (p : BitVec 3) (rm : Rm)
  /-- `VDOT` (R161): Accumulates narrow-element dot products into each FP32 or INT32 lane. -/
  | vdot (t : DotTy) (d : BitVec 5) (a : BitVec 5) (b : BitVec 5) (p : BitVec 3) (rm : Rm)
  /-- `VIOTA` (R159): Writes the lane index into each active lane. -/
  | viota (t : IntTy) (d : BitVec 5) (p : BitVec 3)
  /-- `VSEL` (R159): Selects lanes from v[a] or v[b] by a predicate. -/
  | vsel (t : IntTy) (d : BitVec 5) (a : BitVec 5) (b : BitVec 5) (p : BitVec 3)
  /-- `VPACK` (R162): Rounds 16 FP32 lanes into one part of a packed narrow register. -/
  | vpack (t : Fmt) (d : BitVec 5) (a : BitVec 5) (sat : Bool) (part : BitVec 3) (rm : Rm)
  /-- `VUNPACK` (R162): Widens one part of a packed narrow register into 16 FP32 lanes. -/
  | vunpack (t : Fmt) (d : BitVec 5) (a : BitVec 5) (part : BitVec 3)
  /-- `LODE` (R164): Scalar lode32 draw, raw, u24 or f32. -/
  | lode (d : BitVec 6) (a : BitVec 6) (b : BitVec 6) (fn : LodeFn)
  /-- `LODE_V` (R164): Vector lode32 draws for consecutive counters. -/
  | lodeV (d : BitVec 5) (a : BitVec 5) (b : BitVec 5) (p : BitVec 3) (fn : LodeFn)
  /-- `VSCALE` (R163): Multiplies FP32 lanes by BS24 scales with one rounding. -/
  | vscale (d : BitVec 5) (a : BitVec 5) (b : BitVec 5) (p : BitVec 3) (rm : Rm)
  /-- `RESULT_ARRIVAL` (R32): The value of a long-latency instruction arrives and its pending entry is marked arrived. -/
  | resultArrival (k : ThreadKey) (i : Nat) (far : VWord)
  /-- `LONG_LATENCY_FAULT` (R35): A fault of a long-latency instruction arrives inside its window and is taken precisely with RPL and LEFT. -/
  | longLatencyFault (k : ThreadKey) (i : Nat)
  /-- `WAKE` (R256): A wake message makes a parked thread Ready, or is written into its save area when Spilled. -/
  | wake (k : ThreadKey)
  /-- `STOREFAULT_RECORD` (R297): A store-side fault found behind the port makes a record in the core's store-fault queue. -/
  | storefaultRecord (i : Nat)
  /-- `STOREFAULT_QUEUE_ENTRY` (R298): A record held behind a full queue enters it when an entry frees. -/
  | storefaultQueueEntry (core : Nat)
  /-- `HELD_STORE_PERFORM` (R294): A store held by a parking condition is performed once its page is served and its thread wakes. -/
  | heldStorePerform (i : Nat)
  /-- `TRANSLATION_WALK` (R286): A TLB miss walks the page tables and yields a location, a park, a denial or a service fault. -/
  | translationWalk (island : Nat) (cluster : Nat) (va : Nat)
  /-- `PAGE_SERVED` (R292): The resident service maps or releases a page and parked accesses replay in FIFO order. Its operands say which page-table entries the service writes, each by its location. -/
  | pageServed (island : Nat) (va : Nat) (entries : List (Nat × Word))
  /-- `STOPE_ATOMIC` (R131): An ATOM, CAS, CAS2, RED or message ST.N is performed at the stope engine after recalls. -/
  | stopeAtomic (i : Nat)
  /-- `WCB_DRAIN` (R220): A write-combining buffer entry drains its masked bytes to the home slice. -/
  | wcbDrain (core : Nat) (i : Nat)
  /-- `L1_WRITEBACK` (R218): An evicted or drained L1 line writes back its dirty bytes to be merged at home. -/
  | l1Writeback (core : Nat) (line : Nat) (evict : Bool)
  /-- `COPY_COMPLETION` (R139): A copy hart finishes or stops a copy and makes its arrival. -/
  | copyCompletion (id : Nat) (n : Nat)
  /-- `MATRIX_ACCEPT` (R165): The matrix engine accepts one queued instruction per cycle round-robin when an entry is free. -/
  | matrixAccept (cl : Nat)
  /-- `TILE_CLEAR` (R169): A tile granted by MACQ or named by MZERO is cleared in tile order. -/
  | tileClear (cl : Nat) (id : Nat)
  /-- `TILE_RELEASE` (R170): A tile withdrawn by MREL is released in tile order, cancelling suspended jobs. -/
  | tileRelease (cl : Nat) (id : Nat)
  /-- `MLD_COMPLETION` (R172): An MLD finishes loading its tile, or stops on a fault, and arrives. -/
  | mldCompletion (cl : Nat) (id : Nat) (n : Nat)
  /-- `JOB_BEGIN` (R178): A queued job begins once tile and thread order permit, clearing its tiles when ZERO is set. -/
  | jobBegin (cl : Nat) (id : Nat)
  /-- `JOB_KSTEP` (R178): A job reads one k-step's operands and applies all its updates. -/
  | jobKstep (cl : Nat) (id : Nat)
  /-- `JOB_COMPLETION` (R182): An ended job writes its completion record and arrives at CBAR. -/
  | jobCompletion (cl : Nat) (id : Nat)
  /-- `RING_CHUNK_ARRIVAL` (R180): A ring chunk arrives in a receiver's ring buffer, resetting its watchdog count. -/
  | ringChunkArrival (cl : Nat)
  /-- `RING_WATCHDOG_EXPIRY` (R181): A ring job's wait count reaches WDOG x 4096 and the job ends BROKEN or TIMEOUT. -/
  | ringWatchdogExpiry (cl : Nat) (id : Nat)
  /-- `JOB_FAULT` (R184): A non-parking operand failure suspends the job and queues MATRIXOPERAND for its owner. -/
  | jobFault (cl : Nat) (id : Nat)
  /-- `MDRAIN_PERFORM` (R185): A drain waiting in tile order converts and writes the tile and wakes its thread. -/
  | mdrainPerform (cl : Nat) (id : Nat)
  /-- `MATRIX_ENGINE_FAILURE` (R188): An uncorrectable engine error ends every job DEAD and retires the engine. -/
  | matrixEngineFailure (cl : Nat)
  /-- `CALL_ARRIVAL` (R192): A remote call reaches its stope engine and waits in the call queue for a context. -/
  | callArrival (id : Nat)
  /-- `HANDLER_START` (R194): A free context begins a queued call's handler with its starting state. -/
  | handlerStart (id : Nat)
  /-- `HANDLER_BUDGET` (R194): A handler reaching its 1025th unit ends with status BUDGET. -/
  | handlerBudget (k : ThreadKey)
  /-- `REPLY_ARRIVAL` (R196): A reply is written into its slot with a release, sets the header full and serves the wait list. -/
  | replyArrival (id : Nat)
  /-- `RCALL_TIMEOUT` (R197): No reply within %rcto cycles writes TIMEOUT with a fresh CALLID. -/
  | rcallTimeout (id : Nat)
  /-- `HANDLER_INSTALL` (R199): Every engine of the island holds the new entry and the HSET unit completes. -/
  | handlerInstall (id : Nat)
  /-- `HANDLER_CLEAR` (R199): Every engine of the island has emptied the entry and the HCLR unit completes. -/
  | handlerClear (id : Nat)
  /-- `FREEZE_DRAIN` (R201): The recall of every dirty copy of a frozen range ends and the FRZ unit completes. -/
  | freezeDrain (id : Nat)
  /-- `THAW_ARRIVAL` (R202): After all invalidations are acknowledged the thaw arrives with the count of granules reaching 0. -/
  | thawArrival (id : Nat)
  /-- `ROW_OPERATION_PERFORM` (R205): Stope engines perform a row operation row by row and arrive at its barrier. -/
  | rowOperationPerform (id : Nat) (n : Nat)
  /-- `REPARTITION` (R229): The island's partition control carries out a %wpart write through its steps and completes the MWR. -/
  | repartition (id : Nat)
  /-- `COUPLING_CHECK` (R212): The field finishes checking a new coupling table and the FCPL unit completes. -/
  | couplingCheck (id : Nat)
  /-- `FIELD_PHASE` (R269): Each engine updates its sites of the phase's colour in ascending index and arrives at the phase barrier. -/
  | fieldPhase (island : Nat) (num : Nat) (j : Nat)
  /-- `FIELD_PHASE_BARRIER` (R269): The phase barrier completes when all engines have arrived and the next phase begins. -/
  | fieldPhaseBarrier (island : Nat) (num : Nat)
  /-- `FIELD_SWEEP_END` (R209): The last phase barrier ends a sweep, applying stop, limit, snapshot and coupling swap. -/
  | fieldSweepEnd (island : Nat) (num : Nat)
  /-- `SNAPSHOT_ARRIVAL` (R277): All engines finish copying STATE to TWIN and the snapshot arrives with VALUE m. -/
  | snapshotArrival (island : Nat) (num : Nat)
  /-- `PACKET_DEPENDENCE_READ` (R249): A held head packet's acquiring read of its dependence barrier sees DONE or fails. -/
  | packetDependenceRead (serial : Nat)
  /-- `DISPATCH_DECISION` (R250): The dispatch control places the next crew or gang of the winning Ready queue. -/
  | dispatchDecision (island : Nat)
  /-- `CREW_MEMORY_RELEASE` (R87): A retired crew's scratchpad ranges are freed once every reply and copy has landed or timed out. -/
  | crewMemoryRelease (serial : Nat) (n : Nat)
  /-- `SPILL_SAVE` (R257): After pending entries arrive the spill engine writes the save area and frees the slot. -/
  | spillSave (k : ThreadKey)
  /-- `CORE_FAILURE` (R300): An uncorrectable core error stops the core and terminates its crews with DEADCORE. -/
  | coreFailure (core : Nat)
  /-- `PATROL_SCRUB` (R359): Background scrubbing reads words and rewrites corrected ones indivisibly. -/
  | patrolScrub (loc : Nat) (bad : Bool)
  /-- `CALIBRATION` (R359): A shaft or link lane is retrained while traffic continues. -/
  | calibration (lane : Nat)
  /-- `REFRESH` (R206): A per-bank or all-bank refresh stalls rows until it ends. -/
  | refresh (seam : Nat)
  /-- `LIMIT_SENSE` (R357): Every 10 us the hardware senses current, temperature and power per stack and acts on limits. -/
  | limitSense (stack : Nat) (x : Sensors)
  /-- `CLOCK_STEP_UP` (R357): After every sensor has stayed 5 % below its limit for 1 ms the clocks step up 100 MHz. -/
  | clockStepUp (stack : Nat)
  /-- `LINK_FAILURE` (R307): A failed stack link has its traffic routed the other way round the ring. -/
  | linkFailure (link : Nat)
  /-- `UNIT_RETIREMENT` (R361): A unit whose wear margin falls to 8192 or below is retired by its service core. Its operand is the record
  measured. -/
  | unitRetirement (w : Wear)
  /-- `FAR_MESSAGE_ARRIVAL` (R311): A far message reaches the target module and is performed unless a duplicate. -/
  | farMessageArrival (module : Nat) (core : Nat) (num : Nat) (island : Nat) (req : FarReq)
  /-- `MODULE_RESET` (R353): At power-on or module reset each service core verifies and boots a firmware slot. -/
  | moduleReset
  /-- `RECOVERY_FETCH` (R353): An image fetched from the recovery host arrives and is verified and written. -/
  | recoveryFetch (stack : Nat) (img : Image)
  /-- `LOADIMG` (R354): Verifies a new firmware image and writes it to the other slot. `stack`: whose slot is written now. -/
  | loadimg (h : CmdHeader) (stack : Nat) (img : Image)
  /-- `ISLAND_CREATE` (R302): Creates an island with its shape, tenant, page-table root, %wpart and handle tables. -/
  | islandCreate (h : CmdHeader) (num : Nat) (shape : Shape) (tenant : Nat) (root : Nat) (wpart : Nat) (tables : List Nat)
  /-- `ISLAND_DESTROY` (R302): Destroys an island. -/
  | islandDestroy (h : CmdHeader)
  /-- `PUT` (R314): Writes bytes at an island virtual address, then releases at .dev. -/
  | put (h : CmdHeader) (va : Nat) (bytes : List Byte)
  /-- `GET` (R314): Pushes bytes from an island virtual address into the reply. -/
  | get (h : CmdHeader) (va : Nat) (len : Nat)
  /-- `LAUNCH_COMMAND` (R246): Enqueues a host work packet, refusing an invalid one. -/
  | launchCommand (h : CmdHeader) (packet : BitVec 512)
  /-- `WAIT` (R312): Replies when a named barrier is DONE with its TBTEST value. -/
  | wait (h : CmdHeader) (va : Nat)
  /-- `FREEZE_FRZ` (R201): Command that freezes a range for a host. -/
  | freezeFrz (h : CmdHeader) (va : Nat) (len : Nat)
  /-- `FREEZE_THAW` (R202): Command that thaws a range and replies with the arrival's FAULT and VALUE. -/
  | freezeThaw (h : CmdHeader) (va : Nat) (len : Nat)
  /-- `FREEZE_FRZQ` (R203): Command that returns a granule's freeze state. -/
  | freezeFrzq (h : CmdHeader) (va : Nat)
  /-- `STRAIT_OPEN` (R304): Opens a strait from a reader island to an owner's frozen range. -/
  | straitOpen (h : CmdHeader) (reader : StraitReader) (owner : Nat) (base : Nat) (ngran : Nat) (rate : Nat) (burst : Nat)
  /-- `STRAIT_CLOSE` (R306): Clears OPEN everywhere and invalidates the reader's replicas. -/
  | straitClose (h : CmdHeader) (reader : Nat) (owner : Nat) (base : Nat)
  /-- `FARTAB` (R309): Writes an entry of the island's far-module table (module, island, RUD connection, port), or, with no
  module, empties it. -/
  | fartab (h : CmdHeader) (idx : Nat) (module : Option Nat) (target : Nat) (conn : Nat) (port : Nat)
  /-- `TLBINV` (R289): Invalidates cached translations of a virtual range. -/
  | tlbinv (h : CmdHeader) (va : Nat) (len : Nat)
  /-- `FIELDLINK` (R281): Gives a defined field its global offset, far neighbours, mode and bound. -/
  | fieldlink (h : CmdHeader) (num : Nat) (ext : List Nat) (offset : FieldPart) (lockstep : Bool) (bound : Nat)
  /-- `SPILL_SLOT` (R257): Stops a slot from issuing and starts spilling its thread. -/
  | spillSlot (h : CmdHeader) (k : ThreadKey) (area : Nat)
  /-- `REFILL_SLOT` (R257): Restores a spilled thread into its slot once the slot is free. -/
  | refillSlot (h : CmdHeader) (k : ThreadKey)
  /-- `EVICT_CLUSTER` (R260): Spills every thread of a cluster and writes the cluster save area. -/
  | evictCluster (h : CmdHeader) (cl : Nat) (area : Nat)
  /-- `RESTORE_CLUSTER` (R260): Writes the cluster save area back before its slots are refilled. -/
  | restoreCluster (h : CmdHeader) (cl : Nat) (area : Nat)
  /-- `KILL` (R254): Kills a shift, whose completion carries STATUS 2. -/
  | kill (h : CmdHeader) (serial : Nat)
  /-- `TELEMETRY` (R360): Returns counters, wear records, clock samples and attestation reports. -/
  | telemetry (h : CmdHeader) (q : Telemetry)
  /-- `UNKNOWN_COMMAND` (R312): A command with an unassigned OP is answered REFUSED and changes nothing. -/
  | unknownCommand (h : CmdHeader) (op : Nat)
  /-- `ILLEGAL_WORD` (R52): A word whose op6, sub, type or fields are unassigned or nonzero where zero is required traps ILLEGAL at issue. -/
  | illegalWord (w : BitVec 32) (half : Bool)
  /-- `FAR_ACCESS_TIMEOUT` (R310): A far load, atomic or reduction with no answer within %rcto cycles fails as OWNER, or as a STOREFAULT record for RED. -/
  | farAccessTimeout (core : Nat) (num : Nat)
  /-- `STOPE_ENGINE_FAILURE` (R197): A stope engine fails, so its handlers reply DEAD through the service core and its fields enter state 5 with reason 2. -/
  | stopeEngineFailure (engine : Nat)
  /-- `CORE_REPAIRED_OR_RETIRED` (R300): The service core repairs a failed core, which returns empty, or retires it, releasing the traffic backed up at its port. -/
  | coreRepairedOrRetired (core : Nat) (repaired : Bool)
  /-- `DEBUG_RESUME` (R89): gvdbg resumes a thread parked by BRK in a debug shift, and the thread continues at Xn. -/
  | debugResume (k : ThreadKey)
  /-- `FRAME_OWNERSHIP_WRITE` (R290): The resident service writes a frame ownership entry (assign, scrub, migrate, retire or repair after a service fault), and accesses parked on the frame proceed or are retried. -/
  | frameOwnershipWrite (frame : Nat) (owner : Nat) (st : Nat) (pin : Bool)
  /-- `POWER_LOSS` (R354): Power is lost, interrupting all work including a LOADIMG write, and the other image slot stays intact. -/
  | powerLoss
  /-- `CONNECTION_OPEN` (R312): A ROD command connection is opened and authorised for a set of islands, with its sequence state starting at 1. -/
  | connectionOpen (conn : Link) (islands : List Nat)
  deriving DecidableEq, Repr

end Sys2Proof
end

