-- ==== Sys2Proof/WellFormed.lean ====
section
/-! DEFINITION. The rules of spec/02 (R50 to R52) on the fields of one instruction taken together. What a single
field may hold is already in its type; an instruction word that breaks a rule stated here traps ILLEGAL. -/

namespace Sys2Proof

/-- sz<0> is 1 (Table 2.5: unsigned, MIN and MAX only). -/
def Sz.unsigned : Sz → Bool
  | .wordU | .dblU => true
  | .word | .dbl => false

/-- sz<1> selects a doubleword (Table 2.5). -/
def Sz.isDbl : Sz → Bool
  | .dbl | .dblU => true
  | .word | .wordU => false

/-- ATOM: the unsigned form exists for MIN and MAX only (Table 2.5). -/
def AtomOp.allows (op : AtomOp) (sz : Sz) : Bool :=
  !sz.unsigned || op == .min || op == .max

/-- RED: the unsigned form exists for MIN and MAX only (Table 2.5). -/
def RedOp.allows (op : RedOp) (sz : Sz) : Bool :=
  !sz.unsigned || op == .min || op == .max

/-- The source registers of a row operation must exist (Table 2.7). -/
def RowFn.allows (op : RowFn) (b : BitVec 6) : Bool :=
  match op with
  | .and | .or | .xor => b.toNat ≤ 62
  | .maj3 => b.toNat ≤ 61
  | .not => true

/-- The rounding modes of the approximate functions: 0b000 to 0b011 (Table 2.8, R72). -/
def Rm.isPlain : Rm → Bool
  | .rne | .rtz | .rdn | .rup => true
  | .rna | .rsr | .rod => false

/-- The formats of VPACK and VUNPACK, with the number of parts of a vector register (Table 2.8). -/
def Fmt.parts : Fmt → Nat
  | .e2m1 => 8
  | .e4m3 | .e5m2 => 4
  | .fp16 | .bf16 => 2
  | .fp32 | .fp64 => 0

/-- The lanes of a vector register of an integer type (R45). -/
def IntTy.lanes : IntTy → Nat
  | .i32 => 16
  | .i64 => 8

/-- The rules that an instruction's fields keep together: an instruction that breaks one traps ILLEGAL (R52).
The event rows have no word and no such rule. -/
def Instr.wellFormed : Instr → Bool
  | .atom _ _ _ _ _ op sz => op.allows sz
  | .red _ _ _ _ op sz => op.allows sz
  | .redFadd _ rm _ _ _ _ => rm != .rsr
  | .rret _ a _ => a.toNat ≤ 60
  | .rowop _ _ _ b _ op => op.allows b
  | .lea _ _ _ sh => sh != 7
  | .sel _ _ _ _ p => p != 7
  | .fexp2 _ _ _ _ rm | .flog2 _ _ _ _ rm | .frsq _ _ _ _ rm => rm.isPlain
  | .fsinpi _ _ _ _ rm | .fcospi _ _ _ _ rm | .ftanh _ _ _ _ rm => rm.isPlain
  | .fexp2V _ _ _ _ _ rm | .flog2V _ _ _ _ _ rm | .frsqV _ _ _ _ _ rm => rm.isPlain
  | .fsinpiV _ _ _ _ _ rm | .fcospiV _ _ _ _ _ rm | .ftanhV _ _ _ _ _ rm => rm.isPlain
  | .fcvti t _ _ _ _ _ _ | .icvtf t _ _ _ _ _ => t != .e2m1
  | .fcvtiV t _ _ _ _ _ _ _ | .icvtfV t _ _ _ _ _ _ => t != .e2m1
  | .vred _ _ _ fn _ rm => fn == .add || rm == .rne
  | .vdot t _ _ _ _ rm => t != .int8 || rm == .rne
  | .vrot t _ _ c _ => c.toNat < t.lanes
  | .vpack t _ _ _ part _ => part.toNat < t.parts
  | .vunpack t _ _ part => part.toNat < t.parts
  | _ => true

end Sys2Proof
end

