-- ==== Sys2Proof/Decode.lean ====
section
/-! DEFINITION. The decoder and the encoder (spec/02, R38 to R53). An instruction is one little-endian 32-bit
word; the decoder is total on any bytes and rejects by name. The encoder stands after it and is written from
the same encoding tables; the event rows of the opcode table have no word. -/

namespace Sys2Proof

/-- Why the decoder refuses (R52). -/
inductive DecodeError where
  /-- Fewer than four bytes: no instruction word. -/
  | truncated
  /-- The op6, a selector, a sub-operation, a type or mode code is unassigned, or a bit that must be zero is one. -/
  | unassigned
  /-- The fields are assigned one by one, and a rule on them together fails (`Instr.wellFormed`). -/
  | illFormed
  deriving DecidableEq, Repr

/-- Bits lo + len − 1 : lo of `w`, as a number. -/
def natAt (w lo len : Nat) : Nat := w / 2 ^ lo % 2 ^ len

/-- Bits lo + len − 1 : lo of `w`, as a field. -/
def fieldAt (w lo len : Nat) : BitVec len := BitVec.ofNat len (w / 2 ^ lo)

/-- Bit lo of `w`. -/
def flagAt (w lo : Nat) : Bool := w / 2 ^ lo % 2 == 1


/-- The code of a value of `IntTy` in an instruction word. -/
def IntTy.code : IntTy → Nat
  | .i32 => 0
  | .i64 => 1

/-- The value of `IntTy` that a code names; `none` for an unassigned code. -/
def IntTy.ofCode? : Nat → Option IntTy
  | 0 => some .i32
  | 1 => some .i64
  | _ => none

/-- The code of a value of `FTy` in an instruction word. -/
def FTy.code : FTy → Nat
  | .f16 => 2
  | .bf16 => 3
  | .f32 => 4
  | .f64 => 5

/-- The value of `FTy` that a code names; `none` for an unassigned code. -/
def FTy.ofCode? : Nat → Option FTy
  | 2 => some .f16
  | 3 => some .bf16
  | 4 => some .f32
  | 5 => some .f64
  | _ => none

/-- The code of a value of `Fmt` in an instruction word. -/
def Fmt.code : Fmt → Nat
  | .e2m1 => 0
  | .fp16 => 2
  | .bf16 => 3
  | .fp32 => 4
  | .fp64 => 5
  | .e4m3 => 6
  | .e5m2 => 7

/-- The value of `Fmt` that a code names; `none` for an unassigned code. -/
def Fmt.ofCode? : Nat → Option Fmt
  | 0 => some .e2m1
  | 2 => some .fp16
  | 3 => some .bf16
  | 4 => some .fp32
  | 5 => some .fp64
  | 6 => some .e4m3
  | 7 => some .e5m2
  | _ => none

/-- The code of a value of `DotTy` in an instruction word. -/
def DotTy.code : DotTy → Nat
  | .int8 => 0
  | .e2m1 => 1
  | .fp16 => 2
  | .bf16 => 3
  | .e4m3 => 6
  | .e5m2 => 7

/-- The value of `DotTy` that a code names; `none` for an unassigned code. -/
def DotTy.ofCode? : Nat → Option DotTy
  | 0 => some .int8
  | 1 => some .e2m1
  | 2 => some .fp16
  | 3 => some .bf16
  | 6 => some .e4m3
  | 7 => some .e5m2
  | _ => none

/-- The code of a value of `Rm` in an instruction word. -/
def Rm.code : Rm → Nat
  | .rne => 0
  | .rtz => 1
  | .rdn => 2
  | .rup => 3
  | .rna => 4
  | .rsr => 5
  | .rod => 6

/-- The value of `Rm` that a code names; `none` for an unassigned code. -/
def Rm.ofCode? : Nat → Option Rm
  | 0 => some .rne
  | 1 => some .rtz
  | 2 => some .rdn
  | 3 => some .rup
  | 4 => some .rna
  | 5 => some .rsr
  | 6 => some .rod
  | _ => none

/-- The code of a value of `AddMode` in an instruction word. -/
def AddMode.code : AddMode → Nat
  | .wrap => 0
  | .sat => 1
  | .usat => 2

/-- The value of `AddMode` that a code names; `none` for an unassigned code. -/
def AddMode.ofCode? : Nat → Option AddMode
  | 0 => some .wrap
  | 1 => some .sat
  | 2 => some .usat
  | _ => none

/-- The code of a value of `MulhMode` in an instruction word. -/
def MulhMode.code : MulhMode → Nat
  | .signed => 0
  | .unsigned => 1
  | .signedUnsigned => 2

/-- The value of `MulhMode` that a code names; `none` for an unassigned code. -/
def MulhMode.ofCode? : Nat → Option MulhMode
  | 0 => some .signed
  | 1 => some .unsigned
  | 2 => some .signedUnsigned
  | _ => none

/-- The code of a value of `CmpCond` in an instruction word. -/
def CmpCond.code : CmpCond → Nat
  | .eq => 0
  | .ne => 1
  | .lt => 2
  | .ge => 3
  | .ltu => 4
  | .geu => 5

/-- The value of `CmpCond` that a code names; `none` for an unassigned code. -/
def CmpCond.ofCode? : Nat → Option CmpCond
  | 0 => some .eq
  | 1 => some .ne
  | 2 => some .lt
  | 3 => some .ge
  | 4 => some .ltu
  | 5 => some .geu
  | _ => none

/-- The code of a value of `FCmpCond` in an instruction word. -/
def FCmpCond.code : FCmpCond → Nat
  | .eq => 0
  | .ne => 1
  | .lt => 2
  | .le => 3
  | .un => 4

/-- The value of `FCmpCond` that a code names; `none` for an unassigned code. -/
def FCmpCond.ofCode? : Nat → Option FCmpCond
  | 0 => some .eq
  | 1 => some .ne
  | 2 => some .lt
  | 3 => some .le
  | 4 => some .un
  | _ => none

/-- The code of a value of `CvtInt` in an instruction word. -/
def CvtInt.code : CvtInt → Nat
  | .i32 => 0
  | .i64 => 1
  | .i8 => 2

/-- The value of `CvtInt` that a code names; `none` for an unassigned code. -/
def CvtInt.ofCode? : Nat → Option CvtInt
  | 0 => some .i32
  | 1 => some .i64
  | 2 => some .i8
  | _ => none

/-- The code of a value of `VRedFn` in an instruction word. -/
def VRedFn.code : VRedFn → Nat
  | .add => 0
  | .min => 1
  | .max => 2

/-- The value of `VRedFn` that a code names; `none` for an unassigned code. -/
def VRedFn.ofCode? : Nat → Option VRedFn
  | 0 => some .add
  | 1 => some .min
  | 2 => some .max
  | _ => none

/-- The code of a value of `LodeFn` in an instruction word. -/
def LodeFn.code : LodeFn → Nat
  | .raw => 0
  | .u24 => 1
  | .f32 => 2

/-- The value of `LodeFn` that a code names; `none` for an unassigned code. -/
def LodeFn.ofCode? : Nat → Option LodeFn
  | 0 => some .raw
  | 1 => some .u24
  | 2 => some .f32
  | _ => none

/-- The code of a value of `SegSel` in an instruction word. -/
def SegSel.code : SegSel → Nat
  | .base => 0
  | .length => 1
  | .rights => 2

/-- The value of `SegSel` that a code names; `none` for an unassigned code. -/
def SegSel.ofCode? : Nat → Option SegSel
  | 0 => some .base
  | 1 => some .length
  | 2 => some .rights
  | _ => none

/-- The code of a value of `FenceKind` in an instruction word. -/
def FenceKind.code : FenceKind → Nat
  | .full => 0
  | .acq => 1
  | .rel => 2
  | .sc => 3

/-- The value of `FenceKind` that a code names; `none` for an unassigned code. -/
def FenceKind.ofCode? : Nat → Option FenceKind
  | 0 => some .full
  | 1 => some .acq
  | 2 => some .rel
  | 3 => some .sc
  | _ => none

/-- The code of a value of `Scope` in an instruction word. -/
def Scope.code : Scope → Nat
  | .slot => 0
  | .core => 1
  | .clus => 2
  | .stack => 3
  | .dev => 4
  | .sys => 5

/-- The value of `Scope` that a code names; `none` for an unassigned code. -/
def Scope.ofCode? : Nat → Option Scope
  | 0 => some .slot
  | 1 => some .core
  | 2 => some .clus
  | 3 => some .stack
  | 4 => some .dev
  | 5 => some .sys
  | _ => none

/-- The code of a value of `AtomOp` in an instruction word. -/
def AtomOp.code : AtomOp → Nat
  | .swap => 0
  | .add => 1
  | .and => 2
  | .or => 3
  | .xor => 4
  | .min => 5
  | .max => 6

/-- The value of `AtomOp` that a code names; `none` for an unassigned code. -/
def AtomOp.ofCode? : Nat → Option AtomOp
  | 0 => some .swap
  | 1 => some .add
  | 2 => some .and
  | 3 => some .or
  | 4 => some .xor
  | 5 => some .min
  | 6 => some .max
  | _ => none

/-- The code of a value of `RedOp` in an instruction word. -/
def RedOp.code : RedOp → Nat
  | .add => 0
  | .and => 1
  | .or => 2
  | .xor => 3
  | .min => 4
  | .max => 5

/-- The value of `RedOp` that a code names; `none` for an unassigned code. -/
def RedOp.ofCode? : Nat → Option RedOp
  | 0 => some .add
  | 1 => some .and
  | 2 => some .or
  | 3 => some .xor
  | 4 => some .min
  | 5 => some .max
  | _ => none

/-- The code of a value of `RowFn` in an instruction word. -/
def RowFn.code : RowFn → Nat
  | .and => 2
  | .or => 3
  | .xor => 4
  | .not => 5
  | .maj3 => 6

/-- The value of `RowFn` that a code names; `none` for an unassigned code. -/
def RowFn.ofCode? : Nat → Option RowFn
  | 2 => some .and
  | 3 => some .or
  | 4 => some .xor
  | 5 => some .not
  | 6 => some .maj3
  | _ => none

/-- The code of a value of `Sz` in an instruction word. -/
def Sz.code : Sz → Nat
  | .word => 0
  | .wordU => 1
  | .dbl => 2
  | .dblU => 3

/-- The value of `Sz` that a code names; `none` for an unassigned code. -/
def Sz.ofCode? : Nat → Option Sz
  | 0 => some .word
  | 1 => some .wordU
  | 2 => some .dbl
  | 3 => some .dblU
  | _ => none

/-- The code of a value of `MReg` in an instruction word. -/
def MReg.code : MReg → Nat
  | .tid => 0
  | .nthr => 1
  | .cx => 2
  | .cy => 3
  | .stage => 4
  | .ncx => 5
  | .ncy => 6
  | .nstage => 7
  | .core => 16
  | .tile => 17
  | .stack => 18
  | .island => 19
  | .clk => 20
  | .pkt => 32
  | .args => 33
  | .fmt0 => 48
  | .fmt1 => 49
  | .fmt2 => 50
  | .fmt3 => 51
  | .scl0 => 52
  | .scl1 => 53
  | .scl2 => 54
  | .scl3 => 55
  | .flags => 64
  | .srkey => 65
  | .srctr => 66
  | .tvec => 80
  | .tpc => 81
  | .tcause => 82
  | .tinfo0 => 83
  | .tinfo1 => 84
  | .rcto => 96
  | .inbox => 97
  | .wpart => 112
  | .sfq => 113

/-- The value of `MReg` that a code names; `none` for an unassigned code. -/
def MReg.ofCode? : Nat → Option MReg
  | 0 => some .tid
  | 1 => some .nthr
  | 2 => some .cx
  | 3 => some .cy
  | 4 => some .stage
  | 5 => some .ncx
  | 6 => some .ncy
  | 7 => some .nstage
  | 16 => some .core
  | 17 => some .tile
  | 18 => some .stack
  | 19 => some .island
  | 20 => some .clk
  | 32 => some .pkt
  | 33 => some .args
  | 48 => some .fmt0
  | 49 => some .fmt1
  | 50 => some .fmt2
  | 51 => some .fmt3
  | 52 => some .scl0
  | 53 => some .scl1
  | 54 => some .scl2
  | 55 => some .scl3
  | 64 => some .flags
  | 65 => some .srkey
  | 66 => some .srctr
  | 80 => some .tvec
  | 81 => some .tpc
  | 82 => some .tcause
  | 83 => some .tinfo0
  | 84 => some .tinfo1
  | 96 => some .rcto
  | 97 => some .inbox
  | 112 => some .wpart
  | 113 => some .sfq
  | _ => none

/-- The source code of FCVT, a code of Table 1.5 (R21, R51). -/
def Fmt.srcCode : Fmt → Nat
  | .e4m3 => 0
  | .e5m2 => 1
  | .e2m1 => 2
  | .fp16 => 4
  | .bf16 => 5
  | .fp32 => 6
  | .fp64 => 7

/-- The format a source code of FCVT names; INT8 and the reserved codes are none (R51). -/
def Fmt.ofSrcCode? : Nat → Option Fmt
  | 0 => some .e4m3
  | 1 => some .e5m2
  | 2 => some .e2m1
  | 4 => some .fp16
  | 5 => some .bf16
  | 6 => some .fp32
  | 7 => some .fp64
  | _ => none

/-- C-words of op6 0x00: NOP. -/
def decC00 (low : Nat) (u : Bool) : Option Instr :=
  if natAt low 0 24 = 0 then
    some (.nop u)
  else none

/-- C-words of op6 0x01: BC. -/
def decC01 (low : Nat) (u : Bool) : Option Instr :=
  some (.bc u (fieldAt low 21 3) (flagAt low 20) (fieldAt low 0 20))

/-- C-words of op6 0x02: BZ, BNZ. -/
def decC02 (low : Nat) (u : Bool) : Option Instr :=
  if natAt low 17 1 = 0 then
    some (.bz u (fieldAt low 18 6) (fieldAt low 0 17))
  else if natAt low 17 1 = 1 then
    some (.bnz u (fieldAt low 18 6) (fieldAt low 0 17))
  else none

/-- C-words of op6 0x03: LOOP. -/
def decC03 (low : Nat) (u : Bool) : Option Instr :=
  if natAt low 17 1 = 0 then
    some (.loop u (fieldAt low 18 6) (fieldAt low 0 17))
  else none

/-- C-words of op6 0x04: BI, CALLI, RET. -/
def decC04 (low : Nat) (u : Bool) : Option Instr :=
  if natAt low 0 12 = 0 ∧ natAt low 18 6 = 0 then
    some (.bi u (fieldAt low 12 6))
  else if natAt low 0 12 = 1 ∧ natAt low 18 6 = 0 then
    some (.calli u (fieldAt low 12 6))
  else if natAt low 0 12 = 2 ∧ natAt low 18 6 = 0 then
    some (.ret u (fieldAt low 12 6))
  else none

/-- C-words of op6 0x05: CALL. -/
def decC05 (low : Nat) (u : Bool) : Option Instr :=
  some (.call u (fieldAt low 21 3) (flagAt low 20) (fieldAt low 0 20))

/-- C-words of op6 0x06: EXIT, YIELD, BRK, TRAP, ERET. -/
def decC06 (low : Nat) (u : Bool) : Option Instr :=
  if natAt low 0 24 = 0 then
    some (.exit u)
  else if natAt low 0 24 = 16384 then
    some (.yield u)
  else if natAt low 14 10 = 2 then
    some (.brk u (fieldAt low 0 14))
  else if natAt low 14 10 = 3 then
    some (.trap u (fieldAt low 0 14))
  else if natAt low 0 24 = 65536 then
    some (.eret u)
  else none

/-- C-words of op6 0x07: MRD, MWR. -/
def decC07 (low : Nat) (u : Bool) : Option Instr :=
  if natAt low 12 6 = 0 then
    (MReg.ofCode? (natAt low 0 12)).bind fun m => some (.mrd u (fieldAt low 18 6) m)
  else if natAt low 12 6 = 4 then
    (MReg.ofCode? (natAt low 0 12)).bind fun m => some (.mwr u (fieldAt low 18 6) m)
  else none

/-- C-words of op6 0x08: SEGLD, SEGSUB, SEGQ. -/
def decC08 (low : Nat) (u : Bool) : Option Instr :=
  if natAt low 0 3 = 0 ∧ natAt low 6 6 = 0 ∧ natAt low 18 6 = 0 then
    some (.segld u (fieldAt low 12 6) (fieldAt low 3 3))
  else if natAt low 0 3 = 1 then
    some (.segsub u (fieldAt low 18 6) (fieldAt low 12 6) (fieldAt low 6 6) (fieldAt low 3 3))
  else if natAt low 0 3 = 2 ∧ natAt low 6 6 = 0 then
    (SegSel.ofCode? (natAt low 12 6)).bind fun q => some (.segq u (fieldAt low 18 6) q (fieldAt low 3 3))
  else none

/-- C-words of op6 0x09: LAUNCH, GANG, BARC. -/
def decC09 (low : Nat) (u : Bool) : Option Instr :=
  if natAt low 0 3 = 0 ∧ natAt low 6 6 = 0 then
    some (.launch u (fieldAt low 18 6) (fieldAt low 12 6) (fieldAt low 3 3))
  else if natAt low 0 3 = 1 then
    some (.gang u (fieldAt low 18 6) (fieldAt low 12 6) (fieldAt low 6 6) (fieldAt low 3 3))
  else if natAt low 0 24 = 2 then
    some (.barc u)
  else none

/-- C-words of op6 0x0A: TKILL_THREAD, TKILL_CREW, TKILL_SHIFT. -/
def decC0A (low : Nat) (u : Bool) : Option Instr :=
  if natAt low 0 12 = 0 ∧ natAt low 18 6 = 0 then
    some (.tkillThread u (fieldAt low 12 6))
  else if natAt low 0 24 = 1 then
    some (.tkillCrew u)
  else if natAt low 0 24 = 2 then
    some (.tkillShift u)
  else none

/-- C-words of op6 0x10: LD_B. -/
def decC10 (low : Nat) (u : Bool) : Option Instr :=
  some (.ldB u (fieldAt low 20 4) (fieldAt low 17 3) (fieldAt low 11 6) (fieldAt low 5 6) (fieldAt low 0 5))

/-- C-words of op6 0x11: LD_H. -/
def decC11 (low : Nat) (u : Bool) : Option Instr :=
  some (.ldH u (fieldAt low 20 4) (fieldAt low 17 3) (fieldAt low 11 6) (fieldAt low 5 6) (fieldAt low 0 5))

/-- C-words of op6 0x12: LD_W. -/
def decC12 (low : Nat) (u : Bool) : Option Instr :=
  some (.ldW u (fieldAt low 20 4) (fieldAt low 17 3) (fieldAt low 11 6) (fieldAt low 5 6) (fieldAt low 0 5))

/-- C-words of op6 0x13: LD_D. -/
def decC13 (low : Nat) (u : Bool) : Option Instr :=
  some (.ldD u (fieldAt low 20 4) (fieldAt low 17 3) (fieldAt low 11 6) (fieldAt low 5 6) (fieldAt low 0 5))

/-- C-words of op6 0x14: LD_SB. -/
def decC14 (low : Nat) (u : Bool) : Option Instr :=
  some (.ldSB u (fieldAt low 20 4) (fieldAt low 17 3) (fieldAt low 11 6) (fieldAt low 5 6) (fieldAt low 0 5))

/-- C-words of op6 0x15: LD_SH. -/
def decC15 (low : Nat) (u : Bool) : Option Instr :=
  some (.ldSH u (fieldAt low 20 4) (fieldAt low 17 3) (fieldAt low 11 6) (fieldAt low 5 6) (fieldAt low 0 5))

/-- C-words of op6 0x16: LD_SW. -/
def decC16 (low : Nat) (u : Bool) : Option Instr :=
  some (.ldSW u (fieldAt low 20 4) (fieldAt low 17 3) (fieldAt low 11 6) (fieldAt low 5 6) (fieldAt low 0 5))

/-- C-words of op6 0x17: ST_N. -/
def decC17 (low : Nat) (u : Bool) : Option Instr :=
  if natAt low 20 4 = 0 then
    some (.stN u (fieldAt low 17 3) (fieldAt low 11 6) (fieldAt low 5 6) (fieldAt low 0 5))
  else none

/-- C-words of op6 0x18: ST_B. -/
def decC18 (low : Nat) (u : Bool) : Option Instr :=
  if natAt low 20 4 = 0 then
    some (.stB u (fieldAt low 17 3) (fieldAt low 11 6) (fieldAt low 5 6) (fieldAt low 0 5))
  else none

/-- C-words of op6 0x19: ST_H. -/
def decC19 (low : Nat) (u : Bool) : Option Instr :=
  if natAt low 20 4 = 0 then
    some (.stH u (fieldAt low 17 3) (fieldAt low 11 6) (fieldAt low 5 6) (fieldAt low 0 5))
  else none

/-- C-words of op6 0x1A: ST_W. -/
def decC1A (low : Nat) (u : Bool) : Option Instr :=
  if natAt low 20 4 = 0 then
    some (.stW u (fieldAt low 17 3) (fieldAt low 11 6) (fieldAt low 5 6) (fieldAt low 0 5))
  else none

/-- C-words of op6 0x1B: ST_D. -/
def decC1B (low : Nat) (u : Bool) : Option Instr :=
  if natAt low 20 4 = 0 then
    some (.stD u (fieldAt low 17 3) (fieldAt low 11 6) (fieldAt low 5 6) (fieldAt low 0 5))
  else none

/-- C-words of op6 0x1C: LDV. -/
def decC1C (low : Nat) (u : Bool) : Option Instr :=
  if natAt low 16 1 = 0 then
    some (.ldv u (fieldAt low 20 4) (fieldAt low 17 3) (fieldAt low 11 5) (fieldAt low 5 6) (fieldAt low 0 5))
  else none

/-- C-words of op6 0x1D: STV. -/
def decC1D (low : Nat) (u : Bool) : Option Instr :=
  if natAt low 16 1 = 0 ∧ natAt low 20 4 = 0 then
    some (.stv u (fieldAt low 17 3) (fieldAt low 11 5) (fieldAt low 5 6) (fieldAt low 0 5))
  else none

/-- C-words of op6 0x1E: LDVS, LDVX. -/
def decC1E (low : Nat) (u : Bool) : Option Instr :=
  if natAt low 1 5 = 1 ∧ natAt low 16 1 = 0 then
    some (.ldvs u (fieldAt low 20 4) (fieldAt low 17 3) (fieldAt low 11 5) (fieldAt low 6 5) (flagAt low 0))
  else if natAt low 1 4 = 3 ∧ natAt low 16 1 = 0 then
    some (.ldvx u (fieldAt low 20 4) (fieldAt low 17 3) (fieldAt low 11 5) (fieldAt low 5 6) (flagAt low 0))
  else none

/-- C-words of op6 0x1F: STVS, STVX. -/
def decC1F (low : Nat) (u : Bool) : Option Instr :=
  if natAt low 1 5 = 1 ∧ natAt low 16 1 = 0 ∧ natAt low 20 4 = 0 then
    some (.stvs u (fieldAt low 17 3) (fieldAt low 11 5) (fieldAt low 6 5) (flagAt low 0))
  else if natAt low 1 4 = 3 ∧ natAt low 10 1 = 0 ∧ natAt low 16 1 = 0 ∧ natAt low 20 4 = 0 then
    some (.stvx u (fieldAt low 17 3) (fieldAt low 11 5) (fieldAt low 5 5) (flagAt low 0))
  else none

/-- C-words of op6 0x20: LDS, LDS_CONSUME. -/
def decC20 (low : Nat) (u : Bool) : Option Instr :=
  if natAt low 1 4 = 1 then
    some (.lds u (fieldAt low 20 4) (fieldAt low 17 3) (fieldAt low 11 6) (fieldAt low 5 6) (flagAt low 0))
  else if natAt low 1 4 = 3 then
    some (.ldsConsume u (fieldAt low 20 4) (fieldAt low 17 3) (fieldAt low 11 6) (fieldAt low 5 6) (flagAt low 0))
  else none

/-- C-words of op6 0x21: STS_PRODUCE, STS_OVER. -/
def decC21 (low : Nat) (u : Bool) : Option Instr :=
  if natAt low 1 4 = 1 ∧ natAt low 20 4 = 0 then
    some (.stsProduce u (fieldAt low 17 3) (fieldAt low 11 6) (fieldAt low 5 6) (flagAt low 0))
  else if natAt low 1 4 = 3 ∧ natAt low 20 4 = 0 then
    some (.stsOver u (fieldAt low 17 3) (fieldAt low 11 6) (fieldAt low 5 6) (flagAt low 0))
  else none

/-- C-words of op6 0x22: FESET, FECLR, FEQ. -/
def decC22 (low : Nat) (u : Bool) : Option Instr :=
  if natAt low 0 5 = 3 ∧ natAt low 11 6 = 0 ∧ natAt low 20 4 = 0 then
    some (.feset u (fieldAt low 17 3) (fieldAt low 5 6))
  else if natAt low 0 5 = 7 ∧ natAt low 11 6 = 0 ∧ natAt low 20 4 = 0 then
    some (.feclr u (fieldAt low 17 3) (fieldAt low 5 6))
  else if natAt low 0 5 = 11 ∧ natAt low 20 4 = 0 then
    some (.feq u (fieldAt low 17 3) (fieldAt low 11 6) (fieldAt low 5 6))
  else none

/-- C-words of op6 0x23: ATOM. -/
def decC23 (low : Nat) (u : Bool) : Option Instr :=
  (AtomOp.ofCode? (natAt low 2 3)).bind fun op => (Sz.ofCode? (natAt low 0 2)).bind fun sz => some (.atom u (fieldAt low 20 4) (fieldAt low 17 3) (fieldAt low 11 6) (fieldAt low 5 6) op sz)

/-- C-words of op6 0x24: CAS, CAS2. -/
def decC24 (low : Nat) (u : Bool) : Option Instr :=
  if natAt low 1 4 = 1 ∧ natAt low 11 1 = 0 then
    some (.cas u (fieldAt low 20 4) (fieldAt low 17 3) (fieldAt low 12 5) (fieldAt low 5 6) (flagAt low 0))
  else if natAt low 0 5 = 7 ∧ natAt low 11 2 = 0 then
    some (.cas2 u (fieldAt low 20 4) (fieldAt low 17 3) (fieldAt low 13 4) (fieldAt low 5 6))
  else none

/-- C-words of op6 0x25: RED, RED_FADD. -/
def decC25 (low : Nat) (u : Bool) : Option Instr :=
  if natAt low 0 1 = 0 ∧ natAt low 2 3 = 6 ∧ natAt low 23 1 = 0 then
    (Rm.ofCode? (natAt low 20 3)).bind fun rm => some (.redFadd u rm (fieldAt low 17 3) (fieldAt low 11 6) (fieldAt low 5 6) (flagAt low 1))
  else if natAt low 20 4 = 0 then
    (RedOp.ofCode? (natAt low 2 3)).bind fun op => (Sz.ofCode? (natAt low 0 2)).bind fun sz => some (.red u (fieldAt low 17 3) (fieldAt low 11 6) (fieldAt low 5 6) op sz)
  else none

/-- C-words of op6 0x26: APND. -/
def decC26 (low : Nat) (u : Bool) : Option Instr :=
  if natAt low 0 5 = 3 ∧ natAt low 20 4 = 0 then
    some (.apnd u (fieldAt low 17 3) (fieldAt low 11 6) (fieldAt low 5 6))
  else none

/-- C-words of op6 0x27: FENCE, DRAIN. -/
def decC27 (low : Nat) (u : Bool) : Option Instr :=
  if natAt low 0 3 = 0 ∧ natAt low 8 16 = 0 then
    (FenceKind.ofCode? (natAt low 6 2)).bind fun k => (Scope.ofCode? (natAt low 3 3)).bind fun sc => some (.fence u k sc)
  else if natAt low 0 24 = 1 then
    some (.drain u)
  else none

/-- C-words of op6 0x28: TBINIT, TBEXP, TBARV, TBWAIT, TBTEST. -/
def decC28 (low : Nat) (u : Bool) : Option Instr :=
  if natAt low 0 3 = 0 ∧ natAt low 18 6 = 0 then
    some (.tbinit u (fieldAt low 12 6) (fieldAt low 6 6) (fieldAt low 3 3))
  else if natAt low 0 3 = 1 ∧ natAt low 18 6 = 0 then
    some (.tbexp u (fieldAt low 12 6) (fieldAt low 6 6) (fieldAt low 3 3))
  else if natAt low 0 3 = 2 ∧ natAt low 18 6 = 0 then
    some (.tbarv u (fieldAt low 12 6) (fieldAt low 6 6) (fieldAt low 3 3))
  else if natAt low 0 3 = 3 ∧ natAt low 6 6 = 0 ∧ natAt low 18 6 = 0 then
    some (.tbwait u (fieldAt low 12 6) (fieldAt low 3 3))
  else if natAt low 0 3 = 4 ∧ natAt low 6 6 = 0 then
    some (.tbtest u (fieldAt low 18 6) (fieldAt low 12 6) (fieldAt low 3 3))
  else none

/-- C-words of op6 0x29: XFER, XFER_F. -/
def decC29 (low : Nat) (u : Bool) : Option Instr :=
  if natAt low 0 3 = 0 ∧ natAt low 18 1 = 0 then
    some (.xfer u (fieldAt low 19 5) (fieldAt low 12 6) (fieldAt low 6 6) (fieldAt low 3 3))
  else if natAt low 0 3 = 1 ∧ natAt low 18 1 = 0 then
    some (.xferF u (fieldAt low 19 5) (fieldAt low 12 6) (fieldAt low 6 6) (fieldAt low 3 3))
  else none

/-- C-words of op6 0x2A: GATH. -/
def decC2A (low : Nat) (u : Bool) : Option Instr :=
  if natAt low 0 3 = 0 ∧ natAt low 18 1 = 0 then
    some (.gath u (fieldAt low 19 5) (fieldAt low 12 6) (fieldAt low 6 6) (fieldAt low 3 3))
  else none

/-- C-words of op6 0x2B: RCALL. -/
def decC2B (low : Nat) (u : Bool) : Option Instr :=
  if natAt low 7 2 = 0 then
    some (.rcall u (fieldAt low 18 6) (fieldAt low 12 6) (fieldAt low 9 3) (flagAt low 6) (fieldAt low 3 3) (fieldAt low 0 3))
  else none

/-- C-words of op6 0x2C: RRET, HSET, HCLR. -/
def decC2C (low : Nat) (u : Bool) : Option Instr :=
  if natAt low 0 6 = 0 ∧ natAt low 18 6 = 0 then
    some (.rret u (fieldAt low 12 6) (fieldAt low 6 6))
  else if natAt low 0 3 = 1 ∧ natAt low 6 6 = 0 ∧ natAt low 21 3 = 1 then
    some (.hset u (fieldAt low 18 3) (fieldAt low 12 6) (fieldAt low 3 3))
  else if natAt low 0 3 = 2 ∧ natAt low 6 12 = 0 ∧ natAt low 21 3 = 1 then
    some (.hclr u (fieldAt low 18 3) (fieldAt low 3 3))
  else none

/-- C-words of op6 0x2D: FRZ, THAW, FRZQ. -/
def decC2D (low : Nat) (u : Bool) : Option Instr :=
  if natAt low 0 3 = 0 ∧ natAt low 18 6 = 0 then
    some (.frz u (fieldAt low 12 6) (fieldAt low 6 6) (fieldAt low 3 3))
  else if natAt low 0 3 = 1 then
    some (.thaw u (fieldAt low 18 6) (fieldAt low 12 6) (fieldAt low 6 6) (fieldAt low 3 3))
  else if natAt low 0 3 = 2 ∧ natAt low 6 6 = 0 then
    some (.frzq u (fieldAt low 18 6) (fieldAt low 12 6) (fieldAt low 3 3))
  else none

/-- C-words of op6 0x2E: ROWCPY, ROWSET, ROWOP. -/
def decC2E (low : Nat) (u : Bool) : Option Instr :=
  if natAt low 0 3 = 0 ∧ natAt low 18 1 = 0 then
    some (.rowcpy u (fieldAt low 19 5) (fieldAt low 12 6) (fieldAt low 6 6) (fieldAt low 3 3))
  else if natAt low 0 3 = 1 ∧ natAt low 18 1 = 0 then
    some (.rowset u (fieldAt low 19 5) (fieldAt low 12 6) (fieldAt low 6 6) (fieldAt low 3 3))
  else if natAt low 18 1 = 0 then
    (RowFn.ofCode? (natAt low 0 3)).bind fun op => some (.rowop u (fieldAt low 19 5) (fieldAt low 12 6) (fieldAt low 6 6) (fieldAt low 3 3) op)
  else none

/-- C-words of op6 0x2F: FDEF, FRUN, FSTOP, FSNAP, FCPL, FSTAT. -/
def decC2F (low : Nat) (u : Bool) : Option Instr :=
  if natAt low 0 3 = 0 ∧ natAt low 6 6 = 0 then
    some (.fdef u (fieldAt low 18 6) (fieldAt low 12 6) (fieldAt low 3 3))
  else if natAt low 0 12 = 1 ∧ natAt low 18 6 = 0 then
    some (.frun u (fieldAt low 12 6))
  else if natAt low 0 12 = 2 ∧ natAt low 18 6 = 0 then
    some (.fstop u (fieldAt low 12 6))
  else if natAt low 0 6 = 3 ∧ natAt low 18 6 = 0 then
    some (.fsnap u (fieldAt low 12 6) (fieldAt low 6 6))
  else if natAt low 0 6 = 4 ∧ natAt low 18 6 = 0 then
    some (.fcpl u (fieldAt low 12 6) (fieldAt low 6 6))
  else if natAt low 0 12 = 5 then
    some (.fstat u (fieldAt low 18 6) (fieldAt low 12 6))
  else none

/-- C-words of op6 0x30: MQ, MQ_SP. -/
def decC30 (low : Nat) (u : Bool) : Option Instr :=
  if natAt low 0 3 = 0 ∧ natAt low 10 2 = 0 then
    some (.mq u (fieldAt low 18 6) (fieldAt low 12 6) (fieldAt low 6 4) (fieldAt low 3 3))
  else if natAt low 0 3 = 1 ∧ natAt low 10 2 = 0 then
    some (.mqSP u (fieldAt low 18 6) (fieldAt low 12 6) (fieldAt low 6 4) (fieldAt low 3 3))
  else none

/-- C-words of op6 0x31: MQR, MQR_SP. -/
def decC31 (low : Nat) (u : Bool) : Option Instr :=
  if natAt low 0 3 = 0 ∧ natAt low 10 2 = 0 then
    some (.mqr u (fieldAt low 18 6) (fieldAt low 12 6) (fieldAt low 6 4) (fieldAt low 3 3))
  else if natAt low 0 3 = 1 ∧ natAt low 10 2 = 0 then
    some (.mqrSP u (fieldAt low 18 6) (fieldAt low 12 6) (fieldAt low 6 4) (fieldAt low 3 3))
  else none

/-- C-words of op6 0x32: MACQ, MREL, MZERO, MLD. -/
def decC32 (low : Nat) (u : Bool) : Option Instr :=
  if natAt low 0 12 = 0 then
    some (.macq u (fieldAt low 18 6) (fieldAt low 12 6))
  else if natAt low 0 12 = 1 ∧ natAt low 18 6 = 0 then
    some (.mrel u (fieldAt low 12 6))
  else if natAt low 0 6 = 2 ∧ natAt low 10 14 = 0 then
    some (.mzero u (fieldAt low 6 4))
  else if natAt low 0 3 = 3 ∧ natAt low 10 2 = 0 then
    some (.mld u (fieldAt low 18 6) (fieldAt low 12 6) (fieldAt low 6 4) (fieldAt low 3 3))
  else none

/-- C-words of op6 0x33: MDRAIN. -/
def decC33 (low : Nat) (u : Bool) : Option Instr :=
  if natAt low 10 2 = 0 then
    (Rm.ofCode? (natAt low 0 3)).bind fun rm => some (.mdrain u (fieldAt low 18 6) (fieldAt low 12 6) (fieldAt low 6 4) (fieldAt low 3 3) rm)
  else none

/-- C-words of op6 0x34: MPOLL, MWAIT. -/
def decC34 (low : Nat) (u : Bool) : Option Instr :=
  if natAt low 0 12 = 0 then
    some (.mpoll u (fieldAt low 18 6) (fieldAt low 12 6))
  else if natAt low 0 12 = 1 ∧ natAt low 18 6 = 0 then
    some (.mwait u (fieldAt low 12 6))
  else none

/-- The C-word with operation code `op`, lower 24 bits `low` and U bit `u` (R49, Tables 2.5 and 2.6). -/
def decodeC (op low : Nat) (u : Bool) : Option Instr :=
  match op with
  | 0x00 => decC00 low u
  | 0x01 => decC01 low u
  | 0x02 => decC02 low u
  | 0x03 => decC03 low u
  | 0x04 => decC04 low u
  | 0x05 => decC05 low u
  | 0x06 => decC06 low u
  | 0x07 => decC07 low u
  | 0x08 => decC08 low u
  | 0x09 => decC09 low u
  | 0x0A => decC0A low u
  | 0x10 => decC10 low u
  | 0x11 => decC11 low u
  | 0x12 => decC12 low u
  | 0x13 => decC13 low u
  | 0x14 => decC14 low u
  | 0x15 => decC15 low u
  | 0x16 => decC16 low u
  | 0x17 => decC17 low u
  | 0x18 => decC18 low u
  | 0x19 => decC19 low u
  | 0x1A => decC1A low u
  | 0x1B => decC1B low u
  | 0x1C => decC1C low u
  | 0x1D => decC1D low u
  | 0x1E => decC1E low u
  | 0x1F => decC1F low u
  | 0x20 => decC20 low u
  | 0x21 => decC21 low u
  | 0x22 => decC22 low u
  | 0x23 => decC23 low u
  | 0x24 => decC24 low u
  | 0x25 => decC25 low u
  | 0x26 => decC26 low u
  | 0x27 => decC27 low u
  | 0x28 => decC28 low u
  | 0x29 => decC29 low u
  | 0x2A => decC2A low u
  | 0x2B => decC2B low u
  | 0x2C => decC2C low u
  | 0x2D => decC2D low u
  | 0x2E => decC2E low u
  | 0x2F => decC2F low u
  | 0x30 => decC30 low u
  | 0x31 => decC31 low u
  | 0x32 => decC32 low u
  | 0x33 => decC33 low u
  | 0x34 => decC34 low u
  | _ => none

/-- A-words of op6 0x00: ADD, ADD_V. -/
def decA00 (low : Nat) : Option Instr :=
  if natAt low 22 3 = 0 then
    (IntTy.ofCode? (natAt low 21 1)).bind fun t => (AddMode.ofCode? (natAt low 0 3)).bind fun m => some (.add t (fieldAt low 15 6) (fieldAt low 9 6) (fieldAt low 3 6) m)
  else if natAt low 22 3 = 4 then
    (IntTy.ofCode? (natAt low 21 1)).bind fun t => (AddMode.ofCode? (natAt low 0 3)).bind fun m => some (.addV t (fieldAt low 16 5) (fieldAt low 11 5) (fieldAt low 6 5) (fieldAt low 3 3) m)
  else none

/-- A-words of op6 0x01: SUB, SUB_V. -/
def decA01 (low : Nat) : Option Instr :=
  if natAt low 22 3 = 0 then
    (IntTy.ofCode? (natAt low 21 1)).bind fun t => (AddMode.ofCode? (natAt low 0 3)).bind fun m => some (.sub t (fieldAt low 15 6) (fieldAt low 9 6) (fieldAt low 3 6) m)
  else if natAt low 22 3 = 4 then
    (IntTy.ofCode? (natAt low 21 1)).bind fun t => (AddMode.ofCode? (natAt low 0 3)).bind fun m => some (.subV t (fieldAt low 16 5) (fieldAt low 11 5) (fieldAt low 6 5) (fieldAt low 3 3) m)
  else none

/-- A-words of op6 0x02: MUL, MUL_V. -/
def decA02 (low : Nat) : Option Instr :=
  if natAt low 0 3 = 0 ∧ natAt low 22 3 = 0 then
    (IntTy.ofCode? (natAt low 21 1)).bind fun t => some (.mul t (fieldAt low 15 6) (fieldAt low 9 6) (fieldAt low 3 6))
  else if natAt low 0 3 = 0 ∧ natAt low 22 3 = 4 then
    (IntTy.ofCode? (natAt low 21 1)).bind fun t => some (.mulV t (fieldAt low 16 5) (fieldAt low 11 5) (fieldAt low 6 5) (fieldAt low 3 3))
  else none

/-- A-words of op6 0x03: MULH, MULH_V. -/
def decA03 (low : Nat) : Option Instr :=
  if natAt low 22 3 = 0 then
    (IntTy.ofCode? (natAt low 21 1)).bind fun t => (MulhMode.ofCode? (natAt low 0 3)).bind fun m => some (.mulh t (fieldAt low 15 6) (fieldAt low 9 6) (fieldAt low 3 6) m)
  else if natAt low 22 3 = 4 then
    (IntTy.ofCode? (natAt low 21 1)).bind fun t => (MulhMode.ofCode? (natAt low 0 3)).bind fun m => some (.mulhV t (fieldAt low 16 5) (fieldAt low 11 5) (fieldAt low 6 5) (fieldAt low 3 3) m)
  else none

/-- A-words of op6 0x04: DIV, DIV_V. -/
def decA04 (low : Nat) : Option Instr :=
  if natAt low 1 2 = 0 ∧ natAt low 22 3 = 0 then
    (IntTy.ofCode? (natAt low 21 1)).bind fun t => some (.div t (fieldAt low 15 6) (fieldAt low 9 6) (fieldAt low 3 6) (flagAt low 0))
  else if natAt low 1 2 = 0 ∧ natAt low 22 3 = 4 then
    (IntTy.ofCode? (natAt low 21 1)).bind fun t => some (.divV t (fieldAt low 16 5) (fieldAt low 11 5) (fieldAt low 6 5) (fieldAt low 3 3) (flagAt low 0))
  else none

/-- A-words of op6 0x05: REM, REM_V. -/
def decA05 (low : Nat) : Option Instr :=
  if natAt low 1 2 = 0 ∧ natAt low 22 3 = 0 then
    (IntTy.ofCode? (natAt low 21 1)).bind fun t => some (.rem t (fieldAt low 15 6) (fieldAt low 9 6) (fieldAt low 3 6) (flagAt low 0))
  else if natAt low 1 2 = 0 ∧ natAt low 22 3 = 4 then
    (IntTy.ofCode? (natAt low 21 1)).bind fun t => some (.remV t (fieldAt low 16 5) (fieldAt low 11 5) (fieldAt low 6 5) (fieldAt low 3 3) (flagAt low 0))
  else none

/-- A-words of op6 0x06: AND, AND_V. -/
def decA06 (low : Nat) : Option Instr :=
  if natAt low 0 3 = 0 ∧ natAt low 22 3 = 0 then
    (IntTy.ofCode? (natAt low 21 1)).bind fun t => some (.and t (fieldAt low 15 6) (fieldAt low 9 6) (fieldAt low 3 6))
  else if natAt low 0 3 = 0 ∧ natAt low 22 3 = 4 then
    (IntTy.ofCode? (natAt low 21 1)).bind fun t => some (.andV t (fieldAt low 16 5) (fieldAt low 11 5) (fieldAt low 6 5) (fieldAt low 3 3))
  else none

/-- A-words of op6 0x07: OR, OR_V. -/
def decA07 (low : Nat) : Option Instr :=
  if natAt low 0 3 = 0 ∧ natAt low 22 3 = 0 then
    (IntTy.ofCode? (natAt low 21 1)).bind fun t => some (.or t (fieldAt low 15 6) (fieldAt low 9 6) (fieldAt low 3 6))
  else if natAt low 0 3 = 0 ∧ natAt low 22 3 = 4 then
    (IntTy.ofCode? (natAt low 21 1)).bind fun t => some (.orV t (fieldAt low 16 5) (fieldAt low 11 5) (fieldAt low 6 5) (fieldAt low 3 3))
  else none

/-- A-words of op6 0x08: XOR, XOR_V. -/
def decA08 (low : Nat) : Option Instr :=
  if natAt low 0 3 = 0 ∧ natAt low 22 3 = 0 then
    (IntTy.ofCode? (natAt low 21 1)).bind fun t => some (.xor t (fieldAt low 15 6) (fieldAt low 9 6) (fieldAt low 3 6))
  else if natAt low 0 3 = 0 ∧ natAt low 22 3 = 4 then
    (IntTy.ofCode? (natAt low 21 1)).bind fun t => some (.xorV t (fieldAt low 16 5) (fieldAt low 11 5) (fieldAt low 6 5) (fieldAt low 3 3))
  else none

/-- A-words of op6 0x09: ANDN, ANDN_V. -/
def decA09 (low : Nat) : Option Instr :=
  if natAt low 0 3 = 0 ∧ natAt low 22 3 = 0 then
    (IntTy.ofCode? (natAt low 21 1)).bind fun t => some (.andn t (fieldAt low 15 6) (fieldAt low 9 6) (fieldAt low 3 6))
  else if natAt low 0 3 = 0 ∧ natAt low 22 3 = 4 then
    (IntTy.ofCode? (natAt low 21 1)).bind fun t => some (.andnV t (fieldAt low 16 5) (fieldAt low 11 5) (fieldAt low 6 5) (fieldAt low 3 3))
  else none

/-- A-words of op6 0x0A: SHL, SHL_V. -/
def decA0A (low : Nat) : Option Instr :=
  if natAt low 0 3 = 0 ∧ natAt low 22 3 = 0 then
    (IntTy.ofCode? (natAt low 21 1)).bind fun t => some (.shl t (fieldAt low 15 6) (fieldAt low 9 6) (fieldAt low 3 6))
  else if natAt low 0 3 = 0 ∧ natAt low 22 3 = 4 then
    (IntTy.ofCode? (natAt low 21 1)).bind fun t => some (.shlV t (fieldAt low 16 5) (fieldAt low 11 5) (fieldAt low 6 5) (fieldAt low 3 3))
  else none

/-- A-words of op6 0x0B: SHR, SHR_V. -/
def decA0B (low : Nat) : Option Instr :=
  if natAt low 0 3 = 0 ∧ natAt low 22 3 = 0 then
    (IntTy.ofCode? (natAt low 21 1)).bind fun t => some (.shr t (fieldAt low 15 6) (fieldAt low 9 6) (fieldAt low 3 6))
  else if natAt low 0 3 = 0 ∧ natAt low 22 3 = 4 then
    (IntTy.ofCode? (natAt low 21 1)).bind fun t => some (.shrV t (fieldAt low 16 5) (fieldAt low 11 5) (fieldAt low 6 5) (fieldAt low 3 3))
  else none

/-- A-words of op6 0x0C: SRA, SRA_V. -/
def decA0C (low : Nat) : Option Instr :=
  if natAt low 0 3 = 0 ∧ natAt low 22 3 = 0 then
    (IntTy.ofCode? (natAt low 21 1)).bind fun t => some (.sra t (fieldAt low 15 6) (fieldAt low 9 6) (fieldAt low 3 6))
  else if natAt low 0 3 = 0 ∧ natAt low 22 3 = 4 then
    (IntTy.ofCode? (natAt low 21 1)).bind fun t => some (.sraV t (fieldAt low 16 5) (fieldAt low 11 5) (fieldAt low 6 5) (fieldAt low 3 3))
  else none

/-- A-words of op6 0x0D: ROT, ROT_V. -/
def decA0D (low : Nat) : Option Instr :=
  if natAt low 0 3 = 0 ∧ natAt low 22 3 = 0 then
    (IntTy.ofCode? (natAt low 21 1)).bind fun t => some (.rot t (fieldAt low 15 6) (fieldAt low 9 6) (fieldAt low 3 6))
  else if natAt low 0 3 = 0 ∧ natAt low 22 3 = 4 then
    (IntTy.ofCode? (natAt low 21 1)).bind fun t => some (.rotV t (fieldAt low 16 5) (fieldAt low 11 5) (fieldAt low 6 5) (fieldAt low 3 3))
  else none

/-- A-words of op6 0x0E: MIN, MIN_V. -/
def decA0E (low : Nat) : Option Instr :=
  if natAt low 1 2 = 0 ∧ natAt low 22 3 = 0 then
    (IntTy.ofCode? (natAt low 21 1)).bind fun t => some (.min t (fieldAt low 15 6) (fieldAt low 9 6) (fieldAt low 3 6) (flagAt low 0))
  else if natAt low 1 2 = 0 ∧ natAt low 22 3 = 4 then
    (IntTy.ofCode? (natAt low 21 1)).bind fun t => some (.minV t (fieldAt low 16 5) (fieldAt low 11 5) (fieldAt low 6 5) (fieldAt low 3 3) (flagAt low 0))
  else none

/-- A-words of op6 0x0F: MAX, MAX_V. -/
def decA0F (low : Nat) : Option Instr :=
  if natAt low 1 2 = 0 ∧ natAt low 22 3 = 0 then
    (IntTy.ofCode? (natAt low 21 1)).bind fun t => some (.max t (fieldAt low 15 6) (fieldAt low 9 6) (fieldAt low 3 6) (flagAt low 0))
  else if natAt low 1 2 = 0 ∧ natAt low 22 3 = 4 then
    (IntTy.ofCode? (natAt low 21 1)).bind fun t => some (.maxV t (fieldAt low 16 5) (fieldAt low 11 5) (fieldAt low 6 5) (fieldAt low 3 3) (flagAt low 0))
  else none

/-- A-words of op6 0x10: CLZ, CLZ_V, CTZ, CTZ_V, POPC, POPC_V, BREV, BREV_V, BSWAP, BSWAP_V. -/
def decA10 (low : Nat) : Option Instr :=
  if natAt low 0 9 = 0 ∧ natAt low 22 3 = 0 then
    (IntTy.ofCode? (natAt low 21 1)).bind fun t => some (.clz t (fieldAt low 15 6) (fieldAt low 9 6))
  else if natAt low 0 3 = 0 ∧ natAt low 6 5 = 0 ∧ natAt low 22 3 = 4 then
    (IntTy.ofCode? (natAt low 21 1)).bind fun t => some (.clzV t (fieldAt low 16 5) (fieldAt low 11 5) (fieldAt low 3 3))
  else if natAt low 0 9 = 1 ∧ natAt low 22 3 = 0 then
    (IntTy.ofCode? (natAt low 21 1)).bind fun t => some (.ctz t (fieldAt low 15 6) (fieldAt low 9 6))
  else if natAt low 0 3 = 1 ∧ natAt low 6 5 = 0 ∧ natAt low 22 3 = 4 then
    (IntTy.ofCode? (natAt low 21 1)).bind fun t => some (.ctzV t (fieldAt low 16 5) (fieldAt low 11 5) (fieldAt low 3 3))
  else if natAt low 0 9 = 2 ∧ natAt low 22 3 = 0 then
    (IntTy.ofCode? (natAt low 21 1)).bind fun t => some (.popc t (fieldAt low 15 6) (fieldAt low 9 6))
  else if natAt low 0 3 = 2 ∧ natAt low 6 5 = 0 ∧ natAt low 22 3 = 4 then
    (IntTy.ofCode? (natAt low 21 1)).bind fun t => some (.popcV t (fieldAt low 16 5) (fieldAt low 11 5) (fieldAt low 3 3))
  else if natAt low 0 9 = 3 ∧ natAt low 22 3 = 0 then
    (IntTy.ofCode? (natAt low 21 1)).bind fun t => some (.brev t (fieldAt low 15 6) (fieldAt low 9 6))
  else if natAt low 0 3 = 3 ∧ natAt low 6 5 = 0 ∧ natAt low 22 3 = 4 then
    (IntTy.ofCode? (natAt low 21 1)).bind fun t => some (.brevV t (fieldAt low 16 5) (fieldAt low 11 5) (fieldAt low 3 3))
  else if natAt low 0 9 = 4 ∧ natAt low 22 3 = 0 then
    (IntTy.ofCode? (natAt low 21 1)).bind fun t => some (.bswap t (fieldAt low 15 6) (fieldAt low 9 6))
  else if natAt low 0 3 = 4 ∧ natAt low 6 5 = 0 ∧ natAt low 22 3 = 4 then
    (IntTy.ofCode? (natAt low 21 1)).bind fun t => some (.bswapV t (fieldAt low 16 5) (fieldAt low 11 5) (fieldAt low 3 3))
  else none

/-- A-words of op6 0x11: BFX, BFX_V. -/
def decA11 (low : Nat) : Option Instr :=
  if natAt low 1 2 = 0 ∧ natAt low 22 3 = 0 then
    (IntTy.ofCode? (natAt low 21 1)).bind fun t => some (.bfx t (fieldAt low 15 6) (fieldAt low 9 6) (fieldAt low 3 6) (flagAt low 0))
  else if natAt low 1 2 = 0 ∧ natAt low 22 3 = 4 then
    (IntTy.ofCode? (natAt low 21 1)).bind fun t => some (.bfxV t (fieldAt low 16 5) (fieldAt low 11 5) (fieldAt low 6 5) (fieldAt low 3 3) (flagAt low 0))
  else none

/-- A-words of op6 0x12: BFI, BFI_V. -/
def decA12 (low : Nat) : Option Instr :=
  if natAt low 0 3 = 0 ∧ natAt low 22 3 = 0 then
    (IntTy.ofCode? (natAt low 21 1)).bind fun t => some (.bfi t (fieldAt low 15 6) (fieldAt low 9 6) (fieldAt low 3 6))
  else if natAt low 0 3 = 0 ∧ natAt low 22 3 = 4 then
    (IntTy.ofCode? (natAt low 21 1)).bind fun t => some (.bfiV t (fieldAt low 16 5) (fieldAt low 11 5) (fieldAt low 6 5) (fieldAt low 3 3))
  else none

/-- A-words of op6 0x13: SEL. -/
def decA13 (low : Nat) : Option Instr :=
  if natAt low 22 3 = 0 then
    (IntTy.ofCode? (natAt low 21 1)).bind fun t => some (.sel t (fieldAt low 15 6) (fieldAt low 9 6) (fieldAt low 3 6) (fieldAt low 0 3))
  else none

/-- A-words of op6 0x14: CMP, CMP_V. -/
def decA14 (low : Nat) : Option Instr :=
  if natAt low 18 3 = 0 ∧ natAt low 22 3 = 0 then
    (IntTy.ofCode? (natAt low 21 1)).bind fun t => (CmpCond.ofCode? (natAt low 0 3)).bind fun c => some (.cmp t (fieldAt low 15 3) (fieldAt low 9 6) (fieldAt low 3 6) c)
  else if natAt low 19 2 = 0 ∧ natAt low 22 3 = 4 then
    (IntTy.ofCode? (natAt low 21 1)).bind fun t => (CmpCond.ofCode? (natAt low 0 3)).bind fun c => some (.cmpV t (fieldAt low 16 3) (fieldAt low 11 5) (fieldAt low 6 5) (fieldAt low 3 3) c)
  else none

/-- A-words of op6 0x15: PAND, POR, PXOR, PNOT, PMOV_P, PMOV_G. -/
def decA15 (low : Nat) : Option Instr :=
  if natAt low 0 3 = 0 ∧ natAt low 6 3 = 0 ∧ natAt low 12 3 = 0 ∧ natAt low 18 7 = 0 then
    some (.pand (fieldAt low 15 3) (fieldAt low 9 3) (fieldAt low 3 3))
  else if natAt low 0 3 = 1 ∧ natAt low 6 3 = 0 ∧ natAt low 12 3 = 0 ∧ natAt low 18 7 = 0 then
    some (.por (fieldAt low 15 3) (fieldAt low 9 3) (fieldAt low 3 3))
  else if natAt low 0 3 = 2 ∧ natAt low 6 3 = 0 ∧ natAt low 12 3 = 0 ∧ natAt low 18 7 = 0 then
    some (.pxor (fieldAt low 15 3) (fieldAt low 9 3) (fieldAt low 3 3))
  else if natAt low 0 9 = 3 ∧ natAt low 12 3 = 0 ∧ natAt low 18 7 = 0 then
    some (.pnot (fieldAt low 15 3) (fieldAt low 9 3))
  else if natAt low 0 9 = 4 ∧ natAt low 18 7 = 0 then
    some (.pmovP (fieldAt low 15 3) (fieldAt low 9 6))
  else if natAt low 0 9 = 5 ∧ natAt low 12 3 = 0 ∧ natAt low 21 4 = 0 then
    some (.pmovG (fieldAt low 15 6) (fieldAt low 9 3))
  else none

/-- A-words of op6 0x16: ADDI. -/
def decA16 (low : Nat) : Option Instr :=
  some (.addi (fieldAt low 19 6) (fieldAt low 13 6) (fieldAt low 0 13))

/-- A-words of op6 0x17: ANDI. -/
def decA17 (low : Nat) : Option Instr :=
  some (.andi (fieldAt low 19 6) (fieldAt low 13 6) (fieldAt low 0 13))

/-- A-words of op6 0x18: ORI. -/
def decA18 (low : Nat) : Option Instr :=
  some (.ori (fieldAt low 19 6) (fieldAt low 13 6) (fieldAt low 0 13))

/-- A-words of op6 0x19: XORI. -/
def decA19 (low : Nat) : Option Instr :=
  some (.xori (fieldAt low 19 6) (fieldAt low 13 6) (fieldAt low 0 13))

/-- A-words of op6 0x1A: SHLI, SHRI, SRAI. -/
def decA1A (low : Nat) : Option Instr :=
  if natAt low 6 7 = 0 then
    some (.shli (fieldAt low 19 6) (fieldAt low 13 6) (fieldAt low 0 6))
  else if natAt low 6 7 = 32 then
    some (.shri (fieldAt low 19 6) (fieldAt low 13 6) (fieldAt low 0 6))
  else if natAt low 6 7 = 64 then
    some (.srai (fieldAt low 19 6) (fieldAt low 13 6) (fieldAt low 0 6))
  else none

/-- A-words of op6 0x1B: MOVI. -/
def decA1B (low : Nat) : Option Instr :=
  some (.movi (fieldAt low 19 6) (fieldAt low 0 19))

/-- A-words of op6 0x1C: MOVH. -/
def decA1C (low : Nat) : Option Instr :=
  if natAt low 16 1 = 0 then
    some (.movh (fieldAt low 19 6) (fieldAt low 17 2) (fieldAt low 0 16))
  else none

/-- A-words of op6 0x1D: LEA. -/
def decA1D (low : Nat) : Option Instr :=
  if natAt low 21 4 = 1 then
    some (.lea (fieldAt low 15 6) (fieldAt low 9 6) (fieldAt low 3 6) (fieldAt low 0 3))
  else none

/-- A-words of op6 0x20: FADD, FADD_V. -/
def decA20 (low : Nat) : Option Instr :=
  if natAt low 24 1 = 0 then
    (FTy.ofCode? (natAt low 21 3)).bind fun t => (Rm.ofCode? (natAt low 0 3)).bind fun rm => some (.fadd t (fieldAt low 15 6) (fieldAt low 9 6) (fieldAt low 3 6) rm)
  else if natAt low 24 1 = 1 then
    (FTy.ofCode? (natAt low 21 3)).bind fun t => (Rm.ofCode? (natAt low 0 3)).bind fun rm => some (.faddV t (fieldAt low 16 5) (fieldAt low 11 5) (fieldAt low 6 5) (fieldAt low 3 3) rm)
  else none

/-- A-words of op6 0x21: FSUB, FSUB_V. -/
def decA21 (low : Nat) : Option Instr :=
  if natAt low 24 1 = 0 then
    (FTy.ofCode? (natAt low 21 3)).bind fun t => (Rm.ofCode? (natAt low 0 3)).bind fun rm => some (.fsub t (fieldAt low 15 6) (fieldAt low 9 6) (fieldAt low 3 6) rm)
  else if natAt low 24 1 = 1 then
    (FTy.ofCode? (natAt low 21 3)).bind fun t => (Rm.ofCode? (natAt low 0 3)).bind fun rm => some (.fsubV t (fieldAt low 16 5) (fieldAt low 11 5) (fieldAt low 6 5) (fieldAt low 3 3) rm)
  else none

/-- A-words of op6 0x22: FMUL, FMUL_V. -/
def decA22 (low : Nat) : Option Instr :=
  if natAt low 24 1 = 0 then
    (FTy.ofCode? (natAt low 21 3)).bind fun t => (Rm.ofCode? (natAt low 0 3)).bind fun rm => some (.fmul t (fieldAt low 15 6) (fieldAt low 9 6) (fieldAt low 3 6) rm)
  else if natAt low 24 1 = 1 then
    (FTy.ofCode? (natAt low 21 3)).bind fun t => (Rm.ofCode? (natAt low 0 3)).bind fun rm => some (.fmulV t (fieldAt low 16 5) (fieldAt low 11 5) (fieldAt low 6 5) (fieldAt low 3 3) rm)
  else none

/-- A-words of op6 0x23: FMA, FMA_V. -/
def decA23 (low : Nat) : Option Instr :=
  if natAt low 24 1 = 0 then
    (FTy.ofCode? (natAt low 21 3)).bind fun t => (Rm.ofCode? (natAt low 0 3)).bind fun rm => some (.fma t (fieldAt low 15 6) (fieldAt low 9 6) (fieldAt low 3 6) rm)
  else if natAt low 24 1 = 1 then
    (FTy.ofCode? (natAt low 21 3)).bind fun t => (Rm.ofCode? (natAt low 0 3)).bind fun rm => some (.fmaV t (fieldAt low 16 5) (fieldAt low 11 5) (fieldAt low 6 5) (fieldAt low 3 3) rm)
  else none

/-- A-words of op6 0x24: FMS, FMS_V. -/
def decA24 (low : Nat) : Option Instr :=
  if natAt low 24 1 = 0 then
    (FTy.ofCode? (natAt low 21 3)).bind fun t => (Rm.ofCode? (natAt low 0 3)).bind fun rm => some (.fms t (fieldAt low 15 6) (fieldAt low 9 6) (fieldAt low 3 6) rm)
  else if natAt low 24 1 = 1 then
    (FTy.ofCode? (natAt low 21 3)).bind fun t => (Rm.ofCode? (natAt low 0 3)).bind fun rm => some (.fmsV t (fieldAt low 16 5) (fieldAt low 11 5) (fieldAt low 6 5) (fieldAt low 3 3) rm)
  else none

/-- A-words of op6 0x25: FNMA, FNMA_V. -/
def decA25 (low : Nat) : Option Instr :=
  if natAt low 24 1 = 0 then
    (FTy.ofCode? (natAt low 21 3)).bind fun t => (Rm.ofCode? (natAt low 0 3)).bind fun rm => some (.fnma t (fieldAt low 15 6) (fieldAt low 9 6) (fieldAt low 3 6) rm)
  else if natAt low 24 1 = 1 then
    (FTy.ofCode? (natAt low 21 3)).bind fun t => (Rm.ofCode? (natAt low 0 3)).bind fun rm => some (.fnmaV t (fieldAt low 16 5) (fieldAt low 11 5) (fieldAt low 6 5) (fieldAt low 3 3) rm)
  else none

/-- A-words of op6 0x26: FDIV, FDIV_V. -/
def decA26 (low : Nat) : Option Instr :=
  if natAt low 3 2 = 0 ∧ natAt low 24 1 = 0 then
    (FTy.ofCode? (natAt low 21 3)).bind fun t => (Rm.ofCode? (natAt low 0 3)).bind fun rm => some (.fdiv t (fieldAt low 15 6) (fieldAt low 9 6) (fieldAt low 5 4) rm)
  else if natAt low 3 1 = 0 ∧ natAt low 24 1 = 1 then
    (FTy.ofCode? (natAt low 21 3)).bind fun t => (Rm.ofCode? (natAt low 0 3)).bind fun rm => some (.fdivV t (fieldAt low 16 5) (fieldAt low 11 5) (fieldAt low 8 3) (fieldAt low 4 4) rm)
  else none

/-- A-words of op6 0x27: FSQRT, FSQRT_V. -/
def decA27 (low : Nat) : Option Instr :=
  if natAt low 3 2 = 0 ∧ natAt low 24 1 = 0 then
    (FTy.ofCode? (natAt low 21 3)).bind fun t => (Rm.ofCode? (natAt low 0 3)).bind fun rm => some (.fsqrt t (fieldAt low 15 6) (fieldAt low 9 6) (fieldAt low 5 4) rm)
  else if natAt low 3 1 = 0 ∧ natAt low 24 1 = 1 then
    (FTy.ofCode? (natAt low 21 3)).bind fun t => (Rm.ofCode? (natAt low 0 3)).bind fun rm => some (.fsqrtV t (fieldAt low 16 5) (fieldAt low 11 5) (fieldAt low 8 3) (fieldAt low 4 4) rm)
  else none

/-- A-words of op6 0x28: FMIN, FMIN_V. -/
def decA28 (low : Nat) : Option Instr :=
  if natAt low 0 3 = 0 ∧ natAt low 24 1 = 0 then
    (FTy.ofCode? (natAt low 21 3)).bind fun t => some (.fmin t (fieldAt low 15 6) (fieldAt low 9 6) (fieldAt low 3 6))
  else if natAt low 0 3 = 0 ∧ natAt low 24 1 = 1 then
    (FTy.ofCode? (natAt low 21 3)).bind fun t => some (.fminV t (fieldAt low 16 5) (fieldAt low 11 5) (fieldAt low 6 5) (fieldAt low 3 3))
  else none

/-- A-words of op6 0x29: FMAX, FMAX_V. -/
def decA29 (low : Nat) : Option Instr :=
  if natAt low 0 3 = 0 ∧ natAt low 24 1 = 0 then
    (FTy.ofCode? (natAt low 21 3)).bind fun t => some (.fmax t (fieldAt low 15 6) (fieldAt low 9 6) (fieldAt low 3 6))
  else if natAt low 0 3 = 0 ∧ natAt low 24 1 = 1 then
    (FTy.ofCode? (natAt low 21 3)).bind fun t => some (.fmaxV t (fieldAt low 16 5) (fieldAt low 11 5) (fieldAt low 6 5) (fieldAt low 3 3))
  else none

/-- A-words of op6 0x2A: FABS, FABS_V, FNEG, FNEG_V, FCPYS, FCPYS_V. -/
def decA2A (low : Nat) : Option Instr :=
  if natAt low 0 9 = 0 ∧ natAt low 24 1 = 0 then
    (FTy.ofCode? (natAt low 21 3)).bind fun t => some (.fabs t (fieldAt low 15 6) (fieldAt low 9 6))
  else if natAt low 0 3 = 0 ∧ natAt low 6 5 = 0 ∧ natAt low 24 1 = 1 then
    (FTy.ofCode? (natAt low 21 3)).bind fun t => some (.fabsV t (fieldAt low 16 5) (fieldAt low 11 5) (fieldAt low 3 3))
  else if natAt low 0 9 = 1 ∧ natAt low 24 1 = 0 then
    (FTy.ofCode? (natAt low 21 3)).bind fun t => some (.fneg t (fieldAt low 15 6) (fieldAt low 9 6))
  else if natAt low 0 3 = 1 ∧ natAt low 6 5 = 0 ∧ natAt low 24 1 = 1 then
    (FTy.ofCode? (natAt low 21 3)).bind fun t => some (.fnegV t (fieldAt low 16 5) (fieldAt low 11 5) (fieldAt low 3 3))
  else if natAt low 0 3 = 2 ∧ natAt low 24 1 = 0 then
    (FTy.ofCode? (natAt low 21 3)).bind fun t => some (.fcpys t (fieldAt low 15 6) (fieldAt low 9 6) (fieldAt low 3 6))
  else if natAt low 0 3 = 2 ∧ natAt low 24 1 = 1 then
    (FTy.ofCode? (natAt low 21 3)).bind fun t => some (.fcpysV t (fieldAt low 16 5) (fieldAt low 11 5) (fieldAt low 6 5) (fieldAt low 3 3))
  else none

/-- A-words of op6 0x2B: FCMP, FCMP_V. -/
def decA2B (low : Nat) : Option Instr :=
  if natAt low 18 3 = 0 ∧ natAt low 24 1 = 0 then
    (FTy.ofCode? (natAt low 21 3)).bind fun t => (FCmpCond.ofCode? (natAt low 0 3)).bind fun c => some (.fcmp t (fieldAt low 15 3) (fieldAt low 9 6) (fieldAt low 3 6) c)
  else if natAt low 19 2 = 0 ∧ natAt low 22 3 = 6 then
    (FCmpCond.ofCode? (natAt low 0 3)).bind fun c => some (.fcmpV (flagAt low 21) (fieldAt low 16 3) (fieldAt low 11 5) (fieldAt low 6 5) (fieldAt low 3 3) c)
  else none

/-- A-words of op6 0x2C: FCLASS, FCLASS_V. -/
def decA2C (low : Nat) : Option Instr :=
  if natAt low 0 9 = 0 ∧ natAt low 24 1 = 0 then
    (FTy.ofCode? (natAt low 21 3)).bind fun t => some (.fclass t (fieldAt low 15 6) (fieldAt low 9 6))
  else if natAt low 0 3 = 0 ∧ natAt low 6 5 = 0 ∧ natAt low 24 1 = 1 then
    (FTy.ofCode? (natAt low 21 3)).bind fun t => some (.fclassV t (fieldAt low 16 5) (fieldAt low 11 5) (fieldAt low 3 3))
  else none

/-- A-words of op6 0x2D: FRINT, FRINT_V. -/
def decA2D (low : Nat) : Option Instr :=
  if natAt low 3 6 = 0 ∧ natAt low 24 1 = 0 then
    (FTy.ofCode? (natAt low 21 3)).bind fun t => (Rm.ofCode? (natAt low 0 3)).bind fun rm => some (.frint t (fieldAt low 15 6) (fieldAt low 9 6) rm)
  else if natAt low 6 5 = 0 ∧ natAt low 24 1 = 1 then
    (FTy.ofCode? (natAt low 21 3)).bind fun t => (Rm.ofCode? (natAt low 0 3)).bind fun rm => some (.frintV t (fieldAt low 16 5) (fieldAt low 11 5) (fieldAt low 3 3) rm)
  else none

/-- A-words of op6 0x2E: FCVT, FCVT_V. -/
def decA2E (low : Nat) : Option Instr :=
  if natAt low 8 1 = 0 ∧ natAt low 24 1 = 0 then
    (Fmt.ofCode? (natAt low 21 3)).bind fun t => (Fmt.ofSrcCode? (natAt low 3 4)).bind fun src => (Rm.ofCode? (natAt low 0 3)).bind fun rm => some (.fcvt t (fieldAt low 15 6) (fieldAt low 9 6) (flagAt low 7) src rm)
  else if natAt low 24 1 = 1 then
    (Fmt.ofCode? (natAt low 21 3)).bind fun t => (Fmt.ofSrcCode? (natAt low 6 4)).bind fun src => (Rm.ofCode? (natAt low 0 3)).bind fun rm => some (.fcvtV t (fieldAt low 16 5) (fieldAt low 11 5) (flagAt low 10) src (fieldAt low 3 3) rm)
  else none

/-- A-words of op6 0x2F: FCVTI, FCVTI_V, ICVTF, ICVTF_V. -/
def decA2F (low : Nat) : Option Instr :=
  if natAt low 7 2 = 0 ∧ natAt low 24 1 = 0 then
    (Fmt.ofCode? (natAt low 21 3)).bind fun t => (CvtInt.ofCode? (natAt low 3 2)).bind fun it => (Rm.ofCode? (natAt low 0 3)).bind fun rm => some (.fcvti t (fieldAt low 15 6) (fieldAt low 9 6) (flagAt low 6) (flagAt low 5) it rm)
  else if natAt low 10 1 = 0 ∧ natAt low 24 1 = 1 then
    (Fmt.ofCode? (natAt low 21 3)).bind fun t => (CvtInt.ofCode? (natAt low 6 2)).bind fun it => (Rm.ofCode? (natAt low 0 3)).bind fun rm => some (.fcvtiV t (fieldAt low 16 5) (fieldAt low 11 5) (flagAt low 9) (flagAt low 8) it (fieldAt low 3 3) rm)
  else if natAt low 6 3 = 2 ∧ natAt low 24 1 = 0 then
    (Fmt.ofCode? (natAt low 21 3)).bind fun t => (CvtInt.ofCode? (natAt low 3 2)).bind fun it => (Rm.ofCode? (natAt low 0 3)).bind fun rm => some (.icvtf t (fieldAt low 15 6) (fieldAt low 9 6) (flagAt low 5) it rm)
  else if natAt low 9 2 = 2 ∧ natAt low 24 1 = 1 then
    (Fmt.ofCode? (natAt low 21 3)).bind fun t => (CvtInt.ofCode? (natAt low 6 2)).bind fun it => (Rm.ofCode? (natAt low 0 3)).bind fun rm => some (.icvtfV t (fieldAt low 16 5) (fieldAt low 11 5) (flagAt low 8) it (fieldAt low 3 3) rm)
  else none

/-- A-words of op6 0x30: FEXP2, FEXP2_V. -/
def decA30 (low : Nat) : Option Instr :=
  if natAt low 2 3 = 0 ∧ natAt low 24 1 = 0 then
    (FTy.ofCode? (natAt low 21 3)).bind fun t => (Rm.ofCode? (natAt low 0 2)).bind fun rm => some (.fexp2 t (fieldAt low 15 6) (fieldAt low 9 6) (fieldAt low 5 4) rm)
  else if natAt low 2 2 = 0 ∧ natAt low 24 1 = 1 then
    (FTy.ofCode? (natAt low 21 3)).bind fun t => (Rm.ofCode? (natAt low 0 2)).bind fun rm => some (.fexp2V t (fieldAt low 16 5) (fieldAt low 11 5) (fieldAt low 8 3) (fieldAt low 4 4) rm)
  else none

/-- A-words of op6 0x31: FLOG2, FLOG2_V. -/
def decA31 (low : Nat) : Option Instr :=
  if natAt low 2 3 = 0 ∧ natAt low 24 1 = 0 then
    (FTy.ofCode? (natAt low 21 3)).bind fun t => (Rm.ofCode? (natAt low 0 2)).bind fun rm => some (.flog2 t (fieldAt low 15 6) (fieldAt low 9 6) (fieldAt low 5 4) rm)
  else if natAt low 2 2 = 0 ∧ natAt low 24 1 = 1 then
    (FTy.ofCode? (natAt low 21 3)).bind fun t => (Rm.ofCode? (natAt low 0 2)).bind fun rm => some (.flog2V t (fieldAt low 16 5) (fieldAt low 11 5) (fieldAt low 8 3) (fieldAt low 4 4) rm)
  else none

/-- A-words of op6 0x32: FRCP, FRCP_V. -/
def decA32 (low : Nat) : Option Instr :=
  if natAt low 3 2 = 0 ∧ natAt low 24 1 = 0 then
    (FTy.ofCode? (natAt low 21 3)).bind fun t => (Rm.ofCode? (natAt low 0 3)).bind fun rm => some (.frcp t (fieldAt low 15 6) (fieldAt low 9 6) (fieldAt low 5 4) rm)
  else if natAt low 3 1 = 0 ∧ natAt low 24 1 = 1 then
    (FTy.ofCode? (natAt low 21 3)).bind fun t => (Rm.ofCode? (natAt low 0 3)).bind fun rm => some (.frcpV t (fieldAt low 16 5) (fieldAt low 11 5) (fieldAt low 8 3) (fieldAt low 4 4) rm)
  else none

/-- A-words of op6 0x33: FRSQ, FRSQ_V. -/
def decA33 (low : Nat) : Option Instr :=
  if natAt low 2 3 = 0 ∧ natAt low 24 1 = 0 then
    (FTy.ofCode? (natAt low 21 3)).bind fun t => (Rm.ofCode? (natAt low 0 2)).bind fun rm => some (.frsq t (fieldAt low 15 6) (fieldAt low 9 6) (fieldAt low 5 4) rm)
  else if natAt low 2 2 = 0 ∧ natAt low 24 1 = 1 then
    (FTy.ofCode? (natAt low 21 3)).bind fun t => (Rm.ofCode? (natAt low 0 2)).bind fun rm => some (.frsqV t (fieldAt low 16 5) (fieldAt low 11 5) (fieldAt low 8 3) (fieldAt low 4 4) rm)
  else none

/-- A-words of op6 0x34: FSINPI, FSINPI_V. -/
def decA34 (low : Nat) : Option Instr :=
  if natAt low 2 3 = 0 ∧ natAt low 24 1 = 0 then
    (FTy.ofCode? (natAt low 21 3)).bind fun t => (Rm.ofCode? (natAt low 0 2)).bind fun rm => some (.fsinpi t (fieldAt low 15 6) (fieldAt low 9 6) (fieldAt low 5 4) rm)
  else if natAt low 2 2 = 0 ∧ natAt low 24 1 = 1 then
    (FTy.ofCode? (natAt low 21 3)).bind fun t => (Rm.ofCode? (natAt low 0 2)).bind fun rm => some (.fsinpiV t (fieldAt low 16 5) (fieldAt low 11 5) (fieldAt low 8 3) (fieldAt low 4 4) rm)
  else none

/-- A-words of op6 0x35: FCOSPI, FCOSPI_V. -/
def decA35 (low : Nat) : Option Instr :=
  if natAt low 2 3 = 0 ∧ natAt low 24 1 = 0 then
    (FTy.ofCode? (natAt low 21 3)).bind fun t => (Rm.ofCode? (natAt low 0 2)).bind fun rm => some (.fcospi t (fieldAt low 15 6) (fieldAt low 9 6) (fieldAt low 5 4) rm)
  else if natAt low 2 2 = 0 ∧ natAt low 24 1 = 1 then
    (FTy.ofCode? (natAt low 21 3)).bind fun t => (Rm.ofCode? (natAt low 0 2)).bind fun rm => some (.fcospiV t (fieldAt low 16 5) (fieldAt low 11 5) (fieldAt low 8 3) (fieldAt low 4 4) rm)
  else none

/-- A-words of op6 0x36: FTANH, FTANH_V. -/
def decA36 (low : Nat) : Option Instr :=
  if natAt low 2 3 = 0 ∧ natAt low 24 1 = 0 then
    (FTy.ofCode? (natAt low 21 3)).bind fun t => (Rm.ofCode? (natAt low 0 2)).bind fun rm => some (.ftanh t (fieldAt low 15 6) (fieldAt low 9 6) (fieldAt low 5 4) rm)
  else if natAt low 2 2 = 0 ∧ natAt low 24 1 = 1 then
    (FTy.ofCode? (natAt low 21 3)).bind fun t => (Rm.ofCode? (natAt low 0 2)).bind fun rm => some (.ftanhV t (fieldAt low 16 5) (fieldAt low 11 5) (fieldAt low 8 3) (fieldAt low 4 4) rm)
  else none

/-- A-words of op6 0x38: VBCAST, VEXT, VINS. -/
def decA38 (low : Nat) : Option Instr :=
  if natAt low 0 9 = 0 ∧ natAt low 20 1 = 0 ∧ natAt low 22 3 = 0 then
    (IntTy.ofCode? (natAt low 21 1)).bind fun t => some (.vbcast t (fieldAt low 15 5) (fieldAt low 9 6))
  else if natAt low 0 3 = 1 ∧ natAt low 14 1 = 0 ∧ natAt low 22 3 = 0 then
    (IntTy.ofCode? (natAt low 21 1)).bind fun t => some (.vext t (fieldAt low 15 6) (fieldAt low 9 5) (fieldAt low 3 6))
  else if natAt low 0 3 = 2 ∧ natAt low 20 1 = 0 ∧ natAt low 22 3 = 0 then
    (IntTy.ofCode? (natAt low 21 1)).bind fun t => some (.vins t (fieldAt low 15 5) (fieldAt low 9 6) (fieldAt low 3 6))
  else none

/-- A-words of op6 0x39: VPERM, VROT. -/
def decA39 (low : Nat) : Option Instr :=
  if natAt low 0 3 = 0 ∧ natAt low 22 3 = 4 then
    (IntTy.ofCode? (natAt low 21 1)).bind fun t => some (.vperm t (fieldAt low 16 5) (fieldAt low 11 5) (fieldAt low 6 5) (fieldAt low 3 3))
  else if natAt low 0 3 = 1 ∧ natAt low 22 3 = 4 then
    (IntTy.ofCode? (natAt low 21 1)).bind fun t => some (.vrot t (fieldAt low 16 5) (fieldAt low 11 5) (fieldAt low 6 5) (fieldAt low 3 3))
  else none

/-- A-words of op6 0x3A: VRED. -/
def decA3A (low : Nat) : Option Instr :=
  if natAt low 8 3 = 0 ∧ natAt low 24 1 = 1 then
    (FTy.ofCode? (natAt low 21 3)).bind fun t => (VRedFn.ofCode? (natAt low 6 2)).bind fun fn => (Rm.ofCode? (natAt low 0 3)).bind fun rm => some (.vred t (fieldAt low 16 5) (fieldAt low 11 5) fn (fieldAt low 3 3) rm)
  else none

/-- A-words of op6 0x3B: VDOT. -/
def decA3B (low : Nat) : Option Instr :=
  if natAt low 24 1 = 1 then
    (DotTy.ofCode? (natAt low 21 3)).bind fun t => (Rm.ofCode? (natAt low 0 3)).bind fun rm => some (.vdot t (fieldAt low 16 5) (fieldAt low 11 5) (fieldAt low 6 5) (fieldAt low 3 3) rm)
  else none

/-- A-words of op6 0x3C: VIOTA, VSEL. -/
def decA3C (low : Nat) : Option Instr :=
  if natAt low 0 3 = 0 ∧ natAt low 6 10 = 0 ∧ natAt low 22 3 = 4 then
    (IntTy.ofCode? (natAt low 21 1)).bind fun t => some (.viota t (fieldAt low 16 5) (fieldAt low 3 3))
  else if natAt low 0 3 = 1 ∧ natAt low 22 3 = 4 then
    (IntTy.ofCode? (natAt low 21 1)).bind fun t => some (.vsel t (fieldAt low 16 5) (fieldAt low 11 5) (fieldAt low 6 5) (fieldAt low 3 3))
  else none

/-- A-words of op6 0x3D: VPACK, VUNPACK. -/
def decA3D (low : Nat) : Option Instr :=
  if natAt low 3 3 = 0 ∧ natAt low 9 1 = 0 ∧ natAt low 24 1 = 1 then
    (Fmt.ofCode? (natAt low 21 3)).bind fun t => (Rm.ofCode? (natAt low 0 3)).bind fun rm => some (.vpack t (fieldAt low 16 5) (fieldAt low 11 5) (flagAt low 10) (fieldAt low 6 3) rm)
  else if natAt low 0 6 = 8 ∧ natAt low 9 2 = 0 ∧ natAt low 24 1 = 1 then
    (Fmt.ofCode? (natAt low 21 3)).bind fun t => some (.vunpack t (fieldAt low 16 5) (fieldAt low 11 5) (fieldAt low 6 3))
  else none

/-- A-words of op6 0x3E: LODE, LODE_V. -/
def decA3E (low : Nat) : Option Instr :=
  if natAt low 21 4 = 0 then
    (LodeFn.ofCode? (natAt low 0 3)).bind fun fn => some (.lode (fieldAt low 15 6) (fieldAt low 9 6) (fieldAt low 3 6) fn)
  else if natAt low 21 4 = 8 then
    (LodeFn.ofCode? (natAt low 0 3)).bind fun fn => some (.lodeV (fieldAt low 16 5) (fieldAt low 11 5) (fieldAt low 6 5) (fieldAt low 3 3) fn)
  else none

/-- A-words of op6 0x3F: VSCALE. -/
def decA3F (low : Nat) : Option Instr :=
  if natAt low 21 4 = 12 then
    (Rm.ofCode? (natAt low 0 3)).bind fun rm => some (.vscale (fieldAt low 16 5) (fieldAt low 11 5) (fieldAt low 6 5) (fieldAt low 3 3) rm)
  else none

/-- The A-word with operation code `op` and lower 25 bits `low` (R51, Table 2.8). -/
def decodeA (op low : Nat) : Option Instr :=
  match op with
  | 0x00 => decA00 low
  | 0x01 => decA01 low
  | 0x02 => decA02 low
  | 0x03 => decA03 low
  | 0x04 => decA04 low
  | 0x05 => decA05 low
  | 0x06 => decA06 low
  | 0x07 => decA07 low
  | 0x08 => decA08 low
  | 0x09 => decA09 low
  | 0x0A => decA0A low
  | 0x0B => decA0B low
  | 0x0C => decA0C low
  | 0x0D => decA0D low
  | 0x0E => decA0E low
  | 0x0F => decA0F low
  | 0x10 => decA10 low
  | 0x11 => decA11 low
  | 0x12 => decA12 low
  | 0x13 => decA13 low
  | 0x14 => decA14 low
  | 0x15 => decA15 low
  | 0x16 => decA16 low
  | 0x17 => decA17 low
  | 0x18 => decA18 low
  | 0x19 => decA19 low
  | 0x1A => decA1A low
  | 0x1B => decA1B low
  | 0x1C => decA1C low
  | 0x1D => decA1D low
  | 0x20 => decA20 low
  | 0x21 => decA21 low
  | 0x22 => decA22 low
  | 0x23 => decA23 low
  | 0x24 => decA24 low
  | 0x25 => decA25 low
  | 0x26 => decA26 low
  | 0x27 => decA27 low
  | 0x28 => decA28 low
  | 0x29 => decA29 low
  | 0x2A => decA2A low
  | 0x2B => decA2B low
  | 0x2C => decA2C low
  | 0x2D => decA2D low
  | 0x2E => decA2E low
  | 0x2F => decA2F low
  | 0x30 => decA30 low
  | 0x31 => decA31 low
  | 0x32 => decA32 low
  | 0x33 => decA33 low
  | 0x34 => decA34 low
  | 0x35 => decA35 low
  | 0x36 => decA36 low
  | 0x38 => decA38 low
  | 0x39 => decA39 low
  | 0x3A => decA3A low
  | 0x3B => decA3B low
  | 0x3C => decA3C low
  | 0x3D => decA3D low
  | 0x3E => decA3E low
  | 0x3F => decA3F low
  | _ => none

/-- The instruction that the bits of a word name, before the rules on its fields together (R38). -/
def decodeFields (w : Nat) : Option Instr :=
  if natAt w 31 1 = 0 then decodeC (natAt w 24 6) (natAt w 0 24) (flagAt w 30)
  else decodeA (natAt w 25 6) (natAt w 0 25)

/-- The instruction of one 32-bit word: every bit pattern either decodes to one instruction or is refused (R52). -/
def decodeWord (w : BitVec 32) : Except DecodeError Instr :=
  match decodeFields w.toNat with
  | none => .error .unassigned
  | some i => if i.wellFormed then .ok i else .error .illFormed

/-- Four bytes, the first at the lowest address, as a word (R1). -/
def wordOfBytes (b0 b1 b2 b3 : Byte) : BitVec 32 :=
  BitVec.ofNat 32 (b0.toNat + 256 * b1.toNat + 65536 * b2.toNat + 16777216 * b3.toNat)

/-- The instruction at the front of a list of bytes, with the bytes that follow it. -/
def decode : List Byte → Except DecodeError (Instr × List Byte)
  | b0 :: b1 :: b2 :: b3 :: rest =>
    match decodeWord (wordOfBytes b0 b1 b2 b3) with
    | .ok i => .ok (i, rest)
    | .error e => .error e
  | _ => .error .truncated

/-- The bytes of a number, `n` of them, the least significant first (R1). -/
def bytesOfNat : Nat → Nat → List Byte
  | 0, _ => []
  | n + 1, x => BitVec.ofNat 8 x :: bytesOfNat n (x / 256)

/-- The instruction the decoder reads from an instruction whose bits are `w`, numbered as spec/opcode_table.json
numbers them. Every instruction is one word of 32 bits, so the word is `w` and the bits above `nbits` are zero. -/
def decodeTableWord (nbits w : Nat) : Option Instr :=
  match decode (bytesOfNat 4 (w % 2 ^ nbits)) with
  | .ok (i, _) => some i
  | .error _ => none

/-- The sum of the fields of a word, each given as its lowest bit and its value. -/
def placed : List (Nat × Nat) → Nat
  | [] => 0
  | (lo, x) :: fs => x * 2 ^ lo + placed fs

/-- The word of a C-word with U bit `u`, operation code `op` and the fields `low` of its lower 24 bits (Rulers 2.1 to 2.6). -/
def wordC (u : Bool) (op : Nat) (low : List (Nat × Nat)) : Option Nat :=
  some (u.toNat * 2 ^ 30 + op * 2 ^ 24 + placed low)

/-- The word of an A-word with operation code `op` and the fields `low` of its lower 25 bits (Rulers 2.7 to 2.11). -/
def wordA (op : Nat) (low : List (Nat × Nat)) : Option Nat := some (2 ^ 31 + op * 2 ^ 25 + placed low)

/-- The word of an instruction, as a number; the event rows have none. -/
def encodeNat : Instr → Option Nat
  | .nop u => wordC u 0x00 []
  | .bc u p n off => wordC u 0x01 [(21, p.toNat), (20, n.toNat), (0, off.toNat)]
  | .bz u a off => wordC u 0x02 [(18, a.toNat), (0, off.toNat)]
  | .bnz u a off => wordC u 0x02 [(0, 0x20000), (18, a.toNat), (0, off.toNat)]
  | .loop u a off => wordC u 0x03 [(18, a.toNat), (0, off.toNat)]
  | .call u p n off => wordC u 0x05 [(21, p.toNat), (20, n.toNat), (0, off.toNat)]
  | .bi u a => wordC u 0x04 [(12, a.toNat)]
  | .calli u a => wordC u 0x04 [(0, 0x1), (12, a.toNat)]
  | .ret u a => wordC u 0x04 [(0, 0x2), (12, a.toNat)]
  | .exit u => wordC u 0x06 []
  | .yield u => wordC u 0x06 [(0, 0x4000)]
  | .brk u code => wordC u 0x06 [(0, 0x8000), (0, code.toNat)]
  | .trap u code => wordC u 0x06 [(0, 0xC000), (0, code.toNat)]
  | .eret u => wordC u 0x06 [(0, 0x10000)]
  | .mrd u d m => wordC u 0x07 [(18, d.toNat), (0, m.code)]
  | .mwr u d m => wordC u 0x07 [(0, 0x4000), (18, d.toNat), (0, m.code)]
  | .segld u a s => wordC u 0x08 [(12, a.toNat), (3, s.toNat)]
  | .segsub u d a b s => wordC u 0x08 [(0, 0x1), (18, d.toNat), (12, a.toNat), (6, b.toNat), (3, s.toNat)]
  | .segq u d q s => wordC u 0x08 [(0, 0x2), (18, d.toNat), (12, q.code), (3, s.toNat)]
  | .launch u d a s => wordC u 0x09 [(18, d.toNat), (12, a.toNat), (3, s.toNat)]
  | .gang u d a b s => wordC u 0x09 [(0, 0x1), (18, d.toNat), (12, a.toNat), (6, b.toNat), (3, s.toNat)]
  | .barc u => wordC u 0x09 [(0, 0x2)]
  | .tkillThread u a => wordC u 0x0A [(12, a.toNat)]
  | .tkillCrew u => wordC u 0x0A [(0, 0x1)]
  | .tkillShift u => wordC u 0x0A [(0, 0x2)]
  | .ldB u la s d a imm => wordC u 0x10 [(20, la.toNat), (17, s.toNat), (11, d.toNat), (5, a.toNat), (0, imm.toNat)]
  | .ldH u la s d a imm => wordC u 0x11 [(20, la.toNat), (17, s.toNat), (11, d.toNat), (5, a.toNat), (0, imm.toNat)]
  | .ldW u la s d a imm => wordC u 0x12 [(20, la.toNat), (17, s.toNat), (11, d.toNat), (5, a.toNat), (0, imm.toNat)]
  | .ldD u la s d a imm => wordC u 0x13 [(20, la.toNat), (17, s.toNat), (11, d.toNat), (5, a.toNat), (0, imm.toNat)]
  | .ldSB u la s d a imm => wordC u 0x14 [(20, la.toNat), (17, s.toNat), (11, d.toNat), (5, a.toNat), (0, imm.toNat)]
  | .ldSH u la s d a imm => wordC u 0x15 [(20, la.toNat), (17, s.toNat), (11, d.toNat), (5, a.toNat), (0, imm.toNat)]
  | .ldSW u la s d a imm => wordC u 0x16 [(20, la.toNat), (17, s.toNat), (11, d.toNat), (5, a.toNat), (0, imm.toNat)]
  | .stN u s d a imm => wordC u 0x17 [(17, s.toNat), (11, d.toNat), (5, a.toNat), (0, imm.toNat)]
  | .stB u s d a imm => wordC u 0x18 [(17, s.toNat), (11, d.toNat), (5, a.toNat), (0, imm.toNat)]
  | .stH u s d a imm => wordC u 0x19 [(17, s.toNat), (11, d.toNat), (5, a.toNat), (0, imm.toNat)]
  | .stW u s d a imm => wordC u 0x1A [(17, s.toNat), (11, d.toNat), (5, a.toNat), (0, imm.toNat)]
  | .stD u s d a imm => wordC u 0x1B [(17, s.toNat), (11, d.toNat), (5, a.toNat), (0, imm.toNat)]
  | .ldv u la s d a imm => wordC u 0x1C [(20, la.toNat), (17, s.toNat), (11, d.toNat), (5, a.toNat), (0, imm.toNat)]
  | .stv u s d a imm => wordC u 0x1D [(17, s.toNat), (11, d.toNat), (5, a.toNat), (0, imm.toNat)]
  | .ldvs u la s d a dbl => wordC u 0x1E [(0, 0x2), (20, la.toNat), (17, s.toNat), (11, d.toNat), (6, a.toNat), (0, dbl.toNat)]
  | .ldvx u la s d a dbl => wordC u 0x1E [(0, 0x6), (20, la.toNat), (17, s.toNat), (11, d.toNat), (5, a.toNat), (0, dbl.toNat)]
  | .stvs u s d a dbl => wordC u 0x1F [(0, 0x2), (17, s.toNat), (11, d.toNat), (6, a.toNat), (0, dbl.toNat)]
  | .stvx u s d a dbl => wordC u 0x1F [(0, 0x6), (17, s.toNat), (11, d.toNat), (5, a.toNat), (0, dbl.toNat)]
  | .lds u la s d a dbl => wordC u 0x20 [(0, 0x2), (20, la.toNat), (17, s.toNat), (11, d.toNat), (5, a.toNat), (0, dbl.toNat)]
  | .ldsConsume u la s d a dbl => wordC u 0x20 [(0, 0x6), (20, la.toNat), (17, s.toNat), (11, d.toNat), (5, a.toNat), (0, dbl.toNat)]
  | .stsProduce u s d a dbl => wordC u 0x21 [(0, 0x2), (17, s.toNat), (11, d.toNat), (5, a.toNat), (0, dbl.toNat)]
  | .stsOver u s d a dbl => wordC u 0x21 [(0, 0x6), (17, s.toNat), (11, d.toNat), (5, a.toNat), (0, dbl.toNat)]
  | .feset u s a => wordC u 0x22 [(0, 0x3), (17, s.toNat), (5, a.toNat)]
  | .feclr u s a => wordC u 0x22 [(0, 0x7), (17, s.toNat), (5, a.toNat)]
  | .feq u s d a => wordC u 0x22 [(0, 0xB), (17, s.toNat), (11, d.toNat), (5, a.toNat)]
  | .atom u la s d a op sz => wordC u 0x23 [(20, la.toNat), (17, s.toNat), (11, d.toNat), (5, a.toNat), (2, op.code), (0, sz.code)]
  | .cas u la s d a dbl => wordC u 0x24 [(0, 0x2), (20, la.toNat), (17, s.toNat), (12, d.toNat), (5, a.toNat), (0, dbl.toNat)]
  | .cas2 u la s d a => wordC u 0x24 [(0, 0x7), (20, la.toNat), (17, s.toNat), (13, d.toNat), (5, a.toNat)]
  | .red u s d a op sz => wordC u 0x25 [(17, s.toNat), (11, d.toNat), (5, a.toNat), (2, op.code), (0, sz.code)]
  | .redFadd u rm s d a dbl => wordC u 0x25 [(0, 0x18), (20, rm.code), (17, s.toNat), (11, d.toNat), (5, a.toNat), (1, dbl.toNat)]
  | .apnd u s d a => wordC u 0x26 [(0, 0x3), (17, s.toNat), (11, d.toNat), (5, a.toNat)]
  | .fence u k sc => wordC u 0x27 [(6, k.code), (3, sc.code)]
  | .drain u => wordC u 0x27 [(0, 0x1)]
  | .tbinit u a b s => wordC u 0x28 [(12, a.toNat), (6, b.toNat), (3, s.toNat)]
  | .tbexp u a b s => wordC u 0x28 [(0, 0x1), (12, a.toNat), (6, b.toNat), (3, s.toNat)]
  | .tbarv u a b s => wordC u 0x28 [(0, 0x2), (12, a.toNat), (6, b.toNat), (3, s.toNat)]
  | .tbwait u a s => wordC u 0x28 [(0, 0x3), (12, a.toNat), (3, s.toNat)]
  | .tbtest u d a s => wordC u 0x28 [(0, 0x4), (18, d.toNat), (12, a.toNat), (3, s.toNat)]
  | .xfer u d a b s => wordC u 0x29 [(19, d.toNat), (12, a.toNat), (6, b.toNat), (3, s.toNat)]
  | .xferF u d a b s => wordC u 0x29 [(0, 0x1), (19, d.toNat), (12, a.toNat), (6, b.toNat), (3, s.toNat)]
  | .gath u d a b s => wordC u 0x2A [(19, d.toNat), (12, a.toNat), (6, b.toNat), (3, s.toNat)]
  | .rcall u d a k rel s e => wordC u 0x2B [(18, d.toNat), (12, a.toNat), (9, k.toNat), (6, rel.toNat), (3, s.toNat), (0, e.toNat)]
  | .rret u a b => wordC u 0x2C [(12, a.toNat), (6, b.toNat)]
  | .hset u e a s => wordC u 0x2C [(0, 0x200001), (18, e.toNat), (12, a.toNat), (3, s.toNat)]
  | .hclr u e s => wordC u 0x2C [(0, 0x200002), (18, e.toNat), (3, s.toNat)]
  | .frz u a b s => wordC u 0x2D [(12, a.toNat), (6, b.toNat), (3, s.toNat)]
  | .thaw u d a b s => wordC u 0x2D [(0, 0x1), (18, d.toNat), (12, a.toNat), (6, b.toNat), (3, s.toNat)]
  | .frzq u d a s => wordC u 0x2D [(0, 0x2), (18, d.toNat), (12, a.toNat), (3, s.toNat)]
  | .rowcpy u d a b s => wordC u 0x2E [(19, d.toNat), (12, a.toNat), (6, b.toNat), (3, s.toNat)]
  | .rowset u d a b s => wordC u 0x2E [(0, 0x1), (19, d.toNat), (12, a.toNat), (6, b.toNat), (3, s.toNat)]
  | .rowop u d a b s op => wordC u 0x2E [(19, d.toNat), (12, a.toNat), (6, b.toNat), (3, s.toNat), (0, op.code)]
  | .fdef u d a s => wordC u 0x2F [(18, d.toNat), (12, a.toNat), (3, s.toNat)]
  | .frun u a => wordC u 0x2F [(0, 0x1), (12, a.toNat)]
  | .fstop u a => wordC u 0x2F [(0, 0x2), (12, a.toNat)]
  | .fsnap u a b => wordC u 0x2F [(0, 0x3), (12, a.toNat), (6, b.toNat)]
  | .fcpl u a b => wordC u 0x2F [(0, 0x4), (12, a.toNat), (6, b.toNat)]
  | .fstat u d a => wordC u 0x2F [(0, 0x5), (18, d.toNat), (12, a.toNat)]
  | .mq u d a tile s => wordC u 0x30 [(18, d.toNat), (12, a.toNat), (6, tile.toNat), (3, s.toNat)]
  | .mqSP u d a tile s => wordC u 0x30 [(0, 0x1), (18, d.toNat), (12, a.toNat), (6, tile.toNat), (3, s.toNat)]
  | .mqr u d a tile s => wordC u 0x31 [(18, d.toNat), (12, a.toNat), (6, tile.toNat), (3, s.toNat)]
  | .mqrSP u d a tile s => wordC u 0x31 [(0, 0x1), (18, d.toNat), (12, a.toNat), (6, tile.toNat), (3, s.toNat)]
  | .macq u d a => wordC u 0x32 [(18, d.toNat), (12, a.toNat)]
  | .mrel u a => wordC u 0x32 [(0, 0x1), (12, a.toNat)]
  | .mzero u tile => wordC u 0x32 [(0, 0x2), (6, tile.toNat)]
  | .mld u d a tile s => wordC u 0x32 [(0, 0x3), (18, d.toNat), (12, a.toNat), (6, tile.toNat), (3, s.toNat)]
  | .mdrain u d a tile s rm => wordC u 0x33 [(18, d.toNat), (12, a.toNat), (6, tile.toNat), (3, s.toNat), (0, rm.code)]
  | .mpoll u d a => wordC u 0x34 [(18, d.toNat), (12, a.toNat)]
  | .mwait u a => wordC u 0x34 [(0, 0x1), (12, a.toNat)]
  | .add t d a b m => wordA 0x00 [(21, t.code), (15, d.toNat), (9, a.toNat), (3, b.toNat), (0, m.code)]
  | .addV t d a b p m => wordA 0x00 [(0, 0x1000000), (21, t.code), (16, d.toNat), (11, a.toNat), (6, b.toNat), (3, p.toNat), (0, m.code)]
  | .sub t d a b m => wordA 0x01 [(21, t.code), (15, d.toNat), (9, a.toNat), (3, b.toNat), (0, m.code)]
  | .subV t d a b p m => wordA 0x01 [(0, 0x1000000), (21, t.code), (16, d.toNat), (11, a.toNat), (6, b.toNat), (3, p.toNat), (0, m.code)]
  | .mul t d a b => wordA 0x02 [(21, t.code), (15, d.toNat), (9, a.toNat), (3, b.toNat)]
  | .mulV t d a b p => wordA 0x02 [(0, 0x1000000), (21, t.code), (16, d.toNat), (11, a.toNat), (6, b.toNat), (3, p.toNat)]
  | .mulh t d a b m => wordA 0x03 [(21, t.code), (15, d.toNat), (9, a.toNat), (3, b.toNat), (0, m.code)]
  | .mulhV t d a b p m => wordA 0x03 [(0, 0x1000000), (21, t.code), (16, d.toNat), (11, a.toNat), (6, b.toNat), (3, p.toNat), (0, m.code)]
  | .div t d a b uns => wordA 0x04 [(21, t.code), (15, d.toNat), (9, a.toNat), (3, b.toNat), (0, uns.toNat)]
  | .divV t d a b p uns => wordA 0x04 [(0, 0x1000000), (21, t.code), (16, d.toNat), (11, a.toNat), (6, b.toNat), (3, p.toNat), (0, uns.toNat)]
  | .rem t d a b uns => wordA 0x05 [(21, t.code), (15, d.toNat), (9, a.toNat), (3, b.toNat), (0, uns.toNat)]
  | .remV t d a b p uns => wordA 0x05 [(0, 0x1000000), (21, t.code), (16, d.toNat), (11, a.toNat), (6, b.toNat), (3, p.toNat), (0, uns.toNat)]
  | .and t d a b => wordA 0x06 [(21, t.code), (15, d.toNat), (9, a.toNat), (3, b.toNat)]
  | .andV t d a b p => wordA 0x06 [(0, 0x1000000), (21, t.code), (16, d.toNat), (11, a.toNat), (6, b.toNat), (3, p.toNat)]
  | .or t d a b => wordA 0x07 [(21, t.code), (15, d.toNat), (9, a.toNat), (3, b.toNat)]
  | .orV t d a b p => wordA 0x07 [(0, 0x1000000), (21, t.code), (16, d.toNat), (11, a.toNat), (6, b.toNat), (3, p.toNat)]
  | .xor t d a b => wordA 0x08 [(21, t.code), (15, d.toNat), (9, a.toNat), (3, b.toNat)]
  | .xorV t d a b p => wordA 0x08 [(0, 0x1000000), (21, t.code), (16, d.toNat), (11, a.toNat), (6, b.toNat), (3, p.toNat)]
  | .andn t d a b => wordA 0x09 [(21, t.code), (15, d.toNat), (9, a.toNat), (3, b.toNat)]
  | .andnV t d a b p => wordA 0x09 [(0, 0x1000000), (21, t.code), (16, d.toNat), (11, a.toNat), (6, b.toNat), (3, p.toNat)]
  | .shl t d a b => wordA 0x0A [(21, t.code), (15, d.toNat), (9, a.toNat), (3, b.toNat)]
  | .shlV t d a b p => wordA 0x0A [(0, 0x1000000), (21, t.code), (16, d.toNat), (11, a.toNat), (6, b.toNat), (3, p.toNat)]
  | .shr t d a b => wordA 0x0B [(21, t.code), (15, d.toNat), (9, a.toNat), (3, b.toNat)]
  | .shrV t d a b p => wordA 0x0B [(0, 0x1000000), (21, t.code), (16, d.toNat), (11, a.toNat), (6, b.toNat), (3, p.toNat)]
  | .sra t d a b => wordA 0x0C [(21, t.code), (15, d.toNat), (9, a.toNat), (3, b.toNat)]
  | .sraV t d a b p => wordA 0x0C [(0, 0x1000000), (21, t.code), (16, d.toNat), (11, a.toNat), (6, b.toNat), (3, p.toNat)]
  | .rot t d a b => wordA 0x0D [(21, t.code), (15, d.toNat), (9, a.toNat), (3, b.toNat)]
  | .rotV t d a b p => wordA 0x0D [(0, 0x1000000), (21, t.code), (16, d.toNat), (11, a.toNat), (6, b.toNat), (3, p.toNat)]
  | .min t d a b uns => wordA 0x0E [(21, t.code), (15, d.toNat), (9, a.toNat), (3, b.toNat), (0, uns.toNat)]
  | .minV t d a b p uns => wordA 0x0E [(0, 0x1000000), (21, t.code), (16, d.toNat), (11, a.toNat), (6, b.toNat), (3, p.toNat), (0, uns.toNat)]
  | .max t d a b uns => wordA 0x0F [(21, t.code), (15, d.toNat), (9, a.toNat), (3, b.toNat), (0, uns.toNat)]
  | .maxV t d a b p uns => wordA 0x0F [(0, 0x1000000), (21, t.code), (16, d.toNat), (11, a.toNat), (6, b.toNat), (3, p.toNat), (0, uns.toNat)]
  | .clz t d a => wordA 0x10 [(21, t.code), (15, d.toNat), (9, a.toNat)]
  | .clzV t d a p => wordA 0x10 [(0, 0x1000000), (21, t.code), (16, d.toNat), (11, a.toNat), (3, p.toNat)]
  | .ctz t d a => wordA 0x10 [(0, 0x1), (21, t.code), (15, d.toNat), (9, a.toNat)]
  | .ctzV t d a p => wordA 0x10 [(0, 0x1000001), (21, t.code), (16, d.toNat), (11, a.toNat), (3, p.toNat)]
  | .popc t d a => wordA 0x10 [(0, 0x2), (21, t.code), (15, d.toNat), (9, a.toNat)]
  | .popcV t d a p => wordA 0x10 [(0, 0x1000002), (21, t.code), (16, d.toNat), (11, a.toNat), (3, p.toNat)]
  | .brev t d a => wordA 0x10 [(0, 0x3), (21, t.code), (15, d.toNat), (9, a.toNat)]
  | .brevV t d a p => wordA 0x10 [(0, 0x1000003), (21, t.code), (16, d.toNat), (11, a.toNat), (3, p.toNat)]
  | .bswap t d a => wordA 0x10 [(0, 0x4), (21, t.code), (15, d.toNat), (9, a.toNat)]
  | .bswapV t d a p => wordA 0x10 [(0, 0x1000004), (21, t.code), (16, d.toNat), (11, a.toNat), (3, p.toNat)]
  | .bfx t d a b sgn => wordA 0x11 [(21, t.code), (15, d.toNat), (9, a.toNat), (3, b.toNat), (0, sgn.toNat)]
  | .bfxV t d a b p sgn => wordA 0x11 [(0, 0x1000000), (21, t.code), (16, d.toNat), (11, a.toNat), (6, b.toNat), (3, p.toNat), (0, sgn.toNat)]
  | .bfi t d a b => wordA 0x12 [(21, t.code), (15, d.toNat), (9, a.toNat), (3, b.toNat)]
  | .bfiV t d a b p => wordA 0x12 [(0, 0x1000000), (21, t.code), (16, d.toNat), (11, a.toNat), (6, b.toNat), (3, p.toNat)]
  | .sel t d a b p => wordA 0x13 [(21, t.code), (15, d.toNat), (9, a.toNat), (3, b.toNat), (0, p.toNat)]
  | .cmp t pd a b c => wordA 0x14 [(21, t.code), (15, pd.toNat), (9, a.toNat), (3, b.toNat), (0, c.code)]
  | .cmpV t pd a b p c => wordA 0x14 [(0, 0x1000000), (21, t.code), (16, pd.toNat), (11, a.toNat), (6, b.toNat), (3, p.toNat), (0, c.code)]
  | .pand d a b => wordA 0x15 [(15, d.toNat), (9, a.toNat), (3, b.toNat)]
  | .por d a b => wordA 0x15 [(0, 0x1), (15, d.toNat), (9, a.toNat), (3, b.toNat)]
  | .pxor d a b => wordA 0x15 [(0, 0x2), (15, d.toNat), (9, a.toNat), (3, b.toNat)]
  | .pnot d a => wordA 0x15 [(0, 0x3), (15, d.toNat), (9, a.toNat)]
  | .pmovP d a => wordA 0x15 [(0, 0x4), (15, d.toNat), (9, a.toNat)]
  | .pmovG d a => wordA 0x15 [(0, 0x5), (15, d.toNat), (9, a.toNat)]
  | .addi d a imm => wordA 0x16 [(19, d.toNat), (13, a.toNat), (0, imm.toNat)]
  | .andi d a imm => wordA 0x17 [(19, d.toNat), (13, a.toNat), (0, imm.toNat)]
  | .ori d a imm => wordA 0x18 [(19, d.toNat), (13, a.toNat), (0, imm.toNat)]
  | .xori d a imm => wordA 0x19 [(19, d.toNat), (13, a.toNat), (0, imm.toNat)]
  | .shli d a c => wordA 0x1A [(19, d.toNat), (13, a.toNat), (0, c.toNat)]
  | .shri d a c => wordA 0x1A [(0, 0x800), (19, d.toNat), (13, a.toNat), (0, c.toNat)]
  | .srai d a c => wordA 0x1A [(0, 0x1000), (19, d.toNat), (13, a.toNat), (0, c.toNat)]
  | .movi d imm => wordA 0x1B [(19, d.toNat), (0, imm.toNat)]
  | .movh d q v => wordA 0x1C [(19, d.toNat), (17, q.toNat), (0, v.toNat)]
  | .lea d a b sh => wordA 0x1D [(0, 0x200000), (15, d.toNat), (9, a.toNat), (3, b.toNat), (0, sh.toNat)]
  | .fadd t d a b rm => wordA 0x20 [(21, t.code), (15, d.toNat), (9, a.toNat), (3, b.toNat), (0, rm.code)]
  | .faddV t d a b p rm => wordA 0x20 [(0, 0x1000000), (21, t.code), (16, d.toNat), (11, a.toNat), (6, b.toNat), (3, p.toNat), (0, rm.code)]
  | .fsub t d a b rm => wordA 0x21 [(21, t.code), (15, d.toNat), (9, a.toNat), (3, b.toNat), (0, rm.code)]
  | .fsubV t d a b p rm => wordA 0x21 [(0, 0x1000000), (21, t.code), (16, d.toNat), (11, a.toNat), (6, b.toNat), (3, p.toNat), (0, rm.code)]
  | .fmul t d a b rm => wordA 0x22 [(21, t.code), (15, d.toNat), (9, a.toNat), (3, b.toNat), (0, rm.code)]
  | .fmulV t d a b p rm => wordA 0x22 [(0, 0x1000000), (21, t.code), (16, d.toNat), (11, a.toNat), (6, b.toNat), (3, p.toNat), (0, rm.code)]
  | .fma t d a b rm => wordA 0x23 [(21, t.code), (15, d.toNat), (9, a.toNat), (3, b.toNat), (0, rm.code)]
  | .fmaV t d a b p rm => wordA 0x23 [(0, 0x1000000), (21, t.code), (16, d.toNat), (11, a.toNat), (6, b.toNat), (3, p.toNat), (0, rm.code)]
  | .fms t d a b rm => wordA 0x24 [(21, t.code), (15, d.toNat), (9, a.toNat), (3, b.toNat), (0, rm.code)]
  | .fmsV t d a b p rm => wordA 0x24 [(0, 0x1000000), (21, t.code), (16, d.toNat), (11, a.toNat), (6, b.toNat), (3, p.toNat), (0, rm.code)]
  | .fnma t d a b rm => wordA 0x25 [(21, t.code), (15, d.toNat), (9, a.toNat), (3, b.toNat), (0, rm.code)]
  | .fnmaV t d a b p rm => wordA 0x25 [(0, 0x1000000), (21, t.code), (16, d.toNat), (11, a.toNat), (6, b.toNat), (3, p.toNat), (0, rm.code)]
  | .fdiv t d a la rm => wordA 0x26 [(21, t.code), (15, d.toNat), (9, a.toNat), (5, la.toNat), (0, rm.code)]
  | .fdivV t d a p la rm => wordA 0x26 [(0, 0x1000000), (21, t.code), (16, d.toNat), (11, a.toNat), (8, p.toNat), (4, la.toNat), (0, rm.code)]
  | .fsqrt t d a la rm => wordA 0x27 [(21, t.code), (15, d.toNat), (9, a.toNat), (5, la.toNat), (0, rm.code)]
  | .fsqrtV t d a p la rm => wordA 0x27 [(0, 0x1000000), (21, t.code), (16, d.toNat), (11, a.toNat), (8, p.toNat), (4, la.toNat), (0, rm.code)]
  | .fmin t d a b => wordA 0x28 [(21, t.code), (15, d.toNat), (9, a.toNat), (3, b.toNat)]
  | .fminV t d a b p => wordA 0x28 [(0, 0x1000000), (21, t.code), (16, d.toNat), (11, a.toNat), (6, b.toNat), (3, p.toNat)]
  | .fmax t d a b => wordA 0x29 [(21, t.code), (15, d.toNat), (9, a.toNat), (3, b.toNat)]
  | .fmaxV t d a b p => wordA 0x29 [(0, 0x1000000), (21, t.code), (16, d.toNat), (11, a.toNat), (6, b.toNat), (3, p.toNat)]
  | .fabs t d a => wordA 0x2A [(21, t.code), (15, d.toNat), (9, a.toNat)]
  | .fabsV t d a p => wordA 0x2A [(0, 0x1000000), (21, t.code), (16, d.toNat), (11, a.toNat), (3, p.toNat)]
  | .fneg t d a => wordA 0x2A [(0, 0x1), (21, t.code), (15, d.toNat), (9, a.toNat)]
  | .fnegV t d a p => wordA 0x2A [(0, 0x1000001), (21, t.code), (16, d.toNat), (11, a.toNat), (3, p.toNat)]
  | .fcpys t d a b => wordA 0x2A [(0, 0x2), (21, t.code), (15, d.toNat), (9, a.toNat), (3, b.toNat)]
  | .fcpysV t d a b p => wordA 0x2A [(0, 0x1000002), (21, t.code), (16, d.toNat), (11, a.toNat), (6, b.toNat), (3, p.toNat)]
  | .fcmp t pd a b c => wordA 0x2B [(21, t.code), (15, pd.toNat), (9, a.toNat), (3, b.toNat), (0, c.code)]
  | .fcmpV dbl pd a b p c => wordA 0x2B [(0, 0x1800000), (21, dbl.toNat), (16, pd.toNat), (11, a.toNat), (6, b.toNat), (3, p.toNat), (0, c.code)]
  | .fclass t d a => wordA 0x2C [(21, t.code), (15, d.toNat), (9, a.toNat)]
  | .fclassV t d a p => wordA 0x2C [(0, 0x1000000), (21, t.code), (16, d.toNat), (11, a.toNat), (3, p.toNat)]
  | .frint t d a rm => wordA 0x2D [(21, t.code), (15, d.toNat), (9, a.toNat), (0, rm.code)]
  | .frintV t d a p rm => wordA 0x2D [(0, 0x1000000), (21, t.code), (16, d.toNat), (11, a.toNat), (3, p.toNat), (0, rm.code)]
  | .fcvt t d a sat src rm => wordA 0x2E [(21, t.code), (15, d.toNat), (9, a.toNat), (7, sat.toNat), (3, src.srcCode), (0, rm.code)]
  | .fcvtV t d a sat src p rm => wordA 0x2E [(0, 0x1000000), (21, t.code), (16, d.toNat), (11, a.toNat), (10, sat.toNat), (6, src.srcCode), (3, p.toNat), (0, rm.code)]
  | .fcvti t d a sat uns it rm => wordA 0x2F [(21, t.code), (15, d.toNat), (9, a.toNat), (6, sat.toNat), (5, uns.toNat), (3, it.code), (0, rm.code)]
  | .fcvtiV t d a sat uns it p rm => wordA 0x2F [(0, 0x1000000), (21, t.code), (16, d.toNat), (11, a.toNat), (9, sat.toNat), (8, uns.toNat), (6, it.code), (3, p.toNat), (0, rm.code)]
  | .icvtf t d a uns it rm => wordA 0x2F [(0, 0x80), (21, t.code), (15, d.toNat), (9, a.toNat), (5, uns.toNat), (3, it.code), (0, rm.code)]
  | .icvtfV t d a uns it p rm => wordA 0x2F [(0, 0x1000400), (21, t.code), (16, d.toNat), (11, a.toNat), (8, uns.toNat), (6, it.code), (3, p.toNat), (0, rm.code)]
  | .fexp2 t d a la rm => wordA 0x30 [(21, t.code), (15, d.toNat), (9, a.toNat), (5, la.toNat), (0, rm.code)]
  | .fexp2V t d a p la rm => wordA 0x30 [(0, 0x1000000), (21, t.code), (16, d.toNat), (11, a.toNat), (8, p.toNat), (4, la.toNat), (0, rm.code)]
  | .flog2 t d a la rm => wordA 0x31 [(21, t.code), (15, d.toNat), (9, a.toNat), (5, la.toNat), (0, rm.code)]
  | .flog2V t d a p la rm => wordA 0x31 [(0, 0x1000000), (21, t.code), (16, d.toNat), (11, a.toNat), (8, p.toNat), (4, la.toNat), (0, rm.code)]
  | .frcp t d a la rm => wordA 0x32 [(21, t.code), (15, d.toNat), (9, a.toNat), (5, la.toNat), (0, rm.code)]
  | .frcpV t d a p la rm => wordA 0x32 [(0, 0x1000000), (21, t.code), (16, d.toNat), (11, a.toNat), (8, p.toNat), (4, la.toNat), (0, rm.code)]
  | .frsq t d a la rm => wordA 0x33 [(21, t.code), (15, d.toNat), (9, a.toNat), (5, la.toNat), (0, rm.code)]
  | .frsqV t d a p la rm => wordA 0x33 [(0, 0x1000000), (21, t.code), (16, d.toNat), (11, a.toNat), (8, p.toNat), (4, la.toNat), (0, rm.code)]
  | .fsinpi t d a la rm => wordA 0x34 [(21, t.code), (15, d.toNat), (9, a.toNat), (5, la.toNat), (0, rm.code)]
  | .fsinpiV t d a p la rm => wordA 0x34 [(0, 0x1000000), (21, t.code), (16, d.toNat), (11, a.toNat), (8, p.toNat), (4, la.toNat), (0, rm.code)]
  | .fcospi t d a la rm => wordA 0x35 [(21, t.code), (15, d.toNat), (9, a.toNat), (5, la.toNat), (0, rm.code)]
  | .fcospiV t d a p la rm => wordA 0x35 [(0, 0x1000000), (21, t.code), (16, d.toNat), (11, a.toNat), (8, p.toNat), (4, la.toNat), (0, rm.code)]
  | .ftanh t d a la rm => wordA 0x36 [(21, t.code), (15, d.toNat), (9, a.toNat), (5, la.toNat), (0, rm.code)]
  | .ftanhV t d a p la rm => wordA 0x36 [(0, 0x1000000), (21, t.code), (16, d.toNat), (11, a.toNat), (8, p.toNat), (4, la.toNat), (0, rm.code)]
  | .vbcast t d a => wordA 0x38 [(21, t.code), (15, d.toNat), (9, a.toNat)]
  | .vext t d a b => wordA 0x38 [(0, 0x1), (21, t.code), (15, d.toNat), (9, a.toNat), (3, b.toNat)]
  | .vins t d a b => wordA 0x38 [(0, 0x2), (21, t.code), (15, d.toNat), (9, a.toNat), (3, b.toNat)]
  | .vperm t d a b p => wordA 0x39 [(0, 0x1000000), (21, t.code), (16, d.toNat), (11, a.toNat), (6, b.toNat), (3, p.toNat)]
  | .vrot t d a c p => wordA 0x39 [(0, 0x1000001), (21, t.code), (16, d.toNat), (11, a.toNat), (6, c.toNat), (3, p.toNat)]
  | .vred t d a fn p rm => wordA 0x3A [(0, 0x1000000), (21, t.code), (16, d.toNat), (11, a.toNat), (6, fn.code), (3, p.toNat), (0, rm.code)]
  | .vdot t d a b p rm => wordA 0x3B [(0, 0x1000000), (21, t.code), (16, d.toNat), (11, a.toNat), (6, b.toNat), (3, p.toNat), (0, rm.code)]
  | .viota t d p => wordA 0x3C [(0, 0x1000000), (21, t.code), (16, d.toNat), (3, p.toNat)]
  | .vsel t d a b p => wordA 0x3C [(0, 0x1000001), (21, t.code), (16, d.toNat), (11, a.toNat), (6, b.toNat), (3, p.toNat)]
  | .vpack t d a sat part rm => wordA 0x3D [(0, 0x1000000), (21, t.code), (16, d.toNat), (11, a.toNat), (10, sat.toNat), (6, part.toNat), (0, rm.code)]
  | .vunpack t d a part => wordA 0x3D [(0, 0x1000008), (21, t.code), (16, d.toNat), (11, a.toNat), (6, part.toNat)]
  | .lode d a b fn => wordA 0x3E [(15, d.toNat), (9, a.toNat), (3, b.toNat), (0, fn.code)]
  | .lodeV d a b p fn => wordA 0x3E [(0, 0x1000000), (16, d.toNat), (11, a.toNat), (6, b.toNat), (3, p.toNat), (0, fn.code)]
  | .vscale d a b p rm => wordA 0x3F [(0, 0x1800000), (16, d.toNat), (11, a.toNat), (6, b.toNat), (3, p.toNat), (0, rm.code)]
  | .resultArrival .. => none
  | .longLatencyFault .. => none
  | .wake .. => none
  | .storefaultRecord .. => none
  | .storefaultQueueEntry .. => none
  | .heldStorePerform .. => none
  | .translationWalk .. => none
  | .pageServed .. => none
  | .stopeAtomic .. => none
  | .wcbDrain .. => none
  | .l1Writeback .. => none
  | .copyCompletion .. => none
  | .matrixAccept .. => none
  | .tileClear .. => none
  | .tileRelease .. => none
  | .mldCompletion .. => none
  | .jobBegin .. => none
  | .jobKstep .. => none
  | .jobCompletion .. => none
  | .ringChunkArrival .. => none
  | .ringWatchdogExpiry .. => none
  | .jobFault .. => none
  | .mdrainPerform .. => none
  | .matrixEngineFailure .. => none
  | .callArrival .. => none
  | .handlerStart .. => none
  | .handlerBudget .. => none
  | .replyArrival .. => none
  | .rcallTimeout .. => none
  | .handlerInstall .. => none
  | .handlerClear .. => none
  | .freezeDrain .. => none
  | .thawArrival .. => none
  | .rowOperationPerform .. => none
  | .repartition .. => none
  | .couplingCheck .. => none
  | .fieldPhase .. => none
  | .fieldPhaseBarrier .. => none
  | .fieldSweepEnd .. => none
  | .snapshotArrival .. => none
  | .packetDependenceRead .. => none
  | .dispatchDecision .. => none
  | .crewMemoryRelease .. => none
  | .spillSave .. => none
  | .coreFailure .. => none
  | .patrolScrub .. => none
  | .calibration .. => none
  | .refresh .. => none
  | .limitSense .. => none
  | .clockStepUp .. => none
  | .linkFailure .. => none
  | .unitRetirement .. => none
  | .farMessageArrival .. => none
  | .moduleReset .. => none
  | .recoveryFetch .. => none
  | .loadimg .. => none
  | .islandCreate .. => none
  | .islandDestroy .. => none
  | .put .. => none
  | .get .. => none
  | .launchCommand .. => none
  | .wait .. => none
  | .freezeFrz .. => none
  | .freezeThaw .. => none
  | .freezeFrzq .. => none
  | .straitOpen .. => none
  | .straitClose .. => none
  | .fartab .. => none
  | .tlbinv .. => none
  | .fieldlink .. => none
  | .spillSlot .. => none
  | .refillSlot .. => none
  | .evictCluster .. => none
  | .restoreCluster .. => none
  | .kill .. => none
  | .telemetry .. => none
  | .unknownCommand .. => none
  | .illegalWord .. => none
  | .farAccessTimeout .. => none
  | .stopeEngineFailure .. => none
  | .coreRepairedOrRetired .. => none
  | .debugResume .. => none
  | .frameOwnershipWrite .. => none
  | .powerLoss => none
  | .connectionOpen .. => none

/-- The words of an instruction: the encoding tables of spec/02 read the other way. -/
def encode (i : Instr) : Option (BitVec 32) := (encodeNat i).map (BitVec.ofNat 32)

end Sys2Proof
end

