-- ==== Sys2Proof/Config.lean ====
section
/-! DEFINITION. What one GX4 fixes, and the values the spec leaves open. An opaque constant has no body here: nothing
in Lean can evaluate it, so a statement holds whatever it is. -/

namespace Sys2Proof.Config

/-- The approximate functions of R156 whose results the spec bounds and does not state. -/
inductive Approx where
  | exp2 | log2 | rsq | sinpi | cospi | tanh
  deriving DecidableEq, Repr

/-- The result that this GX4 gives for an approximate function in FP32 or FP64: a fixed function of function,
format, mode and operand (R72). The model takes it where it meets the bound of R71 and R72. -/
opaque approx : Approx → Fmt → Rm → Nat → Nat

/-- Do the accesses of a step to a 64 KiB page use a cached translation where one exists (R289), by the number of the step
and the page. -/
opaque tlbHit : Nat → Nat → Bool

/-- Which line of a full L1 set leaves to make room (R218), by the number of the free value. -/
opaque l1Victim : Nat → Nat

/-- Which line of a full set of an L2 slice leaves to make room (R221), by the number of the free value. -/
opaque l2Victim : Nat → Nat

/-- Which granule of a write-combining entry drains (R220), by the number of the free value. -/
opaque wcbGranule : Nat → Nat

/-- Is the load of a location held by a frozen line served from a replica (R200): no value depends on it. -/
opaque replicaFirst : Nat → Bool

/-- The bytes that a far module returns to a read of its memory that no event names (R310), by the number of the free
value. -/
opaque farBytes : Nat → BitVec 512

/-- Does a far module leave a read or write of its memory undone (R310), by the number of the free value. -/
opaque farFails : Nat → Bool

/-- The bytes of a failed core's dirty line that still check correct (R300), by the number of the free value. -/
opaque l1Check : Nat → BitVec 128

/-- Does an SLH-DSA signature of a firmware image verify under its key (R353). -/
opaque signatureValid : Image → Bool

/-- The digest of the public key held in a stack's fuses (R353). -/
opaque fusedKey : Nat → BitVec 256

/-- The minimum image version held in a stack's fuses (R353). -/
opaque fusedMin : Nat → Nat

/-- The service core's signature of an attestation report (R355), by the stack, whose device key signs, and the bytes of
the report. -/
opaque attest : Nat → List Byte → Nat

/-- The resident service's local time of a clock sample (R356), by the number of the free value. -/
opaque localTime : Nat → Word

end Sys2Proof.Config
end

