-- ==== Sys2Proof/Machine/Numeric.lean ====
section
/-! DEFINITION. Number formats and the rules of arithmetic (spec/03, R54 to R79): values as exact dyadic numbers,
RoundTo in all seven modes, the arithmetic of R64 to R70, comparisons, conversions and lode32. Everything is
computed on natural numbers and narrowed once. -/

namespace Sys2Proof.Machine

open Sys2Proof

/-! ## Formats (Table 3.1) -/

/-- Width in bits. -/
def Fmt.width : Fmt → Nat
  | .fp64 => 64 | .fp32 => 32 | .fp16 | .bf16 => 16 | .e4m3 | .e5m2 => 8 | .e2m1 => 4

/-- Precision p. -/
def Fmt.prec : Fmt → Nat
  | .fp64 => 53 | .fp32 => 24 | .fp16 => 11 | .bf16 => 8 | .e4m3 => 4 | .e5m2 => 3 | .e2m1 => 2

/-- Minimum exponent emin. -/
def Fmt.emin : Fmt → Int
  | .fp64 => -1022 | .fp32 | .bf16 => -126 | .fp16 | .e5m2 => -14 | .e4m3 => -6 | .e2m1 => 0

/-- Width of the exponent field. -/
def Fmt.ebits (f : Fmt) : Nat := Fmt.width f - Fmt.prec f

/-- The largest finite value as mantissa × 2^exponent. -/
def Fmt.largest : Fmt → Nat × Int
  | .fp64 => (2 ^ 53 - 1, 971) | .fp32 => (2 ^ 24 - 1, 104) | .fp16 => (2 ^ 11 - 1, 5)
  | .bf16 => (2 ^ 8 - 1, 120) | .e4m3 => (14, 5) | .e5m2 => (7, 13) | .e2m1 => (3, 1)

/-- The exponent of the spacing of subnormals, emin − p + 1. -/
def Fmt.qmin (f : Fmt) : Int := Fmt.emin f - (Fmt.prec f : Int) + 1

/-- The encoding of the largest finite value, without its sign. -/
def Fmt.largestBits : Fmt → Nat
  | .fp64 => 0x7FEF_FFFF_FFFF_FFFF | .fp32 => 0x7F7F_FFFF | .fp16 => 0x7BFF | .bf16 => 0x7F7F
  | .e4m3 => 0x7E | .e5m2 => 0x7B | .e2m1 => 0x7

/-- The encoding of +∞, where the format has one (Table 3.2). -/
def Fmt.infBits : Fmt → Option Nat
  | .fp64 => some 0x7FF0_0000_0000_0000 | .fp32 => some 0x7F80_0000 | .fp16 => some 0x7C00
  | .bf16 => some 0x7F80 | .e5m2 => some 0x7C | .e4m3 | .e2m1 => none

/-- The canonical NaN, where the format has one (Table 3.2). -/
def Fmt.nanBits : Fmt → Option Nat
  | .fp64 => some 0x7FF8_0000_0000_0000 | .fp32 => some 0x7FC0_0000 | .fp16 => some 0x7E00
  | .bf16 => some 0x7FC0 | .e5m2 => some 0x7E | .e4m3 => some 0x7F | .e2m1 => none

/-- The sign bit of an encoding. -/
def Fmt.signBit (f : Fmt) (neg : Bool) : Nat := if neg then 2 ^ (Fmt.width f - 1) else 0

/-! ## Flags (R23, Table 3.4) -/

/-- The six sticky flags, bit for bit as in %flags. -/
abbrev Flags := BitVec 6

def flagNV : Flags := 1
def flagDZ : Flags := 2
def flagOF : Flags := 4
def flagUF : Flags := 8
def flagNX : Flags := 16
def flagSAT : Flags := 32

/-- A flag where a condition holds. -/
def flagIf (b : Bool) (f : Flags) : Flags := if b then f else 0

/-! ## Values -/

/-- A value read from a register: a NaN (signalling or not), an infinity, or ± m × 2^e exactly (R54, R55). -/
inductive FVal where
  | nan (signalling : Bool)
  | inf (neg : Bool)
  | fin (neg : Bool) (m : Nat) (e : Int)
  deriving DecidableEq, Repr

/-- The value an encoding stands for (R54, R55). -/
def Fmt.unpack (f : Fmt) (bits : Nat) : FVal :=
  let p := Fmt.prec f
  let neg := bits / 2 ^ (Fmt.width f - 1) % 2 == 1
  let ef := bits / 2 ^ (p - 1) % 2 ^ Fmt.ebits f
  let frac := bits % 2 ^ (p - 1)
  let top := 2 ^ Fmt.ebits f - 1
  match f with
  | .e4m3 =>
    if ef = top ∧ frac = 7 then .nan false
    else if ef = 0 then .fin neg frac (Fmt.qmin f)
    else .fin neg (frac + 2 ^ (p - 1)) (Fmt.qmin f + (ef - 1 : Nat))
  | .e2m1 =>
    if ef = 0 then .fin neg frac (Fmt.qmin f)
    else .fin neg (frac + 2 ^ (p - 1)) (Fmt.qmin f + (ef - 1 : Nat))
  | _ =>
    if ef = top then
      if frac = 0 then .inf neg
      else .nan (f != .e5m2 && frac / 2 ^ (p - 2) % 2 == 0)
    else if ef = 0 then .fin neg frac (Fmt.qmin f)
    else .fin neg (frac + 2 ^ (p - 1)) (Fmt.qmin f + (ef - 1 : Nat))

/-- Is the encoding a nonzero subnormal: exponent field zero and fraction nonzero. -/
def Fmt.isSubnormal (f : Fmt) (bits : Nat) : Bool :=
  bits / 2 ^ (Fmt.prec f - 1) % 2 ^ Fmt.ebits f == 0 && bits % 2 ^ (Fmt.prec f - 1) != 0

/-- The subnormal flush bits of a format descriptor (R21). -/
structure Flush where
  fzi : Bool
  fzo : Bool
  fzn : Bool
  deriving DecidableEq, Repr

/-- The flush bits of a format descriptor: bits 10, 11 and 12 (Table 1.5). -/
def Flush.ofFmt (d : Word) : Flush := ⟨d.getLsbD 10, d.getLsbD 11, d.getLsbD 12⟩

/-- Does a flush bit act on inputs of the format (R66, R67). -/
def Flush.onInput (z : Flush) : Fmt → Bool
  | .fp32 | .fp16 | .bf16 => z.fzi
  | .e4m3 | .e5m2 => z.fzn
  | .fp64 | .e2m1 => false

/-- Does a flush bit act on results of the format (R66, R67). -/
def Flush.onResult (z : Flush) : Fmt → Bool
  | .fp32 | .fp16 | .bf16 => z.fzo
  | .e4m3 | .e5m2 => z.fzn
  | .fp64 | .e2m1 => false

/-- An input element as read: a subnormal is a zero of its sign where the flush bit says so (R66, R67). -/
def readFloat (z : Flush) (f : Fmt) (bits : Nat) : FVal :=
  match Fmt.unpack f bits with
  | .fin neg m e => .fin neg (if z.onInput f && Fmt.isSubnormal f bits then 0 else m) e
  | v => v

/-! ## Rounding (R59, R60) -/

/-- What a rounding needs beside the value: the mode, the flush of results, .SAT, and the 24-bit draw of RSR. -/
structure RoundEnv where
  rm : Rm
  flush : Flush
  sat : Bool
  draw : Nat
  deriving DecidableEq, Repr

/-- An encoding with the flags raised in making it. -/
structure Rounded where
  bits : Nat
  flags : Flags
  deriving DecidableEq, Repr

/-- Is the neighbour of larger magnitude chosen? `k` is the smaller magnitude in units of the spacing, `r` of
2^sh is the part above it, and `sticky` says that a positive amount below one unit of `r` was left out. -/
def roundsAway (rm : Rm) (draw : Nat) (neg : Bool) (k r sh : Nat) (sticky : Bool) : Bool :=
  if r == 0 && !sticky then false
  else match rm with
    | .rne => 2 * r > 2 ^ sh || (2 * r == 2 ^ sh && (sticky || k % 2 == 1))
    | .rna => 2 * r ≥ 2 ^ sh
    | .rtz => false
    | .rdn => neg
    | .rup => !neg
    | .rod => k % 2 == 0
    | .rsr =>
      if neg then !(draw * 2 ^ sh < (2 ^ sh - r) * 2 ^ 24)
      else draw * 2 ^ sh < r * 2 ^ 24 || (sticky && draw * 2 ^ sh == r * 2 ^ 24)

/-- (m + sticky) × 2^e as a multiple of 2^qe: the rounded multiple, and whether it is inexact. -/
def roundAt (rm : Rm) (draw : Nat) (neg : Bool) (m : Nat) (e : Int) (sticky : Bool) (qe : Int) : Nat × Bool :=
  let sh := (qe - e).toNat
  let k := m * 2 ^ (e - qe).toNat / 2 ^ sh
  let r := m * 2 ^ (e - qe).toNat % 2 ^ sh
  (if roundsAway rm draw neg k r sh sticky then k + 1 else k, r != 0 || sticky)

/-- m × 2^e against n × 2^f: strictly greater. -/
def dyadGt (m : Nat) (e : Int) (n : Nat) (f : Int) : Bool :=
  m * 2 ^ (e - f).toNat > n * 2 ^ (f - e).toNat

/-- The canonical NaN of the format; E2M1 has none and gets +0 with NV (R56). -/
def nanResult (f : Fmt) (fl : Flags) : Rounded :=
  match Fmt.nanBits f with
  | some b => ⟨b, fl⟩
  | none => ⟨0, fl ||| flagNV⟩

/-- Overflow (R60, Table 3.3). -/
def overflow (f : Fmt) (env : RoundEnv) (neg : Bool) : Rounded :=
  let big : Nat := Fmt.signBit f neg + Fmt.largestBits f
  if env.sat then ⟨big, flagSAT ||| flagNX⟩
  else
    let fl := flagOF ||| flagNX
    match Fmt.infBits f with
    | none => if f == .e4m3 then nanResult f fl else ⟨big, fl⟩
    | some inf =>
      let infinite : Bool := match env.rm with
        | .rne | .rna | .rsr => true
        | .rtz | .rod => false
        | .rdn => neg
        | .rup => !neg
      ⟨if infinite then Fmt.signBit f neg + inf else big, fl⟩

/-- RoundTo on a finite value ± (m + sticky) × 2^e (R59). -/
def roundFinite (f : Fmt) (env : RoundEnv) (neg : Bool) (m : Nat) (e : Int) (sticky : Bool) : Rounded :=
  if m = 0 ∧ !sticky then ⟨Fmt.signBit f neg, 0⟩
  else
    let lg : Int := (Nat.log2 m : Int) + e
    let tiny : Bool := lg < Fmt.emin f
    if env.flush.onResult f ∧ tiny then ⟨Fmt.signBit f neg, flagUF ||| flagNX⟩
    else
      let qe := max lg (Fmt.emin f) - (Fmt.prec f : Int) + 1
      let r := roundAt env.rm env.draw neg m e sticky qe
      if dyadGt r.1 qe (Fmt.largest f).1 (Fmt.largest f).2 then overflow f env neg
      else
        ⟨Fmt.signBit f neg + (qe - Fmt.qmin f).toNat * 2 ^ (Fmt.prec f - 1) + r.1,
          flagIf r.2 flagNX ||| flagIf (r.2 && tiny) flagUF⟩

/-- An infinity into a format (Table 3.5). -/
def infResult (f : Fmt) (env : RoundEnv) (neg : Bool) : Rounded :=
  match Fmt.infBits f with
  | some b => ⟨Fmt.signBit f neg + b, 0⟩
  | none =>
    if env.sat then ⟨Fmt.signBit f neg + Fmt.largestBits f, flagSAT⟩
    else if f == .e4m3 then ⟨0x7F, flagNV⟩
    else ⟨Fmt.signBit f neg + Fmt.largestBits f, flagNV⟩

/-- RoundTo(f, x, rm) (R59, R68): NaN, infinity or finite. A signalling NaN sets NV. -/
def roundTo (f : Fmt) (env : RoundEnv) : FVal → Rounded
  | .nan s => nanResult f (flagIf s flagNV)
  | .inf neg => infResult f env neg
  | .fin neg m e => roundFinite f env neg m e false

/-- An invalid operation: the canonical NaN and NV. -/
def invalid (f : Fmt) : Rounded := nanResult f flagNV

/-- Is the value a signalling NaN. -/
def FVal.isSNaN : FVal → Bool
  | .nan s => s
  | _ => false

/-- Is the value a NaN. -/
def FVal.isNaN : FVal → Bool
  | .nan _ => true
  | _ => false

/-- The value with its sign changed. -/
def FVal.negate : FVal → FVal
  | .nan s => .nan s
  | .inf n => .inf (!n)
  | .fin n m e => .fin (!n) m e

/-! ## Exact sums and products (R62, R64) -/

/-- One signed term of an exact sum. -/
structure Term where
  neg : Bool
  m : Nat
  e : Int
  deriving DecidableEq, Repr

/-- The smallest exponent of the terms. -/
def minExp : List Term → Int
  | [] => 0
  | [t] => t.e
  | t :: ts => min t.e (minExp ts)

/-- The exact sum in units of 2^e, for an e at or below every term's. -/
def sumAt (e : Int) : List Term → Int
  | [] => 0
  | t :: ts =>
    let v : Int := (t.m * 2 ^ (t.e - e).toNat : Nat)
    (if t.neg then -v else v) + sumAt e ts

/-- The exact sum of terms, with the sign rule of R62 for a zero sum. -/
def exactSum (rm : Rm) (ts : List Term) : Term :=
  let e := minExp ts
  let v := sumAt e ts
  if v = 0 then
    let sameSign := ts.all (fun t => t.m == 0 && t.neg == (ts.headD ⟨false, 0, 0⟩).neg)
    ⟨if sameSign then (ts.headD ⟨false, 0, 0⟩).neg else rm == .rdn, 0, 0⟩
  else ⟨decide (v < 0), v.natAbs, e⟩

/-- The exact product of two values as one factor of a sum: `none` where it is 0 × ∞. -/
def exactMul : FVal → FVal → Option FVal
  | .nan s, .nan t => some (.nan (s || t))
  | .nan s, _ => some (.nan s)
  | _, .nan s => some (.nan s)
  | .inf n, .inf k => some (.inf (n != k))
  | .inf n, .fin k m _ => if m = 0 then none else some (.inf (n != k))
  | .fin k m _, .inf n => if m = 0 then none else some (.inf (n != k))
  | .fin n m e, .fin k l g => some (.fin (n != k) (m * l) (e + g))

/-- The rounded sum of two values (FADD; the last step of Fma). -/
def addRounded (f : Fmt) (env : RoundEnv) (x y : FVal) : Rounded :=
  match x, y with
  | .nan s, .nan t => nanResult f (flagIf (s || t) flagNV)
  | .nan s, _ => nanResult f (flagIf s flagNV)
  | _, .nan s => nanResult f (flagIf s flagNV)
  | .inf n, .inf k => if n = k then infResult f env n else invalid f
  | .inf n, .fin .. => infResult f env n
  | .fin .., .inf n => infResult f env n
  | .fin n m e, .fin k l g =>
    let t := exactSum env.rm [⟨n, m, e⟩, ⟨k, l, g⟩]
    roundFinite f env t.neg t.m t.e false

/-- The rounded product (FMUL). -/
def mulRounded (f : Fmt) (env : RoundEnv) (x y : FVal) : Rounded :=
  match exactMul x y with
  | none => invalid f
  | some (.nan s) => nanResult f (flagIf s flagNV)
  | some v => roundTo f env v

/-- Fma(a, b, c, rm) (R64). -/
def fmaRounded (f : Fmt) (env : RoundEnv) (a b c : FVal) : Rounded :=
  match exactMul a b with
  | none => nanResult f flagNV
  | some p =>
    if p.isNaN || c.isNaN then nanResult f (flagIf (a.isSNaN || b.isSNaN || c.isSNaN) flagNV)
    else addRounded f env p c

/-! ## Division and square root (R70) -/

/-- Extra bits of a quotient or root, beyond the precision. -/
def guardBits : Nat := 40

/-- The rounded quotient (FDIV). -/
def divRounded (f : Fmt) (env : RoundEnv) (x y : FVal) : Rounded :=
  match x, y with
  | .nan s, .nan t => nanResult f (flagIf (s || t) flagNV)
  | .nan s, _ => nanResult f (flagIf s flagNV)
  | _, .nan s => nanResult f (flagIf s flagNV)
  | .inf _, .inf _ => invalid f
  | .inf n, .fin k _ _ => infResult f env (n != k)
  | .fin n _ _, .inf k => ⟨Fmt.signBit f (n != k), 0⟩
  | .fin n m e, .fin k l g =>
    if l = 0 then
      if m = 0 then invalid f
      else
        let r := infResult f env (n != k)
        ⟨r.bits, r.flags ||| flagDZ⟩
    else if m = 0 then ⟨Fmt.signBit f (n != k), 0⟩
    else
      let sh := Nat.log2 l + Fmt.prec f + guardBits - Nat.log2 m
      let num := m * 2 ^ sh
      roundFinite f env (n != k) (num / l) (e - g - (sh : Int)) (num % l != 0)

/-- The integer square root, one bit at a time: the largest r of at most i bits above `acc` with r² ≤ n. -/
def isqrtGo (n : Nat) : Nat → Nat → Nat
  | 0, acc => acc
  | i + 1, acc =>
    let t := acc + 2 ^ i
    isqrtGo n i (if t * t ≤ n then t else acc)

/-- ⌊√n⌋. -/
def isqrt (n : Nat) : Nat := isqrtGo n (Nat.log2 n / 2 + 1) 0

/-- The rounded square root (FSQRT). -/
def sqrtRounded (f : Fmt) (env : RoundEnv) : FVal → Rounded
  | .nan s => nanResult f (flagIf s flagNV)
  | .inf true => invalid f
  | .inf false => infResult f env false
  | .fin neg m e =>
    if m = 0 then ⟨Fmt.signBit f neg, 0⟩
    else if neg then invalid f
    else
      let sh := 2 * (Fmt.prec f + guardBits) + (if e % 2 = 0 then 0 else 1)
      let num := m * 2 ^ sh
      let r := isqrt num
      roundFinite f env false r ((e - (sh : Int)) / 2) (r * r != num)

/-- The rounded reciprocal (FRCP). -/
def rcpRounded (f : Fmt) (env : RoundEnv) (x : FVal) : Rounded :=
  divRounded f env (.fin false 1 0) x

/-! ## Comparison, minimum and maximum (R65, R151) -/

/-- The order of two values that are not NaNs, −0 equal to +0: x < y. -/
def fvalLt : FVal → FVal → Bool
  | .nan _, _ => false
  | _, .nan _ => false
  | .inf n, .inf k => n && !k
  | .inf n, .fin .. => n
  | .fin .., .inf k => !k
  | .fin n m e, .fin k l g => sumAt (min e g) [⟨n, m, e⟩] < sumAt (min e g) [⟨k, l, g⟩]

/-- x = y, −0 equal to +0; false when either is a NaN. -/
def fvalEq (x y : FVal) : Bool :=
  !x.isNaN && !y.isNaN && !fvalLt x y && !fvalLt y x

/-- The sign of a value. -/
def FVal.isNeg : FVal → Bool
  | .nan _ => false
  | .inf n => n
  | .fin n _ _ => n

/-- The order of R65, which puts −0 below +0: x ≤ y. -/
def fvalLeMinMax (x y : FVal) : Bool :=
  fvalLt x y || (fvalEq x y && (x.isNeg || !y.isNeg))

/-- The value of an operand as encoded in its own format, after FZI: exact, with no flag. -/
def repack (f : Fmt) (v : FVal) : Nat :=
  match v with
  | .nan _ => (Fmt.nanBits f).getD 0
  | .inf n => Fmt.signBit f n + (Fmt.infBits f).getD 0
  | .fin n m e => (roundFinite f ⟨.rtz, ⟨false, false, false⟩, false, 0⟩ n m e false).bits

/-- The minimum (`isMax = false`) or maximum of two values of one format (R65). -/
def minMax (f : Fmt) (isMax : Bool) (x y : FVal) : Rounded :=
  let fl := flagIf (x.isSNaN || y.isSNaN) flagNV
  match x.isNaN, y.isNaN with
  | true, true => nanResult f fl
  | true, false => ⟨repack f y, fl⟩
  | false, true => ⟨repack f x, fl⟩
  | false, false => ⟨repack f (if fvalLeMinMax x y != isMax then x else y), fl⟩

/-- FCMP: the outcome and the flags (Table 6.2). -/
def fcmpResult (c : FCmpCond) (x y : FVal) : Bool × Flags :=
  let nan := x.isNaN || y.isNaN
  let nv := flagIf (x.isSNaN || y.isSNaN) flagNV
  match c with
  | .eq => (fvalEq x y, 0)
  | .ne => (nan || !fvalEq x y, 0)
  | .lt => (fvalLt x y, nv)
  | .le => (fvalLt x y || fvalEq x y, nv)
  | .un => (nan, nv)

/-- FCLASS: the class mask of an operand (Table 6.3); `z` applies first. -/
def classMask (z : Flush) (f : Fmt) (bits : Nat) : Nat :=
  match readFloat z f bits with
  | .nan true => 2 ^ 8
  | .nan false => 2 ^ 9
  | .inf true => 2 ^ 0
  | .inf false => 2 ^ 7
  | .fin neg m _ =>
    if m = 0 then (if neg then 2 ^ 3 else 2 ^ 4)
    else if Fmt.isSubnormal f bits then (if neg then 2 ^ 2 else 2 ^ 5)
    else (if neg then 2 ^ 1 else 2 ^ 6)

/-- FABS, FNEG and FCPYS on an encoding: no flag, no rounding, a NaN gives the canonical NaN (R150). -/
def withSign (z : Flush) (f : Fmt) (bits : Nat) (neg : Bool → Bool) : Nat :=
  match readFloat z f bits with
  | .nan _ => (Fmt.nanBits f).getD 0
  | .inf n => repack f (.inf (neg n))
  | .fin n m e => repack f (.fin (neg n) m e)

/-! ## Integral values and conversions (R69, R153, R155) -/

/-- FRINT: rounded to an integral value in its own format (R153). -/
def rintResult (f : Fmt) (env : RoundEnv) : FVal → Rounded
  | .nan s => nanResult f (flagIf s flagNV)
  | .inf n => ⟨repack f (.inf n), 0⟩
  | .fin n m e =>
    if e ≥ 0 then ⟨repack f (.fin n m e), 0⟩
    else
      let r := roundAt env.rm env.draw n m e false 0
      ⟨repack f (.fin n r.1 0), flagIf r.2 flagNX⟩

/-- The width of an integer type of FCVTI and ICVTF. -/
def CvtInt.width : CvtInt → Nat
  | .i32 => 32 | .i64 => 64 | .i8 => 8

/-- FCVTI: a value into an integer of n bits (R69, Table 3.6), as an integer. -/
def toIntResult (n : Nat) (uns sat : Bool) (env : RoundEnv) (x : FVal) : Int × Flags :=
  let lo : Int := if uns then 0 else -(2 ^ (n - 1) : Nat)
  let hi : Int := if uns then (2 ^ n : Nat) - 1 else (2 ^ (n - 1) : Nat) - 1
  let bad : Int := if uns then 0 else -(2 ^ (n - 1) : Nat)
  let below : Int × Flags := if sat then (lo, flagSAT) else (bad, flagNV)
  let above : Int × Flags := if sat then (hi, flagSAT) else (bad, flagNV)
  match x with
  | .nan _ => (if sat then 0 else bad, flagNV)
  | .inf true => below
  | .inf false => above
  | .fin neg m e =>
    let r := roundAt env.rm env.draw neg m e false 0
    let v : Int := if neg then -(r.1 : Int) else r.1
    if v < lo then below
    else if v > hi then above
    else (v, flagIf r.2 flagNX)

/-- An integer as a value (R69). -/
def intVal (v : Int) : FVal := .fin (decide (v < 0)) v.natAbs 0

/-! ## lode32 (R74) -/

/-- Lode32(ctr, key). -/
def lode32 (ctr key : BitVec 32) : BitVec 32 :=
  let x := ctr ^^^ key
  let x := x * 0x9E3779B1#32
  let x := x ^^^ (x >>> 16)
  let x := x * 0x85EBCA77#32
  x ^^^ (x >>> 13)

/-- The 24-bit draw of the n-th rounding from a counter and a key (R61). -/
def draw24 (ctr key : BitVec 32) (n : Nat) : Nat :=
  (lode32 (ctr + BitVec.ofNat 32 n) key >>> 8).toNat

/-! ## Dot products and matrix steps (R76, R77) -/

/-- The value of a BS24 scale held in the low 24 bits (R57): the FP32 value whose bits 31:8 it is. -/
def bs24Val (s : Nat) : FVal := Fmt.unpack .fp32 (s % 2 ^ 24 * 256)

/-- The terms of an exact sum of products, or what spoils it. -/
inductive SumParts where
  /-- Every term is finite. -/
  | finite (ts : List Term)
  /-- The sum is an infinity. -/
  | infinite (neg : Bool)
  /-- A NaN element, 0 × ∞ or opposite infinities. -/
  | invalid
  deriving DecidableEq, Repr

/-- One more exact term (a product, or a product under its scales). -/
def SumParts.add (s : SumParts) : Option FVal → SumParts
  | none => .invalid
  | some (.nan _) => .invalid
  | some (.inf n) =>
    match s with
    | .invalid => .invalid
    | .infinite k => if k = n then .infinite n else .invalid
    | .finite _ => .infinite n
  | some (.fin n m e) =>
    match s with
    | .finite ts => .finite (⟨n, m, e⟩ :: ts)
    | s => s

/-- Round acc + Σ to FP32 (R76, R77): the accumulator is one of the terms. -/
def accumulate (env : RoundEnv) (acc : FVal) (s : SumParts) : Rounded :=
  match s, acc with
  | .invalid, _ => invalid .fp32
  | _, .nan sg => nanResult .fp32 (flagIf sg flagNV)
  | .infinite n, .inf k => if n = k then infResult .fp32 env n else invalid .fp32
  | .infinite n, .fin .. => infResult .fp32 env n
  | .finite _, .inf k => infResult .fp32 env k
  | .finite ts, .fin n m e =>
    let t := exactSum env.rm (⟨n, m, e⟩ :: ts)
    roundFinite .fp32 env t.neg t.m t.e false

end Sys2Proof.Machine
end

