-- ==== Sys2Proof/Machine/State.lean ====
section
/-! DEFINITION. The state of one GX4 module (spec/01, 05, 07 to 14, 21) as plain data: the threads with every
register, the memories in one canonical list of cells with their full/empty and poison marks, the caches and
buffers, translation, the launch machinery, the engines with their queues, islands, fabric and hosts. Everything
that the manual describes as going on by itself is held here as a list of pending work; the events of the opcode
table are the moves that act on it. -/

namespace Sys2Proof.Machine

open Sys2Proof

/-! ## Why a step can stop -/

/-- Why the machine stops. -/
inductive Fault where
  /-- The module has shut down or lost power (R354, R357) and nothing is left to happen before the next module
  reset. Raised by `step` alone. Safe: the hardware does nothing either. -/
  | moduleOff
  deriving DecidableEq, Repr

/-- Why a meaning is refused. -/
inductive Refusal where
  /-- The instruction has no meaning in this model yet. Raised by an arm of `exec`. Safe: nothing is claimed. -/
  | notModelled (mnemonic : String)
  deriving DecidableEq, Repr

/-! ## Memory -/

/-- A location (R215) as one number: a DRAM byte is bits 38:0 of its bank-linear address, and the other memories
lie above (`Ops`). -/
abbrev Loc := Nat

/-- The bytes that are not zero, by rising location. -/
abbrev Memory := List Host.Cell

/-- The canonical form: locations rise strictly and no listed byte is zero, which is what an unlisted byte reads as. -/
def Memory.wf : Memory → Bool
  | [] => true
  | [c] => c.2 != 0
  | c :: d :: m => c.2 != 0 && c.1 < d.1 && Memory.wf (d :: m)

/-- A set of numbers in canonical form: strictly rising. -/
def risingSet : List Nat → Bool
  | [] => true
  | [_] => true
  | a :: b :: l => a < b && risingSet (b :: l)

/-! ## Threads (R10 to R37) -/

/-- A segment register or handle (Table 1.8). An empty one has space 0, which is reserved. -/
structure Seg where
  base : BitVec 52
  len : Nat
  rights : BitVec 8
  space : BitVec 4
  policy : BitVec 2
  fmod : BitVec 16
  deriving DecidableEq, Repr

/-- The empty segment register: no rights (R29). -/
def Seg.empty : Seg := ⟨0, 0, 0, 0, 0, 0⟩

/-- The destination of a pending entry. -/
inductive Dest where
  | g (d : BitVec 6)
  | v (d : BitVec 5)
  | p (d : BitVec 3)
  deriving DecidableEq, Repr

/-- The trap causes (Table 13.5). -/
inductive Cause where
  | illegal | pair | badTarget | midPair | pairAlign | segRight | segBound | align | addrForm | scratchBound
  | pageRight | frozen | owner | poison | storeFault | feState | rcallBad | rowAlign | rowPlace | fieldWrite
  | freezeFull | matrixOperand | gangBroken | gangTimeout | trap | brk | deadCore
  deriving DecidableEq, Repr

/-- What a pending entry waits for. -/
inductive PendWait where
  /-- The value is fixed; RESULT_ARRIVAL brings it. -/
  | value
  /-- An atomic on its way to a stope engine or a far module. -/
  | atomic
  /-- An LDS request in a word's wait list (R126). -/
  | listed
  /-- A far load, answered from outside. -/
  | far
  /-- A load that the core's port holds until what comes before it has been performed (R235, R239). -/
  | port
  /-- The access failed; `known` once the fault has arrived (R35 item 2). -/
  | fault (c : Cause) (va : Nat) (known : Bool)
  /-- The access met a parking condition on a page (R36); `known` once the thread has been told. -/
  | park (va : Nat) (known : Bool)
  deriving DecidableEq, Repr

/-- A pending entry of the delayed-write window (R32, Table 11.11). -/
structure Pend where
  seq : Nat
  dest : Dest
  left : Nat
  arrived : Bool
  value : VWord
  mask : VWord
  flags : Flags
  pc : BitVec 52
  wait : PendWait
  ofHandler : Bool
  /-- The access that made the entry: the number of its first entry (CAS2 makes two), or of the one that a replay
  renews. -/
  access : Nat
  /-- An acquiring access, LDS (R239). -/
  acq : Bool
  deriving DecidableEq, Repr

/-- A replay (R36): the word's address, the window it gets, and the access that it renews where the hardware replays it
by itself. -/
structure Replay where
  pc : BitVec 52
  left : Nat
  access : Option Nat
  acq : Bool
  deriving DecidableEq, Repr

/-- Thread states (Table 1.2). -/
inductive Status where
  | ready | stalled | parked | spilled | retired
  deriving DecidableEq, Repr

/-- Where a parked thread is registered (Table 11.8). -/
inductive Wait where
  | none
  /-- A word's wait list. -/
  | word (loc : Loc)
  /-- A transaction barrier. -/
  | barrier (loc : Loc)
  /-- A matrix job of the thread's cluster. -/
  | job (id : Nat)
  /-- The crew barrier. -/
  | barc
  /-- A 64 KiB page of the island, or a frame, at the walker. -/
  | page (va : Nat)
  /-- A full queue of the island. -/
  | queue (q : Nat)
  /-- Engine work, by its number. -/
  | engine (id : Nat)
  /-- gvdbg (R89). -/
  | debug
  /-- A held store (R294). -/
  | held
  deriving DecidableEq, Repr

/-- What a thread is: a crew's thread, a call handler's context, or a field update's (R194, R275). -/
inductive Role where
  | crew
  | call (id : Nat)
  | field (island num : Nat) (site : Nat)
  deriving DecidableEq, Repr

/-- Where a thread's private and crew memories lie, and who it is for the checks (R29, R248). -/
structure View where
  island : Nat
  /-- Cluster, 96 × stack + 12 × y + x. -/
  cluster : Nat
  /-- Core within the cluster. -/
  core : Nat
  slot : Nat
  spadBase : Nat
  spadSize : Nat
  cmemBase : Nat
  cmemSize : Nat
  deriving DecidableEq, Repr

/-- How the unit being issued ended. -/
inductive UnitEnd where
  /-- It has been issued and counts in windows. -/
  | done
  /-- It was not issued: a trap, a park or a stall at issue. -/
  | held
  deriving DecidableEq, Repr

/-- A trap that a unit takes when it goes on after a wait: its cause, %tinfo0 and %tinfo1, and the unit, which may stand in a
trap handler. -/
structure GrantTrap where
  cause : Cause
  i0 : Word
  i1 : Word
  pc : BitVec 52
  hstate : Bool
  deriving DecidableEq, Repr

/-- One thread (R10), with its private registers and the machine registers of Table 1.4. -/
structure Thread where
  key : ThreadKey
  role : Role
  view : View
  status : Status
  wait : Wait
  /-- A granted wait: the reissued unit completes with this result (R256). -/
  grant : Option Word
  /-- What the thread waited for ended in a trap of its unit. -/
  grantTrap : Option GrantTrap
  pc : BitVec 52
  g : Vector Word 64
  v : Vector VWord 32
  p : Vector Pred 8
  segs : Vector Seg 8
  /-- %nthr, %cx, %cy, %stage, %ncx, %ncy, %nstage. -/
  nthr : Nat
  cx : Nat
  cy : Nat
  stage : Nat
  ncx : Nat
  ncy : Nat
  nstage : Nat
  /-- %pkt: queue, priority and the shift's serial number. -/
  queue : BitVec 6
  prio : BitVec 3
  args : Word
  fmt : Vector (BitVec 13) 4
  scl : Vector Word 4
  flags : Flags
  srkey : BitVec 32
  srctr : BitVec 32
  tvec : BitVec 52
  tpc : Word
  tcause : BitVec 8
  tinfo0 : Word
  tinfo1 : Word
  rcto : BitVec 32
  inbox : Word
  /-- The handle table's address (R28); 0 in a handler. -/
  htab : Nat
  /-- Handler state, set by trap entry (R295). -/
  hstate : Bool
  /-- Pending entries, oldest first. -/
  pending : List Pend
  pendSeq : Nat
  /-- A replay due at the next issue. -/
  replay : Option Replay
  /-- The replay that is being issued. -/
  replaying : Option Replay
  /-- A FENCE.REL, full or .SC whose synchronising store has not come yet (R237). -/
  relFence : Bool
  /-- The unit being issued is a pair, so Xn is 8 on (R80). -/
  pairNow : Bool
  unitEnd : UnitEnd
  /-- The owner's matrix faults known and not yet delivered, as %tcause, %tinfo0, %tinfo1 (R184, R181). -/
  mfaults : List (Cause × Word × Word)
  /-- Matrix jobs to be retried at the ERET from a MATRIXOPERAND handler (R184). -/
  mretry : List Nat
  /-- The slot takes no further turn: a spill has begun (R257). -/
  spilling : Bool
  /-- The slot's next own turn is given away (R88). -/
  yielded : Bool
  /-- The cycle after the one whose turn YIELD gave away last (R88, R255); 0: none. -/
  freed : Nat
  /-- A wake that found the thread Spilled (WOKEN, R256). -/
  woken : Bool
  /-- The thread ends with its crew's debugging (R89). -/
  dbg : Bool
  /-- A handler: the region of s1's first unit, the units left, and its result (R193, R194). -/
  budget : Nat
  /-- Where the spill engine saves the slot (R258). -/
  area : Nat
  ended : Option (BitVec 8 × Nat × List Word)
  /-- The cycle after that of the last issue (R255); 0 before the first. -/
  last : Nat
  deriving DecidableEq, Repr

/-! ## Cores, caches and buffers (R218 to R241) -/

/-- An L1 line of 128 bytes: valid, dirty and covered masks, one bit per byte (R218, R237). -/
structure L1Line where
  line : Nat
  valid : BitVec 128
  dirty : BitVec 128
  covered : BitVec 128
  frozen : Bool
  data : BitVec 1024
  deriving DecidableEq, Repr

/-- A write-combining buffer entry, keyed by the window line (R220). -/
structure WcbEntry where
  window : Nat
  line : Nat
  mask : BitVec 128
  data : BitVec 1024
  owners : List ThreadKey
  deriving DecidableEq, Repr

/-- A store-fault record (R297), in flight, behind a full queue or in it. -/
inductive SfStage where
  | flight | behind | queued
  deriving DecidableEq, Repr

structure StoreFault where
  core : Nat
  key : ThreadKey
  pc : Nat
  va : Nat
  logSize : Nat
  red : Bool
  cause : Cause
  stage : SfStage
  deriving DecidableEq, Repr

/-- An operation at memory (R128 to R131). -/
inductive MemOp where
  | atom (op : AtomOp) (uns : Bool)
  | cas
  | cas2
  | red (op : RedOp) (uns : Bool)
  | fadd (rm : Rm) (flush : Flush)
  | nibble (high : Bool)
  /-- The slot write of APND, which waits at the slot's word (R133). -/
  | slot
  deriving DecidableEq, Repr

/-- What a transaction-barrier instruction does (R137). -/
inductive BarrierOp where
  | init | expect | arrive
  deriving DecidableEq, Repr

/-- What a held store does when it is performed. -/
inductive HeldOp where
  /-- A plain store or a vector store: its elements are written. -/
  | plain
  /-- RED, or a message ST.N. -/
  | memory (op : MemOp)
  /-- STS. -/
  | sts (force : Bool)
  /-- FESET, FECLR. -/
  | bit (full : Bool)
  | barrier (op : BarrierOp) (count : Nat)
  /-- APND, from its header on. -/
  | append
  /-- The slot write of APND, whose header has been advanced. -/
  | slot
  deriving DecidableEq, Repr

/-- A store held behind the port: by a parking condition (R294), or by earlier loads of its thread (R236). Its elements
are given by offset, size and value. -/
structure HeldStore where
  key : ThreadKey
  view : View
  seg : Seg
  elems : List (Nat × Nat × Nat)
  pc : Nat
  /-- The unit was the first store after a release fence (R237). -/
  sync : Bool
  /-- The accesses of the thread below this number must be performed first (R236). -/
  upTo : Nat
  /-- It has met a parking condition. -/
  parked : Bool
  op : HeldOp
  /-- The number of the step in which it came to the port. -/
  ord : Nat
  deriving DecidableEq, Repr

/-- A plain store, of one line, that its thread's earlier loads keep at the core's port (R236): translated and checked, and
not performed, so no party sees it yet. `upTo`: the accesses below that number must be performed first. -/
structure PortStore where
  key : ThreadKey
  upTo : Nat
  /-- The number of the step in which it came to the port: the elements of one vector store share it. -/
  unit : Nat
  pc : Nat
  va : Nat
  loc : Loc
  size : Nat
  val : Nat
  policy : BitVec 2
  sync : Bool
  /-- Another element of its unit has made the unit's record (R123). -/
  quiet : Bool
  deriving DecidableEq, Repr

/-- A piece of a load, of one line: where it lies, and at which byte of the result it goes. -/
structure LoadPart where
  va : Nat
  loc : Loc
  size : Nat
  at_ : Nat
  deriving DecidableEq, Repr

/-- A load or LDS that the port holds (R235, R239): translated and checked, its pending entry made. `num` is the number of
its access, `ord` that of the step in which it came to the port; an LDS says whether it empties its word. -/
structure HeldLoad where
  key : ThreadKey
  view : View
  entry : Nat
  num : Nat
  ord : Nat
  seg : Seg
  parts : List LoadPart
  sx : Nat
  lds : Option Bool
  deriving DecidableEq, Repr

/-- A core's health (R300). -/
inductive Health where
  | ok | failed | retired
  deriving DecidableEq, Repr

/-- What a core holds beside its threads. -/
structure CoreSt where
  id : Nat
  l1 : List L1Line
  wcb : List WcbEntry
  /-- The stores at the port, oldest first. -/
  port : List PortStore
  /-- The next CALLID (R197). -/
  callSeq : Nat
  /-- The next far message number (R311). -/
  farSeq : Nat
  health : Health
  deriving DecidableEq, Repr

/-! ## Waiting at words, atomics on their way -/

/-- A request in a word's wait list (R125, R133). -/
inductive WordReq where
  /-- LDS: the entry's number when the thread runs its window, whether the word is emptied, and the virtual address. -/
  | load (consume : Bool) (entry : Option Nat) (lo : Loc) (size va : Nat)
  /-- STS.PRODUCE. -/
  | produce (lo : Loc) (size : Nat) (val : Word)
  /-- The slot write of APND. -/
  | append (val : Word)
  deriving DecidableEq, Repr

structure WordWait where
  word : Nat
  key : ThreadKey
  req : WordReq
  /-- The offset within the stack scratchpad, for R230. -/
  spadOff : Option Nat
  deriving DecidableEq, Repr

/-- An atomic, reduction or nibble store on its way to a stope engine or a far module. -/
structure MemMsg where
  key : ThreadKey
  view : View
  loc : Loc
  bytes : Nat
  op : MemOp
  a : BitVec 128
  b : BitVec 128
  entry : Option Nat
  va : Nat
  pc : Nat
  /-- The accesses of the thread below this number must be performed first (R236). -/
  upTo : Nat
  /-- The number of the step in which it came to the port. -/
  ord : Nat
  deriving DecidableEq, Repr

/-! ## References that engines carry -/

/-- A place named by an engine's work: a segment as the issuer's view sees it, and an offset. -/
structure Ref where
  seg : Seg
  off : Nat
  view : View
  deriving DecidableEq, Repr

/-- An engine arrival that a parking condition holds back (R138, R292). -/
structure Arrival where
  bar : Ref
  value : Option Nat
  fault : Bool
  killed : Bool
  /-- The requester of Table 13.7. -/
  kind : Nat
  /-- The owner of a job whose completion it is: a failure makes a record of its (R182). -/
  owner : Option ThreadKey
  deriving DecidableEq, Repr

/-- A copy (R139 to R141). -/
structure CopyJob where
  id : Nat
  key : ThreadKey
  src : Ref
  dst : Ref
  len : Nat
  pos : Nat
  feSet : Bool
  gather : Bool
  /-- The cluster whose copy hart makes it, or moves its next granule; from 384 on where that is one of a far module. -/
  hart : Nat
  /-- Its next granule met a parking condition, and its copy hart stalls (R141). -/
  stalled : Bool
  bar : Ref
  deriving DecidableEq, Repr

/-- A row operation (R204, R205). -/
structure RowJob where
  id : Nat
  key : ThreadKey
  /-- 0 ROWCPY, 1 ROWSET, 2 to 6 ROWOP. -/
  op : Nat
  rows : Nat
  pos : Nat
  dst : Ref
  srcs : List Nat
  pattern : Word
  bar : Ref
  deriving DecidableEq, Repr

/-- A thaw that awaits its arrival (R202). -/
structure ThawJob where
  id : Nat
  island : Nat
  pieces : List Nat
  /-- Refused: the byte offset of the first granule that does not allow it. -/
  refused : Option Nat
  /-- The pieces that reached 0, which are invalidated, and the number of granules that did. -/
  zeros : List Nat
  count : Nat
  /-- The barrier, or the host command that waits. -/
  bar : Option Ref
  conn : Option CmdHeader
  deriving DecidableEq, Repr

/-- Engine work for which a thread is parked (Table 11.8). -/
inductive EngineWork where
  /-- FRZ: the pieces whose copies are being recalled. -/
  | freeze (pieces : List Nat)
  /-- MWR %wpart: the new value, and how many steps of Table 9.5 have been carried out. -/
  | repartition (n step : Nat)
  /-- HSET: entry, region, first unit, and the pieces of its granules. -/
  | hset (entry : Nat) (region : Seg) (off : Nat) (grans : List Nat)
  | hclr (entry : Nat)
  /-- FCPL: field number, the new table, and the number of its handle. -/
  | fcpl (num : Nat) (table : Ref) (idx : Nat)
  deriving DecidableEq, Repr

structure EngineJob where
  id : Nat
  key : ThreadKey
  island : Nat
  /-- The host command that waits for it, instead of a thread. -/
  conn : Option CmdHeader
  work : EngineWork
  deriving DecidableEq, Repr

/-! ## The matrix engine (R165 to R188) -/

/-- Status of an ended job (Table 7.7). -/
inductive JobStatus where
  | ok | fault | killed | cancelled | broken | timeout | dead
  deriving DecidableEq, Repr

/-- Job states (Table 7.8), without "ended". -/
inductive JobState where
  | queued | running | waitChunk | suspended | preempted
  deriving DecidableEq, Repr

/-- What a ring job knows of its ring (R179). -/
structure RingInfo where
  gang : Nat
  nth : Nat
  pos : Nat
  len : Nat
  deriving DecidableEq, Repr

/-- A ring chunk (R180). -/
structure Chunk where
  nth : Nat
  gang : Nat
  chunk : Nat
  sender : Nat
  k : Nat
  n : Nat
  fa : Nat
  fb : Nat
  rsteps : Nat
  bytes : List Byte
  scales : List Nat
  deriving DecidableEq, Repr

/-- A job (R173 to R180). `refs` holds the places it uses by operand number (Table 7.9), its completion record as 6 and
its barrier as 7; `chunk` is the chunk of the ring step begun; `ts` the per-tensor scales, read when it begins. -/
structure Job where
  id : Nat
  key : ThreadKey
  view : View
  desc : BitVec 1024
  fmt : BitVec 13
  refs : List (Nat × Ref)
  base : Nat
  sparse : Bool
  ring : Option RingInfo
  state : JobState
  begun : Bool
  /-- Ring step, k-step within it, k-steps over the whole job. -/
  r : Nat
  kb : Nat
  t : Nat
  ts : Nat × Nat
  chunk : Option Chunk
  flags : Flags
  /-- The job has ended, or ends at this k-step boundary: its status (R182, R186). -/
  fin : Option JobStatus
  /-- %tinfo0 and %tinfo1 of the fault that suspended it, until it is told to the owner. -/
  fault : Option (Word × Word)
  deriving DecidableEq, Repr

/-- A drain (R185): its control word, the registers it reads at issue, and the rows written so far. -/
structure DrainJob where
  id : Nat
  tile : Nat
  key : ThreadKey
  dst : Ref
  ctl : Word
  rm : Rm
  fmt : BitVec 13
  srctr : BitVec 32
  srkey : BitVec 32
  row : Nat
  /-- It has begun writing. -/
  begun : Bool
  deriving DecidableEq, Repr

/-- What the matrix engine does in tile order. -/
inductive MatrixOp where
  | job (j : Job)
  | clear (id : Nat) (tile : Nat)
  | zero (id : Nat) (tile : Nat)
  | release (id : Nat) (tile : Nat)
  | load (id : Nat) (tile : Nat) (key : ThreadKey) (src : Ref) (bar : Ref) (pos : Nat)
  | drain (d : DrainJob)
  deriving DecidableEq, Repr

/-- A cluster's matrix engine (R165): the owners of its tiles as tile, shift and crew, and its work in tile order. -/
structure MatrixEng where
  cluster : Nat
  owners : List (Nat × Nat × Nat)
  ops : List MatrixOp
  jobSeq : Nat
  buffers : List Chunk
  /-- Chunks on the ring links towards this engine. -/
  inbound : List Chunk
  /-- Ring jobs accepted, per crew. -/
  ringSeq : List (Nat × Nat × Nat)
  lastCore : Nat
  retired : Bool
  evicted : Bool
  deriving DecidableEq, Repr

/-! ## Launch (R245 to R254) -/

/-- A shift: its packet and its progress (Table 11.1). -/
structure Shift where
  serial : Nat
  island : Nat
  entry : BitVec 52
  queue : Nat
  prio : Nat
  dbg : Bool
  htab : Nat
  ibxh : Nat
  threads : Nat
  logCap : Nat
  ncx : Nat
  ncy : Nat
  nstage : Nat
  spad : Nat
  cmem : Nat
  args : Word
  dep : Option Ref
  done : Option Ref
  fmt : BitVec 64
  scl : BitVec 64
  /-- Crews per gang; 1 without gangs. -/
  gangLen : Nat
  ready : Bool
  inboxDone : Bool
  /-- The next crew or gang to dispatch, in dispatch order. -/
  next : Nat
  gone : Bool
  live : Nat
  nterm : Nat
  killed : Bool
  term : Bool
  cause : Option Cause
  deriving DecidableEq, Repr

/-- A crew (R11). -/
structure Crew where
  serial : Nat
  n : Nat
  island : Nat
  cluster : Nat
  cmemBase : Nat
  cmemSize : Nat
  /-- Scratchpad ranges: core, base, size. -/
  spads : List (Nat × Nat × Nat)
  nthr : Nat
  /-- Threads waiting at BARC, with those counted as arrived for good. -/
  barc : List Nat
  gang : Option (Nat × Nat)
  retired : Bool
  deriving DecidableEq, Repr

/-- A gang (R13, R181): its tiles and the first failed member. -/
structure Gang where
  id : Nat
  cluster0 : Nat
  len : Nat
  failed : Option Nat
  deriving DecidableEq, Repr

/-- A queue of an island (R249, R250). -/
structure Queue where
  num : Nat
  shifts : List Nat
  eff : Nat
  passed : Bool
  urgent : Bool
  count : Nat
  /-- The threads parked for room, by time of parking, and those of them woken whose units have not been issued again. -/
  waiters : List ThreadKey
  woken : List ThreadKey
  deriving DecidableEq, Repr

/-! ## Calls (R191 to R198) -/

/-- Where a call stands. -/
inductive CallStage where
  /-- Its routing met a parking condition. -/
  | held
  /-- On its way to the engine. -/
  | sent
  /-- In the engine's call queue. -/
  | waiting
  /-- A context runs it. -/
  | running
  /-- Its reply is on the way back. -/
  | replying
  deriving DecidableEq, Repr

structure Call where
  id : Nat
  callId : Nat
  /-- The issuing core, and the location of the slot header. -/
  core : Nat
  slot : Loc
  crew : Nat × Nat
  island : Nat
  target : Seg
  off : Nat
  view : View
  /-- Where the target lies, once routed. -/
  loc : Loc
  entry : Nat
  /-- The handler found when the engine accepted the call: its region and first unit. -/
  region : Option (Seg × Nat)
  payload : List Word
  caller : Word
  rel : Bool
  far : Option Nat
  /-- The number of the far message that carries it (R311). -/
  num : Option Nat
  stage : CallStage
  /-- A call of this module's core is live until its reply or timeout. -/
  live : Bool
  reply : Option (BitVec 8 × Nat × List Word)
  deriving DecidableEq, Repr

/-- A handler table entry of an island: the region and the first unit (R191, R199). -/
structure HandlerEntry where
  entry : Nat
  region : Seg
  off : Nat
  /-- The pieces of the region's granules. -/
  grans : List Nat
  deriving DecidableEq, Repr

/-! ## Fields (R207 to R212, R262 to R281) -/

/-- Field states (Table 8.9); an undefined field is not listed. -/
inductive FieldState where
  | stopped | running | stopping | limit | faulted
  deriving DecidableEq, Repr

structure FieldLink where
  /-- Whole extents, the part's offset, and its mode and bound (R281). -/
  ext : List Nat
  offset : List Nat
  lockstep : Bool
  bound : Nat
  /-- The far-module table entry of the part beyond each face, low and high along each axis. -/
  faces : List (Option Nat)
  deriving DecidableEq, Repr

/-- A halo layer received from another module's part: face, sweep, phase, and the values. -/
structure Halo where
  face : Nat
  sweep : Nat
  phase : Nat
  vals : List Nat
  deriving DecidableEq, Repr

/-- A part of a halo layer, as one message brings it: the values from place `first` on (R308). -/
structure HaloPart where
  face : Nat
  sweep : Nat
  phase : Nat
  first : Nat
  vals : List Nat
  deriving DecidableEq, Repr

/-- A frozen table of a field, with the pieces of the granules on which the field holds a freeze (R208). -/
structure FieldTable where
  ref : Ref
  grans : List Nat
  deriving DecidableEq, Repr

structure Field where
  num : Nat
  island : Nat
  desc : BitVec 1024
  view : View
  /-- The bank groups that hold it (R262), the offsets of slab and twin within each, and their rows (R264). -/
  groups : List Nat
  slab : Nat
  twin : Nat
  rows : Nat
  cpl : FieldTable
  bias : Option FieldTable
  ptab : Option FieldTable
  beta : Option FieldTable
  cmap : Option FieldTable
  st : FieldState
  reason : Nat
  /-- NEXT, whether that sweep has begun, and its phase. -/
  next : Nat
  begun : Bool
  phase : Nat
  /-- Engines that have arrived at the phase barrier. -/
  arrived : List Nat
  /-- Engines in the middle of a phase of handler updates: the sites that each still owes. -/
  owed : List (Nat × List Nat)
  /-- FSNAPs that await the end of the sweep, and arrivals due: value, fault, barrier. -/
  snaps : List Ref
  due : List (Nat × Bool × Ref)
  /-- The coupling table to come, those it replaced, and the one before the swap (R212). -/
  pendingCpl : Option FieldTable
  replaced : List FieldTable
  oldCpl : Option FieldTable
  link : Option FieldLink
  halos : List Halo
  /-- Parts of layers that have not come whole. -/
  parts : List HaloPart
  deriving DecidableEq, Repr

/-! ## Islands, straits, fabric, hosts (R302 to R314) -/

/-- A far-module table entry (R309). -/
structure FarEntry where
  idx : Nat
  module : Nat
  island : Nat
  conn : Nat
  port : Nat
  deriving DecidableEq, Repr

structure Island where
  num : Nat
  tenant : Nat
  shape : Shape
  root : Nat
  /-- %wpart, and the ways that the island's cores hold for their SCRATCHBOUND check (R228, R229). -/
  wpart : Nat
  zWays : Nat
  tables : List Nat
  queues : List Queue
  handlers : List HandlerEntry
  far : List FarEntry
  deriving DecidableEq, Repr

/-- What the caches of the module hold of a frozen far line (R200, R221): island, far-module entry, line of the far
address, valid mask and bytes. -/
structure FarLine where
  island : Nat
  fmod : Nat
  line : Nat
  valid : BitVec 128
  data : BitVec 1024
  deriving DecidableEq, Repr

/-- A strait table entry (Table 14.1) with its regulator's credit in bytes (R306). -/
structure Strait where
  reader : Nat
  owner : Nat
  base : Nat
  ngran : Nat
  rate : Nat
  burst : Nat
  credit : Nat
  deriving DecidableEq, Repr

/-- A frame ownership entry (Table 13.3). -/
structure Frame where
  frame : Nat
  owner : Nat
  state : Nat
  pin : Bool
  deriving DecidableEq, Repr

/-- A cached translation (R288): a cluster's, or a stack's last level. -/
structure TlbEntry where
  /-- Some cluster, or none for the last level. -/
  cluster : Option Nat
  stack : Nat
  island : Nat
  page : Nat
  logSize : Nat
  entry : Word
  deriving DecidableEq, Repr

/-- A service fault record (Table 13.7). -/
structure ServiceFault where
  va : Nat
  level : Nat
  entry : Nat
  tenant : Nat
  island : Nat
  kind : Nat
  requester : View
  deriving DecidableEq, Repr

/-- A reply to a host command (Table 14.4). -/
structure Reply where
  conn : Nat
  op : Nat
  status : Nat
  seq : Nat
  island : Nat
  tag : Word
  body : List Byte
  deriving DecidableEq, Repr

/-- A command connection (R312, R313): authorised islands, the next sequence number, the last 256 replies. -/
structure Conn where
  id : Nat
  islands : List Nat
  expect : Nat
  replies : List Reply
  /-- A command that has not completed holds back its connection. -/
  busy : Bool
  /-- The port that it uses. -/
  port : Nat
  deriving DecidableEq, Repr

/-- A WAIT command that awaits its barrier (Table 14.5). -/
structure HostWait where
  conn : Nat
  seq : Nat
  island : Nat
  tag : Word
  bar : Loc
  deriving DecidableEq, Repr

/-- A GET that has read a part of its range (R314): the bytes so far. -/
structure HostGet where
  conn : Nat
  seq : Nat
  body : List Byte
  deriving DecidableEq, Repr

/-- A host packet that awaits room in its queue (R249). -/
structure HostLaunch where
  conn : Nat
  seq : Nat
  tag : Word
  serial : Nat
  deriving DecidableEq, Repr

/-! ## Device (R353 to R361) -/

/-- An image slot: the image and its write sequence number (R354). -/
structure Slot where
  image : Option Image
  seq : Nat
  deriving DecidableEq, Repr

/-- Where a stack's boot stands (Table 21.1). -/
inductive Boot where
  | off
  | fetching (left : Nat) (slot : Bool)
  | running (slot : Bool)
  | recovery
  deriving DecidableEq, Repr

/-- What the resident service is told, beside service faults (R249, R353, R357, R359): a dependence read that failed, a
stack left in recovery state, a shutdown at the next boot, a word found uncorrectable. -/
inductive SvcReport where
  | dependence (serial : Nat) (c : Cause)
  | recovery (stack : Nat)
  | shutdown (stack : Nat)
  | poisoned (loc : Loc)
  deriving DecidableEq, Repr

/-- A firmware image that a LOADIMG is writing (R354), and the stacks whose slots hold it. -/
structure ImageLoad where
  conn : Nat
  seq : Nat
  img : Image
  written : List Nat
  deriving DecidableEq, Repr

/-- What the outside world brings to the next MODULE_RESET: after how many rounds each stack leaves reset (R356), the
identifier that the resident service gives the module (R309), and how the firmware sets up the ports (R308). -/
structure ResetPlan where
  delays : List Nat
  id : BitVec 32
  ports : List Port
  deriving DecidableEq, Repr

/-- What a stack holds for itself. -/
structure StackSt where
  clk : BitVec 64
  /-- How many rounds the stack still spends in reset (R356), and the part of a cycle that has passed, in units of 1/1800
  of one (R358). -/
  delay : Nat
  acc : Nat
  boot : Boot
  slotA : Slot
  slotB : Slot
  image : Option Image
  /-- Clock in MHz (Table 21.2). -/
  mhz : Nat
  coolTicks : Nat
  stopped : Bool
  /-- Seams whose refresh rate is doubled. -/
  hot : List Nat
  deriving DecidableEq, Repr

/-- A far message sent and not answered (R310, R311). -/
structure FarMsg where
  core : Nat
  num : Nat
  key : ThreadKey
  entry : Option Nat
  va : Nat
  pc : Nat
  logSize : Nat
  /-- The copy whose far side the message is. -/
  copy : Option Nat
  /-- A load: island and far-module entry, and the address and size of each of its parts, lowest first; the size in bits
  from which the result is sign-extended, or 0. -/
  island : Nat
  fmod : Nat
  parts : List (Nat × Nat)
  sx : Nat
  /-- The accesses of the thread below this number come first: all of them for an atomic or a reduction (R236), the
  acquiring ones for a load (R239). -/
  upTo : Nat
  deriving DecidableEq, Repr

/-- A move: an event of the opcode table, or the turn of a core or a handler's context. -/
inductive Move where
  | event (i : Instr)
  | core (c : Nat)
  | handler (k : ThreadKey)
  deriving DecidableEq, Repr

/-! ## The whole state -/

/-- The state of the module. `thr` is the thread whose unit is at issue, `others` every other thread. -/
structure State where
  thr : Thread
  others : List Thread
  -- memories
  mem : Memory
  empty : List Nat
  poison : List Nat
  freeze : List (Nat × Nat)
  -- caches
  cores : List CoreSt
  homeDirty : List Nat
  replicas : List (Nat × Nat)
  records : List (Nat × List Nat)
  scPoints : List (Nat × Nat)
  tlb : List TlbEntry
  frames : List Frame
  -- waiting and pending work
  waits : List WordWait
  msgs : List MemMsg
  faults : List StoreFault
  held : List HeldStore
  loads : List HeldLoad
  wakes : List ThreadKey
  /-- Threads parked on a page, by time of parking: thread, island, page. -/
  pageReqs : List (ThreadKey × Nat × Nat)
  svcFaults : List ServiceFault
  arrivals : List Arrival
  copies : List CopyJob
  rowJobs : List RowJob
  thaws : List ThawJob
  engJobs : List EngineJob
  matrix : List MatrixEng
  calls : List Call
  deadEngines : List Nat
  fields : List Field
  -- launch
  shifts : List Shift
  crews : List Crew
  gangs : List Gang
  -- islands, fabric, hosts
  islands : List Island
  straits : List Strait
  farOut : List FarMsg
  farSeen : List (Nat × Nat × Nat)
  farFetch : List (Nat × List Nat)
  farLines : List FarLine
  linksDown : List Nat
  dropped : Nat
  conns : List Conn
  hostWaits : List HostWait
  hostLaunches : List HostLaunch
  hostGets : List HostGet
  outbox : List Reply
  moduleId : BitVec 32
  ports : List Port
  -- device
  dies : Vector StackSt 4
  wear : List Wear
  retiredUnits : List (Nat × Nat × Nat)
  /-- The clusters whose tiles retirement has withdrawn (R361). -/
  withdrawn : List Nat
  svcReports : List SvcReport
  imageLoad : Option ImageLoad
  /-- The stack whose temperature shut the module down, until the next boot (R357). -/
  tripped : Option Nat
  off : Bool
  -- counters
  nextSerial : Nat
  nextId : Nat
  /-- The model's own: the number of the next free value (`Config`), and the number of the step, by which the choice
  between a cached translation and a walk is drawn. -/
  free : Nat
  draw : Nat
  /-- The model's own: the moves that come next, and whose turn it is when none is listed. -/
  agenda : List Move
  turn : Nat
  /-- The model's own: an input, as the moves to come are. -/
  resetPlan : ResetPlan
  deriving DecidableEq, Repr

/-! ## Reset -/

/-- A thread slot's registers with nothing dispatched: every register 0, nothing pending, retired. -/
def Thread.blank (k : ThreadKey) : Thread where
  key := k
  role := .crew
  view := ⟨0, 0, 0, 0, 0, 0, 0, 0⟩
  status := .retired
  wait := .none
  grant := none
  grantTrap := none
  pc := 0
  g := Vector.replicate 64 0
  v := Vector.replicate 32 0
  p := Vector.replicate 8 0
  segs := Vector.replicate 8 Seg.empty
  nthr := 1
  cx := 0
  cy := 0
  stage := 0
  ncx := 1
  ncy := 1
  nstage := 1
  queue := 0
  prio := 0
  args := 0
  fmt := Vector.replicate 4 0
  scl := Vector.replicate 4 0
  flags := 0
  srkey := 0
  srctr := 0
  tvec := 0
  tpc := 0
  tcause := 0
  tinfo0 := 0
  tinfo1 := 0
  rcto := 0x0010_0000
  inbox := 0
  htab := 0
  hstate := false
  pending := []
  pendSeq := 0
  replay := none
  replaying := none
  relFence := false
  pairNow := false
  unitEnd := .done
  mfaults := []
  mretry := []
  spilling := false
  yielded := false
  freed := 0
  woken := false
  dbg := false
  budget := 0
  area := 0
  ended := none
  last := 0

/-- A stack at reset: its clock count at 0, not booted, both image slots unwritten, at 1.8 GHz. -/
def StackSt.reset : StackSt where
  clk := 0
  delay := 0
  acc := 0
  boot := .off
  slotA := ⟨none, 0⟩
  slotB := ⟨none, 0⟩
  image := none
  mhz := 1800
  coolTicks := 0
  stopped := false
  hot := []

/-- The module right after reset: no thread, no island, nothing cached, every word full, every frame free, eight ports of
800 Gb/s. -/
def State.reset : State where
  thr := Thread.blank (.crew 0 0 0)
  others := []
  mem := []
  empty := []
  poison := []
  freeze := []
  cores := []
  homeDirty := []
  replicas := []
  records := []
  scPoints := []
  tlb := []
  frames := []
  waits := []
  msgs := []
  faults := []
  held := []
  loads := []
  wakes := []
  pageReqs := []
  svcFaults := []
  arrivals := []
  copies := []
  rowJobs := []
  thaws := []
  engJobs := []
  matrix := []
  calls := []
  deadEngines := []
  fields := []
  shifts := []
  crews := []
  gangs := []
  islands := []
  straits := []
  farOut := []
  farSeen := []
  farFetch := []
  farLines := []
  linksDown := []
  dropped := 0
  conns := []
  hostWaits := []
  hostLaunches := []
  hostGets := []
  outbox := []
  moduleId := 0
  ports := List.replicate 8 ⟨false, [0], [0], [0]⟩
  dies := Vector.replicate 4 StackSt.reset
  wear := []
  retiredUnits := []
  withdrawn := []
  svcReports := []
  imageLoad := none
  tripped := none
  off := false
  nextSerial := 1
  nextId := 1
  free := 0
  draw := 0
  agenda := []
  turn := 0
  resetPlan := ⟨[], 0, List.replicate 8 ⟨false, [0], [0], [0]⟩⟩

end Sys2Proof.Machine
end

