-- ==== Sys2Proof/Machine/Mem.lean ====
section
/-! DEFINITION. Memory as bytes (spec/00, R1; spec/09, R215 to R228): reading and writing cells in the canonical
form, the full/empty and poison marks, the layout of locations, and the geometry of an island. -/

namespace Sys2Proof.Machine

open Sys2Proof

/-! ## Cells -/

/-- What an unlisted byte reads as. -/
def emptyByte : Byte := 0

/-- The byte at a location. -/
def memGet : Memory → Loc → Byte
  | [], _ => emptyByte
  | c :: m, x => if c.1 = x then c.2 else memGet m x

/-- One byte written; the canonical form is kept. -/
def memSet : Memory → Loc → Byte → Memory
  | [], x, b => if b = emptyByte then [] else [(x, b)]
  | c :: m, x, b =>
    if x < c.1 then (if b = emptyByte then c :: m else (x, b) :: c :: m)
    else if x = c.1 then (if b = emptyByte then m else (x, b) :: m)
    else c :: memSet m x b

/-- `n` bytes from a location upward, little-endian (R1). -/
def memRead (m : Memory) : Loc → Nat → Nat
  | _, 0 => 0
  | x, n + 1 => (memGet m x).toNat + 256 * memRead m (x + 1) n

/-- `n` bytes written from a location upward, little-endian. -/
def memWrite (m : Memory) : Loc → Nat → Nat → Memory
  | _, 0, _ => m
  | x, n + 1, v => memWrite (memSet m x (BitVec.ofNat 8 v)) (x + 1) n (v / 256)

/-- Of `n` bytes, those whose mask bit is 1 are written. -/
def memWriteMask (m : Memory) : Loc → Nat → Nat → Nat → Memory
  | _, 0, _, _ => m
  | x, n + 1, mask, v =>
    memWriteMask (if mask % 2 = 1 then memSet m x (BitVec.ofNat 8 v) else m) (x + 1) n (mask / 2) (v / 256)

/-- A list of bytes written from a location upward. -/
def memWriteList (m : Memory) : Loc → List Byte → Memory
  | _, [] => m
  | x, b :: bs => memWriteList (memSet m x b) (x + 1) bs

/-- `n` bytes as a list. -/
def memList (m : Memory) : Loc → Nat → List Byte
  | _, 0 => []
  | x, n + 1 => memGet m x :: memList m (x + 1) n

/-- A range set to zero. -/
def memClear (m : Memory) (lo n : Nat) : Memory := m.filter (fun c => c.1 < lo || lo + n ≤ c.1)

/-! ## Rising sets of words -/

/-- A number put into a rising set. -/
def setAdd : List Nat → Nat → List Nat
  | [], x => [x]
  | a :: l, x => if x < a then x :: a :: l else if x = a then a :: l else a :: setAdd l x

/-- A number taken out of a set. -/
def setDel (l : List Nat) (x : Nat) : List Nat := l.filter (fun a => a != x)

/-- The numbers of a range taken out. -/
def setClear (l : List Nat) (lo n : Nat) : List Nat := l.filter (fun a => a < lo || lo + n ≤ a)

/-! ## Where locations lie (R215 to R228) -/

/-- The first location above DRAM. -/
def dramTop : Loc := 2 ^ 39

/-- A byte of a core's scratchpad. -/
def spadLoc (core off : Nat) : Loc := 2 ^ 40 + core * 2 ^ 17 + off % 2 ^ 17

/-- A byte of a slot's lane memory. -/
def laneLoc (core slot off : Nat) : Loc := 2 ^ 41 + (core * 8 + slot) * 2 ^ 13 + off % 2 ^ 13

/-- A byte of the stack-scratchpad ways of a slice. -/
def wayLoc (slice way byte : Nat) : Loc := 2 ^ 42 + slice * 2 ^ 22 + way * 2 ^ 18 + byte % 2 ^ 18

/-- A 32-bit word of an accumulator tile. -/
def tileLoc (cl tile word : Nat) : Loc := 2 ^ 43 + cl * 2 ^ 18 + tile * 2 ^ 14 + 4 * word

/-- Is the location DRAM. -/
def isDram (x : Loc) : Bool := x < dramTop

/-- The word of a byte. -/
def wordAt (x : Loc) : Nat := x / 8

/-- The 128-byte line of a byte. -/
def lineAt (x : Loc) : Nat := x / 128

/-- The 64 KiB granule, or frame, of a byte. -/
def granuleAt (x : Loc) : Nat := x / 65536

/-- The 4 KiB piece of a byte: a 64 KiB granule is sixteen of them, one after the other in the bank-linear window and in
sixteen places in the interleaved one (R225, R226). -/
def pieceAt (x : Loc) : Nat := x / 4096

/-- The bank group, and so the stope engine, of a DRAM byte. -/
def engineAt (x : Loc) : Nat := x / 2 ^ 26

/-- The cluster above a DRAM byte's shaft: 96 × stack + 12 y + x. -/
def clusterOver (x : Loc) : Nat := 96 * (x / 2 ^ 37) + x / 2 ^ 30 % 128

/-- A core's number in the module. -/
def coreIndex (v : View) : Nat := 4 * v.cluster + v.core

/-- The stack of a cluster. -/
def stackOf (cl : Nat) : Nat := cl / 96

/-- %tile of a cluster: bits 3:0 x, bits 6:4 y. -/
def tileCode (cl : Nat) : Nat := cl % 96 % 12 + 16 * (cl % 96 / 12)

/-- The scratchpad byte of a cluster-memory offset (R217). -/
def clusterLoc (cl off : Nat) : Loc :=
  spadLoc (4 * cl + off / 256 % 4) (off / 1024 * 256 + off % 256)

/-! ## Islands (R226, R302) -/

/-- The columns x to x + w − 1 of a row. -/
def rowTiles (stack y x : Nat) : Nat → List Nat
  | 0 => []
  | w + 1 => (96 * stack + 12 * y + x) :: rowTiles stack y (x + 1) w

/-- The rows y to y + h − 1 of a rectangle. -/
def rectTiles (stack x w y : Nat) : Nat → List Nat
  | 0 => []
  | h + 1 => rowTiles stack y x w ++ rectTiles stack x w (y + 1) h

/-- The clusters of an island in the order stack, y, x, whatever the order in which its stacks are named: also its shafts
k = 0, 1, … (R226). -/
def Shape.tiles : Shape → List Nat
  | .rect st x y w h => rectTiles st x w y h
  | .whole ss => ((List.range 4).filter ss.contains).flatMap (fun st => rectTiles st 0 12 0 8)

/-- The width of an island's rectangle of tiles. -/
def Shape.width : Shape → Nat
  | .rect _ _ _ w _ => w
  | .whole _ => 12

/-- The number of shafts S. -/
def Island.shafts (i : Island) : Nat := (Shape.tiles i.shape).length

/-- Shaft number k of an island. -/
def Island.shaft (i : Island) (k : Nat) : Nat := (Shape.tiles i.shape).getD k 0

/-- The island memory's size in bytes. -/
def Island.memSize (i : Island) : Nat := i.shafts * 2 ^ 30

/-- The bank-linear location of byte 0 of a shaft. -/
def shaftBase (cl : Nat) : Loc := stackOf cl * 2 ^ 37 + cl % 96 * 2 ^ 30

/-- The location of island memory offset P (R226). -/
def Island.place (i : Island) (p : Nat) : Loc :=
  let s := i.shafts
  let q := p / 4096 / s
  let r := p / 4096 % s
  let h := (q ^^^ (q / 128) ^^^ (q / 16384)) % 128
  let k := (r + h) % s
  let u := q / 64
  shaftBase (i.shaft k) + q % 16 * 2 ^ 26 + q / 16 % 4 * 2 ^ 24 + u / 128 * 2 ^ 19 +
    (u % 128 * 4 + p / 1024 % 4) * 2 ^ 10 + p % 1024

/-- Z for n ways (R228). -/
def Island.zOf (i : Island) (n : Nat) : Nat := i.shafts * n * 2 ^ 18

/-- The byte of stack-scratchpad offset o (R228). -/
def Island.spadPlace (i : Island) (o : Nat) : Loc :=
  let g := o / 4096
  let w := g / i.shafts * 4096 + o % 4096
  wayLoc (i.shaft (g % i.shafts)) (15 - w / 2 ^ 18) (w % 2 ^ 18)

/-- An island by its number. -/
def State.island? (s : State) (n : Nat) : Option Island := s.islands.find? (fun i => i.num == n)

/-- One island changed. -/
def State.modIsland (s : State) (n : Nat) (f : Island → Island) : State :=
  { s with islands := s.islands.map (fun i => if i.num == n then f i else i) }

/-! ## Cores -/

/-- A core with nothing in its caches. -/
def CoreSt.fresh (id : Nat) : CoreSt := ⟨id, [], [], [], 1, 1, .ok⟩

/-- What a core holds. -/
def State.core (s : State) (id : Nat) : CoreSt := (s.cores.find? (fun c => c.id == id)).getD (CoreSt.fresh id)

/-- What a core holds, set. -/
def State.setCore (s : State) (c : CoreSt) : State :=
  { s with cores := if s.cores.any (fun d => d.id == c.id) then s.cores.map (fun d => if d.id == c.id then c else d)
                    else s.cores ++ [c] }

/-- What a core holds, changed. -/
def State.modCore (s : State) (id : Nat) (f : CoreSt → CoreSt) : State := s.setCore (f (s.core id))

/-! ## Marks on words -/

/-- Is a word full (R223). -/
def State.isFull (s : State) (w : Nat) : Bool := !s.empty.contains w

/-- A word's bit set full or empty. -/
def State.setFull (s : State) (w : Nat) (full : Bool) : State :=
  { s with empty := if full then setDel s.empty w else setAdd s.empty w }

/-- Does a range of bytes touch a poisoned word (R301). -/
def State.poisoned (s : State) (x n : Nat) : Bool :=
  n != 0 && s.poison.any (fun w => wordAt x ≤ w && w ≤ wordAt (x + n - 1))

/-- The words that a write covers wholly lose their poison mark (R301). -/
def State.unpoison (s : State) (x n : Nat) : State :=
  { s with poison := s.poison.filter (fun w => !(x ≤ 8 * w && 8 * w + 8 ≤ x + n)) }

/-- The health of the core whose scratchpad holds a location, or of the slice whose ways do; every other memory is well. A
retired slice has given up its ways (R361): DESIGN CHOICE (log 124): its part of the stack scratchpad is then as the
scratchpad of a retired core is (R300). -/
def State.padHealth (s : State) (x : Loc) : Health :=
  if spadLoc 0 0 ≤ x ∧ x < laneLoc 0 0 0 then (s.core ((x - spadLoc 0 0) / 2 ^ 17)).health
  else if wayLoc 0 0 0 ≤ x ∧ x < tileLoc 0 0 0 then
    let cl := (x - wayLoc 0 0 0) / 2 ^ 22
    if s.retiredUnits.contains (2, stackOf cl, tileCode cl) then .retired else .ok
  else .ok

/-- Bytes written at their place; a store to a retired core's scratchpad, or to a retired slice's ways, is discarded (R300,
R361). -/
def State.poke (s : State) (x n v : Nat) : State :=
  if s.padHealth x = .retired then s else { s.unpoison x n with mem := memWrite s.mem x n v }

/-- Bytes read at their place. -/
def State.peek (s : State) (x n : Nat) : Nat := memRead s.mem x n

/-! ## Freeze counts (R200, R202)

They are kept by pieces, so that a granule frozen through one window is frozen through the other. -/

/-- The freeze count of a piece. -/
def State.freezeCount (s : State) (gr : Nat) : Nat := ((s.freeze.find? (fun p => p.1 == gr)).map (·.2)).getD 0

/-- A freeze count set; a count of 0 is not listed. -/
def State.setFreeze (s : State) (gr n : Nat) : State :=
  let rest := s.freeze.filter (fun p => p.1 != gr)
  { s with freeze := if n = 0 then rest else (gr, n) :: rest }

/-- Does a THAW of the piece await its arrival. The range of a THAW that was refused does not count as frozen meanwhile
(DESIGN CHOICE, log 96: R202 refuses it without a change of any count). -/
def State.thawing (s : State) (gr : Nat) : Bool := s.thaws.any (fun t => t.refused.isNone && t.pieces.contains gr)

/-- A byte's piece counts as frozen while its count is nonzero or its THAW has not arrived (R200, R202). -/
def State.isFrozen (s : State) (x : Loc) : Bool := s.freezeCount (pieceAt x) != 0 || s.thawing (pieceAt x)

end Sys2Proof.Machine
end

