-- ==== Sys2Proof/Machine/Threads.lean ====
section
/-! DEFINITION. Threads: the registers with their hard-wired members (spec/01, R17, R18), looking threads up,
waking (spec/11, R256), the pending entries of the delayed-write window (R32), and the machine registers
(Table 1.4). -/

namespace Sys2Proof.Machine

open Sys2Proof

/-! ## Registers -/

/-- g[i]: g0 reads 0 (Table 1.3). -/
def Thread.rg (t : Thread) (i : BitVec 6) : Word := if i = 0 then 0 else t.g[i.toNat]

/-- g[i] written: a write to g0 is discarded. -/
def Thread.wg (t : Thread) (i : BitVec 6) (x : Word) : Thread :=
  if i = 0 then t else { t with g := t.g.set i.toNat x }

/-- v[i]. -/
def Thread.rv (t : Thread) (i : BitVec 5) : VWord := t.v[i.toNat]

/-- v[i] written. -/
def Thread.wv (t : Thread) (i : BitVec 5) (x : VWord) : Thread := { t with v := t.v.set i.toNat x }

/-- p[i]: p0 reads 0xFFFF. -/
def Thread.rp (t : Thread) (i : BitVec 3) : Pred := if i = 0 then 0xFFFF else t.p[i.toNat]

/-- p[i] written: a write to p0 is discarded. -/
def Thread.wp (t : Thread) (i : BitVec 3) (x : Pred) : Thread :=
  if i = 0 then t else { t with p := t.p.set i.toNat x }

/-- Segment register s[i]. -/
def Thread.seg (t : Thread) (i : BitVec 3) : Seg := t.segs[i.toNat]

/-- Segment register s[i] written. -/
def Thread.wseg (t : Thread) (i : BitVec 3) (x : Seg) : Thread := { t with segs := t.segs.set i.toNat x }

/-- Sticky flags set (R63). -/
def Thread.raise (t : Thread) (f : Flags) : Thread := { t with flags := t.flags ||| f }

/-- The address of the unit at issue: of the replayed word in a replay (R36). -/
def Thread.unitPc (t : Thread) : BitVec 52 :=
  match t.replaying with
  | some r => r.pc
  | none => t.pc

/-- Xn, where the next unit begins (R39, R80); a replay is followed by the unit at the pc. -/
def Thread.nextPc (t : Thread) : BitVec 52 :=
  match t.replaying with
  | some _ => t.pc
  | none => t.pc + (if t.pairNow then 8 else 4)

/-- The lookahead in force: a replay's window replaces the word's (R36). -/
def Thread.lookahead (t : Thread) (la : BitVec 4) : Nat :=
  match t.replaying with
  | some r => r.left
  | none => la.toNat

/-- The unit is complete, and control goes on at `pc`. -/
def Thread.goto (t : Thread) (pc : BitVec 52) : Thread := { t with pc := pc, unitEnd := .done, grant := none }

/-- The unit is complete, and control falls through. -/
def Thread.advance (t : Thread) : Thread := t.goto t.nextPc

/-- The unit is not issued in this turn. -/
def Thread.hold (t : Thread) : Thread := { t with unitEnd := .held }

/-! ## The thread at issue, within the state -/

/-- The thread at issue changed. -/
def State.onThr (s : State) (f : Thread → Thread) : State := { s with thr := f s.thr }

/-- g[i] of the thread at issue. -/
def State.rg (s : State) (i : BitVec 6) : Word := s.thr.rg i

/-- g[d] := x, and the unit is complete. -/
def State.finishG (s : State) (d : BitVec 6) (x : Word) : State := s.onThr (fun t => (t.wg d x).advance)

/-- The unit is complete with no register written. -/
def State.finish (s : State) : State := s.onThr Thread.advance

/-- The unit waits for a later turn: Stalled (Table 1.2). -/
def State.stall (s : State) : State := s.onThr (fun t => { t.hold with status := .stalled })

/-- The unit is not issued and the thread parks (R256). -/
def State.park (s : State) (w : Wait) : State := s.onThr (fun t => { t.hold with status := .parked, wait := w })

/-! ## Looking threads up -/

/-- Every thread. -/
def State.threads (s : State) : List Thread := s.thr :: s.others

/-- A thread by its name. -/
def State.thread? (s : State) (k : ThreadKey) : Option Thread := s.threads.find? (fun t => t.key == k)

/-- Every thread changed. -/
def State.mapThreads (s : State) (f : Thread → Thread) : State :=
  { s with thr := f s.thr, others := s.others.map f }

/-- One thread changed. -/
def State.modThread (s : State) (k : ThreadKey) (f : Thread → Thread) : State :=
  s.mapThreads (fun t => if t.key == k then f t else t)

/-- The thread named comes to issue; the one at issue goes to the others in its place. -/
def State.focus (s : State) (k : ThreadKey) : State :=
  if s.thr.key == k then s
  else match s.others.find? (fun t => t.key == k) with
    | none => s
    | some t => { s with thr := t, others := s.others.map (fun u => if u.key == k then s.thr else u) }

/-- Has the thread not ended. -/
def Thread.live (t : Thread) : Bool := t.status != .retired

/-- A wake message is sent (R256); WAKE delivers it. -/
def State.wake (s : State) (k : ThreadKey) : State :=
  if s.wakes.contains k then s else { s with wakes := s.wakes ++ [k] }

/-- A wake with the result of the wait. -/
def State.wakeWith (s : State) (k : ThreadKey) (x : Word) : State :=
  (s.modThread k (fun t => { t with grant := some x })).wake k

/-- The unit that the thread issues next: a replay's word, or the unit at the pc. -/
def Thread.duePc (t : Thread) : BitVec 52 := (t.replay.map (·.pc)).getD t.pc

/-- A wake with a trap of the unit that waited. -/
def State.wakeTrap (s : State) (k : ThreadKey) (c : Cause) (i0 i1 : Word) : State :=
  (s.modThread k (fun t => { t with grantTrap := some ⟨c, i0, i1, t.duePc, t.hstate⟩ })).wake k

/-- A wake reaches its thread: Ready, or WOKEN in the save area (R256). -/
def Thread.wakeUp (t : Thread) : Thread :=
  match t.status with
  | .parked => { t with status := .ready, wait := .none }
  | .spilled => { t with woken := t.woken || t.wait != .none || t.replay.isSome }
  | _ => t

/-- Is the thread of a crew. -/
def Thread.inCrew (t : Thread) (serial n : Nat) : Bool :=
  match t.key with
  | .crew a b _ => a == serial && b == n
  | .handler _ => false

/-- %tid. -/
def Thread.tid (t : Thread) : Nat :=
  match t.key with
  | .crew _ _ i => i
  | .handler _ => 0

/-- The shift and crew of a thread. -/
def Thread.crewId (t : Thread) : Nat × Nat :=
  match t.key with
  | .crew a b _ => (a, b)
  | .handler _ => (0, 0)

/-- A thread's matrix engine, copy hart and TLB are its cluster's. -/
def Thread.isHandler (t : Thread) : Bool :=
  match t.role with
  | .crew => false
  | _ => true

/-! ## Pending entries (R32) -/

/-- All bits of a register. -/
def fullMask : VWord := BitVec.allOnes 512

/-- A pending entry lands: its destination takes the lanes the instruction writes, and its flags are raised. -/
def Thread.land (t : Thread) (e : Pend) : Thread :=
  let u := match e.dest with
    | .g d => t.wg d (e.value.truncate 64)
    | .v d => t.wv d ((t.rv d &&& ~~~e.mask) ||| (e.value &&& e.mask))
    | .p d => t.wp d (e.value.truncate 16)
  u.raise e.flags

/-- The number of the access that the unit at issue makes: a new one, or the one that its replay renews. -/
def Thread.accessNum (t : Thread) : Nat := (t.replaying.bind (·.access)).getD t.pendSeq

/-- A pending entry of an access. -/
def Thread.addEntry (t : Thread) (access : Nat) (acq : Bool) (d : Dest) (la : Nat) (w : PendWait) (value mask : VWord)
    (fl : Flags) : Thread :=
  { t with
    pending := t.pending ++ [⟨t.pendSeq, d, la, false, value, mask, fl, t.unitPc, w, t.hstate, access, acq⟩]
    pendSeq := t.pendSeq + 1 }

/-- A pending entry made by the unit at issue. -/
def Thread.addPend (t : Thread) (d : Dest) (la : Nat) (w : PendWait) (value mask : VWord) (fl : Flags) : Thread :=
  t.addEntry t.accessNum false d la w value mask fl

/-- One pending entry changed. -/
def Thread.modPend (t : Thread) (i : Nat) (f : Pend → Pend) : Thread :=
  { t with pending := t.pending.map (fun e => if e.seq == i then f e else e) }

/-- A g-register value as an entry holds it. -/
def gVal (x : Word) : VWord := x.zeroExtend 512

/-- Is the load, LDS or atomic of the entry still to be performed. A fault has ended it. -/
def Pend.isOpen (e : Pend) : Bool :=
  match e.wait with
  | .atomic | .listed | .far | .port | .park _ _ => true
  | .value | .fault _ _ _ => false

/-- Has the access of the entry met a parking condition, which has not parked the thread yet (R36). -/
def Pend.parked (e : Pend) : Bool :=
  match e.wait with
  | .park _ _ => true
  | .value | .atomic | .listed | .far | .port | .fault _ _ _ => false

/-- Is a load, LDS or atomic of the thread below number `n` still to be performed (R236); a replay that the hardware owes
is one. -/
def Thread.openBelow (t : Thread) (n : Nat) : Bool :=
  t.pending.any (fun e => e.isOpen && e.access < n) ||
    (match t.replay.bind (·.access) with
      | some a => a < n
      | none => false)

/-- Is any load, LDS or atomic of the thread still to be performed. -/
def Thread.loadsOpen (t : Thread) : Bool := t.openBelow t.pendSeq

/-- Is an acquiring access of the thread below number `n`, an LDS, still to be performed, or owed as a replay: every later
access is held at the port (R239). -/
def Thread.acquireBelow (t : Thread) (n : Nat) : Bool :=
  t.pending.any (fun e => e.acq && e.isOpen && e.access < n) ||
    (match t.replay with
      | some r => r.acq && (r.access.map (fun a => decide (a < n))).getD false
      | none => false)

/-- The counts of the window go down by one for the entries that existed before the unit (R32): those below
`upTo`, of the interrupted code or of the handler as `inHandler` says. -/
def Thread.countDown (t : Thread) (upTo : Nat) (inHandler : Bool) : Thread :=
  let dec (e : Pend) : Pend := if e.seq < upTo && e.ofHandler == inHandler then { e with left := e.left - 1 } else e
  { t with pending := t.pending.map dec }

/-! ## Machine registers (Table 1.4) -/

/-- %sfq: PEND in bits 4:0, CORE in bits 12:8 (R26). -/
def State.sfqReg (s : State) : Word :=
  let mine := (s.faults.filter (fun f => f.stage == .queued && f.key == s.thr.key)).length
  let core := (s.faults.filter (fun f => f.stage == .queued && f.core == coreIndex s.thr.view)).length
  BitVec.ofNat 64 (mine + 256 * core)

/-- %wpart: the island's value as of the last completed write (R25). -/
def State.wpartReg (s : State) : Word :=
  BitVec.ofNat 64 (((s.island? s.thr.view.island).map (·.wpart)).getD 0)

/-- Is a stack's issue stopped by its temperature (Table 21.2). -/
def State.stackStopped (s : State) (stack : Nat) : Bool := (s.dies.toList.getD stack StackSt.reset).stopped

/-- MRD: a machine register as 64 bits (R20, R93). -/
def State.readM (s : State) : MReg → Word
  | .tid => BitVec.ofNat 64 s.thr.tid
  | .nthr => BitVec.ofNat 64 s.thr.nthr
  | .cx => BitVec.ofNat 64 s.thr.cx
  | .cy => BitVec.ofNat 64 s.thr.cy
  | .stage => BitVec.ofNat 64 s.thr.stage
  | .ncx => BitVec.ofNat 64 s.thr.ncx
  | .ncy => BitVec.ofNat 64 s.thr.ncy
  | .nstage => BitVec.ofNat 64 s.thr.nstage
  | .core => BitVec.ofNat 64 (s.thr.view.core % 4)
  | .tile => BitVec.ofNat 64 (tileCode s.thr.view.cluster)
  | .stack => BitVec.ofNat 64 (stackOf s.thr.view.cluster)
  | .island => BitVec.ofNat 64 (s.thr.view.island % 65536)
  | .clk => (s.dies.toList.getD (stackOf s.thr.view.cluster) StackSt.reset).clk
  | .pkt => s.thr.queue.zeroExtend 64 ||| (s.thr.prio.zeroExtend 64 <<< 6) |||
      BitVec.ofNat 64 (s.thr.crewId.1 % 2 ^ 48 * 2 ^ 16)
  | .args => s.thr.args
  | .fmt0 => s.thr.fmt[0].zeroExtend 64
  | .fmt1 => s.thr.fmt[1].zeroExtend 64
  | .fmt2 => s.thr.fmt[2].zeroExtend 64
  | .fmt3 => s.thr.fmt[3].zeroExtend 64
  | .scl0 => s.thr.scl[0]
  | .scl1 => s.thr.scl[1]
  | .scl2 => s.thr.scl[2]
  | .scl3 => s.thr.scl[3]
  | .flags => s.thr.flags.zeroExtend 64
  | .srkey => s.thr.srkey.zeroExtend 64
  | .srctr => s.thr.srctr.zeroExtend 64
  | .tvec => s.thr.tvec.zeroExtend 64
  | .tpc => s.thr.tpc
  | .tcause => s.thr.tcause.zeroExtend 64
  | .tinfo0 => s.thr.tinfo0
  | .tinfo1 => s.thr.tinfo1
  | .rcto => s.thr.rcto.zeroExtend 64
  | .inbox => s.thr.inbox
  | .wpart => s.wpartReg
  | .sfq => s.sfqReg

/-- The bits of %tpc that are not reserved: 63:60 LEFT, 59 RPL, 51:0 the address (R24). -/
def tpcMask : Word := 0xF80F_FFFF_FFFF_FFFF

/-- MWR to a register of the thread: bits outside its fields are ignored, and so is a write to an RO register
(R8, R94). %wpart is not the thread's own, and MWR treats it apart. -/
def Thread.writeM (t : Thread) (m : MReg) (x : Word) : Thread :=
  match m with
  | .flags => { t with flags := x.truncate 6 }
  | .srkey => { t with srkey := x.truncate 32 }
  | .srctr => { t with srctr := x.truncate 32 }
  | .tvec => { t with tvec := x.truncate 52 &&& 0xF_FFFF_FFFF_FFF8 }
  | .tpc => { t with tpc := x &&& tpcMask }
  | .tcause => { t with tcause := x.truncate 8 }
  | .tinfo0 => { t with tinfo0 := x }
  | .tinfo1 => { t with tinfo1 := x }
  | .rcto => { t with rcto := x.truncate 32 }
  | .tid | .nthr | .cx | .cy | .stage | .ncx | .ncy | .nstage | .core | .tile | .stack | .island | .clk | .pkt
  | .args | .fmt0 | .fmt1 | .fmt2 | .fmt3 | .scl0 | .scl1 | .scl2 | .scl3 | .inbox | .wpart | .sfq => t

/-! ## Vectors (R18, R143) -/

/-- Element `j` of `w` bits of a vector register. -/
def elem (x : VWord) (w j : Nat) : Nat := x.toNat / 2 ^ (w * j) % 2 ^ w

/-- Element `j` of `w` bits replaced. -/
def setElem (x : VWord) (w j v : Nat) : VWord :=
  (x &&& ~~~BitVec.ofNat 512 ((2 ^ w - 1) * 2 ^ (w * j))) ||| BitVec.ofNat 512 (v % 2 ^ w * 2 ^ (w * j))

/-- The predicate bit that governs element `j` of `w` bits: bit j for 32- and 64-bit elements, and for a packed
narrow element the bit of its 32-bit lane (R18). -/
def govBit (p : Pred) (w j : Nat) : Bool := p.getLsbD (if w < 32 then j * w / 32 else j)

/-- Elements 0 to n − 1 of a destination, each governed element given by `f`, the others kept. -/
def mapElems (p : Pred) (gw w : Nat) (f : Nat → Nat) (old : VWord) : Nat → VWord
  | 0 => old
  | n + 1 =>
    let x := mapElems p gw w f old n
    if govBit p gw n then setElem x w n (f n) else x

/-- The bits of the governed elements 0 to n − 1. -/
def elemMask (p : Pred) (gw w : Nat) : Nat → VWord
  | 0 => 0
  | n + 1 =>
    let x := elemMask p gw w n
    if govBit p gw n then setElem x w n (2 ^ w - 1) else x

/-- The union of the flags of the governed elements 0 to n − 1. -/
def elemFlags (p : Pred) (gw : Nat) (f : Nat → Flags) : Nat → Flags
  | 0 => 0
  | n + 1 => elemFlags p gw f n ||| (if govBit p gw n then f n else 0)

end Sys2Proof.Machine
end

