-- ==== Sys2Proof/Machine/Flags.lean ====
section
/-! DEFINITION. The flag and predicate results of operations (spec/03, R63; spec/04, R101, R110; spec/06, R151): which
sticky flags a result raises, and how a comparison writes a predicate. -/

namespace Sys2Proof.Machine

open Sys2Proof

/-- A value of `w` bits read as signed. -/
def signedOf (w x : Nat) : Int := if x % 2 ^ w < 2 ^ (w - 1) then (x % 2 ^ w : Nat) else (x % 2 ^ w : Nat) - (2 ^ w : Nat)

/-- An integer narrowed to `w` bits. -/
def narrow (w : Nat) (v : Int) : Nat := (v % (2 ^ w : Nat)).toNat

/-- An exact integer clamped to lo … hi, SAT where it was clamped (R63). -/
def clampSat (lo hi v : Int) : Int × Flags := if v < lo then (lo, flagSAT) else if v > hi then (hi, flagSAT) else (v, 0)

/-- The scalar outcome of a comparison: all bits of the predicate. -/
def predAll (b : Bool) : Pred := if b then 0xFFFF else 0

/-- The vector outcome of a comparison of n lanes: bit i takes lane i's outcome when the mask has bit i, and is kept
otherwise; for 8 lanes, bits 15:8 are cleared. -/
def predLanes (mask old : Pred) (f : Nat → Bool) : Nat → Pred
  | 0 => old
  | n + 1 =>
    let x := predLanes mask old f n
    if mask.getLsbD n then (if f n then x ||| (1#16 <<< n) else x &&& ~~~(1#16 <<< n)) else x

/-- The predicate that a vector comparison of `n` lanes writes. -/
def predOf (n : Nat) (mask old : Pred) (f : Nat → Bool) : Pred :=
  let x := predLanes mask old f n
  if n = 8 then x &&& 0x00FF else x

end Sys2Proof.Machine
end

