-- ==== Sys2Proof/Machine/Translate.lean ====
section
/-! DEFINITION. Translation, ownership and handles (spec/13, R283 to R292; spec/14, R305; spec/01, R22, R28, R29):
the walk of the page tables, the cached translations, the check of a frame, the location of an offset in each space,
and the reading of handle-table entries. -/

namespace Sys2Proof.Machine

open Sys2Proof

/-- The rights an access needs from the leaf (R287). -/
structure Need where
  r : Bool
  w : Bool
  x : Bool
  deriving DecidableEq, Repr

def needR : Need := ⟨true, false, false⟩
def needW : Need := ⟨false, true, false⟩
def needRW : Need := ⟨true, true, false⟩
def needX : Need := ⟨false, false, true⟩
def needNone : Need := ⟨false, false, false⟩

/-! ## Page tables -/

/-- The ownership entry of a frame; one never written is free and assigned (Table 13.3). -/
def State.frame (s : State) (fr : Nat) : Frame := (s.frames.find? (fun f => f.frame == fr)).getD ⟨fr, 0, 0, false⟩

/-- log2 of the page size of a leaf at a level (Table 13.1). -/
def pageBits (level : Nat) : Nat := 52 - 12 * level

/-- Is the address in the bank-linear window (Table 9.4). -/
def inBankWindow (va : Nat) : Bool := va / 2 ^ 39 == 0x1000

/-- An address that traps ADDRFORM: the reserved region, or a bank-linear shaft from 96 to 127 (R225, R283). -/
def badAddress (va : Nat) : Bool :=
  (va / 2 ^ 39 ≥ 0x1001) || (inBankWindow va && va / 2 ^ 30 % 128 ≥ 96)

/-- Is a page-table entry malformed (R286). -/
def malformed (e level va : Nat) : Bool :=
  let leaf := e / 16 % 2 == 1
  let addr := e / 2 ^ 16 % 2 ^ 36 * 2 ^ 16
  e / 64 % 2 ^ 10 != 0 || e / 2 ^ 52 != 0 || (!leaf && level == 3) ||
    (leaf && addr % 2 ^ pageBits level != 0) ||
    (!leaf && (addr / 2 ^ 39 != 0 || addr / 2 ^ 30 % 128 ≥ 96)) ||
    (leaf && inBankWindow va && level < 3)

/-- What a walk yields (R286). -/
inductive Walk where
  /-- A leaf entry, with log2 of its page size. -/
  | leaf (e logSize : Nat)
  /-- A parking condition: a page not present or migrating, a table frame scrubbing or migrating. -/
  | park
  /-- A malformed entry. -/
  | deny
  /-- A table frame not owned: the level and the entry's location (R299). -/
  | service (level entry : Nat)
  deriving DecidableEq, Repr

/-- The walk from the table at location `t`, `left` levels from the last. -/
def walkGo (s : State) (own va : Nat) : Nat → Nat → Walk
  | 0, _ => .deny
  | left + 1, t =>
    let level := 3 - left
    let idx := va / 2 ^ pageBits level % 4096
    let f := s.frame (granuleAt t)
    if f.owner ≠ own ∨ f.state = 3 then .service level (t + 8 * idx)
    else if f.state ≠ 0 then .park
    else
      let e := s.peek (t + 8 * idx) 8
      if e % 2 = 0 then .park
      else if e / 32 % 2 = 1 then .park
      else if malformed e level va then .deny
      else if e / 16 % 2 = 1 then .leaf e (pageBits level)
      else walkGo s own va left (e / 2 ^ 16 % 2 ^ 23 * 2 ^ 16)

/-- The walk of an address for an island. -/
def walk (s : State) (i : Island) (va : Nat) : Walk := walkGo s i.tenant va 3 i.root

/-- A cached translation that covers the address, of the cluster or of its stack's last level (R288). -/
def State.tlbLookup (s : State) (i : Island) (cl va : Nat) : Option TlbEntry :=
  s.tlb.find? (fun t => t.island == i.num && t.page == va / 2 ^ t.logSize &&
    (t.cluster == some cl || (t.cluster.isNone && t.stack == stackOf cl)))

/-- What a translation yields. -/
inductive XRes where
  | ok (loc : Loc)
  /-- A parking condition of Table 13.4. -/
  | park
  /-- Page rights or a malformed entry. -/
  | deny
  /-- The data frame is not owned. -/
  | owner
  /-- A table frame is not owned. -/
  | service (level entry : Nat)
  /-- Far memory: translated by the target module. -/
  | far
  /-- A stack-scratchpad offset at or above Z. -/
  | beyond
  deriving DecidableEq, Repr

/-- The location that a leaf gives an address, and whether the leaf grants what the access needs (R286, R287). -/
def useLeaf (i : Island) (va e logSize : Nat) (n : Need) : XRes :=
  if (n.r && e / 2 % 2 == 0) || (n.w && e / 4 % 2 == 0) || (n.x && e / 8 % 2 == 0) then .deny
  else if inBankWindow va then .ok (va % 2 ^ 39)
  else
    let p := e / 2 ^ 16 % 2 ^ 36 * 2 ^ 16 + va % 2 ^ logSize
    if p ≥ i.memSize then .deny else .ok (i.place p)

/-- Translation of an address for an access of a cluster: a cached translation where one is used, else a walk. The choice
is one for the accesses of a step to a page, so an access uses the old entry or the new one, whole (R289). -/
def translate (s : State) (i : Island) (cl va : Nat) (n : Need) : XRes :=
  match s.tlbLookup i cl va, Config.tlbHit s.draw (va / 65536) with
  | some t, true => useLeaf i va t.entry.toNat t.logSize n
  | _, _ =>
    match walk s i va with
    | .leaf e lg => useLeaf i va e lg n
    | .park => .park
    | .deny => .deny
    | .service l e => .service l e

/-- Does an open strait let the island read the location: a frozen granule of its range (R305). -/
def State.straitOpen (s : State) (i : Island) (owner : Nat) (x : Loc) : Bool :=
  s.isFrozen x && s.straits.any (fun st => st.reader == i.num && st.owner == owner &&
    st.base ≤ x && x < st.base + st.ngran * 65536)

/-- Does some strait that lets the island read the location let traffic through: a rate of 0 blocks all of it, and no fill
fits a depth of 0 (Table 14.1, R306). -/
def State.straitFlows (s : State) (i : Island) (owner : Nat) (x : Loc) : Bool :=
  s.straits.any (fun st => st.reader == i.num && st.owner == owner && st.base ≤ x && x < st.base + st.ngran * 65536 &&
    st.rate != 0 && st.burst != 0)

/-- The check of the frame of a DRAM byte (R291, R305); `load` for a plain load. A frame that is scrubbed or migrates parks
its owner and a strait reader alike; a strait that is blocked makes its reader wait. -/
def State.frameCheck (s : State) (i : Island) (x : Loc) (load : Bool) : XRes :=
  let f := s.frame (granuleAt x)
  if f.owner = i.tenant ∧ f.state ≠ 3 then
    if f.state = 0 then .ok x else .park
  else if load ∧ f.state ≠ 3 ∧ s.straitOpen i f.owner x then
    if f.state = 0 ∧ s.straitFlows i f.owner x then .ok x else .park
  else .owner

/-- The location of a virtual address, translated and with its frame checked. -/
def State.resolveVa (s : State) (i : Island) (cl va : Nat) (n : Need) (load : Bool) : XRes :=
  match translate s i cl va n with
  | .ok x => s.frameCheck i x load
  | r => r

/-! ## Spaces (Table 1.6) -/

def spLane : BitVec 4 := 1
def spCore : BitVec 4 := 2
def spCluster : BitVec 4 := 3
def spStack : BitVec 4 := 4
def spInter : BitVec 4 := 5
def spBank : BitVec 4 := 6
def spFar : BitVec 4 := 7
def spCode : BitVec 4 := 8

/-- Is the space translated DRAM: interleaved, bank-linear or code. -/
def Seg.isDram (g : Seg) : Bool := g.space == spInter || g.space == spBank || g.space == spCode

/-- Is the base a virtual address (R27). -/
def Seg.isVirtual (g : Seg) : Bool := 5 ≤ g.space.toNat && g.space.toNat ≤ 8

/-- A scratchpad byte: traffic to a failed core waits until the service core has acted (R300). -/
def State.padPlace (s : State) (x : Loc) : XRes := if s.padHealth x = .failed then .park else .ok x

/-- The location of an offset through a segment, as a view sees it. -/
def State.locate (s : State) (v : View) (g : Seg) (off : Nat) (n : Need) (load : Bool) : XRes :=
  let a := g.base.toNat + off
  match s.island? v.island with
  | none => .owner
  | some i =>
    if g.space = spLane then .ok (laneLoc (coreIndex v) v.slot a)
    else if g.space = spCore then s.padPlace (spadLoc (coreIndex v) (v.spadBase + a))
    else if g.space = spCluster then s.padPlace (clusterLoc v.cluster (v.cmemBase + a))
    else if g.space = spStack then
      (if a < i.zOf i.wpart then .ok (i.spadPlace a) else .beyond)
    else if g.space = spFar then .far
    else s.resolveVa i v.cluster a n load

/-- The location for an engine, which meets the size that the island's cores hold where that is smaller (R230). -/
def State.locateNow (s : State) (v : View) (g : Seg) (off : Nat) (n : Need) : XRes :=
  let z := ((s.island? v.island).map (fun i => i.zOf i.zWays)).getD 0
  if g.space = spStack ∧ z ≤ g.base.toNat + off then .beyond else s.locate v g off n false

/-- The size of a memory of spaces 1 to 4 as a thread sees it (R29). -/
def memSizeOf (s : State) (v : View) (space : BitVec 4) : Nat :=
  if space = spLane then 8192
  else if space = spCore then v.spadSize
  else if space = spCluster then v.cmemSize
  else ((s.island? v.island).map (fun i => i.zOf 12)).getD 0

/-! ## Handles (R22, R28, R29) -/

/-- The segment of a 32-byte handle entry (Table 1.8). -/
def segOfEntry (e : Nat) : Seg where
  base := BitVec.ofNat 52 e
  len := e / 2 ^ 64 % 2 ^ 53
  rights := BitVec.ofNat 8 (e / 2 ^ 128)
  space := BitVec.ofNat 4 (e / 2 ^ 136)
  policy := BitVec.ofNat 2 (e / 2 ^ 140)
  fmod := BitVec.ofNat 16 (e / 2 ^ 192)

/-- A segment as a 32-byte handle entry, valid. -/
def entryOfSeg (g : Seg) : Nat :=
  g.base.toNat + g.len * 2 ^ 64 + g.rights.toNat * 2 ^ 128 + g.space.toNat * 2 ^ 136 + g.policy.toNat * 2 ^ 140 +
    2 ^ 191 + g.fmod.toNat * 2 ^ 192

/-- What following a handle gives. -/
inductive HRes where
  | ok (g : Seg)
  /-- The read of the table met a parking condition at this address. -/
  | park (va : Nat)
  /-- A table frame of the walk is not owned (R299). -/
  | service (va level entry : Nat)
  | segRight
  | addrForm (a : Nat)
  deriving DecidableEq, Repr

/-- `n` bytes of a handle table at a virtual address: a DRAM read; a failure other than a park is none. -/
def tableRead (s : State) (v : View) (va n : Nat) : XRes × Nat :=
  match s.island? v.island with
  | none => (.owner, 0)
  | some i =>
    if badAddress va then (.deny, 0)
    else match s.resolveVa i v.cluster va needR true with
      | .ok x => if s.poisoned x n then (.deny, 0) else (.ok x, s.peek x n)
      | r => (r, 0)

/-- The header of a handle table: COUNT, ADM and LNC (Table 1.7); none without a table, and a table that cannot be read
counts no handle. A parking condition holds the read (R29). -/
def tableHeader (s : State) (v : View) (htab : Nat) : XRes × Nat :=
  if htab = 0 then (.ok 0, 0)
  else match tableRead s v htab 8 with
    | (.ok x, h) => (.ok x, h)
    | (.park, _) => (.park, 0)
    | (.service l e, _) => (.service l e, 0)
    | _ => (.ok 0, 0)

/-- A handle's segment under R29; `far` handles of an empty far-module entry are empty (R309). DESIGN CHOICE (log 87): the
address that Table 13.5 gives ADDRFORM is here the segment's end, BASE + LEN, which R29 names. -/
def readHandle (s : State) (v : View) (htab h : Nat) : HRes :=
  if htab = 0 ∨ h = 0 then .segRight
  else match tableRead s v htab 8 with
    | (.park, _) => .park htab
    | (.service l e, _) => .service htab l e
    | (.ok _, hd) =>
      if h > hd % 65536 then .segRight
      else match tableRead s v (htab + 32 * h) 32 with
        | (.park, _) => .park (htab + 32 * h)
        | (.service l e, _) => .service (htab + 32 * h) l e
        | (.ok _, e) =>
          let g := segOfEntry e
          if e / 2 ^ 191 % 2 = 0 ∨ g.space = 0 ∨ g.space.toNat > 8 then .segRight
          else if g.isVirtual then
            if g.base.toNat + g.len > 2 ^ 52 then .addrForm (g.base.toNat + g.len)
            else if g.space = spFar ∧
                !(((s.island? v.island).map (fun i => i.far.any (fun f => f.idx == g.fmod.toNat))).getD false) then
              .ok Seg.empty
            else .ok g
          else if g.base.toNat + g.len > memSizeOf s v g.space then .addrForm (g.base.toNat + g.len)
          else .ok g
        | _ => .segRight
    | _ => .segRight

/-- A handle-offset value followed (R22): whatever SEGLD would reject is SEGRIGHT. -/
def followHandle (s : State) (v : View) (htab : Nat) (x : Word) : HRes :=
  match readHandle s v htab (x.toNat % 65536) with
  | .addrForm _ => .segRight
  | r => r

/-- The offset of a handle-offset value. -/
def handleOff (x : Word) : Nat := x.toNat / 65536

/-- The handle number of a handle-offset value. -/
def handleNum (x : Word) : Nat := x.toNat % 65536

/-! ## Service faults (R299) -/

/-- A record for the resident service, unless one for the page is open: further walks merge with it (R299). -/
def State.serviceFault (s : State) (v : View) (kind va level entry : Nat) : State :=
  if s.svcFaults.any (fun f => f.va / 65536 == va / 65536 && f.island == v.island) then s
  else
    let ten := ((s.island? v.island).map (·.tenant)).getD 0
    { s with svcFaults := s.svcFaults ++ [⟨va, level, entry, ten, v.island, kind, v⟩] }

end Sys2Proof.Machine
end

