-- ==== Sys2Proof/Machine/Caches.lean ====
section
/-! DEFINITION. The caches and the ordering rules (spec/09, R218 to R221; spec/10, R233 to R243): L1 lines and
write-combining entries, write-backs, the records of a lazy release, acquire, the order points of FENCE.SC, and the
operations performed at a stope engine (spec/05, R128 to R131). -/

namespace Sys2Proof.Machine

open Sys2Proof

/-! ## Masks -/

/-- The mask of `n` bytes from byte `off` of a line. -/
def byteMask (off n : Nat) : BitVec 128 := BitVec.ofNat 128 ((2 ^ n - 1) * 2 ^ off)

/-- A byte mask of `n` bytes as a bit mask. -/
def spreadMask (m : Nat) : Nat → Nat
  | 0 => 0
  | n + 1 => spreadMask m n + (if m.testBit n then 255 * 256 ^ n else 0)

/-- The bytes of `new` that the mask names, over `old`. -/
def mergeLine (old new : BitVec 1024) (m : BitVec 128) : BitVec 1024 :=
  let k : BitVec 1024 := BitVec.ofNat 1024 (spreadMask m.toNat 128)
  (old &&& ~~~k) ||| (new &&& k)

/-- `n` bytes of a line from byte `off`. -/
def lineBytes (d : BitVec 1024) (off n : Nat) : Nat := d.toNat / 256 ^ off % 256 ^ n

/-- A value of `n` bytes placed at byte `off` of a line. -/
def placeLine (off n v : Nat) : BitVec 1024 := BitVec.ofNat 1024 (v % 256 ^ n * 256 ^ off)

/-! ## L1 lines -/

/-- A core's copy of a line. -/
def CoreSt.l1? (c : CoreSt) (line : Nat) : Option L1Line := c.l1.find? (fun l => l.line == line)

/-- A core's copy of a line, set. -/
def CoreSt.setL1 (c : CoreSt) (l : L1Line) : CoreSt :=
  { c with l1 := if c.l1.any (fun k => k.line == l.line) then c.l1.map (fun k => if k.line == l.line then l else k)
                 else c.l1 ++ [l] }

/-- A core's copy of a line, dropped. -/
def CoreSt.dropL1 (c : CoreSt) (line : Nat) : CoreSt := { c with l1 := c.l1.filter (fun l => l.line != line) }

/-- Has the core covered bytes of a release that are not drained yet. -/
def CoreSt.owes (c : CoreSt) : Bool := c.l1.any (fun l => l.covered != 0)

/-! ## The home of a line -/

/-- The line's content at home. -/
def State.homeLine (s : State) (line : Nat) : BitVec 1024 := BitVec.ofNat 1024 (s.peek (128 * line) 128)

/-- The words of a line that a byte mask covers wholly lose their poison mark (R301). -/
def State.unpoisonMask (s : State) (line : Nat) (m : BitVec 128) : State :=
  { s with poison := s.poison.filter (fun w => !(w / 16 == line && m.toNat / 2 ^ (w % 16 * 8) % 256 == 255)) }

/-- The ways that the slice above a shaft keeps for lines: those of its island's stack scratchpad hold none (R221, R228),
and a retired slice has none (R361). -/
def State.sliceWays (s : State) (cl : Nat) : Nat :=
  if s.retiredUnits.contains (2, stackOf cl, tileCode cl) then 0
  else 16 - ((s.islands.find? (fun i => (Shape.tiles i.shape).contains cl)).map (·.zWays)).getD 0

/-- The dirty home lines that share a line's set of its home slice: 2,048 sets (R221). -/
def State.sliceSet (s : State) (line : Nat) : List Nat :=
  s.homeDirty.filter (fun l => clusterOver (128 * l) == clusterOver (128 * line) && l % 2048 == line % 2048)

/-- A set of a slice that holds more dirty home lines than it has ways evicts one: it is written back to its bank group
(R221). Which one is timing only. -/
def State.sliceRoom (s : State) (line : Nat) : State :=
  let set := s.sliceSet line
  if set.length ≤ s.sliceWays (clusterOver (128 * line)) then s
  else match set[Config.l2Victim s.free % set.length]? with
    | none => s
    | some l => { s with homeDirty := setDel s.homeDirty l, free := s.free + 1 }

/-- Bytes merged at home (R218): the home line holds them and is dirty. -/
def State.mergeHome (s : State) (line : Nat) (m : BitVec 128) (d : BitVec 1024) : State :=
  if m = 0 then s
  else
    let u := s.unpoisonMask line m
    State.sliceRoom
      { u with mem := memWriteMask u.mem (128 * line) 128 m.toNat d.toNat, homeDirty := setAdd u.homeDirty line } line

/-- The home line is written back to its bank group and no longer dirty (R190, R221). -/
def State.recallHome (s : State) (line : Nat) : State := { s with homeDirty := setDel s.homeDirty line }

/-! ## Records of lazy releases (R238) -/

/-- The cores recorded on a line, oldest first. -/
def State.recorded (s : State) (line : Nat) : List Nat :=
  ((s.records.find? (fun r => r.1 == line)).map (·.2)).getD []

/-- The covered bytes of one core written back to their homes; its records are then served. -/
def State.drainCovered (s : State) (c : Nat) : State :=
  let core := s.core c
  let s1 := core.l1.foldl (fun u l => u.mergeHome l.line l.covered l.data) s
  let clean (l : L1Line) : L1Line := { l with dirty := l.dirty &&& ~~~l.covered, covered := 0 }
  let s2 := s1.setCore { core with l1 := core.l1.map clean }
  let rest := s2.records.map (fun r => (r.1, r.2.filter (fun d => d != c)))
  { s2 with records := rest.filter (fun r => !r.2.isEmpty) }

/-- A line is served before its home uses it: every recorded core drains. -/
def State.serveRecords (s : State) (line : Nat) : State := (s.recorded line).foldl State.drainCovered s

/-- What a core sends to a line's home records it there while it owes covered bytes; a fifth record first makes the
oldest recorded core drain. -/
def State.recordCore (s : State) (c line : Nat) : State :=
  if !(s.core c).owes || (s.recorded line).contains c then s
  else
    let s1 := match s.recorded line with
      | a :: _ :: _ :: _ :: _ => s.drainCovered a
      | _ => s
    let l := s1.recorded line ++ [c]
    { s1 with records := (line, l) :: s1.records.filter (fun r => r.1 != line) }

/-! ## Write-backs and drains -/

/-- The dirty bytes of one line are written back; the copy stays, clean (R218). -/
def State.writeBack (s : State) (c line : Nat) : State :=
  match (s.core c).l1? line with
  | none => s
  | some l =>
    if l.dirty = 0 then s
    else ((s.mergeHome line l.dirty l.data).modCore c (fun k => k.setL1 { l with dirty := 0, covered := 0 })).recordCore
      c line

/-- A line is written back and dropped. -/
def State.evictLine (s : State) (c line : Nat) : State := (s.writeBack c line).modCore c (fun k => k.dropL1 line)

/-- Room for a line in its set of 20 ways: a full set gives up one line (R218). -/
def State.makeRoom (s : State) (c line : Nat) : State :=
  let set := (s.core c).l1.filter (fun l => l.line % 128 == line % 128)
  if set.length < 20 then s
  else
    match set[Config.l1Victim s.free % set.length]? with
    | none => s
    | some l => { s.evictLine c l.line with free := s.free + 1 }

/-- The bytes of a write-combining entry that a mask names drain: they go home, and into the core's L1 copy, where they
are clean (R220). An entry with no byte left is free. -/
def State.drainBytes (s : State) (c : Nat) (e : WcbEntry) (m : BitVec 128) : State :=
  let s1 := s.mergeHome e.line m e.data
  let upd (l : L1Line) : L1Line :=
    if l.line = e.line then
      { l with data := mergeLine l.data e.data m, valid := l.valid ||| m, dirty := l.dirty &&& ~~~m
               covered := l.covered &&& ~~~m }
    else l
  let left (f : WcbEntry) : WcbEntry :=
    if f.window = e.window ∧ f.line = e.line then { f with mask := f.mask &&& ~~~m } else f
  let s2 := s1.modCore c (fun k =>
    { k with l1 := k.l1.map upd, wcb := (k.wcb.map left).filter (fun f => f.mask != 0) })
  s2.recordCore c e.line

/-- A write-combining entry drains. -/
def State.drainEntry (s : State) (c : Nat) (e : WcbEntry) : State := s.drainBytes c e e.mask

/-- The mask of one aligned 8-byte granule of a line. -/
def granuleMask (g : Nat) : BitVec 128 := byteMask (8 * g) 8

/-- The granules of an entry that hold bytes. -/
def WcbEntry.granules (e : WcbEntry) : List Nat := (List.range 16).filter (fun g => e.mask &&& granuleMask g != 0)

/-- One aligned 8-byte granule of an entry drains, in no order that the spec gives: a drain is atomic for each granule and no
more (R220, R227). -/
def State.drainGranule (s : State) (c : Nat) (e : WcbEntry) : State :=
  match e.granules[Config.wcbGranule s.free % e.granules.length]? with
  | none => s
  | some g => State.drainBytes { s with free := s.free + 1 } c e (e.mask &&& granuleMask g)

/-- The entries of a core that satisfy a test drain, oldest first. -/
def State.drainWcb (s : State) (c : Nat) (p : WcbEntry → Bool) : State :=
  ((s.core c).wcb.filter p).foldl (fun u e => u.drainEntry c e) s

/-- A core writes back its own dirty bytes of a line, drains the buffered ones, and drops its copy (R131). -/
def State.giveUpLine (s : State) (c line : Nat) : State :=
  (s.drainWcb c (fun e => e.line == line)).evictLine c line

/-! ## Operations at memory (R128 to R131) -/

/-- The new value of a location of `bytes` bytes. -/
def MemOp.apply (op : MemOp) (bytes : Nat) (a b : BitVec 128) (old : Nat) : Nat :=
  let w := 8 * bytes
  let x : Nat := a.toNat % 2 ^ w
  let sx (v : Nat) : Int := if v < 2 ^ (w - 1) then (v : Int) else (v : Int) - 2 ^ w
  let less (uns : Bool) (u v : Nat) : Bool := if uns then u < v else sx u < sx v
  match op with
  | .atom .swap _ | .slot => x
  | .atom .add _ | .red .add _ => (old + x) % 2 ^ w
  | .atom .and _ | .red .and _ => old &&& x
  | .atom .or _ | .red .or _ => old ||| x
  | .atom .xor _ | .red .xor _ => old ^^^ x
  | .atom .min u | .red .min u => if less u x old then x else old
  | .atom .max u | .red .max u => if less u old x then x else old
  | .cas | .cas2 => if old = x then b.toNat % 2 ^ w else old
  | .fadd rm z =>
    let f : Fmt := if bytes = 8 then .fp64 else .fp32
    (addRounded f ⟨rm, z, false, 0⟩ (readFloat z f old) (readFloat z f x)).bits
  | .nibble high =>
    if high then old % 16 + 16 * (x % 16) else old / 16 * 16 + x % 16

/-- The kinds that answer with the old value. -/
def MemOp.answers : MemOp → Bool
  | .atom _ _ | .cas | .cas2 => true
  | .red _ _ | .fadd _ _ | .nibble _ | .slot => false

/-- The size by its logarithm, as a store-fault record gives it (Table 13.6). -/
def logSize (n : Nat) : Nat := Nat.log2 n

/-- A store-side fault behind the port (R297), on its way. -/
def State.storeFault (s : State) (core : Nat) (key : ThreadKey) (pc va size : Nat) (red : Bool) (c : Cause) : State :=
  { s with faults := s.faults ++ [⟨core, key, pc, va, logSize size, red, c, .flight⟩] }

/-- An operation at the place of a location: recalls, the operation, and the old value. -/
def State.applyAt (s : State) (x : Loc) (bytes : Nat) (op : MemOp) (a b : BitVec 128) : State × Nat :=
  let s1 := if isDram x then (s.serveRecords (lineAt x)).recallHome (lineAt x) else s
  let old := s1.peek x bytes
  (s1.poke x bytes (op.apply bytes a b old), old)

/-- A result for a pending entry. -/
def Pend.deliver (e : Pend) (v : VWord) : Pend := { e with wait := .value, value := v }

/-- A pending entry that has met a fault. -/
def Pend.fail (e : Pend) (c : Cause) (va : Nat) : Pend := { e with wait := .fault c va false }

/-- The results of an atomic: CAS2 fills two entries, low half first. -/
def Thread.deliverOld (t : Thread) (i bytes old : Nat) : Thread :=
  let t1 := t.modPend i (fun e => e.deliver (BitVec.ofNat 512 (old % 2 ^ 64)))
  if bytes = 16 then t1.modPend (i + 1) (fun e => e.deliver (BitVec.ofNat 512 (old / 2 ^ 64))) else t1

/-- The atomic's entries fail. -/
def Thread.failOld (t : Thread) (i bytes : Nat) (c : Cause) (va : Nat) : Thread :=
  let t1 := t.modPend i (fun e => e.fail c va)
  if bytes = 16 then t1.modPend (i + 1) (fun e => e.fail c va) else t1

/-! ## Plain accesses to DRAM -/

/-- One word of `n` bytes at `off` of a line, each byte from the mask's first holder. -/
def overlay (base top : Nat) (mask off n : Nat) : Nat :=
  let k := spreadMask (mask / 2 ^ off % 2 ^ n) n
  (base &&& (2 ^ (8 * n) - 1 - k)) ||| (top &&& k)

/-- Are all the bytes valid in the core's L1. -/
def State.l1Holds (s : State) (c : Nat) (x n : Nat) : Bool :=
  match (s.core c).l1? (lineAt x) with
  | none => false
  | some l => let m := byteMask (x % 128) n; l.valid &&& m == m

/-- Are the dirty copies of a piece still being recalled, by an FRZ or a field's freeze whose work is not done (R201). -/
def State.recalling (s : State) (piece : Nat) : Bool :=
  s.engJobs.any (fun j => match j.work with
    | .freeze l => l.contains piece
    | .repartition _ _ | .hset .. | .hclr _ | .fcpl .. => false)

/-- May a copy of the line be kept as frozen: its granule is frozen and holds its frozen contents (R201, R244). -/
def State.keepsFrozen (s : State) (x : Loc) : Bool := s.isFrozen x && !s.recalling (pieceAt x)

/-- The invalid bytes of a line are filled from home; words that are poisoned stay invalid (R218, R301). A line is marked
frozen only when all that it holds has been filled while its granule is frozen (R244). -/
def State.fillLine (s : State) (c line : Nat) : State :=
  let home := s.homeLine line
  let good : Nat := (List.range 16).foldl (fun m i => if s.poison.contains (16 * line + i) then m else m + 255 * 256 ^ i) 0
  let ok : BitVec 128 := BitVec.ofNat 128 good
  let fz := s.keepsFrozen (128 * line)
  match (s.core c).l1? line with
  | some l =>
    s.modCore c (fun k => k.setL1 { l with data := mergeLine home l.data (l.valid ||| ~~~ok), valid := l.valid ||| ok
                                           frozen := l.frozen || (fz && l.valid == 0) })
  | none => (s.makeRoom c line).modCore c (fun k => k.setL1 ⟨line, ok, 0, 0, fz, home⟩)

/-- The bytes of a core's write-combining buffer over `n` bytes of a load, where the window line matches (R220). -/
def State.wcbOver (s : State) (c va x n v : Nat) : Nat :=
  (s.core c).wcb.foldl
    (fun w e => if e.window == va / 128 then overlay w (lineBytes e.data (x % 128) n) e.mask.toNat (x % 128) n else w) v

/-- The bytes of a line that a load of a core does not take from home: those that a buffer entry of its window line holds,
and, where it goes through L1, those valid there. -/
def State.localMask (s : State) (c va line : Nat) (cached : Bool) : BitVec 128 :=
  let l1 : BitVec 128 := if cached then ((s.core c).l1? line).elim 0 (·.valid) else 0
  (s.core c).wcb.foldl (fun m e => if e.window == va / 128 then m ||| e.mask else m) l1

/-- Does a load of `n` bytes take a byte of a poisoned word from home (R301). -/
def State.homePoison (s : State) (c va x n : Nat) (cached : Bool) : Bool :=
  let m := s.localMask c va (lineAt x) cached
  !s.poison.isEmpty && (List.range n).any (fun i => !m.getLsbD (x % 128 + i) && s.poison.contains (wordAt (x + i)))

/-- A plain load of at most one line: what the state becomes, and the value unless it takes a poisoned word. `va` is the
window address, `pol` the policy (Table 9.2). -/
def State.loadLine (s : State) (c va x n : Nat) (pol : BitVec 2) : State × Option Nat :=
  let line := lineAt x
  let s1 := if pol = 2 then s.evictLine c line else s
  let hit := s1.l1Holds c x n
  let s2 := if hit then s1 else s1.serveRecords line
  let bad := s2.homePoison c va x n true
  let s3 := if hit || pol = 2 then s2
    else if pol = 0 || ((s2.core c).l1? line).isSome then s2.fillLine c line
    else s2
  let s4 := if s3.keepsFrozen x && !hit && clusterOver x != c / 4 && !(s3.replicas.contains (c / 4, line)) &&
      s3.sliceWays (c / 4) != 0 then
      { s3 with replicas := (c / 4, line) :: s3.replicas }
    else s3
  let home := s4.peek x n
  let off := x % 128
  let cached := match (s4.core c).l1? line with
    | none => home
    | some l => overlay home (lineBytes l.data off n) l.valid.toNat off n
  if bad then (s2, none) else (s4, some (s4.wcbOver c va x n cached))

/-- Bytes written to their home slice by a core, its L1 copy first written back and dropped (Table 9.2). Its buffer keeps what
it holds of the line through the other window (R227). -/
def State.storeHome (s : State) (c x n v : Nat) : State :=
  let line := lineAt x
  ((s.evictLine c line).mergeHome line (byteMask (x % 128) n) (placeLine (x % 128) n v)).recordCore c line

/-- Bytes written into L1, allocating on a miss (R218). -/
def State.storeL1 (s : State) (c x n v : Nat) : State :=
  let line := lineAt x
  let m := byteMask (x % 128) n
  let d := placeLine (x % 128) n v
  match (s.core c).l1? line with
  | some l =>
    s.modCore c (fun k => k.setL1 { l with data := mergeLine l.data d m, valid := l.valid ||| m, dirty := l.dirty ||| m })
  | none => (s.makeRoom c line).modCore c (fun k => k.setL1 ⟨line, m, m, 0, false, d⟩)

/-- A store that a buffer entry of its window line takes (R220). -/
def WcbEntry.take (e : WcbEntry) (key : ThreadKey) (x n v : Nat) : WcbEntry :=
  let m := byteMask (x % 128) n
  { e with mask := e.mask ||| m, data := mergeLine e.data (placeLine (x % 128) n v) m
           owners := if e.owners.contains key then e.owners else e.owners ++ [key] }

/-- A plain store of at most one line (Table 9.2, R220). `sync`: the synchronising store of a release, which is
written through (R238). -/
def State.storeLine (s : State) (c : Nat) (key : ThreadKey) (va x n v : Nat) (pol : BitVec 2) (sync : Bool) : State :=
  let win := va / 128
  if sync then s.storeHome c x n v
  else if (s.core c).wcb.any (fun e => e.window == win) then
    s.modCore c (fun k => { k with wcb := k.wcb.map (fun e => if e.window == win then e.take key x n v else e) })
  else if pol = 1 then
    let s1 := match (s.core c).wcb with
      | a :: _ :: _ :: _ :: _ => s.drainEntry c a
      | _ => s
    s1.modCore c (fun k => { k with wcb := k.wcb ++ [(⟨win, lineAt x, 0, 0, []⟩ : WcbEntry).take key x n v] })
  else if pol = 2 || (pol = 3 && ((s.core c).l1? (lineAt x)).isNone) then s.storeHome c x n v
  else s.storeL1 c x n v

/-! ## The port (R236) -/

/-- What a release has to do with the dirty bytes of a core: the thread's buffer entries drain, and every dirty byte of
the L1 is covered (R237). -/
def State.coverCore (s : State) (c : Nat) (key : ThreadKey) : State :=
  let cover (l : L1Line) : L1Line := { l with covered := l.covered ||| l.dirty }
  (s.drainWcb c (fun e => e.owners.contains key)).modCore c (fun k => { k with l1 := k.l1.map cover })

/-- A plain store of at most one line is performed. The synchronising store of a release comes after what the release
covers: it is written through to DRAM, and elsewhere the covered bytes drain first (R238). -/
def State.performStore (s : State) (c : Nat) (key : ThreadKey) (va x n v : Nat) (pol : BitVec 2) (sync : Bool) : State :=
  if isDram x then (if sync then s.coverCore c key else s).storeLine c key va x n v pol sync
  else (if sync then (s.coverCore c key).drainCovered c else s).poke x n v

/-- Has the thread ended. Its core may have been written back already, so a late store of its is written through (R243). -/
def State.isDead (s : State) (key : ThreadKey) : Bool := !((s.thread? key).map Thread.live).getD false

/-- A failure behind the port of an access whose thread has ended is silent (R92). -/
def State.lateFault (s : State) (core : Nat) (key : ThreadKey) (pc va size : Nat) (red : Bool) (c : Cause) : State :=
  if s.isDead key then s else s.storeFault core key pc va size red c

/-! ## What waits at a core's port (R235, R236, R239, R294) -/

/-- The pieces of an access that lie in one 128-byte line each: offset and size. -/
def linePieces (a n : Nat) : List (Nat × Nat) :=
  if n = 0 then [] else if a % 128 + n ≤ 128 then [(0, n)] else [(0, 128 - a % 128), (128 - a % 128, n - (128 - a % 128))]

/-- The pieces of an access through a segment. -/
def Seg.pieces (g : Seg) (off n : Nat) : List (Nat × Nat) :=
  (linePieces (g.base.toNat + off) n).map (fun p => (off + p.1, p.2))

/-- What a held operation needs from the leaf (R287). -/
def HeldStore.need (h : HeldStore) : Need :=
  match h.op with
  | .barrier _ _ => needRW
  | .plain | .memory _ | .sts _ | .bit _ | .append | .slot => needW

/-- Where a byte of a held store lies now. -/
def State.heldPlace (s : State) (h : HeldStore) (off : Nat) : XRes := s.locate h.view h.seg off h.need false

/-- The bytes that a held store reaches now. -/
def State.heldRanges (s : State) (h : HeldStore) : List (Loc × Nat) :=
  h.elems.flatMap (fun e => (h.seg.pieces e.1 e.2.1).filterMap (fun p => match s.heldPlace h p.1 with
    | .ok x => some (x, p.2)
    | _ => none))

/-- Is a location in lane memory, which its own thread alone reaches: nothing there waits for anything. -/
def isLane (x : Loc) : Bool := laneLoc 0 0 0 ≤ x && x < wayLoc 0 0 0

/-- Is a location in the thread's own core: its lane memories and its scratchpad. -/
def ownPort (v : View) (x : Loc) : Bool :=
  !isDram x && ((spadLoc (coreIndex v) 0 ≤ x && x < spadLoc (coreIndex v) 0 + 2 ^ 17) ||
    (laneLoc (coreIndex v) 0 0 ≤ x && x < laneLoc (coreIndex v) 0 0 + 2 ^ 16))

/-- What kind of access waits at a port. -/
inductive PortKind where
  | store
  | held
  | atom
  | red
  | load
  deriving DecidableEq, Repr

/-- An access that waits at a port, or comes to it: whose it is, its kind, its place among the thread's accesses (its own
number, or that below which its earlier accesses lie), the step in which it came, its bytes, and whether accesses of other
slots go before it. -/
structure PortItem where
  key : ThreadKey
  kind : PortKind
  num : Nat
  ord : Nat
  ranges : List (Loc × Nat)
  passed : Bool
  deriving DecidableEq, Repr

/-- Do two ranges of bytes share an 8-byte word, with its full/empty bit. -/
def wordsMeet (a b : Loc × Nat) : Bool :=
  wordAt a.1 ≤ wordAt (b.1 + b.2 - 1) && wordAt b.1 ≤ wordAt (a.1 + a.2 - 1)

/-- Do two accesses share a word. -/
def PortItem.meets (i j : PortItem) : Bool := i.ranges.any (fun a => j.ranges.any (wordsMeet a))

/-- Do two accesses share a DRAM line, or a word. -/
def PortItem.sharesLine (i j : PortItem) : Bool :=
  i.ranges.any (fun a => j.ranges.any (fun b => wordsMeet a b || (isDram a.1 && lineAt a.1 == lineAt b.1)))

/-- Is the access one that its thread numbers, and a replay renews under its number: a load or an atomic. -/
def PortItem.numbered (i : PortItem) : Bool := i.kind == .load || i.kind == .atom

/-- Does `i` stand before `j`: in program order, or, of two threads, in the order in which the core issued them. -/
def PortItem.older (i j : PortItem) : Bool :=
  if i.key = j.key && j.numbered then (if i.numbered then decide (i.num < j.num) else decide (i.num ≤ j.num))
  else decide (i.ord < j.ord)

/-- Must `i`, which waits, be performed before the younger `j`. A held store makes its own thread's later accesses wait
(R294); an atomic comes before every later access to its line (R235); and of accesses to the same bytes the older comes
first. An access that the other must await anyway, by its number (R236, R239), is not looked at again here. -/
def PortItem.first (i j : PortItem) : Bool :=
  match i.kind, i.key == j.key with
  | .red, _ => false
  | .held, true => true
  | .atom, true => i.sharesLine j
  | .atom, false => !i.passed && i.sharesLine j
  | .store, true | .load, true => i.meets j
  | .store, false | .load, false | .held, false => !i.passed && i.meets j

/-- Is a location in the ways of a stack scratchpad. -/
def isWay (x : Loc) : Bool := !isDram x && wayLoc 0 0 0 ≤ x && x < tileLoc 0 0 0

/-- Has a repartition taken away the byte of the stack scratchpad at offset `va` that an access of a thread, held at the port,
is to reach: it meets SCRATCHBOUND, as a waiter does (R230). -/
def State.wayGone (s : State) (key : ThreadKey) (x : Loc) (va : Nat) : Bool :=
  isWay x && decide ((((s.thread? key).bind (fun t => s.island? t.view.island)).map (fun i => i.zOf i.zWays)).getD 0 ≤ va)

/-- Is an acquire of the thread that comes before number `n` open, which holds its access at the port (R239). -/
def State.acquireHolds (s : State) (key : ThreadKey) (n : Nat) : Bool := ((s.thread? key).map (·.acquireBelow n)).getD false

/-- Do the accesses of other slots go before an access of a thread that waits at the port: an acquire of the thread that
comes before it is open (R239), or a page holds back a store of the thread that comes before it (R294). Such an access
counts as performed in the core's order when it is performed. DEDUCED (log 115): R294 says so of the store and of what waits
behind it; what an acquire holds is taken alike. -/
def State.letsPass (s : State) (key : ThreadKey) (n ord : Nat) : Bool :=
  s.acquireHolds key n || s.held.any (fun h => h.key == key && h.parked && decide (h.ord ≤ ord))

/-- A store at the port, as an item. -/
def State.storeItem (s : State) (p : PortStore) : PortItem :=
  ⟨p.key, .store, p.upTo, p.unit, [(p.loc, p.size)], s.letsPass p.key p.upTo p.unit⟩

/-- A held store, as an item. -/
def State.heldItem (s : State) (h : HeldStore) : PortItem :=
  ⟨h.key, .held, h.upTo, h.ord, s.heldRanges h, s.letsPass h.key h.upTo h.ord⟩

/-- A message, as an item: an atomic, or an operation that takes its order at memory alone (R235). -/
def State.msgItem (s : State) (m : MemMsg) : PortItem :=
  ⟨m.key, if m.op.answers then .atom else .red, m.upTo, m.ord, [(m.loc, m.bytes)], s.letsPass m.key m.upTo m.ord⟩

/-- A held load, as an item. -/
def State.loadItem (s : State) (h : HeldLoad) : PortItem :=
  ⟨h.key, .load, h.num, h.ord, h.parts.map (fun p => (p.loc, p.size)), s.letsPass h.key h.num h.ord⟩

/-- What waits at a core's port. -/
def State.portItems (s : State) (c : Nat) : List PortItem :=
  (s.core c).port.map s.storeItem ++
    ((s.held.filter (fun h => coreIndex h.view == c)).map s.heldItem ++
      ((s.msgs.filter (fun m => coreIndex m.view == c)).map s.msgItem ++
        (s.loads.filter (fun h => coreIndex h.view == c)).map s.loadItem))

/-- Is the storage that an access reaches in order: a failed core's scratchpad answers nothing until it is repaired or
retired (R300). -/
def State.storageUp (s : State) (j : PortItem) : Bool := j.ranges.all (fun r => s.padHealth r.1 != .failed)

/-- Nothing at the port stands before an access that comes to it, or waits there. -/
def State.portFree (s : State) (c : Nat) (j : PortItem) : Bool :=
  !(s.portItems c).any (fun i => i.older j && i.first j) && s.storageUp j

/-- Has the thread an access below number `n` that is still to be performed (R236). -/
def State.opensBelow (s : State) (key : ThreadKey) (n : Nat) : Bool := ((s.thread? key).map (·.openBelow n)).getD false

/-- Does something of the thread wait at the port: a store, or one held behind it. -/
def State.portOf (s : State) (c : Nat) (key : ThreadKey) : Bool :=
  (s.core c).port.any (fun p => p.key == key) || s.held.any (fun h => h.key == key)

/-! ## Stores at the port (R236) -/

/-- May a store leave the port: its thread's earlier loads are performed (R236), it is the oldest of its thread there, the
thread has no older store that is held, and nothing else stands before it. -/
def State.portReady (s : State) (c : Nat) (p : PortStore) : Bool :=
  !s.opensBelow p.key p.upTo && (s.core c).port.find? (fun q => q.key == p.key) == some p && s.portFree c (s.storeItem p)

/-- The other elements of a unit's store make no record of their own (R123). -/
def PortStore.hush (p q : PortStore) : PortStore :=
  if q.key = p.key ∧ q.unit = p.unit ∧ q.pc = p.pc then { q with quiet := true } else q

/-- A store leaves the port. One whose granule has been frozen since it came there is withheld: of a unit's elements the
first makes the record (R123, R201). -/
def State.portLeave (s : State) (c : Nat) (p : PortStore) : State :=
  let s1 := s.modCore c (fun k => { k with port := k.port.erase p })
  let bad := if isDram p.loc && s.isFrozen p.loc then some Cause.frozen
    else if s.wayGone p.key p.loc p.va then some Cause.scratchBound
    else none
  match bad with
  | some f =>
    if p.quiet then s1
    else (s1.modCore c (fun k => { k with port := k.port.map p.hush })).lateFault c p.key p.pc p.va p.size false f
  | none => s1.performStore c p.key p.va p.loc p.size p.val p.policy (p.sync || s.isDead p.key)

/-- What may leave a core's port leaves it, oldest first. -/
def State.flushPort (s : State) (c : Nat) : State :=
  (s.core c).port.foldl (fun u p => if u.portReady c p then u.portLeave c p else u) s

/-- A plain store of at most one line reaches its core's port: it is performed, or waits there for its thread's accesses
below number `upTo` and for what stands before it. `quiet`: its unit has made its record. -/
def State.portStore (s : State) (c : Nat) (key : ThreadKey) (upTo pc va x n v : Nat) (pol : BitVec 2) (sync quiet : Bool) :
    State :=
  let p : PortStore := ⟨key, upTo, s.draw, pc, va, x, n, v, pol, sync, quiet⟩
  if isLane x || (!s.opensBelow key upTo && !s.portOf c key && s.portFree c (s.storeItem p)) then
    s.performStore c key va x n v pol (sync || s.isDead key)
  else s.modCore c (fun k => { k with port := k.port ++ [p] })

/-! ## Messages to memory (R131, R235, R236) -/

/-- Must an older message come before `m`: an atomic of the same core to the same line (R235). -/
def MemMsg.before (n m : MemMsg) : Bool :=
  n.op.answers && coreIndex n.view == coreIndex m.view && lineAt n.loc == lineAt m.loc

/-- Must an older message that waits come before `m`: not one whose place the accesses of other slots pass. -/
def State.msgBefore (s : State) (n m : MemMsg) : Bool := n.before m && (n.key == m.key || !s.letsPass n.key n.upTo n.ord)

/-- Is a place that an engine works at stopped with its stack: a bank group's (R357). -/
def State.bankStopped (s : State) (x : Loc) : Bool := isDram x && s.stackStopped (stackOf (clusterOver x))

/-- Has the port of the message's core let it go: its thread's earlier loads are performed (R236), and nothing but older
atomics stands before it; and does the engine of its bank group work (R357). -/
def State.msgReady (s : State) (m : MemMsg) : Bool :=
  let j := s.msgItem m
  !s.opensBelow m.key m.upTo && s.storageUp j && !s.bankStopped m.loc &&
    !(s.portItems (coreIndex m.view)).any (fun i => i.kind != .atom && i.older j && i.first j)

/-- One message is performed at its place (R131): the issuing core gives up its copy of a DRAM line; FROZEN and POISON
fail the operation, as a precise fault of an atomic or as a record of a RED or ST.N. -/
def State.performOne (s : State) (m : MemMsg) : State :=
  let s0 : State := { s with msgs := s.msgs.erase m }
  let s1 := if isDram m.loc then s0.giveUpLine (coreIndex m.view) (lineAt m.loc) else s0
  let bad := if s1.isFrozen m.loc then some Cause.frozen
    else if s1.wayGone m.key m.loc m.va then some Cause.scratchBound
    else if m.op.answers && s1.poisoned m.loc m.bytes then some Cause.poison
    else none
  match bad, m.entry with
  | some c, some i => s1.modThread m.key (fun t => t.failOld i m.bytes c m.va)
  | some c, none => s1.lateFault (coreIndex m.view) m.key m.pc m.va m.bytes true c
  | none, e =>
    let r := s1.applyAt m.loc m.bytes m.op m.a m.b
    match e with
    | some i => r.1.modThread m.key (fun t => t.deliverOld i m.bytes r.2)
    | none => r.1

/-- A message is performed, after the older atomics of its core to its line; one that the port holds stays. -/
def State.performMsg (s : State) (m : MemMsg) : State :=
  let u := s.flushPort (coreIndex m.view)
  let l := (u.msgs.takeWhile (fun n => n != m)).filter (fun n => u.msgBefore n m) ++ [m]
  if l.all u.msgReady then l.foldl State.performOne u else u

/-- The messages that satisfy a test are performed, oldest first. -/
def State.performMsgs (s : State) (p : MemMsg → Bool) : State :=
  (s.msgs.filter p).foldl (fun u m => if u.msgs.contains m then u.performMsg m else u) s

/-- The atomics of a core to a line come before its later accesses to that line (R235). -/
def State.flushAtoms (s : State) (c line : Nat) : State :=
  if s.msgs.isEmpty then s
  else s.performMsgs (fun m => m.op.answers && coreIndex m.view == c && lineAt m.loc == line)

/-- What may go before an access to the lines of `j` goes: the stores at the port, and the core's atomics to those lines. -/
def State.portOpen (s : State) (c : Nat) (j : PortItem) : State :=
  j.ranges.foldl (fun u r => u.flushAtoms c (lineAt r.1)) (s.flushPort c)

/-! ## Release and acquire (R237 to R243) -/

/-- Does a scope reach beyond the core. -/
def scopeWide : Scope → Bool
  | .slot | .core => false
  | .clus | .stack | .dev | .sys => true

/-- Does a release wait for earlier REDs and nibble stores. -/
def scopeDevice : Scope → Bool
  | .dev | .sys => true
  | .slot | .core | .clus | .stack => false

/-- The scope of a space (Table 5.1). -/
def spaceScope (sp : BitVec 4) : Scope :=
  if sp = spLane then .slot
  else if sp = spCore ∨ sp = spCluster then .clus
  else if sp = spStack then .stack
  else if sp = spFar then .sys
  else .dev

/-- Is the far message a reduction of the thread. -/
def FarMsg.isRed (m : FarMsg) (key : ThreadKey) : Bool := m.key == key && m.entry.isNone && m.copy.isNone

/-- The far reductions of a thread whose earlier accesses are performed are acknowledged. -/
def State.ackFar (s : State) (key : ThreadKey) : State :=
  { s with farOut := s.farOut.filter (fun m => !(m.isRed key && !s.opensBelow key m.upTo)) }

/-- The parts of a release that are done at once: the thread's atomics, and at .dev or .sys its REDs and nibble stores,
are performed, those to far memory acknowledged; its buffer entries drain; and the dirty bytes of the core's L1 are
covered. -/
def State.release (s : State) (v : View) (key : ThreadKey) (sc : Scope) : State :=
  let s1 := s.performMsgs (fun m => m.key == key && (m.op.answers || scopeDevice sc))
  let s2 := if scopeDevice sc then s1.ackFar key else s1
  if scopeWide sc then s2.coverCore (coreIndex v) key else s2.drainWcb (coreIndex v) (fun e => e.owners.contains key)

/-- A release whose covered bytes are all written back before its synchronising store (R238, eager). -/
def State.releaseEager (s : State) (v : View) (key : ThreadKey) (sc : Scope) : State :=
  (s.release v key sc).drainCovered (coreIndex v)

/-- The release of a synchronising store to a space: lazy to DRAM, else eager (R238). -/
def State.releaseFor (s : State) (v : View) (key : ThreadKey) (sp : BitVec 4) : State :=
  if scopeDevice (spaceScope sp) then s.release v key (spaceScope sp) else s.releaseEager v key (spaceScope sp)

/-- Acquire: the core's clean bytes go, except in frozen lines (R239). -/
def State.acquire (s : State) (v : View) (sc : Scope) : State :=
  if scopeWide sc then
    let keep (l : L1Line) : L1Line := if l.frozen then l else { l with valid := l.dirty }
    s.modCore (coreIndex v) (fun k => { k with l1 := (k.l1.map keep).filter (fun l => l.frozen || l.valid != 0) })
  else s

/-- The order points that contain a core, from .clus up to a scope (R241), and the last of them. -/
def scPointsOf (v : View) : Scope → List Nat
  | .slot | .core => []
  | .clus => [v.cluster]
  | .stack => [v.cluster, 1000 + stackOf v.cluster]
  | .dev => [v.cluster, 1000 + stackOf v.cluster, 2000]
  | .sys => [v.cluster, 1000 + stackOf v.cluster, 2000, 3000]

/-- A FENCE.SC takes its place: its core is recorded at the order points from .clus up to its scope, and every core
recorded at one of them drains its covered bytes. A fence of a narrower scope is recorded at the lower points alone, and
covers and is covered all the same, so they drain with the point of the scope (R241). -/
def State.orderPoint (s : State) (v : View) (sc : Scope) : State :=
  let c := coreIndex v
  let pts := scPointsOf v sc
  let s1 := { s with scPoints := pts.foldl (fun l p => if l.contains (p, c) then l else l ++ [(p, c)]) s.scPoints }
  (s1.scPoints.filter (fun q => pts.contains q.1)).foldl (fun u q => u.drainCovered q.2) s1

/-! ## Engines (R242, R190) -/

/-- Before an engine uses a line: the records on it are served, and the issuing core of the work writes back its
covered bytes of the line (the kick record). -/
def State.kickLine (s : State) (c line : Nat) : State :=
  let s1 := s.serveRecords line
  match (s1.core c).l1? line with
  | none => s1
  | some l =>
    if l.covered = 0 then s1
    else (s1.mergeHome line l.covered l.data).modCore c
      (fun k => k.setL1 { l with dirty := l.dirty &&& ~~~l.covered, covered := 0 })

/-- Before a stope engine uses a line: its records are served and the home slice gives up its dirty copy. -/
def State.stopeLine (s : State) (line : Nat) : State := (s.serveRecords line).recallHome line

/-- The lines of a range. -/
def linesOf (x n : Nat) : List Nat := if n = 0 then [] else List.range' (lineAt x) (lineAt (x + n - 1) - lineAt x + 1)

/-- Every dirty copy of a range, in any L1 or buffer, is recalled and written back (R201). -/
def State.recallRange (s : State) (lo n : Nat) : State :=
  let hits (l : Nat) : Bool := lo ≤ 128 * l && 128 * l < lo + n
  s.cores.foldl (fun u c =>
    let u1 := u.drainWcb c.id (fun e => hits e.line)
    (c.l1.filter (fun l => hits l.line && l.dirty != 0)).foldl (fun w l => w.writeBack c.id l.line) u1) s

end Sys2Proof.Machine
end

