-- ==== Sys2Proof/Machine/SaveArea.lean ====
section
/-! DEFINITION. The records of the slot save area that change while its thread is Spilled (spec/11, R256, R258,
Tables 11.9 to 11.11; spec/01, R37): the header, the wait registration and the pending entries. -/

namespace Sys2Proof.Machine

open Sys2Proof

/-- The cause codes (Table 13.5). -/
def Cause.code : Cause → Nat
  | .illegal => 0x01 | .pair => 0x02 | .badTarget => 0x03 | .midPair => 0x04 | .pairAlign => 0x05
  | .segRight => 0x08 | .segBound => 0x09 | .align => 0x0A | .addrForm => 0x0B | .scratchBound => 0x0C
  | .pageRight => 0x10 | .frozen => 0x11 | .owner => 0x12 | .poison => 0x13 | .storeFault => 0x14 | .feState => 0x15
  | .rcallBad => 0x18 | .rowAlign => 0x19 | .rowPlace => 0x1A | .fieldWrite => 0x1B | .freezeFull => 0x1C
  | .matrixOperand => 0x20 | .gangBroken => 0x21 | .gangTimeout => 0x22 | .trap => 0x30 | .brk => 0x31
  | .deadCore => 0x40

/-- A 64-bit value at an offset of a save area. -/
def State.save (s : State) (area off x : Nat) : State := s.poke (area + off) 8 (x % 2 ^ 64)

/-- 64-bit values from an offset upward. -/
def State.saveList (s : State) (area off : Nat) : List Nat → State
  | [] => s
  | x :: xs => (s.save area off x).saveList area (off + 8) xs

/-- Does a thread wait nowhere: it is Ready, with a replay due or without, or Stalled, at a full engine or otherwise. -/
def Thread.waitsNowhere (t : Thread) : Bool := t.wait == .none || t.wait == .job 0

/-- Word 0 of the header: PC, STATE, HSTATE, WOKEN, JOB (Table 11.10). A Stalled thread is saved as Ready. -/
def Thread.saveHead (t : Thread) (job : Bool) : Nat :=
  t.pc.toNat + (if t.waitsNowhere then 1 else 2) * 2 ^ 52 + (if t.hstate then 2 ^ 55 else 0) +
    (if t.woken then 2 ^ 56 else 0) + (if job then 2 ^ 57 else 0)

/-- The wait registration: kind and location (Table 11.9); of a thread that waits for a held store, the location is not the
thread's own to tell. -/
def Wait.saved : Wait → Nat × Nat
  | .none | .debug | .job 0 => (0, 0)
  | .word x => (1, 8 * x)
  | .barrier x => (2, x)
  | .job n => (3, n)
  | .barc => (4, 0)
  | .page va => (5, va)
  | .held => (5, 0)
  | .queue q => (6, q)
  | .engine n => (7, n)

/-- The virtual address at which a page holds a held store back. -/
def State.heldVa (s : State) (h : HeldStore) : Option Nat :=
  ((h.elems.flatMap (fun e => h.seg.pieces e.1 e.2.1)).find? (fun p => match s.heldPlace h p.1 with
    | .park | .service _ _ => true
    | _ => false)).map (fun p => h.seg.base.toNat + p.1)

/-- The wait registration of a thread: one that a held store parks is registered at that store's page (R258, Table 11.9). -/
def State.savedWait (s : State) (t : Thread) : Nat × Nat :=
  if t.wait = .held then (5, ((s.held.filter (fun h => h.key == t.key && h.parked)).findSome? s.heldVa).getD 0)
  else t.wait.saved

/-- The request operand of a wait registration (Table 11.9): what a request in a word's list is to write, or one that a page
holds back before it comes there. -/
def State.requestOperand (s : State) (k : ThreadKey) : Nat :=
  let val (h : HeldStore) : Option Nat := match h.op with
    | .sts false | .append | .slot => h.elems.head?.map (·.2.2)
    | .plain | .memory _ | .bit _ | .barrier _ _ | .sts true => none
  match s.waits.find? (fun w => w.key == k) with
  | none => ((s.held.filter (fun h => h.key == k)).findSome? val).getD 0
  | some w =>
    match w.req with
    | .produce _ _ v | .append v => v.toNat
    | .load .. => 0

/-- One pending entry record (Table 11.11). An entry that met a parking condition counts as faulted, to be taken at the
first issue after refill (R37); DESIGN CHOICE (log 99): its CAUSE is 0, since Table 13.5 has no code for it. A load that the
port holds behind an LDS of its thread counts as listed with it; DESIGN CHOICE (log 113). -/
def Pend.saved (e : Pend) : Nat :=
  let reg : Nat × Nat := match e.dest with
    | .g d => (d.toNat, 0)
    | .v d => (d.toNat, 1)
    | .p d => (d.toNat, 0)
  let bad : Nat := match e.wait with
    | .fault c va _ => 2 ^ 13 + c.code * 2 ^ 14 + va % 2 ^ 64 * 2 ^ 64
    | .park va _ => 2 ^ 13 + va % 2 ^ 64 * 2 ^ 64
    | .listed | .port => 2 ^ 22
    | .value => 2 ^ 12 + e.value.toNat * 2 ^ 128
    | .atomic | .far => 0
  reg.1 + reg.2 * 2 ^ 6 + e.left % 16 * 2 ^ 8 + bad

/-- The pending entries, 128 bytes each, up to 48. -/
def State.savePending (s : State) (area off : Nat) : List Pend → State
  | [] => s
  | e :: es => (s.poke (area + off) 128 e.saved).savePending area (off + 128) es

/-- The records of entries whose results arrive after the spill: VALUE is written and ARRIVED set, LISTED stays (R37,
Table 11.11). -/
def State.renewPending (s : State) (area off : Nat) : List Pend → State
  | [] => s
  | e :: es =>
    let was := s.peek (area + off + 2) 1 / 2 ^ 6 % 2
    let now := e.saved
    let keep := if now / 2 ^ 22 % 2 = 0 then was * 2 ^ 22 else 0
    (s.poke (area + off) 128 (now + keep)).renewPending area (off + 128) es

/-- The pending records of a spilled thread follow its entries. -/
def State.refreshPending (s : State) (k : ThreadKey) : State :=
  match s.thread? k with
  | none => s
  | some t => if t.status = .spilled then s.renewPending t.area 0x1000 (t.pending.take 48) else s

/-- A wake that found the thread Spilled is written into the save area, together with any result (R256). -/
def State.saveWake (s : State) (k : ThreadKey) : State :=
  match s.thread? k with
  | none => s
  | some t =>
    if t.status = .spilled then
      ((s.save t.area 0 (t.saveHead (s.peek t.area 8 / 2 ^ 57 % 2 == 1))).save t.area 0x0498 (t.grant.getD 0).toNat)
    else s

end Sys2Proof.Machine
end

