-- ==== Sys2Proof/Machine/Waits.lean ====
section
/-! DEFINITION. Waiting at memory (spec/05, R124 to R127, R133, R136 to R138): the wait lists of words, transaction
barriers, engine arrivals, and the replies of host commands. -/

namespace Sys2Proof.Machine

open Sys2Proof

/-! ## Replies of host commands (R312, R313) -/

/-- A reply is stored with its connection, which keeps the last 256, and sent. -/
def State.sendReply (s : State) (r : Reply) : State :=
  let keep (c : Conn) : Conn := if c.id = r.conn then { c with replies := (r :: c.replies).take 256, busy := false } else c
  { s with conns := s.conns.map keep, outbox := s.outbox ++ [r] }

/-- The header of a reply, 256 bits (Table 14.4): LENGTH is the size of its body. -/
def Reply.header (r : Reply) : Nat :=
  r.op % 2 ^ 8 + r.status % 2 ^ 8 * 2 ^ 8 + r.body.length % 2 ^ 16 * 2 ^ 16 + r.seq % 2 ^ 64 * 2 ^ 64 + r.island % 2 ^ 16 * 2 ^ 128 +
    r.tag.toNat * 2 ^ 192

/-- The reply to a command, by its OP and STATUS (Table 14.4). -/
def State.answer (s : State) (h : CmdHeader) (op status : Nat) (body : List Byte) : State :=
  s.sendReply ⟨h.conn, op, status, h.seq, h.island, h.tag, body⟩

/-- A value of `n` bytes as bytes, little-endian. -/
def bytesOf (v : Nat) : Nat → List Byte
  | 0 => []
  | n + 1 => BitVec.ofNat 8 v :: bytesOf (v / 256) n

/-! ## Wait lists of words (R125) -/

/-- Does the word's state satisfy a request. -/
def WordReq.satisfied (r : WordReq) (full : Bool) : Bool :=
  match r with
  | .load .. => full
  | .produce _ _ _ | .append _ => !full

/-- The view of a thread named by a wait. -/
def State.viewOf (s : State) (k : ThreadKey) : View := ((s.thread? k).map (·.view)).getD ⟨0, 0, 0, 0, 0, 0, 0, 0⟩

/-- The scope of the memory of a location. -/
def locScope (x : Loc) : Scope := if isDram x then .dev else if isWay x then .stack else .clus

/-- A write to a word at its place: the core's own copy of a DRAM line is given up first, so that it does not hide the
write (R234), and the synchronising store of a release is recorded at home (R238). -/
def State.writeWord (s : State) (v : View) (x n val : Nat) : State :=
  if isDram x then ((s.giveUpLine (coreIndex v) (lineAt x)).poke x n val).recordCore (coreIndex v) (lineAt x)
  else s.poke x n val

/-- A result reaches a pending LDS entry; a thread that is parked for it wakes. -/
def State.grantEntry (s : State) (w : WordWait) (i : Nat) (f : Pend → Pend) : State :=
  let s1 := (s.modThread w.key (fun t => t.modPend i f)).refreshPending w.key
  match s1.thread? w.key with
  | none => s1
  | some t => if t.wait = .word w.word then s1.wake w.key else s1

/-- A request at the head of its list is performed (R125). A poisoned word lets an LDS go on to its fault (R301). -/
def State.performReq (s : State) (w : WordWait) : State :=
  let s1 := { s with waits := s.waits.erase w }
  let v := s.viewOf w.key
  match w.req with
  | .load consume entry lo size va =>
    let s2 := if isDram lo then s1.serveRecords (lineAt lo) else s1
    if s2.poisoned lo size then
      match entry with
      | none => s2.wake w.key
      | some i => s2.grantEntry w i (fun e => e.fail .poison va)
    else
      let x : Word := BitVec.ofNat 64 (s2.peek lo size)
      let s3 := if consume then s2.setFull w.word false else s2
      let s4 := s3.acquire v (locScope lo)
      match entry with
      | none => s4.wakeWith w.key x
      | some i => s4.grantEntry w i (fun e => { e with wait := .value, arrived := true, value := gVal x })
  | .produce lo size val => ((s1.writeWord v lo size val.toNat).setFull w.word true).wakeWith w.key 0
  | .append val => ((s1.writeWord v (8 * w.word) 8 val.toNat).setFull w.word true).wakeWith w.key 0

/-- A word's list is served from its head for as long as the head is satisfied. -/
def State.serveGo (s : State) (w : Nat) : Nat → State
  | 0 => s
  | n + 1 =>
    match s.waits.find? (fun u => u.word == w) with
    | none => s
    | some u => if u.req.satisfied (s.isFull w) then (s.performReq u).serveGo w n else s

/-- A word's list is served. -/
def State.serveWord (s : State) (w : Nat) : State := s.serveGo w s.waits.length

/-- A word's bit is changed and its list served. -/
def State.changeFull (s : State) (w : Nat) (full : Bool) : State := (s.setFull w full).serveWord w

/-- The wait lists of words in a range are served. -/
def State.serveRange (s : State) (lo n : Nat) : State :=
  (s.waits.filter (fun w => lo ≤ 8 * w.word && 8 * w.word < lo + n)).foldl (fun u w => u.serveWord w.word) s

/-- A range set to zero, every word full. -/
def State.clearRange (s : State) (lo n : Nat) : State :=
  { s with mem := memClear s.mem lo n, empty := setClear s.empty (lo / 8) (n / 8), poison := setClear s.poison (lo / 8) (n / 8) }

/-- A range set to zero, every word full, and the lists of its words served (R125). -/
def State.wipe (s : State) (lo n : Nat) : State := (s.clearRange lo n).serveRange lo n

/-! ## Transaction barriers (Table 5.8, R137) -/

/-- The fields of a barrier. What a plain store left in a reserved bit is ignored (R8). -/
structure Barrier where
  expect : Nat
  arrived : Nat
  value : Nat
  /-- Bits 103:96: OVER, LATE, FAULT, KILLED; the other four, like bits 111:104, are reserved and read 0 (R8). -/
  flags : BitVec 8
  gen : Nat
  done : Bool
  deriving DecidableEq, Repr

/-- The barrier that 16 bytes hold. -/
def barrierOf (x : Nat) : Barrier where
  expect := x % 2 ^ 32
  arrived := x / 2 ^ 32 % 2 ^ 32
  value := x / 2 ^ 64 % 2 ^ 32
  flags := BitVec.ofNat 8 (x / 2 ^ 96 % 16)
  gen := x / 2 ^ 112 % 2 ^ 15
  done := x / 2 ^ 127 % 2 == 1

/-- The 16 bytes of a barrier. -/
def Barrier.bits (b : Barrier) : Nat :=
  b.expect + b.arrived * 2 ^ 32 + b.value * 2 ^ 64 + b.flags.toNat * 2 ^ 96 + b.gen * 2 ^ 112 +
    (if b.done then 2 ^ 127 else 0)

/-- Saturation at 0xFFFF_FFFF. -/
def sat32 (n : Nat) : Nat := min n 0xFFFF_FFFF

/-- Complete() of R137. -/
def Barrier.complete (b : Barrier) : Barrier :=
  if b.arrived ≥ b.expect then { b with flags := if b.arrived > b.expect then b.flags ||| 1 else b.flags, done := true }
  else b

/-- TBINIT. -/
def Barrier.init (b : Barrier) (count : Nat) : Barrier :=
  Barrier.complete { b with expect := count, arrived := 0, value := 0, flags := 0, gen := (b.gen + 1) % 2 ^ 15, done := false }

/-- TBEXP. -/
def Barrier.expectMore (b : Barrier) (count : Nat) : Barrier :=
  if b.done then { b with flags := b.flags ||| 2 } else Barrier.complete { b with expect := sat32 (b.expect + count) }

/-- TBARV. -/
def Barrier.arrive (b : Barrier) (count : Nat) : Barrier :=
  let c := { b with arrived := sat32 (b.arrived + count) }
  if b.done then { c with flags := c.flags ||| 1 } else c.complete

/-- An engine arrival (R138): TBARV with count 1, a value, and the FAULT and KILLED bits. -/
def Barrier.engine (b : Barrier) (value : Option Nat) (fault killed : Bool) : Barrier :=
  let c := { b with value := (value.map (· % 2 ^ 32)).getD b.value
                    flags := b.flags ||| (if fault then 4 else 0) ||| (if killed then 8 else 0) }
  c.arrive 1

/-- The value of TBTEST. -/
def Barrier.test (b : Barrier) : Word :=
  BitVec.ofNat 64 ((if b.done then 2 ^ 63 else 0) + b.gen * 2 ^ 48 + b.flags.toNat * 2 ^ 32 + b.value)

/-- The barrier at a location. -/
def State.barrier (s : State) (x : Loc) : Barrier := barrierOf (s.peek x 16)

/-- Every waiter of a barrier wakes, and the WAIT commands on it are answered: their reads are acquires, so the records
of the line are served first (R238). -/
def State.wakeBarrier (s : State) (x : Loc) : State :=
  let ks := (s.threads.filter (fun t => t.wait == .barrier x)).map (·.key)
  let s0 := if isDram x && s.hostWaits.any (fun h => h.bar == x) then s.serveRecords (lineAt x) else s
  let s1 := ks.foldl State.wake s0
  let due := s1.hostWaits.filter (fun h => h.bar == x)
  let s2 := { s1 with hostWaits := s1.hostWaits.filter (fun h => h.bar != x) }
  due.foldl (fun u h => u.sendReply ⟨h.conn, 6, 0, h.seq, h.island, h.tag, bytesOf (u.barrier x).test.toNat 8⟩) s2

/-- A barrier changed at its place, indivisibly; when its generation completes its waiters wake. `rel` is the core whose
release the change carries, which is recorded on the line (R238). -/
def State.updBarrier (s : State) (x : Loc) (rel : Option Nat) (f : Barrier → Barrier) : State :=
  let s1 := if isDram x then s.stopeLine (lineAt x) else s
  let c := f (s1.barrier x)
  let s2 := s1.poke x 16 c.bits
  let s3 := match rel with
    | some k => if isDram x then s2.recordCore k (lineAt x) else s2
    | none => s2
  if c.done then s3.wakeBarrier x else s3

/-! ## Engine arrivals (R138) -/

/-- The faults of an access behind the port, as a cause. -/
def XRes.cause : XRes → Cause
  | .deny => .pageRight
  | .owner | .far => .owner
  | .beyond => .scratchBound
  | .ok _ | .park | .service _ _ => .owner

/-- An arrival that fails makes a record of the owner of the job that it completes (R182); what lies beyond the stack
scratchpad is dropped alone (R230). -/
def State.arrivalFault (s : State) (a : Arrival) (c : Cause) : State :=
  match a.owner with
  | none => s
  | some k =>
    if c = .scratchBound then s
    else s.lateFault (coreIndex a.bar.view) k 0 (a.bar.seg.base.toNat + a.bar.off) 16 true c

/-- An engine arrives at a barrier: at once, or, where a parking condition holds it, once the page is served. One
that fails otherwise is dropped. -/
def State.arrive (s : State) (a : Arrival) : State :=
  match s.locateNow a.bar.view a.bar.seg a.bar.off needRW with
  | .ok x =>
    if s.isFrozen x then s.arrivalFault a .frozen
    else s.updBarrier x none (fun b => b.engine a.value a.fault a.killed)
  | .park => { s with arrivals := s.arrivals ++ [a] }
  | .service l e =>
    let s1 := s.serviceFault a.bar.view a.kind (a.bar.seg.base.toNat + a.bar.off) l e
    { s1 with arrivals := s1.arrivals ++ [a] }
  | r => s.arrivalFault a r.cause

/-- The arrivals that were held are tried again. -/
def State.retryArrivals (s : State) : State := s.arrivals.foldl State.arrive { s with arrivals := [] }

end Sys2Proof.Machine
end

