-- ==== Sys2Proof/Machine/Crew.lean ====
section
/-! DEFINITION. How threads, crews and shifts end (spec/04, R87, R91, R92, R100; spec/11, R254; spec/13, R298). -/

namespace Sys2Proof.Machine

open Sys2Proof

/-! ## Looking up -/

/-- A crew by its shift and index. -/
def State.crew? (s : State) (c : Nat × Nat) : Option Crew := s.crews.find? (fun k => k.serial == c.1 && k.n == c.2)

/-- One crew changed. -/
def State.modCrew (s : State) (c : Nat × Nat) (f : Crew → Crew) : State :=
  { s with crews := s.crews.map (fun k => if k.serial == c.1 && k.n == c.2 then f k else k) }

/-- A shift by its serial number. -/
def State.shift? (s : State) (n : Nat) : Option Shift := s.shifts.find? (fun k => k.serial == n)

/-- One shift changed. -/
def State.modShift (s : State) (n : Nat) (f : Shift → Shift) : State :=
  { s with shifts := s.shifts.map (fun k => if k.serial == n then f k else k) }

/-- The threads of a crew. -/
def State.crewThreads (s : State) (c : Nat × Nat) : List Thread := s.threads.filter (fun t => t.inCrew c.1 c.2)

/-- The matrix engine of a cluster; one never used is empty. -/
def State.matrixEng (s : State) (cl : Nat) : MatrixEng :=
  (s.matrix.find? (fun m => m.cluster == cl)).getD ⟨cl, [], [], 1, [], [], [], 0, false, false⟩

/-- A matrix engine set. -/
def State.setEng (s : State) (m : MatrixEng) : State :=
  { s with matrix := if s.matrix.any (fun k => k.cluster == m.cluster)
                     then s.matrix.map (fun k => if k.cluster == m.cluster then m else k)
                     else s.matrix ++ [m] }

/-! ## Barriers of a crew (R100) -/

/-- The dirty bytes and buffer entries of a core are all written back, with the stores that may leave its port. -/
def State.flushCore (s : State) (c : Nat) : State :=
  let s1 := (s.flushPort c).drainWcb c (fun _ => true)
  let cover (l : L1Line) : L1Line := { l with covered := l.dirty }
  (s1.modCore c (fun k => { k with l1 := k.l1.map cover })).drainCovered c

/-- The generation completes when every thread that has not retired has arrived: the cores drain what the arrivals
covered, and every waiter wakes with an acquire. -/
def State.barcCheck (s : State) (c : Nat × Nat) : State :=
  match s.crew? c with
  | none => s
  | some k =>
    let ts := s.crewThreads c
    if k.barc.isEmpty || ts.any (fun t => t.live && !k.barc.contains t.tid) then s
    else
      let ws := ts.filter (fun t => k.barc.contains t.tid)
      let s1 := ws.foldl (fun u t => u.drainCovered (coreIndex t.view)) s
      let s2 := s1.modCrew c (fun q => { q with barc := [] })
      (ws.filter Thread.live).foldl (fun u t => (u.acquire t.view .clus).wakeWith t.key 0) s2

/-! ## Completion of a shift (R254) -/

/-- VALUE of the completion arrival (Table 11.6). -/
def completionValue (code : Cause → Nat) (k : Shift) : Nat :=
  (if k.killed then 2 else if k.term then 1 else 0) + ((k.cause.map code).getD 0) * 256 + min k.nterm 0xFFFF * 65536

/-- Is the thread one of a shift's. -/
def ThreadKey.ofShift (k : ThreadKey) (n : Nat) : Bool :=
  match k with
  | .crew a _ _ => a == n
  | .handler _ => false

/-- Is the thread one of a crew's. -/
def ThreadKey.ofCrew (k : ThreadKey) (serial n : Nat) : Bool :=
  match k with
  | .crew a b _ => a == serial && b == n
  | .handler _ => false

/-- Is a store of the shift's threads still held, at a port, or on its way to memory. -/
def State.storesOwed (s : State) (n : Nat) : Bool :=
  s.held.any (fun h => ThreadKey.ofShift h.key n) || s.cores.any (fun c => c.port.any (fun p => ThreadKey.ofShift p.key n)) ||
    s.msgs.any (fun m => ThreadKey.ofShift m.key n)

/-- A shift that has left its queue and has no crew left completes, once every store, RED and APND of its threads is
performed, those to far memory acknowledged: the arrival is a release at .sys. -/
def State.shiftCheck (s : State) (n : Nat) : State :=
  match s.shift? n with
  | none => s
  | some k =>
    let s1 := if !k.gone || k.live != 0 || s.msgs.isEmpty then s else s.performMsgs (fun m => ThreadKey.ofShift m.key n)
    if !k.gone || k.live != 0 || s1.storesOwed n then s1
    else
      let s2 := { s1 with shifts := s1.shifts.filter (fun q => q.serial != n)
                          farOut := s1.farOut.filter (fun m => !(ThreadKey.ofShift m.key n && m.isRed m.key)) }
      match k.done with
      | none => s2
      | some b => s2.arrive ⟨b, some (completionValue Cause.code k), k.term, k.killed, 0, none⟩

/-! ## Ending a thread -/

/-- A retired thread: its slot is free and its state discarded. -/
def Thread.retire (t : Thread) : Thread := { Thread.blank t.key with role := t.role, view := t.view, last := t.last }

/-- A job whose owner ends: a suspended one ends FAULT (R184); a killed owner ends the others (R186). -/
def Job.ownerEnds (j : Job) (killed : Bool) : Job :=
  if j.fin.isSome then j
  else if j.state = .suspended then { j with fin := some .fault }
  else if killed then { j with fin := some .killed }
  else j

/-- The engine's work of a thread that ends. A waiting drain of a killed thread is withdrawn; one that has begun writing
finishes (R92). -/
def MatrixEng.ownerEnds (m : MatrixEng) (key : ThreadKey) (killed : Bool) : MatrixEng :=
  let upd (o : MatrixOp) : MatrixOp := match o with
    | .job j => if j.key = key then .job (j.ownerEnds killed) else o
    | _ => o
  let stays (o : MatrixOp) : Bool := match o with
    | .drain d => !(killed && d.key == key && !d.begun)
    | _ => true
  { m with ops := (m.ops.filter stays).map upd }

/-- Does an operation of the engine belong to a thread of the crew. -/
def MatrixOp.ofCrew (c : Nat × Nat) (o : MatrixOp) : Bool :=
  let is (k : ThreadKey) : Bool := match k with
    | .crew a b _ => a == c.1 && b == c.2
    | .handler _ => false
  match o with
  | .job j => is j.key
  | .load _ _ k _ _ _ => is k
  | .drain d => is d.key
  | .clear _ _ | .zero _ _ | .release _ _ => false

/-- Is an operation of the engine a job of the crew. -/
def MatrixOp.jobOf (c : Nat × Nat) (o : MatrixOp) : Bool :=
  match o with
  | .job _ => o.ofCrew c
  | .load .. | .drain _ | .clear .. | .zero .. | .release .. => false

/-- A retired crew returns its tiles when its jobs have ended, whatever else of its is still on the way (R87). -/
def State.returnTiles (s : State) (cl : Nat) : State :=
  let m := s.matrixEng cl
  let ended (c : Nat × Nat) : Bool :=
    ((s.crew? c).map (·.retired)).getD true && !m.ops.any (fun o => o.jobOf c)
  if m.owners.isEmpty then s else s.setEng { m with owners := m.owners.filter (fun o => !ended (o.2.1, o.2.2)) }

/-- A gang that loses a member records it (R181). -/
def State.gangLoss (s : State) (c : Nat × Nat) : State :=
  match (s.crew? c).bind (·.gang) with
  | none => s
  | some (g, pos) =>
    { s with gangs := s.gangs.map (fun k => if k.id = g && k.failed.isNone then { k with failed := some pos } else k) }

/-- A crew whose last thread has retired retires: its cores write back what its threads stored (R87). -/
def State.crewCheck (s : State) (c : Nat × Nat) : State :=
  match s.crew? c with
  | none => s
  | some k =>
    if k.retired || (s.crewThreads c).any Thread.live then s
    else
      let s1 := s.modCrew c (fun q => { q with retired := true, barc := [] })
      let s2 := ((((s1.flushCore (4 * k.cluster)).flushCore (4 * k.cluster + 1)).flushCore (4 * k.cluster + 2)).flushCore
        (4 * k.cluster + 3))
      let s3 := s2.returnTiles k.cluster
      (s3.modShift c.1 (fun q => { q with live := q.live - 1 })).shiftCheck c.1

/-- Does a held store of a thread that ends stay to be performed (R92). The units of STS.PRODUCE and APND have not
completed, and their requests are withdrawn (R125, R133). -/
def HeldStore.stays (h : HeldStore) : Bool :=
  match h.op with
  | .plain | .memory _ | .bit _ | .barrier _ _ | .sts true => true
  | .sts false | .append | .slot => false

/-- A thread ends, by EXIT or killed (R92): its waits are withdrawn, its pending entries and records discarded, and
its crew goes on without it. What waited at its port for its loads leaves the port. -/
def State.endThread (s : State) (key : ThreadKey) (killed : Bool) : State :=
  match s.thread? key with
  | none => s
  | some t =>
    if !t.live then s
    else
      let leave (q : Queue) : Queue := { q with waiters := q.waiters.filter (fun k => k != key), woken := q.woken.filter (fun k => k != key) }
      let noWait (i : Island) : Island := { i with queues := i.queues.map leave }
      let s1 := { s with waits := s.waits.filter (fun w => w.key != key)
                         faults := s.faults.filter (fun f => f.key != key)
                         held := s.held.filter (fun h => h.key != key || h.stays)
                         loads := s.loads.filter (fun h => h.key != key)
                         wakes := s.wakes.filter (fun k => k != key)
                         pageReqs := s.pageReqs.filter (fun p => p.1 != key)
                         islands := s.islands.map noWait }
      let s2 := (s1.modThread key Thread.retire).flushPort (coreIndex t.view)
      let s3 := s2.setEng ((s2.matrixEng t.view.cluster).ownerEnds key killed)
      match key with
      | .handler _ => s3
      | .crew a b _ =>
        let s4 := if killed then s3.gangLoss (a, b) else s3
        (s4.barcCheck (a, b)).crewCheck (a, b)

/-- Every thread of a crew ends, killed. -/
def State.endCrew (s : State) (c : Nat × Nat) : State :=
  ((s.crewThreads c).map (·.key)).foldl (fun u k => u.endThread k true) s

/-- A crew is terminated with a cause (R298): FAULT and the first CAUSE. -/
def State.terminateCrew (s : State) (c : Nat × Nat) (cause : Cause) : State :=
  let s1 := s.modShift c.1 (fun q =>
    { q with nterm := q.nterm + 1, term := true, cause := match q.cause with | none => some cause | some x => some x })
  s1.endCrew c

/-- A crew is killed (R91, R254). -/
def State.killCrew (s : State) (c : Nat × Nat) : State :=
  (s.modShift c.1 (fun q => { q with nterm := q.nterm + 1, killed := true })).endCrew c

/-- The crews of a shift. -/
def Shift.crewCount (k : Shift) : Nat := k.ncx * k.ncy * k.nstage

/-- The first thread parked for room in a queue that has not been woken wakes (Table 11.8). It keeps its place until its unit
is issued again. -/
def State.wakeQueue (s : State) (isl q : Nat) : State :=
  match (s.island? isl).bind (fun i => i.queues.find? (fun u => u.num == q)) with
  | none => s
  | some u =>
    match u.waiters.find? (fun k => !u.woken.contains k) with
    | none => s
    | some k =>
      let mark (w : Queue) : Queue := if w.num = q then { w with woken := w.woken ++ [k] } else w
      (s.modIsland isl (fun i => { i with queues := i.queues.map mark })).wake k

/-- A thread waits for room in no queue any more; where it was woken and leaves room, the next one wakes (R261). -/
def State.leaveQueues (s : State) (k : ThreadKey) : State :=
  let had (q : Queue) : Bool := q.waiters.contains k
  if !s.islands.any (fun i => i.queues.any had) then s
  else
    let leave (q : Queue) : Queue := { q with waiters := q.waiters.filter (fun j => j != k), woken := q.woken.filter (fun j => j != k) }
    let s1 := { s with islands := s.islands.map (fun i => { i with queues := i.queues.map leave }) }
    let next (u : State) (i : Island) : State :=
      (i.queues.filter (fun q => had q && q.woken.contains k && decide (q.shifts.length < 256))).foldl (fun w q => w.wakeQueue i.num q.num) u
    s.islands.foldl next s1

/-- The head packet of a queue, as it reaches the head: the queue's effective priority is its PRIO, and it is Ready
unless it names a dependence barrier (R249, R250). -/
def State.reachHead (s : State) (isl q : Nat) : State :=
  match ((s.island? isl).bind (fun i => i.queues.find? (fun u => u.num == q))).bind (fun u => u.shifts.head?) with
  | none => s
  | some n =>
    match s.shift? n with
    | none => s
    | some k =>
      let up (w : Queue) : Queue := if w.num = q then { w with eff := k.prio } else w
      (s.modIsland isl (fun i => { i with queues := i.queues.map up })).modShift n (fun x => { x with ready := x.dep.isNone })

/-- A packet leaves its queue: the next one may reach the head, and the first thread parked for room wakes. -/
def State.leaveQueue (s : State) (k : Shift) : State :=
  let head := ((s.island? k.island).bind (fun i => i.queues.find? (fun u => u.num == k.queue))).bind (fun u => u.shifts.head?)
  let out (q : Queue) : Queue := if q.num = k.queue then { q with shifts := q.shifts.filter (fun n => n != k.serial) } else q
  let s1 := s.modIsland k.island (fun i => { i with queues := i.queues.map out })
  let s2 := (s1.modShift k.serial (fun q => { q with gone := true })).wakeQueue k.island k.queue
  if head = some k.serial then s2.reachHead k.island k.queue else s2

/-- A shift is killed (R91, R254): its dispatched crews end, the others are withdrawn and count as killed. -/
def State.killShift (s : State) (n : Nat) : State :=
  match s.shift? n with
  | none => s
  | some k =>
    let live := s.crews.filter (fun c => c.serial == n && !c.retired)
    let left := if k.gone then 0 else k.crewCount - k.next * k.gangLen
    let s1 := s.modShift n (fun q => { q with killed := true, nterm := q.nterm + left })
    let s2 := if k.gone then s1 else s1.leaveQueue k
    (live.foldl (fun u c => u.killCrew (c.serial, c.n)) s2).shiftCheck n

end Sys2Proof.Machine
end

