-- ==== Sys2Proof/Machine/Ops.lean ====
section
/-! DEFINITION. The shared operations: reading instruction words and checking targets (spec/02, R39 to R42), taking a
trap and returning from one (spec/13, R295; spec/02, R36, R42), parking on a page (R292), the segment checks (R30,
R116), and plain loads and stores through a segment. -/

namespace Sys2Proof.Machine

open Sys2Proof

/-- A number as a word. -/
def wordOf (n : Nat) : Word := BitVec.ofNat 64 n

/-! ## Parking on a page -/

/-- The thread parks until a page is served; the walker keeps the order of parking (Table 11.8). -/
def State.parkPage (s : State) (va : Nat) : State :=
  let entry := (s.thr.key, s.thr.view.island, va / 65536)
  let s1 := if s.pageReqs.contains entry then s else { s with pageReqs := s.pageReqs ++ [entry] }
  s1.park (.page va)

/-! ## Instruction words -/

/-- What reading an instruction word gives. -/
inductive FetchRes where
  | ok (w : BitVec 32)
  | park (va : Nat)
  | service (va level entry : Nat)
  | fail (c : Cause)
  deriving DecidableEq, Repr

/-- The instruction word at an address, read at home under the rights of a fetch (R41, R287). -/
def fetchWord (s : State) (v : View) (a : Nat) : FetchRes :=
  if badAddress a then .fail .addrForm
  else
    match s.island? v.island with
    | none => .fail .owner
    | some i =>
      match s.resolveVa i v.cluster a needX true with
      | .ok x =>
        if s.poisoned x 4 then .fail .poison
        else .ok (BitVec.ofNat 32 ((s.serveRecords (lineAt x)).peek x 4))
      | .park => .park a
      | .service l e => .service a l e
      | .deny => .fail .pageRight
      | .owner => .fail .owner
      | .far | .beyond => .fail .addrForm

/-- What the check of a transfer target gives. -/
inductive TargetRes where
  | ok
  | park (va : Nat)
  | service (va level entry : Nat)
  | trap (c : Cause) (i0 : Word)
  deriving DecidableEq, Repr

/-- The check of a transfer target (R41). -/
def checkTarget (s : State) (v : View) (t : Word) : TargetRes :=
  let a := t.toNat
  if a / 2 ^ 52 ≠ 0 then .trap .addrForm t
  else if a % 4 ≠ 0 then .trap .badTarget t
  else if a % 8 = 0 then .ok
  else
    match fetchWord s v a with
    | .park va => .park va
    | .service va l e => .service va l e
    | .fail c => .trap c t
    | .ok w =>
      match fetchWord s v (a - 4) with
      | .park va => .park va
      | .service va l e => .service va l e
      | .fail c => .trap c t
      | .ok p =>
        if w.getLsbD 31 && !p.getLsbD 31 && !p.getLsbD 30 then .trap .midPair t
        else if !w.getLsbD 31 && !w.getLsbD 30 then .trap .pairAlign t
        else .ok

/-! ## Traps (R295) -/

/-- Has the entry failed: a fault, or a parking condition. -/
def Pend.failed (e : Pend) : Bool :=
  match e.wait with
  | .fault _ _ _ | .park _ _ => true
  | .value | .atomic | .listed | .far | .port => false

/-- Has the handler a pending entry of its own whose value is still to come. -/
def Thread.handlerOpen (t : Thread) : Bool := t.hstate && t.pending.any (fun e => e.ofHandler && e.isOpen && !e.failed)

/-- The oldest pending entry of the handler's own that has failed. -/
def Thread.ownFailed (t : Thread) : Option Pend := if t.hstate then t.pending.find? (fun e => e.ofHandler && e.failed) else none

/-- The entry's fault or parking condition is known. -/
def Pend.know (e : Pend) : Pend :=
  match e.wait with
  | .fault c va _ => { e with wait := .fault c va true }
  | .park va _ => { e with wait := .park va true }
  | .value | .atomic | .listed | .far | .port => e

/-- The handler's own pending entries land (R35 item 4, R295). One that has failed stays due (R296). -/
def Thread.landHandler (t : Thread) : Thread :=
  let good := t.pending.filter (fun e => e.ofHandler && e.wait == .value)
  { good.foldl Thread.land t with
    pending := (t.pending.filter (fun e => !e.ofHandler || e.failed)).map (fun e => if e.ofHandler then e.know else e) }

/-- A call or field handler ends with status FAULT: the cause code, and the offset of its unit within s1 (R193). -/
def Thread.handlerFault (t : Thread) (c : Cause) : Thread :=
  { t.hold with ended := some (1, 2, [BitVec.ofNat 64 c.code, (t.unitPc - t.segs[1].base).zeroExtend 64]) }

/-- The registers that trap entry writes (R295). -/
def Thread.trapEntry (t : Thread) (c : Cause) (i0 i1 : Word) (resume : BitVec 52) (rpl : Bool) (left : Nat) : Thread :=
  { t.landHandler with
    tcause := BitVec.ofNat 8 c.code
    tinfo0 := i0
    tinfo1 := i1
    tpc := resume.zeroExtend 64 ||| (if rpl then 0x0800_0000_0000_0000 else 0) ||| BitVec.ofNat 64 (left * 2 ^ 60)
    hstate := true
    pc := t.tvec
    unitEnd := .held
    grant := none
    grantTrap := if t.hstate then none else t.grantTrap
    replay := none
    replaying := none
    status := .ready
    wait := .none }

/-- Can the trap handler be entered: its target passes R41 and its unit can be fetched. -/
def State.vectorOk (s : State) : Bool :=
  match checkTarget s s.thr.view (s.thr.tvec.zeroExtend 64), fetchWord s s.thr.view s.thr.tvec.toNat with
  | .trap _ _, _ => false
  | _, .fail _ => false
  | _, _ => true

/-- TrapEntry (R295): the handler is entered, or the crew is terminated where there is none (R298). A handler of a
call or field ends instead (R193). A trap within trap service first waits for the handler's own pending entries. -/
def State.enterTrap (s : State) (c : Cause) (i0 i1 : Word) (resume : BitVec 52) (rpl : Bool) (left : Nat) : State :=
  if s.thr.isHandler then s.onThr (fun t => t.handlerFault c)
  else if s.thr.handlerOpen then s.stall
  else if s.thr.tvec = 0 || !s.vectorOk then s.terminateCrew s.thr.crewId c
  else s.onThr (fun t => t.trapEntry c i0 i1 resume rpl left)

/-- The entries of one access leave: CAS2 has two. -/
def Thread.dropAccess (t : Thread) (e : Pend) : Thread :=
  { t with pending := t.pending.filter (fun f => f.access != e.access) }

/-- A parking condition is taken: the thread parks, with a replay of the access due (R36). -/
def State.takePark (s : State) (e : Pend) : State :=
  match e.wait with
  | .park va _ =>
    (s.onThr (fun t => { t.dropAccess e with replay := some ⟨e.pc, e.left, some e.access, e.acq⟩ })).parkPage va
  | .value | .atomic | .listed | .far | .port | .fault _ _ _ => s

/-- An access of the code that a trap would interrupt has met a parking condition: the thread parks first, and the trap is
taken when it goes on. DESIGN CHOICE (log 16): a parking condition is known before a trap handler is entered, since the
handler's accesses would wait for a replay that comes after its ERET. A trap that a replay meets is taken at once. -/
def State.parkFirst (s : State) : Option Pend :=
  if s.thr.hstate || s.thr.isHandler || s.thr.tvec == 0 || s.thr.replay.isSome then none else s.thr.pending.find? Pend.parked

/-- A failed entry is taken: a parking condition parks the thread, with a replay due (R36); any other fault traps with
RPL and LEFT (R35 item 2). A shrunk stack scratchpad is taken at the entry's own unit (R230). -/
def State.takeFailed (s : State) (e : Pend) : State :=
  match e.wait with
  | .park _ _ => s.takePark e
  | .fault c va _ =>
    let s1 := s.onThr (fun t => t.dropAccess e)
    match s.parkFirst with
    | some p => s.takePark p
    | none =>
      if s1.thr.handlerOpen then s.stall
      else if c = .scratchBound then
        let z := ((s.island? s.thr.view.island).map (fun i => i.zOf i.zWays)).getD 0
        s1.enterTrap c (wordOf va) (wordOf z) e.pc false 0
      else s1.enterTrap c (wordOf va) (e.pc.zeroExtend 64) s.thr.pc true e.left
  | .value | .atomic | .listed | .far | .port => s

/-- The handler's own windows end: its atomics are performed, and a failed entry of its own is taken first, as what is
due before the unit (R35 item 4, R295, R296). -/
def State.endWindows (s : State) (k : State → State) : State :=
  if !s.thr.hstate then k s
  else
    let s1 := if s.msgs.isEmpty then s else s.performMsgs (fun m => m.op.answers && m.key == s.thr.key)
    match s1.thr.ownFailed with
    | some e => s1.takeFailed e
    | none => k s1

/-- A precise trap at the issue of the unit (R35 item 1): the unit has no effect and %tpc holds its address. -/
def State.trap (s : State) (c : Cause) (i0 i1 : Word) : State :=
  match s.parkFirst with
  | some p => s.takePark p
  | none => s.endWindows fun s => s.enterTrap c i0 i1 s.thr.unitPc false 0

/-- The trap of a fault behind the port of an instruction that is not long-latency (R292): %tinfo0 the virtual
address, %tinfo1 the address of the unit. -/
def State.trapUnit (s : State) (c : Cause) (va : Nat) : State := s.trap c (wordOf va) (s.thr.unitPc.zeroExtend 64)

/-- A trap decided by a check. -/
structure TrapInfo where
  cause : Cause
  i0 : Word
  i1 : Word
  deriving DecidableEq, Repr

/-- The unit goes on unless a check failed. -/
def State.unless (s : State) (t : Option TrapInfo) (k : State → State) : State :=
  match t with
  | some i => s.trap i.cause i.i0 i.i1
  | none => k s

/-- The first failing check. -/
def firstTrap : List (Option TrapInfo) → Option TrapInfo
  | [] => none
  | some t :: _ => some t
  | none :: l => firstTrap l

/-! ## Transfers of control -/

/-- Does a handler's transfer stay in its region (R193). -/
def Thread.inRegion (t : Thread) (a : Nat) : Bool :=
  !t.isHandler || (t.segs[1].base.toNat ≤ a && a + 4 ≤ t.segs[1].base.toNat + t.segs[1].len)

/-- A transfer to a target: the check, then the effect of the unit and the transfer (R40, R41). A handler never parks: its
engine stalls (R192, R292). DESIGN CHOICE (log 120): the check comes before that of the handler's region, since R193 gives no
order of the two. -/
def State.transfer (s : State) (target : Word) (f : Thread → Thread) : State :=
  match checkTarget s s.thr.view target with
  | .trap c i0 => s.trap c i0 0
  | .park va => if s.thr.isHandler then s.stall else s.parkPage va
  | .service va l e =>
    if s.thr.isHandler then (s.serviceFault s.thr.view 3 va l e).stall else (s.serviceFault s.thr.view 0 va l e).parkPage va
  | .ok =>
    if s.thr.inRegion target.toNat then s.onThr (fun t => (f t).goto (target.truncate 52))
    else s.trap .badTarget target 0

/-- The target of a relative branch (R44): the address of the unit plus 4 × the offset, in 64 bits. -/
def Thread.branchTarget (t : Thread) {w : Nat} (off : BitVec w) : Word :=
  t.unitPc.zeroExtend 64 + (off.signExtend 64 <<< 2)

/-! ## Segment checks (R30, R116) -/

def rightR : BitVec 8 := 1
def rightW : BitVec 8 := 2
def rightX : BitVec 8 := 4
def rightS : BitVec 8 := 8
def rightA : BitVec 8 := 16
def rightE : BitVec 8 := 32
def rightF : BitVec 8 := 64
def rightH : BitVec 8 := 128

/-- The kinds of access that Table 5.1 tells apart. -/
inductive Acc where
  | load | store | nibble | fe | atomic | append | xferSrc | xferDst | gathSrc | gathDst
  deriving DecidableEq, Repr

/-- Does Table 5.1 permit the access in a space. A far load needs a segment without W (R30). -/
def Acc.permits (k : Acc) (g : Seg) : Bool :=
  let sp := g.space.toNat
  match k with
  | .load => sp ≤ 6 || sp == 8 || (sp == 7 && g.rights &&& rightW == 0)
  | .store | .nibble => sp ≤ 6
  | .fe | .append => 2 ≤ sp && sp ≤ 6
  | .atomic => 2 ≤ sp && sp ≤ 7
  | .xferSrc => 2 ≤ sp && sp ≤ 6
  | .xferDst => 2 ≤ sp && sp ≤ 7
  | .gathSrc => 4 ≤ sp && sp ≤ 7
  | .gathDst => 2 ≤ sp && sp ≤ 6

/-- The checks of R30 on one access: rights and space, bounds, alignment (1 where none is needed). `idx` is the
segment or handle number. -/
def segCheck (g : Seg) (idx : Nat) (off : Nat) (size align : Nat) (rights : BitVec 8) (ok : Bool) : Option TrapInfo :=
  if g.rights &&& rights != rights || !ok then some ⟨.segRight, wordOf off, wordOf idx⟩
  else if off + size > g.len then some ⟨.segBound, wordOf off, wordOf idx⟩
  else if off % align != 0 then some ⟨.align, wordOf off, wordOf idx⟩
  else none

/-- The checks after R30: SCRATCHBOUND, by the size that the cores hold (R228), then ADDRFORM of a virtual address, be it
this island's or a far one's (R283). -/
def formCheck (s : State) (v : View) (g : Seg) (off size : Nat) : Option TrapInfo :=
  let a := g.base.toNat + off
  if g.space = spStack then
    let z := ((s.island? v.island).map (fun i => i.zOf i.zWays)).getD 0
    if a ≥ z ∨ a + size > z then some ⟨.scratchBound, wordOf a, wordOf z⟩ else none
  else if g.isVirtual then
    if badAddress a then some ⟨.addrForm, wordOf a, 0⟩
    else if badAddress (a + size - 1) then some ⟨.addrForm, wordOf (a + size - 1), 0⟩
    else none
  else none

/-- The checks of an access of `size` bytes through segment register `s`. -/
def State.accCheck (s : State) (i : BitVec 3) (off size align : Nat) (rights : BitVec 8) (k : Acc) : Option TrapInfo :=
  let g := s.thr.seg i
  firstTrap [segCheck g i.toNat off size align rights (k.permits g), formCheck s s.thr.view g off size]

/-! ## The port (R235, R236, R239) -/

/-- The place of the access of the unit at issue in the order of the port: the step in which it comes; a replay comes before
what the thread has issued after the access that it renews. -/
def State.portOrd (s : State) : Nat :=
  match s.thr.replaying.bind (·.access) with
  | none => s.draw
  | some a =>
    ((s.portItems (coreIndex s.thr.view)).filter (fun i => i.key == s.thr.key && decide (a < i.num))).foldl
      (fun o i => min o i.ord) s.draw

/-- The access of the unit at issue, as it comes to the port: a load, or an atomic, under its number; a store after every
access before it. -/
def State.item (s : State) (k : PortKind) (ranges : List (Loc × Nat)) : PortItem :=
  let n := if k = .load ∨ k = .atom then s.thr.accessNum else s.thr.pendSeq
  ⟨s.thr.key, k, n, s.portOrd, ranges, false⟩

/-- An access that only reads and whose result the unit needs: while an acquire is open the port holds it, and the thread
stalls (R239). -/
def State.readGate (s : State) (k : State → State) : State :=
  if s.thr.acquireBelow s.thr.accessNum then s.stall else k s

/-- A release, or work for an engine: the thread's earlier atomics are performed and its stores leave the port first, and
the unit waits while an earlier access is open (R236, R237). -/
def State.writeGate (s : State) (k : State → State) : State :=
  let c := coreIndex s.thr.view
  let s1 := (if s.msgs.isEmpty then s else s.performMsgs (fun m => m.op.answers && m.key == s.thr.key)).flushPort c
  if s1.thr.loadsOpen || s1.portOf c s1.thr.key then s1.stall else k s1

/-- A release at .dev whose effect does not wait behind a synchronising store: the thread's REDs and nibble stores are
performed too (R98, R237). -/
def State.deviceGate (s : State) (k : State → State) : State :=
  s.writeGate fun s =>
    let s1 := if s.msgs.isEmpty then s else s.performMsgs (fun m => m.key == s.thr.key)
    if s1.msgs.any (fun m => m.key == s1.thr.key) then s1.stall else k s1

/-- An access of the unit at issue that must be performed at once: what stands before it at the port goes first, and the
unit stalls while something there does not (R235). A handler has no port. -/
def State.portGate (s : State) (k : PortKind) (x n : Nat) (go : State → State) : State :=
  if s.thr.isHandler then go s
  else
    let c := coreIndex s.thr.view
    let s1 := s.portOpen c (s.item k [(x, n)])
    if s1.portFree c (s1.item k [(x, n)]) then go s1 else s1.stall

/-! ## Places -/

/-- A location for the thread at issue. A handler's accesses go straight to its bank group, and only the frame is
checked (R191, R195). -/
def State.place (s : State) (t : Thread) (g : Seg) (off : Nat) (n : Need) (load : Bool) : XRes :=
  if t.isHandler then
    match s.island? t.view.island with
    | none => .owner
    | some i => s.frameCheck i ((g.base.toNat + off) % 2 ^ 39) false
  else s.locate t.view g off n load

/-- The location for a plain load: bytes that L1 holds are not fetched, so their frame is not checked (R291). -/
def State.placeLoad (s : State) (t : Thread) (g : Seg) (off n : Nat) : XRes :=
  if t.isHandler || !g.isDram then s.place t g off needR true
  else
    match s.island? t.view.island with
    | none => .owner
    | some i =>
      match translate s i t.view.cluster (g.base.toNat + off) needR with
      | .ok x => if g.policy != 2 && s.l1Holds (coreIndex t.view) x n then .ok x else s.frameCheck i x true
      | r => r

/-- Do `n` bytes at a DRAM location, within one bank group, meet the field's rows that begin at `lo` in each of its
groups (R264). -/
def Field.meets (f : Field) (lo x n : Nat) : Bool :=
  isDram x && f.groups.contains (engineAt x) && x % 2 ^ 26 < lo + 1024 * f.rows && lo < x % 2 ^ 26 + n

/-- Is the location in the STATE of a running field of the island (R210). -/
def State.inRunningField (s : State) (isl x n : Nat) : Bool :=
  s.fields.any (fun f => f.island == isl && (f.st == .running || f.st == .stopping) && f.meets f.slab x n)

/-- The pieces of a range between the multiples of `step`: offset from its start, and size. -/
def rangePieces (step a n : Nat) : List (Nat × Nat) :=
  (List.range (n / step + 2)).filterMap (fun j =>
    let lo := max a ((a / step + j) * step)
    let hi := min (a + n) ((a / step + j + 1) * step)
    if lo < hi then some (lo - a, hi - lo) else none)

/-- A write range that meets the STATE of a running field traps FIELDWRITE at issue (R210). -/
def State.fieldCheck (s : State) (g : Seg) (off n : Nat) : Option TrapInfo :=
  if s.fields.isEmpty || !g.isDram then none
  else
    let bad (p : Nat × Nat) : Bool := match s.place s.thr g p.1 needNone false with
      | .ok x => s.inRunningField s.thr.view.island x p.2
      | _ => false
    if ((rangePieces 4096 (g.base.toNat + off) n).map (fun p => (off + p.1, p.2))).any bad then some ⟨.fieldWrite, wordOf off, 0⟩ else none

/-! ## Plain loads -/

/-- What a plain load finds behind the port. -/
inductive LoadRes where
  | value (v : Nat)
  | park (va : Nat)
  | fault (c : Cause) (va : Nat)
  /-- The port holds it: something stands before it there (R235, R239). -/
  | wait
  deriving DecidableEq, Repr

/-- One piece of a load at its location. The STATE of a running field and code are read at home, and what the core's buffer
holds of their window line is over it (R210, R220). -/
def State.loadAt (s : State) (v : View) (g : Seg) (va x n : Nat) : State × LoadRes :=
  let c := coreIndex v
  if !isDram x then
    if s.poisoned x n then (s, .fault .poison va) else (s, .value (s.peek x n))
  else if s.inRunningField v.island x n || g.space = spCode then
    let s1 := s.stopeLine (lineAt x)
    if s1.homePoison c va x n false then (s1, .fault .poison va) else (s1, .value (s1.wcbOver c va x n (s1.peek x n)))
  else
    match s.loadLine c va x n g.policy with
    | (s1, some v) => (s1, .value v)
    | (s1, none) => (s1, .fault .poison va)

/-- One piece of a handler's load, at its bank group (R190). -/
def State.nearAt (s : State) (va x n : Nat) : State × LoadRes :=
  let s1 := if isDram x then s.stopeLine (lineAt x) else s
  if s1.poisoned x n then (s1, .fault .poison va) else (s1, .value (s1.peek x n))

/-- The pieces of a load of elements of `n` bytes, given by number and offset: the offset of each, its size, and the byte of
the result at which it goes. -/
def Seg.loadParts (g : Seg) (n : Nat) (elems : List (Nat × Nat)) : List (Nat × Nat × Nat) :=
  elems.flatMap (fun e => (g.pieces e.2 n).map (fun p => (p.1, p.2, n * e.1 + (p.1 - e.2))))

/-- The pieces of a load are placed in order, up to one that fails: its virtual address and what it meets. -/
def State.placeParts (s : State) (t : Thread) (g : Seg) : List (Nat × Nat × Nat) → List LoadPart × Option (Nat × XRes)
  | [] => ([], none)
  | p :: ps =>
    match s.placeLoad t g p.1 p.2.1 with
    | .ok x =>
      let r := s.placeParts t g ps
      (⟨g.base.toNat + p.1, x, p.2.1, p.2.2⟩ :: r.1, r.2)
    | r => ([], some (g.base.toNat + p.1, r))

/-- The pieces of a load are read in order; the first failure decides. -/
def State.readParts (s : State) (v : View) (near : Bool) (g : Seg) : List LoadPart → Nat → State × LoadRes
  | [], acc => (s, .value acc)
  | p :: ps, acc =>
    match (if near then s.nearAt p.va p.loc p.size else s.loadAt v g p.va p.loc p.size) with
    | (s1, .value x) => s1.readParts v near g ps (acc + x * 256 ^ p.at_)
    | r => r

/-- A piece of a load that found no place (Table 13.4). -/
def State.loadFailure (s : State) (v : View) (near : Bool) (va : Nat) : XRes → State × LoadRes
  | .park => (s, .park va)
  | .service l e => (s.serviceFault v (if near then 3 else 0) va l e, .park va)
  | r => (s, .fault r.cause va)

/-- The pieces of a load that nothing holds: the first failure decides. -/
def State.loadPlaced (s : State) (v : View) (near : Bool) (g : Seg) (r : List LoadPart × Option (Nat × XRes)) : State × LoadRes :=
  match s.readParts v near g r.1 0, r.2 with
  | (s1, .value _), some f => s1.loadFailure v near f.1 f.2
  | q, _ => q

/-- The bytes of the pieces of a plain load of the unit at issue. What goes before it at the port goes; where something
there still stands before it, or an acquire of the thread is open (R239), the port holds the load. Lane memory is the
thread's own, and waits for nothing. -/
def State.loadElems (s : State) (g : Seg) (ps : List (Nat × Nat × Nat)) : State × LoadRes :=
  let v := s.thr.view
  let r := s.placeParts s.thr g ps
  if s.thr.isHandler then s.loadPlaced v true g r
  else if r.1.all (fun p => isLane p.loc) then s.loadPlaced v false g r
  else
    let s1 := s.portOpen (coreIndex v) (s.item .load (r.1.map (fun p => (p.loc, p.size))))
    let free := !s1.thr.acquireBelow s1.thr.accessNum &&
      s1.portFree (coreIndex v) (s1.item .load (r.1.map (fun p => (p.loc, p.size))))
    match free, r.2 with
    | true, _ => s1.loadPlaced v false g r
    | false, some f => s1.loadFailure v false f.1 f.2
    | false, none => (s1, .wait)

/-- The bytes of a plain load through a segment. -/
def State.loadBytes (s : State) (g : Seg) (off n : Nat) : State × LoadRes := s.loadElems g (g.loadParts n [(0, off)])

/-- The pending entry that a load's outcome makes; `acq` for LDS. -/
def Thread.loadEntry (t : Thread) (acq : Bool) (d : Dest) (la : Nat) (r : LoadRes) (conv : Nat → VWord) : Thread :=
  let entry (w : PendWait) (x : VWord) : Thread := t.addEntry t.accessNum acq d la w x fullMask 0
  match r with
  | .value v => entry .value (conv v)
  | .park va => entry (.park va false) 0
  | .fault c va => entry (.fault c va false) 0
  | .wait => t

/-- The register value of `n` loaded bytes: sign-extended from `sx` bits, or zero-extended. -/
def loadConv (sx v : Nat) : VWord :=
  if sx = 0 then BitVec.ofNat 512 v else gVal (BitVec.ofInt 64 (if v < 2 ^ (sx - 1) then (v : Int) else (v : Int) - 2 ^ sx))

/-! ## Far memory (R310, R311) -/

/-- A message to a far module leaves the core with the next number of the core (R311); the accesses below `upTo` come
first. -/
def State.farSend (s : State) (entry : Option Nat) (va size fmod : Nat) (parts : List (Nat × Nat)) (sx upTo : Nat) : State :=
  let c := coreIndex s.thr.view
  let m : FarMsg := ⟨c, (s.core c).farSeq, s.thr.key, entry, va, s.thr.unitPc.toNat, logSize size, none, s.thr.view.island, fmod,
    parts, sx, upTo⟩
  { s.modCore c (fun k => { k with farSeq := k.farSeq + 1 }) with farOut := s.farOut ++ [m] }

/-- A byte of a frozen far line that the module's caches hold (R200). -/
def State.farByte? (s : State) (isl fmod a : Nat) : Option Nat :=
  (s.farLines.find? (fun l => l.island == isl && l.fmod == fmod && l.line == a / 128)).bind (fun l =>
    if l.valid.getLsbD (a % 128) then some (lineBytes l.data (a % 128) 1) else none)

/-- The addresses of the bytes of a far access, lowest first. -/
def partBytes (parts : List (Nat × Nat)) : List Nat := parts.flatMap (fun p => (List.range p.2).map (fun i => p.1 + i))

/-- What the caches hold of a far access, when they hold all of it: a frozen copy serves it (R233). -/
def State.farHeld (s : State) (isl fmod : Nat) (parts : List (Nat × Nat)) : Option Nat :=
  ((partBytes parts).foldr (fun a acc => match s.farByte? isl fmod a, acc with
    | some b, some v => some (b + 256 * v)
    | _, _ => none) (some 0))

/-- A byte of a far line comes into the caches. -/
def State.keepByte (s : State) (isl fmod a b : Nat) : State :=
  let m := byteMask (a % 128) 1
  let d := placeLine (a % 128) 1 b
  let put (l : FarLine) : FarLine :=
    if l.island = isl ∧ l.fmod = fmod ∧ l.line = a / 128 then { l with valid := l.valid ||| m, data := mergeLine l.data d m } else l
  if s.farLines.any (fun l => l.island == isl && l.fmod == fmod && l.line == a / 128) then
    { s with farLines := s.farLines.map put }
  else { s with farLines := s.farLines ++ [⟨isl, fmod, a / 128, m, d⟩] }

/-- The answer to a far load: only frozen lines answer (Table 14.3), so bytes that the caches hold already stand, and the
others are kept. The value is that of the bytes in order. -/
def State.farFill (s : State) (isl fmod : Nat) : List Nat → Nat → State × Nat
  | [], _ => (s, 0)
  | a :: l, x =>
    let b := (s.farByte? isl fmod a).getD (x % 256)
    match (s.keepByte isl fmod a b).farFill isl fmod l (x / 256) with
    | (s1, v) => (s1, b + 256 * v)

/-- A far load: served by a frozen copy, unless its policy sends it to the far home or an acquire is open, or sent; the
answer is RESULT_ARRIVAL's (R219, R233, R239, R310). -/
def State.farLoad (s : State) (g : Seg) (d : Dest) (left : Nat) (parts : List (Nat × Nat)) (sx : Nat) : State :=
  match (if g.policy = 2 || s.thr.acquireBelow s.thr.accessNum then none else s.farHeld s.thr.view.island g.fmod.toNat parts) with
  | some v => s.onThr (fun t => (t.loadEntry false d left (.value v) (loadConv sx)).advance)
  | none =>
    (s.farSend (some s.thr.pendSeq) (parts.headD (0, 0)).1 ((parts.map (·.2)).foldl (· + ·) 0) g.fmod.toNat parts sx
      s.thr.accessNum).onThr (fun t => (t.addPend d left .far 0 fullMask 0).advance)

/-! ## Plain loads, as instructions -/

/-- The port holds a load of the unit at issue: its entry is made, and the unit goes on (R126, R235). `lds`: an LDS, and
whether it empties its word. -/
def State.holdLoad (s : State) (g : Seg) (ps : List (Nat × Nat × Nat)) (d : Dest) (left sx : Nat) (lds : Option Bool) : State :=
  let t := s.thr
  let h : HeldLoad := ⟨t.key, t.view, t.pendSeq, t.accessNum, s.portOrd, g, (s.placeParts t g ps).1, sx, lds⟩
  State.onThr { s with loads := s.loads ++ [h] } (fun t =>
    (t.addEntry t.accessNum lds.isSome d left .port 0 fullMask 0).advance)

/-- A plain load of the unit at issue, its checks passed: its bytes are read, or the port holds it. -/
def State.loadUnit (s : State) (g : Seg) (ps : List (Nat × Nat × Nat)) (d : Dest) (left sx : Nat) : State :=
  let r := s.loadElems g ps
  match s.thr.isHandler, r.2 with
  | false, .wait => r.1.holdLoad g ps d left sx none
  | true, .wait | true, .park _ => r.1.stall
  | true, .fault c _ => s.onThr (fun t => t.handlerFault c)
  | _, _ => r.1.onThr (fun t => (t.loadEntry false d left r.2 (loadConv sx)).advance)

/-- A plain load: the checks, the access, and the pending entry of its destination (R119). The result is sign-extended
from `sx` bits, or zero-extended. -/
def State.load (s : State) (i : BitVec 3) (off : Word) (n : Nat) (d : Dest) (la : BitVec 4) (sx : Nat) : State :=
  s.unless (s.accCheck i off.toNat n n rightR .load) fun s =>
    let g := s.thr.seg i
    let left := s.thr.lookahead la
    if g.space = spFar then s.farLoad g d left [(g.base.toNat + off.toNat, n)] sx
    else s.loadUnit g (g.loadParts n [(0, off.toNat)]) d left sx

/-! ## Plain stores -/

/-- What a store finds behind the port. -/
inductive StoreRes where
  | ok
  | park
  | service (va level entry : Nat)
  | fault (c : Cause)
  deriving DecidableEq, Repr

/-- Is the finding one that holds the store (R294, R299). -/
def StoreRes.holds : StoreRes → Bool
  | .park | .service _ _ _ => true
  | .ok | .fault _ => false

/-- The finding for a location. -/
def State.findingOf (s : State) (va : Nat) : XRes → StoreRes
  | .ok x => if isDram x && s.isFrozen x then .fault .frozen else .ok
  | .park => .park
  | .service l e => .service va l e
  | r => .fault r.cause

/-- The finding for one piece of a store (Table 13.4). -/
def State.storePlace (s : State) (g : Seg) (p : Nat × Nat) : StoreRes :=
  s.findingOf (g.base.toNat + p.1) (s.place s.thr g p.1 needW false)

/-- The first finding that is not ok. -/
def State.storeFinding (s : State) (g : Seg) : List (Nat × Nat) → StoreRes
  | [] => .ok
  | p :: ps => match s.storePlace g p with
    | .ok => s.storeFinding g ps
    | r => r

/-- One piece of a store reaches its place: the port of the core, after the atomics of the core to its line (R235), or for a
handler its bank group (R190). `quiet`: the unit has made its record. -/
def State.storePiece (s : State) (g : Seg) (p : Nat × Nat) (v : Nat) (sync quiet : Bool) : State :=
  match s.place s.thr g p.1 needW false with
  | .ok x =>
    if s.thr.isHandler then (if isDram x then s.stopeLine (lineAt x) else s).poke x p.2 v
    else
      let c := coreIndex s.thr.view
      ((s.flushPort c).flushAtoms c (lineAt x)).portStore c s.thr.key s.thr.pendSeq s.thr.unitPc.toNat (g.base.toNat + p.1) x p.2 v
        g.policy sync quiet
  | _ => s

/-- The pieces of an element are written in order. -/
def State.storePieces (s : State) (g : Seg) (sync quiet : Bool) : List (Nat × Nat) → Nat → State
  | [], _ => s
  | p :: ps, v => (s.storePiece g p (v % 256 ^ p.2) sync quiet).storePieces g sync quiet ps (v / 256 ^ p.2)

/-- The record of a store-side fault of the unit at issue (R297). -/
def State.faultStore (s : State) (va size : Nat) (red : Bool) (c : Cause) : State :=
  s.storeFault (coreIndex s.thr.view) s.thr.key s.thr.unitPc.toNat va size red c

/-- The elements of a store are written in order, an element that faults withheld; `recorded` once the record has been
made, which names the lowest (R123). -/
def State.storeElems (s : State) (g : Seg) (sync : Bool) : List (Nat × Nat × Nat) → Bool → State
  | [], _ => s
  | e :: es, recorded =>
    match s.storeFinding g (g.pieces e.1 e.2.1) with
    | .fault c =>
      let s1 := if recorded then s else s.faultStore (g.base.toNat + e.1) e.2.1 false c
      s1.storeElems g sync es true
    | _ => (s.storePieces g sync recorded (g.pieces e.1 e.2.1) e.2.2).storeElems g sync es recorded

/-- The unit's store is held behind the port (R294); `red` is the operation where it is not a plain one. -/
def State.holdStore (s : State) (g : Seg) (es : List (Nat × Nat × Nat)) (sync parked : Bool) (op : HeldOp) : State :=
  { s with held := s.held ++ [⟨s.thr.key, s.thr.view, g, es, s.thr.unitPc.toNat, sync, s.thr.pendSeq, parked, op, s.draw⟩] }

/-- What the finding of a store adds: a walk that meets a table frame not owned makes a service fault (R299). -/
def State.reported (s : State) (v : View) (kind : Nat) : StoreRes → State
  | .service va l e => s.serviceFault v kind va l e
  | .ok | .park | .fault _ => s

/-- A store of elements (offset, size, value) behind the port: performed, held as a whole by a parking condition (R294),
or a record (R297). The first store after a release fence is its synchronising store, with all its elements (R237). -/
def State.storeBytes (s : State) (g : Seg) (es : List (Nat × Nat × Nat)) : State :=
  let sync := s.thr.relFence
  let fs := es.map (fun e => s.storeFinding g (g.pieces e.1 e.2.1))
  match fs.find? StoreRes.holds, fs.head? with
  | some r, _ =>
    let s1 := s.reported s.thr.view (if s.thr.isHandler then 3 else 0) r
    if s1.thr.isHandler then s1.stall
    else (s1.holdStore g es sync true .plain).onThr (fun t => { t with relFence := false })
  | none, f =>
    match s.thr.isHandler, f with
    | true, some (.fault c) => s.onThr (fun t => t.handlerFault c)
    | _, _ => (s.storeElems g sync es false).onThr (fun t => { t with relFence := false })

/-- The unit is complete unless the access stopped it. -/
def State.finishStore (s : State) : State :=
  if s.thr.status = .stalled || s.thr.ended.isSome then s else s.finish

/-- A plain store: the checks and the access (R120). It issues whatever loads are open: the port holds it for them
(R236). -/
def State.store (s : State) (i : BitVec 3) (off : Word) (n : Nat) (v : Nat) : State :=
  s.unless (firstTrap [s.accCheck i off.toNat n n rightW .store, s.fieldCheck (s.thr.seg i) off.toNat n]) fun s =>
    (s.storeBytes (s.thr.seg i) [(off.toNat, n, v)]).finishStore

/-! ## Return from a trap (R36, R42, R90) -/

/-- The long-latency instructions (R31). -/
def isLongLatency : Instr → Bool
  | .ldB .. | .ldH .. | .ldW .. | .ldD .. | .ldSB .. | .ldSH .. | .ldSW .. | .ldv .. | .ldvs .. | .ldvx .. => true
  | .lds .. | .ldsConsume .. | .atom .. | .cas .. | .cas2 .. => true
  | .fdiv .. | .fdivV .. | .fsqrt .. | .fsqrtV .. | .fexp2 .. | .fexp2V .. | .flog2 .. | .flog2V .. => true
  | .frcp .. | .frcpV .. | .frsq .. | .frsqV .. | .fsinpi .. | .fsinpiV .. | .fcospi .. | .fcospiV .. => true
  | .ftanh .. | .ftanhV .. => true
  | _ => false

/-- The check of a replay address (R42). -/
def checkReplay (s : State) (v : View) (a : Word) : TargetRes :=
  if a.toNat / 2 ^ 52 ≠ 0 then .trap .addrForm a
  else if a.toNat % 4 ≠ 0 then .trap .badTarget a
  else
    match fetchWord s v a.toNat with
    | .park va => .park va
    | .service va l e => .service va l e
    | .fail c => .trap c a
    | .ok w =>
      match decodeWord w with
      | .ok i => if isLongLatency i then .ok else .trap .illegal (w.zeroExtend 64)
      | .error _ => .trap .illegal (w.zeroExtend 64)

/-- The matrix jobs that the handler of a MATRIXOPERAND serves are retried after its ERET (R184). -/
def State.retryJobs (s : State) : State :=
  let ids := s.thr.mretry
  if ids.isEmpty then s
  else
    let m := s.matrixEng s.thr.view.cluster
    let upd (o : MatrixOp) : MatrixOp := match o with
      | .job j => if ids.contains j.id && j.state == .suspended && j.fin.isNone then
          .job { j with state := .queued, fault := none } else o
      | _ => o
    (s.setEng { m with ops := m.ops.map upd }).onThr (fun t => { t with mretry := [] })

/-- The registers that the return from a trap leaves. A trap that the unit gone back to still owes stays due. -/
def Thread.trapReturn (t : Thread) : Thread :=
  let back : BitVec 52 := t.tpc.truncate 52
  { t.landHandler.goto back with
    hstate := false
    grantTrap := t.grantTrap.filter (fun w => !w.hstate && w.pc == back)
    replay := if t.tpc.getLsbD 59 then some ⟨t.tinfo1.truncate 52, t.tpc.toNat / 2 ^ 60, none, false⟩ else none }

/-- The return: the handler's windows end, and a failed entry of its own is taken first; then the continuation is checked,
then the replay address; a failure enters the handler again with RPL and LEFT 0; otherwise handler state is left (R35,
R36, R42). -/
def State.trapReturn (s : State) : State :=
  s.endWindows fun s =>
  let res := match checkTarget s s.thr.view (s.thr.tpc &&& 0xF_FFFF_FFFF_FFFF) with
    | .ok => if s.thr.tpc.getLsbD 59 then checkReplay s s.thr.view s.thr.tinfo1 else .ok
    | r => r
  match res with
  | .trap c i0 => s.trap c i0 0
  | .park va => s.parkPage va
  | .service va l e => (s.serviceFault s.thr.view 0 va l e).parkPage va
  | .ok => if s.thr.handlerOpen then s.stall else s.retryJobs.onThr Thread.trapReturn

end Sys2Proof.Machine
end

