-- ==== Sys2Proof/Machine/Operands.lean ====
section
/-! DEFINITION. The operand forms (spec/04, R101; spec/06, R143 to R145): scalar operands of a width, vector lanes
under a mask, floating operands with their flush bits, the RSR counters (R61), and the ways a result is written. -/

namespace Sys2Proof.Machine

open Sys2Proof

/-- The outcome of a meaning. -/
abbrev Out := Host.Outcome State Fault Refusal

/-- The width of an integer type. -/
def IntTy.width : IntTy → Nat
  | .i32 => 32 | .i64 => 64

/-- The format of a floating type code. -/
def FTy.fmt : FTy → Fmt
  | .f16 => .fp16 | .bf16 => .bf16 | .f32 => .fp32 | .f64 => .fp64

/-! ## Integer forms (R101) -/

/-- A scalar integer result: sign-extended into the register. -/
def intWord (w r : Nat) : Word := BitVec.ofInt 64 (signedOf w r)

/-- The low `w` bits of a g register. -/
def Thread.intSrc (t : Thread) (w : Nat) (a : BitVec 6) : Nat := (t.rg a).toNat % 2 ^ w

/-- A scalar integer operation: `f` takes the operands of width w, the destination among them (BFI). -/
def State.intScalar (s : State) (t : IntTy) (d a b : BitVec 6) (f : Nat → Nat → Nat → Nat → Nat × Flags) : State :=
  let w := IntTy.width t
  s.onThr fun u =>
    let r := f w (u.intSrc w a) (u.intSrc w b) (u.intSrc w d)
    ((u.wg d (intWord w r.1)).raise r.2).advance

/-- A vector integer operation, lane by lane under the mask. -/
def State.intVector (s : State) (t : IntTy) (d a b : BitVec 5) (p : BitVec 3)
    (f : Nat → Nat → Nat → Nat → Nat × Flags) : State :=
  let w := IntTy.width t
  s.onThr fun u =>
    let r (j : Nat) : Nat × Flags := f w (elem (u.rv a) w j) (elem (u.rv b) w j) (elem (u.rv d) w j)
    let n := 512 / w
    ((u.wv d (mapElems (u.rp p) w w (fun j => (r j).1) (u.rv d) n)).raise
      (elemFlags (u.rp p) w (fun j => (r j).2) n)).advance

/-- A 64-bit operation on g registers. -/
def State.wordOp (s : State) (d : BitVec 6) (x : Thread → Word) : State := s.onThr fun u => (u.wg d (x u)).advance

/-! ## Floating forms (R143 to R145) -/

/-- The flush bits of %fmt0 (R47). -/
def Thread.flush (t : Thread) : Flush := Flush.ofFmt (t.fmt[0].zeroExtend 64)

/-- The environment of the n-th rounding of an instruction (R61). -/
def Thread.env (t : Thread) (rm : Rm) (sat : Bool) (n : Nat) : RoundEnv :=
  ⟨rm, t.flush, sat, if rm = .rsr then draw24 t.srctr t.srkey n else 0⟩

/-- Under RSR the counter advances by the instruction's rounding count (R61). -/
def Thread.drew (t : Thread) (rm : Rm) (n : Nat) : Thread :=
  if rm = .rsr then { t with srctr := t.srctr + BitVec.ofNat 32 n } else t

/-- A floating source of a format: the low bits of a g register. -/
def Thread.fSrc (t : Thread) (f : Fmt) (a : BitVec 6) : Nat := (t.rg a).toNat % 2 ^ Fmt.width f

/-- The same after the flush of inputs. -/
def Thread.fVal (t : Thread) (f : Fmt) (a : BitVec 6) : FVal := readFloat t.flush f (t.fSrc f a)

/-- A floating result in a g register: zero-extended. -/
def Thread.wf (t : Thread) (d : BitVec 6) (r : Rounded) : Thread := (t.wg d (BitVec.ofNat 64 r.bits)).raise r.flags

/-- A scalar floating operation with one rounding by rm. -/
def State.fScalar (s : State) (d : BitVec 6) (rm : Rm) (f : Thread → Rounded) : State :=
  s.onThr fun u => ((u.wf d (f u)).drew rm 1).advance

/-- A vector operation that writes `n` elements of `dw` bits, each governed as an element of `gw` bits, and counts
`draws` roundings. -/
def State.fVector (s : State) (d : BitVec 5) (p : Pred) (gw dw n : Nat) (rm : Rm) (draws : Nat)
    (f : Thread → Nat → Rounded) : State :=
  s.onThr fun u =>
    (((u.wv d (mapElems p gw dw (fun j => (f u j).bits) (u.rv d) n)).raise
      (elemFlags p gw (fun j => (f u j).flags) n)).drew rm draws).advance

/-- Element j of a vector register in a format, after the flush of inputs. -/
def Thread.fElem (t : Thread) (f : Fmt) (a : BitVec 5) (j : Nat) : FVal :=
  readFloat t.flush f (elem (t.rv a) (Fmt.width f) j)

/-- An elementwise vector operation in one format. -/
def State.fLanes (s : State) (t : FTy) (d : BitVec 5) (p : BitVec 3) (rm : Rm) (f : Thread → Nat → Rounded) : State :=
  let w := Fmt.width (FTy.fmt t)
  s.fVector d (s.thr.rp p) w w (512 / w) rm (512 / w) f

/-- The result of a long-latency scalar operation: a pending entry, its flags with it (R148). -/
def State.fPendScalar (s : State) (d : BitVec 6) (la : BitVec 4) (rm : Rm) (f : Thread → Rounded) : State :=
  s.onThr fun u =>
    let r := f u
    ((u.addPend (.g d) (u.lookahead la) .value (BitVec.ofNat 512 r.bits) fullMask r.flags).drew rm 1).advance

/-- The result of a long-latency vector operation: it will write the active elements only. -/
def State.fPendVector (s : State) (t : FTy) (d : BitVec 5) (p : BitVec 3) (la : BitVec 4) (rm : Rm)
    (f : Thread → Nat → Rounded) : State :=
  let w := Fmt.width (FTy.fmt t)
  let n := 512 / w
  s.onThr fun u =>
    let m := u.rp p
    ((u.addPend (.v d) (u.lookahead la) .value (mapElems m w w (fun j => (f u j).bits) 0 n) (elemMask m w w n)
      (elemFlags m w (fun j => (f u j).flags) n)).drew rm n).advance

end Sys2Proof.Machine
end

