-- ==== Sys2Proof/Machine/Memory.lean ====
section
/-! DEFINITION. Loads and stores (spec/05, R116 to R123): scalar, whole-vector, strided and indexed forms, and the
nibble store. -/

namespace Sys2Proof.Machine

open Sys2Proof

/-- The offset of a CM word (R44): g[a] plus the displacement counted in accesses of `n` bytes. -/
def State.cmOffset (s : State) (a : BitVec 6) (imm : BitVec 5) (n : Nat) : Word :=
  s.rg a + imm.signExtend 64 * BitVec.ofNat 64 n

/-! ## Scalar loads and stores (R119, R120) -/

/-- LD.B (R119). -/
def execLdB (_u : Bool) (la : BitVec 4) (sg : BitVec 3) (d a : BitVec 6) (imm : BitVec 5) (s : State) : Out :=
  .next (s.load sg (s.cmOffset a imm 1) 1 (.g d) la 0)

/-- LD.H (R119). -/
def execLdH (_u : Bool) (la : BitVec 4) (sg : BitVec 3) (d a : BitVec 6) (imm : BitVec 5) (s : State) : Out :=
  .next (s.load sg (s.cmOffset a imm 2) 2 (.g d) la 0)

/-- LD.W (R119). -/
def execLdW (_u : Bool) (la : BitVec 4) (sg : BitVec 3) (d a : BitVec 6) (imm : BitVec 5) (s : State) : Out :=
  .next (s.load sg (s.cmOffset a imm 4) 4 (.g d) la 0)

/-- LD.D (R119). -/
def execLdD (_u : Bool) (la : BitVec 4) (sg : BitVec 3) (d a : BitVec 6) (imm : BitVec 5) (s : State) : Out :=
  .next (s.load sg (s.cmOffset a imm 8) 8 (.g d) la 0)

/-- LD.SB (R119). -/
def execLdSB (_u : Bool) (la : BitVec 4) (sg : BitVec 3) (d a : BitVec 6) (imm : BitVec 5) (s : State) : Out :=
  .next (s.load sg (s.cmOffset a imm 1) 1 (.g d) la 8)

/-- LD.SH (R119). -/
def execLdSH (_u : Bool) (la : BitVec 4) (sg : BitVec 3) (d a : BitVec 6) (imm : BitVec 5) (s : State) : Out :=
  .next (s.load sg (s.cmOffset a imm 2) 2 (.g d) la 16)

/-- LD.SW (R119). -/
def execLdSW (_u : Bool) (la : BitVec 4) (sg : BitVec 3) (d a : BitVec 6) (imm : BitVec 5) (s : State) : Out :=
  .next (s.load sg (s.cmOffset a imm 4) 4 (.g d) la 32)

/-- ST.B (R120). -/
def execStB (_u : Bool) (sg : BitVec 3) (d a : BitVec 6) (imm : BitVec 5) (s : State) : Out :=
  .next (s.store sg (s.cmOffset a imm 1) 1 ((s.rg d).toNat % 256 ^ 1))

/-- ST.H (R120). -/
def execStH (_u : Bool) (sg : BitVec 3) (d a : BitVec 6) (imm : BitVec 5) (s : State) : Out :=
  .next (s.store sg (s.cmOffset a imm 2) 2 ((s.rg d).toNat % 256 ^ 2))

/-- ST.W (R120). -/
def execStW (_u : Bool) (sg : BitVec 3) (d a : BitVec 6) (imm : BitVec 5) (s : State) : Out :=
  .next (s.store sg (s.cmOffset a imm 4) 4 ((s.rg d).toNat % 256 ^ 4))

/-- ST.D (R120). -/
def execStD (_u : Bool) (sg : BitVec 3) (d a : BitVec 6) (imm : BitVec 5) (s : State) : Out :=
  .next (s.store sg (s.cmOffset a imm 8) 8 ((s.rg d).toNat % 256 ^ 8))

/-! ## The nibble store (R121) -/

/-- A store by message meets what the port finds (Table 13.4): it is sent to the place that performs it, held, or makes a
record (R131). -/
def State.sendStore (s : State) (g : Seg) (off bytes : Nat) (op : MemOp) (a : BitVec 128) (n : Need) : State :=
  let va := g.base.toNat + off
  let v := s.thr.view
  match s.place s.thr g off n false with
  | .ok x =>
    { s with msgs := s.msgs ++ [⟨s.thr.key, v, x, bytes, op, a, 0, none, va, s.thr.unitPc.toNat, s.thr.pendSeq, s.draw⟩] }
  | .park => s.holdStore g [(off, bytes, a.toNat)] false true (.memory op)
  | .service l e =>
    (s.serviceFault v 0 va l e).holdStore g [(off, bytes, a.toNat)] false true (.memory op)
  | r => s.faultStore va bytes true r.cause

/-- The eager part of a release whose synchronising store is not an ordinary store to DRAM (R238). -/
def State.syncEager (s : State) : State :=
  if s.thr.relFence then (s.drainCovered (coreIndex s.thr.view)).onThr (fun t => { t with relFence := false }) else s

/-- ST.N of a handler is performed at its bank group. -/
def State.handlerNibble (s : State) (g : Seg) (off : Nat) (high : Bool) (x : Nat) : State :=
  match s.place s.thr g off needW false with
  | .ok y =>
    if isDram y && s.isFrozen y then s.onThr (fun t => t.handlerFault .frozen)
    else (s.applyAt y 1 (.nibble high) (BitVec.ofNat 128 x) 0).1.finish
  | .park => s.stall
  | .service l e => (s.serviceFault s.thr.view 3 (g.base.toNat + off) l e).stall
  | r => s.onThr (fun t => t.handlerFault r.cause)

/-- ST.N at the own port: performed, or held there by the thread's earlier loads (R236) or by what stands before it (R121). -/
def State.portNibble (s : State) (g : Seg) (off : Nat) (high : Bool) (x : Nat) (y : Loc) : State :=
  let c := coreIndex s.thr.view
  let s1 := s.portOpen c (s.item .store [(y, 1)])
  if isLane y || (!s1.thr.loadsOpen && s1.portFree c (s1.item .store [(y, 1)])) then
    (s1.applyAt y 1 (.nibble high) (BitVec.ofNat 128 x) 0).1
  else s1.holdStore g [(off, 1, x)] false false (.memory (.nibble high))

/-- ST.N of a nibble of the byte at `off`: at the thread's own port, or by message (R121). -/
def State.storeNibble (s : State) (sg : BitVec 3) (off : Nat) (high : Bool) (x : Nat) : State :=
  s.unless (firstTrap [s.accCheck sg off 1 1 rightW .nibble, s.fieldCheck (s.thr.seg sg) off 1]) fun s =>
    let g := s.thr.seg sg
    if s.thr.isHandler then s.handlerNibble g off high x
    else if s.thr.relFence && (s.thr.loadsOpen || s.portOf (coreIndex s.thr.view) s.thr.key) then
      ((s.holdStore g [(off, 1, x)] true false (.memory (.nibble high))).onThr (fun t => { t with relFence := false })).finish
    else
      let s1 := s.syncEager
      match s1.place s1.thr g off needW false with
      | .ok y =>
        if ownPort s1.thr.view y then (s1.portNibble g off high x y).finish
        else (s1.sendStore g off 1 (.nibble high) (BitVec.ofNat 128 x) needW).finish
      | _ => (s1.sendStore g off 1 (.nibble high) (BitVec.ofNat 128 x) needW).finish

/-- The nibble that ST.N names: g[a] plus the displacement, an unbounded integer (R6, R44). -/
def State.nibbleNum (s : State) (a : BitVec 6) (imm : BitVec 5) : Int := ((s.rg a).toNat : Int) + imm.toInt

/-- ST.N (R121): the nibble's number halved is the byte offset, of which the check takes bits 63:0 (R30). -/
def execStN (_u : Bool) (sg : BitVec 3) (d a : BitVec 6) (imm : BitVec 5) (s : State) : Out :=
  let o := s.nibbleNum a imm
  .next (s.storeNibble sg (BitVec.ofInt 64 (o / 2)).toNat (o % 2 == 1) ((s.rg d).toNat % 16))

/-! ## Vector forms (R117, R122, R123) -/

/-- The checks of one lane of a vector access: in lane memory those of R117, with the element size against the segment and
against the lane's own 512 bytes. Elsewhere an element must be aligned: DESIGN CHOICE (log 93), since R123 does not say. -/
def State.laneCheck (s : State) (sg : BitVec 3) (off esz : Nat) (rights : BitVec 8) (k : Acc) : Option TrapInfo :=
  let g := s.thr.seg sg
  if g.space = spLane then
    firstTrap [
      if g.rights &&& rights != rights || !k.permits g then some ⟨.segRight, wordOf off, sg.zeroExtend 64⟩ else none,
      if off + esz > g.len || off + esz > 512 then some ⟨.segBound, wordOf off, sg.zeroExtend 64⟩ else none,
      if off % esz != 0 then some ⟨.align, wordOf off, sg.zeroExtend 64⟩ else none]
  else s.accCheck sg off esz esz rights k

/-- The segment and offset of lane i of a vector access: in lane memory, byte 512 i + o of lane memory itself (R117). -/
def Seg.lane (g : Seg) (off i : Nat) : Seg × Nat := if g.space = spLane then ({ g with base := 0 }, 512 * i + off) else (g, off)

/-- A vector load of lanes given by number and offset; the first lane that fails decides. -/
def State.loadVector (s : State) (sg : BitVec 3) (d : BitVec 5) (la : BitVec 4) (esz : Nat) (lanes : List (Nat × Nat)) :
    State :=
  s.unless (firstTrap (lanes.map (fun p => s.laneCheck sg p.2 esz rightR .load))) fun s =>
    let g := s.thr.seg sg
    let left := s.thr.lookahead la
    let h := (g.lane 0 0).1
    if g.space = spFar then s.farLoad g (.v d) left (lanes.map (fun p => (g.base.toNat + p.2, esz))) 0
    else s.loadUnit h (h.loadParts esz (lanes.map (fun p => (p.1, (g.lane p.2 p.1).2)))) (.v d) left 0

/-- The elements of a vector store: offset, size and value. -/
def Seg.laneElems (g : Seg) (x : VWord) (esz : Nat) (lanes : List (Nat × Nat)) : List (Nat × Nat × Nat) :=
  lanes.map (fun p => ((g.lane p.2 p.1).2, esz, elem x (8 * esz) p.1))

/-- A vector store of lanes given by number and offset: they are written in ascending order, a faulting lane is withheld,
and one record names the lowest (R123). -/
def State.storeVector (s : State) (sg : BitVec 3) (x : VWord) (esz : Nat) (lanes : List (Nat × Nat)) : State :=
  s.unless (firstTrap (lanes.map (fun p =>
    firstTrap [s.laneCheck sg p.2 esz rightW .store, s.fieldCheck (s.thr.seg sg) p.2 esz]))) fun s =>
    let g := s.thr.seg sg
    (s.storeBytes (g.lane 0 0).1 (g.laneElems x esz lanes)).finishStore

/-- Lanes 0 to n − 1 with their offsets. -/
def lanesOf (n : Nat) (off : Nat → Word) : List (Nat × Nat) := (List.range n).map (fun i => (i, (off i).toNat))

/-- LDV (R122): 64 aligned bytes; in lane memory, sixteen lanes of 4 bytes. -/
def execLdv (_u : Bool) (la : BitVec 4) (sg : BitVec 3) (d : BitVec 5) (a : BitVec 6) (imm : BitVec 5) (s : State) : Out :=
  let off := s.cmOffset a imm 64
  .next (if (s.thr.seg sg).space = spLane then s.loadVector sg d la 4 (lanesOf 16 (fun _ => off))
    else s.load sg off 64 (.v d) la 0)

/-- STV (R122). -/
def execStv (_u : Bool) (sg : BitVec 3) (d : BitVec 5) (a : BitVec 6) (imm : BitVec 5) (s : State) : Out :=
  let off := s.cmOffset a imm 64
  .next (if (s.thr.seg sg).space = spLane then s.storeVector sg (s.thr.rv d) 4 (lanesOf 16 (fun _ => off))
    else s.store sg off 64 (s.thr.rv d).toNat)

/-- The element size of a strided or indexed form. -/
def elemSize (dbl : Bool) : Nat := if dbl then 8 else 4

/-- The offsets of a strided form: base in the even register, stride in the next (Table 5.2). -/
def State.stridedLanes (s : State) (a : BitVec 5) (dbl : Bool) : List (Nat × Nat) :=
  let base := s.rg (a.zeroExtend 6 <<< 1)
  let stride := s.rg ((a.zeroExtend 6 <<< 1) + 1)
  lanesOf (64 / elemSize dbl) (fun i => base + BitVec.ofNat 64 i * stride)

/-- The offsets of an indexed form (Table 5.2). -/
def State.indexedLanes (s : State) (base : Word) (x : BitVec 5) (dbl : Bool) : List (Nat × Nat) :=
  lanesOf (64 / elemSize dbl) (fun i => base + BitVec.ofNat 64 (elem (s.thr.rv x) (8 * elemSize dbl) i))

/-- LDVS (R123). -/
def execLdvs (_u : Bool) (la : BitVec 4) (sg : BitVec 3) (d a : BitVec 5) (dbl : Bool) (s : State) : Out :=
  .next (s.loadVector sg d la (elemSize dbl) (s.stridedLanes a dbl))

/-- LDVX (R123): v[d] holds the offsets, then the data. -/
def execLdvx (_u : Bool) (la : BitVec 4) (sg : BitVec 3) (d : BitVec 5) (a : BitVec 6) (dbl : Bool) (s : State) : Out :=
  .next (s.loadVector sg d la (elemSize dbl) (s.indexedLanes (s.rg a) d dbl))

/-- STVS (R123). -/
def execStvs (_u : Bool) (sg : BitVec 3) (d a : BitVec 5) (dbl : Bool) (s : State) : Out :=
  .next (s.storeVector sg (s.thr.rv d) (elemSize dbl) (s.stridedLanes a dbl))

/-- STVX (R123): v[a] is the data, v[d] the offsets, from segment offset 0. -/
def execStvx (_u : Bool) (sg : BitVec 3) (d a : BitVec 5) (dbl : Bool) (s : State) : Out :=
  .next (s.storeVector sg (s.thr.rv a) (elemSize dbl) (s.indexedLanes 0 d dbl))

end Sys2Proof.Machine
end

