-- ==== Sys2Proof/Machine/System.lean ====
section
/-! DEFINITION. Thread and trap control, machine registers, segments, the crew barrier (spec/04, R87 to R97, R100),
and the delivery of store faults (spec/13, R297, R298). -/

namespace Sys2Proof.Machine

open Sys2Proof

/-- The word of an instruction that traps ILLEGAL by what it finds. -/
def State.illegalHere (s : State) (i : Instr) : State := s.trap .illegal (wordOf ((encodeNat i).getD 0)) 0

/-! ## Store-fault records (R297, R298) -/

/-- Records of a core in its queue. -/
def State.queued (s : State) (core : Nat) : Nat :=
  (s.faults.filter (fun f => f.core == core && f.stage == .queued)).length

/-- A record reaches its core's queue of 16, or waits behind it: also while an older one still waits there. It is last in
the order of arrival, which is the order of the list among the records that have arrived (R298). -/
def State.arriveFault (s : State) (f : StoreFault) : State :=
  let full := 16 ≤ s.queued f.core || s.faults.any (fun g => g.core == f.core && g.stage == .behind)
  { s with faults := s.faults.erase f ++ [{ f with stage := if full then .behind else .queued }] }

/-- The oldest record behind the queue of a core enters it when there is room. -/
def State.enterQueue (s : State) (core : Nat) : State :=
  if s.queued core < 16 then
    match s.faults.find? (fun f => f.core == core && f.stage == .behind) with
    | none => s
    | some f => { s with faults := s.faults.replace f { f with stage := .queued } }
  else s

/-- Every record of the thread at issue that is on its way arrives (R135). -/
def State.arriveFaults (s : State) : State :=
  (s.faults.filter (fun f => f.key == s.thr.key && f.stage == .flight)).foldl State.arriveFault s

/-- %tinfo1 of STOREFAULT (Table 13.6). -/
def StoreFault.info (f : StoreFault) : Word :=
  wordOf (f.pc % 2 ^ 52 + f.logSize * 2 ^ 52 + (if f.red then 2 ^ 55 else 0) + f.cause.code * 2 ^ 56)

/-- The oldest record of the thread that is in the queue. -/
def State.ownRecord (s : State) : Option StoreFault :=
  s.faults.find? (fun f => f.key == s.thr.key && f.stage == .queued)

/-- A record leaves the queue and traps STOREFAULT at the unit (R297). -/
def State.deliverRecord (s : State) (f : StoreFault) : State :=
  match s.parkFirst with
  | some p => s.takePark p
  | none => s.endWindows fun s =>
    if s.thr.handlerOpen then s.stall
    else ((State.enterQueue { s with faults := s.faults.erase f } f.core).enterTrap .storeFault (wordOf f.va) f.info
      s.thr.unitPc false 0)

/-- Does the thread still await that a store, ST.N, RED or APND of its is performed (R135): it is held, at the port, or on its
way to memory, here or at a far module. -/
def State.storesOpen (s : State) : Bool :=
  s.portOf (coreIndex s.thr.view) s.thr.key || s.msgs.any (fun m => m.key == s.thr.key && !m.op.answers) ||
    s.farOut.any (fun m => m.isRed s.thr.key)

/-- What DRAIN and EXIT do before they complete (R135): every store of the thread is performed or has faulted, its far
reductions are acknowledged, and a record found is delivered. -/
def State.drainThen (s : State) (k : State → State) : State :=
  if s.held.any (fun h => h.key == s.thr.key && h.parked) then s.park .held
  else
    let s0 := if s.msgs.isEmpty then s else s.performMsgs (fun m => m.key == s.thr.key && !m.op.answers)
    let s1 := (s0.flushPort (coreIndex s.thr.view)).arriveFaults
    let s2 := s1.ackFar s.thr.key
    match s2.ownRecord with
    | some f => s2.deliverRecord f
    | none => if s2.storesOpen || s2.faults.any (fun f => f.key == s2.thr.key) then s2.stall else k s2

/-! ## EXIT, YIELD, BRK, TRAP, ERET, TKILL -/

/-- Does the thread own a matrix job that still runs or waits (R87). -/
def State.jobsOpen (s : State) : Bool :=
  (s.matrixEng s.thr.view.cluster).ops.any (fun o => match o with
    | .job j => j.key == s.thr.key && j.state != .suspended
    | _ => false)

/-- EXIT waits until every pending entry has arrived, the interrupted code's too, and takes a fault among them (R37, R87);
its atomics are performed for that. -/
def State.settleThen (s : State) (k : State → State) : State :=
  let s1 := if s.msgs.isEmpty then s else s.performMsgs (fun m => m.op.answers && m.key == s.thr.key)
  match s1.thr.pending.find? Pend.failed with
  | some e => s1.takeFailed e
  | none => if s1.thr.pending.any Pend.isOpen then s1.stall else k s1

/-- EXIT (R87). -/
def execExit (_u : Bool) (s : State) : Out :=
  .next (s.settleThen fun s1 => s1.drainThen fun s2 =>
    if s2.jobsOpen then s2.stall else s2.endThread s2.thr.key false)

/-- YIELD (R88). -/
def execYield (_u : Bool) (s : State) : Out := .next (s.finish.onThr fun t => { t with yielded := true })

/-- A trap after the unit (R89): the unit is complete and %tpc holds Xn. -/
def State.trapAfter (s : State) (c : Cause) (code : BitVec 14) : State :=
  match s.parkFirst with
  | some p => s.takePark p
  | none => s.endWindows fun s =>
    if s.thr.handlerOpen && !s.thr.isHandler then s.stall
    else (s.enterTrap c (code.zeroExtend 64) (s.thr.unitPc.zeroExtend 64) s.thr.nextPc false 0).onThr fun t =>
      { t with unitEnd := .done }

/-- BRK (R89): in a shift under debugging the thread parks for gvdbg. -/
def execBrk (_u : Bool) (code : BitVec 14) (s : State) : Out :=
  .next (if s.thr.dbg then s.finish.onThr fun t => { t with status := .parked, wait := .debug }
    else s.trapAfter .brk code)

/-- TRAP (R89). -/
def execTrap (_u : Bool) (code : BitVec 14) (s : State) : Out := .next (s.trapAfter .trap code)

/-- ERET (R90): outside handler state it is illegal. -/
def execEret (u : Bool) (s : State) : Out :=
  .next (if s.thr.hstate then s.trapReturn else s.illegalHere (.eret u))

/-- TKILL.THREAD (R91): the issuer itself ends after the unit. -/
def execTkillThread (_u : Bool) (a : BitVec 6) (s : State) : Out :=
  let c := s.thr.crewId
  .next (if (s.rg a).toNat < s.thr.nthr then s.finish.endThread (.crew c.1 c.2 (s.rg a).toNat) true else s.finish)

/-- TKILL.CREW (R91). -/
def execTkillCrew (_u : Bool) (s : State) : Out := .next (s.finish.killCrew s.thr.crewId)

/-- TKILL.SHIFT (R91). -/
def execTkillShift (_u : Bool) (s : State) : Out := .next (s.finish.killShift s.thr.crewId.1)

/-! ## Machine registers (R93, R94, R25) -/

/-- MRD (R93). -/
def execMrd (_u : Bool) (d : BitVec 6) (m : MReg) (s : State) : Out := .next (s.finishG d (s.readM m))

/-- The header of the thread's handle table, or the park that its read meets. -/
def State.withHeader (s : State) (k : Nat → State) : State :=
  match tableRead s s.thr.view s.thr.htab 8 with
  | (.park, _) => s.parkPage s.thr.htab
  | (.service l e, _) => (s.serviceFault s.thr.view 0 s.thr.htab l e).parkPage s.thr.htab
  | (.ok _, h) => k (if s.thr.htab = 0 then 0 else h)
  | _ => k 0

/-- Engine work is begun for which the thread parks (Table 11.8). -/
def State.engineWork (s : State) (w : EngineWork) : State :=
  let job : EngineJob := ⟨s.nextId, s.thr.key, s.thr.view.island, none, w⟩
  { s.park (.engine s.nextId) with engJobs := s.engJobs ++ [job], nextId := s.nextId + 1 }

/-- A write of %wpart (R25): ADM, then the value, then the repartition; the value it already holds completes at
once (R229). DESIGN CHOICE (log 114): the ILLEGAL of a bad value is a check of the instruction's own, after the SEGRIGHT and
after an A half's ILLEGAL (R53, R296). -/
def State.writeWpart (s : State) (u : Bool) (d : BitVec 6) : State :=
  if s.thr.grant.isSome then s.finish
  else s.withHeader fun h =>
    let n := (s.rg d).toNat % 16
    if h / 2 ^ 16 % 2 = 0 then s.trap .segRight (s.rg d) 0x070
    else if n ≠ 0 ∧ n ≠ 4 ∧ n ≠ 8 ∧ n ≠ 12 then s.illegalHere (.mwr u d .wpart)
    else if wordOf n = s.wpartReg ∧ !(s.engJobs.any (fun j => match j.work with
        | .repartition _ _ => j.island == s.thr.view.island
        | _ => false)) then s.finish
    else s.engineWork (.repartition n 0)

/-- MWR (R94). -/
def execMwr (u : Bool) (d : BitVec 6) (m : MReg) (s : State) : Out :=
  .next (match m with
    | .wpart => s.writeWpart u d
    | _ => s.onThr fun t => (t.writeM m (t.rg d)).advance)

/-! ## Segments (R95 to R97) -/

/-- SEGLD (R95). -/
def execSegld (_u : Bool) (a : BitVec 6) (sg : BitVec 3) (s : State) : Out :=
  .next (match readHandle s s.thr.view s.thr.htab (s.rg a).toNat with
    | .ok g => s.onThr fun t => (t.wseg sg g).advance
    | .park va => s.parkPage va
    | .service va l e => (s.serviceFault s.thr.view 0 va l e).parkPage va
    | .segRight => s.trap .segRight (s.rg a) (sg.zeroExtend 64)
    | .addrForm x => s.trap .addrForm (wordOf x) 0)

/-- The narrowed segment (R96). DESIGN CHOICE (log 91): a base that reaches 2^52, which only an empty tail can, wraps to
0. -/
def Seg.narrow (g : Seg) (off len rights : Word) : Seg :=
  { g with base := g.base + off.truncate 52, len := len.toNat, rights := g.rights &&& ~~~(rights.truncate 8) }

/-- SEGSUB (R96). -/
def execSegsub (_u : Bool) (d a b : BitVec 6) (sg : BitVec 3) (s : State) : Out :=
  let g := s.thr.seg sg
  .next (
    if g.space = 0 then s.trap .segRight 0 (sg.zeroExtend 64)
    else if (s.rg a).toNat + (s.rg b).toNat > g.len then s.trap .segBound (s.rg a) (sg.zeroExtend 64)
    else s.onThr fun t => (t.wseg sg (g.narrow (t.rg a) (t.rg b) (t.rg d))).advance)

/-- The value that SEGQ reads of a segment (R97). -/
def Seg.query (g : Seg) (q : SegSel) : Word :=
  if g.space = 0 then 0
  else match q with
    | .base => g.base.zeroExtend 64
    | .length => wordOf g.len
    | .rights => wordOf (g.rights.toNat + g.space.toNat * 2 ^ 8 + g.policy.toNat * 2 ^ 12 +
        (if g.space = spFar then g.fmod.toNat * 2 ^ 16 else 0))

/-- SEGQ (R97). -/
def execSegq (_u : Bool) (d : BitVec 6) (q : SegSel) (sg : BitVec 3) (s : State) : Out :=
  .next (s.finishG d ((s.thr.seg sg).query q))

/-! ## The crew barrier (R100) -/

/-- BARC (R100): arrival is a release at .clus; the unit completes when the generation does. -/
def execBarc (_u : Bool) (s : State) : Out :=
  let c := s.thr.crewId
  .next (
    if s.thr.grant.isSome then s.finish
    else s.writeGate fun s0 =>
      let s1 := s0.release s0.thr.view s0.thr.key .clus
      let s2 := s1.modCrew c (fun k => { k with barc := if k.barc.contains s.thr.tid then k.barc else k.barc ++ [s.thr.tid] })
      let s3 := (s2.park .barc).barcCheck c
      if s3.wakes.contains s3.thr.key then
        (State.onThr { s3 with wakes := s3.wakes.erase s3.thr.key } (fun t => { t with status := .ready, wait := .none })).finish
      else s3)

end Sys2Proof.Machine
end

