-- ==== Sys2Proof/Machine/Sync.lean ====
section
/-! DEFINITION. Full/empty operations, fences, DRAIN and transaction barriers (spec/05, R124 to R127, R133 to R138;
spec/10, R237 to R241). -/

namespace Sys2Proof.Machine

open Sys2Proof

/-! ## Shared steps -/

/-- An access whose place the port found: performed by `ok`; a parking condition parks the thread and the unit is
issued afresh (a handler's engine stalls); any other finding goes to `bad`. -/
def State.atPlace (s : State) (g : Seg) (off : Nat) (n : Need) (load : Bool) (bad : State → Cause → State)
    (ok : State → Loc → State) : State :=
  let va := g.base.toNat + off
  match s.place s.thr g off n load with
  | .ok x => ok s x
  | .park => if s.thr.isHandler then s.stall else s.parkPage va
  | .service l e =>
    if s.thr.isHandler then (s.serviceFault s.thr.view 3 va l e).stall
    else (s.serviceFault s.thr.view 0 va l e).parkPage va
  | r => if s.thr.isHandler then s.onThr (fun t => t.handlerFault r.cause) else bad s r.cause

/-- A write by an instruction that faults as stores do: a parking condition holds it behind the port by `hold`, and a
frozen granule, like a missing right, makes a record and the unit completes (R292, R294, R297). -/
def State.atWrite (s : State) (g : Seg) (off size : Nat) (red : Bool) (n : Need) (hold : State → State)
    (ok : State → Loc → State) : State :=
  let va := g.base.toNat + off
  let bad (u : State) (c : Cause) : State :=
    if u.thr.isHandler then u.onThr (fun t => t.handlerFault c) else (u.faultStore va size red c).finish
  match s.place s.thr g off n false with
  | .ok x => if isDram x && s.isFrozen x then bad s .frozen else ok s x
  | .park => if s.thr.isHandler then s.stall else hold s
  | .service l e =>
    if s.thr.isHandler then (s.serviceFault s.thr.view 3 va l e).stall else hold (s.serviceFault s.thr.view 0 va l e)
  | r => bad s r.cause

/-- Before an operation at a DRAM word's home: the issuing core's own copy of the line is written back and dropped (R234).
A handler works at its bank group, and no core's unreleased bytes are merged for it (R190). -/
def State.ownLine (s : State) (x : Loc) : State :=
  if !isDram x then s
  else if s.thr.isHandler then s.stopeLine (lineAt x)
  else s.giveUpLine (coreIndex s.thr.view) (lineAt x)

/-- Before a read at home, the records of the line are served (R238). -/
def State.serveAt (s : State) (x : Loc) : State := if isDram x then s.serveRecords (lineAt x) else s

/-- The offset that R230 looks at. -/
def Seg.scratchOff (g : Seg) (off : Nat) : Option Nat := if g.space = spStack then some (g.base.toNat + off) else none

/-- The thread joins the tail of a word's wait list and parks; a request already there stays (R125). -/
def State.waitWord (s : State) (g : Seg) (off : Nat) (x : Loc) (r : WordReq) : State :=
  let w : WordWait := ⟨wordAt x, s.thr.key, r, g.scratchOff off⟩
  let s1 := if s.waits.any (fun u => u.key == s.thr.key && u.word == wordAt x) then s else { s with waits := s.waits ++ [w] }
  s1.park (.word (wordAt x))

/-! ## LDS (R124 to R126) -/

/-- What an LDS finds at its word. -/
inductive LdsRes where
  | value (v : Nat)
  | poison
  /-- The word is empty: the request waits. -/
  | empty
  deriving DecidableEq, Repr

/-- An LDS of a thread of a core at its word's place (R124, R239): the core's own copy of the line is given up, the records of
the line are served, and where the word is full its value is read, the word emptied if the form says so, and the acquire
made. -/
def State.ldsAt (s : State) (v : View) (sp : BitVec 4) (x n : Nat) (consume : Bool) : State × LdsRes :=
  let s1 := (if isDram x then s.giveUpLine (coreIndex v) (lineAt x) else s).serveAt x
  if !s1.isFull (wordAt x) then (s1, .empty)
  else if s1.poisoned x n then (s1, .poison)
  else
    let s2 := if consume then s1.changeFull (wordAt x) false else s1
    (s2.acquire v (spaceScope sp), .value (s1.peek x n))

/-- The same by a handler, at its bank group, with no acquire (R190). -/
def State.ldsNear (s : State) (x n : Nat) (consume : Bool) : State × LdsRes :=
  let s1 := (s.ownLine x).serveAt x
  if !s1.isFull (wordAt x) then (s1, .empty)
  else if s1.poisoned x n then (s1, .poison)
  else (if consume then s1.changeFull (wordAt x) false else s1, .value (s1.peek x n))

/-- An LDS of a handler at its word. -/
def State.ldsHandler (s : State) (d : Dest) (left x n : Nat) (consume : Bool) : State :=
  match s.ldsNear x n consume with
  | (s1, .value v) => s1.onThr fun t => (t.loadEntry true d left (.value v) (loadConv 0)).advance
  | (s1, .poison) => s1.onThr (fun t => t.handlerFault .poison)
  | (s1, .empty) => s1.onThr (fun t => t.handlerFault .feState)

/-- An LDS of a thread at its word: performed, or in the word's list, with la = 0 parked there at once (R126). -/
def State.ldsThread (s : State) (g : Seg) (d : Dest) (left off va x n : Nat) (consume : Bool) : State :=
  match s.ldsAt s.thr.view g.space x n consume with
  | (s1, .value v) => s1.onThr fun t => (t.loadEntry true d left (.value v) (loadConv 0)).advance
  | (s1, .poison) => s1.onThr fun t => (t.loadEntry true d left (.fault .poison va) (loadConv 0)).advance
  | (s1, .empty) =>
    if left = 0 then s1.waitWord g off x (.load consume none x n va)
    else
      let w : WordWait := ⟨wordAt x, s1.thr.key, .load consume (some s1.thr.pendSeq) x n va, g.scratchOff off⟩
      State.onThr { s1 with waits := s1.waits ++ [w] } fun t =>
        (t.addEntry t.accessNum true d left .listed 0 fullMask 0).advance

/-- The two forms of LDS. The port holds one that an open acquire of its thread or something there stands before (R235,
R239). -/
def State.lds (s : State) (la : BitVec 4) (sg : BitVec 3) (d a : BitVec 6) (dbl consume : Bool) : State :=
  let n := elemSize dbl
  let off := (s.rg a).toNat
  let left := s.thr.lookahead la
  match s.thr.grant with
  | some v => s.onThr fun t => (t.addPend (.g d) left .value (gVal v) fullMask 0).advance
  | none =>
    s.unless (firstTrap [s.accCheck sg off n n rightS .fe,
        if consume then s.fieldCheck (s.thr.seg sg) off n else none]) fun s =>
      let g := s.thr.seg sg
      let va := g.base.toNat + off
      let fails (u : State) (r : LoadRes) : State :=
        match u.thr.isHandler, r with
        | true, .fault c _ => u.onThr (fun t => t.handlerFault c)
        | true, _ => u.stall
        | false, _ => u.onThr fun t => (t.loadEntry true (.g d) left r (loadConv 0)).advance
      match s.place s.thr g off needR true with
      | .park => fails s (.park va)
      | .service l e => fails (s.serviceFault s.thr.view (if s.thr.isHandler then 3 else 0) va l e) (.park va)
      | .ok x =>
        if s.thr.isHandler then s.ldsHandler (.g d) left x n consume
        else
          let c := coreIndex s.thr.view
          let s1 := s.portOpen c (s.item .load [(x, n)])
          if s1.thr.acquireBelow s1.thr.accessNum || !s1.portFree c (s1.item .load [(x, n)]) then
            s1.holdLoad g (g.loadParts n [(0, off)]) (.g d) left 0 (some consume)
          else s1.ldsThread g (.g d) left off va x n consume
      | r => fails s (.fault r.cause va)

/-- LDS. -/
def execLds (_u : Bool) (la : BitVec 4) (sg : BitVec 3) (d a : BitVec 6) (dbl : Bool) (s : State) : Out :=
  .next (s.lds la sg d a dbl false)

/-- LDS.CONSUME. -/
def execLdsConsume (_u : Bool) (la : BitVec 4) (sg : BitVec 3) (d a : BitVec 6) (dbl : Bool) (s : State) : Out :=
  .next (s.lds la sg d a dbl true)

/-! ## STS, FESET, FECLR, FEQ (R124, R125, R127) -/

/-- The count that a barrier operation takes. -/
def BarrierOp.apply (op : BarrierOp) (count : Nat) (b : Barrier) : Barrier :=
  match op with
  | .init => b.init count
  | .expect => b.expectMore count
  | .arrive => b.arrive count

/-- Does the operation carry a release (Table 5.9). -/
def HeldOp.releases : HeldOp → Bool
  | .sts _ | .bit true | .barrier .arrive _ | .append | .slot => true
  | .plain | .memory _ | .bit false | .barrier .init _ | .barrier .expect _ => false

/-- A synchronising write at its place, for a thread of a core: STS, FESET, FECLR, and the barrier operations that write. A
release, its own or that of the fence before it, comes first (R237), and every such write to a DRAM home records the core
there while it owes covered bytes (R238). -/
def State.syncWrite (s : State) (v : View) (key : ThreadKey) (g : Seg) (op : HeldOp) (fenced : Bool) (x n val : Nat) : State :=
  let c := coreIndex v
  let s1 := if op.releases || fenced then s.releaseFor v key g.space else s
  match op with
  | .sts _ => (s1.writeWord v x n val).changeFull (wordAt x) true
  | .bit full => (if isDram x then s1.recordCore c (lineAt x) else s1).changeFull (wordAt x) full
  | .barrier k count =>
    (if isDram x then s1.giveUpLine c (lineAt x) else s1).updBarrier x (some c) (k.apply count)
  | .plain | .memory _ | .append | .slot => s1

/-- The same by a handler, at its bank group and with no release (R190). -/
def State.nearWrite (s : State) (op : HeldOp) (x n val : Nat) : State :=
  let s1 := if isDram x then s.stopeLine (lineAt x) else s
  match op with
  | .sts _ => (s1.poke x n val).changeFull (wordAt x) true
  | .bit full => s1.changeFull (wordAt x) full
  | .barrier _ _ | .plain | .memory _ | .append | .slot => s1

/-- The write of the unit at issue. It is the synchronising store of a release fence before it (R237). -/
def State.unitWrite (s : State) (g : Seg) (op : HeldOp) (x n val : Nat) : State :=
  if s.thr.isHandler then s.nearWrite op x n val
  else
    (s.syncWrite s.thr.view s.thr.key g op s.thr.relFence x n val).onThr (fun t => { t with relFence := false })

/-- The unit's synchronising write is held at the port; it carries the release of a fence before it (R237). -/
def State.holdSync (s : State) (g : Seg) (op : HeldOp) (off n val : Nat) (parked : Bool) : State :=
  (s.holdStore g [(off, n, val)] s.thr.relFence parked op).onThr (fun t => { t with relFence := false })

/-- A synchronising write that waits for nothing: it is performed, or held at the port, by earlier accesses of the thread or
what stands before it there (R235, R236) or by a parking condition (R294), and the unit completes. -/
def State.syncUnit (s : State) (g : Seg) (op : HeldOp) (off n val : Nat) (need : Need) : State :=
  s.atWrite g off n false need (fun u => (u.holdSync g op off n val true).finish) fun u x =>
    if u.thr.isHandler then (u.unitWrite g op x n val).finish
    else
      let c := coreIndex u.thr.view
      let w := (if u.msgs.isEmpty then u else u.performMsgs (fun m => m.op.answers && m.key == u.thr.key)).portOpen c
        (u.item .store [(x, n)])
      if w.thr.loadsOpen || w.portOf c w.thr.key || !w.portFree c (w.item .store [(x, n)]) then
        (w.holdSync g op off n val false).finish
      else (w.unitWrite g op x n val).finish

/-- The two forms of STS. STS.PRODUCE waits for an empty word in its list, and its unit completes when it has been
performed (R125); so does one that a page holds back. -/
def State.sts (s : State) (sg : BitVec 3) (d a : BitVec 6) (dbl over_ : Bool) : State :=
  let n := elemSize dbl
  let off := (s.rg a).toNat
  let val := (s.rg d).toNat % 256 ^ n
  let checks (s : State) : Option TrapInfo :=
    firstTrap [s.accCheck sg off n n rightS .fe, s.fieldCheck (s.thr.seg sg) off n]
  if s.thr.grant.isSome then s.finish
  else if over_ then s.unless (checks s) fun s => s.syncUnit (s.thr.seg sg) (.sts true) off n val needW
  else
    s.writeGate fun s =>
    s.unless (checks s) fun s =>
      let g := s.thr.seg sg
      s.atWrite g off n false needW (fun u => (u.holdStore g [(off, n, val)] false true (.sts false)).park .held) fun s x =>
      s.portGate .store x n fun s =>
        if !s.isFull (wordAt x) then (s.unitWrite g (.sts false) x n val).finish
        else if s.thr.isHandler then s.onThr (fun t => t.handlerFault .feState)
        else
          ((s.releaseFor s.thr.view s.thr.key g.space).onThr (fun t => { t with relFence := false })).waitWord g off x
            (.produce x n (wordOf val))

/-- STS.PRODUCE. -/
def execStsProduce (_u : Bool) (sg : BitVec 3) (d a : BitVec 6) (dbl : Bool) (s : State) : Out :=
  .next (s.sts sg d a dbl false)

/-- STS.OVER. -/
def execStsOver (_u : Bool) (sg : BitVec 3) (d a : BitVec 6) (dbl : Bool) (s : State) : Out :=
  .next (s.sts sg d a dbl true)

/-- A full/empty bit is set by FESET or FECLR. -/
def State.setBit (s : State) (sg : BitVec 3) (a : BitVec 6) (full : Bool) : State :=
  let off := (s.rg a).toNat
  s.unless (firstTrap [s.accCheck sg off 8 8 rightS .fe, s.fieldCheck (s.thr.seg sg) off 8]) fun s =>
    s.syncUnit (s.thr.seg sg) (.bit full) off 8 0 needW

/-- FESET: a release. -/
def execFeset (_u : Bool) (sg : BitVec 3) (a : BitVec 6) (s : State) : Out := .next (s.setBit sg a true)

/-- FECLR. -/
def execFeclr (_u : Bool) (sg : BitVec 3) (a : BitVec 6) (s : State) : Out := .next (s.setBit sg a false)

/-- FEQ: a failure behind the port is precise at the unit (R292). -/
def execFeq (_u : Bool) (sg : BitVec 3) (d a : BitVec 6) (s : State) : Out :=
  let off := (s.rg a).toNat
  .next (s.readGate fun s =>
    s.unless (s.accCheck sg off 8 8 rightS .fe) fun s =>
      let g := s.thr.seg sg
      let va := g.base.toNat + off
      s.atPlace g off needR true (fun u c => u.trapUnit c va) fun s x =>
        if s.poisoned x 8 then s.trapUnit .poison va
        else s.portGate .load x 8 fun s => s.finishG d (if s.isFull (wordAt x) then 1 else 0))

/-! ## APND (R132, R133) -/

/-- The capacity of a ring, from the LOG2CAP field. -/
def ringCap (log2cap : Nat) : Nat := 2 ^ min (log2cap % 32) 16

/-- What the header step of an append gives: the slot's offset. HEAD has advanced (R133), a store to the ring's home (R238). -/
def State.ringStep (s : State) (v : View) (off : Nat) (x : Loc) : State × Nat :=
  let s1 := (if isDram x then s.giveUpLine (coreIndex v) (lineAt x) else s).serveAt x
  let h := s1.peek x 8
  let cap := ringCap (s1.peek (x + 16) 1)
  let s2 := s1.poke x 8 ((h + 1) % 2 ^ 64)
  (if isDram x then s2.recordCore (coreIndex v) (lineAt x) else s2, off + 64 + 8 * (h % cap))

/-- A request of a thread whose unit has not completed joins the tail of a word's list, and the thread waits there (R125),
in its slot or Spilled. -/
def State.joinWord (s : State) (key : ThreadKey) (g : Seg) (off : Nat) (x : Loc) (r : WordReq) : State :=
  let s1 := State.modThread { s with waits := s.waits ++ [⟨wordAt x, key, r, g.scratchOff off⟩] } key (fun t =>
    { t with status := if t.status = .spilled then .spilled else .parked, wait := .word (wordAt x) })
  match s1.thread? key with
  | none => s1
  | some t =>
    if t.status = .spilled then s1.saveList t.area 0x0480 [(s1.savedWait t).1, (s1.savedWait t).2, s1.requestOperand key] else s1

/-- The slot of an append, for a thread whose unit has not completed: the request is performed, and the thread wakes with
its unit complete; it waits in the slot's list; a page holds it back; the message is dropped with a record (R133); or the slot
lies beyond the stack scratchpad that the cores hold by now, and the thread wakes to SCRATCHBOUND (R230). `ord` is when the
header step took it. -/
def State.slotOne (s : State) (v : View) (key : ThreadKey) (pc : Nat) (g : Seg) (slot : Nat) (val : Word) (ord : Nat) : State :=
  let va := g.base.toNat + slot
  let drop (u : State) (c : Cause) : State := (u.lateFault (coreIndex v) key pc va 8 true c).wakeWith key 0
  let hold (u : State) : State :=
    { u with held := u.held ++ [⟨key, v, g, [(slot, 8, val.toNat)], pc, false, 0, true, .slot, ord⟩] }
  let z := ((s.island? v.island).map (fun i => i.zOf i.zWays)).getD 0
  if slot + 8 > g.len then drop s .segBound
  else if g.space = spStack ∧ z ≤ va then s.wakeTrap key .scratchBound (wordOf va) (wordOf z)
  else
    match s.locate v g slot needW false with
    | .ok x =>
      if isDram x && s.isFrozen x then drop s .frozen
      else if s.isFull (wordAt x) then s.joinWord key g slot x (.append val)
      else ((s.writeWord v x 8 val.toNat).changeFull (wordAt x) true).wakeWith key 0
    | .park => hold s
    | .service l e => hold (s.serviceFault v 0 va l e)
    | r => drop s r.cause

/-- The slot of an append, after the older appends to the same slot that a page has held back until now: they keep their
place in the order (R133). -/
def State.slotStep (s : State) (v : View) (key : ThreadKey) (pc : Nat) (g : Seg) (slot : Nat) (val : Word) (ord : Nat) : State :=
  let word (h : HeldStore) : Option Nat := h.elems.head?.bind (fun e => match s.heldPlace h e.1 with
    | .ok x => some (wordAt x)
    | _ => none)
  let here : Option Nat := match s.locate v g slot needW false with
    | .ok x => some (wordAt x)
    | _ => none
  let older (h : HeldStore) : Bool := h.op == .slot && decide (h.ord < ord) && here.isSome && word h == here
  let one (u : State) (h : HeldStore) : State := match h.elems with
    | [] => u
    | e :: _ => State.slotOne { u with held := u.held.erase h } h.view h.key h.pc h.seg e.1 (wordOf e.2.2) h.ord
  ((s.held.filter older).foldl one s).slotOne v key pc g slot val ord

/-- A thread that its own unit has woken goes on at once, its unit complete. -/
def State.takeGrant (s : State) : State :=
  if s.thr.grant.isSome then
    (State.onThr { s with wakes := s.wakes.erase s.thr.key } (fun t => { t with status := .ready, wait := .none })).finish
  else s

/-- APND (R133). Its write range is the header: DESIGN CHOICE (log 97), since the slot is found at memory. -/
def execApnd (_u : Bool) (sg : BitVec 3) (d a : BitVec 6) (s : State) : Out :=
  let off := (s.rg a).toNat
  let val := s.rg d
  .next (
    if s.thr.grant.isSome then s.finish
    else
      s.writeGate fun s =>
      s.unless (firstTrap [s.accCheck sg off 64 64 rightA .append, s.fieldCheck (s.thr.seg sg) off 64]) fun s =>
        let g := s.thr.seg sg
        s.atWrite g off 8 true needW (fun u => (u.holdStore g [(off, 8, val.toNat)] false true .append).park .held) fun s x =>
        s.portGate .store x 64 fun s =>
          let s1 := (s.releaseFor s.thr.view s.thr.key g.space).onThr (fun t => { t with relFence := false })
          match s1.ringStep s1.thr.view off x with
          | (s2, slot) =>
            ((s2.park .held).slotStep s2.thr.view s2.thr.key s2.thr.unitPc.toNat g slot val s2.draw).takeGrant)

/-! ## FENCE and DRAIN (R134, R135) -/

/-- Does the kind release, does it acquire (Table 5.7). -/
def FenceKind.releases : FenceKind → Bool
  | .full | .rel | .sc => true
  | .acq => false

/-- Does the kind acquire. -/
def FenceKind.acquires : FenceKind → Bool
  | .full | .acq | .sc => true
  | .rel => false

/-- Has the thread a RED or message ST.N that is still to be performed, here or at a far module. -/
def State.reductionsOpen (s : State) : Bool :=
  s.msgs.any (fun m => m.key == s.thr.key && !m.op.answers) ||
    s.held.any (fun h => h.key == s.thr.key && (match h.op with | .memory _ => true | _ => false)) ||
    s.farOut.any (fun m => m.isRed s.thr.key && s.opensBelow s.thr.key m.upTo)

/-- Does a store of the thread that goes into the write-combining buffer wait at the port: a FENCE drains it (R134). -/
def State.streamOpen (s : State) : Bool :=
  let k := s.core (coreIndex s.thr.view)
  k.port.any (fun p => p.key == s.thr.key && (p.policy == 1 || k.wcb.any (fun e => e.window == p.va / 128)))

/-- What a FENCE waits for: its acquire half for every earlier load and acquire (R239), at .dev and .sys for every earlier RED
and message ST.N (R134), a FENCE.SC for the stores that its release covers (R241), and every FENCE for what it drains. -/
def State.fenceWaits (s : State) (k : FenceKind) (sc : Scope) : Bool :=
  (FenceKind.acquires k && s.thr.loadsOpen) || (scopeDevice sc && s.reductionsOpen) ||
    (k == .sc && s.portOf (coreIndex s.thr.view) s.thr.key) || s.streamOpen

/-- FENCE (R134). -/
def State.fence (s : State) (k : FenceKind) (sc : Scope) : State :=
  let v := s.thr.view
  let key := s.thr.key
  match s.ownRecord with
  | some f => s.deliverRecord f
  | none =>
    let c := coreIndex v
    let s0 := (if s.msgs.isEmpty then s
      else s.performMsgs (fun m => m.key == key && ((m.op.answers && FenceKind.acquires k) || scopeDevice sc))).flushPort c
    if s0.fenceWaits k sc then s0.stall
    else
      let s1 := s0.drainWcb c (fun e => e.owners.contains key)
      let s2 := if scopeDevice sc then s1.ackFar key else s1
      let s4 := if FenceKind.releases k then (s2.release v key sc).onThr (fun t => { t with relFence := true }) else s2
      let s5 := if k = .sc then s4.orderPoint v sc else s4
      (if FenceKind.acquires k then s5.acquire v sc else s5).finish

/-- FENCE. -/
def execFence (_u : Bool) (k : FenceKind) (sc : Scope) (s : State) : Out := .next (s.fence k sc)

/-- DRAIN. -/
def execDrain (_u : Bool) (s : State) : Out := .next (s.drainThen State.finish)

/-! ## Transaction barriers (R137) -/

/-- A barrier operation that writes: it faults as stores do. -/
def State.barrierOp (s : State) (sg : BitVec 3) (a b : BitVec 6) (op : BarrierOp) : State :=
  let off := (s.rg a).toNat
  let count := (s.rg b).toNat % 2 ^ 32
  s.unless (firstTrap [s.accCheck sg off 16 16 rightS .append, s.fieldCheck (s.thr.seg sg) off 16]) fun s =>
    s.syncUnit (s.thr.seg sg) (.barrier op count) off 16 0 needRW

/-- TBINIT. -/
def execTbinit (_u : Bool) (a b : BitVec 6) (sg : BitVec 3) (s : State) : Out := .next (s.barrierOp sg a b .init)

/-- TBEXP. -/
def execTbexp (_u : Bool) (a b : BitVec 6) (sg : BitVec 3) (s : State) : Out := .next (s.barrierOp sg a b .expect)

/-- TBARV: a release at the barrier's scope. -/
def execTbarv (_u : Bool) (a b : BitVec 6) (sg : BitVec 3) (s : State) : Out := .next (s.barrierOp sg a b .arrive)

/-- A barrier operation that reads: its failures are precise at the unit (R292). -/
def State.barrierRead (s : State) (sg : BitVec 3) (a : BitVec 6) (k : State → Loc → Scope → State) : State :=
  let off := (s.rg a).toNat
  s.readGate fun s =>
  s.unless (s.accCheck sg off 16 16 rightS .append) fun s =>
    let g := s.thr.seg sg
    let va := g.base.toNat + off
    s.atPlace g off needRW true (fun u c => u.trapUnit c va) fun s x =>
      if s.poisoned x 16 then s.trapUnit .poison va
      else s.portGate .load x 16 fun s => k ((s.ownLine x).serveAt x) x (spaceScope g.space)

/-- TBWAIT: parks until DONE = 1, then acquires. -/
def execTbwait (_u : Bool) (a : BitVec 6) (sg : BitVec 3) (s : State) : Out :=
  .next (s.barrierRead sg a fun s x sc =>
    if (s.barrier x).done then (s.acquire s.thr.view sc).finish else s.park (.barrier x))

/-- TBTEST: acquires when it returns DONE = 1. -/
def execTbtest (_u : Bool) (d a : BitVec 6) (sg : BitVec 3) (s : State) : Out :=
  .next (s.barrierRead sg a fun s x sc =>
    let b := s.barrier x
    (if b.done then s.acquire s.thr.view sc else s).finishG d b.test)

end Sys2Proof.Machine
end

