-- ==== Sys2Proof/Machine/Launch.lean ====
section
/-! DEFINITION. Launch and dispatch (spec/04, R98, R99; spec/11, R245 to R254): the work packet and its checks, the
queues of an island, the dependence read, the decision, the placement, and the starting state of a thread. -/

namespace Sys2Proof.Machine

open Sys2Proof

/-! ## The work packet (R245 to R247) -/

/-- Bits `lo` to `lo + n − 1` of a packet. -/
def bitsAt (x lo n : Nat) : Nat := x / 2 ^ lo % 2 ^ n

/-- A view of an island's memory for what is done on its behalf by no thread: from its first tile. -/
def Island.view (i : Island) : View := ⟨i.num, i.shaft 0, 0, 0, 0, 0, 0, 0⟩

/-- Every reserved bit is zero (R246 item 1). -/
def packetClean (x : Nat) : Bool :=
  bitsAt x 62 2 == 0 && bitsAt x 126 2 == 0 && bitsAt x 184 8 == 0 && bitsAt x 397 3 == 0 && bitsAt x 413 3 == 0 &&
    bitsAt x 429 3 == 0 && bitsAt x 445 3 == 0

/-- The shift that a packet describes (Table 11.1), with its handle table and its gang length. -/
def packetShift (x htab isl gangLen : Nat) (dbg : Bool) (dep fin : Option Ref) : Shift where
  serial := 0
  island := isl
  entry := BitVec.ofNat 52 x
  queue := bitsAt x 52 6
  prio := bitsAt x 58 3
  dbg := dbg && bitsAt x 61 1 == 1
  htab := htab
  ibxh := bitsAt x 100 16
  threads := bitsAt x 116 5 + 1
  logCap := bitsAt x 121 5
  ncx := bitsAt x 128 16 + 1
  ncy := bitsAt x 144 16 + 1
  nstage := bitsAt x 160 4 + 1
  spad := bitsAt x 164 10
  cmem := bitsAt x 174 10
  args := BitVec.ofNat 64 (x / 2 ^ 192)
  dep := dep
  done := fin
  fmt := BitVec.ofNat 64 (x / 2 ^ 384)
  scl := BitVec.ofNat 64 (x / 2 ^ 448)
  gangLen := gangLen
  ready := false
  inboxDone := false
  next := 0
  gone := false
  live := 0
  nterm := 0
  killed := false
  term := false
  cause := none

/-- The ring stride of R247. -/
def Shift.stride (k : Shift) : Nat := (64 + 8 * ringCap k.logCap + 63) / 64 * 64

/-- What the check of a packet gives. -/
inductive PacketRes where
  | ok (k : Shift)
  /-- Nothing is enqueued (R98). -/
  | invalid
  /-- ENTRY lies in no code handle (R98). -/
  | badEntry
  | park (va : Nat)
  | service (va level entry : Nat)
  deriving DecidableEq, Repr

/-- A handle that the packet names, read from its table; one that SEGLD would reject makes the packet invalid. -/
def HRes.packet (r : HRes) (k : Seg → PacketRes) : PacketRes :=
  match r with
  | .ok g => k g
  | .park va => .park va
  | .service va l e => .service va l e
  | .segRight | .addrForm _ => .invalid

/-- A handle of the first `n` that has space 8, the X right and the entry within it (R98). -/
def codeHandle (s : State) (v : View) (htab pc : Nat) : Nat → HRes
  | 0 => .segRight
  | n + 1 =>
    match codeHandle s v htab pc n with
    | .segRight =>
      match readHandle s v htab (n + 1) with
      | .ok g =>
        if g.space = spCode ∧ g.rights &&& rightX = rightX ∧ g.base.toNat ≤ pc ∧ pc < g.base.toNat + g.len then .ok g
        else .segRight
      | .addrForm _ => .segRight
      | r => r
    | r => r

/-- Is the space one in which an engine's barrier, or an inbox, may lie: 4, 5 or 6. -/
def Seg.isShared (g : Seg) : Bool := g.space == spStack || g.space == spInter || g.space == spBank

/-- A barrier that the packet names; handle 0 means none (R246 item 5). -/
def packetBarrier (s : State) (v : View) (htab : Nat) (x : Nat) (k : Option Ref → PacketRes) : PacketRes :=
  if x % 65536 = 0 then k none
  else (readHandle s v htab (x % 65536)).packet fun g =>
    let off := x / 65536
    if g.rights &&& rightS = rightS ∧ g.isShared ∧ off % 16 = 0 ∧ off + 16 ≤ g.len then k (some ⟨g, off, v⟩)
    else .invalid

/-- The inbox region that the packet names (R246 item 4). -/
def packetInbox (s : State) (v : View) (k : Shift) (go : PacketRes) : PacketRes :=
  if k.ibxh = 0 then go
  else (readHandle s v k.htab k.ibxh).packet fun g =>
    let need := rightW ||| rightS ||| rightA
    if g.rights &&& need = need ∧ g.isShared ∧ k.crewCount * k.stride ≤ g.len then go else .invalid

/-- The packet's checks (R98, R99, R246): `own` is the issuer's table, `gang` the gang length of GANG. -/
def checkPacket (s : State) (i : Island) (v : View) (x own : Nat) (gang : Option Word) (host : Bool) : PacketRes :=
  let named := bitsAt x 64 36 * 65536
  let htab := if named = 0 then own else named
  if named ≠ 0 ∧ !i.tables.contains named then .invalid
  else
    match tableHeader s v htab with
    | (.park, _) => .park htab
    | (.service l e, _) => .service htab l e
    | (_, count) =>
    match codeHandle s v htab (x % 2 ^ 52) (count % 65536) with
    | .park va => .park va
    | .service va l e => .service va l e
    | .segRight | .addrForm _ => .badEntry
    | .ok _ =>
      let gl := (gang.map (·.toNat)).getD 1
      let k := packetShift x htab i.num gl host none none
      if !packetClean x then .invalid
      else if k.ncx > 65535 ∨ k.ncy > 65535 then .invalid
      else if k.spad > 512 ∨ k.cmem > 512 ∨ 256 * k.cmem + 256 * k.spad * ((k.threads + 3) / 4) > 131072 then .invalid
      else if gang.isSome ∧ !(2 ≤ gl && gl ≤ 12 && k.ncx % gl == 0 && gl ≤ Shape.width i.shape) then .invalid
      else packetInbox s v k (packetBarrier s v htab (bitsAt x 256 64) fun dep =>
        packetBarrier s v htab (bitsAt x 320 64) fun fin => .ok (packetShift x htab i.num gl host dep fin))

/-! ## Queues (R249) -/

/-- A queue of an island; one never used is empty. -/
def Island.queue (i : Island) (q : Nat) : Queue :=
  (i.queues.find? (fun u => u.num == q)).getD ⟨q, [], 0, false, false, 0, [], []⟩

/-- A queue set. -/
def Island.setQueue (i : Island) (q : Queue) : Island :=
  { i with queues := if i.queues.any (fun u => u.num == q.num) then i.queues.map (fun u => if u.num == q.num then q else u)
                     else i.queues ++ [q] }

/-- A shift gets the next serial number (R98). -/
def State.addShift (s : State) (k : Shift) : State :=
  { s with shifts := s.shifts ++ [{ k with serial := s.nextSerial }], nextSerial := s.nextSerial + 1 }

/-- A shift enters its queue at the tail, and its head if the queue was empty. -/
def State.enterTail (s : State) (k : Shift) : State :=
  let add (i : Island) : Island :=
    let q := i.queue k.queue
    i.setQueue { q with shifts := q.shifts ++ [k.serial] }
  let s1 := s.modIsland k.island add
  if ((s.island? k.island).map (fun i => (i.queue k.queue).shifts.isEmpty)).getD false then s1.reachHead k.island k.queue
  else s1

/-- Is the queue full. -/
def Island.queueFull (i : Island) (q : Nat) : Bool := 256 ≤ (i.queue q).shifts.length

/-! ## LAUNCH and GANG (R98, R99) -/

/-- The thread waits for room in a queue (Table 11.8). One that waits there already keeps its place (R261). -/
def State.parkQueue (s : State) (isl q : Nat) : State :=
  let k := s.thr.key
  let add (i : Island) : Island :=
    let u := i.queue q
    i.setQueue { u with
      waiters := if u.waiters.contains k then u.waiters else u.waiters ++ [k]
      woken := u.woken.filter (fun j => j != k) }
  (s.modIsland isl add).park (.queue q)

/-- May a thread's packet enter a queue now: it has room, and no other thread has waited for it longer (R261). -/
def Island.entersQueue (i : Island) (q : Nat) (k : ThreadKey) : Bool :=
  !i.queueFull q && (i.queue q).waiters.head?.all (fun j => j == k)

/-- A packet read by LAUNCH or GANG is checked and enqueued. DESIGN CHOICE (log 92): the SEGRIGHT of an ENTRY that lies in
no code handle has %tinfo1 = 0, since R98 gives %tinfo0 alone. -/
def State.launchPacket (s : State) (d : BitVec 6) (x : Nat) (gang : Option Word) : State :=
  match s.island? s.thr.view.island with
  | none => s.finishG d 0
  | some i =>
    match checkPacket s i s.thr.view x s.thr.htab gang false with
    | .park va => s.parkPage va
    | .service va l e => (s.serviceFault s.thr.view 0 va l e).parkPage va
    | .badEntry => s.trap .segRight (wordOf (x % 2 ^ 52)) 0
    | .invalid => s.finishG d 0
    | .ok k =>
      if !i.entersQueue k.queue s.thr.key then s.parkQueue i.num k.queue
      else
        let s1 := (s.releaseEager s.thr.view s.thr.key .dev).addShift k
        (s1.enterTail { k with serial := s.nextSerial }).finishG d (wordOf s.nextSerial)

/-- LAUNCH, or GANG with a gang length: the LNC grant, the read of the packet, then the packet. -/
def State.launchWith (s : State) (d a : BitVec 6) (sg : BitVec 3) (gang : Option Word) : State :=
  let off := (s.rg a).toNat
  s.withHeader fun h =>
    if h / 2 ^ 17 % 2 = 0 then s.trap .segRight (s.rg a) (sg.zeroExtend 64)
    else s.deviceGate fun s =>
      s.unless (s.accCheck sg off 64 64 rightR .load) fun s =>
        let g := s.thr.seg sg
        if g.space = spFar then
          let s1 := (State.modCore { s with free := s.free + 1 } (coreIndex s.thr.view) (fun c => { c with farSeq := c.farSeq + 1 }))
          if Config.farFails s.free then s1.trapUnit .owner (g.base.toNat + off)
          else s1.launchPacket d (Config.farBytes s.free).toNat gang
        else
          match s.loadBytes g off 64 with
          | (s1, .park va) => s1.parkPage va
          | (s1, .fault c va) => s1.trapUnit c va
          | (s1, .value x) => s1.launchPacket d x gang
          | (s1, .wait) => s1.stall

/-- LAUNCH (R98). -/
def execLaunch (_u : Bool) (d a : BitVec 6) (sg : BitVec 3) (s : State) : Out := .next (s.launchWith d a sg none)

/-- GANG (R99). -/
def execGang (_u : Bool) (d a b : BitVec 6) (sg : BitVec 3) (s : State) : Out :=
  .next (s.launchWith d a sg (some (s.rg b)))

/-! ## Dependence (R249) -/

/-- Is the shift the head of its queue. -/
def State.atHead (s : State) (k : Shift) : Bool :=
  ((s.island? k.island).map (fun i => (i.queue k.queue).shifts.head? == some k.serial)).getD false

/-- The dependence read failed: the shift ends before any crew dispatches, its crews count as terminated, and the resident
service is told. -/
def State.dependenceFails (s : State) (k : Shift) (c : Cause) : State :=
  let s1 := State.modShift { s with svcReports := s.svcReports ++ [.dependence k.serial c] } k.serial (fun q => { q with term := true, cause := some c, nterm := q.crewCount })
  (s1.leaveQueue k).shiftCheck k.serial

/-- The acquiring read of a Held packet's dependence barrier. -/
def State.dependenceRead (s : State) (k : Shift) (b : Ref) : State :=
  if b.seg.isDram && badAddress (b.seg.base.toNat + b.off) then s.dependenceFails k .addrForm
  else
    match s.locateNow b.view b.seg b.off needR with
    | .ok x =>
      let s1 := if isDram x then s.serveRecords (lineAt x) else s
      if s1.poisoned x 16 then s1.dependenceFails k .poison
      else if (s1.barrier x).done then s1.modShift k.serial (fun q => { q with ready := true })
      else s1
    | .park => s
    | .service l e => s.serviceFault b.view 0 (b.seg.base.toNat + b.off) l e
    | r => s.dependenceFails k r.cause

/-- A head packet that is Held reads its barrier. -/
def State.tryDependence (s : State) (serial : Nat) : State :=
  match s.shift? serial with
  | none => s
  | some k =>
    match k.dep with
    | none => s
    | some b => if s.atHead k && !k.ready then s.dependenceRead k b else s

/-- PACKET_DEPENDENCE_READ (R249). -/
def execPacketDependenceRead (serial : Nat) (s : State) : Out := .next (s.tryDependence serial)

/-! ## The choice of queue (R250) -/

/-- The Ready queues of an island, by rising number, each with its head. -/
def State.readyQueues (s : State) (i : Island) : List (Queue × Shift) :=
  (List.range 64).filterMap (fun n =>
    match (i.queue n).shifts.head?.bind s.shift? with
    | some k => if k.ready then some (i.queue n, k) else none
    | none => none)

/-- Does queue `a` win against queue `b` of a higher number. -/
def Queue.beats (a b : Queue) : Bool :=
  if a.eff ≠ b.eff then b.eff < a.eff
  else if a.urgent != b.urgent then a.urgent
  else if a.passed != b.passed then a.passed
  else true

/-- The candidate. -/
def candidate : List (Queue × Shift) → Option (Queue × Shift)
  | [] => none
  | a :: l =>
    match candidate l with
    | none => some a
    | some b => if a.1.beats b.1 then some a else some b

/-- What a decision leaves in a Ready queue that lost; `eff` is the winner's effective priority after the decision. -/
def Queue.lose (q : Queue) (eff : Nat) : Queue :=
  let p := if q.eff = eff then true else q.passed
  if q.count + 1 = 4096 then
    if q.eff < 7 then { q with passed := p, count := 0, eff := q.eff + 1 }
    else { q with passed := p, count := 0, urgent := true }
  else { q with passed := p, count := q.count + 1 }

/-- What a decision leaves in the winner. -/
def Queue.win (q : Queue) (prio : Nat) : Queue := { q with passed := false, urgent := false, count := 0, eff := prio }

/-! ## Placement (R252) -/

/-- The scratchpad ranges of a core that crews hold. -/
def State.usedRanges (s : State) (cl core : Nat) : List (Nat × Nat) :=
  (s.crews.filter (fun k => k.cluster == cl)).flatMap (fun k =>
    (k.cmemBase / 4, k.cmemSize / 4) :: (k.spads.filter (fun p => p.1 == core)).map (·.2))

/-- Is a range of a scratchpad free. -/
def rangeFree (u : List (Nat × Nat)) (b n : Nat) : Bool :=
  b + n ≤ 131072 && u.all (fun r => r.2 == 0 || n == 0 || b + n ≤ r.1 || r.1 + r.2 ≤ b)

/-- The lowest base at which a range is free. -/
def firstFree (u : List (Nat × Nat)) (n : Nat) : Option Nat :=
  ((u.map (fun r => r.1 + r.2)).foldl setAdd [0]).find? (fun b => rangeFree u b n)

/-- The free slots of a core. A slot that a retired or Spilled thread has left is free. -/
def State.freeSlots (s : State) (core : Nat) : List Nat :=
  if (s.core core).health != .ok then []
  else (List.range 8).filter (fun i => !s.threads.any (fun t =>
    t.role == .crew && t.live && t.status != .spilled && coreIndex t.view == core && t.view.slot == i))

/-- The core with the most free slots, the lowest on a tie. -/
def mostFree (free : List (List Nat)) : Nat :=
  (List.range free.length).foldl (fun b c => if (free.getD b []).length < (free.getD c []).length then c else b) 0

/-- Cores, slots and scratchpad bases for threads in %tid order. -/
def assignThreads (spad : Nat) : Nat → List (List Nat) → List (List (Nat × Nat)) → Option (List (Nat × Nat × Nat))
  | 0, _, _ => some []
  | n + 1, free, used =>
    let c := mostFree free
    match free.getD c [], firstFree (used.getD c []) spad with
    | slot :: rest, some b =>
      (assignThreads spad n (free.set c rest) (used.set c ((b, spad) :: used.getD c []))).map ((c, slot, b) :: ·)
    | _, _ => none

/-- Where a crew fits on a cluster with its cluster memory at a base: the threads, by core, slot and scratchpad base. -/
def State.fitAt (s : State) (k : Shift) (cl b : Nat) : Option (Nat × Nat × List (Nat × Nat × Nat)) :=
  let used := (List.range 4).map (s.usedRanges cl)
  if !used.all (fun u => rangeFree u b (256 * k.cmem)) then none
  else
    let used' := used.map (fun u => (b, 256 * k.cmem) :: u)
    (assignThreads (256 * k.spad) k.threads ((List.range 4).map (fun c => s.freeSlots (4 * cl + c))) used').map (fun l => (cl, b, l))

/-- Where a crew fits on a cluster: its cluster-memory base, the lowest 1 KiB-aligned one that leaves room for its threads
(R252). A withdrawn tile takes none (R361), and cluster memory needs the scratchpads of all four cores (R300). -/
def State.fit (s : State) (k : Shift) (cl : Nat) : Option (Nat × Nat × List (Nat × Nat × Nat)) :=
  let bad (c : Nat) : Bool := (s.core (4 * cl + c)).health != .ok
  if (s.matrixEng cl).evicted || s.withdrawn.contains cl || (k.cmem != 0 && (List.range 4).any bad) then none
  else (List.range 512).findSome? (fun b => s.fitAt k cl (256 * b))

/-- The tiles for a gang of `n` from tile `x0` eastward in its row. -/
def gangTiles (i : Island) (x0 n : Nat) : Option (List Nat) :=
  let l := List.range' x0 n
  if x0 % 96 % 12 + n ≤ 12 ∧ l.all (fun t => (Shape.tiles i.shape).contains t) then some l else none

/-- Where the next crew or gang of a shift goes. -/
def State.placement (s : State) (i : Island) (k : Shift) : Option (List (Nat × Nat × List (Nat × Nat × Nat))) :=
  if k.gangLen = 1 then (Shape.tiles i.shape).findSome? (fun cl => (s.fit k cl).map (fun p => [p]))
  else (Shape.tiles i.shape).findSome? (fun x0 => (gangTiles i x0 k.gangLen).bind (fun l => l.mapM (s.fit k)))

/-! ## Dispatch (R216, R247, R248) -/

/-- A parking condition met by dispatch, with the address. -/
inductive Ready (α : Type) where
  | ok (x : α)
  | park
  | service (va level entry : Nat)
  deriving DecidableEq, Repr

/-- One word of an inbox ring is initialised: the header's words full, the slots empty, and the word's list served (R125). Dispatch waits for a word that
cannot be written (R247). -/
def State.ringWord (s : State) (i : Island) (g : Seg) (log2cap ring w : Nat) : Ready State :=
  match s.locate i.view g (ring + 8 * w) needW false with
  | .ok x =>
    if isDram x && s.isFrozen x then .park
    else
      let s1 := if isDram x then s.stopeLine (lineAt x) else s
      .ok ((s1.poke x 8 (if w = 2 then log2cap else 0)).changeFull (wordAt x) (w < 8))
  | .service l e => .service (g.base.toNat + ring + 8 * w) l e
  | _ => .park

/-- The words of every crew's ring are initialised before the first crew dispatches (R247). -/
def initRingsGo (i : Island) (k : Shift) (g : Seg) : List (Nat × Nat) → State → Ready State
  | [], s => .ok s
  | p :: ps, s =>
    match s.ringWord i g (min k.logCap 16) (p.1 * k.stride) p.2 with
    | .ok s1 => initRingsGo i k g ps s1
    | r => r

/-- Every crew's ring is initialised. -/
def State.initRings (s : State) (i : Island) (k : Shift) (g : Seg) : Ready State :=
  initRingsGo i k g ((List.range k.crewCount).flatMap (fun n => (List.range (8 + ringCap k.logCap)).map (fun j => (n, j)))) s

/-- The segment registers of a new thread (R29): handles n + 1 on. -/
def loadSegs (s : State) (v : View) (htab : Nat) : Nat → Ready (List Seg)
  | 0 => .ok []
  | n + 1 =>
    match loadSegs s v htab n with
    | .ok l =>
      match readHandle s v htab (n + 1) with
      | .ok g => .ok (l ++ [g])
      | .segRight | .addrForm _ => .ok (l ++ [Seg.empty])
      | .park _ => .park
      | .service va lv e => .service va lv e
    | r => r

/-- The starting state of a thread (R248, R17, Table 1.4). -/
def Shift.newThread (k : Shift) (n cx cy stage tid : Nat) (v : View) (segs : List Seg) : Thread :=
  { Thread.blank (.crew k.serial n tid) with
    view := v
    status := .ready
    pc := k.entry
    segs := Vector.ofFn (fun (j : Fin 8) => segs.getD j Seg.empty)
    nthr := k.threads
    cx := cx
    cy := cy
    stage := stage
    ncx := k.ncx
    ncy := k.ncy
    nstage := k.nstage
    queue := BitVec.ofNat 6 k.queue
    prio := BitVec.ofNat 3 k.prio
    args := k.args
    fmt := Vector.ofFn (fun (j : Fin 4) => BitVec.ofNat 13 (bitsAt k.fmt.toNat (16 * j) 13))
    scl := Vector.ofFn (fun (j : Fin 4) => wordOf (bitsAt k.scl.toNat (16 * j) 16))
    inbox := if k.ibxh = 0 then 0 else wordOf (k.ibxh + n * k.stride * 65536)
    htab := k.htab
    dbg := k.dbg }

/-- The view of a thread placed on a cluster. -/
def Shift.viewAt (k : Shift) (cl b : Nat) (p : Nat × Nat × Nat) : View :=
  ⟨k.island, cl, p.1, p.2.1, p.2.2, 256 * k.spad, 4 * b, 1024 * k.cmem⟩

/-- One thread is set up: its block and its lane memory cleared, its segments loaded, Acquire(.dev). -/
def State.startThread (s : State) (k : Shift) (n cx cy stage tid cl b : Nat) (p : Nat × Nat × Nat) : Ready State :=
  let v := k.viewAt cl b p
  match loadSegs s v k.htab 8 with
  | .park => .park
  | .service va l e => .service va l e
  | .ok segs =>
    let s1 := (s.clearRange (laneLoc (coreIndex v) v.slot 0) 8192).wipe (spadLoc (coreIndex v) v.spadBase) v.spadSize
    let s2 := s1.acquire v .dev
    .ok { s2 with others := s2.others ++ [k.newThread n cx cy stage tid v segs] }

/-- The threads of a crew, in %tid order. -/
def startThreads (k : Shift) (n cx cy stage cl b : Nat) : List (Nat × Nat × Nat) → Nat → State → Ready State
  | [], _, s => .ok s
  | p :: ps, tid, s =>
    match s.startThread k n cx cy stage tid cl b p with
    | .ok s1 => startThreads k n cx cy stage cl b ps (tid + 1) s1
    | r => r

/-- One crew is dispatched. -/
def State.startCrew (s : State) (k : Shift) (n cx cy stage : Nat) (gang : Option (Nat × Nat))
    (f : Nat × Nat × List (Nat × Nat × Nat)) : Ready State :=
  let cl := f.1
  let b := f.2.1
  let crew : Crew := ⟨k.serial, n, k.island, cl, 4 * b, 1024 * k.cmem, f.2.2.map (fun p => (p.1, p.2.2, 256 * k.spad)), k.threads,
    [], gang, false⟩
  let clear (u : State) (c : Nat) : State := u.wipe (spadLoc (4 * cl + c) b) (256 * k.cmem)
  let s1 := (List.range 4).foldl clear { s with crews := s.crews ++ [crew] }
  startThreads k n cx cy stage cl b f.2.2 0 s1

/-- The crews of one decision. -/
def startCrews (k : Shift) (j cy stage : Nat) (gid : Option Nat) : List (Nat × Nat × List (Nat × Nat × Nat)) → Nat → State →
    Ready State
  | [], _, s => .ok s
  | f :: fs, m, s =>
    let cx := j * k.gangLen + m
    let n := (cy * k.ncx + cx) * k.nstage + stage
    match s.startCrew k n cx cy stage (gid.map (fun g => (g, m))) f with
    | .ok s1 => startCrews k j cy stage gid fs (m + 1) s1
    | r => r

/-- The next crew or gang of a shift starts at its place (R251). A member whose engine is retired has failed (R181, R188). -/
def State.dispatch (s : State) (k : Shift) (fs : List (Nat × Nat × List (Nat × Nat × Nat))) : Ready State :=
  let gj := k.ncx / k.gangLen
  let stage := k.next % k.nstage
  let j := k.next / k.nstage % gj
  let cy := k.next / (k.nstage * gj)
  if k.gangLen = 1 then startCrews k j cy stage none fs 0 s
  else
    let gang : Gang := ⟨s.nextId, (fs.headD (0, 0, [])).1, k.gangLen,
      (List.range fs.length).find? (fun m => (s.matrixEng (fs.getD m (0, 0, [])).1).retired)⟩
    startCrews k j cy stage (some s.nextId) fs 0 { s with gangs := s.gangs ++ [gang], nextId := s.nextId + 1 }

/-- Can a host packet that the resident service holds enter its queue: the queue has room and no thread waits for it. -/
def State.admits (s : State) (h : HostLaunch) : Bool :=
  match (s.shift? h.serial).bind (fun k => (s.island? k.island).map (fun i => (i, k.queue))) with
  | none => true
  | some (i, q) => !i.queueFull q && (i.queue q).waiters.isEmpty

/-- The oldest host packet that can enter its queue enters it, and its command is answered (R249). -/
def State.admitHeld (s : State) : State :=
  match s.hostLaunches.find? s.admits with
  | none => s
  | some h =>
    let s1 : State := { s with hostLaunches := s.hostLaunches.erase h }
    match s.shift? h.serial with
    | none => s1
    | some k => (s1.enterTail k).answer ⟨h.conn, h.seq, k.island, h.tag, 0⟩ 5 0 (bytesOf k.serial 8)

/-- After a decision: the queues' bits, the shift's progress, and its leaving the queue with its last crew. -/
def State.afterDecision (s : State) (i : Island) (ready : List (Queue × Shift)) (k : Shift) : State :=
  let mark (u : State) (q : Queue × Shift) : State :=
    if q.2.serial = k.serial then u.modIsland i.num (fun x => x.setQueue (q.1.win k.prio))
    else u.modIsland i.num (fun x => x.setQueue (q.1.lose k.prio))
  let s1 := ready.foldl mark s
  let s2 := s1.modShift k.serial (fun q => { q with next := q.next + 1, live := q.live + q.gangLen, inboxDone := true })
  if (k.next + 1) * k.gangLen ≥ k.crewCount then s2.leaveQueue k else s2

/-- The decision for the winner: it is made only when its next crew or gang can be placed and set up. -/
def State.decide (s : State) (i : Island) (ready : List (Queue × Shift)) (k : Shift) : State :=
  match s.placement i k with
  | none => s
  | some fs =>
    let start (u : State) : State := match u.dispatch k fs with
      | .ok w => w.afterDecision i ready k
      | .park => s
      | .service va l e => s.serviceFault i.view 0 va l e
    if k.inboxDone || k.ibxh = 0 then start s
    else
      match readHandle s i.view k.htab k.ibxh with
      | .ok g =>
        match s.initRings i k g with
        | .ok s1 => start s1
        | .park => s
        | .service va l e => s.serviceFault i.view 0 va l e
      | .park _ => s
      | .service va l e => s.serviceFault i.view 0 va l e
      | .segRight | .addrForm _ => start s

/-- The dispatch control of an island takes a decision, if there is one to take. -/
def State.decision (s : State) (island : Nat) : State :=
  let s0 := s.admitHeld
  match s0.island? island with
  | none => s0
  | some i =>
    let ready := s0.readyQueues i
    match candidate ready with
    | none => s0
    | some q => s0.decide i ready q.2

/-- DISPATCH_DECISION (R250). -/
def execDispatchDecision (island : Nat) (s : State) : Out := .next (s.decision island)

/-! ## A retired crew's memory (R87, R198) -/

/-- The places that engines at work still name, with their barriers. -/
def State.openRefs (s : State) : List Ref :=
  s.copies.flatMap (fun c => [c.src, c.dst, c.bar]) ++ s.rowJobs.flatMap (fun r => [r.dst, r.bar]) ++
    s.thaws.flatMap (fun t => t.bar.toList) ++ s.arrivals.map (·.bar) ++
    s.fields.flatMap (fun f => f.snaps ++ f.due.map (fun d => d.2.2)) ++
    s.matrix.flatMap (fun m => m.ops.flatMap (fun o => match o with
      | .load _ _ _ a b _ => [a, b]
      | .drain d => [d.dst]
      | .job j => j.refs.map (·.2)
      | .clear _ _ | .zero _ _ | .release _ _ => []))

/-- Does a place lie in the crew's own memory. -/
def Crew.holds (k : Crew) (r : Ref) : Bool :=
  r.view.cluster == k.cluster &&
    ((r.seg.space == spCluster && r.view.cmemBase == k.cmemBase && k.cmemSize != 0) ||
      (r.seg.space == spCore && k.spads.contains (r.view.core, r.view.spadBase, r.view.spadSize)))

/-- Does anything still come to land in a crew's memory. -/
def State.crewOwed (s : State) (k : Crew) : Bool :=
  s.calls.any (fun c => c.live && c.crew == (k.serial, k.n)) || s.openRefs.any k.holds ||
    (s.matrixEng k.cluster).ops.any (fun o => o.ofCrew (k.serial, k.n)) ||
    s.msgs.any (fun m => ThreadKey.ofCrew m.key k.serial k.n) || s.held.any (fun h => ThreadKey.ofCrew h.key k.serial k.n) ||
    s.cores.any (fun c => c.port.any (fun p => ThreadKey.ofCrew p.key k.serial k.n))

/-- CREW_MEMORY_RELEASE (R87): a retired crew's ranges are free once nothing that it targets is still to land. -/
def execCrewMemoryRelease (serial n : Nat) (s : State) : Out :=
  .next (match s.crew? (serial, n) with
    | none => s
    | some k =>
      if !k.retired || s.crewOwed k then s
      else
        { s with crews := s.crews.filter (fun c => !(c.serial == serial && c.n == n))
                 others := s.others.filter (fun t => !t.inCrew serial n)
                 gangs := s.gangs.filter (fun g => s.crews.any (fun c =>
                   !(c.serial == serial && c.n == n) && (c.gang.map (·.1)) == some g.id)) })

end Sys2Proof.Machine
end

