-- ==== Sys2Proof/Machine/Engine.lean ====
section
/-! DEFINITION. What the engines share (spec/10, R242; spec/08, R190; spec/13, R291, R292): reads and writes at a place,
made for a view, with the conditions that stall or stop an engine; and the checks of handle-offset operands (spec/01,
R22). -/

namespace Sys2Proof.Machine

open Sys2Proof

/-! ## Accesses of an engine -/

/-- What an engine's access meets. -/
inductive EngRes where
  | ok
  /-- A parking condition: the engine stalls. -/
  | park
  | fault (c : Cause)
  deriving DecidableEq, Repr

/-- A unit whose thread was parked for engine work is complete when the work has ended. -/
def State.resumed (s : State) (k : State → State) : State := if s.thr.grant.isSome then s.finish else k s

/-- A place for an engine; `kind` is the requester of Table 13.7. -/
def State.engPlace (s : State) (kind : Nat) (v : View) (g : Seg) (off : Nat) (n : Need) : State × EngRes × Loc :=
  let va := g.base.toNat + off
  if g.isDram && badAddress va then (s, .fault .addrForm, 0)
  else
    match s.locateNow v g off n with
    | .ok x => (s, .ok, x)
    | .park => (s, .park, 0)
    | .service l e => (s.serviceFault v kind va l e, .park, 0)
    | r => (s, .fault r.cause, 0)

/-- A read of `n` bytes in one line: at its place, after the recalls of R242 on behalf of core `c`;
far memory is read at the far module, by a message of the core's (R310, R311). -/
def State.engReadPiece (s : State) (kind c : Nat) (v : View) (g : Seg) (off n : Nat) : State × EngRes × Nat :=
  if g.space = spFar then
    let s1 := State.modCore { s with free := s.free + 1 } c (fun k => { k with farSeq := k.farSeq + 1 })
    if Config.farFails s.free then (s1, .fault .owner, 0) else (s1, .ok, (Config.farBytes s.free).toNat % 256 ^ n)
  else
  match s.engPlace kind v g off needR with
  | (s1, .ok, x) =>
    let s2 := if isDram x then s1.kickLine c (lineAt x) else s1
    if s2.poisoned x n then (s2, .fault .poison, 0) else (s2, .ok, s2.peek x n)
  | (s1, r, _) => (s1, r, 0)

/-- A read of several pieces; the first failure decides, and comes with its offset. -/
def State.engReadGo (s : State) (kind c : Nat) (v : View) (g : Seg) (off : Nat) : List (Nat × Nat) → Nat → State × EngRes × Nat
  | [], acc => (s, .ok, acc)
  | p :: ps, acc =>
    match s.engReadPiece kind c v g (off + p.1) p.2 with
    | (s1, .ok, x) => s1.engReadGo kind c v g off ps (acc + x * 256 ^ p.1)
    | (s1, r, _) => (s1, r, off + p.1)

/-- A read of `n` bytes by an engine. -/
def State.engRead (s : State) (kind c : Nat) (v : View) (g : Seg) (off n : Nat) : State × EngRes × Nat :=
  s.engReadGo kind c v g off (rangePieces 128 (g.base.toNat + off) n) 0

/-- What a write of an engine finds at a place. A retired core's scratchpad discards stores, and a copy to it fails
(R300). -/
def State.engWritable (s : State) (kind : Nat) (v : View) (g : Seg) (off : Nat) (need : Need) : State × EngRes × Loc :=
  match s.engPlace kind v g off need with
  | (s1, .ok, x) =>
    if isDram x && s1.isFrozen x then (s1, .fault .frozen, x)
    else if kind = 1 ∧ s1.padHealth x = .retired then (s1, .fault .deadCore, x)
    else (s1, .ok, x)
  | r => r

/-- A write of `n` bytes in one line at its place, never into an L1 (R242). -/
def State.engWritePiece (s : State) (kind c : Nat) (v : View) (g : Seg) (off n val : Nat) (need : Need) : State × EngRes :=
  match s.engWritable kind v g off need with
  | (s1, .ok, x) =>
    if isDram x then
      ((s1.kickLine c (lineAt x)).mergeHome (lineAt x) (byteMask (x % 128) n) (placeLine (x % 128) n val), .ok)
    else (s1.poke x n val, .ok)
  | (s1, r, _) => (s1, r)

/-- A write of several pieces; it stops at the first failure. -/
def State.engWriteGo (s : State) (kind c : Nat) (v : View) (g : Seg) (off val : Nat) (need : Need) :
    List (Nat × Nat) → State × EngRes
  | [] => (s, .ok)
  | p :: ps =>
    match s.engWritePiece kind c v g (off + p.1) p.2 (val / 256 ^ p.1 % 256 ^ p.2) need with
    | (s1, .ok) => s1.engWriteGo kind c v g off val need ps
    | r => r

/-- A write of `n` bytes by an engine. -/
def State.engWrite (s : State) (kind c : Nat) (v : View) (g : Seg) (off n val : Nat) : State × EngRes :=
  s.engWriteGo kind c v g off val needW (rangePieces 128 (g.base.toNat + off) n)

/-- What the pieces of a write find: the first that is not ok. -/
def State.engCheck (s : State) (kind : Nat) (v : View) (g : Seg) (off : Nat) (need : Need) : List (Nat × Nat) → State × EngRes
  | [] => (s, .ok)
  | p :: ps =>
    match s.engWritable kind v g (off + p.1) need with
    | (s1, .ok, _) => s1.engCheck kind v g off need ps
    | (s1, r, _) => (s1, r)

/-- A write of `n` bytes by an engine that is made whole or not at all. -/
def State.engWriteWhole (s : State) (kind c : Nat) (v : View) (g : Seg) (off n val : Nat) (need : Need) : State × EngRes :=
  let ps := rangePieces 128 (g.base.toNat + off) n
  match s.engCheck kind v g off need ps with
  | (s1, .ok) => s1.engWriteGo kind c v g off val need ps
  | r => r

/-! ## Handle-offset operands (R22) -/

/-- A handle-offset operand followed for the thread at issue: a handle that SEGLD would reject traps SEGRIGHT with the
offset and the handle's number. -/
def State.withPlace (s : State) (x : Word) (k : Seg → Nat → State) : State :=
  match followHandle s s.thr.view s.thr.htab x with
  | .ok g => k g (handleOff x)
  | .park va => s.parkPage va
  | .service va l e => (s.serviceFault s.thr.view 0 va l e).parkPage va
  | .segRight | .addrForm _ => s.trap .segRight (wordOf (handleOff x)) (wordOf (handleNum x))

/-- A missing right, or a space that does not permit the access: SEGRIGHT. -/
def rightCheck (g : Seg) (idx off : Nat) (rights : BitVec 8) (ok : Bool) : Option TrapInfo :=
  if g.rights &&& rights != rights || !ok then some ⟨.segRight, wordOf off, wordOf idx⟩ else none

/-- A range beyond its segment: SEGBOUND. -/
def boundCheck (g : Seg) (idx off size : Nat) : Option TrapInfo :=
  if off + size > g.len then some ⟨.segBound, wordOf off, wordOf idx⟩ else none

/-- An offset that is not a multiple: ALIGN. -/
def alignCheck (idx off align : Nat) : Option TrapInfo :=
  if off % align != 0 then some ⟨.align, wordOf off, wordOf idx⟩ else none

/-- A condition that traps when it holds. -/
def trapIf (b : Bool) (c : Cause) (i0 i1 : Nat) : Option TrapInfo := if b then some ⟨c, wordOf i0, wordOf i1⟩ else none

/-- The form check of a range that is not empty, made at issue also where an engine reaches the bytes later (R228, R283,
R296 item 4). -/
def formRange (s : State) (v : View) (g : Seg) (off size : Nat) : Option TrapInfo :=
  if size = 0 then none else formCheck s v g off size

/-- The checks of a barrier named by an instruction: right S, a space that can hold one, bounds and alignment. -/
def barrierRight (g : Seg) (x : Word) : Option TrapInfo :=
  rightCheck g (handleNum x) (handleOff x) rightS (Acc.permits .append g)

end Sys2Proof.Machine
end

