-- ==== Sys2Proof/Machine/Matrix.lean ====
section
/-! DEFINITION. The matrix instructions as threads issue them (spec/07, R165 to R177, R183, R185): ownership of tiles,
the job descriptor and its checks, and what enters the engine's work. -/

namespace Sys2Proof.Machine

open Sys2Proof

/-! ## Formats of jobs (Tables 1.5 and 7.3) -/

/-- The floating format of a code of Table 1.5; INT8 (3) has none. -/
def fmtOfCode : Nat → Option Fmt
  | 0 => some .e4m3 | 1 => some .e5m2 | 2 => some .e2m1 | 4 => some .fp16 | 5 => some .bf16 | 6 => some .fp32 | 7 => some .fp64
  | _ => none

/-- The element width of a code in bits. -/
def codeBits (c : Nat) : Nat := if c = 3 then 8 else ((fmtOfCode c).map Fmt.width).getD 8

/-- The k-step of a combination of Table 7.3; 0 for any other. -/
def kStep (fa fb : Nat) : Nat :=
  if fa ≤ 2 ∧ fb ≤ 2 then 128
  else if fa ≠ fb then 0
  else if fa = 3 then 128
  else if fa = 4 ∨ fa = 5 then 32
  else if fa = 6 ∨ fa = 7 then 1
  else 0

/-- FA, FB and SG of a format descriptor. -/
def fmtA (f : BitVec 13) : Nat := bitsAt f.toNat 0 4
def fmtB (f : BitVec 13) : Nat := bitsAt f.toNat 4 4
def fmtG (f : BitVec 13) : Nat := bitsAt f.toNat 8 2

/-! ## The job descriptor (Table 7.2) -/

/-- A handle-offset field of a descriptor. -/
def descWord (d : BitVec 1024) (lo : Nat) : Word := wordOf (bitsAt d.toNat lo 64)

/-- A field of a descriptor. -/
def descBits (d : BitVec 1024) (lo n : Nat) : Nat := bitsAt d.toNat lo n

def descK (d : BitVec 1024) : Nat := descBits d 512 32
def descM (d : BitVec 1024) : Nat := descBits d 544 7
def descN (d : BitVec 1024) : Nat := descBits d 551 7
def descAPitch (d : BitVec 1024) : Nat := descBits d 448 32
def descBPitch (d : BitVec 1024) : Nat := descBits d 480 32
def descMPitch (d : BitVec 1024) : Nat := descBits d 576 32
def descSaPitch (d : BitVec 1024) : Nat := descBits d 608 32
def descRsteps (d : BitVec 1024) : Nat := descBits d 704 8
def descTstep (d : BitVec 1024) : Nat := descBits d 712 1
def descAStep (d : BitVec 1024) : Nat := descBits d 736 32
def descMStep (d : BitVec 1024) : Nat := descBits d 768 32
def descSaStep (d : BitVec 1024) : Nat := descBits d 800 32

/-- A rounding mode by its code (Table 2.3). -/
def rmOf (n : Nat) : Rm := (Rm.ofCode? n).getD .rne

/-- The ring chunks that a job uses, in the order of its steps (R179); chunk 0 alone without a ring. -/
def jobChunks (ring : Option RingInfo) (d : BitVec 1024) : List Nat :=
  match ring with
  | none => [0]
  | some g => (List.range (descRsteps d)).map (fun r => (g.pos + g.len - r % g.len) % g.len)

/-- Every tile that a job may write (R167, R176). -/
def jobTiles (ring : Option RingInfo) (d : BitVec 1024) (f : BitVec 13) (base : Nat) : List Nat :=
  (jobChunks ring d).flatMap (fun c =>
    let t := base + c * descTstep d
    if fmtA f = 7 then [t, t + 1] else [t])

/-- The bytes of one row of A within K elements: half of them when the job is sparse. -/
def aRowBytes (f : BitVec 13) (k : Nat) (sparse : Bool) : Nat := ((if sparse then k / 2 else k) * codeBits (fmtA f) + 7) / 8

/-- The bytes of one k-row of B. -/
def bRowBytes (d : BitVec 1024) (f : BitVec 13) : Nat := (descN d * codeBits (fmtB f) + 7) / 8

/-- The bytes of the scales of a row: three for each k-block. -/
def scaleBytes (d : BitVec 1024) : Nat := 3 * (descK d / 128)

/-- The size of a ring chunk (R179). -/
def chunkBytes (d : BitVec 1024) (f : BitVec 13) : Nat :=
  (descK d * descN d * codeBits (fmtB f) + 7) / 8 + (if fmtG f = 1 then scaleBytes d else 0)

/-! ## Tiles (R166, R169 to R171) -/

/-- Does the crew own the tile. -/
def MatrixEng.owns (m : MatrixEng) (c : Nat × Nat) (t : Nat) : Bool := m.owners.contains (t, c.1, c.2)

/-- The crew's ownership mask. -/
def MatrixEng.ownMask (m : MatrixEng) (c : Nat × Nat) : Nat :=
  (List.range 16).foldl (fun x t => if m.owns c t then x + 2 ^ t else x) 0

/-- The engine of the thread at issue. -/
def State.myEng (s : State) : MatrixEng := s.matrixEng s.thr.view.cluster

/-- A MATRIXOPERAND trap with a reason of Table 7.4. -/
def matrixTrap (reason : Nat) : Option TrapInfo := some ⟨.matrixOperand, wordOf reason, 0⟩

/-- Is the matrix engine of a cluster retired: it failed, now or before a reset (R188, R361). -/
def State.engineRetired (s : State) (cl : Nat) : Bool :=
  (s.matrixEng cl).retired || s.retiredUnits.contains (3, stackOf cl, tileCode cl)

/-- Every matrix instruction of a cluster whose engine is retired traps (R188). -/
def State.withEngine (s : State) (k : State → State) : State :=
  s.unless (if s.engineRetired s.thr.view.cluster then matrixTrap 9 else none) k

/-- The entries of the queue that are taken: jobs and tile operations (R165). -/
def MatrixEng.taken (m : MatrixEng) : Nat :=
  (m.ops.filter (fun o => match o with
    | .job _ | .zero _ _ | .load .. | .drain _ => true
    | .clear _ _ | .release _ _ => false)).length

/-- An instruction that needs an entry of the queue; a full one stalls the thread, known to the engine as job 0. -/
def State.withEntry (s : State) (k : State → State) : State :=
  if 16 ≤ s.myEng.taken then s.onThr (fun t => { t.hold with status := .stalled, wait := .job 0 }) else k s

/-- An operation reaches the engine. -/
def State.addOp (s : State) (o : MatrixOp) : State :=
  s.setEng { s.myEng with ops := s.myEng.ops ++ [o] }

/-- The tiles of a MACQ that no crew owns are granted one by one; each is cleared in tile order. -/
def State.grantTiles (s : State) (req : Nat) : List Nat → State
  | [] => s
  | t :: ts =>
    let m := s.myEng
    if req.testBit t && !m.owners.any (fun o => o.1 == t) then
      let c := s.thr.crewId
      let s1 := s.setEng { m with owners := m.owners ++ [(t, c.1, c.2)], ops := m.ops ++ [.clear s.nextId t] }
      State.grantTiles { s1 with nextId := s.nextId + 1 } req ts
    else s.grantTiles req ts

/-- MACQ (R169). -/
def execMacq (_u : Bool) (d a : BitVec 6) (s : State) : Out :=
  .next (s.withEngine fun s =>
    let req := (s.rg a).toNat % 65536
    let s1 := s.grantTiles req (List.range 16)
    s1.finishG d (wordOf (req &&& s1.myEng.ownMask s.thr.crewId)))

/-- The tiles that an operation names. -/
def MatrixOp.tiles : MatrixOp → List Nat
  | .job j => jobTiles j.ring j.desc j.fmt j.base
  | .clear _ t | .zero _ t | .release _ t | .load _ t _ _ _ _ => [t]
  | .drain d => if bitsAt d.ctl.toNat 5 2 = 2 then [d.tile, d.tile + 1] else [d.tile]

/-- A suspended job on a tile that is released ends CANCELLED (R170). -/
def MatrixOp.cancelOn (t : Nat) (o : MatrixOp) : MatrixOp :=
  match o with
  | .job j =>
    if j.state = .suspended ∧ j.fin.isNone ∧ (jobTiles j.ring j.desc j.fmt j.base).contains t then
      .job { j with fin := some .cancelled }
    else o
  | _ => o

/-- The tiles of a MREL are withdrawn one by one. -/
def State.withdrawTiles (s : State) (req : Nat) : List Nat → State
  | [] => s
  | t :: ts =>
    let m := s.myEng
    let c := s.thr.crewId
    if req.testBit t && m.owns c t then
      let ops := m.ops.map (MatrixOp.cancelOn t) ++ [.release s.nextId t]
      let s1 := s.setEng { m with owners := m.owners.filter (fun o => o.1 != t), ops := ops }
      State.withdrawTiles { s1 with nextId := s.nextId + 1 } req ts
    else s.withdrawTiles req ts

/-- MREL (R170). -/
def execMrel (_u : Bool) (a : BitVec 6) (s : State) : Out :=
  .next (s.withEngine fun s => (s.withdrawTiles ((s.rg a).toNat % 65536) (List.range 16)).finish)

/-- MZERO (R171). -/
def execMzero (_u : Bool) (tile : BitVec 4) (s : State) : Out :=
  .next (s.withEngine fun s =>
    s.unless (if s.myEng.owns s.thr.crewId tile.toNat then none else matrixTrap 5) fun s =>
    s.withEntry fun s => (State.addOp { s with nextId := s.nextId + 1 } (.zero s.nextId tile.toNat)).finish)

/-! ## MLD (R172) -/

/-- Spaces 2 to 7. -/
def Seg.isOperand (g : Seg) : Bool := 2 ≤ g.space.toNat && g.space.toNat ≤ 7

/-- The checks of a barrier operand of an engine instruction: right, space, bounds, alignment and form. -/
def barrierCheck (s : State) (g : Seg) (x : Word) : Option TrapInfo :=
  firstTrap [
    barrierRight g x,
    boundCheck g (handleNum x) (handleOff x) 16,
    alignCheck (handleNum x) (handleOff x) 16,
    formRange s s.thr.view g (handleOff x) 16]

/-- MLD. -/
def execMld (_u : Bool) (d a : BitVec 6) (tile : BitVec 4) (sg : BitVec 3) (s : State) : Out :=
  let off := (s.rg a).toNat
  let bx := s.rg d
  let g := s.thr.seg sg
  let v := s.thr.view
  .next (s.withEngine fun s =>
    s.unless (if s.myEng.owns s.thr.crewId tile.toNat then none else matrixTrap 5) fun s =>
    s.writeGate fun s =>
    s.unless (firstTrap [segCheck g sg.toNat off 16384 64 (rightR ||| rightE) g.isOperand, formRange s v g off 16384]) fun s =>
    s.withPlace bx fun bar bo =>
    s.unless (barrierCheck s bar bx) fun s =>
    s.withEntry fun s =>
      let s1 := s.release v s.thr.key .clus
      (State.addOp { s1 with nextId := s.nextId + 1 }
        (.load s.nextId tile.toNat s.thr.key ⟨g, off, v⟩ ⟨bar, bo, v⟩ 0)).finish)

/-! ## MQ and MQR (R173 to R179) -/

/-- The reason codes 1 to 8 of Table 7.4, the first that applies. A reserved format or granularity code of a descriptor is
reason 1 or 2, not ILLEGAL (DESIGN CHOICE, log 89: R21 says ILLEGAL of such a code, Table 7.4 gives the job's reason). -/
def jobReason (m : MatrixEng) (crew : Nat × Nat) (d : BitVec 1024) (f : BitVec 13) (base : Nat) (sparse isRing : Bool)
    (ring : Option RingInfo) : Option Nat :=
  let fa := fmtA f
  let fb := fmtB f
  let sg := fmtG f
  let st := kStep fa fb
  let narrow_ := fa ≤ 2 && fb ≤ 2
  let tiles := jobTiles ring d f base
  if st = 0 then some 1
  else if sg = 3 ∨ (sg ≠ 0 ∧ !narrow_) ∨ (sg ≠ 1 ∧ (descWord d 128 ≠ 0 ∨ descWord d 192 ≠ 0)) then some 2
  else if descM d = 0 ∨ descM d > 64 ∨ descN d = 0 ∨ descN d > 64 ∨ (fb = 2 ∧ descN d % 2 = 1) then some 3
  else if descK d = 0 ∨ descK d % st ≠ 0 then some 4
  else if !(tiles.all (fun t => t ≤ 15 && m.owns crew t)) ∨ (fa = 7 ∧ base % 2 = 1) then some 5
  else if descBits d 565 11 ≠ 0 ∨ descBits d 713 7 ≠ 0 ∨ descBits d 832 192 ≠ 0 ∨ descBits d 560 3 = 7 ∨
      (fa = 3 ∧ descBits d 560 3 ≠ 0) ∨ (fa ≠ 3 ∧ descBits d 563 1 = 1) ∨ descAPitch d % 16 ≠ 0 ∨ descBPitch d % 16 ≠ 0 ∨
      (sparse ∧ descMPitch d % 16 ≠ 0) then some 6
  else if (!isRing ∧ descBits d 704 128 ≠ 0) ∨
      (isRing ∧ (ring.isNone ∨ descRsteps d = 0 ∨ descRsteps d > (ring.map (·.len)).getD 0 ∨ chunkBytes d f > 32768)) then
    some 7
  else if (sparse ∧ (!(narrow_ || (fa == 3 && fb == 3)) ∨ descBits d 256 16 = 0)) ∨ (!sparse ∧ descWord d 256 ≠ 0) then some 8
  else none

/-- One operand of a job: its number, its handle-offset value, its extent, alignment and right. -/
structure Operand where
  num : Nat
  x : Word
  size : Nat
  align : Nat
  rights : BitVec 8
  deriving DecidableEq, Repr

/-- The spaces in which an operand may lie: 2 to 7 for what is read, 2 to 6 for the record, those of a barrier for the
barrier. -/
def Operand.permits (o : Operand) (g : Seg) : Bool :=
  if o.num = 6 then 2 ≤ g.space.toNat && g.space.toNat ≤ 6
  else if o.num = 7 then Acc.permits .append g
  else g.isOperand

/-- The greatest chunk that a job uses. -/
def topChunk (ring : Option RingInfo) (d : BitVec 1024) : Nat := (jobChunks ring d).foldl max 0

/-- The operands of a job in the order of the descriptor, the per-tensor scales last (R177). -/
def jobOperands (d : BitVec 1024) (f : BitVec 13) (scl : Word) (sparse : Bool) (ring : Option RingInfo) : List Operand :=
  let c := topChunk ring d
  let re := rightR ||| rightE
  [⟨0, descWord d 0, c * descAStep d + (descM d - 1) * descAPitch d + aRowBytes f (descK d) sparse, 16, re⟩,
    ⟨1, descWord d 64, (descK d - 1) * descBPitch d + bRowBytes d f, 16, re⟩] ++
  (if fmtG f = 1 then
    [⟨2, descWord d 128, c * descSaStep d + (descM d - 1) * descSaPitch d + scaleBytes d, 1, re⟩,
      ⟨3, descWord d 192, scaleBytes d, 1, re⟩] else []) ++
  (if sparse then [⟨4, descWord d 256, c * descMStep d + (descM d - 1) * descMPitch d + descK d / 8, 16, re⟩] else []) ++
  (if descBits d 320 16 = 0 then [] else [⟨6, descWord d 320, 16, 16, rightW⟩]) ++
  (if descBits d 384 16 = 0 then [] else [⟨7, descWord d 384, 16, 16, rightS⟩]) ++
  (if fmtG f = 2 then [⟨5, scl, 6, 1, re⟩] else [])

/-- The operands are followed and checked in turn; then the job goes on with their places. DESIGN CHOICE (log 123): the
record and the barrier, which the engine writes later, are no write range of the instruction under R210, whose list names
stores, copy, MLD and MDRAIN destinations alone. -/
def State.withOperands (s : State) : List Operand → List (Nat × Ref) → (State → List (Nat × Ref) → State) → State
  | [], refs, k => k s refs
  | o :: os, refs, k =>
    s.withPlace o.x fun g off =>
      s.unless (firstTrap [
        segCheck g (handleNum o.x) off o.size o.align o.rights (o.permits g),
        formCheck s s.thr.view g off o.size]) fun s =>
        s.withOperands os (refs ++ [(o.num, ⟨g, off, s.thr.view⟩)]) k

/-- What a gang member knows of the ring job that its next MQR belongs to (R13, R179). -/
def State.ringInfo (s : State) : Option RingInfo :=
  let c := s.thr.crewId
  match (s.crew? c).bind (·.gang) with
  | none => none
  | some (g, pos) =>
    let len := ((s.gangs.find? (fun k => k.id == g)).map (·.len)).getD 1
    let nth := ((s.myEng.ringSeq.find? (fun r => r.1 == c.1 && r.2.1 == c.2)).map (·.2.2)).getD 0
    some ⟨g, nth, pos, len⟩

/-- The crew's count of ring jobs goes up. -/
def MatrixEng.countRing (m : MatrixEng) (c : Nat × Nat) (n : Nat) : MatrixEng :=
  { m with ringSeq := (c.1, c.2, n) :: m.ringSeq.filter (fun r => !(r.1 == c.1 && r.2.1 == c.2)) }

/-- A job is accepted: its number goes to g[d]. -/
def State.acceptJob (s : State) (d : BitVec 6) (desc : BitVec 1024) (f : BitVec 13) (base : Nat) (sparse : Bool)
    (ring : Option RingInfo) (refs : List (Nat × Ref)) : State :=
  let s1 := s.release s.thr.view s.thr.key .clus
  let m := s1.myEng
  let j : Job := ⟨m.jobSeq, s.thr.key, s.thr.view, desc, f, refs, base, sparse, ring, .queued, false, 0, 0, 0, (0, 0), none, 0,
    none, none⟩
  let m1 := { m with ops := m.ops ++ [.job j], jobSeq := m.jobSeq + 1 }
  let m2 := match ring with
    | none => m1
    | some g => m1.countRing s.thr.crewId (g.nth + 1)
  (s1.setEng m2).finishG d (wordOf m.jobSeq)

/-- The descriptor read at issue (R177 step 1): a plain load of 128 aligned bytes with R and E. -/
def State.withDescriptor (s : State) (a : BitVec 6) (sg : BitVec 3) (k : State → Nat → State) : State :=
  let off := (s.rg a).toNat
  let g := s.thr.seg sg
  s.readGate fun s =>
  s.writeGate fun s =>
  s.unless (firstTrap [segCheck g sg.toNat off 128 128 (rightR ||| rightE) (Acc.permits .load g),
    formCheck s s.thr.view g off 128]) fun s =>
    if g.space = spFar then
      let parts := [(g.base.toNat + off, 128)]
      match s.farHeld s.thr.view.island g.fmod.toNat parts with
      | some x => k s x
      | none =>
        let s1 := State.modCore { s with free := s.free + 2 } (coreIndex s.thr.view) (fun c => { c with farSeq := c.farSeq + 1 })
        if Config.farFails s.free then s1.trapUnit .owner (g.base.toNat + off)
        else
          let x := (Config.farBytes s.free).toNat + (Config.farBytes (s.free + 1)).toNat * 2 ^ 512
          match s1.farFill s.thr.view.island g.fmod.toNat (partBytes parts) x with
          | (s2, y) => k s2 y
    else
      match s.loadBytes g off 128 with
      | (s1, .wait) => s1.stall
      | (s1, .park va) => s1.parkPage va
      | (s1, .fault c va) => s1.trapUnit c va
      | (s1, .value x) => k s1 x

/-- The four job instructions. -/
def State.queueJob (s : State) (d a : BitVec 6) (tile : BitVec 4) (sg : BitVec 3) (sparse isRing : Bool) : State :=
  s.withEngine fun s =>
  s.withDescriptor a sg fun s x =>
    let desc : BitVec 1024 := BitVec.ofNat 1024 x
    let n := descBits desc 558 2
    let f := s.thr.fmt.toList.getD n 0
    let scl := s.thr.scl.toList.getD n 0
    let ring := if isRing then s.ringInfo else none
    match jobReason s.myEng s.thr.crewId desc f tile.toNat sparse isRing ring with
    | some r => s.unless (matrixTrap r) id
    | none =>
      s.withOperands (jobOperands desc f scl sparse ring) [] fun s refs =>
      s.withEntry fun s => s.acceptJob d desc f tile.toNat sparse ring refs

/-- MQ (R177). -/
def execMq (_u : Bool) (d a : BitVec 6) (tile : BitVec 4) (sg : BitVec 3) (s : State) : Out :=
  .next (s.queueJob d a tile sg false false)

/-- MQ.SP (R177, R78). -/
def execMqSP (_u : Bool) (d a : BitVec 6) (tile : BitVec 4) (sg : BitVec 3) (s : State) : Out :=
  .next (s.queueJob d a tile sg true false)

/-- MQR (R179). -/
def execMqr (_u : Bool) (d a : BitVec 6) (tile : BitVec 4) (sg : BitVec 3) (s : State) : Out :=
  .next (s.queueJob d a tile sg false true)

/-- MQR.SP (R179, R78). -/
def execMqrSP (_u : Bool) (d a : BitVec 6) (tile : BitVec 4) (sg : BitVec 3) (s : State) : Out :=
  .next (s.queueJob d a tile sg true true)

/-! ## MPOLL and MWAIT (R183) -/

/-- A job that has not ended. -/
def MatrixEng.job? (m : MatrixEng) (id : Nat) : Option Job :=
  m.ops.findSome? (fun o => match o with
    | .job j => if j.id = id then some j else none
    | _ => none)

/-- The code of a job state (Table 7.8). -/
def JobState.code : JobState → Nat
  | .queued => 1 | .running => 2 | .waitChunk => 3 | .suspended => 4 | .preempted => 5

/-- The number that an identifier holds. -/
def jobNum (x : Word) : Nat := x.toNat % 2 ^ 48

/-- MPOLL: state 0 is as MWAIT. -/
def execMpoll (_u : Bool) (d a : BitVec 6) (s : State) : Out :=
  .next (s.withEngine fun s =>
    match s.myEng.job? (jobNum (s.rg a)) with
    | none => (s.acquire s.thr.view .clus).finishG d 0
    | some j => s.finishG d (wordOf (j.state.code + j.t % 2 ^ 32 * 256)))

/-- MWAIT: parks until the job has ended, then Acquire(.clus). -/
def execMwait (_u : Bool) (a : BitVec 6) (s : State) : Out :=
  .next (s.withEngine fun s =>
    match s.myEng.job? (jobNum (s.rg a)) with
    | none => (s.acquire s.thr.view .clus).finish
    | some j => s.park (.job j.id))

/-! ## MDRAIN (R185) -/

/-- Fields of the drain control word (Table 7.10). -/
def drainFmt (w : Word) : Nat := bitsAt w.toNat 0 4
def drainSat (w : Word) : Bool := w.getLsbD 4
def drainSrc (w : Word) : Nat := bitsAt w.toNat 5 2
def drainHist (w : Word) : Bool := w.getLsbD 7
def drainRows (w : Word) : Nat := bitsAt w.toNat 8 6 + 1
def drainCols (w : Word) : Nat := bitsAt w.toNat 14 6 + 1
def drainPitch (w : Word) : Nat := bitsAt w.toNat 24 24
def drainRecord (w : Word) : Nat := 128 * bitsAt w.toNat 48 16

/-- The bytes of one row of the destination. -/
def drainRowBytes (w : Word) : Nat := (drainCols w * codeBits (drainFmt w) + 7) / 8

/-- The control word is invalid: reason 10. -/
def drainInvalid (w : Word) (tile : Nat) (rm : Rm) : Bool :=
  7 < drainFmt w || drainSrc w == 3 || bitsAt w.toNat 22 2 != 0 || (drainHist w && drainSrc w != 0) ||
    (drainFmt w == 2 && drainCols w % 2 == 1) || (drainSrc w == 2 && tile % 2 == 1) || (drainFmt w == 3 && rm != .rne)

/-- The checks of a drain's destination: rights and space, the extents of the rows and of the record, the alignment of
each row, the forms, and FIELDWRITE. DESIGN CHOICE (log 119): the ALIGN of a row that is not the first has the drain's own
offset in %tinfo0, since R185 names none. -/
def drainCheck (s : State) (g : Seg) (idx off : Nat) (w : Word) : Option TrapInfo :=
  let size := (drainRows w - 1) * drainPitch w + drainRowBytes w
  let esz := codeBits (drainFmt w) / 8
  let hist := drainHist w
  let rows := (List.range (drainRows w)).map (fun i => s.fieldCheck g (off + i * drainPitch w) (drainRowBytes w))
  firstTrap ([
    rightCheck g idx off (if hist then rightW ||| rightA else rightW) (2 ≤ g.space.toNat && g.space.toNat ≤ 6),
    boundCheck g idx off size,
    if hist then boundCheck g idx (drainRecord w) 128 else none,
    trapIf (1 < esz && (off % esz != 0 || (1 < drainRows w && drainPitch w % esz != 0))) .align off idx,
    formRange s s.thr.view g off size,
    if hist then formRange s s.thr.view g (drainRecord w) 128 else none] ++ rows ++
    [if hist then s.fieldCheck g (drainRecord w) 128 else none])

/-- MDRAIN: the thread parks until its drain has been performed. -/
def execMdrain (_u : Bool) (d a : BitVec 6) (tile : BitVec 4) (sg : BitVec 3) (rm : Rm) (s : State) : Out :=
  let off := (s.rg a).toNat
  let w := s.rg d
  let g := s.thr.seg sg
  let c := s.thr.crewId
  .next (s.resumed fun s =>
    s.withEngine fun s =>
    s.unless (if drainInvalid w tile.toNat rm then matrixTrap 10 else none) fun s =>
    s.unless (if s.myEng.owns c tile.toNat && (drainSrc w != 2 || s.myEng.owns c (tile.toNat + 1)) then none
      else matrixTrap 5) fun s =>
    s.writeGate fun s =>
    s.unless (drainCheck s g sg.toNat off w) fun s =>
    s.withEntry fun s =>
      let s1 := s.release s.thr.view s.thr.key .clus
      let f := s.thr.fmt.toList.getD (bitsAt w.toNat 20 2) 0
      let dr : DrainJob := ⟨s.nextId, tile.toNat, s.thr.key, ⟨g, off, s.thr.view⟩, w, rm, f, s.thr.srctr, s.thr.srkey, 0, false⟩
      (State.addOp { s1 with nextId := s.nextId + 1 } (.drain dr)).park (.engine s.nextId))

end Sys2Proof.Machine
end

