-- ==== Sys2Proof/Machine/Copies.lean ====
section
/-! DEFINITION. Copies (spec/05, R139 to R141, R230): XFER, XFER.F and GATH, and the copy harts' progress. -/

namespace Sys2Proof.Machine

open Sys2Proof

/-- The checks of R139 and R140, in their order: rights of source, destination and barrier, then the spaces, bounds
and alignment. -/
def copyCheck (s : State) (src dst : Seg) (si so di do_ : Nat) (bar : Seg) (bx len : Word) (own : Nat) (gather : Bool) :
    Option TrapInfo :=
  let n := len.toNat
  firstTrap [
    rightCheck src si so (rightR ||| rightE) true,
    rightCheck dst di do_ (rightW ||| rightE) true,
    rightCheck bar (handleNum bx) (handleOff bx) rightS true,
    rightCheck src si so 0 (Acc.permits (if gather then .gathSrc else .xferSrc) src),
    rightCheck dst di do_ 0 (Acc.permits (if gather then .gathDst else .xferDst) dst),
    rightCheck bar (handleNum bx) (handleOff bx) 0 (Acc.permits .append bar),
    boundCheck src si so n,
    boundCheck dst di do_ n,
    boundCheck bar (handleNum bx) (handleOff bx) 16,
    trapIf (n / 2 ^ 32 != 0) .segBound (if gather then do_ else so) own,
    alignCheck si so 8,
    alignCheck di do_ 8,
    trapIf (n % 8 != 0) .align (if gather then do_ else so) own,
    alignCheck (handleNum bx) (handleOff bx) 16,
    formRange s s.thr.view src so n,
    formRange s s.thr.view dst do_ n,
    formRange s s.thr.view bar (handleOff bx) 16,
    if dst.space = spFar then none else s.fieldCheck dst do_ n]

/-- The copies in the kick queue of a cluster's copy hart. -/
def State.kicks (s : State) (cl : Nat) : Nat := (s.copies.filter (fun c => c.hart == cl)).length

/-- The tile above a location: that of its shaft, of its slice, or of its core. -/
def tileAbove (x : Loc) (own : Nat) : Nat := if isDram x then clusterOver x else if isWay x then (x - wayLoc 0 0 0) / 2 ^ 22 else own

/-- The copy hart that moves the granule at `off` of a source, by its cluster: the issuer's own for XFER, and for GATH that
of the tile above the source, or, by a number from 384 on, the far module's (R140). DESIGN CHOICE (log 106): one hart of each
far-module entry of an island, where R140 says only "a copy hart of the far module". -/
def State.hartFor (s : State) (v : View) (g : Seg) (off : Nat) (gather : Bool) : Nat :=
  if !gather then v.cluster
  else if g.space = spFar then 384 + 65536 * v.island + g.fmod.toNat
  else match s.locateNow v g off needNone with
    | .ok x => tileAbove x v.cluster
    | _ => v.cluster

/-- A copy enters the kick queue of its copy hart, after Release(.clus). -/
def State.kick (s : State) (hart : Nat) (src dst bar : Ref) (len : Nat) (feSet gather : Bool) : State :=
  let s1 := s.release s.thr.view s.thr.key .clus
  let job : CopyJob := ⟨s.nextId, s.thr.key, src, dst, len, 0, feSet, gather, hart, false, bar⟩
  { s1 with copies := s1.copies ++ [job], nextId := s.nextId + 1 }

/-- The three copy instructions. -/
def State.copy (s : State) (d : BitVec 5) (a b : BitVec 6) (sg : BitVec 3) (feSet gather : Bool) : State :=
  let r : BitVec 6 := d.zeroExtend 6 <<< 1
  let hx := s.rg r
  let bx := s.rg (r + 1)
  let off := (s.rg a).toNat
  let len := s.rg b
  let v := s.thr.view
  let own := s.thr.seg sg
  s.writeGate fun s =>
  s.unless (if gather then none else rightCheck own sg.toNat off (rightR ||| rightE) true) fun s =>
  s.withPlace hx fun g ho =>
  s.unless (if gather then firstTrap [rightCheck g (handleNum hx) ho (rightR ||| rightE) true,
      rightCheck own sg.toNat off (rightW ||| rightE) true]
    else rightCheck g (handleNum hx) ho (rightW ||| rightE) true) fun s =>
  s.withPlace bx fun bar bo =>
    let here : Ref := ⟨own, off, v⟩
    let there : Ref := ⟨g, ho, v⟩
    let t := if gather then copyCheck s g own (handleNum hx) ho sg.toNat off bar bx len sg.toNat true
      else copyCheck s own g sg.toNat off (handleNum hx) ho bar bx len sg.toNat false
    s.unless t fun s =>
      let hart := s.hartFor v (if gather then g else own) (if gather then ho else off) gather
      if 16 ≤ s.kicks hart then s.stall
      else
        (s.kick hart (if gather then there else here) (if gather then here else there) ⟨bar, bo, v⟩ len.toNat feSet gather).finish

/-- XFER (R139). -/
def execXfer (_u : Bool) (d : BitVec 5) (a b : BitVec 6) (sg : BitVec 3) (s : State) : Out :=
  .next (s.copy d a b sg false false)

/-- XFER.F (R139): the destination words become full. -/
def execXferF (_u : Bool) (d : BitVec 5) (a b : BitVec 6) (sg : BitVec 3) (s : State) : Out :=
  .next (s.copy d a b sg true false)

/-- GATH (R140). -/
def execGath (_u : Bool) (d : BitVec 5) (a b : BitVec 6) (sg : BitVec 3) (s : State) : Out :=
  .next (s.copy d a b sg false true)

/-! ## Progress -/

/-- A copy to or from far memory moves at most 4 KiB with one message (R308): the message of the granule at hand, with the
next number of the issuing core. -/
def State.copyMessage (s : State) (c : CopyJob) : State :=
  let far : Option Ref := if c.src.seg.space = spFar then some c.src else if c.dst.seg.space = spFar then some c.dst else none
  match far with
  | none => s
  | some r =>
    if c.pos % 512 ≠ 0 then s
    else
      let n := coreIndex c.src.view
      let m : FarMsg := ⟨n, (s.core n).farSeq, c.key, none, r.seg.base.toNat + r.off + 8 * c.pos, 0, 0, some c.id, r.view.island,
        r.seg.fmod.toNat, [], 0, 0⟩
      { s.modCore n (fun k => { k with farSeq := k.farSeq + 1 }) with
        farOut := s.farOut.filter (fun f => f.copy != some c.id) ++ [m] }

/-- The read of one granule, as the tile of the copy hart sees it. -/
def State.copyRead (s : State) (c : CopyJob) (at_ : Nat) : State × EngRes × Nat :=
  let v : View := if c.gather && c.hart < 384 then { c.src.view with cluster := c.hart } else c.src.view
  if c.src.seg.space = spFar then
    let s1 := { s with free := s.free + 1 }
    if Config.farFails s.free then (s1, .fault .owner, 0) else (s1, .ok, (Config.farBytes s.free).toNat % 256 ^ 8)
  else s.engRead 1 (coreIndex c.src.view) v c.src.seg (c.src.off + at_) 8

/-- The words that 8 bytes at a place meet become full, and their lists are served. -/
def State.fillWords (s : State) (v : View) (g : Seg) (off : Nat) : List (Nat × Nat) → State
  | [] => s
  | p :: ps =>
    match s.engPlace 1 v g (off + p.1) needRW with
    | (s1, .ok, y) => (s1.changeFull (wordAt y) true).fillWords v g off ps
    | (s1, _, _) => s1.fillWords v g off ps

/-- The write of one granule, whole; under .F its word becomes full and its list is served. -/
def State.copyWrite (s : State) (c : CopyJob) (at_ x : Nat) : State × EngRes :=
  if c.dst.seg.space = spFar then
    ({ s with free := s.free + 1 }, if Config.farFails s.free then .fault .owner else .ok)
  else
    let v := c.dst.view
    match s.engWriteWhole 1 (coreIndex v) v c.dst.seg (c.dst.off + at_) 8 x (if c.feSet then needRW else needW) with
    | (s1, .ok) =>
      if c.feSet then (s1.fillWords v c.dst.seg (c.dst.off + at_) (rangePieces 8 (c.dst.seg.base.toNat + c.dst.off + at_) 8), .ok)
      else (s1, .ok)
    | r => r

/-- Does a copy hart wait: another copy that it makes has met a parking condition (R141), or its stack is stopped (R357). -/
def State.hartStops (s : State) (c : CopyJob) : Bool :=
  s.copies.any (fun k => k.id != c.id && k.hart == c.hart && k.stalled) || s.stackStopped (stackOf c.hart)

/-- Up to `n` granules are copied, each by its hart, as far as that does not wait; then the job and what stopped it. -/
def State.copyGo (s : State) (c : CopyJob) : Nat → State × CopyJob × EngRes
  | 0 => (s, c, .ok)
  | n + 1 =>
    if c.len ≤ 8 * c.pos then (s, c, .ok)
    else
      let d := { c with hart := s.hartFor c.src.view c.src.seg (c.src.off + 8 * c.pos) c.gather }
      if s.hartStops d then (s, { d with stalled := false }, .ok)
      else
        match (s.copyMessage d).copyRead d (8 * d.pos) with
        | (s1, .ok, x) =>
          match s1.copyWrite d (8 * d.pos) x with
          | (s2, .ok) => s2.copyGo { d with pos := d.pos + 1, stalled := false } n
          | (s2, r) => (s2, d, r)
        | (s1, r, _) => (s1, d, r)

/-- A copy ends, and arrives. -/
def State.endCopy (s : State) (c : CopyJob) (value : Nat) (fault : Bool) : State :=
  State.arrive { s with copies := s.copies.filter (fun k => k.id != c.id)
                        farOut := s.farOut.filter (fun m => m.copy != some c.id) } ⟨c.bar, some value, fault, false, 1, none⟩

/-- COPY_COMPLETION (R139, R141): a copy hart goes on with a copy by up to `n` granules; where that ends or stops the
copy, it arrives. -/
def execCopyCompletion (id n : Nat) (s : State) : Out :=
  .next (match s.copies.find? (fun c => c.id == id) with
    | none => s
    | some c =>
      if s.hartStops c then s
      else
        match s.copyGo c n with
        | (s1, c1, .fault _) => s1.endCopy c1 (8 * c1.pos) true
        | (s1, c1, r) =>
          if r = .ok ∧ c1.len ≤ 8 * c1.pos then s1.endCopy c1 0 false
          else
            let c2 := { c1 with stalled := r == .park }
            { s1 with copies := s1.copies.map (fun k => if k.id = id then c2 else k) })

end Sys2Proof.Machine
end

