-- ==== Sys2Proof/Machine/Near.lean ====
section
/-! DEFINITION. Remote calls and handlers (spec/08, R190 to R199): RCALL, RRET, HSET and HCLR, and the ways of a call
from its issuer to its reply. -/

namespace Sys2Proof.Machine

open Sys2Proof

/-! ## Calls -/

/-- A call by its number. -/
def State.call? (s : State) (id : Nat) : Option Call := s.calls.find? (fun c => c.id == id)

/-- A call changed. -/
def State.setCall (s : State) (c : Call) : State :=
  { s with calls := s.calls.map (fun k => if k.id = c.id then c else k) }

/-- The next CALLID (R197): 1 to 2^48 − 1, then 1 again. -/
def nextCallId (n : Nat) : Nat := if n + 1 < 2 ^ 48 then n + 1 else 1

/-- The header of a slot is written: status, number of values and CALLID; the header word full or empty (Table 8.3). -/
def State.writeHeader (s : State) (slot : Loc) (status nval callId : Nat) (full : Bool) : State :=
  (s.poke slot 16 (status + nval * 2 ^ 8 + callId * 2 ^ 64)).changeFull (wordAt slot) full

/-- The caller as its handler sees it in g10 (R194). -/
def callerWord (v : View) : Word :=
  wordOf (stackOf v.cluster + tileCode v.cluster * 2 ^ 2 + v.core % 4 * 2 ^ 9 + v.slot % 8 * 2 ^ 11)

/-- A call is routed: to the engine of its target's bank group, held by a parking condition, or answered with FAULT
(R195, Table 8.4). -/
def State.routeCall (s : State) (c : Call) : State × Call :=
  match s.engPlace 0 c.view c.target c.off needNone with
  | (s1, .ok, x) => (s1, { c with stage := .sent, loc := x })
  | (s1, .park, _) => (s1, { c with stage := .held })
  | (s1, .fault f, _) => (s1, { c with stage := .replying, reply := some (1, 2, [wordOf f.code, 0]) })

/-- The calls of a core that are in flight. -/
def State.inFlight (s : State) (core : Nat) : Nat := (s.calls.filter (fun c => c.live && c.core == core)).length

/-- The checks of RCALL, in the order of R195. -/
def rcallCheck (g : Seg) (sg off : Nat) (r : Seg) (x : Word) : Option TrapInfo :=
  let ho := handleOff x
  let hn := handleNum x
  firstTrap [
    rightCheck g sg off rightE true,
    trapIf (!(g.space == spInter || g.space == spBank || g.space == spFar)) .rcallBad off sg,
    boundCheck g sg off 1,
    rightCheck r hn ho (rightW ||| rightS) true,
    trapIf (r.space != spCore) .rcallBad ho hn,
    alignCheck hn ho 16,
    boundCheck r hn ho 48]

/-- The call leaves the issuing port: the slot's header is written with a new CALLID, its word empty (R195). A call to a far
module is a message with the core's next number (R311). -/
def State.sendCall (s : State) (g : Seg) (off : Nat) (slot : Loc) (entry k : Nat) (rel : Bool) : State :=
  let v := s.thr.view
  let core := coreIndex v
  let s1 := if rel then (s.flushCore core).releaseEager v s.thr.key (if g.space = spFar then .sys else .dev) else s
  let id := (s1.core core).callSeq
  let s2 := (s1.modCore core (fun c => { c with callSeq := nextCallId id })).writeHeader slot 0 0 id false
  let payload := (List.range 8).map (fun i => s.rg (BitVec.ofNat 6 (8 * k + i)))
  let far := g.space = spFar
  let c : Call := ⟨s2.nextId, id, core, slot, s.thr.crewId, v.island, g, off, v, 0, entry, none, payload, callerWord v, rel,
    if far then some g.fmod.toNat else none, if far then some (s2.core core).farSeq else none, .sent, true, none⟩
  let s3 := { s2 with nextId := s2.nextId + 1 }
  if far then { s3.modCore core (fun k => { k with farSeq := k.farSeq + 1 }) with calls := s3.calls ++ [c] }
  else
    match s3.routeCall c with
    | (s4, c1) => { s4 with calls := s4.calls ++ [c1] }

/-- RCALL (R195). -/
def execRcall (_u : Bool) (d a : BitVec 6) (k : BitVec 3) (rel : Bool) (sg : BitVec 3) (e : BitVec 3) (s : State) : Out :=
  let off := (s.rg a).toNat
  let x := s.rg d
  let g := s.thr.seg sg
  .next ((if rel then s.deviceGate else s.writeGate) fun s =>
    s.unless (firstTrap [rightCheck g sg.toNat off rightE true,
      trapIf (!(g.space == spInter || g.space == spBank || g.space == spFar)) .rcallBad off sg.toNat,
      boundCheck g sg.toNat off 1]) fun s =>
    s.withPlace x fun r ho =>
    s.unless (firstTrap [rcallCheck g sg.toNat off r x, formCheck s s.thr.view g off 1]) fun s =>
      if 64 ≤ s.inFlight (coreIndex s.thr.view) then s.stall
      else
        match s.locate s.thr.view r ho needW false with
        | .ok slot => (s.sendCall g off slot (8 + e.toNat) k.toNat rel).finish
        | _ => s.stall)

/-- RRET (R196): outside a handler it is illegal; a status from 1 to 15 ends the handler as FAULT. -/
def execRret (u : Bool) (a b : BitVec 6) (s : State) : Out :=
  let st := (s.rg b).toNat % 256
  let nval := min ((s.rg b).toNat / 256 % 8) 4
  .next (
    if !s.thr.isHandler then s.illegalHere (.rret u a b)
    else if 1 ≤ st ∧ st ≤ 15 then s.onThr (fun t => t.handlerFault .illegal)
    else
      let vals := (List.range nval).map (fun i => s.rg (a + BitVec.ofNat 6 i))
      s.onThr fun t => { t.advance with ended := some (BitVec.ofNat 8 st, nval, vals) })

/-- CALL_ARRIVAL (R192): the engine accepts the call with the handler it finds, or answers it: DEAD, or NOENTRY. A held
call is routed again. -/
def State.acceptCall (s : State) (c : Call) : State :=
  let rest := s.calls.filter (fun k => k.id != c.id)
  let entry := (s.island? c.island).bind (fun i => i.handlers.find? (fun h => h.entry == c.entry))
  let d : Call :=
    if s.deadEngines.contains (engineAt c.loc) then { c with stage := .replying, reply := some (4, 0, []) }
    else
      match entry with
      | none => { c with stage := .replying, reply := some (5, 0, []) }
      | some h => { c with stage := .waiting, region := some (h.region, h.off) }
  { s with calls := rest ++ [d] }

/-- CALL_ARRIVAL. -/
def execCallArrival (id : Nat) (s : State) : Out :=
  .next (match s.call? id with
    | none => s
    | some c =>
      match c.stage with
      | .held =>
        match s.routeCall c with
        | (s1, c1) => s1.setCall c1
      | .sent => if c.target.space = spFar then s else s.acceptCall c
      | .waiting | .running | .replying => s)

/-! ## Handlers (R191 to R194) -/

/-- The handler contexts of an engine that are busy: calls that run, and field routines. -/
def State.busyContexts (s : State) (engine : Nat) : Nat :=
  (s.threads.filter (fun t => t.isHandler && t.live && engineAt (t.segs[0].base.toNat % 2 ^ 39) == engine)).length

/-- s0 of a handler: its bank group through the bank-linear window. -/
def bankSeg (engine : Nat) : Seg :=
  ⟨BitVec.ofNat 52 (0x1000 * 2 ^ 39 + engine * 2 ^ 26), 2 ^ 26, rightR ||| rightW ||| rightS ||| rightA, spBank, 0, 0⟩

/-- s1 of a handler: its region. -/
def regionSeg (g : Seg) : Seg := { g with rights := rightR ||| rightX }

/-- The starting state of a handler (R194): `args` are g1, g2 and so on. -/
def newHandler (key : ThreadKey) (role : Role) (island engine : Nat) (region : Seg) (off : Nat) (args : List Word) : Thread :=
  { Thread.blank key with
    role := role
    view := ⟨island, clusterOver (engine * 2 ^ 26), 0, 0, 0, 0, 0, 0⟩
    status := .ready
    pc := region.base + BitVec.ofNat 52 off
    g := Vector.ofFn (fun (j : Fin 64) => if j.val = 0 then 0 else args.getD (j.val - 1) 0)
    segs := Vector.ofFn (fun (j : Fin 8) =>
      if j.val = 0 then bankSeg engine else if j.val = 1 then regionSeg region else Seg.empty)
    budget := 1024 }

/-- HANDLER_START (R194): the oldest call that waits at its engine, when a context is free. -/
def execHandlerStart (id : Nat) (s : State) : Out :=
  .next (match s.call? id with
    | none => s
    | some c =>
      let e := engineAt c.loc
      let first := (s.calls.find? (fun k => k.stage == .waiting && engineAt k.loc == e)).map (·.id) == some id
      match c.stage, c.region with
      | .waiting, some (r, off) =>
        if first && s.busyContexts e < 4 && !s.stackStopped (stackOf (clusterOver c.loc)) then
          let args := wordOf (c.loc % 2 ^ 26) :: (c.payload ++ [c.caller])
          let t := newHandler (.handler id) (.call id) c.island e r off args
          State.setCall { s with others := s.others ++ [t] } { c with stage := .running }
        else s
      | _, _ => s)

/-- A thread that has ended leaves the lists; the one at issue stays in its place, retired. -/
def State.removeThread (s : State) (k : ThreadKey) : State :=
  let s1 := s.modThread k Thread.retire
  { s1 with others := s1.others.filter (fun t => t.key != k) }

/-- A call's handler has ended: the reply is on its way. -/
def State.endCall (s : State) (id : Nat) (r : BitVec 8 × Nat × List Word) : State :=
  match s.call? id with
  | none => s.removeThread (.handler id)
  | some c => (s.setCall { c with stage := .replying, reply := some r }).removeThread (.handler id)

/-- HANDLER_BUDGET (R194): a handler that would issue its 1,025th unit ends with BUDGET. -/
def execHandlerBudget (k : ThreadKey) (s : State) : Out :=
  .next (s.modThread k fun t => if t.isHandler && t.live && t.budget == 0 then { t with ended := some (2, 0, []) } else t)

/-! ## Replies (R196, R197) -/

/-- Does the slot's header still hold the call's CALLID. -/
def State.slotHolds (s : State) (slot : Loc) (callId : Nat) : Bool := s.peek (slot + 8) 8 % 2 ^ 48 == callId

/-- The values of a reply are written, VAL0 first. -/
def State.writeVals (s : State) (slot : Loc) : List Word → Nat → State
  | [], _ => s
  | v :: vs, i => (s.poke (slot + 16 + 8 * i) 8 v.toNat).writeVals slot vs (i + 1)

/-- A reply reaches its slot: the values, then the header, full. -/
def State.landReply (s : State) (c : Call) (r : BitVec 8 × Nat × List Word) : State :=
  if c.live && s.slotHolds c.slot c.callId then
    (s.writeVals c.slot (r.2.2.take r.2.1) 0).writeHeader c.slot r.1.toNat r.2.1 c.callId true
  else s

/-- REPLY_ARRIVAL (R196): a late reply, or one whose CALLID no longer matches, is discarded. -/
def execReplyArrival (id : Nat) (s : State) : Out :=
  .next (match s.call? id with
    | none => s
    | some c =>
      match c.stage, c.reply with
      | .replying, some r =>
        if s.padHealth c.slot = .failed then s
        else State.landReply { s with calls := s.calls.filter (fun k => k.id != id) } c r
      | _, _ => s)

/-- RCALL_TIMEOUT (R197): TIMEOUT with a fresh CALLID; whatever comes later is discarded. No cycle of the caller's stack
passes while that is stopped (R358). -/
def execRcallTimeout (id : Nat) (s : State) : Out :=
  .next (match s.call? id with
    | none => s
    | some c =>
      if !c.live || s.stackStopped (stackOf (c.core / 4)) then s
      else
        let s1 := if c.stage = .held ∨ c.target.space = spFar then { s with calls := s.calls.filter (fun k => k.id != id) }
          else s.setCall { c with live := false }
        if s.slotHolds c.slot c.callId then
          let fresh := (s1.core c.core).callSeq
          (s1.modCore c.core (fun k => { k with callSeq := nextCallId fresh })).writeHeader c.slot 3 0 fresh true
        else s1)

/-! ## Granules (R199 to R203) -/

/-- The granules of a range as pieces, each with the offset at which its granule begins in the range, or what hinders
their translation. -/
inductive GranRes where
  | ok (l : List (Nat × Nat))
  | park (va : Nat)
  | service (va level entry : Nat)
  | fault (c : Cause) (va : Nat)
  deriving DecidableEq, Repr

/-- Pieces given by the offset of their granule and their virtual address, translated as a load, or as work that no strait
lets through (R305). -/
def granulesGo (s : State) (v : View) (i : Island) (load : Bool) : List (Nat × Nat) → GranRes
  | [] => .ok []
  | p :: ps =>
    let va := p.2 / 65536 * 65536
    if badAddress va then .fault .addrForm va
    else
      match s.resolveVa i v.cluster p.2 needR load with
      | .ok x =>
        match granulesGo s v i load ps with
        | .ok l => .ok ((p.1, pieceAt x) :: l)
        | r => r
      | .park => .park va
      | .service l e => .service va l e
      | r => .fault r.cause va

/-- The sixteen pieces of each granule that a range touches: offsets and virtual addresses. -/
def granulePieces (a n : Nat) : List (Nat × Nat) :=
  (rangePieces 65536 a n).flatMap (fun p => (List.range 16).map (fun j => (p.1, (a + p.1) / 65536 * 65536 + 4096 * j)))

/-- The granules that `n` bytes from an offset touch. -/
def granulesOf (s : State) (v : View) (g : Seg) (off n : Nat) (load : Bool) : GranRes :=
  match s.island? v.island with
  | none => .fault .owner (g.base.toNat + off)
  | some i => granulesGo s v i load (granulePieces (g.base.toNat + off) n)

/-- The granules of a range for the thread at issue: parks, or a precise trap at the unit. -/
def State.withGranules (s : State) (g : Seg) (off n : Nat) (load : Bool) (k : List (Nat × Nat) → State) : State :=
  match granulesOf s s.thr.view g off n load with
  | .ok l => k l
  | .park va => s.parkPage va
  | .service va l e => (s.serviceFault s.thr.view 0 va l e).parkPage va
  | .fault c va => s.trapUnit c va

/-! ## HSET and HCLR (R199) -/

/-- HSET: the checks; the thread parks until every engine of the island has the entry. DESIGN CHOICE (log 121): every granule
is translated before any count is looked at, since R199 gives no order of the two. -/
def execHset (_u : Bool) (e : BitVec 3) (a : BitVec 6) (sg : BitVec 3) (s : State) : Out :=
  let off := (s.rg a).toNat
  let g := s.thr.seg sg
  .next (s.resumed fun s =>
    s.unless (segCheck g sg.toNat off 1 8 rightH (g.space == spInter || g.space == spBank || g.space == spCode)) fun s =>
    s.withGranules g 0 g.len true fun l =>
      match l.find? (fun p => s.freezeCount p.2 == 0) with
      | some p => s.trap .segRight (wordOf p.1) (sg.zeroExtend 64)
      | none => s.engineWork (.hset (8 + e.toNat) g off (l.map (·.2))))

/-- HCLR: the H right; the thread parks until every engine has emptied the entry. -/
def execHclr (_u : Bool) (e : BitVec 3) (sg : BitVec 3) (s : State) : Out :=
  let g := s.thr.seg sg
  .next (s.resumed fun s =>
    s.unless (rightCheck g sg.toNat 0 rightH true) fun s => s.engineWork (.hclr (8 + e.toNat)))

/-- Engine work by its number. -/
def State.engJob? (s : State) (id : Nat) : Option EngineJob := s.engJobs.find? (fun j => j.id == id)

/-- Engine work has ended: its thread wakes with its unit complete, or its command (a FREEZE) is answered. -/
def State.endEngJob (s : State) (j : EngineJob) : State :=
  let s1 : State := { s with engJobs := s.engJobs.filter (fun k => k.id != j.id) }
  match j.conn with
  | some h => s1.answer h 7 0 []
  | none => s1.wakeWith j.key 0

/-- HANDLER_INSTALL (R199): every engine of the island holds the new entry. -/
def execHandlerInstall (id : Nat) (s : State) : Out :=
  .next (match s.engJob? id with
    | some j =>
      match j.work with
      | .hset e g off grans =>
        let put (i : Island) : Island :=
          { i with handlers := ⟨e, g, off, grans⟩ :: i.handlers.filter (fun h => h.entry != e) }
        (s.modIsland j.island put).endEngJob j
      | _ => s
    | none => s)

/-- HANDLER_CLEAR (R199): every engine of the island has emptied the entry. -/
def execHandlerClear (id : Nat) (s : State) : Out :=
  .next (match s.engJob? id with
    | some j =>
      match j.work with
      | .hclr e =>
        (s.modIsland j.island (fun i => { i with handlers := i.handlers.filter (fun h => h.entry != e) })).endEngJob j
      | _ => s
    | none => s)

end Sys2Proof.Machine
end

