-- ==== Sys2Proof/Machine/Freeze.lean ====
section
/-! DEFINITION. Freeze and thaw (spec/08, R200 to R203): FRZ, THAW and FRZQ, the recall that ends a freeze and the
arrival that ends a thaw. -/

namespace Sys2Proof.Machine

open Sys2Proof

/-- The checks of a range that is frozen or thawed (R201): F and space 5 or 6, bounds, then multiples of 64 KiB. -/
def freezeCheck (s : State) (g : Seg) (sg off n : Nat) : Option TrapInfo :=
  firstTrap [
    rightCheck g sg off rightF (g.space == spInter || g.space == spBank),
    boundCheck g sg off n,
    trapIf ((g.base.toNat + off) % 65536 != 0 || n % 65536 != 0) .align off sg,
    formRange s s.thr.view g off n]

/-- Does a piece lie in the STATE or TWIN of a defined field. -/
def State.inField (s : State) (gr : Nat) : Bool :=
  s.fields.any (fun f => f.meets f.slab (4096 * gr) 4096 || f.meets f.twin (4096 * gr) 4096)

/-- Does a piece lie in the region of an installed handler. -/
def State.inHandler (s : State) (gr : Nat) : Bool := s.islands.any (fun i => i.handlers.any (fun h => h.grans.contains gr))

/-- Every piece of a list gets one more freeze. -/
def State.freezeAll (s : State) (l : List Nat) : State := l.foldl (fun u gr => u.setFreeze gr (u.freezeCount gr + 1)) s

/-- Every piece of a list loses one freeze. -/
def State.thawAll (s : State) (l : List Nat) : State := l.foldl (fun u gr => u.setFreeze gr (u.freezeCount gr - 1)) s

/-- FRZ (R201): Release(.dev), the two refusals, the freeze point; the thread parks until the recall ends. -/
def execFrz (_u : Bool) (a b : BitVec 6) (sg : BitVec 3) (s : State) : Out :=
  let off := (s.rg a).toNat
  let n := (s.rg b).toNat
  let g := s.thr.seg sg
  .next (s.resumed fun s =>
    s.deviceGate fun s =>
    s.unless (freezeCheck s g sg.toNat off n) fun s =>
      if n = 0 then s.finish
      else
        State.withGranules (s.releaseEager s.thr.view s.thr.key .dev) g off n false fun l =>
          let s1 := s.releaseEager s.thr.view s.thr.key .dev
          match l.find? (fun p => s1.freezeCount p.2 == 255), l.find? (fun p => s1.inField p.2) with
          | some p, _ => s1.trap .freezeFull (wordOf (off + p.1)) 0
          | none, some p => s1.trap .fieldWrite (wordOf (off + p.1)) 0
          | none, none => (s1.freezeAll (l.map (·.2))).engineWork (.freeze (l.map (·.2))))

/-- Every dirty copy of the pieces is recalled: from L1s, buffers and home slices. -/
def State.recallPieces (s : State) (l : List Nat) : State :=
  l.foldl (fun u gr =>
    let v := u.recallRange (4096 * gr) 4096
    { v with homeDirty := setClear v.homeDirty (32 * gr) 32 }) s

/-- FREEZE_DRAIN (R201): the recall has ended, and the FRZ unit, or the host's command, completes. -/
def execFreezeDrain (id : Nat) (s : State) : Out :=
  .next (match s.engJob? id with
    | some j =>
      match j.work with
      | .freeze l => (s.recallPieces l).endEngJob j
      | _ => s
    | none => s)

/-- The first granule that a thaw may not touch: count 0, or one that would reach 0 in the region of a handler (R202). -/
def State.thawRefused (s : State) (l : List (Nat × Nat)) : Option Nat :=
  (l.find? (fun p => s.freezeCount p.2 == 0 || (s.freezeCount p.2 == 1 && s.inHandler p.2))).map (·.1)

/-- The granules of a range all of whose pieces have count 0. -/
def State.zeroGranules (s : State) (l : List (Nat × Nat)) : Nat :=
  (((l.map (·.1)).foldl setAdd []).filter (fun o => l.all (fun p => p.1 != o || s.freezeCount p.2 == 0))).length

/-- A thaw begins: the counts fall, or none does; its arrival is owed. -/
def State.beginThaw (s : State) (l : List (Nat × Nat)) (island : Nat) (bar : Option Ref) (conn : Option CmdHeader) : State :=
  let all := l.map (·.2)
  let bad := s.thawRefused l
  let s1 := if bad.isSome then s else s.thawAll all
  let zeros := if bad.isSome then [] else all.filter (fun gr => s1.freezeCount gr == 0)
  { s1 with thaws := s1.thaws ++ [⟨s1.nextId, island, all, bad, zeros, if bad.isSome then 0 else s1.zeroGranules l, bar, conn⟩], nextId := s1.nextId + 1 }

/-- THAW (R202): it returns without parking. -/
def execThaw (_u : Bool) (d a b : BitVec 6) (sg : BitVec 3) (s : State) : Out :=
  let off := (s.rg a).toNat
  let n := (s.rg b).toNat
  let g := s.thr.seg sg
  let bx := s.rg d
  .next (s.writeGate fun s =>
    s.unless (freezeCheck s g sg.toNat off n) fun s =>
    s.withPlace bx fun bar bo =>
    s.unless (firstTrap [barrierRight bar bx, boundCheck bar (handleNum bx) bo 16, alignCheck (handleNum bx) bo 16,
      formRange s s.thr.view bar bo 16]) fun s =>
    s.withGranules g off n false fun l => (s.beginThaw l s.thr.view.island (some ⟨bar, bo, s.thr.view⟩) none).finish)

/-- Every copy of a piece that the thaw invalidates goes: in L1s, replica lines, and at the modules that fetched it. -/
def State.invalidatePiece (s : State) (gr : Nat) : State :=
  let drop (u : State) (c : CoreSt) : State :=
    (c.l1.filter (fun l => pieceAt (128 * l.line) == gr)).foldl (fun w l => w.evictLine c.id l.line) u
  let s1 := s.cores.foldl drop s
  { s1 with replicas := s1.replicas.filter (fun r => pieceAt (128 * r.2) != gr)
            farFetch := s1.farFetch.filter (fun f => f.1 != gr) }

/-- THAW_ARRIVAL (R202): every invalidation has been acknowledged; the arrival carries the number of granules that
reached 0, or the refusal. A host's reply holds VALUE and FAULT where TBTEST would show them. -/
def execThawArrival (id : Nat) (s : State) : Out :=
  .next (match s.thaws.find? (fun t => t.id == id) with
    | none => s
    | some t =>
      let s1 := t.zeros.foldl State.invalidatePiece { s with thaws := s.thaws.filter (fun k => k.id != id) }
      let value := match t.refused with
        | some o => o
        | none => t.count
      match t.bar, t.conn with
      | some b, _ => s1.arrive ⟨b, some value, t.refused.isSome, false, 3, none⟩
      | none, some h =>
        s1.answer h 7 0 (bytesOf (value % 2 ^ 32 + (if t.refused.isSome then 4 * 2 ^ 32 else 0)) 8)
      | none, none => s1)

/-- The state of a granule as FRZQ shows it (R203), at one of its pieces. -/
def State.granuleState (s : State) (gr : Nat) : Word :=
  wordOf (s.freezeCount gr + (if s.thawing gr then 2 ^ 8 else 0) + (if s.inHandler gr then 2 ^ 9 else 0))

/-- The piece that holds an address, of the sixteen of its granule. -/
def pieceIn (l : List (Nat × Nat)) (va : Nat) : Nat := (l.getD (va % 65536 / 4096) (0, 0)).2

/-- FRZQ (R203). -/
def execFrzq (_u : Bool) (d a : BitVec 6) (sg : BitVec 3) (s : State) : Out :=
  let off := (s.rg a).toNat
  let g := s.thr.seg sg
  .next (s.readGate fun s =>
    s.unless (firstTrap [rightCheck g sg.toNat off rightR (g.space == spInter || g.space == spBank), boundCheck g sg.toNat off 1,
      formCheck s s.thr.view g off 1]) fun s =>
    s.withGranules g off 1 true fun l =>
      s.finishG d (s.granuleState (pieceIn l (g.base.toNat + off))))

end Sys2Proof.Machine
end

