-- ==== Sys2Proof/Machine/Rows.lean ====
section
/-! DEFINITION. Row operations (spec/08, R204 to R206): ROWCPY, ROWSET and ROWOP, and the stope engines' rows. -/

namespace Sys2Proof.Machine

open Sys2Proof

/-- The subarray of a bank-linear address. -/
def subarrayOf (va : Nat) : Nat := va % 2 ^ 39 / 2 ^ 19

/-- The first row, of `n`, whose operands do not all lie in one subarray. -/
def badRow (dst : Nat) (srcs : List Nat) (n : Nat) : Option Nat :=
  (List.range n).find? (fun i => srcs.any (fun x => subarrayOf (x + 1024 * i) != subarrayOf (dst + 1024 * i)))

/-- The checks of a row operation, in the order of R204. -/
def rowCheck (s : State) (g : Seg) (sg : Nat) (n : Nat) (ops : List Nat) : Option TrapInfo :=
  let off := ops.headD 0
  firstTrap ([
    rightCheck g sg off (rightE ||| rightR ||| rightW) (g.space == spBank),
    trapIf (2 ^ 20 < n) .segBound off sg] ++
    ops.map (fun o => boundCheck g sg o (1024 * n)) ++
    ops.map (fun o => trapIf ((g.base.toNat + o) % 1024 != 0) .rowAlign o sg) ++
    ops.map (fun o => formRange s s.thr.view g o (1024 * n)))

/-- A row operation on the destination at g[a] with its sources: code 0 ROWCPY, 1 ROWSET, 2 to 6 ROWOP. -/
def State.rowWork (s : State) (op : Nat) (d : BitVec 5) (a : BitVec 6) (srcs : List Nat) (pattern : Word) (sg : BitVec 3) :
    State :=
  let r : BitVec 6 := d.zeroExtend 6 <<< 1
  let n := (s.rg r).toNat
  let bx := s.rg (r + 1)
  let off := (s.rg a).toNat
  let g := s.thr.seg sg
  let v := s.thr.view
  let rowBad := if op = 5 ∨ op = 6 then badRow (g.base.toNat + off) (srcs.map (g.base.toNat + ·)) n else none
  s.writeGate fun s =>
  s.unless (rowCheck s g sg.toNat n (off :: srcs)) fun s =>
  s.withPlace bx fun bar bo =>
  s.unless (firstTrap [
      barrierRight bar bx,
      boundCheck bar (handleNum bx) bo 16,
      alignCheck (handleNum bx) bo 16,
      formRange s v bar bo 16,
      rowBad.map (fun i => ⟨.rowPlace, wordOf i, wordOf sg.toNat⟩),
      s.fieldCheck g off (1024 * n)]) fun s =>
    let s1 := s.release v s.thr.key .clus
    let job : RowJob := ⟨s1.nextId, s.thr.key, op, n, 0, ⟨g, off, v⟩, srcs, pattern, ⟨bar, bo, v⟩⟩
    State.finish { s1 with rowJobs := s1.rowJobs ++ [job], nextId := s1.nextId + 1 }

/-- ROWCPY (R204). -/
def execRowcpy (_u : Bool) (d : BitVec 5) (a b : BitVec 6) (sg : BitVec 3) (s : State) : Out :=
  .next (s.rowWork 0 d a [(s.rg b).toNat] 0 sg)

/-- ROWSET (R204): g[b] repeated. -/
def execRowset (_u : Bool) (d : BitVec 5) (a b : BitVec 6) (sg : BitVec 3) (s : State) : Out :=
  .next (s.rowWork 1 d a [] (s.rg b) sg)

/-- The code and the number of sources of a ROWOP (Table 8.5). -/
def RowFn.shape : RowFn → Nat × Nat
  | .and => (2, 2) | .or => (3, 2) | .xor => (4, 2) | .not => (5, 1) | .maj3 => (6, 3)

/-- ROWOP (R204): its sources are named by g[b] and the registers after it. -/
def execRowop (_u : Bool) (d : BitVec 5) (a b : BitVec 6) (sg : BitVec 3) (op : RowFn) (s : State) : Out :=
  let p := RowFn.shape op
  .next (s.rowWork p.1 d a ((List.range p.2).map (fun i => (s.rg (b + BitVec.ofNat 6 i)).toNat)) 0 sg)

/-! ## The rows (R205) -/

/-- The bits of a row. -/
def rowBits : Nat := 8192

/-- What a destination row receives from its source rows (Table 8.5). -/
def rowResult (op : Nat) (pattern : Word) (x y z : Nat) : Nat :=
  match op with
  | 0 => x
  | 1 => (List.range 128).foldl (fun r i => r + pattern.toNat * 2 ^ (64 * i)) 0
  | 2 => x &&& y
  | 3 => x ||| y
  | 4 => x ^^^ y
  | 5 => 2 ^ rowBits - 1 - x
  | _ => (x &&& y) ||| (x &&& z) ||| (y &&& z)

/-- The lines of a row at a location are given to its stope engine: the issuer's covered bytes, the records and the
home slice's dirty copies come first (R190, R242). -/
def State.openRow (s : State) (core : Nat) (x : Loc) : State :=
  (linesOf x 1024).foldl (fun u l => (u.kickLine core l).recallHome l) s

/-- One source row is read completely. -/
def State.readRow (s : State) (v : View) (g : Seg) (off : Nat) : State × EngRes × Loc :=
  match s.engPlace 3 v g off needR with
  | (s1, .ok, x) =>
    let s2 := s1.openRow (coreIndex v) x
    if s2.poisoned x 1024 then (s2, .fault .poison, x) else (s2, .ok, x)
  | r => r

/-- The source rows of row i, in order: their locations. -/
def State.readRows (s : State) (v : View) (g : Seg) (i : Nat) : List Nat → State × EngRes × List Loc
  | [] => (s, .ok, [])
  | o :: os =>
    match s.readRow v g (o + 1024 * i) with
    | (s1, .ok, x) =>
      match s1.readRows v g i os with
      | (s2, r, xs) => (s2, r, x :: xs)
    | (s1, r, _) => (s1, r, [])

/-- The full/empty bits of a row's words after it is written: those of the source row, or full. -/
def State.rowFull (s : State) (y : Loc) (src : Option Loc) : State :=
  let bits := (List.range 128).map (fun i => match src with
    | some x => s.isFull (wordAt x + i)
    | none => true)
  (List.range 128).foldl (fun u i =>
    let f := bits.getD i true
    if u.isFull (wordAt y + i) = f then u else u.changeFull (wordAt y + i) f) s

/-- One row is performed. -/
def State.oneRow (s : State) (j : RowJob) (i : Nat) : State × EngRes :=
  let v := j.dst.view
  let g := j.dst.seg
  match s.readRows v g i j.srcs with
  | (s1, .ok, xs) =>
    match s1.engPlace 3 v g (j.dst.off + 1024 * i) needW with
    | (s2, .ok, y) =>
      if s2.isFrozen y then (s2, .fault .frozen)
      else
        let s3 := s2.openRow (coreIndex v) y
        let row (n : Nat) : Nat := match xs[n]? with
          | some x => s3.peek x 1024
          | none => 0
        ((s3.poke y 1024 (rowResult j.op j.pattern (row 0) (row 1) (row 2))).rowFull y (if j.op = 0 then xs.head? else none), .ok)
    | (s2, r, _) => (s2, r)
  | (s1, r, _) => (s1, r)

/-- The stack of the engine that performs the next row of a row operation. -/
def RowJob.stack (j : RowJob) : Nat := stackOf (clusterOver ((j.dst.seg.base.toNat + j.dst.off + 1024 * j.pos) % 2 ^ 39))

/-- Up to `n` rows, as far as their engines' stacks are not stopped (R357); then the rows performed and what stopped it. -/
def State.rowGo (s : State) (j : RowJob) : Nat → State × RowJob × EngRes
  | 0 => (s, j, .ok)
  | n + 1 =>
    if j.rows ≤ j.pos || s.stackStopped j.stack then (s, j, .ok)
    else
      match s.oneRow j j.pos with
      | (s1, .ok) => s1.rowGo { j with pos := j.pos + 1 } n
      | (s1, r) => (s1, j, r)

/-- ROW_OPERATION_PERFORM (R205): up to `n` further rows; at the end, or at a fault, the arrival. The engine of a stopped
stack waits (R357). -/
def execRowOperationPerform (id n : Nat) (s : State) : Out :=
  .next (match s.rowJobs.find? (fun j => j.id == id) with
    | none => s
    | some j =>
      let done_ (u : State) (value : Nat) (fault : Bool) : State :=
        State.arrive { u with rowJobs := u.rowJobs.filter (fun k => k.id != id) } ⟨j.bar, some value, fault, false, 3, none⟩
      if s.stackStopped j.stack then s
      else
      match s.rowGo j n with
      | (s1, j1, .fault _) => done_ s1 j1.pos true
      | (s1, j1, r) =>
        if r = .ok ∧ j1.rows ≤ j1.pos then done_ s1 j1.rows false
        else { s1 with rowJobs := s1.rowJobs.map (fun k => if k.id = id then j1 else k) })

end Sys2Proof.Machine
end

