-- ==== Sys2Proof/Machine/Fields.lean ====
section
/-! DEFINITION. Fields (spec/08, R207 to R212; spec/12, R262 to R281): FDEF and its checks, FRUN, FSTOP, FSNAP, FCPL and
FSTAT, and the phases, sweeps, snapshots and coupling swaps of a field at work. -/

namespace Sys2Proof.Machine

open Sys2Proof

/-! ## The descriptor (Table 8.6) -/

def fieldX (d : BitVec 1024) : Nat := descBits d 448 16 + 1
def fieldY (d : BitVec 1024) : Nat := descBits d 464 16 + 1
def fieldZ (d : BitVec 1024) : Nat := descBits d 480 16 + 1
def fieldNdim (d : BitVec 1024) : Nat := descBits d 496 2
def fieldPer (d : BitVec 1024) : Nat := descBits d 498 3
def fieldWidthCode (d : BitVec 1024) : Nat := descBits d 501 2
def fieldStencil (d : BitVec 1024) : Nat := descBits d 503 2
def fieldColour (d : BitVec 1024) : Nat := descBits d 505 2
def fieldMode (d : BitVec 1024) : Nat := descBits d 507 1
def fieldRoutine (d : BitVec 1024) : Nat := descBits d 508 4
def fieldKey (d : BitVec 1024) : BitVec 32 := BitVec.ofNat 32 (descBits d 512 32)
def fieldStart (d : BitVec 1024) : Nat := descBits d 544 32
def fieldLimit (d : BitVec 1024) : Nat := descBits d 576 32
def fieldNcm1 (d : BitVec 1024) : Nat := descBits d 608 4

/-- The extents. -/
def fieldExt (d : BitVec 1024) : List Nat := [fieldX d, fieldY d, fieldZ d]

/-- The number of sites. -/
def fieldSites (d : BitVec 1024) : Nat := fieldX d * fieldY d * fieldZ d

/-- The site width in bits. -/
def fieldWidth (d : BitVec 1024) : Nat := 2 ^ fieldWidthCode d

/-- E, the extent of the slow axis, and L, the sites of one layer across it (R263). -/
def fieldSlow (d : BitVec 1024) : Nat := (fieldExt d).getD (fieldNdim d - 1) 1
def fieldLayer (d : BitVec 1024) : Nat := [1, fieldX d, fieldX d * fieldY d].getD (fieldNdim d - 1) 1

/-- T, the layers of each of G bank groups (R263), and H, the rows of a slab (R264). -/
def fieldThick (d : BitVec 1024) (g : Nat) : Nat := (fieldSlow d + g - 1) / g
def fieldRows (d : BitVec 1024) (g : Nat) : Nat := (fieldThick d g * fieldLayer d * fieldWidth d + 8191) / 8192

/-- The number of colours (R268). -/
def fieldColours (d : BitVec 1024) : Nat :=
  if fieldColour d = 0 then 2 else if fieldColour d = 1 then 4 else fieldNcm1 d + 1

/-- The directions of Table 12.1, in order. -/
def fieldDirs (d : BitVec 1024) : List (List Int) :=
  let planar := [[-1, 0, 0], [1, 0, 0], [0, -1, 0], [0, 1, 0]]
  if fieldNdim d = 1 then planar.take 2
  else if fieldStencil d = 0 then planar
  else if fieldStencil d = 1 then planar ++ [[-1, -1, 0], [1, -1, 0], [-1, 1, 0], [1, 1, 0]]
  else planar ++ [[0, 0, -1], [0, 0, 1]]

/-- D, the number of directions (R266). -/
def fieldD (d : BitVec 1024) : Nat := (fieldDirs d).length

/-- Reason 1 of Table 8.8: a reserved code, or a field that is nonzero and reserved or unused. -/
def fieldReserved (d : BitVec 1024) : Bool :=
  let n := fieldNdim d
  let r := fieldRoutine d
  descBits d 612 412 != 0 || n == 0 || fieldStencil d == 3 || fieldColour d == 3 || (1 ≤ r && r ≤ 7) ||
    (n < 2 && fieldY d != 1) || (n < 3 && fieldZ d != 1) || fieldPer d / 2 ^ n != 0 ||
    (fieldColour d != 2 && (descWord d 384 != 0 || fieldNcm1 d != 0)) || (fieldColour d == 2 && fieldNcm1 d == 0) ||
    (r != 0 && descWord d 256 != 0) || (r == 0 && fieldMode d == 1 && fieldWidthCode d != 0)

/-- Reason 2 without the map: a stencil and a colour schedule that do not fit each other or the extents. -/
def fieldImproper (d : BitVec 1024) : Bool :=
  let n := fieldNdim d
  let c := fieldColour d
  let axes := if c = 0 then List.range n else if c = 1 then List.range (min n 2) else []
  (fieldStencil d == 2 && n != 3) || (fieldStencil d == 1 && c == 0) || (c == 1 && fieldStencil d == 2) ||
    axes.any (fun a => (fieldPer d).testBit a && (fieldExt d).getD a 1 % 2 == 1)

/-! ## Looking fields up -/

/-- A defined field of an island. -/
def State.field? (s : State) (isl num : Nat) : Option Field := s.fields.find? (fun f => f.island == isl && f.num == num)

/-- A field changed. -/
def State.setField (s : State) (f : Field) : State :=
  { s with fields := s.fields.map (fun k => if k.island = f.island ∧ k.num = f.num then f else k) }

/-! ## Tables (R271 to R273) -/

/-- One byte of a table at home; none where it cannot be read. -/
def State.tableByte (s : State) (r : Ref) (off : Nat) : Option Nat :=
  if badAddress (r.seg.base.toNat + r.off + off) then none
  else
    match s.locate r.view r.seg (r.off + off) needR false with
    | .ok x => if s.poisoned x 1 then none else some (s.peek x 1)
    | _ => none

/-- `n` bytes of a table, little-endian. -/
def State.tableNum (s : State) (r : Ref) (off : Nat) : Nat → Option Nat
  | 0 => some 0
  | n + 1 =>
    match s.tableByte r off, s.tableNum r (off + 1) n with
    | some b, some x => some (b + 256 * x)
    | _, _ => none

/-- What the check of a table gives. -/
inductive TabRes where
  | ok (t : FieldTable)
  | park (va : Nat)
  | service (va level entry : Nat)
  /-- Reason 7: a right of the handle, or a page; the cause, and the address. -/
  | seven (c : Cause) (va : Nat)
  /-- The table does not lie within its segment, or its header does not fit: the offset of its first byte. -/
  | small (off : Nat)
  /-- A granule that is not frozen: its offset within the segment. -/
  | thawed (off : Nat)
  /-- A granule at count 255: its offset within the segment. -/
  | full (off : Nat)
  deriving DecidableEq, Repr

/-- The offset within a segment at which a granule of a range begins. -/
def granuleOff (g : Seg) (off : Nat) : Nat :=
  let a := g.base.toNat + off
  a / 65536 * 65536 - g.base.toNat

/-- The check of `n` bytes of a table: pages first, then the size, then the freezes (R208). -/
def tableRange (s : State) (r : Ref) (n : Nat) : TabRes :=
  match granulesOf s r.view r.seg r.off (min n (r.seg.len - r.off)) false with
  | .park va => .park va
  | .service va l e => .service va l e
  | .fault c va => .seven c va
  | .ok l =>
    if r.off + n > r.seg.len then .small r.off
    else
      match l.find? (fun p => s.freezeCount p.2 == 0), l.find? (fun p => s.freezeCount p.2 == 255) with
      | some p, _ => .thawed (granuleOff r.seg (r.off + p.1))
      | none, some p => .full (granuleOff r.seg (r.off + p.1))
      | none, none => .ok ⟨r, (l.map (·.2)).foldl setAdd []⟩

/-- A table whose size stands in its header of `hdr` bytes; `size` is none where the header does not fit the field. The
pages of the header, then those of the whole table, come before its size and its freezes (R208). -/
def sizedTable (s : State) (r : Ref) (hdr : Nat) (size : Nat → Option Nat) : TabRes :=
  match granulesOf s r.view r.seg r.off (min hdr (r.seg.len - r.off)) false with
  | .park va => .park va
  | .service va l e => .service va l e
  | .fault c va => .seven c va
  | .ok _ =>
    if r.off + hdr > r.seg.len then .small r.off
    else
      match (s.tableNum r 0 hdr).bind size with
      | some n => tableRange s r n
      | none => .small r.off

/-- A table named in handle-offset form by a view: R and E, and memory that can be frozen. -/
def namedTable (s : State) (v : View) (htab : Nat) (x : Word) (check : Ref → TabRes) : TabRes :=
  match followHandle s v htab x with
  | .park va => .park va
  | .service va l e => .service va l e
  | .segRight | .addrForm _ => .seven .segRight 0
  | .ok g =>
    if g.rights &&& (rightR ||| rightE) != (rightR ||| rightE) then .seven .segRight 0
    else if !g.isDram then .thawed (handleOff x)
    else check ⟨g, handleOff x, v⟩

/-- The size of a coupling table from its header (Table 12.2), for a field of `n` sites. -/
def cplSize (d : BitVec 1024) (n : Nat) (h : Nat) : Option Nat :=
  if h % 256 > 1 ∨ bitsAt h 8 8 ≠ fieldD d ∨ h / 2 ^ 16 ≠ 0 then none
  else some (16 + fieldD d * (if h % 256 = 1 then n else 1))

/-- NENT, NROW and SMIN of a probability table (Table 12.3). -/
def ptabNent (h : Nat) : Nat := bitsAt h 0 16
def ptabNrow (h : Nat) : Nat := bitsAt h 16 16
def ptabSmin (h : Nat) : Int := signedOf 32 (bitsAt h 32 32)

/-- The size of a probability table from its header (R272, R274). -/
def ptabSize (d : BitVec 1024) (h : Nat) : Option Nat :=
  if ptabNent h = 0 ∨ ptabNent h > 4096 ∨ ptabNrow h = 0 ∨ h / 2 ^ 64 ≠ 0 then none
  else some (16 + 4 * (ptabNrow h * ptabNent h * (if fieldMode d = 1 then 2 else 2 ^ fieldWidth d - 1)))

/-- The size of a β schedule from its header (R273). -/
def betaSize (h : Nat) : Option Nat := if h % 2 ^ 32 = 0 ∨ h / 2 ^ 32 ≠ 0 then none else some (8 + 4 * h)

/-- The tables of a field. -/
structure FieldTabs where
  cpl : TabRes
  bias : Option TabRes
  ptab : Option TabRes
  beta : Option TabRes
  cmap : Option TabRes
  deriving DecidableEq, Repr

/-- The check of every table that the descriptor names. -/
def fieldTables (s : State) (v : View) (htab : Nat) (d : BitVec 1024) : FieldTabs where
  cpl := namedTable s v htab (descWord d 128) (fun r => sizedTable s r 16 (cplSize d (fieldSites d)))
  bias := if handleNum (descWord d 192) = 0 then none
    else some (namedTable s v htab (descWord d 192) (fun r => tableRange s r (fieldSites d)))
  ptab := if fieldRoutine d = 0 then
      some (namedTable s v htab (descWord d 256) (fun r => sizedTable s r 16 (ptabSize d)))
    else none
  beta := if handleNum (descWord d 320) = 0 then none
    else some (namedTable s v htab (descWord d 320) (fun r => sizedTable s r 8 betaSize))
  cmap := if fieldColour d = 2 then
      some (namedTable s v htab (descWord d 384) (fun r => tableRange s r ((fieldSites d + 1) / 2)))
    else none

/-- The checks of the tables in the order of R208: BETA last but for the map. -/
def FieldTabs.all (t : FieldTabs) : List TabRes := t.cpl :: (t.bias.toList ++ t.ptab.toList ++ t.beta.toList ++ t.cmap.toList)

/-- A check of a table that holds FDEF. -/
def TabRes.holds : TabRes → Bool
  | .park _ | .service _ _ _ => true
  | _ => false

/-- A check of a table that failed with reason 7. -/
def TabRes.isSeven : TabRes → Bool
  | .seven _ _ => true
  | _ => false

/-- The table, where the check passed. -/
def TabRes.table? : TabRes → Option FieldTable
  | .ok t => some t
  | _ => none

/-- The pieces of all the tables: one that would pass 255 once every table has its freeze (reason 5). -/
def overFrozen (s : State) (ts : List FieldTable) : Bool :=
  let all := ts.flatMap (·.grans)
  all.any (fun gr => s.freezeCount gr + all.count gr > 255)

/-- Does an entry of the β schedule name a row that the probability table does not have (R273). -/
def betaBeyond (s : State) (beta ptab : FieldTable) : Bool :=
  let nrow := ((s.tableNum ptab.ref 0 16).map ptabNrow).getD 0
  let nb := (s.tableNum beta.ref 0 4).getD 0
  (List.range nb).any (fun e => nrow ≤ ((s.tableNum beta.ref (8 + 4 * e) 2).getD 0))

/-! ## STATE and TWIN (R262 to R264) -/

/-- The bank groups from one bank-linear offset up to another, shaft codes without a bank group left out. -/
def groupsBetween (lo hi : Nat) : List Nat :=
  if hi ≤ lo then [] else (List.range' (lo / 2 ^ 26) ((hi - 1) / 2 ^ 26 - lo / 2 ^ 26 + 1)).filter (fun e => e / 16 % 128 < 96)

/-- The bank-linear virtual address of a location. -/
def bankVa (x : Loc) : Nat := 0x1000 * 2 ^ 39 + x

/-- Where a field would lie. -/
structure FieldPlace where
  groups : List Nat
  slab : Nat
  twin : Nat
  rows : Nat
  deriving DecidableEq, Repr

/-- STATE and TWIN in bank-linear space and row-aligned, and every bank group of an island's shaft: else reason 3. -/
def fieldPlace (i : Island) (d : BitVec 1024) (sg tg : Seg) (so tof : Nat) : Option FieldPlace :=
  let sv := sg.base.toNat + so
  let tv := tg.base.toNat + tof
  if sg.space ≠ spBank ∨ tg.space ≠ spBank ∨ sv % 1024 ≠ 0 ∨ tv % 1024 ≠ 0 ∨ badAddress sv ∨ badAddress tv ∨
      !(inBankWindow sv) ∨ !(inBankWindow tv) then none
  else
    let gs := groupsBetween (sv % 2 ^ 39) (min (sv % 2 ^ 39 + (sg.len - so)) (2 ^ 39))
    if gs.isEmpty ∨ gs.any (fun e => !(Shape.tiles i.shape).contains (clusterOver (e * 2 ^ 26))) then none
    else some ⟨gs, sv % 2 ^ 26, tv % 2 ^ 26, fieldRows d gs.length⟩

/-- The ranges of slabs or of twins: locations. -/
def FieldPlace.starts (p : FieldPlace) (lo : Nat) : List Loc := p.groups.map (fun e => e * 2 ^ 26 + lo)

/-- The frames of the slabs or twins. -/
def rowGranules (starts : List Loc) (rows : Nat) : List Nat :=
  starts.flatMap (fun x => List.range' (granuleAt x) (granuleAt (x + 1024 * rows - 1) - granuleAt x + 1))

/-- The rest of reason 3 (R262, R264): subarrays, rows, the segments' cover, and other fields. DESIGN CHOICE (log 122): "too
small for the sites" is said of the H whole rows of the last bank group too. -/
def fieldMisplaced (s : State) (p : FieldPlace) (sg tg : Seg) : Bool :=
  let n := 1024 * p.rows
  let srow := p.slab / 1024 % 512
  let trow := p.twin / 1024 % 512
  let last := p.groups.getLastD 0 * 2 ^ 26
  let first := p.groups.headD 0 * 2 ^ 26
  p.slab / 2 ^ 19 != p.twin / 2 ^ 19 || trow < srow + p.rows || 512 < trow + p.rows ||
    sg.base.toNat + sg.len < bankVa (last + p.slab) + n || bankVa (first + p.twin) < tg.base.toNat ||
    tg.base.toNat + tg.len < bankVa (last + p.twin) + n ||
    s.fields.any (fun f => (p.starts p.slab ++ p.starts p.twin).any (fun x => f.meets f.slab x n || f.meets f.twin x n))

/-- Does a segment reach the page at a virtual address. -/
def Seg.reaches (g : Seg) (va : Nat) : Bool := decide (va < g.base.toNat + g.len) && decide (g.base.toNat < va + 65536)

/-- The pages of STATE, or of TWIN: those of its rows in the bank groups that STATE names, within its segment. Where it
does not lie in bank-linear space, those of as many bytes as the sites take (DEDUCED, log 51: the pages are checked before
the space is). -/
def placePages (d : BitVec 1024) (sg g : Seg) (so off : Nat) : List Nat :=
  let sv := sg.base.toNat + so
  let a := g.base.toNat + off
  let vas :=
    if g.space = spBank ∧ sg.space = spBank ∧ inBankWindow a ∧ inBankWindow sv then
      let gs := groupsBetween (sv % 2 ^ 39) (min (sv % 2 ^ 39 + (sg.len - so)) (2 ^ 39))
      (rowGranules (gs.map (fun e => e * 2 ^ 26 + a % 2 ^ 26)) (fieldRows d gs.length)).map (fun gr => bankVa (65536 * gr))
    else if g.isDram then
      let n := (fieldSites d * fieldWidth d + 7) / 8
      (List.range' (a / 65536) ((a + n - 1) / 65536 - a / 65536 + 1)).map (65536 * ·)
    else []
  vas.filter (fun va => g.reaches va && !badAddress va)

/-- The pages of the slabs and twins: R and W of each (reason 7), or what holds FDEF. -/
def fieldPages (s : State) (v : View) (i : Island) : List Nat → GranRes
  | [] => .ok []
  | va :: vas =>
    match s.resolveVa i v.cluster va needRW false with
    | .ok _ => fieldPages s v i vas
    | .park => .park va
    | .service l e => .service va l e
    | r => .fault r.cause va

/-! ## FDEF (R208) -/

/-- What the checks of FDEF give. -/
inductive FdefRes where
  | ok (f : Field)
  | fails (reason : Nat)
  | park (va : Nat)
  | service (va level entry : Nat)
  deriving DecidableEq, Repr

/-- Coordinates of a site of the part. -/
def siteCoords (d : BitVec 1024) (li : Nat) : List Nat :=
  [li % fieldX d, li / fieldX d % fieldY d, li / (fieldX d * fieldY d)]

/-- Where a neighbour lies along one axis: within the part, beyond it in the whole lattice, or nowhere. -/
inductive AxisRes where
  | inside (n : Nat)
  | out (raw : Int)
  | absent
  deriving DecidableEq, Repr

/-- One coordinate of a neighbour: the part has `ext` sites from `off` of `whole` (R267, R281). -/
def axisStep (ext off whole : Nat) (per : Bool) (c : Nat) (delta : Int) : AxisRes :=
  let raw : Int := c + delta
  if 0 ≤ raw ∧ raw < ext then .inside raw.toNat
  else
    let g : Int := raw + off
    if 0 ≤ g ∧ g < whole then .out raw
    else if per then
      let w : Int := g % (whole : Int) - off
      if 0 ≤ w ∧ w < ext then .inside w.toNat else .out raw
    else .absent

/-- A neighbour of a site. -/
inductive NbrRes where
  | site (li : Nat)
  /-- In the layer beyond a face: the face, and the place within the layer. -/
  | halo (face idx : Nat)
  | absent
  deriving DecidableEq, Repr

/-- The coordinate of a step. -/
def AxisRes.raw : AxisRes → Int
  | .inside n => n
  | .out r => r
  | .absent => 0

/-- The place within the layer beyond a face of axis `a`: the other two axes, from one before the part to one after. -/
def layerIndex (ext : List Nat) (r : List AxisRes) (a : Nat) : Nat :=
  let rest := [0, 1, 2].filter (· != a)
  let b := rest.headD 0
  let c := rest.getD 1 0
  let at_ (k : Nat) : Nat := ((r.getD k .absent).raw + 1).toNat
  at_ b + (ext.getD b 1 + 2) * at_ c

/-- The neighbour of a site in a direction. -/
def neighbour (d : BitVec 1024) (link : Option FieldLink) (li : Nat) (dir : List Int) : NbrRes :=
  let ext := fieldExt d
  let c := siteCoords d li
  let step (a : Nat) : AxisRes :=
    let e := ext.getD a 1
    let off := (link.map (fun l => l.offset.getD a 0)).getD 0
    let whole := (link.map (fun l => l.ext.getD a e)).getD e
    axisStep e off whole ((fieldPer d).testBit a) (c.getD a 0) (dir.getD a 0)
  let r := [step 0, step 1, step 2]
  if r.contains .absent then .absent
  else
    match [2, 1, 0].find? (fun a => match r.getD a .absent with | .out _ => true | _ => false) with
    | some a => .halo (2 * a + (if (r.getD a .absent).raw < 0 then 0 else 1)) (layerIndex ext r a)
    | none => .site ((step 0).raw.toNat + fieldX d * ((step 1).raw.toNat + fieldY d * (step 2).raw.toNat))

/-- The global coordinates of a site (R281). -/
def globalCoords (d : BitVec 1024) (link : Option FieldLink) (li : Nat) : List Nat :=
  let c := siteCoords d li
  let at_ (a : Nat) : Nat := c.getD a 0 + (link.map (fun l => l.offset.getD a 0)).getD 0
  [at_ 0, at_ 1, at_ 2]

/-- The global extents. -/
def globalExt (d : BitVec 1024) (link : Option FieldLink) : List Nat :=
  let e := fieldExt d
  let at_ (a : Nat) : Nat := (link.map (fun l => l.ext.getD a (e.getD a 1))).getD (e.getD a 1)
  [at_ 0, at_ 1, at_ 2]

/-- The global site index i, and N (R263, R281). -/
def globalIndex (d : BitVec 1024) (link : Option FieldLink) (li : Nat) : Nat :=
  let c := globalCoords d link li
  let e := globalExt d link
  c.getD 0 0 + e.getD 0 1 * (c.getD 1 0 + e.getD 1 1 * c.getD 2 0)

/-- N. -/
def globalSites (d : BitVec 1024) (link : Option FieldLink) : Nat :=
  let e := globalExt d link
  e.getD 0 1 * e.getD 1 1 * e.getD 2 1

/-- The colour of a site (R268); none where the map cannot be read. -/
def State.siteColour (s : State) (d : BitVec 1024) (link : Option FieldLink) (cmap : Option FieldTable) (li : Nat) :
    Option Nat :=
  let c := globalCoords d link li
  if fieldColour d = 0 then some ((c.getD 0 0 + c.getD 1 0 + c.getD 2 0) % 2)
  else if fieldColour d = 1 then some (c.getD 0 0 % 2 + 2 * (c.getD 1 0 % 2))
  else
    match cmap with
    | none => none
    | some t =>
      let i := globalIndex d link li
      (s.tableByte t.ref (i / 2)).map (fun b => if i % 2 = 0 then b % 16 else b / 16)

/-- Is the colour map not proper: a colour of NC or above, or neighbours of one colour (R268). -/
def State.mapImproper (s : State) (d : BitVec 1024) (t : FieldTable) : Bool :=
  let col (li : Nat) : Option Nat := s.siteColour d none (some t) li
  (List.range (fieldSites d)).any (fun li =>
    match col li with
    | none => true
    | some c => fieldColours d ≤ c || (fieldDirs d).any (fun dir => match neighbour d none li dir with
        | .site k => col k == some c
        | _ => false))

/-- The lowest free field number of an island. -/
def State.freeField (s : State) (isl : Nat) : Option Nat :=
  (List.range' 1 16).find? (fun n => (s.field? isl n).isNone)

/-- The checks from reason 6 on, and the field that they define. -/
def fdefLast (s : State) (i : Island) (v : View) (d : BitVec 1024) (p : FieldPlace) (cpl : FieldTable)
    (bias ptab beta cmap : Option FieldTable) : FdefRes :=
  let r := fieldRoutine d
  if 8 ≤ r ∧ !(i.handlers.any (fun h => h.entry == r)) then .fails 6
  else if (cmap.map (fun t => s.mapImproper d t)).getD false then .fails 2
  else
    match s.freeField i.num with
    | none => .fails 8
    | some n => .ok ⟨n, i.num, d, v, p.groups, p.slab, p.twin, p.rows, cpl, bias, ptab, beta, cmap, .stopped, 0, fieldStart d,
        false, 0, [], [], [], [], none, [], none, none, [], []⟩

/-- The checks of the tables: what holds FDEF, reason 7, reason 5. -/
def fdefTables (s : State) (i : Island) (v : View) (htab : Nat) (d : BitVec 1024) (p : FieldPlace) : FdefRes :=
  let t := fieldTables s v htab d
  match t.all.find? (fun r => r.holds || r.isSeven) with
  | some (.park va) => .park va
  | some (.service va l e) => .service va l e
  | some _ => .fails 7
  | none =>
    match t.cpl.table? with
    | none => .fails 5
    | some cpl =>
      if t.all.any (fun r => r.table?.isNone) then .fails 5
      else
        let get (o : Option TabRes) : Option FieldTable := o.bind TabRes.table?
        if overFrozen s (t.all.filterMap TabRes.table?) then .fails 5
        else
          match get t.beta, get t.ptab with
          | some b, some q =>
            if betaBeyond s b q then .fails 5
            else fdefLast s i v d p cpl (get t.bias) (some q) (some b) (get t.cmap)
          | b, q => fdefLast s i v d p cpl (get t.bias) q b (get t.cmap)

/-- The checks of STATE and TWIN: reasons 7, 3 and 4, in that order. -/
def fdefPlace (s : State) (i : Island) (v : View) (htab : Nat) (d : BitVec 1024) (sg tg : Seg) (so tof : Nat) : FdefRes :=
  let need := rightR ||| rightW ||| rightE
  if sg.rights &&& need != need || tg.rights &&& need != need then .fails 7
  else
    match fieldPages s v i (placePages d sg sg so so ++ placePages d sg tg so tof) with
    | .park va => .park va
    | .service va l e => .service va l e
    | .fault _ _ => .fails 7
    | .ok _ =>
      match fieldPlace i d sg tg so tof with
      | none => .fails 3
      | some p =>
        if fieldMisplaced s p sg tg then .fails 3
        else if (rowGranules (p.starts p.slab ++ p.starts p.twin) p.rows).any (fun gr =>
            (List.range 16).any (fun j => s.isFrozen (65536 * gr + 4096 * j))) then .fails 4
        else fdefTables s i v htab d p

/-- The checks of FDEF, in the order of R208. -/
def fdefCheck (s : State) (i : Island) (v : View) (htab : Nat) (d : BitVec 1024) : FdefRes :=
  if fieldReserved d then .fails 1
  else if fieldImproper d then .fails 2
  else
    match followHandle s v htab (descWord d 0), followHandle s v htab (descWord d 64) with
    | .park va, _ => .park va
    | .service va l e, _ => .service va l e
    | .segRight, _ | .addrForm _, _ => .fails 7
    | .ok _, .park va => .park va
    | .ok _, .service va l e => .service va l e
    | .ok _, .segRight | .ok _, .addrForm _ => .fails 7
    | .ok sg, .ok tg => fdefPlace s i v htab d sg tg (handleOff (descWord d 0)) (handleOff (descWord d 64))

/-- A frame's ownership entry set. -/
def State.setFrame (s : State) (f : Frame) : State :=
  { s with frames := f :: s.frames.filter (fun k => k.frame != f.frame) }

/-- The tables that a field holds a freeze on. -/
def Field.tables (f : Field) : List FieldTable :=
  f.cpl :: (f.bias.toList ++ f.ptab.toList ++ f.beta.toList ++ f.cmap.toList ++ f.pendingCpl.toList ++ f.replaced ++
    f.oldCpl.toList)

/-- The frames of pieces. -/
def frameNums (l : List Nat) : List Nat := l.map (fun gr => gr / 16)

/-- The frames that a defined field pins (R265). -/
def Field.frames (f : Field) : List Nat :=
  rowGranules (f.groups.map (fun e => e * 2 ^ 26 + f.slab)) f.rows ++
    rowGranules (f.groups.map (fun e => e * 2 ^ 26 + f.twin)) f.rows ++ f.tables.flatMap (fun t => frameNums t.grans)

/-- PIN of frames follows the fields that hold them. -/
def State.pinFrames (s : State) (l : List Nat) : State :=
  l.foldl (fun u fr => u.setFrame { u.frame fr with pin := u.fields.any (fun f => f.frames.contains fr) }) s

/-- A field is defined: its freezes, its pages pinned, and its place in the list. -/
def State.define (s : State) (f : Field) : State :=
  let s1 := s.freezeAll (f.tables.flatMap (·.grans))
  State.pinFrames { s1 with fields := s1.fields ++ [f] } f.frames

/-- FDEF (R208). -/
def execFdef (_u : Bool) (d a : BitVec 6) (sg : BitVec 3) (s : State) : Out :=
  .next (s.withDescriptor a sg fun s x =>
    match s.island? s.thr.view.island with
    | none => s.finishG d (wordOf (7 * 2 ^ 16))
    | some i =>
      match fdefCheck s i s.thr.view s.thr.htab (BitVec.ofNat 1024 x) with
      | .ok f => (s.define f).finishG d (wordOf f.num)
      | .fails r => s.finishG d (wordOf (r * 2 ^ 16))
      | .park va => s.parkPage va
      | .service va l e => (s.serviceFault s.thr.view 0 va l e).parkPage va)

/-! ## Freezes that end (R202, R208, R212) -/

/-- A field's freezes are removed as by THAW without a barrier. -/
def State.unfreeze (s : State) (island : Nat) (grs : List Nat) : State :=
  if grs.isEmpty then s
  else
    let s1 := s.thawAll grs
    let zeros := (grs.filter (fun gr => s1.freezeCount gr == 0)).foldl setAdd []
    { s1 with thaws := s1.thaws ++ [⟨s1.nextId, island, grs, none, zeros, 0, none, none⟩], nextId := s1.nextId + 1 }

/-! ## Sweeps -/

/-- A sweep begins, and with it a coupling swap: the tables that the new one replaced lose their freezes, and the old
one keeps its freeze until the sweep ends (R212, R278). A field that FSTOP met between two sweeps runs the next one, at whose
end it stops (Table 8.9). -/
def State.startSweep (s : State) (f : Field) : State :=
  if (f.st ≠ .running ∧ f.st ≠ .stopping) ∨ f.begun ∨ f.due ≠ [] then s.setField f
  else
    match f.pendingCpl with
    | none => s.setField { f with begun := true }
    | some t =>
      let s1 := s.setField { f with begun := true, cpl := t, pendingCpl := none, replaced := [], oldCpl := some f.cpl }
      let grs := f.replaced.flatMap (·.grans)
      (s1.unfreeze f.island grs).pinFrames (frameNums grs)

/-- The dirty copies of a range are written back, and every copy in a cache goes (R209). -/
def State.purgeRange (s : State) (lo n : Nat) : State :=
  let hits (l : Nat) : Bool := lo < 128 * l + 128 && 128 * l < lo + n
  let one (u : State) (c : CoreSt) : State :=
    let u1 := u.drainWcb c.id (fun e => hits e.line)
    ((u1.core c.id).l1.filter (fun l => hits l.line)).foldl (fun w l => w.evictLine c.id l.line) u1
  let s1 := s.cores.foldl one s
  { s1 with homeDirty := setClear s1.homeDirty (lo / 128) ((n + 127) / 128), replicas := s1.replicas.filter (fun r => !hits r.2) }

/-- The field that an instruction names by g[a], or SEGRIGHT (Table 8.7). -/
def State.withField (s : State) (a : BitVec 6) (k : State → Field → State) : State :=
  let n := (s.rg a).toNat % 65536
  match s.field? s.thr.view.island n with
  | none => s.trap .segRight (wordOf n) 0
  | some f => k s f

/-- FRUN (R209, Table 8.9). -/
def execFrun (_u : Bool) (a : BitVec 6) (s : State) : Out :=
  .next (s.withField a fun s f =>
    s.deviceGate fun s =>
      let s1 := s.releaseEager s.thr.view s.thr.key .dev
      let s2 := match f.st with
        | .stopped =>
          State.startSweep (f.groups.foldl (fun u e => State.purgeRange u (e * 2 ^ 26 + f.slab) (1024 * f.rows)) s1) { f with st := .running }
        | .stopping => s1.setField { f with st := .running }
        | .running | .limit | .faulted => s1
      s2.finish)

/-- The routine of a field is its no longer: it still runs to completion, as a handler does (R192), for field 0, which
none is. -/
def Thread.leaveField (t : Thread) (isl num : Nat) : Thread :=
  match t.role with
  | .field i n li => if i = isl ∧ n = num then { t with role := .field i 0 li } else t
  | .crew | .call _ => t

/-- The updates that are under way as a field faults, or is undefined, are its no longer. DESIGN CHOICE (log 116): the sites
keep their values, since R209 and R276 keep the updates of earlier phases alone and say nothing of these. -/
def State.dropUpdates (s : State) (f : Field) : State := s.mapThreads (fun t => t.leaveField f.island f.num)

/-- The arrivals that are due are made (R211, R277). -/
def State.arriveDue (s : State) (f : Field) : State := f.due.foldl (fun u d => u.arrive ⟨d.2.2, some d.1, d.2.1, false, 3, none⟩) s

/-- A field is undefined: its freezes and its number are released (Table 8.9). The copies that FSNAP has made arrive. -/
def State.undefine (s : State) (f : Field) : State :=
  let s1 : State := { s with fields := s.fields.filter (fun k => !(k.island == f.island && k.num == f.num)) }
  (((s1.unfreeze f.island (f.tables.flatMap (·.grans))).pinFrames f.frames).dropUpdates f).arriveDue f

/-- FSTOP (Table 8.9). -/
def execFstop (_u : Bool) (a : BitVec 6) (s : State) : Out :=
  .next (s.withField a fun s f =>
    State.finish (match f.st with
      | .running => s.setField { f with st := .stopping }
      | .stopping => s
      | .stopped | .limit | .faulted => s.undefine f))

/-! ## Snapshots (R211, R277) -/

/-- Does an uncorrectable error, or its failure, keep an engine from its rows (R279). -/
def State.engineBad (s : State) (f : Field) (e : Nat) : Bool :=
  s.deadEngines.contains e || s.poisoned (e * 2 ^ 26 + f.slab) (1024 * f.rows) || s.poisoned (e * 2 ^ 26 + f.twin) (1024 * f.rows)

/-- One row is copied on the in-subarray path, with its full/empty bits. -/
def State.copyRow (s : State) (x y : Loc) : State :=
  let s1 := (linesOf x 1024).foldl State.stopeLine s
  let s2 := (linesOf y 1024).foldl State.stopeLine s1
  (s2.poke y 1024 (s2.peek x 1024)).rowFull y (some x)

/-- The slab of one engine is copied to its twin. -/
def State.copySlab (s : State) (f : Field) (e : Nat) : State :=
  (List.range f.rows).foldl (fun u i => u.copyRow (e * 2 ^ 26 + f.slab + 1024 * i) (e * 2 ^ 26 + f.twin + 1024 * i)) s

/-- STATE is copied to TWIN by every engine that can. -/
def State.copyField (s : State) (f : Field) : State :=
  (f.groups.filter (fun e => !s.engineBad f e)).foldl (fun u e => u.copySlab f e) s

/-- The number of the sweep before NEXT. -/
def lastSweep (n : Nat) : Nat := (n + 2 ^ 32 - 1) % 2 ^ 32

/-- A field enters state 5: its pending FSNAPs arrive with FAULT = 1 (R209). -/
def State.faultField (s : State) (f : Field) (reason : Nat) : State :=
  let g := { f with st := .faulted, reason := reason, owed := [], snaps := [], due := f.due ++ f.snaps.map (fun r => (f.next, true, r)) }
  (s.setField g).dropUpdates f

/-- Does the copy of a snapshot meet an engine that has failed (R279). -/
def State.copyFails (s : State) (f : Field) : Bool := f.groups.any (s.engineBad f)

/-- The copy of a field at rest, made at once for the barrier `r`; one that meets a failed engine makes the field faulted
(R211, R279). -/
def State.snapNow (s : State) (f : Field) (r : Ref) : State :=
  if s.copyFails f then (s.copyField f).faultField { f with due := f.due ++ [(f.next, true, r)] } 2
  else (s.copyField f).setField { f with due := f.due ++ [(lastSweep f.next, false, r)] }

/-- Does the stop of a stack make an engine of the field wait (R357). -/
def State.fieldStopped (s : State) (f : Field) : Bool := f.groups.any (fun e => s.stackStopped (stackOf (clusterOver (e * 2 ^ 26))))

/-- FSNAP (R211). A copy that would be made at once waits while an engine of the field is stopped (R357). -/
def execFsnap (_u : Bool) (a b : BitVec 6) (s : State) : Out :=
  let bx := s.rg b
  .next (s.withField a fun s f =>
    s.withPlace bx fun bar bo =>
    s.unless (barrierCheck s bar bx) fun s =>
      let r : Ref := ⟨bar, bo, s.thr.view⟩
      if s.fieldStopped f && f.st != .running && f.st != .stopping then s.stall
      else State.finish (match f.st with
        | .running | .stopping => s.setField { f with snaps := f.snaps ++ [r] }
        | .stopped | .limit => s.snapNow f r
        | .faulted => (s.copyField f).setField { f with due := f.due ++ [(f.next, true, r)] }))

/-- SNAPSHOT_ARRIVAL (R277): the copies are finished, and every arrival that is due is made. -/
def execSnapshotArrival (island num : Nat) (s : State) : Out :=
  .next (match s.field? island num with
    | none => s
    | some f => if s.fieldStopped f then s else (s.startSweep { f with due := [] }).arriveDue f)

/-! ## Coupling tables (R212) -/

/-- FCPL (R212): the thread parks until the field has checked the new table. -/
def execFcpl (_u : Bool) (a b : BitVec 6) (s : State) : Out :=
  let x := s.rg b
  .next (s.resumed fun s =>
    s.withField a fun s f =>
    s.withPlace x fun g off =>
    s.unless (firstTrap [rightCheck g (handleNum x) off (rightR ||| rightE) true, boundCheck g (handleNum x) off 16,
        formRange s s.thr.view g off 16]) fun s =>
      s.engineWork (.fcpl f.num ⟨g, off, s.thr.view⟩ (handleNum x)))

/-- The check of FCPL has ended in a trap at its unit. -/
def State.failEngJob (s : State) (j : EngineJob) (c : Cause) (i0 i1 : Word) : State :=
  State.wakeTrap { s with engJobs := s.engJobs.filter (fun k => k.id != j.id) } j.key c i0 i1

/-- A new table is accepted: it is frozen once more and waits for the next sweep. -/
def State.acceptTable (s : State) (f : Field) (t : FieldTable) : State :=
  let f1 := { f with pendingCpl := some t, replaced := f.replaced ++ f.pendingCpl.toList }
  ((s.freezeAll t.grans).setField f1).pinFrames (frameNums t.grans)

/-- COUPLING_CHECK (R212). -/
def execCouplingCheck (id : Nat) (s : State) : Out :=
  .next (match s.engJob? id with
    | none => s
    | some j =>
      match j.work with
      | .fcpl num r idx =>
        match s.field? j.island num with
        | none => s.failEngJob j .segRight (wordOf num) 0
        | some f =>
          if s.fieldStopped f then s
          else
          match (if r.seg.isDram then sizedTable s r 16 (cplSize f.desc (globalSites f.desc f.link)) else .thawed r.off) with
          | .ok t => (s.acceptTable f t).endEngJob j
          | .park _ => s
          | .service va l e => s.serviceFault r.view 3 va l e
          | .seven c va => s.failEngJob j c (wordOf va) (((s.thread? j.key).map (fun t => t.pc.zeroExtend 64)).getD 0)
          | .small o => s.failEngJob j .segBound (wordOf o) (wordOf idx)
          | .thawed o => s.failEngJob j .segRight (wordOf o) (wordOf idx)
          | .full o => s.failEngJob j .freezeFull (wordOf o) 0
      | _ => s)

/-! ## FSTAT (R209) -/

/-- The code of a field state (Table 8.9). -/
def FieldState.code : FieldState → Nat
  | .stopped => 1 | .running => 2 | .stopping => 3 | .limit => 4 | .faulted => 5

/-- What FSTAT reads of a field. -/
def Field.status (f : Field) : Nat :=
  f.next % 2 ^ 32 + f.st.code * 2 ^ 32 + f.reason * 2 ^ 40 + (if f.snaps.isEmpty && f.due.isEmpty then 0 else 2 ^ 48)

/-- FSTAT. -/
def execFstat (_u : Bool) (d a : BitVec 6) (s : State) : Out :=
  .next (s.finishG d (match s.field? s.thr.view.island ((s.rg a).toNat % 65536) with
    | none => 0
    | some f => wordOf f.status))

/-! ## Phases (R269) -/

/-- Where site `li` lies: byte and bit (R263). -/
def Field.sitePlace (f : Field) (li : Nat) : Loc × Nat :=
  let d := f.desc
  let t := fieldThick d f.groups.length
  let j := li / fieldLayer d / t
  let bit := (li - j * t * fieldLayer d) * fieldWidth d
  (f.groups.getD j 0 * 2 ^ 26 + f.slab + bit / 8, bit % 8)

/-- The value of a site; none where its word is poisoned. -/
def State.siteValue (s : State) (f : Field) (li : Nat) : Option Nat :=
  let p := f.sitePlace li
  if s.poisoned p.1 1 then none else some (s.peek p.1 1 / 2 ^ p.2 % 2 ^ fieldWidth f.desc)

/-- The value of a site, written. -/
def State.writeSite (s : State) (f : Field) (li v : Nat) : State :=
  let p := f.sitePlace li
  let w := fieldWidth f.desc
  let old := s.peek p.1 1
  let kept := old - old / 2 ^ p.2 % 2 ^ w * 2 ^ p.2
  s.poke p.1 1 (kept + v % 2 ^ w * 2 ^ p.2)

/-- The sites of bank group number `j`, ascending (R263). -/
def Field.sitesOf (f : Field) (j : Nat) : List Nat :=
  let d := f.desc
  let n := fieldThick d f.groups.length * fieldLayer d
  List.range' (j * n) (min ((j + 1) * n) (fieldSites d) - j * n)

/-- By how many sweeps a layer is older than sweep `next`; one from ahead is not older. -/
def sweepAge (next sweep : Nat) : Nat :=
  let d := (next + 2 ^ 32 - sweep) % 2 ^ 32
  if d < 2 ^ 31 then d else 0

/-- Is one layer of a face at least as recent as another. -/
def Halo.notOlder (h k : Halo) : Bool := if h.sweep = k.sweep then k.phase ≤ h.phase else sweepAge h.sweep k.sweep != 0

/-- The halo layer that a phase reads at a face (R281): in lockstep the one from the start of the phase, else the most
recent that has arrived, unless it is older than the bound. -/
def Field.halo? (f : Field) (l : FieldLink) (face : Nat) : Option Halo :=
  if l.lockstep then f.halos.find? (fun h => h.face == face && h.sweep == f.next && h.phase == f.phase)
  else f.halos.find? (fun h => h.face == face && sweepAge f.next h.sweep ≤ l.bound)

/-- The faces beyond which the part has a far neighbour. -/
def FieldLink.linked (l : FieldLink) : List Nat := (List.range 6).filter (fun k => (l.faces.getD k none).isSome)

/-- In lockstep a phase barrier spans all parts (R281): the layers of the next phase tell that the neighbours have reached
it (DEDUCED, log 101: the layer of a phase's start is the neighbour's arrival at the barrier before it). -/
def Field.partsArrived (f : Field) (sweep phase : Nat) : Bool :=
  match f.link with
  | none => true
  | some l => !l.lockstep || l.linked.all (fun k => f.halos.any (fun h => h.face == k && h.sweep == sweep && h.phase == phase))

/-- A neighbour's value as a phase reads it. -/
inductive ValRes where
  | val (v : Nat)
  | absent
  /-- The far layer has not arrived. -/
  | wait
  | bad
  deriving DecidableEq, Repr

/-- The value of the neighbour of a site in a direction. -/
def State.nbrValue (s : State) (f : Field) (li : Nat) (dir : List Int) : ValRes :=
  match neighbour f.desc f.link li dir with
  | .absent => .absent
  | .site k => match s.siteValue f k with
    | some v => .val v
    | none => .bad
  | .halo face idx =>
    match f.link.bind (fun l => f.halo? l face) with
    | none => .wait
    | some h => .val (h.vals.getD idx 0 % 2 ^ fieldWidth f.desc)

/-- The values of a site's neighbours, by direction. -/
def State.nbrValues (s : State) (f : Field) (li : Nat) : List ValRes := (fieldDirs f.desc).map (s.nbrValue f li)

/-- The weight of a site in direction `k`, as a byte (R271). -/
def State.weight (s : State) (f : Field) (i k : Nat) : Option Nat :=
  (s.tableByte f.cpl.ref 0).bind (fun kind =>
    s.tableByte f.cpl.ref (16 + (if kind = 1 then fieldD f.desc * i else 0) + k))

/-- The bias of a site, as a byte; 0 without BIAS. -/
def State.siteBias (s : State) (f : Field) (i : Nat) : Option Nat :=
  match f.bias with
  | none => some 0
  | some t => s.tableByte t.ref i

/-- The β entry of the running sweep; 0 without BETA (R273). -/
def State.betaEntry (s : State) (f : Field) : Option Nat :=
  match f.beta with
  | none => some 0
  | some t => (s.tableNum t.ref 0 4).bind (fun nb =>
      s.tableNum t.ref (8 + 4 * min ((f.next + 2 ^ 32 - fieldStart f.desc) % 2 ^ 32) (nb - 1)) 4)

/-- The draw of a site in the running sweep (R270). -/
def Field.draw (f : Field) (i : Nat) : BitVec 32 :=
  lode32 (BitVec.ofNat 32 (f.next * globalSites f.desc f.link + i)) (fieldKey f.desc)

/-- A threshold of the probability table (R272). -/
def State.threshold (s : State) (f : Field) (n : Nat) : Option Nat :=
  match f.ptab with
  | none => none
  | some t => (s.tableNum t.ref (16 + 4 * n) 4).map (fun x => min (x % 2 ^ 25) 0x100_0000)

/-- The sum of bias and weighted neighbours (R274). -/
def State.siteSum (s : State) (f : Field) (i : Nat) : List ValRes → Nat → Option Int
  | [], _ => (s.siteBias f i).map (signedOf 8)
  | v :: vs, k =>
    match v, s.siteSum f i vs (k + 1) with
    | .val x, some acc => (s.weight f i k).map (fun w => acc + signedOf 8 w * (x : Int))
    | .absent, some acc => some acc
    | _, _ => none

/-- How many of the first `e` thresholds from `n` the draw passes. -/
def State.passes (s : State) (f : Field) (q n : Nat) : Nat → Option Nat
  | 0 => some 0
  | e + 1 =>
    match s.passes f q n e, s.threshold f (n + e) with
    | some c, some t => some (if q < t then c + 1 else c)
    | _, _ => none

/-- The table routine's new value of a site whose value is `v` (R274); none where something cannot be read. -/
def State.tableValue (s : State) (f : Field) (li v : Nat) : Option Nat :=
  let i := globalIndex f.desc f.link li
  let q := (f.draw i >>> 8).toNat
  match s.siteSum f i (s.nbrValues f li) 0, f.ptab.bind (fun t => s.tableNum t.ref 0 16), s.betaEntry f with
  | some sum, some h, some b =>
    let nent := ptabNent h
    let k := (max 0 (min (sum - ptabSmin h) (nent - 1))).toNat
    let row := b % 65536
    if fieldMode f.desc = 0 then
      let e := 2 ^ fieldWidth f.desc - 1
      s.passes f q ((row * nent + k) * e) e
    else (s.threshold f ((row * 2 + v) * nent + k)).map (fun t => if q < t then v ^^^ 1 else v)
  | _, _, _ => none

/-- The sites of a list are updated in order; false where one could not be. -/
def State.updateSites (s : State) (f : Field) : List Nat → State × Bool
  | [] => (s, true)
  | li :: ls =>
    match (s.siteValue f li).bind (s.tableValue f li) with
    | some v => (s.writeSite f li v).updateSites f ls
    | none => (s, false)

/-- The sites of engine `j` of the running phase's colour; none where the map cannot be read. -/
def State.phaseSites (s : State) (f : Field) (j : Nat) : Option (List Nat) :=
  let col (li : Nat) : Option Nat := s.siteColour f.desc f.link f.cmap li
  let l := f.sitesOf j
  if l.any (fun li => (col li).isNone) then none else some (l.filter (fun li => col li == some f.phase))

/-- The pages of a table. -/
def FieldTable.pages (t : FieldTable) : List Nat :=
  (List.range' ((t.ref.seg.base.toNat + t.ref.off) / 65536) (t.grans.length / 16)).map (65536 * ·)

/-- What holds the walk of a page of a table back: a parking condition stalls the engine until it is served, with the
service fault of a table frame that is not owned (R292, R299). -/
def State.tableWait (s : State) (r : Ref) (va : Nat) : Option State :=
  match s.locate r.view r.seg (va - r.seg.base.toNat) needR false with
  | .park => some s
  | .service l e => some (s.serviceFault r.view 3 va l e)
  | _ => none

/-- A phase could not be carried on: while a page of a table is held back its engine stalls, and else the field faults with
reason 2. -/
def State.phaseFails (s : State) (f : Field) : State :=
  match f.tables.findSome? (fun t => t.pages.findSome? (s.tableWait t.ref)) with
  | some u => u
  | none => s.faultField f 2

/-- Does a site wait for a far layer. -/
def State.siteWaits (s : State) (f : Field) (li : Nat) : Bool := (s.nbrValues f li).contains .wait

/-! ## Handler routines (R275, R276) -/

/-- The registers g1 to g11 at the start of an update (Table 12.4); none where something cannot be read. -/
def State.updateArgs (s : State) (f : Field) (li : Nat) : Option (List Word) :=
  let d := f.desc
  let i := globalIndex d f.link li
  let p := f.sitePlace li
  let nb := s.nbrValues f li
  let ks := List.range nb.length
  let val (k : Nat) : Nat := match nb.getD k .absent with
    | .val v => v
    | _ => 0
  let present (k : Nat) : Nat := match nb.getD k .absent with
    | .val _ => 1
    | _ => 0
  let ws := ks.map (fun k => s.weight f i k)
  if nb.contains .bad ∨ ws.contains none then none
  else
    match s.siteValue f li, s.betaEntry f, s.siteBias f i with
    | some v, some b, some bias =>
      some [wordOf (p.1 % 2 ^ 26), wordOf (p.2 + fieldWidthCode d * 16), wordOf v,
        wordOf ((ks.map (fun k => val k * 256 ^ k)).sum),
        wordOf ((ks.map (fun k => present k * 2 ^ k)).sum + f.phase * 2 ^ 8 + fieldMode d * 2 ^ 12),
        (f.draw i).zeroExtend 64, wordOf i, wordOf f.next, wordOf b,
        wordOf ((ks.map (fun k => (ws.getD k none).getD 0 * 256 ^ k)).sum), BitVec.ofInt 64 (signedOf 8 bias)]
    | _, _, _ => none

/-- The engine begins the update of a site by the handler of its entry, in a free context. -/
def State.startUpdate (s : State) (f : Field) (e li : Nat) : State :=
  if s.siteWaits f li ∨ 4 ≤ s.busyContexts e then s
  else
    match (s.island? f.island).bind (fun i => i.handlers.find? (fun h => h.entry == fieldRoutine f.desc)) with
    | none => s.faultField f 1
    | some h =>
      match s.updateArgs f li with
      | none => s.phaseFails f
      | some args =>
        let t := newHandler (.handler s.nextId) (.field f.island f.num li) f.island e h.region h.off args
        { s with others := s.others ++ [t], nextId := s.nextId + 1 }

/-- A routine has ended: the site takes its value, or the field faults (R276). -/
def State.endUpdate (s : State) (k : ThreadKey) (island num li : Nat) (r : BitVec 8 × Nat × List Word) : State :=
  let s1 := s.removeThread k
  match s1.field? island num with
  | none => s1
  | some f =>
    let left (p : Nat × List Nat) : Nat × List Nat := (p.1, p.2.filter (fun n => n != li))
    let g := { f with owed := f.owed.map left }
    if r.1 ≠ 0 then s1.faultField g 1
    else
      match r.2.1, r.2.2 with
      | 0, _ | _, [] => s1.setField g
      | _, v :: _ => (s1.writeSite f li (v.toNat % 2 ^ fieldWidth f.desc)).setField g

/-- Is an update of the field under way at a site. -/
def State.updating (s : State) (f : Field) (li : Nat) : Bool :=
  s.threads.any (fun t => t.role == .field f.island f.num li && t.live)

/-- Engine `j` arrives at the phase barrier. -/
def Field.arrive (f : Field) (j : Nat) : Field := { f with arrived := f.arrived ++ [j], owed := f.owed.filter (fun p => p.1 != j) }

/-- A phase at engine `j` by a handler: the next site, or the arrival. -/
def State.handlerPhase (s : State) (f : Field) (j e : Nat) : State :=
  match f.owed.find? (fun p => p.1 == j) with
  | none =>
    match s.phaseSites f j with
    | none => s.phaseFails f
    | some l => s.setField { f with owed := (j, l) :: f.owed }
  | some (_, []) => s.setField (f.arrive j)
  | some (_, li :: _) => if s.updating f li then s else s.startUpdate f e li

/-- A phase at engine `j` by the table routine: every site of the colour, then the arrival. -/
def State.tablePhase (s : State) (f : Field) (j : Nat) : State :=
  match s.phaseSites f j with
  | none => s.phaseFails f
  | some l =>
    if l.any (s.siteWaits f) then s
    else
      match s.updateSites f l with
      | (s1, true) => s1.setField (f.arrive j)
      | (s1, false) =>
        match f.tables.findSome? (fun t => t.pages.findSome? (s.tableWait t.ref)) with
        | some u => u
        | none => s1.faultField f 2

/-- Is a sweep of the field under way. -/
def Field.sweeping (f : Field) : Bool := (f.st == .running || f.st == .stopping) && f.begun

/-- FIELD_PHASE (R269): the work of engine `j` in the phase. -/
def execFieldPhase (island num j : Nat) (s : State) : Out :=
  .next (match s.field? island num with
    | none => s
    | some f =>
      match f.groups[j]? with
      | none => s
      | some e =>
        if !f.sweeping || f.arrived.contains j || s.stackStopped (stackOf (clusterOver (e * 2 ^ 26))) then s
        else if s.engineBad f e then s.faultField f 2
        else if fieldRoutine f.desc = 0 then s.tablePhase f j
        else s.handlerPhase f j e)

/-- Have all engines arrived at the phase barrier. -/
def Field.allArrived (f : Field) : Bool := (List.range f.groups.length).all (fun j => f.arrived.contains j)

/-- FIELD_PHASE_BARRIER (R269): the next phase begins. -/
def execFieldPhaseBarrier (island num : Nat) (s : State) : Out :=
  .next (match s.field? island num with
    | none => s
    | some f =>
      if f.sweeping && f.allArrived && f.phase + 1 < fieldColours f.desc && f.partsArrived f.next (f.phase + 1) then
        s.setField { f with phase := f.phase + 1, arrived := [], owed := [] }
      else s)

/-- What the end of a sweep leaves of the field: NEXT, the state under Table 8.9, the snapshots that it serves. -/
def Field.afterSweep (f : Field) : Field :=
  let next := (f.next + 1) % 2 ^ 32
  let ran := (next + 2 ^ 32 - fieldStart f.desc) % 2 ^ 32
  { f with
    next := next
    begun := false
    phase := 0
    arrived := []
    owed := []
    snaps := []
    due := f.due ++ f.snaps.map (fun r => (f.next, false, r))
    oldCpl := none
    halos := f.halos.filter (fun h => !(f.link.map (·.lockstep)).getD false || h.sweep != f.next)
    st := if fieldLimit f.desc ≠ 0 ∧ ran = fieldLimit f.desc then .limit else if f.st = .stopping then .stopped else f.st }

/-- FIELD_SWEEP_END (R209, R277, R278). The copies of snapshots wait while an engine of the field is stopped (R357). DESIGN
CHOICE (log 125): where the copy meets a failed engine the sweep has ended all the same, so NEXT = m + 1, and the FSNAPs
arrive with FAULT and VALUE = m. -/
def execFieldSweepEnd (island num : Nat) (s : State) : Out :=
  .next (match s.field? island num with
    | none => s
    | some f =>
      if f.sweeping && f.allArrived && fieldColours f.desc ≤ f.phase + 1 && f.partsArrived ((f.next + 1) % 2 ^ 32) 0 &&
          (f.snaps.isEmpty || !s.fieldStopped f) then
        let bad := !f.snaps.isEmpty && s.copyFails f
        let s1 := if f.snaps.isEmpty then s else s.copyField f
        let g := f.afterSweep
        let old := (f.oldCpl.map (·.grans)).getD []
        let s2 := if bad then s1.faultField { g with due := f.due ++ f.snaps.map (fun r => (f.next, true, r)) } 2
          else s1.startSweep g
        (s2.unfreeze island old).pinFrames (frameNums old)
      else s)

/-! ## Links between modules (R281) -/

/-- The number of places in the layer beyond a face. -/
def haloSize (d : BitVec 1024) (face : Nat) : Nat :=
  let rest := [0, 1, 2].filter (· != face / 2)
  ((fieldExt d).getD (rest.headD 0) 1 + 2) * ((fieldExt d).getD (rest.getD 1 0) 1 + 2)

/-- A halo layer is there: kept for its phase in lockstep, else in place of the face's last unless that is the more
recent. -/
def Field.takeLayer (f : Field) (h : Halo) : Field :=
  let lock := (f.link.map (·.lockstep)).getD false
  let keep (k : Halo) : Bool := k.face != h.face || (lock && !(k.sweep == h.sweep && k.phase == h.phase))
  if !lock && f.halos.any (fun k => k.face == h.face && !h.notOlder k) then f
  else { f with halos := h :: f.halos.filter keep }

/-- Do two parts belong to one layer. -/
def HaloPart.same (p q : HaloPart) : Bool := p.face == q.face && p.sweep == q.sweep && p.phase == q.phase

/-- The value of a place of a layer, where one of its parts has brought it. -/
def partAt (l : List HaloPart) (i : Nat) : Option Nat :=
  l.findSome? (fun p => if p.first ≤ i then p.vals[i - p.first]? else none)

/-- A part of a halo layer arrives for a field, at most 4 KiB of values (R308); a layer of which every place has come is
taken. -/
def State.takeHalo (s : State) (island num : Nat) (p : HaloPart) : State :=
  match s.field? island num with
  | none => s
  | some f =>
    let n := haloSize f.desc p.face
    let mine := p :: f.parts.filter (fun q => q.same p)
    let rest := f.parts.filter (fun q => !q.same p)
    if 32768 < p.vals.length * fieldWidth f.desc then s
    else if p.first = 0 ∧ n ≤ p.vals.length then s.setField ({ f with parts := rest }.takeLayer ⟨p.face, p.sweep, p.phase, p.vals⟩)
    else if (List.range n).all (fun i => (partAt mine i).isSome) then
      s.setField ({ f with parts := rest }.takeLayer ⟨p.face, p.sweep, p.phase, (List.range n).map (fun i => (partAt mine i).getD 0)⟩)
    else s.setField { f with parts := p :: f.parts }

end Sys2Proof.Machine
end

