-- ==== Sys2Proof/Machine/Events.lean ====
section
/-! DEFINITION. What goes on by itself around the threads: results and faults that arrive (spec/01, R32, R35), wakes
(spec/11, R256), store-fault records and held stores (spec/13, R294, R297), walks, pages and frames (R286 to R292),
write-backs (spec/09), the repartition of the scratchpad ways (R229, R230), and failures (R188, R197, R300). -/

namespace Sys2Proof.Machine

open Sys2Proof

/-! ## Results and faults of long-latency instructions -/

/-- The far message that an entry waits for. -/
def State.farOf (s : State) (k : ThreadKey) (i : Nat) : Option FarMsg :=
  s.farOut.find? (fun m => m.key == k && m.entry == some i)

/-- The answer to a far access fills its entry, or both entries of a CAS2, low half first. That of a load is the value of
its bytes in order, and stays in the caches (R310). -/
def State.farAnswer (s : State) (k : ThreadKey) (i : Nat) (x : VWord) : State :=
  match s.farOf k i with
  | none => s
  | some m =>
    let s1 := { s with farOut := s.farOut.filter (fun m => !(m.key == k && m.entry == some i)) }
    let got (v : VWord) (e : Pend) : Pend := if e.wait = .far then { e with wait := .value, value := v, arrived := true } else e
    if m.parts.isEmpty then
      let s2 := s1.modThread k (fun t => t.modPend i (got x))
      if (s1.farOf k (i + 1)).isNone then s2.modThread k (fun t => t.modPend (i + 1) (got (x >>> 64))) else s2
    else
      match s1.farFill m.island m.fmod (partBytes m.parts) x.toNat with
      | (s2, v) => s2.modThread k (fun t => t.modPend i (got (loadConv m.sx v)))

/-- May the answer to a far access come: it is one that no earlier access of its thread holds at the port, any for an atomic
(R236), an acquire for a load (R239). -/
def State.farReady (s : State) (k : ThreadKey) (i : Nat) : Bool :=
  match s.farOf k i with
  | none => false
  | some m => if m.parts.isEmpty then !s.opensBelow k m.upTo else !s.acquireHolds k m.upTo

/-! ## Loads at the port (R126, R235, R239) -/

/-- May a load that the port holds go: no acquire of its thread before it is open, and nothing at the port stands before
it. -/
def State.loadReady (s : State) (h : HeldLoad) : Bool :=
  !s.acquireHolds h.key h.num && s.portFree (coreIndex h.view) (s.loadItem h)

/-- The outcome of a held load for its entry. -/
def HeldLoad.settle (h : HeldLoad) (r : LoadRes) (e : Pend) : Pend :=
  match r with
  | .value v => e.deliver (loadConv h.sx v)
  | .fault c va => e.fail c va
  | .park _ | .wait => e

/-- A held LDS finds its word empty: it joins the word's list, and a thread that waits for its result waits there (R125,
R126). -/
def State.listLds (s : State) (h : HeldLoad) (p : LoadPart) (consume : Bool) : State :=
  let w : WordWait := ⟨wordAt p.loc, h.key, .load consume (some h.entry) p.loc p.size p.va, h.seg.scratchOff (p.va - h.seg.base.toNat)⟩
  ({ s with waits := s.waits ++ [w] }.modThread h.key (fun t =>
    t.modPend h.entry (fun e => { e with wait := .listed }))).refreshPending h.key

/-- A held load is performed: a plain load reads its pieces, an LDS its word. One that lies beyond a shrunk stack scratchpad
meets SCRATCHBOUND (R230). -/
def State.loadPerform (s : State) (h : HeldLoad) : State :=
  let s0 := { s with loads := s.loads.erase h }
  let end_ (u : State) (r : LoadRes) : State := (u.modThread h.key (fun t => t.modPend h.entry (h.settle r))).refreshPending h.key
  match h.parts.find? (fun p => s.wayGone h.key p.loc p.va), h.lds, h.parts with
  | some p, _, _ => end_ s0 (.fault .scratchBound p.va)
  | none, some consume, p :: _ =>
    match s0.ldsAt h.view h.seg.space p.loc p.size consume with
    | (s1, .value v) => end_ s1 (.value v)
    | (s1, .poison) => end_ s1 (.fault .poison p.va)
    | (s1, .empty) => s1.listLds h p consume
  | none, _, ps =>
    match s0.readParts h.view false h.seg ps 0 with
    | (s1, r) => end_ s1 r

/-- A held load goes if it may, after what stands before it at the port. -/
def State.loadGo1 (s : State) (h : HeldLoad) : State :=
  let u := s.portOpen (coreIndex h.view) (s.loadItem h)
  if u.loads.contains h && u.loadReady h then u.loadPerform h else u

/-- The load of a pending entry is tried. -/
def State.loadTry (s : State) (k : ThreadKey) (i : Nat) : State :=
  match s.loads.find? (fun h => h.key == k && h.entry == i) with
  | none => s
  | some h => s.loadGo1 h

/-- The loads that a core's port holds go, as far as they may, in the order in which they came. -/
def State.loadsGo (s : State) (core : Nat) : State :=
  (s.loads.filter (fun h => coreIndex h.view == core)).foldl State.loadGo1 s

/-- RESULT_ARRIVAL (R32): the value of a pending entry arrives. An atomic, or a load that the port holds, is performed by
then, and the value of a far access is `far`. -/
def execResultArrival (k : ThreadKey) (i : Nat) (far : VWord) (s : State) : Out :=
  let mark (t : Thread) : Thread := t.modPend i (fun e => if e.wait = .value then { e with arrived := true } else e)
  .next (match (s.thread? k).bind (fun t => t.pending.find? (fun e => e.seq == i)) with
    | none => s
    | some e =>
      match e.wait with
      | .value => s.modThread k mark
      | .atomic => (s.performMsgs (fun m => m.key == k && m.entry == some i)).modThread k mark
      | .far => if s.farReady k i then s.farAnswer k i far else s
      | .port => s.loadTry k i
      | .listed | .fault _ _ _ | .park _ _ => s)

/-- The entries of one access become failed; CAS2 has two. -/
def Thread.failAccess (t : Thread) (e : Pend) (w : PendWait) : Thread :=
  { t with pending := t.pending.map (fun f => if f.access = e.access then { f with wait := w } else f) }

/-- What has failed of one access is known. -/
def Thread.knowAccess (t : Thread) (e : Pend) : Thread :=
  { t with pending := t.pending.map (fun f => if f.access = e.access then f.know else f) }

/-- A far access fails as OWNER (R310). -/
def State.farFailure (s : State) (k : ThreadKey) (e : Pend) : State :=
  let va := ((s.farOf k e.seq).map (·.va)).getD 0
  let s1 := { s with farOut := s.farOut.filter (fun m => !(m.key == k && m.entry == some e.seq)) }
  s1.modThread k (fun t => t.failAccess e (.fault .owner va true))

/-- LONG_LATENCY_FAULT (R35, R36): the fault, or the parking condition, of a pending entry becomes known, and is taken
before the thread's next unit. -/
def execLongLatencyFault (k : ThreadKey) (i : Nat) (s : State) : Out :=
  .next (match (s.thread? k).bind (fun t => t.pending.find? (fun e => e.seq == i)) with
    | none => s
    | some e =>
      match e.wait with
      | .fault _ _ _ | .park _ _ => s.modThread k (fun t => t.knowAccess e)
      | .far => if s.farReady k i then s.farFailure k e else s
      | .value | .atomic | .listed | .port => s)

/-- WAKE (R256). -/
def execWake (k : ThreadKey) (s : State) : Out :=
  .next (if s.wakes.contains k then (State.modThread { s with wakes := s.wakes.erase k } k Thread.wakeUp).saveWake k else s)

/-- DEBUG_RESUME (R89): the thread goes on at Xn; a Spilled one when it is back in its slot (R256). -/
def execDebugResume (k : ThreadKey) (s : State) : Out :=
  .next ((s.modThread k fun t => if t.wait = .debug then t.wakeUp else t).saveWake k)

/-- ILLEGAL_WORD (R52, R53): the word, and which half of a pair it is. -/
def execIllegalWord (w : BitVec 32) (half : Bool) (s : State) : Out :=
  .next (s.trap .illegal (w.zeroExtend 64) (if half then 1 else 0))

/-! ## Store-fault records and held stores -/

/-- STOREFAULT_RECORD (R297): record `i` reaches its core. -/
def execStorefaultRecord (i : Nat) (s : State) : Out :=
  .next (match s.faults[i]? with
    | none => s
    | some f => if f.stage = .flight then s.arriveFault f else s)

/-- STOREFAULT_QUEUE_ENTRY (R298). -/
def execStorefaultQueueEntry (core : Nat) (s : State) : Out := .next (s.enterQueue core)

/-- What an element of a held store finds now (Table 13.4). -/
def State.heldFinding (s : State) (h : HeldStore) : List (Nat × Nat) → StoreRes
  | [] => .ok
  | p :: ps => match s.findingOf (h.seg.base.toNat + p.1) (s.heldPlace h p.1) with
    | .ok => s.heldFinding h ps
    | r => r

/-- May a held store be tried: it is the oldest of its thread there, whose earlier loads are performed (R236) and whose older
stores have left the port, and nothing else stands before it (R235). -/
def State.heldReady (s : State) (h : HeldStore) : Bool :=
  let c := coreIndex h.view
  s.held.find? (fun g => g.key == h.key) == some h && !s.opensBelow h.key h.upTo &&
    !(s.core c).port.any (fun p => p.key == h.key && Nat.blt p.unit h.ord) && s.portFree c (s.heldItem h)

/-- The pieces of an element of a plain held store are performed. -/
def State.heldPieces (s : State) (h : HeldStore) : List (Nat × Nat) → Nat → State
  | [], _ => s
  | p :: ps, v =>
    let s1 := match s.heldPlace h p.1 with
      | .ok x =>
        s.performStore (coreIndex h.view) h.key (h.seg.base.toNat + p.1) x p.2 (v % 256 ^ p.2) h.seg.policy
          (h.sync || s.isDead h.key)
      | _ => s
    s1.heldPieces h ps (v / 256 ^ p.2)

/-- The elements of a plain held store are performed in order, one that faults withheld; `recorded` once the record has
been made, which names the lowest (R123). -/
def State.heldElems (s : State) (h : HeldStore) : List (Nat × Nat × Nat) → Bool → State
  | [], _ => s
  | e :: es, recorded =>
    match s.heldFinding h (h.seg.pieces e.1 e.2.1) with
    | .fault c =>
      let s1 := if recorded then s else s.lateFault (coreIndex h.view) h.key h.pc (h.seg.base.toNat + e.1) e.2.1 false c
      s1.heldElems h es true
    | _ => (s.heldPieces h (h.seg.pieces e.1 e.2.1) e.2.2).heldElems h es recorded

/-- A held operation that is not a plain store is performed at its place `x`. STS.PRODUCE and APND complete their thread's
unit, which waits for that. -/
def State.heldAct (s : State) (h : HeldStore) (x : Loc) (off n val : Nat) : State :=
  match h.op with
  | .plain => s
  | .memory op =>
    let s1 := if h.sync then (s.coverCore (coreIndex h.view) h.key).drainCovered (coreIndex h.view) else s
    let m : MemMsg := ⟨h.key, h.view, x, n, op, BitVec.ofNat 128 val, 0, none, h.seg.base.toNat + off, h.pc, h.upTo, h.ord⟩
    State.performMsg { s1 with msgs := s1.msgs ++ [m] } m
  | .sts true | .bit _ | .barrier _ _ => s.syncWrite h.view h.key h.seg h.op h.sync x n val
  | .sts false =>
    if s.isFull (wordAt x) then
      (s.releaseFor h.view h.key h.seg.space).joinWord h.key h.seg off x (.produce x n (wordOf val))
    else (s.syncWrite h.view h.key h.seg h.op h.sync x n val).wakeWith h.key 0
  | .append =>
    match (s.releaseFor h.view h.key h.seg.space).ringStep h.view off x with
    | (s1, slot) => s1.slotStep h.view h.key h.pc h.seg slot (wordOf val) s1.draw
  | .slot => s.slotStep h.view h.key h.pc h.seg off (wordOf val) h.ord

/-- A held operation that is not a plain store fails: its record is made, and a unit that waits for it completes (R297). -/
def State.heldFails (s : State) (h : HeldStore) (off n : Nat) (c : Cause) : State :=
  let red : Bool := match h.op with
    | .memory _ | .append | .slot => true
    | .plain | .sts _ | .bit _ | .barrier _ _ => false
  let s1 := s.lateFault (coreIndex h.view) h.key h.pc (h.seg.base.toNat + off) n red c
  match h.op with
  | .sts false | .append | .slot => s1.wakeWith h.key 0
  | .plain | .memory _ | .sts true | .bit _ | .barrier _ _ => s1

/-- A held store is performed, or makes its record. -/
def State.heldPerform (s : State) (h : HeldStore) : State :=
  match h.op, h.elems with
  | .plain, es => s.heldElems h es false
  | _, [] => s
  | _, e :: _ =>
    match s.heldFinding h [(e.1, e.2.1)], s.heldPlace h e.1 with
    | .ok, .ok x => s.heldAct h x e.1 e.2.1 e.2.2
    | .fault c, _ => s.heldFails h e.1 e.2.1 c
    | _, _ => s

/-- A thread parked for its held stores wakes when none of them is left that a parking condition holds. -/
def State.heldWake (s : State) (k : ThreadKey) : State :=
  if s.held.any (fun h => h.key == k && h.parked) then s
  else if ((s.thread? k).map (fun t => t.wait == .held)).getD false then s.wake k
  else s

/-- A held store is tried: while a parking condition stands it stays, and else it is performed (R294). -/
def State.heldTry (s : State) (h : HeldStore) : State :=
  let u := s.portOpen (coreIndex h.view) (s.heldItem h)
  if !u.heldReady h then u
  else
    match (h.elems.map (fun e => u.heldFinding h (h.seg.pieces e.1 e.2.1))).find? StoreRes.holds with
    | some r =>
      let park (g : HeldStore) : HeldStore := if g = h then { g with parked := true } else g
      let s1 := u.reported h.view 0 r
      { s1 with held := s1.held.map park }
    | none =>
      let s1 := (State.heldPerform { u with held := u.held.erase h } h).heldWake h.key
      match h.key with
      | .crew n _ _ => s1.shiftCheck n
      | .handler _ => s1

/-- HELD_STORE_PERFORM (R294): held store `i` is tried. -/
def execHeldStorePerform (i : Nat) (s : State) : Out :=
  .next (match s.held[i]? with
    | none => s
    | some h => s.heldTry h)

/-- What a core's port holds back, but for what a page does, goes on (R236). -/
def State.heldGo (s : State) (core : Nat) : State :=
  if s.held.isEmpty then s
  else (s.held.filter (fun h => !h.parked && coreIndex h.view == core)).foldl (fun u h =>
    if u.held.contains h then u.heldTry h else u) s

/-! ## Translation -/

/-- Do two cached translations of one table share an entry: they are one translation, or, in a last level, lie in one sector
of 512 aligned 64 KiB translations (R288). -/
def TlbEntry.shares (t e : TlbEntry) : Bool :=
  t.island == e.island && t.logSize == e.logSize &&
    (if t.cluster.isNone && t.logSize == 16 then t.page / 512 == e.page / 512 else t.page == e.page)

/-- The entries that the translations of one table take: those that share one count once. -/
def tlbEntries : List TlbEntry → Nat
  | [] => 0
  | t :: l => tlbEntries l + (if l.any (fun e => t.shares e) then 0 else 1)

/-- A cached translation is added; the oldest entry of a full table leaves, with all that it holds (R288). -/
def addTlb (l : List TlbEntry) (e : TlbEntry) (room : Nat) : List TlbEntry :=
  let same (t : TlbEntry) : Bool := t.cluster == e.cluster && t.stack == e.stack
  let rest := l.filter (fun t => !(same t && t.island == e.island && t.page == e.page && t.logSize == e.logSize))
  if (rest.filter same).any (fun t => t.shares e) || (rest.filter same).length < room || tlbEntries (rest.filter same) < room then
    rest ++ [e]
  else match rest.find? same with
    | none => rest ++ [e]
    | some o => rest.filter (fun t => !(same t && t.shares o)) ++ [e]

/-- Does a leaf permit some access, to a place that exists. -/
def permitted (i : Island) (va e lg : Nat) : Bool :=
  [needR, needW, needX].any (fun n => match useLeaf i va e lg n with
    | .ok _ => true
    | _ => false)

/-- TRANSLATION_WALK (R286, R288): a walk for a cluster of the island; a complete, permitted translation is cached in
its TLB of 512 entries and in its stack's last level of 16,384. -/
def execTranslationWalk (island cluster va : Nat) (s : State) : Out :=
  .next (match s.island? island with
    | none => s
    | some i =>
      if badAddress va || !(Shape.tiles i.shape).contains cluster then s
      else
        match walk s i va with
        | .leaf e lg =>
          if permitted i va e lg then
            let near : TlbEntry := ⟨some cluster, stackOf cluster, island, va / 2 ^ lg, lg, wordOf e⟩
            { s with tlb := addTlb (addTlb s.tlb near 512) { near with cluster := none } 16384 }
          else s
        | .service l e => s.serviceFault { i.view with cluster := cluster } 4 va l e
        | .park | .deny => s)

/-- The threads parked on a page wake, in the order of their parking. -/
def State.wakePages (s : State) (p : ThreadKey × Nat × Nat → Bool) : State :=
  (s.pageReqs.filter p).foldl (fun u r => u.wake r.1) { s with pageReqs := s.pageReqs.filter (fun r => !p r) }

/-- A page-table entry written by the resident service. -/
def State.putEntry (s : State) (e : Nat × Word) : State :=
  if isDram e.1 && e.1 % 8 == 0 then (s.stopeLine (lineAt e.1)).poke e.1 8 e.2.toNat else s

/-- PAGE_SERVED (R292): the resident service writes page-table entries, and the accesses parked on the page are tried
again. -/
def execPageServed (island va : Nat) (entries : List (Nat × Word)) (s : State) : Out :=
  let s1 := entries.foldl State.putEntry s
  let s2 := { s1 with svcFaults := s1.svcFaults.filter (fun f => !(f.island == island && f.va / 65536 == va / 65536)) }
  .next (s2.wakePages (fun r => r.2.1 == island && r.2.2 == va / 65536)).retryArrivals

/-- Does a walk of the page still meet a parking condition or a table frame that is not owned; so it does for a reader of a
strait, whose loads alone get so far (R291, R305). -/
def State.pageBlocked (s : State) (island va : Nat) : Bool :=
  let blocks (r : XRes) : Bool := match r with
    | .park | .service _ _ => true
    | .ok _ | .deny | .owner | .far | .beyond => false
  match s.island? island with
  | none => false
  | some i => blocks (s.resolveVa i (i.shaft 0) va needNone false) || blocks (s.resolveVa i (i.shaft 0) va needNone true)

/-- FRAME_OWNERSHIP_WRITE (R290, R291): a pinned frame stays as it is. A frame that has been scrubbed holds zeros
(R206). What was parked on the frame goes on. -/
def execFrameOwnershipWrite (frame owner st : Nat) (pin : Bool) (s : State) : Out :=
  let old := s.frame frame
  .next (
    if old.pin || 2 ^ 23 ≤ frame then s
    else
      let new : Frame := ⟨frame, owner % 65536, st % 4, pin⟩
      let s0 := s.setFrame new
      let s1 := if old.state = 1 && st % 4 == 0 then s0.wipe (65536 * frame) 65536 else s0
      let s2 := { s1 with svcFaults := s1.svcFaults.filter (fun f => s1.pageBlocked f.island f.va) }
      (s2.wakePages (fun r => s.pageBlocked r.2.1 (65536 * r.2.2) && !s2.pageBlocked r.2.1 (65536 * r.2.2))).retryArrivals)

/-! ## Operations at memory, buffers and caches -/

/-- STOPE_ATOMIC (R131): message `i`; an atomic of one core to one line does not pass an older one (R235). An operation that a
shift that ends still owed lets it complete. -/
def execStopeAtomic (i : Nat) (s : State) : Out :=
  .next (match s.msgs[i]? with
    | none => s
    | some m =>
      if (s.msgs.take i).any (fun n => s.msgBefore n m) then s
      else
        match m.key with
        | .crew n _ _ => if s.isDead m.key then (s.performMsg m).shiftCheck n else s.performMsg m
        | .handler _ => s.performMsg m)

/-- WCB_DRAIN (R220, R227): one aligned 8-byte granule of entry `i` of a core's write-combining buffer. -/
def execWcbDrain (core i : Nat) (s : State) : Out :=
  .next (match (s.core core).wcb[i]? with
    | none => s
    | some e => s.drainGranule core e)

/-- L1_WRITEBACK (R218): one line, evicted or drained. -/
def execL1Writeback (core line : Nat) (evict : Bool) (s : State) : Out :=
  .next (if evict then s.evictLine core line else s.writeBack core line)

/-! ## Repartition (R229, R230) -/

/-- The bytes and full/empty bits of ways `lo` to `lo + n − 1`, counted from way 15 down, in every slice of the island:
zeros, all full. -/
def State.clearWays (s : State) (i : Island) (lo n : Nat) : State :=
  (Shape.tiles i.shape).foldl (fun u cl =>
    (List.range n).foldl (fun w k => w.clearRange (wayLoc cl (15 - (lo + k)) 0) 262144) u) s

/-- A waiter at a word beyond the new size receives SCRATCHBOUND (Table 9.6): at its unit on wake, or as the fault of its
pending entry. -/
def State.dropWaiter (s : State) (w : WordWait) (z : Nat) : State :=
  let off := w.spadOff.getD 0
  let s1 := { s with waits := s.waits.erase w }
  match w.req with
  | .load _ (some i) .. => s1.grantEntry w i (fun e => { e with wait := .fault .scratchBound off true })
  | .load _ none .. | .produce _ _ _ | .append _ => s1.wakeTrap w.key .scratchBound (wordOf off) (wordOf z)

/-- The waiters of the island at words beyond the new size. -/
def State.dropWaiters (s : State) (i : Island) (z : Nat) : State :=
  let gone (w : WordWait) : Bool := match w.spadOff with
    | some o => z ≤ o && (s.viewOf w.key).island == i.num
    | none => false
  (s.waits.filter gone).foldl (fun u w => u.dropWaiter w z) s

/-- The threads that wait at barriers in the ways given up, `n` of them staying. -/
def State.dropBarriers (s : State) (i : Island) (n : Nat) : State :=
  let gone (t : Thread) : Bool := match t.wait with
    | .barrier x => t.view.island == i.num && isWay x && x / 2 ^ 18 % 16 < 16 - n
    | _ => false
  ((s.threads.filter gone).map (·.key)).foldl State.wake s

/-- Is an access of the island to its stack scratchpad issued and not yet performed: at a port, held, or on its way. One that
waits behind an acquire of its thread, a waiter, does not count, and is as a waiter itself (DEDUCED, log 127). -/
def State.spadBusy (s : State) (i : Island) : Bool :=
  s.msgs.any (fun m => isWay m.loc && m.view.island == i.num && !s.acquireHolds m.key m.upTo) ||
    s.held.any (fun h => h.seg.space == spStack && h.view.island == i.num && !s.acquireHolds h.key h.upTo) ||
    s.loads.any (fun h => h.seg.space == spStack && h.view.island == i.num && !s.acquireHolds h.key h.num) ||
    s.cores.any (fun c => c.port.any (fun p =>
      isWay p.loc && (s.viewOf p.key).island == i.num && !s.acquireHolds p.key p.upTo))

/-- The lines of the island's slices are written back and dropped: those in the ways taken, and no value depends on the
others (R221). -/
def State.dropLines (s : State) (i : Island) : State :=
  let tiles := Shape.tiles i.shape
  { s with homeDirty := s.homeDirty.filter (fun l => !tiles.contains (clusterOver (128 * l)))
           replicas := s.replicas.filter (fun r => !tiles.contains r.1) }

/-- The next step of Table 9.5 after `step`, and the number of the last step done; 6 is the last. -/
def State.repartition (s : State) (i : Island) (n step : Nat) : State × Nat :=
  let take (u : State) : State := u.modIsland i.num (fun k => { k with zWays := n })
  if i.wpart ≤ n then
    match step with
    | 0 | 1 | 2 => (s.dropLines i, 3)
    | 3 => (s.clearWays i i.wpart (n - i.wpart), 4)
    | 4 => (take s, 5)
    | _ => (s.modIsland i.num (fun k => { k with wpart := n }), 6)
  else
    match step with
    | 0 => (take s, 1)
    | 1 => if s.spadBusy i then (s, 1) else (s, 2)
    | 2 => (((s.dropWaiters i (i.zOf n)).dropBarriers i n).clearWays i n (i.wpart - n), 3)
    | _ => (s.modIsland i.num (fun k => { k with wpart := n }), 6)

/-- REPARTITION (R229): the oldest write of the island's %wpart is carried on by a step of Table 9.5; after the last its
unit completes. -/
def execRepartition (id : Nat) (s : State) : Out :=
  .next (match s.engJob? id with
    | none => s
    | some j =>
      let other (k : EngineJob) : Bool := match k.work with
        | .repartition _ _ => k.island == j.island
        | _ => false
      match j.work, s.island? j.island with
      | .repartition n step, some i =>
        if (s.engJobs.find? other).map (·.id) = some id then
          match s.repartition i n step with
          | (s1, m) =>
            if m = 6 then s1.endEngJob j
            else { s1 with engJobs := s1.engJobs.map (fun k => if k.id = id then { k with work := .repartition n m } else k) }
        else s
      | _, _ => s)

/-! ## Failures -/

/-- The dirty bytes of a failed core that still check correct are written back; the rest is lost, with what its port held
(R300). -/
def State.salvage (s : State) (c : Nat) : State :=
  let one (u : State) (l : L1Line) : State :=
    let w := u.mergeHome l.line (l.dirty &&& Config.l1Check u.free) l.data
    { w with free := u.free + 1 }
  let s0 := { s with held := s.held.filter (fun h => coreIndex h.view != c)
                     loads := s.loads.filter (fun h => coreIndex h.view != c)
                     msgs := s.msgs.filter (fun m => coreIndex m.view != c || s.msgReady m)
                     farOut := s.farOut.filter (fun m => m.core != c || !s.opensBelow m.key m.upTo) }
  let s1 := (s.core c).l1.foldl one s0
  let s2 := s1.modCore c (fun k => { k with l1 := [], wcb := [], port := [], health := .failed })
  let rest := s2.records.map (fun r => (r.1, r.2.filter (fun d => d != c)))
  { s2 with records := rest.filter (fun r => !r.2.isEmpty) }

/-- CORE_FAILURE (R300): the core stops; every crew with a thread on it is terminated with DEADCORE. -/
def execCoreFailure (core : Nat) (s : State) : Out :=
  let hit := s.crews.filter (fun k => !k.retired && (s.crewThreads (k.serial, k.n)).any (fun t => coreIndex t.view == core && t.live))
  .next (if (s.core core).health = .ok then
      hit.foldl (fun u k => u.terminateCrew (k.serial, k.n) .deadCore) (s.salvage core)
    else s)

/-- CORE_REPAIRED_OR_RETIRED (R300): the core's storage is zero from now on; a retired core's stays so. What is backed
up at its port goes on. -/
def execCoreRepairedOrRetired (core : Nat) (repaired : Bool) (s : State) : Out :=
  .next (if (s.core core).health = .failed then
      let s1 := (List.range 8).foldl (fun u i => u.clearRange (laneLoc core i 0) 8192) (s.clearRange (spadLoc core 0) 131072)
      let s2 := s1.modCore core (fun k => { k with health := if repaired then .ok else .retired })
      let s3 := s2.serveRange (spadLoc core 0) 131072
      let here (r : ThreadKey × Nat × Nat) : Bool := (s3.viewOf r.1).cluster == core / 4
      (s3.wakePages here).retryArrivals
    else s)

/-- A call of a failed engine is answered DEAD, and its context ends (Table 8.4). -/
def State.deadCall (s : State) (c : Call) : State :=
  let s1 := s.setCall { c with stage := .replying, reply := some (4, 0, []) }
  if c.stage = .running then s1.removeThread (.handler c.id) else s1

/-- STOPE_ENGINE_FAILURE (R197, R209): calls that wait or run are answered DEAD; the fields that the engine holds enter
state 5 with reason 2. -/
def execStopeEngineFailure (engine : Nat) (s : State) : Out :=
  .next (if s.deadEngines.contains engine then s
    else
      let s1 := { s with deadEngines := s.deadEngines ++ [engine] }
      let mine (c : Call) : Bool := (c.stage == .waiting || c.stage == .running) && engineAt c.loc == engine
      let s2 := (s1.calls.filter mine).foldl State.deadCall s1
      let runs (f : Field) : Bool := f.groups.contains engine && (f.st == .running || f.st == .stopping)
      (s2.fields.filter runs).foldl (fun u f => u.faultField f 2) s2)

end Sys2Proof.Machine
end

