-- ==== Sys2Proof/Machine/Host.lean ====
section
/-! DEFINITION. Host commands (spec/14, R302 to R306, R309, R312 to R314): the protocol of a command connection and
the commands of Table 14.5 that act on islands, memory, launches, freezes, straits and the fabric. -/

namespace Sys2Proof.Machine

open Sys2Proof

/-! ## The protocol (R312, R313) -/

/-- What a command comes to. -/
inductive CmdRes where
  /-- It has completed, with a STATUS and a body. -/
  | done (s : State) (status : Nat) (body : List Byte)
  /-- It is taken, and its reply comes later. -/
  | later (s : State)
  /-- It cannot complete yet, and is tried again. -/
  | retry (s : State)
  deriving DecidableEq, Repr

/-- STATUS codes of Table 14.4. -/
def stOk : Nat := 0
def stRefused : Nat := 1
def stNoIsland : Nat := 2
def stNoResource : Nat := 3
def stStale : Nat := 4
def stDenied : Nat := 5

/-- A command that completes with no body. -/
def State.ok (s : State) : CmdRes := .done s stOk []

/-- A command that is refused and changes nothing. -/
def State.refuse (s : State) : CmdRes := .done s stRefused []

/-- Does the resident service accept commands: every stack has ended its boot, and one at least runs (R353). -/
def State.serviceUp (s : State) : Bool :=
  let up (d : StackSt) : Bool := match d.boot with
    | .running _ => true
    | _ => false
  let booting (d : StackSt) : Bool := match d.boot with
    | .off | .fetching _ _ => true
    | .running _ | .recovery => false
  !s.off && s.dies.toList.any up && !s.dies.toList.any booting

/-- A connection, changed. -/
def State.modConn (s : State) (id : Nat) (f : Conn → Conn) : State :=
  { s with conns := s.conns.map (fun c => if c.id = id then f c else c) }

/-- The command with the expected number is taken: E := E + 1, and its outcome. What a GET has read so far goes with it. -/
def takeCommand (h : CmdHeader) (op : Nat) (r : CmdRes) : State :=
  let next (c : Conn) : Conn := { c with expect := c.expect + 1 }
  match r with
  | .done u st body =>
    (State.modConn { u with hostGets := u.hostGets.filter (fun g => g.conn != h.conn) } h.conn next).answer h op st body
  | .later u => u.modConn h.conn (fun c => { next c with busy := true })
  | .retry u => u

/-- A command arrives (R313). `islands` are the islands that it addresses. -/
def State.command (s : State) (h : CmdHeader) (op : Nat) (islands : List Nat) (k : State → CmdRes) : State :=
  match s.conns.find? (fun c => c.id == h.conn) with
  | none => s
  | some c =>
    if !s.serviceUp then s
    else if h.seq + 256 < c.expect then { s with outbox := s.outbox ++ [⟨h.conn, op, stStale, h.seq, h.island, h.tag, []⟩] }
    else if h.seq < c.expect then { s with outbox := s.outbox ++ (c.replies.find? (fun r => r.seq == h.seq)).toList }
    else if c.expect < h.seq || c.busy then s
    else if islands.any (fun i => !c.islands.contains i) then takeCommand h op (.done s stDenied [])
    else if islands.any (fun i => (s.island? i).isNone) then takeCommand h op (.done s stNoIsland [])
    else takeCommand h op (k s)

/-- A command for the island that its header names. -/
def State.islandCommand (s : State) (h : CmdHeader) (op : Nat) (k : State → Island → CmdRes) : State :=
  s.command h op [h.island] fun u => match u.island? h.island with
    | none => .done u stNoIsland []
    | some i => k u i

/-- Is there a port of a number: 2 p is Ethernet port p, or its first half, and 2 p + 1 the second half of one that is
split (R308). -/
def State.hasPort (s : State) (n : Nat) : Bool := ((s.ports[n / 2]?).map (fun p => n % 2 == 0 || p.split)).getD false

/-- CONNECTION_OPEN (R312): on a port of the module, once its resident service accepts commands; before firmware runs the
ports carry no command (R353). -/
def execConnectionOpen (conn : Link) (islands : List Nat) (s : State) : Out :=
  .next (if s.conns.any (fun c => c.id == conn.conn) || !s.serviceUp || !s.hasPort conn.port then s
    else { s with conns := s.conns ++ [⟨conn.conn, islands, 1, [], false, conn.port⟩] })

/-- UNKNOWN_COMMAND (R312): an OP that Table 14.5 does not assign. -/
def execUnknownCommand (h : CmdHeader) (op : Nat) (s : State) : Out :=
  .next (if 1 ≤ op ∧ op ≤ 14 then s else s.command h op [] State.refuse)

/-! ## Islands (R302, R361) -/

/-- Is a shape one of R302's. -/
def Shape.valid : Shape → Bool
  | .rect st x y w h => st < 4 && 1 ≤ w && 1 ≤ h && x + w ≤ 12 && y + h ≤ 8
  | .whole ss => 1 ≤ ss.length && ss.all (· < 4) && ss.dedup == ss

/-- The cluster of a tile given in the layout of %tile. -/
def clusterOfTile (stack tile : Nat) : Nat := 96 * stack + 12 * (tile / 16 % 8) + tile % 16

/-- Is a tile retired: its shaft, or its slice (R361). -/
def State.tileRetired (s : State) (cl : Nat) : Bool :=
  s.retiredUnits.any (fun u => (u.1 == 1 || u.1 == 2) && u.2.1 == stackOf cl && u.2.2 == tileCode cl)

/-- The frames of a retired seam, 96 bank groups of 1,024 frames, or of the bank groups of a retired shaft. -/
def unitFrames (u : Nat × Nat × Nat) : List Nat :=
  if u.1 = 0 then (List.range 96).flatMap (fun t => List.range' (u.2.1 * 2 ^ 21 + t * 2 ^ 14 + u.2.2 * 2 ^ 10) 1024)
  else if u.1 = 1 then List.range' (u.2.1 * 2 ^ 21 + clusterOfTile 0 u.2.2 * 2 ^ 14) (2 ^ 14)
  else []

/-- Does a frame lie in a bank group of a retired unit. -/
def inUnit (fr : Nat) (u : Nat × Nat × Nat) : Bool :=
  fr / 2 ^ 21 == u.2.1 &&
    ((u.1 == 0 && fr / 2 ^ 10 % 16 == u.2.2) || (u.1 == 1 && fr / 2 ^ 14 % 128 == clusterOfTile 0 u.2.2))

/-- At an island's creation the bank groups of retired seams, and the tiles and bank groups of retired shafts, leave every
island (R361): their frames are retired, and no crew is placed on the tiles. -/
def State.withdrawUnits (s : State) : State :=
  let gone := s.retiredUnits.filter (fun u => u.1 == 0 || u.1 == 1)
  let tiles := (gone.filter (fun u => u.1 == 1)).map (fun u => clusterOfTile u.2.1 u.2.2)
  if gone.isEmpty then s
  else
    { s with withdrawn := tiles.foldl setAdd s.withdrawn
             frames := (gone.flatMap unitFrames).dedup.map (fun f => ⟨f, 0, 3, false⟩) ++
               s.frames.filter (fun f => !gone.any (inUnit f.frame)) }

/-- ISLAND, create (Table 14.5): REFUSED where the values are not ones that R25, R284 and R302 allow or the number is in
use, NORESOURCE where a tile is taken, retired, or of a stack that is not running. -/
def State.createIsland (s : State) (num : Nat) (shape : Shape) (tenant root wpart : Nat) (tables : List Nat) : CmdRes :=
  let tiles := Shape.tiles shape
  let running (st : Nat) : Bool := match (s.dies.toList.getD st StackSt.reset).boot with
    | .running _ => true
    | _ => false
  if !Shape.valid shape || num = 0 || 65536 ≤ num || tenant = 0 || 0xFFFF ≤ tenant || !(wpart ∈ [0, 4, 8, 12]) ||
      root % 65536 != 0 || dramTop ≤ root || tables.any (fun t => t % 65536 != 0) || (s.island? num).isSome then s.refuse
  else if tiles.any (fun t => !running (stackOf t) || s.tileRetired t) ||
      s.islands.any (fun i => (Shape.tiles i.shape).any (fun t => tiles.contains t)) then .done s stNoResource []
  else
    let i : Island := ⟨num, tenant, shape, root, wpart, wpart, tables, [], [], []⟩
    let s1 := s.withdrawUnits
    (State.clearWays { s1 with islands := s1.islands ++ [i] } i 0 wpart).ok

/-- ISLAND_CREATE. -/
def execIslandCreate (h : CmdHeader) (num : Nat) (shape : Shape) (tenant root wpart : Nat) (tables : List Nat) (s : State) :
    Out :=
  .next (s.command h 2 [] fun u =>
    if ((u.conns.find? (fun c => c.id == h.conn)).map (fun c => c.islands.contains num)).getD false then
      u.createIsland num shape tenant root wpart tables
    else .done u stDenied [])

/-- An island ends: its shifts are killed, its fields undefined, and what it kept is dropped; a WAIT on it finds no island
any more. -/
def State.destroyIsland (s : State) (n : Nat) : State :=
  let s1 := (s.shifts.filter (fun k => k.island == n)).foldl (fun u k => u.killShift k.serial) s
  let s2 := (s1.fields.filter (fun f => f.island == n)).foldl State.undefine s1
  let here (t : Thread) : Bool := t.isHandler && t.view.island == n
  let s3 := (s2.threads.filter here).foldl (fun u t => u.removeThread t.key) s2
  let s4 := (s3.hostWaits.filter (fun w => w.island == n)).foldl (fun u w =>
    u.sendReply ⟨w.conn, 6, stNoIsland, w.seq, w.island, w.tag, []⟩) s3
  { s4 with islands := s4.islands.filter (fun i => i.num != n)
            tlb := s4.tlb.filter (fun t => t.island != n)
            straits := s4.straits.filter (fun t => t.reader != n)
            calls := s4.calls.filter (fun c => c.island != n)
            svcFaults := s4.svcFaults.filter (fun f => f.island != n)
            farLines := s4.farLines.filter (fun l => l.island != n)
            hostWaits := s4.hostWaits.filter (fun w => w.island != n) }

/-- ISLAND_DESTROY. -/
def execIslandDestroy (h : CmdHeader) (s : State) : Out :=
  .next (s.islandCommand h 2 fun u i => (u.destroyIsland i.num).ok)

/-! ## Memory (R314) -/

/-- A segment over virtual addresses, for the resident service. -/
def wholeSeg : Seg := ⟨0, 2 ^ 52, 0xFF, spInter, 0, 0⟩

/-- What the pieces of a range meet: nothing, a parking condition, or a failure. -/
def State.rangeRes (s : State) (i : Island) (n : Need) (writes : Bool) : List (Nat × Nat) → State × EngRes
  | [] => (s, .ok)
  | p :: ps =>
    match s.engPlace 0 i.view wholeSeg p.1 n with
    | (s1, .ok, x) =>
      if writes && (s1.isFrozen x || s1.inRunningField i.num x p.2) then (s1, .fault .frozen) else s1.rangeRes i n writes ps
    | (s1, r, _) => (s1, r)

/-- The pieces of a range of virtual addresses, each within one line. -/
def vaPieces (va n : Nat) : List (Nat × Nat) := (rangePieces 128 va n).map (fun p => (va + p.1, p.2))

/-- Bytes as a number, little-endian. -/
def numOf (l : List Byte) : Nat := l.foldr (fun b x => b.toNat + 256 * x) 0

/-- PUT (R314): the bytes are written at home; where they cannot all be, or the body does not hold them, it is REFUSED and
writes none. -/
def execPut (h : CmdHeader) (va : Nat) (bytes : List Byte) (s : State) : Out :=
  .next (s.islandCommand h 3 fun u i =>
    if h.len.toNat < bytes.length || 2 ^ 52 < va + bytes.length then u.refuse
    else
      match u.rangeRes i needW true (vaPieces va bytes.length) with
      | (u1, .ok) => (u1.engWrite 0 (coreIndex i.view) i.view wholeSeg va bytes.length (numOf bytes)).1.ok
      | (u1, .park) => .retry u1
      | (u1, .fault _) => u1.refuse)

/-- What a GET reads next, after the first `got` bytes of its range: the rest of an aligned 8-byte word (R314). -/
def nextGet (va len got : Nat) : Nat := min (8 - (va + got) % 8) (len - got)

/-- The next word of a GET is read. -/
def State.getWord (s : State) (i : Island) (va len : Nat) (got : List Byte) : State × EngRes × List Byte :=
  let k := nextGet va len got.length
  if k = 0 then (s, .ok, got)
  else
    match s.engReadPiece 0 (coreIndex i.view) i.view wholeSeg (va + got.length) k with
    | (s1, .ok, x) => (s1, .ok, got ++ bytesOf x k)
    | (s1, r, _) => (s1, r, got)

/-- GET (R314): one aligned 8-byte word at a time, each at its own moment; REFUSED where a byte cannot be read. -/
def execGet (h : CmdHeader) (va len : Nat) (s : State) : Out :=
  .next (s.islandCommand h 4 fun u i =>
    if 65535 < len || 2 ^ 52 < va + len then u.refuse
    else
      let got := ((u.hostGets.find? (fun g => g.conn == h.conn && g.seq == h.seq)).map (·.body)).getD []
      match u.getWord i va len got with
      | (u1, .fault _, _) => u1.refuse
      | (u1, r, body) =>
        if r = .ok ∧ body.length = len then .done u1 stOk body
        else .retry { u1 with hostGets := u1.hostGets.filter (fun g => g.conn != h.conn) ++ [⟨h.conn, h.seq, body⟩] })

/-! ## Launches and waits -/

/-- LAUNCH_COMMAND (R246, R249): REFUSED when the packet is invalid; held while its queue is full. The reply holds the
serial number. -/
def execLaunchCommand (h : CmdHeader) (packet : BitVec 512) (s : State) : Out :=
  .next (s.islandCommand h 5 fun u i =>
    match checkPacket u i i.view packet.toNat 0 none true with
    | .park _ => .retry u
    | .service va l e => .retry (u.serviceFault i.view 0 va l e)
    | .badEntry | .invalid => u.refuse
    | .ok k =>
      let k1 := { k with serial := u.nextSerial }
      let u1 := u.addShift k
      let behind (w : HostLaunch) : Bool := ((u.shift? w.serial).map (fun q => q.island == i.num && q.queue == k.queue)).getD false
      let full := i.queueFull k.queue || !(i.queue k.queue).waiters.isEmpty || u.hostLaunches.any behind
      if full then .later { u1 with hostLaunches := u1.hostLaunches ++ [⟨h.conn, h.seq, h.tag, k1.serial⟩] }
      else .done (u1.enterTail k1) stOk (bytesOf k1.serial 8))

/-- WAIT (Table 14.5): the TBTEST value of a barrier once it is DONE. -/
def execWait (h : CmdHeader) (va : Nat) (s : State) : Out :=
  .next (s.islandCommand h 6 fun u i =>
    if va % 16 != 0 || 2 ^ 52 ≤ va then u.refuse
    else
      match u.engPlace 0 i.view wholeSeg va needR with
      | (u1, .ok, x) =>
        let u2 := u1.serveRecords (lineAt x)
        if u2.poisoned x 16 then u2.refuse
        else if (u2.barrier x).done then .done u2 stOk (bytesOf (u2.barrier x).test.toNat 8)
        else .later { u2 with hostWaits := u2.hostWaits ++ [⟨h.conn, h.seq, i.num, h.tag, x⟩] }
      | (u1, .park, _) => .retry u1
      | (u1, .fault _, _) => u1.refuse)

/-- KILL (R254): the shift is killed; a number that names none is REFUSED. -/
def execKill (h : CmdHeader) (serial : Nat) (s : State) : Out :=
  .next (s.islandCommand h 13 fun u i =>
    match u.shift? serial with
    | none => u.refuse
    | some k =>
      if k.island != i.num then u.refuse
      else
        match u.hostLaunches.find? (fun w => w.serial == serial) with
        | some w =>
          let u1 : State := { u with hostLaunches := u.hostLaunches.erase w }
          (((u1.answer ⟨w.conn, w.seq, k.island, w.tag, 0⟩ 5 0 (bytesOf serial 8)).modShift serial
            (fun q => { q with gone := true, killed := true, nterm := q.crewCount })).shiftCheck serial).ok
        | none => (u.killShift serial).ok)

/-! ## Freezes (R201 to R203) -/

/-- The granules of a command's range: multiples of 64 KiB within the virtual addresses. -/
def State.withRange (s : State) (i : Island) (va len : Nat) (load : Bool) (k : State → List (Nat × Nat) → CmdRes) : CmdRes :=
  if va % 65536 != 0 || len % 65536 != 0 || 2 ^ 52 < va + len then s.refuse
  else
    match granulesOf s i.view wholeSeg va len load with
    | .ok l => k s l
    | .park _ => .retry s
    | .service a l e => .retry (s.serviceFault i.view 0 a l e)
    | .fault _ _ => s.refuse

/-- FREEZE_FRZ (R201): a full count, or the region of a field, makes it REFUSED. -/
def execFreezeFrz (h : CmdHeader) (va len : Nat) (s : State) : Out :=
  .next (s.islandCommand h 7 fun u i =>
    u.withRange i va len false fun u l =>
      if l.isEmpty then u.ok
      else if l.any (fun p => u.freezeCount p.2 == 255 || u.inField p.2) then u.refuse
      else
        let u1 := u.freezeAll (l.map (·.2))
        .later { u1 with engJobs := u1.engJobs ++ [⟨u1.nextId, .handler 0, i.num, some h, .freeze (l.map (·.2))⟩]
                         nextId := u1.nextId + 1 })

/-- FREEZE_THAW (R202): its reply comes with the arrival. -/
def execFreezeThaw (h : CmdHeader) (va len : Nat) (s : State) : Out :=
  .next (s.islandCommand h 7 fun u i => u.withRange i va len false fun u l => .later (u.beginThaw l i.num none (some h)))

/-- FREEZE_FRZQ (R203). -/
def execFreezeFrzq (h : CmdHeader) (va : Nat) (s : State) : Out :=
  .next (s.islandCommand h 7 fun u i =>
    if 2 ^ 52 ≤ va then u.refuse
    else u.withRange i (va / 65536 * 65536) 65536 true fun u l => .done u stOk (bytesOf (u.granuleState (pieceIn l va)).toNat 8))

/-! ## Straits, the far-module table, translations, field links -/

/-- The stacks that hold the memory of an owner: those of the islands of its tenant number. -/
def State.ownerStacks (s : State) (owner : Nat) : List Nat :=
  (List.range 4).filter (fun st => s.islands.any (fun i => i.tenant == owner && (Shape.tiles i.shape).any (fun t => stackOf t == st)))

/-- Is every granule of a range mapped for the reader by a bank-linear leaf with R set and W and X clear (R304). -/
def State.straitMapped (s : State) (i : Island) (base ngran : Nat) : Bool :=
  (List.range ngran).all (fun k => match walk s i (bankVa (base + 65536 * k)) with
    | .leaf e _ => e / 2 % 8 == 1
    | _ => false)

/-- What an island's threads have parked on goes on, to be tried again. -/
def State.wakeIsland (s : State) (isl : Nat) : State := s.wakePages (fun r => r.2.1 == isl)

/-- STRAIT_OPEN (R304): the resident service maps the range for the reader by the entries that it writes, and puts the
strait into the table of 64 of every stack that holds the owner's memory; an open entry of the same reader, owner and base
is replaced. -/
def execStraitOpen (h : CmdHeader) (reader : StraitReader) (owner base ngran rate burst : Nat) (s : State) : Out :=
  .next (s.islandCommand h 8 fun u _ =>
    match u.island? reader.island with
    | none => .done u stNoIsland []
    | some i =>
      if base % 65536 != 0 || dramTop < base + ngran * 65536 || ngran = 0 || owner = 0 || 0xFFFF ≤ owner || 2 ^ 32 ≤ rate ||
          2 ^ 16 ≤ burst then u.refuse
      else
        let rest := u.straits.filter (fun t => !(t.reader == reader.island && t.owner == owner && t.base == base))
        let full (st : Nat) : Bool := 64 ≤ (rest.filter (fun t => (u.ownerStacks t.owner).contains st)).length
        let u1 := reader.entries.foldl State.putEntry u
        if (u.ownerStacks owner).any full then .done u stNoResource []
        else if !u1.straitMapped i base ngran then .retry u
        else
          let u2 : State := { u1 with straits := rest ++ [⟨reader.island, owner, base, ngran, rate, burst, burst * 4096⟩] }
          (u2.wakeIsland reader.island).ok)

/-- Every replica of a range goes from an island's caches. -/
def State.dropReplicas (s : State) (i : Island) (base n : Nat) : State :=
  let tiles := Shape.tiles i.shape
  let inside (line : Nat) : Bool := base ≤ 128 * line && 128 * line < base + n
  let drop (c : CoreSt) : CoreSt :=
    if tiles.contains (c.id / 4) then { c with l1 := c.l1.filter (fun l => !(l.frozen && inside l.line)) } else c
  { s with cores := s.cores.map drop, replicas := s.replicas.filter (fun r => !(tiles.contains r.1 && inside r.2)) }

/-- STRAIT_CLOSE (R306): a strait that is not open is REFUSED. -/
def execStraitClose (h : CmdHeader) (reader owner base : Nat) (s : State) : Out :=
  .next (s.islandCommand h 8 fun u _ =>
    match u.straits.find? (fun t => t.reader == reader && t.owner == owner && t.base == base) with
    | none => u.refuse
    | some t =>
      let u1 := State.wakeIsland { u with straits := u.straits.erase t } reader
      match u1.island? reader with
      | none => u1.ok
      | some i => (u1.dropReplicas i base (t.ngran * 65536)).ok)

/-- FARTAB (R309): one of 256 entries, written or made empty. -/
def execFartab (h : CmdHeader) (idx : Nat) (module : Option Nat) (target conn port : Nat) (s : State) : Out :=
  .next (s.islandCommand h 9 fun u i =>
    let others := i.far.filter (fun f => f.idx != idx)
    if 256 ≤ idx then u.refuse
    else
      match module with
      | none => (u.modIsland i.num (fun k => { k with far := others })).ok
      | some m =>
        if 2 ^ 32 ≤ m || 2 ^ 16 ≤ target || !u.hasPort port then u.refuse
        else (u.modIsland i.num (fun k => { k with far := ⟨idx, m, target, conn, port⟩ :: others })).ok)

/-- Does a cached translation meet a range of addresses. -/
def TlbEntry.meets (t : TlbEntry) (va len : Nat) : Bool :=
  va < (t.page + 1) * 2 ^ t.logSize && t.page * 2 ^ t.logSize < va + len

/-- TLBINV (R289). -/
def execTlbinv (h : CmdHeader) (va len : Nat) (s : State) : Out :=
  .next (s.islandCommand h 10 fun u i => State.ok { u with tlb := u.tlb.filter (fun t => !(t.island == i.num && t.meets va len)) })

/-- FIELDLINK (R281): the link of a defined field that is not running: the whole extents and the part's offset, the far
neighbour of each face by its entry of the far-module table, and the mode; a bound is from 1 to 15. -/
def execFieldlink (h : CmdHeader) (num : Nat) (ext : List Nat) (offset : FieldPart) (lockstep : Bool) (bound : Nat) (s : State) : Out :=
  .next (s.islandCommand h 11 fun u i =>
    match u.field? i.num num with
    | none => u.refuse
    | some f =>
      let fits := (List.range (fieldExt f.desc).length).all (fun a => offset.offset.getD a 0 + (fieldExt f.desc).getD a 1 ≤ ext.getD a 0)
      let known (e : Option Nat) : Bool := match e with
        | none => true
        | some n => i.far.any (fun k => k.idx == n)
      if f.st != .stopped || !(lockstep || (1 ≤ bound && bound ≤ 15)) || !fits || 6 < offset.faces.length || !offset.faces.all known then u.refuse
      else (u.setField { f with link := some ⟨ext, offset.offset, lockstep, bound, offset.faces⟩ }).ok)

end Sys2Proof.Machine
end

