-- ==== Sys2Proof/Machine/Vector.lean ====
section
/-! DEFINITION. Lanes, reductions, dot products, packing, scaling and draws (spec/06, R157 to R164; spec/03, R74 to
R76). -/

namespace Sys2Proof.Machine

open Sys2Proof

/-! ## Moving lanes (R157 to R159) -/

/-- The lane that g[b] names. -/
def laneIndex (w : Nat) (x : Word) : Nat := x.toNat % (512 / w)

/-- VBCAST. -/
def execVbcast (t : IntTy) (d : BitVec 5) (a : BitVec 6) (s : State) : Out :=
  let w := IntTy.width t
  .next (s.onThr fun u => (u.wv d (mapElems 0xFFFF w w (fun _ => u.intSrc w a) 0 (512 / w))).advance)

/-- VEXT. -/
def execVext (t : IntTy) (d : BitVec 6) (a : BitVec 5) (b : BitVec 6) (s : State) : Out :=
  let w := IntTy.width t
  .next (s.wordOp d fun u => intWord w (elem (u.rv a) w (laneIndex w (u.rg b))))

/-- VINS. -/
def execVins (t : IntTy) (d : BitVec 5) (a b : BitVec 6) (s : State) : Out :=
  let w := IntTy.width t
  .next (s.onThr fun u => (u.wv d (setElem (u.rv d) w (laneIndex w (u.rg b)) (u.intSrc w a))).advance)

/-- Lanes of v[d] from a function of the lane, under the mask. -/
def State.laneOp (s : State) (t : IntTy) (d : BitVec 5) (p : BitVec 3) (f : Thread → Nat → Nat) : State :=
  let w := IntTy.width t
  s.onThr fun u => (u.wv d (mapElems (u.rp p) w w (f u) (u.rv d) (512 / w))).advance

/-- VPERM. -/
def execVperm (t : IntTy) (d a b : BitVec 5) (p : BitVec 3) (s : State) : Out :=
  let w := IntTy.width t
  .next (s.laneOp t d p fun u i => elem (u.rv a) w (elem (u.rv b) w i % (512 / w)))

/-- VROT. -/
def execVrot (t : IntTy) (d a c : BitVec 5) (p : BitVec 3) (s : State) : Out :=
  let w := IntTy.width t
  .next (s.laneOp t d p fun u i => elem (u.rv a) w ((i + c.toNat) % (512 / w)))

/-- VIOTA. -/
def execViota (t : IntTy) (d : BitVec 5) (p : BitVec 3) (s : State) : Out := .next (s.laneOp t d p fun _ i => i)

/-- VSEL: the predicate selects; there is no mask. -/
def execVsel (t : IntTy) (d a b : BitVec 5) (p : BitVec 3) (s : State) : Out :=
  let w := IntTy.width t
  .next (s.laneOp t d 0 fun u i => if (u.rp p).getLsbD i then elem (u.rv a) w i else elem (u.rv b) w i)

/-! ## Reduction (R75, R160) -/

/-- The encoding of a leaf that is masked off. -/
def neutralLeaf (fn : VRedFn) (f : Fmt) : Nat :=
  match fn with
  | .add => Fmt.signBit f true
  | .min => (Fmt.infBits f).getD 0
  | .max => Fmt.signBit f true + (Fmt.infBits f).getD 0

/-- One node of the tree. -/
def redNode (fn : VRedFn) (f : Fmt) (env : RoundEnv) (x y : FVal) : Rounded :=
  match fn with
  | .add => addRounded f env x y
  | .min => minMax f false x y
  | .max => minMax f true x y

/-- One level: adjacent nodes are combined; `n` is the number of the level's first node. -/
def redLevel (fn : VRedFn) (f : Fmt) (env : Nat → RoundEnv) : Nat → List FVal → List FVal × Flags × Nat
  | n, x :: y :: l =>
    let r := redNode fn f (env n) x y
    let rest := redLevel fn f env (n + 1) l
    (Fmt.unpack f r.bits :: rest.1, r.flags ||| rest.2.1, rest.2.2)
  | n, _ => ([], 0, n)

/-- The levels until one node remains. -/
def redTree (fn : VRedFn) (f : Fmt) (env : Nat → RoundEnv) : Nat → Nat → List FVal → Flags → List FVal × Flags
  | 0, _, l, fl => (l, fl)
  | k + 1, n, l, fl =>
    let r := redLevel fn f env n l
    redTree fn f env k r.2.2 r.1 (fl ||| r.2.1)

/-- VRED (R160): element 0 takes the result, the other bits of v[d] are kept. -/
def execVred (t : FTy) (d a : BitVec 5) (fn : VRedFn) (p : BitVec 3) (rm : Rm) (s : State) : Out :=
  let f := FTy.fmt t
  let w := Fmt.width f
  let n := 512 / w
  .next (s.onThr fun u =>
    let leaf (j : Nat) : FVal :=
      if govBit (u.rp p) w j then u.fElem f a j else Fmt.unpack f (neutralLeaf fn f)
    let r := redTree fn f (fun k => u.env rm false k) (Nat.log2 n) 0 ((List.range n).map leaf) 0
    (((u.wv d (setElem (u.rv d) w 0 (repack f (r.1.headD (.fin false 0 0))))).raise r.2).drew rm (n - 1)).advance)

/-! ## Dot products (R76, R161) -/

/-- The format of a floating source type of VDOT. -/
def DotTy.fmt : DotTy → Fmt
  | .int8 | .e2m1 => .e2m1 | .fp16 => .fp16 | .bf16 => .bf16 | .e4m3 => .e4m3 | .e5m2 => .e5m2

/-- The exact sum of the products of the elements k − 1 down to 0 of a lane. -/
def dotSum (x y : Nat → FVal) : Nat → SumParts
  | 0 => .finite []
  | k + 1 => (dotSum x y k).add (exactMul (x k) (y k))

/-- The same on signed bytes. -/
def dotInt (x y : Nat → Int) : Nat → Int
  | 0 => 0
  | k + 1 => dotInt x y k + x k * y k

/-- VDOT (R161). -/
def execVdot (t : DotTy) (d a b : BitVec 5) (p : BitVec 3) (rm : Rm) (s : State) : Out :=
  match t with
  | .int8 =>
    .next (s.fVector d (s.thr.rp p) 32 32 16 .rne 0 fun u i =>
      let x (r : BitVec 5) (k : Nat) : Int := signedOf 8 (elem (u.rv r) 8 (4 * i + k))
      ⟨narrow 32 ((elem (u.rv d) 32 i : Int) + dotInt (x a) (x b) 4), 0⟩)
  | t =>
    let f := DotTy.fmt t
    let k := 32 / Fmt.width f
    .next (s.fVector d (s.thr.rp p) 32 32 16 rm 16 fun u i =>
      accumulate (u.env rm false i) (u.fElem .fp32 d i)
        (dotSum (fun j => u.fElem f a (k * i + j)) (fun j => u.fElem f b (k * i + j)) k))

/-! ## Packing and scaling (R162, R163) -/

/-- VPACK: sixteen FP32 lanes into one part of a packed register. -/
def execVpack (t : Fmt) (d a : BitVec 5) (sat : Bool) (part : BitVec 3) (rm : Rm) (s : State) : Out :=
  let w := Fmt.width t
  .next (s.onThr fun u =>
    let r (i : Nat) : Rounded := roundTo t (u.env rm sat i) (u.fElem .fp32 a i)
    let x := (List.range 16).foldl (fun x i => setElem x w (16 * part.toNat + i) (r i).bits) (u.rv d)
    (((u.wv d x).raise (elemFlags 0xFFFF 32 (fun i => (r i).flags) 16)).drew rm (512 / w)).advance)

/-- VUNPACK: one part of a packed register into sixteen FP32 lanes, exactly. -/
def execVunpack (t : Fmt) (d a : BitVec 5) (part : BitVec 3) (s : State) : Out :=
  .next (s.fVector d 0xFFFF 32 32 16 .rne 0 fun u i =>
    roundTo .fp32 ⟨.rne, ⟨false, false, false⟩, false, 0⟩ (u.fElem t a (16 * part.toNat + i)))

/-- The product of a lane and its BS24 scale (R163): a NaN or infinite scale gives the canonical NaN and NV. -/
def scaled (env : RoundEnv) (x sc : FVal) : Rounded :=
  match sc with
  | .nan _ | .inf _ => invalid .fp32
  | .fin .. => mulRounded .fp32 env x sc

/-- VSCALE (R163). -/
def execVscale (d a b : BitVec 5) (p : BitVec 3) (rm : Rm) (s : State) : Out :=
  .next (s.fLanes .f32 d p rm fun u i =>
    scaled (u.env rm false i) (u.fElem .fp32 a i) (bs24Val (elem (u.rv b) 32 i / 256)))

/-! ## Draws (R164) -/

/-- The result that LODE makes of a draw: raw, its upper 24 bits, or those as a fraction in FP32. -/
def lodeShape (fn : LodeFn) (x : BitVec 32) : Nat :=
  match fn with
  | .raw => x.toNat
  | .u24 => x.toNat / 256
  | .f32 => (roundFinite .fp32 ⟨.rne, ⟨false, false, false⟩, false, 0⟩ false (x.toNat / 256) (-24) false).bits

/-- LODE (R164). -/
def execLode (d a b : BitVec 6) (fn : LodeFn) (s : State) : Out :=
  .next (s.wordOp d fun u => BitVec.ofNat 64 (lodeShape fn (lode32 ((u.rg a).truncate 32) ((u.rg b).truncate 32))))

/-- LODE, vector form (R164): lane i draws counter g[a] + i. -/
def execLodeV (d a b : BitVec 5) (p : BitVec 3) (fn : LodeFn) (s : State) : Out :=
  .next (s.fVector d (s.thr.rp p) 32 32 16 .rne 0 fun u i =>
    ⟨lodeShape fn (lode32 ((u.rg (a.zeroExtend 6)).truncate 32 + BitVec.ofNat 32 i) ((u.rg (b.zeroExtend 6)).truncate 32)), 0⟩)

end Sys2Proof.Machine
end

