-- ==== Sys2Proof/Machine/MatrixRun.lean ====
section
/-! DEFINITION. The matrix engine at work (spec/07, R165 to R188; spec/03, R77 to R79): tile and thread order, the
k-steps of jobs, ring chunks, faults and completion, MLD and MDRAIN. -/

namespace Sys2Proof.Machine

open Sys2Proof

/-! ## Tiles in memory (R19, R176) -/

/-- Word `w` of a tile. -/
def State.tileWord (s : State) (cl t w : Nat) : Nat := s.peek (tileLoc cl t w) 4

/-- Word `w` of a tile, set. -/
def State.setTileWord (s : State) (cl t w v : Nat) : State := s.poke (tileLoc cl t w) 4 v

/-- A tile cleared: +0.0, and INT32 0, in every element. -/
def State.clearTile (s : State) (cl t : Nat) : State := s.clearRange (tileLoc cl t 0) 16384

/-! ## Order (R167) -/

/-- The number of an operation that its event names. -/
def MatrixOp.id : MatrixOp → Nat
  | .job j => j.id
  | .clear i _ | .zero i _ | .release i _ | .load i _ _ _ _ _ => i
  | .drain d => d.id

/-- Is the operation a job of the thread. -/
def MatrixOp.ofThread (k : ThreadKey) (o : MatrixOp) : Bool :=
  match o with
  | .job j => j.key == k
  | _ => false

/-- Does no earlier operation stand in the way: rule 1, and for a job rule 2. -/
def MatrixEng.permitted (m : MatrixEng) (o : MatrixOp) : Bool :=
  let before := m.ops.takeWhile (fun p => p != o)
  !(before.any (fun p => p.tiles.any (fun t => o.tiles.contains t))) &&
    (match o with
     | .job j => !before.any (MatrixOp.ofThread j.key)
     | _ => true)

/-- An operation ends: it leaves the engine's work. -/
def State.dropOp (s : State) (cl : Nat) (o : MatrixOp) : State :=
  let m := s.matrixEng cl
  s.setEng { m with ops := m.ops.filter (fun p => p != o) }

/-- An operation changes. -/
def State.setOp (s : State) (cl : Nat) (o new : MatrixOp) : State :=
  let m := s.matrixEng cl
  s.setEng { m with ops := m.ops.map (fun p => if p = o then new else p) }

/-- The job named, while it has not ended. -/
def State.onJob (s : State) (cl id : Nat) (k : Job → State) : State :=
  match (s.matrixEng cl).job? id with
  | none => s
  | some j => k j

/-- A job changes. -/
def State.setJob (s : State) (cl : Nat) (j new : Job) : State := s.setOp cl (.job j) (.job new)

/-- Does the engine of a cluster wait: its stack is stopped (R357), or the cluster is evicted (R260). -/
def State.clusterStopped (s : State) (cl : Nat) : Bool := s.stackStopped (stackOf cl) || (s.matrixEng cl).evicted

/-! ## Acceptance, clears and releases -/

/-- MATRIX_ACCEPT (R165): of the cores with a thread that a full queue stalls, the next in turn is let on. -/
def execMatrixAccept (cl : Nat) (s : State) : Out :=
  .next (
    let m := s.matrixEng cl
    let waits (c : Nat) : Option Thread := s.threads.find? (fun t =>
      t.status == .stalled && t.wait == .job 0 && t.view.cluster == cl && t.view.core == c)
    if 16 ≤ m.taken then s
    else
      match ((List.range' (m.lastCore + 1) 4).map (· % 4)).findSome? waits with
      | none => s
      | some t =>
        (s.setEng { m with lastCore := t.view.core }).modThread t.key (fun u => { u with status := .ready, wait := .none }))

/-- TILE_CLEAR (R169, R171): the clear of a tile that MACQ granted or MZERO named, in tile order. -/
def execTileClear (cl id : Nat) (s : State) : Out :=
  .next (
    let m := s.matrixEng cl
    let hit (o : MatrixOp) : Bool := match o with
      | .clear i _ | .zero i _ => i == id
      | _ => false
    match m.ops.find? hit with
    | none => s
    | some o => if m.permitted o && !s.clusterStopped cl then (s.clearTile cl (o.tiles.headD 0)).dropOp cl o else s)

/-- TILE_RELEASE (R170): jobs that a fault has suspended on the tile are cancelled; the tile is released when nothing
earlier names it. What an eviction has saved waits for the restore (R260). -/
def execTileRelease (cl id : Nat) (s : State) : Out :=
  .next (
    let m := s.matrixEng cl
    let hit (o : MatrixOp) : Bool := match o with
      | .release i _ => i == id
      | _ => false
    match m.ops.find? hit with
    | none => s
    | some o =>
      if m.evicted then s
      else
      let before := m.ops.takeWhile (fun p => p != o)
      let s1 := s.setEng { m with ops := before.map (MatrixOp.cancelOn (o.tiles.headD 0)) ++ m.ops.drop before.length }
      if (s1.matrixEng cl).permitted o then s1.dropOp cl o else s1)

/-! ## MLD (R172) -/

/-- Up to `n` words of a tile are loaded: the words loaded, and what stopped them. -/
def State.loadGo (s : State) (cl tile : Nat) (src : Ref) (pos : Nat) : Nat → State × Nat × EngRes
  | 0 => (s, pos, .ok)
  | n + 1 =>
    if 4096 ≤ pos then (s, pos, .ok)
    else
      match s.engRead 2 (coreIndex src.view) src.view src.seg (src.off + 4 * pos) 4 with
      | (s1, .ok, x) => (s1.setTileWord cl tile pos x).loadGo cl tile src (pos + 1) n
      | (s1, r, _) => (s1, pos, r)

/-- MLD_COMPLETION (R172): up to `n` words; at the end, or at a fault, the arrival. DESIGN CHOICE (log 118): VALUE counts "the
failing byte offset" from the first byte copied, as a copy does (R141). -/
def execMldCompletion (cl id n : Nat) (s : State) : Out :=
  .next (
    let m := s.matrixEng cl
    let hit (o : MatrixOp) : Bool := match o with
      | .load i _ _ _ _ _ => i == id
      | _ => false
    match m.ops.find? hit with
    | some (.load i tile key src bar pos) =>
      if m.permitted (.load i tile key src bar pos) && !s.clusterStopped cl then
        match s.loadGo cl tile src pos n with
        | (s1, p, .fault _) => (s1.dropOp cl (.load i tile key src bar pos)).arrive ⟨bar, some (4 * p), true, false, 2, none⟩
        | (s1, p, r) =>
          if r = .ok ∧ 4096 ≤ p then (s1.dropOp cl (.load i tile key src bar pos)).arrive ⟨bar, some 0, false, false, 2, none⟩
          else s1.setOp cl (.load i tile key src bar pos) (.load i tile key src bar p)
      else s
    | _ => s)

/-! ## Operand reads of a job (R175, R184) -/

/-- A fault of a job: operand and kind of Table 7.9, and the offset within the segment. -/
structure JobErr where
  operand : Nat
  kind : Nat
  off : Nat
  deriving DecidableEq, Repr

/-- What a job's step meets. -/
inductive JobRes (α : Type) where
  | ok (x : α)
  /-- A parking condition, a missing chunk or a full receiver: the job is delayed. -/
  | wait
  | fault (e : JobErr)
  deriving DecidableEq, Repr

/-- The kind of a cause (Table 7.9). The table has no kind for a poisoned word, a retired scratchpad or a place beyond a
shrunk stack scratchpad: they are reported as kind 1 (DESIGN CHOICE, log 95). -/
def Cause.kind (c : Cause) (far : Bool) : Nat :=
  if far then 3 else if c = .owner then 2 else if c = .frozen then 7 else 1

/-- The place of an operand. -/
def Job.ref (j : Job) (n : Nat) : Ref :=
  ((j.refs.find? (fun r => r.1 == n)).map (·.2)).getD ⟨Seg.empty, 0, j.view⟩

/-- `n` bytes of an operand at an offset from its first byte. -/
def State.jobRead (s : State) (j : Job) (op rel n : Nat) : State × JobRes Nat :=
  let r := j.ref op
  match s.engRead 2 (coreIndex r.view) r.view r.seg (r.off + rel) n with
  | (s1, .ok, x) => (s1, .ok x)
  | (s1, .park, _) => (s1, .wait)
  | (s1, .fault c, at_) => (s1, .fault ⟨op, c.kind (r.seg.space == spFar), at_⟩)

/-- Several reads of an operand, in order. -/
def State.jobReads (s : State) (j : Job) (op : Nat) : List (Nat × Nat) → State × JobRes (List Nat)
  | [] => (s, .ok [])
  | p :: ps =>
    match s.jobRead j op p.1 p.2 with
    | (s1, .ok x) =>
      match s1.jobReads j op ps with
      | (s2, .ok l) => (s2, .ok (x :: l))
      | r => r
    | (s1, .wait) => (s1, .wait)
    | (s1, .fault e) => (s1, .fault e)

/-- A read, and then what uses it. -/
def jobThen {α β : Type} (r : State × JobRes α) (k : State → α → State × JobRes β) : State × JobRes β :=
  match r with
  | (s, .ok x) => k s x
  | (s, .wait) => (s, .wait)
  | (s, .fault e) => (s, .fault e)

/-- The k-step of a job. -/
def Job.step (j : Job) : Nat := kStep (fmtA j.fmt) (fmtB j.fmt)

/-- The k-rows of B of one k-step, and its scale, from memory. -/
def State.readB (s : State) (j : Job) (kb : Nat) : State × JobRes (List Nat × Nat) :=
  let st := j.step
  jobThen (s.jobReads j 1 ((List.range st).map (fun k => ((kb * st + k) * descBPitch j.desc, bRowBytes j.desc j.fmt))))
    fun s rows =>
      if fmtG j.fmt = 1 then jobThen (s.jobRead j 3 (3 * kb) 3) fun s x => (s, .ok (rows, x)) else (s, .ok (rows, 0))

/-- The same from the chunk of the ring step. -/
def Chunk.block (c : Chunk) (j : Job) (kb : Nat) : List Nat × Nat :=
  let st := j.step
  let n := bRowBytes j.desc j.fmt
  let row (k : Nat) : Nat := ((c.bytes.drop ((kb * st + k) * n)).take n).foldr (fun b x => b.toNat + 256 * x) 0
  ((List.range st).map row, c.scales.getD kb 0)

/-- What one k-step reads: rows of A, their scales, rows of metadata, k-rows of B and their scale. -/
structure StepData where
  a : List Nat
  sa : List Nat
  md : List Nat
  b : List Nat
  sb : Nat
  deriving DecidableEq, Repr

/-- The reads of one k-step (R178). -/
def State.readStep (s : State) (j : Job) (chunk : Nat) : State × JobRes StepData :=
  let d := j.desc
  let st := j.step
  let rows := List.range (descM d)
  let aw := aRowBytes j.fmt st j.sparse
  jobThen (s.jobReads j 0 (rows.map (fun i => (chunk * descAStep d + i * descAPitch d + j.kb * aw, aw)))) fun s a =>
  jobThen (if j.sparse then
      s.jobReads j 4 (rows.map (fun i => (chunk * descMStep d + i * descMPitch d + j.kb * (st / 8), st / 8))) else (s, .ok []))
    fun s md =>
  jobThen (if fmtG j.fmt = 1 then
      s.jobReads j 2 (rows.map (fun i => (chunk * descSaStep d + i * descSaPitch d + 3 * j.kb, 3))) else (s, .ok []))
    fun s sa =>
  jobThen (match j.chunk with
      | some c => (s, .ok (c.block j j.kb))
      | none => s.readB j j.kb)
    fun s b => (s, .ok ⟨a, sa, md, b.1, b.2⟩)

/-! ## The update of one element (R77, R78) -/

/-- Element `k` of a row of packed elements of a code's width. -/
def rowElem (code row k : Nat) : Nat := row / 2 ^ (codeBits code * k) % 2 ^ codeBits code

/-- Where the kept elements of group `g` stand: bits of the metadata row (R175). -/
def metaPos (md g : Nat) : Nat × Nat := (md / 2 ^ (4 * g) % 4, md / 2 ^ (4 * g + 2) % 4)

/-- A metadata row in which a first position is not below the second. -/
def badMeta (md st : Nat) : Bool := (List.range (st / 4)).any (fun g => (metaPos md g).2 ≤ (metaPos md g).1)

/-- Which element of a sparse row element `k` of the expanded row is; none where it is elided. -/
def keptAt (md k : Nat) : Option Nat :=
  let p := metaPos md (k / 4)
  if k % 4 = p.1 then some (2 * (k / 4)) else if k % 4 = p.2 then some (2 * (k / 4) + 1) else none

/-- Is the value finite. -/
def FVal.isFinite : FVal → Bool
  | .fin _ _ _ => true
  | _ => false

/-- A product under both scales; a NaN or infinite scale spoils it. -/
def scaledProduct (a b sa sb : FVal) : Option FVal :=
  if sa.isFinite && sb.isFinite then ((exactMul a b).bind (exactMul sa)).bind (exactMul sb) else none

/-- The scaled sum of a step. An elided element counts as +0, unless some elided element meets a B that is infinite or
a NaN: then the kept products alone count (R78). -/
def stepSum (a : Nat → Option FVal) (b : Nat → FVal) (sa sb : FVal) (n : Nat) : SumParts :=
  let drop := (List.range n).any (fun k => (a k).isNone && !(b k).isFinite)
  (List.range n).foldl (fun acc k =>
    match a k with
    | some x => acc.add (scaledProduct x (b k) sa sb)
    | none => if drop then acc else acc.add (scaledProduct (.fin false 0 0) (b k) sa sb)) (.finite [])

/-- The scale 1 of granularity 0b00. -/
def unitScale : FVal := .fin false 1 0

/-- The scales of element (i, ·) in a step (R77). -/
def Job.scales (j : Job) (x : StepData) (i : Nat) : FVal × FVal :=
  if fmtG j.fmt = 1 then (bs24Val (x.sa.getD i 0), bs24Val x.sb)
  else if fmtG j.fmt = 2 then (bs24Val j.ts.1, bs24Val j.ts.2)
  else (unitScale, unitScale)

/-- The flush bits of a job. -/
def Job.flush (j : Job) : Flush := Flush.ofFmt (j.fmt.zeroExtend 64)

/-- The environment of the update of (i, j') at k-step t: under RSR the counter of R178. -/
def Job.env (j : Job) (i c : Nat) : RoundEnv :=
  ⟨rmOf (descBits j.desc 560 3), j.flush, false,
    draw24 (BitVec.ofNat 32 (descBits j.desc 672 32)) (BitVec.ofNat 32 (descBits j.desc 640 32)) (4096 * j.t + 64 * i + c)⟩

/-- Element `k` of A in a row of the step. -/
def Job.aElem (j : Job) (x : StepData) (i k : Nat) : Option Nat :=
  let row := x.a.getD i 0
  if j.sparse then (keptAt (x.md.getD i 0) k).map (rowElem (fmtA j.fmt) row) else some (rowElem (fmtA j.fmt) row k)

/-- The new value of an element of the accumulator, as the 32- or 64-bit value `old` (Table 3.10). A NaN element sets NV in
every floating format, also where it is quiet and the update is an Fma (DEDUCED, log 100: R77's list is of all rows). -/
def Job.update (j : Job) (x : StepData) (i c old : Nat) : Rounded :=
  let st := j.step
  let z := j.flush
  let bEl (k : Nat) : Nat := rowElem (fmtB j.fmt) (x.b.getD k 0) c
  match fmtOfCode (fmtA j.fmt), fmtOfCode (fmtB j.fmt) with
  | some fa, some fb =>
    let a (k : Nat) : Option FVal := (j.aElem x i k).map (readFloat z fa)
    let b (k : Nat) : FVal := readFloat z fb (bEl k)
    if fa = .fp32 ∨ fa = .fp64 then
      let r := fmaRounded fa (j.env i c) ((a 0).getD (.fin false 0 0)) (b 0) (readFloat z fa old)
      ⟨r.bits, r.flags ||| flagIf (((a 0).map FVal.isNaN).getD false || (b 0).isNaN) flagNV⟩
    else
      let sc := j.scales x i
      accumulate (j.env i c) (readFloat z .fp32 old) (stepSum a b sc.1 sc.2 st)
  | _, _ =>
    let term (k : Nat) : Int := signedOf 8 ((j.aElem x i k).getD 0) * signedOf 8 (bEl k)
    let v : Int := signedOf 32 old + (List.range st).foldl (fun acc k => acc + term k) 0
    if descBits j.desc 563 1 = 1 then
      let w : Int := max (-2 ^ 31) (min v (2 ^ 31 - 1))
      ⟨narrow 32 w, flagIf (w != v) flagSAT⟩
    else ⟨narrow 32 v, 0⟩

/-- Element (i, c) of the job in a tile (R176): tile and word. -/
def Job.cell (j : Job) (tile i c : Nat) : Nat × Nat :=
  if fmtA j.fmt = 7 then (tile + i / 32, 2 * (64 * (i % 32) + c)) else (tile, 64 * i + c)

/-- One element of the accumulator is updated. -/
def State.updateCell (s : State) (cl : Nat) (j : Job) (x : StepData) (tile i c : Nat) : State × Flags :=
  let p := j.cell tile i c
  if fmtA j.fmt = 7 then
    let r := j.update x i c (s.tileWord cl p.1 p.2 + s.tileWord cl p.1 (p.2 + 1) * 2 ^ 32)
    ((s.setTileWord cl p.1 p.2 (r.bits % 2 ^ 32)).setTileWord cl p.1 (p.2 + 1) (r.bits / 2 ^ 32), r.flags)
  else
    let r := j.update x i c (s.tileWord cl p.1 p.2)
    (s.setTileWord cl p.1 p.2 r.bits, r.flags)

/-- Every element of the job is updated; the flags are gathered. -/
def State.updateAll (s : State) (cl : Nat) (j : Job) (x : StepData) (tile : Nat) : State × Flags :=
  let one (acc : State × Flags) (p : Nat) : State × Flags :=
    let r := acc.1.updateCell cl j x tile (p / descN j.desc) (p % descN j.desc)
    (r.1, acc.2 ||| r.2)
  (List.range (descM j.desc * descN j.desc)).foldl one (s, 0)

/-! ## Ring steps (R179, R180) -/

/-- The chunk of the job's ring step. -/
def Job.chunkNo (j : Job) : Nat := (jobChunks j.ring j.desc).getD j.r 0

/-- The ring steps of a job; 1 without a ring. -/
def Job.steps (j : Job) : Nat := match j.ring with | none => 1 | some _ => descRsteps j.desc

/-- The cluster of a ring position. -/
def State.ringCluster (s : State) (g : RingInfo) (pos : Nat) : Nat :=
  ((s.gangs.find? (fun k => k.id == g.gang)).map (·.cluster0)).getD 0 + pos % g.len

/-- Does a chunk belong to the ring job. -/
def Chunk.isFor (c : Chunk) (g : RingInfo) : Bool := c.gang == g.gang && c.nth == g.nth

/-- The member's own chunk, read from memory (R179). DESIGN CHOICE (log 117): it is read whole as ring step 0 begins, from where
it is forwarded too, so a fault in any of its rows stops the job there; R180 does not say when a member reads its chunk. -/
def State.ownChunk (s : State) (j : Job) (g : RingInfo) : State × JobRes Chunk :=
  let d := j.desc
  let n := bRowBytes d j.fmt
  let blocks := descK d / 128
  jobThen (s.jobReads j 1 ((List.range (descK d)).map (fun k => (k * descBPitch d, n)))) fun s rows =>
  jobThen (if fmtG j.fmt = 1 then s.jobReads j 3 ((List.range blocks).map (fun b => (3 * b, 3))) else (s, .ok [])) fun s sc =>
    (s, .ok ⟨g.nth, g.gang, g.pos, g.pos, descK d, descN d, fmtA j.fmt, fmtB j.fmt, descRsteps d,
      rows.flatMap (fun r => bytesOf r n), sc⟩)

/-- A chunk whose K, N, FA, FB or RSTEPS differs from the job's. -/
def Chunk.mismatch (c : Chunk) (j : Job) : Bool :=
  !(c.k == descK j.desc && c.n == descN j.desc && c.fa == fmtA j.fmt && c.fb == fmtB j.fmt && c.rsteps == descRsteps j.desc)

/-- The chunk of the step is forwarded to the next position, while a further step needs it. -/
def State.forward (s : State) (g : RingInfo) (c : Chunk) : State :=
  let m := s.matrixEng (s.ringCluster g (g.pos + 1))
  s.setEng { m with inbound := m.inbound ++ [{ c with sender := g.pos }] }

/-- Has the next position a buffer for a chunk. -/
def State.ringRoom (s : State) (g : RingInfo) : Bool :=
  let m := s.matrixEng (s.ringCluster g (g.pos + 1))
  m.buffers.length + m.inbound.length < 2

/-- A ring step begins: its chunk is at hand, and goes on to the next member. -/
def State.beginStep (s : State) (cl : Nat) (j : Job) (g : RingInfo) : State × JobRes Job :=
  if j.r + 1 < j.steps && !s.ringRoom g then (s, .wait)
  else
    let go (u : State) (c : Chunk) : State × JobRes Job :=
      (if j.r + 1 < j.steps then u.forward g c else u, .ok { j with chunk := some c })
    if j.r = 0 then jobThen (s.ownChunk j g) go
    else
      let m := s.matrixEng cl
      match m.buffers.find? (fun c => c.isFor g) with
      | none => (s, .wait)
      | some c =>
        if c.mismatch j then (s, .fault ⟨1, 5, 0⟩)
        else go (s.setEng { m with buffers := m.buffers.erase c }) c

/-- RING_CHUNK_ARRIVAL (R180): the oldest chunk on the link enters a free ring buffer. A chunk whose receiving job has
ended already stays there (DESIGN CHOICE, log 94). -/
def execRingChunkArrival (cl : Nat) (s : State) : Out :=
  .next (
    let m := s.matrixEng cl
    match m.inbound with
    | [] => s
    | c :: rest => if m.buffers.length < 2 && !m.evicted then s.setEng { m with inbound := rest, buffers := m.buffers ++ [c] } else s)

/-! ## Jobs (R178, R184) -/

/-- %tinfo0 and %tinfo1 of MATRIXOPERAND behind the port (Table 7.9). -/
def JobErr.info (e : JobErr) (id : Nat) : Word × Word :=
  (if e.kind = 4 ∨ e.kind = 5 ∨ e.kind = 6 then 0 else wordOf e.off,
    wordOf (id % 2 ^ 48 + e.operand % 16 * 2 ^ 48 + e.kind % 8 * 2 ^ 52 + 2 ^ 63))

/-- A job is suspended at its k-step boundary; JOB_FAULT tells its owner. -/
def State.suspend (s : State) (cl : Nat) (j : Job) (e : JobErr) : State :=
  s.setJob cl j { j with state := .suspended, fault := some (e.info j.id) }

/-- The per-tensor scales, read once as the job begins. -/
def State.tensorScales (s : State) (j : Job) : State × JobRes (Nat × Nat) :=
  if fmtG j.fmt = 2 then jobThen (s.jobRead j 5 0 6) fun s x => (s, .ok (x % 2 ^ 24, x / 2 ^ 24)) else (s, .ok (0, 0))

/-- JOB_BEGIN (R178): a queued job that the order permits begins, or goes on after a fault or a spill. -/
def execJobBegin (cl id : Nat) (s : State) : Out :=
  .next (s.onJob cl id fun j =>
    if j.state ≠ .queued ∨ j.fin.isSome ∨ s.clusterStopped cl ∨ !(s.matrixEng cl).permitted (.job j) then s
    else if j.begun then s.setJob cl j { j with state := .running }
    else
      match s.tensorScales j with
      | (s1, .wait) => s1
      | (s1, .fault e) => s1.suspend cl j e
      | (s1, .ok ts) =>
        let s2 := if descBits j.desc 564 1 = 1 then (jobTiles j.ring j.desc j.fmt j.base).foldl (fun u t => u.clearTile cl t) s1
          else s1
        s2.setJob cl j { j with state := .running, begun := true, ts := ts })

/-- A k-step boundary: the counters go on, and after the last step the job has ended OK. -/
def Job.nextStep (j : Job) (fl : Flags) : Job :=
  let u := { j with t := j.t + 1, flags := j.flags ||| fl, state := .running }
  if (j.kb + 1) * j.step < descK j.desc then { u with kb := j.kb + 1 }
  else if j.r + 1 < j.steps then { u with kb := 0, r := j.r + 1, chunk := none }
  else { u with kb := j.kb + 1, chunk := none, fin := some .ok }

/-- One k-step: every read first, then every update (R178). DESIGN CHOICE (log 126): the operands are read in the k-step itself,
where Table 7.11 allows any time from issue until it ends. -/
def State.runStep (s : State) (cl : Nat) (j j1 : Job) : State :=
  let c := j1.chunkNo
  match s.readStep j1 c with
  | (s1, .wait) => s1.setJob cl j j1
  | (s1, .fault e) => s1.setJob cl j { j1 with state := .suspended, fault := some (e.info j.id) }
  | (s1, .ok x) =>
    if j1.sparse && x.md.any (fun m => badMeta m j1.step) then
      s1.setJob cl j { j1 with state := .suspended, fault := some ((JobErr.mk 4 4 0).info j.id) }
    else
      match s1.updateAll cl j1 x (j1.base + c * descTstep j1.desc) with
      | (s2, fl) => s2.setJob cl j (j1.nextStep fl)

/-- Does the job's ring step need its chunk yet: a ring job's first k-step of a step, unless it never forwards. -/
def Job.needsChunk (j : Job) : Bool := j.ring.isSome && j.kb == 0 && j.chunk.isNone && (j.r != 0 || 1 < j.steps)

/-- JOB_KSTEP (R178): a running job takes one k-step; a ring job first begins its step, and waits for its chunk. -/
def execJobKstep (cl id : Nat) (s : State) : Out :=
  .next (s.onJob cl id fun j =>
    if (j.state ≠ .running ∧ j.state ≠ .waitChunk) ∨ j.fin.isSome ∨ s.clusterStopped cl then s
    else
      match j.ring with
      | some g =>
        if j.needsChunk then
          match s.beginStep cl j g with
          | (s1, .wait) =>
            if j.r ≠ 0 ∧ !(((s1.matrixEng cl).buffers.any (fun c => c.isFor g))) then
              s1.setJob cl j { j with state := .waitChunk }
            else s1
          | (s1, .fault e) => s1.suspend cl j e
          | (s1, .ok j1) => s1.runStep cl j { j1 with state := .running }
        else s.runStep cl j j
      | none => s.runStep cl j j)

/-! ## The end of a job (R182) -/

/-- The status code (Table 7.7). -/
def JobStatus.code : JobStatus → Nat
  | .ok => 0 | .fault => 1 | .killed => 2 | .cancelled => 3 | .broken => 4 | .timeout => 5 | .dead => 6

/-- The completion record (Table 7.7). -/
def Job.record (j : Job) (st : JobStatus) : Nat :=
  st.code + j.flags.toNat * 2 ^ 8 + j.t % 2 ^ 32 * 2 ^ 16 + j.id % 2 ^ 48 * 2 ^ 64

/-- The store-fault record of a completion that failed, for an owner that has not retired (R182). What lies beyond the
stack scratchpad is dropped alone (R230). -/
def State.completionFault (s : State) (j : Job) (r : Ref) (c : Cause) : State :=
  if c ≠ .scratchBound ∧ ((s.thread? j.key).map Thread.live).getD false then
    s.storeFault (coreIndex j.view) j.key 0 (r.seg.base.toNat + r.off) 16 true c
  else s

/-- The write of the record, and whether it is made: a parking condition holds it, and the engine stalls (R292). -/
def State.writeRecord (s : State) (j : Job) (st : JobStatus) : State × Bool :=
  match j.refs.find? (fun r => r.1 == 6) with
  | none => (s, true)
  | some (_, r) =>
    match s.engWriteWhole 2 (coreIndex r.view) r.view r.seg r.off 16 (j.record st) needW with
    | (s1, .ok) => (s1, true)
    | (s1, .park) => (s1, false)
    | (s1, .fault c) => (s1.completionFault j r c, true)

/-- The arrival at the completion barrier. -/
def State.arriveJob (s : State) (j : Job) (st : JobStatus) : State :=
  match j.refs.find? (fun r => r.1 == 7) with
  | none => s
  | some (_, r) => s.arrive ⟨r, some st.code, st != .ok, false, 2, some j.key⟩

/-- Threads parked in MWAIT for the job wake. -/
def State.wakeJob (s : State) (cl id : Nat) : State :=
  ((s.threads.filter (fun t => t.view.cluster == cl && t.wait == .job id)).map (·.key)).foldl State.wake s

/-- JOB_COMPLETION (R182): the record, then the arrival; then the job is gone, its waiters wake, and a retired crew
returns its tiles. What an eviction has saved waits for the restore (R260). -/
def execJobCompletion (cl id : Nat) (s : State) : Out :=
  .next (s.onJob cl id fun j =>
    match j.fin with
    | none => s
    | some st =>
      if (s.matrixEng cl).evicted then s
      else
      match s.writeRecord j st with
      | (s1, false) => s1
      | (s1, true) => (((s1.arriveJob j st).dropOp cl (.job j)).wakeJob cl id).returnTiles cl)

/-! ## Faults (R184) -/

/-- Does a drain stand behind the job in tile order, through whatever lies between (R184). -/
def drainBehind (key : ThreadKey) : List MatrixOp → List Nat → Option MatrixOp
  | [], _ => none
  | o :: os, ts =>
    if o.tiles.any (fun t => ts.contains t) then
      match o with
      | .drain d => if d.key = key then some o else drainBehind key os (ts ++ o.tiles)
      | _ => drainBehind key os (ts ++ o.tiles)
    else drainBehind key os ts

/-- A fault of the engine is queued for its owner; an owner parked for the job, or in a drain behind it, wakes. -/
def State.tellOwner (s : State) (cl : Nat) (j : Job) (f : Cause × Word × Word) : State :=
  let s1 := s.modThread j.key (fun t => { t with mfaults := t.mfaults ++ [f] })
  let m := s1.matrixEng cl
  let after := (m.ops.dropWhile (fun o => o != .job j)).drop 1
  match s1.thread? j.key with
  | none => s1
  | some t =>
    match t.wait with
    | .job _ => s1.wake j.key
    | .engine _ =>
      match drainBehind j.key after (MatrixOp.tiles (.job j)) with
      | some o => (s1.dropOp cl o).wake j.key
      | none => s1
    | _ => s1

/-- JOB_FAULT (R184): a suspended job's fault becomes known to its owner; with no owner left the job ends. What an eviction has
saved waits for the restore (R260). -/
def execJobFault (cl id : Nat) (s : State) : Out :=
  .next (s.onJob cl id fun j =>
    match j.fault with
    | none => s
    | some (i0, i1) =>
      if (s.matrixEng cl).evicted then s
      else
      let j1 := { j with fault := none }
      if ((s.thread? j.key).map Thread.live).getD false then (s.setJob cl j j1).tellOwner cl j1 (.matrixOperand, i0, i1)
      else s.setJob cl j { j1 with fin := match j.fin with | some x => some x | none => some .fault })

/-! ## The gang watchdog (R181) -/

/-- An engine's current ring job of a gang: the oldest that has not ended. -/
def MatrixEng.ringJob? (m : MatrixEng) (gang : Nat) : Option Job :=
  m.ops.findSome? (fun o => match o with
    | .job j => if (j.ring.map (·.gang)) == some gang && j.fin.isNone then some j else none
    | _ => none)

/-- Is the count paused: an owner of a member's current ring job is in trap service or Spilled. -/
def State.ringPaused (s : State) (g : RingInfo) : Bool :=
  s.matrix.any (fun m => match m.ringJob? g.gang with
    | some j => ((s.thread? j.key).map (fun t => t.hstate || t.status == .spilled)).getD false
    | none => false)

/-- RING_WATCHDOG_EXPIRY (R181): the count of a job that waits for a chunk reaches its limit. A chunk that has arrived has
reset the count, and none is counted in a stopped stack (R358). -/
def execRingWatchdogExpiry (cl id : Nat) (s : State) : Out :=
  .next (s.onJob cl id fun j =>
    match j.ring with
    | none => s
    | some g =>
      if j.state ≠ .waitChunk ∨ j.fin.isSome ∨ s.ringPaused g ∨ s.clusterStopped cl ∨
          (s.matrixEng cl).buffers.any (fun c => c.isFor g) then s
      else
        match (s.gangs.find? (fun k => k.id == g.gang)).bind (fun k => k.failed.map (fun p => (k.cluster0 + p, p))) with
        | some (fc, p) =>
          let j1 := { j with fin := some .broken }
          (s.setJob cl j j1).tellOwner cl j1
            (.gangBroken, wordOf (tileCode fc + stackOf fc * 2 ^ 8 + p * 2 ^ 16), wordOf j.id)
        | none =>
          let j1 := { j with fin := some .timeout }
          (s.setJob cl j j1).tellOwner cl j1
            (.gangTimeout, wordOf ((g.pos + g.len - 1) % g.len * 2 ^ 16), wordOf j.id))

/-! ## MDRAIN (R185, R79) -/

/-- The flush bits of a drain. -/
def DrainJob.flush (d : DrainJob) : Flush := Flush.ofFmt (d.fmt.zeroExtend 64)

/-- The environment of the conversion of element (i, c). -/
def DrainJob.env (d : DrainJob) (i c : Nat) : RoundEnv :=
  ⟨d.rm, d.flush, drainSat d.ctl, if d.rm = .rsr then draw24 d.srctr d.srkey (64 * i + c) else 0⟩

/-- Element (i, c) of the tile under SRC, as an INT32 or a floating value. -/
def State.drainElem (s : State) (cl : Nat) (d : DrainJob) (i c : Nat) : Nat :=
  if drainSrc d.ctl = 2 then
    let t := d.tile + i / 32
    let w := 2 * (64 * (i % 32) + c)
    s.tileWord cl t w + s.tileWord cl t (w + 1) * 2 ^ 32
  else s.tileWord cl d.tile (64 * i + c)

/-- The conversion of an element (R68, R69, R185). -/
def DrainJob.convert (d : DrainJob) (i c x : Nat) : Rounded :=
  let env := d.env i c
  if drainSrc d.ctl = 1 then
    let v := signedOf 32 x
    match fmtOfCode (drainFmt d.ctl) with
    | some f => roundTo f env (intVal v)
    | none =>
      if drainSat d.ctl then
        let w : Int := max (-128) (min v 127)
        ⟨narrow 8 w, flagIf (w != v) flagSAT⟩
      else ⟨narrow 8 v, 0⟩
  else
    let v := readFloat d.flush (if drainSrc d.ctl = 2 then .fp64 else .fp32) x
    match fmtOfCode (drainFmt d.ctl) with
    | some f => roundTo f env v
    | none =>
      let r := toIntResult 8 false (drainSat d.ctl) env v
      ⟨narrow 8 r.1, r.2⟩

/-- Row i of the destination. -/
def State.drainRow (s : State) (cl : Nat) (d : DrainJob) (i : Nat) : Nat :=
  let w := codeBits (drainFmt d.ctl)
  (List.range (drainCols d.ctl)).foldl (fun x c => x + (d.convert i c (s.drainElem cl d i c)).bits % 2 ^ w * 2 ^ (w * c)) 0

/-- The lines of a range of the issuer's core go back to their homes before the engine writes them: the issuer sees
what a drain writes (R189). -/
def State.giveUpRange (s : State) (v : View) (g : Seg) (off n : Nat) : State :=
  if g.isDram then
    (rangePieces 128 (g.base.toNat + off) n).foldl (fun u p =>
      match u.locate v g (off + p.1) needNone false with
      | .ok x => u.giveUpLine (coreIndex v) (lineAt x)
      | _ => u) s
  else s

/-- The rows from the drain's own on; the rows written, and what stopped it. -/
def State.drainGo (s : State) (cl : Nat) (d : DrainJob) (i : Nat) : Nat → State × Nat × EngRes
  | 0 => (s, i, .ok)
  | n + 1 =>
    let v := d.dst.view
    let off := d.dst.off + i * drainPitch d.ctl
    let bytes := drainRowBytes d.ctl
    match (s.giveUpRange v d.dst.seg off bytes).engWrite 2 (coreIndex v) v d.dst.seg off bytes (s.drainRow cl d i) with
    | (s1, .ok) => s1.drainGo cl d (i + 1) n
    | (s1, r) => (s1, i, r)

/-- The bin of an FP32 element (R79). -/
def histBin (x : Nat) : Nat :=
  let e := x / 2 ^ 23 % 256
  if e = 0 then 0 else if e = 255 then 31 else if e < 112 then 1 else min (e - 111) 31

/-- The count of a bin over the drained elements. -/
def State.histCount (s : State) (cl : Nat) (d : DrainJob) (b : Nat) : Nat :=
  let n := drainCols d.ctl
  ((List.range (drainRows d.ctl * n)).filter (fun p => histBin (s.drainElem cl d (p / n) (p % n)) == b)).length

/-- The offset of the first piece of an engine's write that is not written: the failing access (Table 7.9). -/
def State.failsAt (s : State) (v : View) (g : Seg) (off n : Nat) (need : Need) : Nat :=
  off + (((rangePieces 128 (g.base.toNat + off) n).find? (fun p => (s.engWritable 2 v g (off + p.1) need).2.1 != .ok)).map
    (·.1)).getD 0

/-- The counts are added to the record, each counter saturating: whole or not at all, by the checks of its pieces; a
poisoned counter is an engine fault (R301). With a failure comes the offset of the failing access. -/
def State.addHist (s : State) (cl : Nat) (d : DrainJob) : State × EngRes × Nat :=
  let v := d.dst.view
  let g := d.dst.seg
  let off := drainRecord d.ctl
  let s1 := s.giveUpRange v g off 128
  match s1.engRead 2 (coreIndex v) v g off 128 with
  | (s2, .ok, x) =>
    let sum (y b : Nat) : Nat := y + min (x / 2 ^ (32 * b) % 2 ^ 32 + s.histCount cl d b) 0xFFFF_FFFF * 2 ^ (32 * b)
    match s2.engWriteWhole 2 (coreIndex v) v g off 128 ((List.range 32).foldl sum 0) needRW with
    | (s3, r) => (s3, r, s3.failsAt v g off 128 needRW)
  | r => r

/-- The flags of every conversion. -/
def State.drainFlags (s : State) (cl : Nat) (d : DrainJob) : Flags :=
  let n := drainCols d.ctl
  (List.range (drainRows d.ctl * n)).foldl (fun f p => f ||| (d.convert (p / n) (p % n) (s.drainElem cl d (p / n) (p % n))).flags) 0

/-- A drain that failed traps its thread at the unit (R185). -/
def State.drainFails (s : State) (cl : Nat) (d : DrainJob) (operand off : Nat) (c : Cause) : State :=
  let i := (JobErr.mk operand (c.kind false) off).info 0
  (s.dropOp cl (.drain d)).wakeTrap d.key .matrixOperand i.1 i.2

/-- Where row `i` of a drain fails or is held back. -/
def State.rowFailsAt (s : State) (d : DrainJob) (i : Nat) : Nat :=
  s.failsAt d.dst.view d.dst.seg (d.dst.off + i * drainPitch d.ctl) (drainRowBytes d.ctl) needW

/-- A drain that a page holds back before its row `i`, or within it: it has begun writing once a piece of it is written
(R92). -/
def State.drainHeld (s : State) (d : DrainJob) (i : Nat) : DrainJob :=
  { d with row := i, begun := d.begun || Nat.blt 0 i || Nat.blt (d.dst.off + i * drainPitch d.ctl) (s.rowFailsAt d i) }

/-- A drain has been performed: flags, the counter under RSR, and the thread wakes. -/
def State.drainEnds (s : State) (cl : Nat) (d : DrainJob) : State :=
  let fl := s.drainFlags cl d
  let up (t : Thread) : Thread :=
    if t.live then
      let u := t.raise fl
      if d.rm = .rsr then { u with srctr := u.srctr + 4096 } else u
    else t
  ((s.dropOp cl (.drain d)).modThread d.key up).wakeWith d.key 0

/-- MDRAIN_PERFORM (R185): in tile order, the rows, then the histogram. -/
def execMdrainPerform (cl id : Nat) (s : State) : Out :=
  .next (
    let m := s.matrixEng cl
    let hit (o : MatrixOp) : Bool := match o with
      | .drain d => d.id == id
      | _ => false
    match m.ops.find? hit with
    | some (.drain d) =>
      if !m.permitted (.drain d) || s.clusterStopped cl then s
      else
        match s.drainGo cl d d.row (drainRows d.ctl - d.row) with
        | (s1, i, .fault c) => s1.drainFails cl d 6 (s1.rowFailsAt d i) c
        | (s1, i, .park) => s1.setOp cl (.drain d) (.drain (s1.drainHeld d i))
        | (s1, i, .ok) =>
          if drainHist d.ctl then
            match s1.addHist cl d with
            | (s2, .ok, _) => s2.drainEnds cl d
            | (s2, .park, _) => s2.setOp cl (.drain d) (.drain { d with row := i, begun := true })
            | (s2, .fault c, at_) => s2.drainFails cl d 7 at_ c
          else s1.drainEnds cl d
    | _ => s)

/-! ## Failure of an engine (R188) -/

/-- What becomes of each operation of an engine that failed: jobs end DEAD, a drain's thread issues it afresh (and
traps), a load arrives with a fault, and the clears and releases go. -/
def State.failOp (s : State) (o : MatrixOp) : State :=
  match o with
  | .drain d => s.wake d.key
  | .load _ _ _ _ bar pos => s.arrive ⟨bar, some (4 * pos), true, false, 2, none⟩
  | .job _ | .clear _ _ | .zero _ _ | .release _ _ => s

/-- The owners of the jobs of an engine, each with its oldest job's number. -/
def ownersOf : List MatrixOp → List (ThreadKey × Nat)
  | [] => []
  | .job j :: os => (j.key, j.id) :: (ownersOf os).filter (fun p => p.1 != j.key)
  | _ :: os => ownersOf os

/-- A matrix engine fails and is retired, for good: its jobs end DEAD, and their owners are told (R188). -/
def State.failMatrix (s : State) (cl : Nat) : State :=
  let m := s.matrixEng cl
  let u := (3, stackOf cl, tileCode cl)
  if m.retired then s
  else
    let dead (o : MatrixOp) : Option MatrixOp := match o with
      | .job j => some (.job { j with fin := some .dead, fault := none })
      | _ => none
    let s0 := { s with retiredUnits := if s.retiredUnits.contains u then s.retiredUnits else s.retiredUnits ++ [u] }
    let s1 := s0.setEng { m with ops := m.ops.filterMap dead, retired := true }
    let s2 := m.ops.foldl State.failOp s1
    let tell (u : State) (p : ThreadKey × Nat) : State :=
      let i := (JobErr.mk 0 6 0).info p.2
      let u1 := u.modThread p.1 (fun t => if t.live then { t with mfaults := t.mfaults ++ [(.matrixOperand, i.1, i.2)] } else t)
      match u.thread? p.1 with
      | some t => (match t.wait with | .job _ => u1.wake p.1 | _ => u1)
      | none => u1
    let s3 := (ownersOf m.ops).foldl tell s2
    (s3.crews.filter (fun c => c.cluster == cl)).foldl (fun u c => u.gangLoss (c.serial, c.n)) s3

/-- MATRIX_ENGINE_FAILURE (R188). -/
def execMatrixEngineFailure (cl : Nat) (s : State) : Out := .next (s.failMatrix cl)

end Sys2Proof.Machine
end

