-- ==== Sys2Proof/Machine/Spill.lean ====
section
/-! DEFINITION. Pre-emption (spec/11, R257 to R260; spec/01, R37; spec/07, R187): spilling and refilling a slot,
evicting and restoring a cluster, and the layouts of their save areas. -/

namespace Sys2Proof.Machine

open Sys2Proof

/-! ## The slot save area (Tables 11.9 to 11.11) -/

/-- One range with its full/empty bits copied. -/
def State.copyOut (s : State) (x y n : Nat) : State :=
  let bits := (List.range (n / 8)).map (fun i => s.isFull (wordAt x + i))
  let s1 := s.poke y n (s.peek x n)
  (List.range (n / 8)).foldl (fun u i => u.setFull (wordAt y + i) (bits.getD i true)) s1

/-- The machine registers in the order of Table 11.9. -/
def savedMRegs : List MReg :=
  [.tid, .nthr, .cx, .cy, .stage, .ncx, .ncy, .nstage, .pkt, .args, .fmt0, .fmt1, .fmt2, .fmt3, .scl0, .scl1, .scl2, .scl3,
    .flags, .srkey, .srctr, .tvec, .tpc, .tcause, .tinfo0, .tinfo1, .rcto, .inbox]

/-- The begun job of a thread, whose cursor and tiles a spill saves. -/
def State.spilledJob (s : State) (t : Thread) : Option Job :=
  (s.matrixEng t.view.cluster).ops.findSome? (fun o => match o with
    | .job j => if j.key = t.key ∧ j.begun ∧ j.fin.isNone then some j else none
    | _ => none)

/-- The base tile that a job writes at its step. -/
def Job.tileNow (j : Job) : Nat := j.base + j.chunkNo * descTstep j.desc

/-- The job cursor, the descriptor read at issue, and the tiles of the job (R187). -/
def State.saveJob (s : State) (cl area : Nat) (j : Job) : State :=
  let s1 := s.saveList area 0x0500 [j.id, j.r, j.t, j.state.code, j.tileNow]
  let s2 := s1.poke (area + 0x0580) 128 j.desc.toNat
  let s3 := s2.poke (area + 0x8000) 16384 (s2.peek (tileLoc cl j.tileNow 0) 16384)
  if fmtA j.fmt = 7 then s3.poke (area + 0xC000) 16384 (s3.peek (tileLoc cl (j.tileNow + 1) 0) 16384) else s3

/-- The tiles of a job come back from the save area (R187). -/
def State.loadJob (s : State) (cl area : Nat) (j : Job) : State :=
  let s1 := s.poke (tileLoc cl j.tileNow 0) 16384 (s.peek (area + 0x8000) 16384)
  if fmtA j.fmt = 7 then s1.poke (tileLoc cl (j.tileNow + 1) 0) 16384 (s1.peek (area + 0xC000) 16384) else s1

/-- The save area of a thread is written. -/
def State.writeArea (s : State) (t : Thread) : State :=
  let a := t.area
  let at_ : State := { s with thr := t }
  let job := s.spilledJob t
  let clk := ((s.dies.toList.getD (stackOf t.view.cluster) StackSt.reset).clk).toNat
  let s1 := s.saveList a 0 [t.saveHead job.isSome, clk, min t.pending.length 48 + t.view.slot % 8 * 2 ^ 16 +
    t.view.core % 4 * 2 ^ 19, 0, 0, 0, 0, 0]
  let s2 := s1.saveList a 0x0040 (t.g.toList.map BitVec.toNat)
  let s3 := s2.poke (a + 0x0240) 16 ((List.range 8).foldl (fun x i => x + (t.rp (BitVec.ofNat 3 i)).toNat * 2 ^ (16 * i)) 0)
  let s4 := (List.range 8).foldl (fun u i => u.poke (a + 0x0280 + 32 * i) 32
    (let g := t.seg (BitVec.ofNat 3 i); if g.space = 0 then 0 else entryOfSeg g)) s3
  let s5 := s4.saveList a 0x0380 (savedMRegs.map (fun m => (at_.readM m).toNat))
  let s6 := s5.saveList a 0x0480 [(s.savedWait t).1, (s.savedWait t).2, s.requestOperand t.key, (t.grant.getD 0).toNat]
  let s7 := (List.range 32).foldl (fun u i => u.poke (a + 0x0800 + 64 * i) 64 (t.rv (BitVec.ofNat 5 i)).toNat) s6
  let s8 := s7.savePending a 0x1000 (t.pending.take 48)
  let s9 := s8.copyOut (laneLoc (coreIndex t.view) t.view.slot 0) (a + 0x4000) 8192
  match job with
  | none => s9
  | some j => s9.saveJob t.view.cluster a j

/-! ## Spill (R257) -/

/-- Is a save area well placed: aligned to `size`, and its granules in DRAM frames of the island. -/
def State.areaOk (s : State) (isl area size grans : Nat) : Bool :=
  let ten := ((s.island? isl).map (·.tenant)).getD 0
  area % size == 0 && area + grans * 65536 ≤ dramTop &&
    (List.range grans).all (fun i => (s.frame (granuleAt area + i)).owner == ten)

/-- Does a thread wait for its slot to be taken. -/
def Thread.canSpill (t : Thread) : Bool := t.live && !t.isHandler && t.status != .spilled

/-- The jobs of a thread as the spill engine leaves them (R187); one that a fault has suspended stays so. -/
def Job.preempt (j : Job) : Job :=
  if j.fin.isSome || j.state == .suspended then j else { j with state := .preempted }

/-- The jobs of a thread go on after its refill. -/
def Job.resume (j : Job) : Job := if j.state = .preempted then { j with state := .queued } else j

/-- The jobs of a thread changed. -/
def State.mapJobs (s : State) (t : Thread) (f : Job → Job) : State :=
  let m := s.matrixEng t.view.cluster
  let upd (o : MatrixOp) : MatrixOp := match o with
    | .job j => if j.key = t.key then .job (f j) else o
    | _ => o
  if m.ops.isEmpty then s else s.setEng { m with ops := m.ops.map upd }

/-- Has every pending entry arrived or faulted, an LDS in a word's list apart, and with it what the port holds for it (log
113). -/
def Thread.settled (t : Thread) : Bool :=
  !t.pending.any (fun e => e.wait == .far || (e.wait == .port && !t.pending.any (fun f =>
    f.wait == .listed && decide (f.access < e.access))))

/-- The state of a thread as the spill engine records it: what it has found to have failed is taken at the first issue after
refill, under R35 (R37), and a Stalled thread waits nowhere. -/
def Thread.spill (t : Thread) : Thread :=
  let note (e : Pend) : Pend := match e.wait with
    | .value => { e with arrived := true }
    | .fault _ _ _ | .park _ _ => e.know
    | .atomic | .listed | .far | .port => e
  { t with
    status := .spilled
    spilling := false
    wait := if t.waitsNowhere then .none else t.wait
    pending := t.pending.map note }

/-- The spill engine of a core is at work on another slot (R257). -/
def State.spillBusy (s : State) (t : Thread) : Bool :=
  s.threads.any (fun u => u.spilling && u.key != t.key && coreIndex u.view == coreIndex t.view)

/-- SPILL_SAVE (R257): once every pending entry has arrived or faulted, the save area is written and the slot is free. -/
def execSpillSave (k : ThreadKey) (s : State) : Out :=
  .next (match s.thread? k with
    | none => s
    | some t =>
      if !t.spilling || !t.canSpill || !t.settled then s
      else
        let s1 := s.performMsgs (fun m => m.key == k && m.op.answers)
        match s1.thread? k with
        | none => s1
        | some t1 =>
          let s2 := (s1.mapJobs t1 Job.preempt).modThread k Thread.spill
          match s2.thread? k with
          | none => s2
          | some t2 => s2.writeArea t2)

/-- SPILL_SLOT (R257): the slot issues no further unit, once its core's spill engine is at hand; the command completes when
the thread is Spilled. -/
def execSpillSlot (h : CmdHeader) (k : ThreadKey) (area : Nat) (s : State) : Out :=
  .next (s.islandCommand h 12 fun u i =>
    match u.thread? k with
    | none => u.refuse
    | some t =>
      if t.view.island != i.num || !t.live || t.isHandler then u.refuse
      else if t.status = .spilled then u.ok
      else if t.spilling || u.spillBusy t then .retry u
      else if !u.areaOk i.num area 65536 1 then u.refuse
      else .retry (u.modThread k (fun x => { x with spilling := true, area := area })))

/-! ## Refill (R257) -/

/-- Is the slot of a spilled thread free. -/
def State.slotFree (s : State) (t : Thread) : Bool := (s.freeSlots (coreIndex t.view)).contains t.view.slot

/-- The thread goes back to its slot: Parked or Ready, with its lane memory and its jobs. -/
def State.refill (s : State) (t : Thread) : State :=
  let back (u : Thread) : Thread :=
    if u.woken || u.wait = .none then { u with status := .ready, wait := .none, woken := false }
    else { u with status := .parked }
  let lane := laneLoc (coreIndex t.view) t.view.slot 0
  let s1 := (s.clearRange lane 8192).copyOut (t.area + 0x4000) lane 8192
  let s2 := match s1.spilledJob t with
    | some j => s1.loadJob t.view.cluster t.area j
    | none => s1
  (s2.mapJobs t Job.resume).modThread t.key back

/-- REFILL_SLOT (R257): it waits until the slot is free. -/
def execRefillSlot (h : CmdHeader) (k : ThreadKey) (s : State) : Out :=
  .next (s.islandCommand h 12 fun u i =>
    match u.thread? k with
    | none => u.refuse
    | some t =>
      if t.view.island != i.num || t.status != .spilled then u.refuse
      else if u.slotFree t && !(u.matrixEng t.view.cluster).evicted && !u.spillBusy t then (u.refill t).ok
      else .retry u)

/-! ## Eviction of a cluster (R260) -/

/-- Does anything of a cluster still run: a thread in its slot, a copy, a reply still to land, a job that has ended and
not yet told so. -/
def State.clusterBusy (s : State) (cl : Nat) : Bool :=
  let ends (o : MatrixOp) : Bool := match o with
    | .job j => j.fin.isSome
    | .clear _ _ | .zero _ _ | .release _ _ | .load .. | .drain _ => false
  (s.matrixEng cl).ops.any ends || s.threads.any (fun t => t.view.cluster == cl && t.canSpill) || s.kicks cl != 0 ||
    s.calls.any (fun c => c.live && c.core / 4 == cl)

/-- The header of a ring buffer: full, ring job, position, chunk, K, N, FA, FB, RSTEPS (Table 11.12). DESIGN CHOICE (log
104): each is a doubleword, the ring job is its number with the gang from bit 32, and the count of scales follows. -/
def Chunk.header (c : Chunk) : List Nat :=
  [1, c.nth + c.gang * 2 ^ 32, c.sender, c.chunk, c.k, c.n, c.fa, c.fb, c.rsteps, c.scales.length]

/-- The bytes of a chunk, with its scales after them. -/
def Chunk.payload (c : Chunk) : List Byte := c.bytes ++ c.scales.flatMap (fun x => bytesOf x 3)

/-- Ring buffer `b` in the save area, written. -/
def State.saveBuffer (s : State) (area b : Nat) (c : Option Chunk) : State :=
  match c with
  | some c => State.saveList { s with mem := memWriteList s.mem (area + 0xC0000 + b * 0x8000) c.payload } area (0xE0100 + b * 80) c.header
  | none => s.saveList area (0xE0100 + b * 80) [0]

/-- Ring buffer `b` as the save area holds it. -/
def State.loadBuffer (s : State) (area b : Nat) : Option Chunk :=
  let h (i : Nat) : Nat := s.peek (area + 0xE0100 + b * 80 + 8 * i) 8
  let n := (h 4 * h 5 * codeBits (h 7) + 7) / 8
  let p := area + 0xC0000 + b * 0x8000
  if h 0 = 0 then none
  else some ⟨h 1 % 2 ^ 32, h 1 / 2 ^ 32, h 2, h 3, h 4, h 5, h 6, h 7, h 8, memList s.mem p n,
    (List.range (h 9)).map (fun i => s.peek (p + n + 3 * i) 3)⟩

/-- The number of an operation of the queue and its tile; a job's ring step, k-step and state are its cursor, and of a load
or a drain the words or rows done are kept (DESIGN CHOICE, log 104: the codes 6 to 8 of operations that are no jobs). -/
def MatrixOp.cursor : MatrixOp → List Nat
  | .job j => [j.id, j.r, j.t, j.state.code, j.base]
  | .load id tile _ _ _ pos => [id, 0, pos, 6, tile]
  | .drain d => [d.id, 0, d.row, 7, d.tile]
  | .zero id tile => [id, 0, 0, 8, tile]
  | .clear id tile | .release id tile => [id, 0, 0, 0, tile]

/-- One entry of the queue in the save area: cursor and state, and the descriptor of a job. -/
def State.saveEntry (s : State) (at_ : Nat) (o : MatrixOp) : State :=
  let s1 := s.saveList at_ 0 o.cursor
  match o with
  | .job j => s1.poke (at_ + 0x80) 128 j.desc.toNat
  | .load .. | .drain _ | .zero _ _ | .clear _ _ | .release _ _ => s1

/-- The job state of a code (Table 7.8). -/
def jobStateOf (n : Nat) : JobState :=
  if n = 2 then .running else if n = 3 then .waitChunk else if n = 4 then .suspended else if n = 5 then .preempted else .queued

/-- An operation takes its cursor and state, and a job its descriptor, back from its entry. -/
def State.loadEntry (s : State) (at_ : Nat) (o : MatrixOp) : MatrixOp :=
  let w (i : Nat) : Nat := s.peek (at_ + 8 * i) 8
  match o with
  | .job j =>
    let d : BitVec 1024 := BitVec.ofNat 1024 (s.peek (at_ + 0x80) 128)
    let per := descK d / max 1 j.step
    .job { j with r := w 1, t := w 2, kb := w 2 - w 1 * per, state := jobStateOf (w 3), desc := d }
  | .load id tile key src bar _ => .load id tile key src bar (w 2)
  | .drain d => .drain { d with row := w 2 }
  | .zero _ _ | .clear _ _ | .release _ _ => o

/-- Has an operation an entry of the queue (R165). -/
def MatrixOp.isEntry : MatrixOp → Bool
  | .job _ | .zero _ _ | .load .. | .drain _ => true
  | .clear _ _ | .release _ _ => false

/-- The entries of the queue are saved from the `n`-th on; those that are free hold zeros. -/
def State.saveQueue (s : State) (at_ : Nat) : Nat → List MatrixOp → State
  | n, [] => (List.range' n (16 - n)).foldl (fun u k => u.saveList (at_ + k * 4096) 0 [0, 0, 0, 0, 0]) s
  | n, o :: os => if o.isEntry then (s.saveEntry (at_ + n * 4096) o).saveQueue at_ (n + 1) os else s.saveQueue at_ n os

/-- The saved entry of an operation, by its number and what it is: another may have left the queue since. -/
def State.entryOf (s : State) (at_ : Nat) (o : MatrixOp) : Option Nat :=
  let code : Nat := o.cursor.getD 3 0
  (List.range 16).find? (fun n => s.peek (at_ + n * 4096) 8 == o.id &&
    (s.peek (at_ + n * 4096 + 24) 8 == code || (code < 6 && s.peek (at_ + n * 4096 + 24) 8 < 6)))

/-- The queue with the entries that were saved. -/
def State.loadQueue (s : State) (at_ : Nat) (ops : List MatrixOp) : List MatrixOp :=
  ops.map (fun o => if o.isEntry then
      match s.entryOf at_ o with
      | some n => s.loadEntry (at_ + n * 4096) o
      | none => o
    else o)

/-- The cluster save area is written (Table 11.12). -/
def State.writeCluster (s : State) (cl area : Nat) : State :=
  let m := s.matrixEng cl
  let s1 := (List.range 4).foldl (fun u c => u.copyOut (spadLoc (4 * cl + c) 0) (area + c * 0x20000) 131072) s
  let s2 := (List.range 16).foldl (fun u t => u.poke (area + 0x80000 + t * 16384) 16384 (u.peek (tileLoc cl t 0) 16384)) s1
  let owner (t : Nat) : List Nat := match m.owners.find? (fun o => o.1 == t) with
    | some o => [o.2.1, o.2.2]
    | none => [0, 0]
  let s3 := (s2.saveQueue (area + 0xD0000) 0 m.ops).saveList area 0xE0000 ((List.range 16).flatMap owner)
  (s3.saveBuffer area 0 m.buffers[0]?).saveBuffer area 1 m.buffers[1]?

/-- The engine of a cluster as its save area holds it, less the tiles that a crew has returned since (R87). -/
def State.loadEngine (s : State) (m : MatrixEng) (area : Nat) : MatrixEng :=
  let own (t : Nat) : Option (Nat × Nat × Nat) :=
    let serial := s.peek (area + 0xE0000 + 16 * t) 8
    let o := (t, serial, s.peek (area + 0xE0008 + 16 * t) 8)
    if m.owners.contains o then some o else none
  { m with
    owners := (List.range 16).filterMap own
    ops := s.loadQueue (area + 0xD0000) m.ops
    buffers := (List.range 2).filterMap (s.loadBuffer area)
    evicted := false }

/-- Is a thread the one that its core's spill engine takes next: the first in its core that can be spilled, while the
engine is at no other (R257). -/
def State.nextSpill (s : State) (t : Thread) : Bool :=
  !s.spillBusy t &&
    ((s.threads.find? (fun u => u.canSpill && coreIndex u.view == coreIndex t.view)).map (·.key)) == some t.key

/-- EVICT_CLUSTER (R260): no further work is accepted; the threads of the cluster spill, each to an area above the
cluster's; when all is done, the cluster save area is written. -/
def execEvictCluster (h : CmdHeader) (cl area : Nat) (s : State) : Out :=
  .next (s.islandCommand h 12 fun u i =>
    if !(Shape.tiles i.shape).contains cl || !u.areaOk i.num area (2 ^ 20) 48 then u.refuse
    else
      let u1 := u.setEng { u.matrixEng cl with evicted := true }
      let start (t : Thread) : Thread :=
        if t.view.cluster = cl ∧ t.canSpill ∧ !t.spilling ∧ u1.nextSpill t then
          { t with spilling := true, area := area + 2 ^ 20 + 65536 * (8 * t.view.core + t.view.slot) }
        else t
      if u1.clusterBusy cl then .retry (u1.mapThreads start) else (u1.writeCluster cl area).ok)

/-- RESTORE_CLUSTER (R260): the save area is written back: scratchpads, tiles, ring buffers, queue and ownership; work is
accepted again. -/
def execRestoreCluster (h : CmdHeader) (cl area : Nat) (s : State) : Out :=
  .next (s.islandCommand h 12 fun u i =>
    let m := u.matrixEng cl
    if !(Shape.tiles i.shape).contains cl || !m.evicted || !u.areaOk i.num area (2 ^ 20) 16 then u.refuse
    else
      let u1 := (List.range 4).foldl (fun w c => w.copyOut (area + c * 0x20000) (spadLoc (4 * cl + c) 0) 131072) u
      let u2 := (List.range 16).foldl (fun w t => w.poke (tileLoc cl t 0) 16384 (w.peek (area + 0x80000 + t * 16384) 16384)) u1
      (u2.setEng (u2.loadEngine m area)).ok)

end Sys2Proof.Machine
end

