-- ==== Sys2Proof/Machine/Device.lean ====
section
/-! DEFINITION. The device (spec/21, R353 to R361): boot and firmware images, telemetry, limits, background work, wear,
and the loss of power. -/

namespace Sys2Proof.Machine

open Sys2Proof

/-! ## Verification and boot (R353) -/

/-- Does an image pass the checks of R353 on a stack. -/
def verifies (stack : Nat) (img : Image) : Bool :=
  Config.signatureValid img && img.key == Config.fusedKey stack && Config.fusedMin stack ≤ img.version

/-- Does a slot hold an image that passes. -/
def Slot.verifies (stack : Nat) (sl : Slot) : Bool := (sl.image.map (Machine.verifies stack)).getD false

/-- One slot of a stack: A when false, B when true. -/
def StackSt.slot (d : StackSt) (b : Bool) : Slot := if b then d.slotB else d.slotA

/-- A slot written. -/
def StackSt.setSlot (d : StackSt) (b : Bool) (sl : Slot) : StackSt := if b then { d with slotB := sl } else { d with slotA := sl }

/-- The slot written most recently. -/
def StackSt.latest (d : StackSt) : Bool := d.slotA.seq < d.slotB.seq

/-- A stack runs a slot's image. -/
def StackSt.run (d : StackSt) (b : Bool) : StackSt := { d with boot := .running b, image := (d.slot b).image }

/-- Steps 1 and 2 of Table 21.1, on a stack that has just left reset; step 3 begins with 3 fetches. -/
def StackSt.bootSteps (d : StackSt) (stack : Nat) : StackSt :=
  let b := d.latest
  if (d.slot b).verifies stack then d.run b
  else if (d.slot (!b)).verifies stack then d.run (!b)
  else { d with boot := .fetching 3 b }

/-- What a stack keeps without power: its image slots. -/
def StackSt.cold (d : StackSt) : StackSt := { StackSt.reset with slotA := d.slotA, slotB := d.slotB }

/-- The module with nothing but what it keeps without power: image slots, wear, retired units and what they withdraw, a
shutdown still to be reported; the moves to come and the free values go on. -/
def State.cold (s : State) : State :=
  { State.reset with
    dies := s.dies.map StackSt.cold
    wear := s.wear
    retiredUnits := s.retiredUnits
    withdrawn := s.withdrawn
    tripped := s.tripped
    agenda := s.agenda
    turn := s.turn
    free := s.free
    draw := s.draw
    resetPlan := s.resetPlan }

/-- One stack changed. -/
def State.modDie (s : State) (stack : Nat) (f : StackSt → StackSt) : State :=
  { s with dies := Vector.ofFn (fun (j : Fin 4) => if j.val = stack then f s.dies[j] else s.dies[j]) }

/-- A stack whose delay has ended leaves reset. -/
def StackSt.leave (d : StackSt) (stack : Nat) : StackSt := if d.delay = 0 then d.bootSteps stack else d

/-- A stack leaves reset after a delay of its own (R356): it verifies and runs a slot, or begins to fetch. -/
def StackSt.start (d : StackSt) (stack delay : Nat) : StackSt :=
  if delay = 0 then d.bootSteps stack else { d with delay := delay }

/-- The configuration of the module's eight ports. -/
def portsOf (ports : List Port) : List Port := if ports.length = 8 then ports else State.reset.ports

/-- MODULE_RESET (R353, R356): every stack leaves reset, the `j`-th after `resetPlan.delays[j]` rounds. The resident service has
assigned the module identifier (R309) and the ports' addresses (R308), and reports a shutdown by hardware (R357). -/
def execModuleReset (s : State) : Out :=
  let c := s.cold
  let p := s.resetPlan
  .next { c with dies := Vector.ofFn (fun (j : Fin 4) => c.dies[j].start j.val (p.delays.getD j.val 0))
                 moduleId := p.id
                 ports := portsOf p.ports
                 svcReports := (s.tripped.map SvcReport.shutdown).toList
                 tripped := none }

/-- POWER_LOSS (R354). -/
def execPowerLoss (s : State) : Out := .next { s.cold with off := true }

/-- Step 3 of Table 21.1 for one image. -/
def StackSt.fetched (d : StackSt) (stack : Nat) (img : Image) : StackSt :=
  match d.boot with
  | .fetching left b =>
    if verifies stack img then (d.setSlot b ⟨some img, (d.slot (!b)).seq + 1⟩).run b
    else if left ≤ 1 then { d with boot := .recovery }
    else { d with boot := .fetching (left - 1) b }
  | .off | .running _ | .recovery => d

/-- Is a stack in recovery state. -/
def State.inRecovery (s : State) (stack : Nat) : Bool := (s.dies.toList.getD stack StackSt.reset).boot == .recovery

/-- RECOVERY_FETCH (R353); a stack that enters recovery state reports it over the service network (step 4). -/
def execRecoveryFetch (stack : Nat) (img : Image) (s : State) : Out :=
  let s1 := s.modDie stack (fun d => d.fetched stack img)
  .next (if s.off then s
    else if s1.inRecovery stack && !s.inRecovery stack then { s1 with svcReports := s1.svcReports ++ [.recovery stack] }
    else s1)

/-- A running stack's slot that the running image does not come from, changed by the slot that it does come from. -/
def StackSt.otherSlot (d : StackSt) (f : Slot → Slot) : StackSt :=
  match d.boot with
  | .running b => d.setSlot (!b) (f (d.slot b))
  | .off | .fetching _ _ | .recovery => d

/-- Does an image pass on every stack that runs. -/
def State.imageVerifies (s : State) (img : Image) : Bool :=
  (List.range 4).all (fun j => match (s.dies.toList.getD j StackSt.reset).boot with
    | .running _ => verifies j img
    | .off | .fetching _ _ | .recovery => true)

/-- Does every stack that runs stand in a list. -/
def State.imageWritten (s : State) (l : List Nat) : Bool :=
  (List.range 4).all (fun j => match (s.dies.toList.getD j StackSt.reset).boot with
    | .running _ => l.contains j
    | .off | .fetching _ _ | .recovery => true)

/-- LOADIMG (R354): an image that passes on every stack that runs is written to the slot that its running image does not
come from: first no such slot holds anything whole, and then, stack by stack, the image. It is complete once every stack that
runs has been written. A second LOADIMG waits for the first. -/
def execLoadimg (h : CmdHeader) (stack : Nat) (img : Image) (s : State) : Out :=
  .next (s.command h 1 [] fun u =>
    if !u.imageVerifies img then u.refuse
    else
      match u.imageLoad with
      | none =>
        .retry { u with imageLoad := some ⟨h.conn, h.seq, img, []⟩, dies := u.dies.map (fun d => d.otherSlot (fun _ => ⟨none, 0⟩)) }
      | some l =>
        if l = ⟨h.conn, h.seq, img, l.written⟩ then
          let w := setAdd l.written stack
          let u1 := u.modDie stack (fun d => d.otherSlot (fun o => ⟨some img, o.seq + 1⟩))
          if u1.imageWritten w then State.ok { u1 with imageLoad := none }
          else .retry { u1 with imageLoad := some { l with written := w } }
        else .retry u)

/-! ## Telemetry (R355, R356, R360, R361) -/

/-- EOL (R361): 0 at a margin of 8,192 or below, whatever the drift. -/
def Wear.eol (w : Wear) : Nat :=
  if w.margin ≤ 8192 then 0
  else if w.drift ≥ 0 then 0xFFFF_FFFF
  else (w.margin - 8192) * 1000 / w.drift.natAbs

/-- A wear record (Table 21.3). -/
def Wear.bytes (w : Wear) : List Byte :=
  bytesOf (w.kind % 16 + w.stack % 4 * 2 ^ 4 + w.unit % 128 * 2 ^ 6 + w.margin % 65536 * 2 ^ 16 +
    (BitVec.ofInt 32 w.drift).toNat * 2 ^ 32 + Wear.eol w % 2 ^ 32 * 2 ^ 64 + w.hours % 2 ^ 32 * 2 ^ 96) 32

/-- The units that have a wear record, by kind, stack and unit: seams, shafts, slices and matrix engines (R360). -/
def wearUnits : List (Nat × Nat × Nat) :=
  (List.range 64).map (fun n => (0, n / 16, n % 16)) ++
    [1, 2, 3].flatMap (fun k => (List.range 384).map (fun cl => (k, stackOf cl, tileCode cl)))

/-- The record of a unit; one that has not been measured yet stands at the margin of manufacture (DESIGN CHOICE, log
103). -/
def State.wearOf (s : State) (u : Nat × Nat × Nat) : Wear :=
  (s.wear.find? (fun w => (w.kind, w.stack, w.unit) == u)).getD ⟨u.1, u.2.1, u.2.2, 65535, 0, 0⟩

/-- One record for every unit (R360). -/
def State.wearRecords (s : State) : List Wear := wearUnits.map s.wearOf

/-- The module's predicted end of life: the least EOL over all records (R361). -/
def State.endOfLife (s : State) : Nat := (s.wearRecords.map Wear.eol).foldl min 0xFFFF_FFFF

/-- A unit is measured: its record takes the place of the one before. -/
def State.measure (s : State) (w : Wear) : State :=
  if wearUnits.contains (w.kind, w.stack, w.unit) then
    { s with wear := w :: s.wear.filter (fun k => (k.kind, k.stack, k.unit) != (w.kind, w.stack, w.unit)) }
  else s

/-- A %clk sample with the resident service's local time (R356). -/
def State.clockBytes (s : State) (stack : Nat) : List Byte :=
  bytesOf ((s.dies.toList.getD stack StackSt.reset).clk).toNat 8 ++ bytesOf (Config.localTime (s.free + stack)).toNat 8

/-- The attestation report (R355): digest, slot, version, fused minimum, stack, module identifier, nonce, and the signature
of all of them. -/
def State.report (s : State) (stack : Nat) (nonce : BitVec 256) : List Byte :=
  let d := s.dies.toList.getD stack StackSt.reset
  let img := d.image.getD ⟨0, 0, 0, false, 0⟩
  let slot := match d.boot with
    | .running true => 1
    | _ => 0
  let body := bytesOf img.digest.toNat 32 ++ bytesOf slot 8 ++ bytesOf img.version 8 ++ bytesOf (Config.fusedMin stack) 8 ++
    bytesOf stack 8 ++ bytesOf s.moduleId.toNat 8 ++ bytesOf nonce.toNat 32
  body ++ bytesOf (Config.attest stack body) 29792

/-- TELEMETRY: wear records, with what the service cores have measured since; clocks; an attestation report; counters. -/
def execTelemetry (h : CmdHeader) (q : Telemetry) (s : State) : Out :=
  .next (s.command h 14 [] fun u =>
    match q with
    | .wear l => let v := l.foldl State.measure u; .done v stOk (v.wearRecords.flatMap Wear.bytes)
    | .clocks => .done { u with free := u.free + 4 } stOk ((List.range 4).flatMap u.clockBytes)
    | .attest stack nonce =>
      match (u.dies.toList.getD stack StackSt.reset).boot with
      | .running _ => .done u stOk (u.report stack nonce)
      | .off | .fetching _ _ | .recovery => u.refuse
    | .counters => .done u stOk (bytesOf u.dropped 8))

/-! ## Limits (R357, R358) -/

/-- One step down, to no less than 0.9 GHz. -/
def StackSt.slower (d : StackSt) : StackSt := { d with mhz := max 900 (d.mhz - 100) }

/-- What the sensing of a stack does to it (Table 21.2): one clock step at most, whatever limits are passed. -/
def StackSt.sense (d : StackSt) (x : Sensors) : StackSt :=
  let d1 := if x.overCurrent || 100 < x.baseTemp || x.overPower then d.slower else d
  { d1 with
    stopped := if 110 < x.baseTemp then true else if x.baseTemp < 100 then false else d.stopped
    hot := x.hotSeams
    coolTicks := if x.cool then d.coolTicks + 1 else 0 }

/-- LIMIT_SENSE (R357): too much module power slows every stack; a die above 120 degrees shuts the module down, which is
reported on the next boot. -/
def execLimitSense (stack : Nat) (x : Sensors) (s : State) : Out :=
  .next (
    if s.off then s
    else if 120 < x.maxTemp then { s.cold with off := true, tripped := some stack }
    else
      let others (j : Fin 4) : StackSt :=
        if j.val = stack then s.dies[j].sense x else if x.overPower then s.dies[j].slower else s.dies[j]
      { s with dies := Vector.ofFn others })

/-- CLOCK_STEP_UP (R357): 100 MHz up, after 100 sensings of 10 µs below the limits. -/
def execClockStepUp (stack : Nat) (s : State) : Out :=
  .next (s.modDie stack (fun d => if 100 ≤ d.coolTicks then { d with mhz := min 1800 (d.mhz + 100) } else d))

/-! ## Background work, links, wear -/

/-- PATROL_SCRUB (R359): a corrected word is rewritten with its own value; one found uncorrectable is poisoned, and the
resident service is told its location. -/
def execPatrolScrub (loc : Nat) (bad : Bool) (s : State) : Out :=
  .next (if bad then { s with poison := setAdd s.poison (wordAt loc), svcReports := s.svcReports ++ [.poisoned (8 * wordAt loc)] }
    else s)

/-- CALIBRATION (R359): timing only. -/
def execCalibration (_lane : Nat) (s : State) : Out := .next s

/-- REFRESH (R206): timing only. -/
def execRefresh (_seam : Nat) (s : State) : Out := .next s

/-- LINK_FAILURE (R307): the link's traffic takes the other way round. -/
def execLinkFailure (link : Nat) (s : State) : Out := .next { s with linksDown := setAdd s.linksDown link }

/-- A retired slice gives up its ways: its lines and the stack-scratchpad bytes that it held leave it, and its tile is
withdrawn (R361). -/
def State.retireSlice (s : State) (cl : Nat) : State :=
  State.wipe { s with homeDirty := s.homeDirty.filter (fun l => clusterOver (128 * l) != cl)
                      replicas := s.replicas.filter (fun r => r.1 != cl)
                      withdrawn := setAdd s.withdrawn cl } (wayLoc cl 0 0) (2 ^ 22)

/-- UNIT_RETIREMENT (R361): a unit is measured, and at a margin of 8,192 or below retired; a matrix engine is retired under
R188. -/
def execUnitRetirement (w : Wear) (s : State) : Out :=
  let u := (w.kind, w.stack, w.unit)
  .next (
    let s1 := s.measure w
    if !wearUnits.contains u || 8192 < w.margin || s.retiredUnits.contains u then s1
    else
      let s2 := { s1 with retiredUnits := s1.retiredUnits ++ [u] }
      if w.kind = 3 then s2.failMatrix (clusterOfTile w.stack w.unit)
      else if w.kind = 2 then s2.retireSlice (clusterOfTile w.stack w.unit)
      else s2)

end Sys2Proof.Machine
end

