-- ==== Sys2Proof/Machine/Fabric.lean ====
section
/-! DEFINITION. The fabric (spec/14, R308 to R311; spec/08, R195 to R197): what a far message does at this module, and
the far accesses of this module that get no answer. -/

namespace Sys2Proof.Machine

open Sys2Proof

/-! ## Duplicates (R311) -/

/-- Has the message been accepted within the last 2^20 messages of its source core. -/
def State.farDuplicate (s : State) (m c n : Nat) : Bool := s.farSeen.contains (m, c, n)

/-- A message is accepted; the last 2^20 of a source core are kept. -/
def State.farAccept (s : State) (m c n : Nat) : State :=
  let same (p : Nat × Nat × Nat) : Bool := p.1 == m && p.2.1 == c
  { s with farSeen := (m, c, n) :: ((s.farSeen.filter same).take (2 ^ 20 - 1) ++ s.farSeen.filter (fun p => !same p)) }

/-! ## Far accesses at this module (R310) -/

/-- The place of a device virtual address in the target island, checked against it; a parking condition holds the message
back. -/
def State.farPlace (s : State) (i : Island) (va : Nat) (n : Need) (load : Bool) : State × XRes :=
  if badAddress va then (s, .deny)
  else
    match s.locate i.view wholeSeg va n load with
    | .service l e => (s.serviceFault i.view 3 va l e, .park)
    | r => (s, r)

/-- The module is recorded as one that has fetched a granule; more than 64 stand for "fetched by all" (R310). -/
def State.noteFetch (s : State) (gr module : Nat) : State :=
  let l := ((s.farFetch.find? (fun f => f.1 == gr)).map (·.2)).getD []
  if l.contains module || 64 < l.length then s
  else { s with farFetch := (gr, l ++ [module]) :: s.farFetch.filter (fun f => f.1 != gr) }

/-- An operation at memory for a far module: at the stope engine, unless the granule is frozen or the word poisoned. -/
def State.farOp (s : State) (x : Loc) (bytes : Nat) (op : MemOp) (a b : BitVec 128) : State :=
  if s.isFrozen x || (op.answers && s.poisoned x bytes) then s else (s.applyAt x bytes op a b).1

/-- A call from a far module: it is routed like one of the island's own, with bit 63 of its caller word set (R194), and its
reply goes back over the fabric. -/
def State.farCall (s : State) (i : Island) (va entry : Nat) (payload : List Word) (caller : Word) : State :=
  let c : Call := ⟨s.nextId, 0, 4 * 384, 0, (0, 0), i.num, wholeSeg, va, i.view, 0, entry, none, payload,
    caller ||| 0x8000_0000_0000_0000, false, none, none, .sent, false, none⟩
  match State.routeCall { s with nextId := s.nextId + 1 } c with
  | (s1, c1) => { s1 with calls := s1.calls ++ [c1] }

/-- A reply from a far module reaches this one; REPLY_ARRIVAL lands it. -/
def State.farReply (s : State) (id : Nat) (status : BitVec 8) (vals : List Word) : State :=
  match s.call? id with
  | none => s
  | some c => if c.target.space = spFar then s.setCall { c with stage := .replying, reply := some (status, vals.length, vals) } else s

/-- An access through a place, once it is not held back by a page, nor, where a stope engine performs it, by the stop of the
engine's stack (R357). -/
def State.farAt (s : State) (i : Island) (va : Nat) (n : Need) (load engine : Bool) (k : State → Loc → State) : State × Bool :=
  match s.farPlace i va n load with
  | (s1, .ok x) => if engine && s1.bankStopped x then (s1, false) else (k s1 x, true)
  | (s1, .park) => (s1, false)
  | (s1, _) => (s1, true)

/-- A granule of a copy from a far module is written at its place; under .F its word becomes full, and the requests in its
list are served (R310, R139). -/
def State.farPush (s : State) (x : Loc) (data : Word) (feSet : Bool) : State :=
  if s.isFrozen x then s
  else
    let s1 := ((s.stopeLine (lineAt x)).unpoison x 8).poke x 8 data.toNat
    if feSet then s1.changeFull (wordAt x) true else s1

/-- An invalidation by the owner's THAW: the fetched lines of the granule that came by the far-module entry go from every
cache of the island (R202). -/
def State.farDrop (s : State) (i : Island) (fmod granule : Nat) : State :=
  { s with farLines := s.farLines.filter (fun l => !(l.island == i.num && l.fmod == fmod && l.line / 512 == granule)) }

/-- A part of a halo layer of a linked field comes from the far neighbour of its face, by the neighbour's module and island
(R281). -/
def State.farHalo (s : State) (i : Island) (module : Nat) (num face sweep phase first : Nat) (vals : List Nat) : State :=
  let entry := ((s.field? i.num num).bind (·.link)).bind (fun l => l.faces.getD face none)
  match entry.bind (fun n => i.far.find? (fun e => e.idx == n)) with
  | none => s
  | some e => if e.module = module then s.takeHalo i.num num ⟨face, sweep, phase, first, vals⟩ else s

/-- What a request does, and whether it is done: not while a page holds it back. A message carries at most 4 KiB (R308). -/
def State.farServe (s : State) (i : Island) (module : Nat) : FarReq → State × Bool
  | .load va size => s.farAt i va needR true false fun u x =>
      if u.isFrozen x && !u.poisoned x size && size ≤ 4096 then u.noteFetch (pieceAt x) module else u
  | .atom op uns va bytes a => s.farAt i va needRW false true fun u x => u.farOp x bytes (.atom op uns) (a.zeroExtend 128) 0
  | .cas va bytes e n => s.farAt i va needRW false true fun u x => u.farOp x bytes (if bytes = 16 then .cas2 else .cas) e n
  | .red op uns va bytes a => s.farAt i va needW false true fun u x => u.farOp x bytes (.red op uns) (a.zeroExtend 128) 0
  | .fadd rm fmt va bytes a => s.farAt i va needW false true fun u x =>
      u.farOp x bytes (.fadd rm (Flush.ofFmt (fmt.zeroExtend 64))) (a.zeroExtend 128) 0
  | .push va data feSet => s.farAt i va (if feSet then needRW else needW) false false fun u x => u.farPush x data feSet
  | .call va entry payload caller => (s.farCall i va entry payload caller, true)
  | .reply id status vals => (s.farReply id status vals, true)
  | .halo num face sweep phase first vals => (s.farHalo i module num face sweep phase first vals, true)
  | .invalidate fmod granule => (s.farDrop i fmod granule, true)
  | .unsupported => ({ s with dropped := s.dropped + 1 }, true)

/-- FAR_MESSAGE_ARRIVAL (R310, R311): a packet of an unsupported kind is dropped and counted, and is no message that the
module accepts; a duplicate is discarded. -/
def execFarMessageArrival (module core num island : Nat) (req : FarReq) (s : State) : Out :=
  .next (
    if req = .unsupported then { s with dropped := s.dropped + 1 }
    else if s.farDuplicate module core num then s
    else
      match s.island? island with
      | none => s
      | some i => match s.farServe i module req with
        | (s1, true) => s1.farAccept module core num
        | (s1, false) => s1)

/-! ## No answer (R310) -/

/-- A far access gets no answer (R310): a load or an atomic fails as OWNER, a reduction makes a
record with cause OWNER unless its thread has ended (R92), and a copy stops. -/
def State.farTimeout (s : State) (m : FarMsg) : State :=
  let rest := { s with farOut := s.farOut.erase m }
  match m.entry, m.copy with
  | some i, _ =>
    match (s.thread? m.key).bind (fun t => t.pending.find? (fun e => e.seq == i)) with
    | some e => s.farFailure m.key e
    | none => rest
  | none, some id =>
    match s.copies.find? (fun c => c.id == id) with
    | some c => rest.endCopy c (8 * c.pos) true
    | none => rest
  | none, none => rest.lateFault m.core m.key m.pc m.va (2 ^ m.logSize) true .owner

/-- FAR_ACCESS_TIMEOUT (R310): no cycles pass in a stopped stack (R358). -/
def execFarAccessTimeout (core num : Nat) (s : State) : Out :=
  .next (match s.farOut.find? (fun m => m.core == core && m.num == num) with
    | none => s
    | some m => if s.stackStopped (stackOf (core / 4)) then s else s.farTimeout m)

end Sys2Proof.Machine
end

