-- ==== Sys2Proof/Machine/Atomic.lean ====
section
/-! DEFINITION. ATOM, CAS, CAS2 and RED (spec/05, R128 to R131): at the port or home slice for scratchpads, by message
to the stope engine for DRAM, over the fabric for far memory. -/

namespace Sys2Proof.Machine

open Sys2Proof

/-- The pending entries of an atomic: one, or two of one access for CAS2 (low half first). -/
def Thread.atomEntries (t : Thread) (d : BitVec 6) (left bytes : Nat) (w : PendWait) (old : Nat) : Thread :=
  let t1 := t.addPend (.g d) left w (BitVec.ofNat 512 (old % 2 ^ 64)) fullMask 0
  if bytes = 16 then t1.addEntry t.accessNum false (.g (d + 1)) left w (BitVec.ofNat 512 (old / 2 ^ 64)) fullMask 0 else t1

/-- An atomic of a thread at its place `z`: by message to a stope engine, or where the port holds it for earlier accesses of
the thread or what stands before it (R235, R236, R239); else at once. -/
def State.atomicAt (s : State) (va bytes : Nat) (op : MemOp) (x y : BitVec 128) (z : Loc)
    (entry : State → PendWait → Nat → State) : State :=
  let c := coreIndex s.thr.view
  let s1 := if isDram z then s else s.portOpen c (s.item .atom [(z, bytes)])
  if isDram z || s1.thr.openBelow s1.thr.accessNum || !s1.portFree c (s1.item .atom [(z, bytes)]) then
    let m : MemMsg := ⟨s1.thr.key, s1.thr.view, z, bytes, op, x, y, some s1.thr.pendSeq, va, s1.thr.unitPc.toNat, s1.thr.accessNum,
      s1.portOrd⟩
    entry { s1 with msgs := s1.msgs ++ [m] } .atomic 0
  else if s1.poisoned z bytes then entry s1 (.fault .poison va false) 0
  else
    let r := s1.applyAt z bytes op x y
    entry r.1 .value r.2

/-- An atomic of a handler at its bank group (R190). -/
def State.atomicNear (s : State) (bytes : Nat) (op : MemOp) (x y : BitVec 128) (z : Loc)
    (entry : State → PendWait → Nat → State) : State :=
  if isDram z && s.isFrozen z then s.onThr (fun t => t.handlerFault .frozen)
  else if s.poisoned z bytes then s.onThr (fun t => t.handlerFault .poison)
  else
    let r := s.applyAt z bytes op x y
    entry r.1 .value r.2

/-- An atomic on `bytes` bytes with operands `x` and `y` (R128, R129). -/
def State.atomic (s : State) (sg : BitVec 3) (d a : BitVec 6) (la : BitVec 4) (bytes : Nat) (op : MemOp)
    (x y : BitVec 128) : State :=
  let off := (s.rg a).toNat
  let left := s.thr.lookahead la
  s.unless (firstTrap [s.accCheck sg off bytes bytes rightA .atomic, s.fieldCheck (s.thr.seg sg) off bytes]) fun s =>
    let g := s.thr.seg sg
    let va := g.base.toNat + off
    let entry (u : State) (w : PendWait) (old : Nat) : State := u.onThr fun t => (t.atomEntries d left bytes w old).advance
    if g.space = spFar then entry (s.farSend (some s.thr.pendSeq) va bytes g.fmod.toNat [] 0 s.thr.accessNum) .far 0
    else
      match s.place s.thr g off needRW false with
      | .ok z => if s.thr.isHandler then s.atomicNear bytes op x y z entry else s.atomicAt va bytes op x y z entry
      | .park => if s.thr.isHandler then s.stall else entry s (.park va false) 0
      | .service l e =>
        if s.thr.isHandler then (s.serviceFault s.thr.view 3 va l e).stall
        else entry (s.serviceFault s.thr.view 0 va l e) (.park va false) 0
      | r => if s.thr.isHandler then s.onThr (fun t => t.handlerFault r.cause) else entry s (.fault r.cause va false) 0

/-- The size of a word or doubleword operation. -/
def szBytes (sz : Sz) : Nat := if sz.isDbl then 8 else 4

/-- ATOM (R128). -/
def execAtom (_u : Bool) (la : BitVec 4) (sg : BitVec 3) (d a : BitVec 6) (op : AtomOp) (sz : Sz) (s : State) : Out :=
  .next (s.atomic sg d a la (szBytes sz) (.atom op sz.unsigned) ((s.rg d).zeroExtend 128) 0)

/-- CAS (R129): g[d] is compared, g[d+1] is the new value, d even. -/
def execCas (_u : Bool) (la : BitVec 4) (sg : BitVec 3) (d : BitVec 5) (a : BitVec 6) (dbl : Bool) (s : State) : Out :=
  let r : BitVec 6 := d.zeroExtend 6 <<< 1
  .next (s.atomic sg r a la (elemSize dbl) .cas ((s.rg r).zeroExtend 128) ((s.rg (r + 1)).zeroExtend 128))

/-- CAS2 (R129): g[d], g[d+1] are compared, g[d+2], g[d+3] the new value, d a multiple of 4. -/
def execCas2 (_u : Bool) (la : BitVec 4) (sg : BitVec 3) (d : BitVec 4) (a : BitVec 6) (s : State) : Out :=
  let r : BitVec 6 := d.zeroExtend 6 <<< 2
  .next (s.atomic sg r a la 16 .cas2 (s.rg (r + 1) ++ s.rg r) (s.rg (r + 3) ++ s.rg (r + 2)))

/-- A reduction (R130): sent to its place of performance, where it takes its order; its faults are records. It issues
whatever loads are open, and the port holds it for them (R236). -/
def State.reduce (s : State) (sg : BitVec 3) (a : BitVec 6) (bytes : Nat) (op : MemOp) (x : BitVec 128) : State :=
  let off := (s.rg a).toNat
  s.unless (firstTrap [s.accCheck sg off bytes bytes rightA .atomic, s.fieldCheck (s.thr.seg sg) off bytes]) fun s =>
    let g := s.thr.seg sg
    if g.space = spFar then (s.farSend none (g.base.toNat + off) bytes g.fmod.toNat [] 0 s.thr.pendSeq).finish
    else (s.sendStore g off bytes op x needW).finish

/-- RED (R130). -/
def execRed (_u : Bool) (sg : BitVec 3) (d a : BitVec 6) (op : RedOp) (sz : Sz) (s : State) : Out :=
  .next (s.reduce sg a (szBytes sz) (.red op sz.unsigned) ((s.rg d).zeroExtend 128))

/-- RED.FADD (R130): the flush bits are those of %fmt0 at issue. -/
def execRedFadd (_u : Bool) (rm : Rm) (sg : BitVec 3) (d a : BitVec 6) (dbl : Bool) (s : State) : Out :=
  .next (s.reduce sg a (elemSize dbl) (.fadd rm s.thr.flush) ((s.rg d).zeroExtend 128))

end Sys2Proof.Machine
end

