-- ==== Sys2Proof/Machine/Control.lean ====
section
/-! DEFINITION. Transfers of control (spec/04, R80 to R86). -/

namespace Sys2Proof.Machine

open Sys2Proof

/-- NOP (R81). -/
def execNop (_u : Bool) (s : State) : Out := .next s.finish

/-- Bit 0 of the predicate against n: is a CB branch taken (R82). -/
def Thread.taken (t : Thread) (p : BitVec 3) (n : Bool) : Bool := (t.rp p).getLsbD 0 != n

/-- BC (R82). -/
def execBc (_u : Bool) (p : BitVec 3) (n : Bool) (off : BitVec 20) (s : State) : Out :=
  .next (if s.thr.taken p n then s.transfer (s.thr.branchTarget off) id else s.finish)

/-- BZ (R83). -/
def execBz (_u : Bool) (a : BitVec 6) (off : BitVec 17) (s : State) : Out :=
  .next (if s.rg a = 0 then s.transfer (s.thr.branchTarget off) id else s.finish)

/-- BNZ (R83). -/
def execBnz (_u : Bool) (a : BitVec 6) (off : BitVec 17) (s : State) : Out :=
  .next (if s.rg a ≠ 0 then s.transfer (s.thr.branchTarget off) id else s.finish)

/-- LOOP (R84): a failed target check leaves g[a] as it was. -/
def execLoop (_u : Bool) (a : BitVec 6) (off : BitVec 17) (s : State) : Out :=
  let v := s.rg a - 1
  .next (if v ≠ 0 then s.transfer (s.thr.branchTarget off) (fun t => t.wg a v) else s.finishG a v)

/-- The return address of the unit, as g63 receives it (R80, R85). -/
def Thread.returnAddr (t : Thread) : Word := t.nextPc.zeroExtend 64

/-- CALL (R85). -/
def execCall (_u : Bool) (p : BitVec 3) (n : Bool) (off : BitVec 20) (s : State) : Out :=
  .next (if s.thr.taken p n then s.transfer (s.thr.branchTarget off) (fun t => t.wg 63 t.returnAddr) else s.finish)

/-- BI (R86). -/
def execBi (_u : Bool) (a : BitVec 6) (s : State) : Out := .next (s.transfer (s.rg a) id)

/-- CALLI (R86): g[a] is read before g63 is written. -/
def execCalli (_u : Bool) (a : BitVec 6) (s : State) : Out :=
  .next (s.transfer (s.rg a) (fun t => t.wg 63 t.returnAddr))

/-- RET (R86). -/
def execRet (_u : Bool) (a : BitVec 6) (s : State) : Out := .next (s.transfer (s.rg a) id)

end Sys2Proof.Machine
end

