-- ==== Sys2Proof/Machine/Transcend.lean ====
section
/-! DEFINITION. The approximate functions (spec/03, R71 to R73; spec/06, R156). The exact value is enclosed by
integer arithmetic with 256 fractional bits: a function answers ± (m + ε) × 2^e with 0 < ε < 1, or an exact value.
FP16 and BF16 results are correctly rounded. An FP32 or FP64 result is the constant of Config where it meets the
bound, and otherwise the correctly rounded value. -/

namespace Sys2Proof.Machine

open Sys2Proof

/-- Fractional bits of the enclosures. -/
def enclBits : Nat := 256

/-- 1 in fixed point. -/
def fixOne : Nat := 2 ^ enclBits

/-- ⌊π × 2^256⌋. -/
def fixPi : Nat := 363771576891766324280234942777729862653393377328392429958772151117938894466185

/-- ⌊ln 2 × 2^256⌋. -/
def fixLn2 : Nat := 80260960185991308862233904206310070533990667611589946606122867505419956976171

/-- ⌊2^256 / ln 2⌋. -/
def fixInvLn2 : Nat := 167052672916848388242985626561247531987276682633131050150846402744536260568207

/-- What the last places of an alternating series may be wrong by. -/
def fixSlack : Nat := 1024

/-- The product of two fixed-point numbers. -/
def fixMul (a b : Nat) : Nat := a * b / fixOne

/-- Σ t^n / n! from the term `term` of index `n`, at most `fuel` terms. -/
def expSeries (t : Nat) : Nat → Nat → Nat → Nat
  | 0, _, _ => 0
  | fuel + 1, n, term => term + expSeries t fuel (n + 1) (fixMul term t / (n + 1))

/-- 2^f for 0 ≤ f < 1, from below. -/
def fixExp2 (f : Nat) : Nat := expSeries (fixMul f fixLn2) 64 0 fixOne

/-- Σ s^(2k) / (2k + 1), the series of artanh(s) / s. -/
def artanhSeries (s2 : Nat) : Nat → Nat → Nat → Nat
  | 0, _, _ => 0
  | fuel + 1, k, pow => pow / (2 * k + 1) + artanhSeries s2 fuel (k + 1) (fixMul pow s2)

/-- Σ ± t2^k / (2k + a)! from the term of index k, the even terms minus the odd ones. -/
def altSeries (t2 a : Nat) : Nat → Nat → Nat → Int
  | 0, _, _ => 0
  | fuel + 1, k, term =>
    (if k % 2 = 0 then (term : Int) else -(term : Int)) +
      altSeries t2 a fuel (k + 1) (fixMul term t2 / ((2 * k + a + 1) * (2 * k + a + 2)))

/-- Σ t2^k / (2k + a)! from the term of index k. -/
def posSeries (t2 a : Nat) : Nat → Nat → Nat → Nat
  | 0, _, _ => 0
  | fuel + 1, k, term =>
    term + posSeries t2 a fuel (k + 1) (fixMul term t2 / ((2 * k + a + 1) * (2 * k + a + 2)))

/-- An enclosed value ± (m + ε) × 2^e, with ε = 0 when `exact`. -/
structure Encl where
  neg : Bool
  m : Nat
  e : Int
  exact : Bool
  deriving DecidableEq, Repr

/-- sin(π r / 2^d) for 0 < r / 2^d ≤ 1/4: r × g(r), so that a small argument keeps its relative precision. -/
def sinPiSmall (neg : Bool) (r d : Nat) : Encl :=
  let w := r * fixOne / 2 ^ d
  let t := fixMul w fixPi
  let g := (altSeries (fixMul t t) 1 48 0 fixOne).toNat
  ⟨neg, r * (fixMul g fixPi - fixSlack), -(d : Int) - (enclBits : Int), false⟩

/-- cos(π r / 2^d) for 0 ≤ r / 2^d ≤ 1/4. -/
def cosPiSmall (neg : Bool) (r d : Nat) : Encl :=
  let w := r * fixOne / 2 ^ d
  let t := fixMul w fixPi
  ⟨neg, (altSeries (fixMul t t) 0 48 0 fixOne).toNat - fixSlack, -(enclBits : Int), false⟩

/-- 2^x for x = ± m × 2^e, m ≠ 0. -/
def enclExp2 (neg : Bool) (m : Nat) (e : Int) : Encl :=
  if (Nat.log2 m : Int) + e ≥ 12 then ⟨false, 1, if neg then -4096 else 4096, false⟩
  else if e ≥ 0 then
    let n : Int := (m * 2 ^ e.toNat : Nat)
    ⟨false, 1, if neg then -n else n, true⟩
  else
    let d := (-e).toNat
    let n := m / 2 ^ d
    let r := m % 2 ^ d
    if r = 0 then ⟨false, 1, if neg then -(n : Int) else n, true⟩
    else if neg then
      ⟨false, fixExp2 ((2 ^ d - r) * fixOne / 2 ^ d), -(n : Int) - 1 - enclBits, false⟩
    else ⟨false, fixExp2 (r * fixOne / 2 ^ d), (n : Int) - enclBits, false⟩

/-- log₂ x for x = m × 2^e, m ≠ 0. -/
def enclLog2 (m : Nat) (e : Int) : Encl :=
  let lg := Nat.log2 m
  if m = 2 ^ lg then
    let n : Int := (lg : Int) + e
    ⟨decide (n < 0), n.natAbs, 0, true⟩
  else
    let up : Bool := m * m > 2 ^ (2 * lg + 1)
    let one := 2 ^ (if up then lg + 1 else lg)
    let n : Int := (lg : Int) + e + (if up then 1 else 0)
    let s := (if up then one - m else m - one) * fixOne / (m + one)
    let g := artanhSeries (fixMul s s) 64 0 fixOne
    let l2 : Nat := fixMul (2 * fixMul s g) fixInvLn2
    let part : Int := if up then -(l2 : Int) else l2
    let v : Int := n * fixOne + part
    ⟨decide (v < 0), if n = 0 then l2 else v.natAbs - fixSlack, -(enclBits : Int), false⟩

/-- 1/√x for x = m × 2^e, m ≠ 0. -/
def enclRsq (m : Nat) (e : Int) : Encl :=
  let m' := if e % 2 = 0 then m else 2 * m
  let e' := if e % 2 = 0 then e else e - 1
  let r := isqrt (2 ^ (2 * enclBits) / m')
  ⟨false, r, -(e' / 2) - enclBits, r * r * m' == 2 ^ (2 * enclBits)⟩

/-- sin(πx) for x = ± m × 2^e, m ≠ 0. -/
def enclSinPi (neg : Bool) (m : Nat) (e : Int) : Encl :=
  if e ≥ 0 then ⟨neg, 0, 0, true⟩
  else
    let d := (-e).toNat
    let one := 2 ^ d
    let r := m % one
    let sg : Bool := neg != (m / one % 2 == 1)
    if r = 0 then ⟨neg, 0, 0, true⟩
    else if 2 * r = one then ⟨sg, 1, 0, true⟩
    else
      let r := if 2 * r > one then one - r else r
      if 4 * r ≤ one then sinPiSmall sg r d
      else cosPiSmall sg (one - 2 * r) (d + 1)

/-- cos(πx) for x = ± m × 2^e, m ≠ 0. -/
def enclCosPi (m : Nat) (e : Int) : Encl :=
  if e ≥ 0 then ⟨decide (m * 2 ^ e.toNat % 2 = 1), 1, 0, true⟩
  else
    let d := (-e).toNat
    let one := 2 ^ d
    let odd : Bool := m / one % 2 == 1
    let r := m % one
    if r = 0 then ⟨odd, 1, 0, true⟩
    else if 2 * r = one then ⟨false, 0, 0, true⟩
    else
      let sg : Bool := odd != decide (2 * r > one)
      let r := if 2 * r > one then one - r else r
      if 4 * r ≤ one then cosPiSmall sg r d
      else sinPiSmall sg (one - 2 * r) (d + 1)

/-- tanh x for x = ± m × 2^e, m ≠ 0. -/
def enclTanh (neg : Bool) (m : Nat) (e : Int) : Encl :=
  if (Nat.log2 m : Int) + e < 0 then
    let w := m * fixOne / 2 ^ (-e).toNat
    let w2 := fixMul w w
    let s := posSeries w2 1 48 0 fixOne
    let c := posSeries w2 0 48 0 fixOne
    ⟨neg, m * (s * fixOne / c - fixSlack), e - enclBits, false⟩
  else if (Nat.log2 m : Int) + e ≥ 8 then ⟨neg, fixOne - 1, -(enclBits : Int), false⟩
  else
    let x := m * 2 ^ e.toNat * fixOne / 2 ^ (-e).toNat
    let t := fixMul (2 * x) fixInvLn2
    let ex := fixExp2 (t % fixOne) * 2 ^ (t / fixOne)
    ⟨neg, fixOne - 2 * fixOne * fixOne / (ex + fixOne) - 1, -(enclBits : Int), false⟩

/-- The bound of Table 3.7 in ulp, for FP32 and FP64. -/
def approxUlp (fn : Config.Approx) (f : Fmt) : Nat :=
  match fn with
  | .rsq | .exp2 | .log2 => 1
  | .sinpi | .cospi => if f == .fp64 then 2 else 1
  | .tanh => 2

/-- Does an encoding meet the bound of R71 under RNE, or R72 under a directed mode? -/
def meetsBound (fn : Config.Approx) (f : Fmt) (rm : Rm) (y : Encl) (bits : Nat) : Bool :=
  match Fmt.unpack f (bits % 2 ^ Fmt.width f) with
  | .fin neg m e =>
    let ue := max ((Nat.log2 y.m : Int) + y.e) (Fmt.emin f) - (Fmt.prec f : Int) + 1
    let b := m * 2 ^ (e - y.e).toNat
    let u := (approxUlp fn f + if rm == .rne then 0 else 1) * 2 ^ (ue - y.e).toNat
    let side : Bool := match rm with
      | .rtz => b ≤ y.m
      | .rdn => if neg then b ≥ y.m + 1 else b ≤ y.m
      | .rup => if neg then b ≤ y.m else b ≥ y.m + 1
      | _ => true
    neg == y.neg && y.e ≤ e && y.e ≤ ue && b ≤ y.m + u && y.m + 1 ≤ b + u && side
  | _ => false

/-- An approximate function's result from its enclosed exact value. DESIGN CHOICE (log 129): FZO's test reads the exact
value, as for a result that RoundTo writes (R66), and no result of the function that lies within the bound (R156). -/
def approxResult (fn : Config.Approx) (f : Fmt) (env : RoundEnv) (operand : Nat) (y : Encl) : Rounded :=
  let r := roundFinite f env y.neg y.m y.e (!y.exact)
  match f with
  | .fp32 | .fp64 =>
    if y.exact then r
    else if r.flags &&& flagOF != 0 then r
    else if env.flush.onResult f && (Nat.log2 y.m : Int) + y.e < Fmt.emin f then r
    else
      let c := Config.approx fn f env.rm (operand % 2 ^ Fmt.width f) % 2 ^ Fmt.width f
      if meetsBound fn f env.rm y c then ⟨c, r.flags⟩ else r
  | _ => r

/-- The approximate functions with their special values (R73, Table 3.8). -/
def approxRounded (fn : Config.Approx) (f : Fmt) (env : RoundEnv) (operand : Nat) : Rounded :=
  let dz (neg : Bool) : Rounded :=
    let r := infResult f env neg
    ⟨r.bits, r.flags ||| flagDZ⟩
  let one (neg : Bool) : Rounded := roundFinite f env neg 1 0 false
  match fn, readFloat env.flush f operand with
  | _, .nan s => nanResult f (flagIf s flagNV)
  | .exp2, .inf n => if n then ⟨0, 0⟩ else infResult f env false
  | .log2, .inf n => if n then invalid f else infResult f env false
  | .rsq, .inf n => if n then invalid f else ⟨0, 0⟩
  | .sinpi, .inf _ => invalid f
  | .cospi, .inf _ => invalid f
  | .tanh, .inf n => one n
  | fn, .fin neg m e =>
    if m = 0 then
      match fn with
      | .exp2 => one false
      | .log2 => dz true
      | .rsq => dz neg
      | .sinpi => ⟨Fmt.signBit f neg, 0⟩
      | .cospi => one false
      | .tanh => ⟨Fmt.signBit f neg, 0⟩
    else
      match fn with
      | .exp2 => approxResult fn f env operand (enclExp2 neg m e)
      | .log2 => if neg then invalid f else approxResult fn f env operand (enclLog2 m e)
      | .rsq => if neg then invalid f else approxResult fn f env operand (enclRsq m e)
      | .sinpi => approxResult fn f env operand (enclSinPi neg m e)
      | .cospi => approxResult fn f env operand (enclCosPi m e)
      | .tanh => approxResult fn f env operand (enclTanh neg m e)

end Sys2Proof.Machine
end

