-- ==== Sys2Proof/Machine/Float.lean ====
section
/-! DEFINITION. Floating point and conversions (spec/06, R147 to R156): one meaning per instruction over the rules of
arithmetic (spec/03). -/

namespace Sys2Proof.Machine

open Sys2Proof

/-! ## Elementwise arithmetic (R147) -/

/-- FADD on one set of elements. -/
def faddOf (f : Fmt) (e : RoundEnv) (x y _z : FVal) : Rounded := addRounded f e x y

/-- FADD (R147). -/
def execFadd (t : FTy) (d a b : BitVec 6) (rm : Rm) (s : State) : Out :=
  let f := FTy.fmt t
  .next (s.fScalar d rm fun u => faddOf f (u.env rm false 0) (u.fVal f a) (u.fVal f b) (u.fVal f d))

/-- FADD, vector form (R147). -/
def execFaddV (t : FTy) (d a b : BitVec 5) (p : BitVec 3) (rm : Rm) (s : State) : Out :=
  let f := FTy.fmt t
  .next (s.fLanes t d p rm fun u j => faddOf f (u.env rm false j) (u.fElem f a j) (u.fElem f b j) (u.fElem f d j))

/-- FSUB on one set of elements. -/
def fsubOf (f : Fmt) (e : RoundEnv) (x y _z : FVal) : Rounded := addRounded f e x y.negate

/-- FSUB (R147). -/
def execFsub (t : FTy) (d a b : BitVec 6) (rm : Rm) (s : State) : Out :=
  let f := FTy.fmt t
  .next (s.fScalar d rm fun u => fsubOf f (u.env rm false 0) (u.fVal f a) (u.fVal f b) (u.fVal f d))

/-- FSUB, vector form (R147). -/
def execFsubV (t : FTy) (d a b : BitVec 5) (p : BitVec 3) (rm : Rm) (s : State) : Out :=
  let f := FTy.fmt t
  .next (s.fLanes t d p rm fun u j => fsubOf f (u.env rm false j) (u.fElem f a j) (u.fElem f b j) (u.fElem f d j))

/-- FMUL on one set of elements. -/
def fmulOf (f : Fmt) (e : RoundEnv) (x y _z : FVal) : Rounded := mulRounded f e x y

/-- FMUL (R147). -/
def execFmul (t : FTy) (d a b : BitVec 6) (rm : Rm) (s : State) : Out :=
  let f := FTy.fmt t
  .next (s.fScalar d rm fun u => fmulOf f (u.env rm false 0) (u.fVal f a) (u.fVal f b) (u.fVal f d))

/-- FMUL, vector form (R147). -/
def execFmulV (t : FTy) (d a b : BitVec 5) (p : BitVec 3) (rm : Rm) (s : State) : Out :=
  let f := FTy.fmt t
  .next (s.fLanes t d p rm fun u j => fmulOf f (u.env rm false j) (u.fElem f a j) (u.fElem f b j) (u.fElem f d j))

/-- FMA on one set of elements. -/
def fmaOf (f : Fmt) (e : RoundEnv) (x y z : FVal) : Rounded := fmaRounded f e x y z

/-- FMA (R147). -/
def execFma (t : FTy) (d a b : BitVec 6) (rm : Rm) (s : State) : Out :=
  let f := FTy.fmt t
  .next (s.fScalar d rm fun u => fmaOf f (u.env rm false 0) (u.fVal f a) (u.fVal f b) (u.fVal f d))

/-- FMA, vector form (R147). -/
def execFmaV (t : FTy) (d a b : BitVec 5) (p : BitVec 3) (rm : Rm) (s : State) : Out :=
  let f := FTy.fmt t
  .next (s.fLanes t d p rm fun u j => fmaOf f (u.env rm false j) (u.fElem f a j) (u.fElem f b j) (u.fElem f d j))

/-- FMS on one set of elements. -/
def fmsOf (f : Fmt) (e : RoundEnv) (x y z : FVal) : Rounded := fmaRounded f e x y z.negate

/-- FMS (R147). -/
def execFms (t : FTy) (d a b : BitVec 6) (rm : Rm) (s : State) : Out :=
  let f := FTy.fmt t
  .next (s.fScalar d rm fun u => fmsOf f (u.env rm false 0) (u.fVal f a) (u.fVal f b) (u.fVal f d))

/-- FMS, vector form (R147). -/
def execFmsV (t : FTy) (d a b : BitVec 5) (p : BitVec 3) (rm : Rm) (s : State) : Out :=
  let f := FTy.fmt t
  .next (s.fLanes t d p rm fun u j => fmsOf f (u.env rm false j) (u.fElem f a j) (u.fElem f b j) (u.fElem f d j))

/-- FNMA on one set of elements. -/
def fnmaOf (f : Fmt) (e : RoundEnv) (x y z : FVal) : Rounded := fmaRounded f e x.negate y z

/-- FNMA (R147). -/
def execFnma (t : FTy) (d a b : BitVec 6) (rm : Rm) (s : State) : Out :=
  let f := FTy.fmt t
  .next (s.fScalar d rm fun u => fnmaOf f (u.env rm false 0) (u.fVal f a) (u.fVal f b) (u.fVal f d))

/-- FNMA, vector form (R147). -/
def execFnmaV (t : FTy) (d a b : BitVec 5) (p : BitVec 3) (rm : Rm) (s : State) : Out :=
  let f := FTy.fmt t
  .next (s.fLanes t d p rm fun u j => fnmaOf f (u.env rm false j) (u.fElem f a j) (u.fElem f b j) (u.fElem f d j))

/-! ## Division, square root, reciprocal and the approximate functions (R148, R156) -/

/-- FDIV (R148): dividend in d, divisor in a. -/
def execFdiv (t : FTy) (d a : BitVec 6) (la : BitVec 4) (rm : Rm) (s : State) : Out :=
  let f := FTy.fmt t
  .next (s.fPendScalar d la rm fun u => divRounded f (u.env rm false 0) (u.fVal f d) (u.fVal f a))

/-- FDIV, vector form (R148). -/
def execFdivV (t : FTy) (d a : BitVec 5) (p : BitVec 3) (la : BitVec 4) (rm : Rm) (s : State) : Out :=
  let f := FTy.fmt t
  .next (s.fPendVector t d p la rm fun u j => divRounded f (u.env rm false j) (u.fElem f d j) (u.fElem f a j))

/-- FSQRT (R148). -/
def execFsqrt (t : FTy) (d a : BitVec 6) (la : BitVec 4) (rm : Rm) (s : State) : Out :=
  let f := FTy.fmt t
  .next (s.fPendScalar d la rm fun u => sqrtRounded f (u.env rm false 0) (u.fVal f a))

/-- FSQRT, vector form (R148). -/
def execFsqrtV (t : FTy) (d a : BitVec 5) (p : BitVec 3) (la : BitVec 4) (rm : Rm) (s : State) : Out :=
  let f := FTy.fmt t
  .next (s.fPendVector t d p la rm fun u j => sqrtRounded f (u.env rm false j) (u.fElem f a j))

/-- FRCP (R156, R70). -/
def execFrcp (t : FTy) (d a : BitVec 6) (la : BitVec 4) (rm : Rm) (s : State) : Out :=
  let f := FTy.fmt t
  .next (s.fPendScalar d la rm fun u => rcpRounded f (u.env rm false 0) (u.fVal f a))

/-- FRCP, vector form (R156, R70). -/
def execFrcpV (t : FTy) (d a : BitVec 5) (p : BitVec 3) (la : BitVec 4) (rm : Rm) (s : State) : Out :=
  let f := FTy.fmt t
  .next (s.fPendVector t d p la rm fun u j => rcpRounded f (u.env rm false j) (u.fElem f a j))

/-- FEXP2 (R156, R71 to R73). -/
def execFexp2 (t : FTy) (d a : BitVec 6) (la : BitVec 4) (rm : Rm) (s : State) : Out :=
  let f := FTy.fmt t
  .next (s.fPendScalar d la rm fun u => approxRounded .exp2 f (u.env rm false 0) (u.fSrc f a))

/-- FEXP2, vector form (R156, R71 to R73). -/
def execFexp2V (t : FTy) (d a : BitVec 5) (p : BitVec 3) (la : BitVec 4) (rm : Rm) (s : State) : Out :=
  let f := FTy.fmt t
  .next (s.fPendVector t d p la rm fun u j => approxRounded .exp2 f (u.env rm false j) (elem (u.rv a) (Fmt.width f) j))

/-- FLOG2 (R156, R71 to R73). -/
def execFlog2 (t : FTy) (d a : BitVec 6) (la : BitVec 4) (rm : Rm) (s : State) : Out :=
  let f := FTy.fmt t
  .next (s.fPendScalar d la rm fun u => approxRounded .log2 f (u.env rm false 0) (u.fSrc f a))

/-- FLOG2, vector form (R156, R71 to R73). -/
def execFlog2V (t : FTy) (d a : BitVec 5) (p : BitVec 3) (la : BitVec 4) (rm : Rm) (s : State) : Out :=
  let f := FTy.fmt t
  .next (s.fPendVector t d p la rm fun u j => approxRounded .log2 f (u.env rm false j) (elem (u.rv a) (Fmt.width f) j))

/-- FRSQ (R156, R71 to R73). -/
def execFrsq (t : FTy) (d a : BitVec 6) (la : BitVec 4) (rm : Rm) (s : State) : Out :=
  let f := FTy.fmt t
  .next (s.fPendScalar d la rm fun u => approxRounded .rsq f (u.env rm false 0) (u.fSrc f a))

/-- FRSQ, vector form (R156, R71 to R73). -/
def execFrsqV (t : FTy) (d a : BitVec 5) (p : BitVec 3) (la : BitVec 4) (rm : Rm) (s : State) : Out :=
  let f := FTy.fmt t
  .next (s.fPendVector t d p la rm fun u j => approxRounded .rsq f (u.env rm false j) (elem (u.rv a) (Fmt.width f) j))

/-- FSINPI (R156, R71 to R73). -/
def execFsinpi (t : FTy) (d a : BitVec 6) (la : BitVec 4) (rm : Rm) (s : State) : Out :=
  let f := FTy.fmt t
  .next (s.fPendScalar d la rm fun u => approxRounded .sinpi f (u.env rm false 0) (u.fSrc f a))

/-- FSINPI, vector form (R156, R71 to R73). -/
def execFsinpiV (t : FTy) (d a : BitVec 5) (p : BitVec 3) (la : BitVec 4) (rm : Rm) (s : State) : Out :=
  let f := FTy.fmt t
  .next (s.fPendVector t d p la rm fun u j => approxRounded .sinpi f (u.env rm false j) (elem (u.rv a) (Fmt.width f) j))

/-- FCOSPI (R156, R71 to R73). -/
def execFcospi (t : FTy) (d a : BitVec 6) (la : BitVec 4) (rm : Rm) (s : State) : Out :=
  let f := FTy.fmt t
  .next (s.fPendScalar d la rm fun u => approxRounded .cospi f (u.env rm false 0) (u.fSrc f a))

/-- FCOSPI, vector form (R156, R71 to R73). -/
def execFcospiV (t : FTy) (d a : BitVec 5) (p : BitVec 3) (la : BitVec 4) (rm : Rm) (s : State) : Out :=
  let f := FTy.fmt t
  .next (s.fPendVector t d p la rm fun u j => approxRounded .cospi f (u.env rm false j) (elem (u.rv a) (Fmt.width f) j))

/-- FTANH (R156, R71 to R73). -/
def execFtanh (t : FTy) (d a : BitVec 6) (la : BitVec 4) (rm : Rm) (s : State) : Out :=
  let f := FTy.fmt t
  .next (s.fPendScalar d la rm fun u => approxRounded .tanh f (u.env rm false 0) (u.fSrc f a))

/-- FTANH, vector form (R156, R71 to R73). -/
def execFtanhV (t : FTy) (d a : BitVec 5) (p : BitVec 3) (la : BitVec 4) (rm : Rm) (s : State) : Out :=
  let f := FTy.fmt t
  .next (s.fPendVector t d p la rm fun u j => approxRounded .tanh f (u.env rm false j) (elem (u.rv a) (Fmt.width f) j))

/-! ## Minimum, maximum, signs, comparison, class (R149 to R152) -/

/-- FMIN (R149). -/
def execFmin (t : FTy) (d a b : BitVec 6) (s : State) : Out :=
  let f := FTy.fmt t
  .next (s.fScalar d .rne fun u => minMax f false (u.fVal f a) (u.fVal f b))

/-- FMIN, vector form (R149). -/
def execFminV (t : FTy) (d a b : BitVec 5) (p : BitVec 3) (s : State) : Out :=
  let f := FTy.fmt t
  .next (s.fLanes t d p .rne fun u j => minMax f false (u.fElem f a j) (u.fElem f b j))

/-- FMAX (R149). -/
def execFmax (t : FTy) (d a b : BitVec 6) (s : State) : Out :=
  let f := FTy.fmt t
  .next (s.fScalar d .rne fun u => minMax f true (u.fVal f a) (u.fVal f b))

/-- FMAX, vector form (R149). -/
def execFmaxV (t : FTy) (d a b : BitVec 5) (p : BitVec 3) (s : State) : Out :=
  let f := FTy.fmt t
  .next (s.fLanes t d p .rne fun u j => minMax f true (u.fElem f a j) (u.fElem f b j))

/-- FABS (R150). -/
def execFabs (t : FTy) (d a : BitVec 6) (s : State) : Out :=
  let f := FTy.fmt t
  .next (s.fScalar d .rne fun u => ⟨withSign u.flush f (u.fSrc f a) (fun _ => false), 0⟩)

/-- FABS, vector form (R150). -/
def execFabsV (t : FTy) (d a : BitVec 5) (p : BitVec 3) (s : State) : Out :=
  let f := FTy.fmt t
  .next (s.fLanes t d p .rne fun u j => ⟨withSign u.flush f (elem (u.rv a) (Fmt.width f) j) (fun _ => false), 0⟩)

/-- FNEG (R150). -/
def execFneg (t : FTy) (d a : BitVec 6) (s : State) : Out :=
  let f := FTy.fmt t
  .next (s.fScalar d .rne fun u => ⟨withSign u.flush f (u.fSrc f a) (fun n => !n), 0⟩)

/-- FNEG, vector form (R150). -/
def execFnegV (t : FTy) (d a : BitVec 5) (p : BitVec 3) (s : State) : Out :=
  let f := FTy.fmt t
  .next (s.fLanes t d p .rne fun u j => ⟨withSign u.flush f (elem (u.rv a) (Fmt.width f) j) (fun n => !n), 0⟩)

/-- The sign bit of an encoding. -/
def signOf (f : Fmt) (bits : Nat) : Bool := bits.testBit (Fmt.width f - 1)

/-- FCPYS (R150): the magnitude of x with the sign bit of y. -/
def execFcpys (t : FTy) (d a b : BitVec 6) (s : State) : Out :=
  let f := FTy.fmt t
  .next (s.fScalar d .rne fun u => ⟨withSign u.flush f (u.fSrc f a) (fun _ => signOf f (u.fSrc f b)), 0⟩)

/-- FCPYS, vector form (R150). -/
def execFcpysV (t : FTy) (d a b : BitVec 5) (p : BitVec 3) (s : State) : Out :=
  let f := FTy.fmt t
  .next (s.fLanes t d p .rne fun u j =>
    ⟨withSign u.flush f (elem (u.rv a) (Fmt.width f) j) (fun _ => signOf f (elem (u.rv b) (Fmt.width f) j)), 0⟩)

/-- FCMP (R151). -/
def execFcmp (t : FTy) (pd : BitVec 3) (a b : BitVec 6) (c : FCmpCond) (s : State) : Out :=
  let f := FTy.fmt t
  .next (s.onThr fun u =>
    let r := fcmpResult c (u.fVal f a) (u.fVal f b)
    ((u.wp pd (predAll r.1)).raise r.2).advance)

/-- FCMP, vector form for f32 or f64 (R151). -/
def execFcmpV (dbl : Bool) (pd : BitVec 3) (a b : BitVec 5) (p : BitVec 3) (c : FCmpCond) (s : State) : Out :=
  let f : Fmt := if dbl then .fp64 else .fp32
  let n := if dbl then 8 else 16
  .next (s.onThr fun u =>
    let r (j : Nat) : Bool × Flags := fcmpResult c (u.fElem f a j) (u.fElem f b j)
    ((u.wp pd (predOf n (u.rp p) (u.rp pd) (fun j => (r j).1))).raise
      (elemFlags (u.rp p) (Fmt.width f) (fun j => (r j).2) n)).advance)

/-- FCLASS (R152). -/
def execFclass (t : FTy) (d a : BitVec 6) (s : State) : Out :=
  let f := FTy.fmt t
  .next (s.fScalar d .rne fun u => ⟨classMask u.flush f (u.fSrc f a), 0⟩)

/-- FCLASS, vector form (R152). -/
def execFclassV (t : FTy) (d a : BitVec 5) (p : BitVec 3) (s : State) : Out :=
  let f := FTy.fmt t
  .next (s.fLanes t d p .rne fun u j => ⟨classMask u.flush f (elem (u.rv a) (Fmt.width f) j), 0⟩)

/-! ## Rounding to integral values and conversions (R153 to R155) -/

/-- FRINT (R153). -/
def execFrint (t : FTy) (d a : BitVec 6) (rm : Rm) (s : State) : Out :=
  let f := FTy.fmt t
  .next (s.fScalar d rm fun u => rintResult f (u.env rm false 0) (u.fVal f a))

/-- FRINT, vector form (R153). -/
def execFrintV (t : FTy) (d a : BitVec 5) (p : BitVec 3) (rm : Rm) (s : State) : Out :=
  let f := FTy.fmt t
  .next (s.fLanes t d p rm fun u j => rintResult f (u.env rm false j) (u.fElem f a j))

/-- FCVT (R154). -/
def execFcvt (t : Fmt) (d a : BitVec 6) (sat : Bool) (src : Fmt) (rm : Rm) (s : State) : Out :=
  .next (s.fScalar d rm fun u => roundTo t (u.env rm sat 0) (u.fVal src a))

/-- The width of the wider of two elements (R144). -/
def widest (a b : Nat) : Nat := max a b

/-- FCVT, vector form: the wider format counts and governs (R144, R154). -/
def execFcvtV (t : Fmt) (d a : BitVec 5) (sat : Bool) (src : Fmt) (p : BitVec 3) (rm : Rm) (s : State) : Out :=
  let w := widest (Fmt.width t) (Fmt.width src)
  .next (s.fVector d (s.thr.rp p) w (Fmt.width t) (512 / w) rm (512 / Fmt.width t) fun u j =>
    roundTo t (u.env rm sat j) (u.fElem src a j))

/-- An integer result of n bits in a register: sign- or zero-extended (R155). -/
def cvtWord (n : Nat) (uns : Bool) (v : Int) : Word := BitVec.ofInt 64 (if uns then (narrow n v : Nat) else v)

/-- FCVTI (R155). -/
def execFcvti (t : Fmt) (d a : BitVec 6) (sat uns : Bool) (it : CvtInt) (rm : Rm) (s : State) : Out :=
  .next (s.onThr fun u =>
    let r := toIntResult (CvtInt.width it) uns sat (u.env rm sat 0) (u.fVal t a)
    (((u.wg d (cvtWord (CvtInt.width it) uns r.1)).raise r.2).drew rm 1).advance)

/-- FCVTI, vector form (R144, R155). -/
def execFcvtiV (t : Fmt) (d a : BitVec 5) (sat uns : Bool) (it : CvtInt) (p : BitVec 3) (rm : Rm) (s : State) : Out :=
  let n := CvtInt.width it
  let w := widest n (Fmt.width t)
  .next (s.fVector d (s.thr.rp p) w n (512 / w) rm (512 / n) fun u j =>
    let r := toIntResult n uns sat (u.env rm sat j) (u.fElem t a j)
    ⟨narrow n r.1, r.2⟩)

/-- An integer operand of n bits (R155). -/
def cvtSource (n : Nat) (uns : Bool) (x : Nat) : FVal := intVal (if uns then (x % 2 ^ n : Nat) else signedOf n x)

/-- ICVTF (R155). -/
def execIcvtf (t : Fmt) (d a : BitVec 6) (uns : Bool) (it : CvtInt) (rm : Rm) (s : State) : Out :=
  .next (s.fScalar d rm fun u =>
    roundTo t (u.env rm false 0) (cvtSource (CvtInt.width it) uns (u.rg a).toNat))

/-- ICVTF, vector form (R144, R155). -/
def execIcvtfV (t : Fmt) (d a : BitVec 5) (uns : Bool) (it : CvtInt) (p : BitVec 3) (rm : Rm) (s : State) : Out :=
  let n := CvtInt.width it
  let w := widest n (Fmt.width t)
  .next (s.fVector d (s.thr.rp p) w (Fmt.width t) (512 / w) rm (512 / Fmt.width t) fun u j =>
    roundTo t (u.env rm false j) (cvtSource n uns (elem (u.rv a) n j)))

end Sys2Proof.Machine
end

