-- ==== Sys2Proof/Machine/Integer.lean ====
section
/-! DEFINITION. Integer and address arithmetic and predicates (spec/04, R101 to R115): one function per result of
Table 4.1, and one meaning per instruction. -/

namespace Sys2Proof.Machine

open Sys2Proof

/-! ## Results of w bits (Table 4.1) -/

/-- ADD: wrapping, or clamped as signed or unsigned. -/
def addResult (m : AddMode) (w a b : Nat) : Nat × Flags :=
  match m with
  | .wrap => ((a + b) % 2 ^ w, 0)
  | .sat =>
    let r := clampSat (-(2 ^ (w - 1) : Nat)) ((2 ^ (w - 1) : Nat) - 1) (signedOf w a + signedOf w b)
    (narrow w r.1, r.2)
  | .usat => if a + b < 2 ^ w then (a + b, 0) else (2 ^ w - 1, flagSAT)

/-- SUB: wrapping, or clamped as signed or unsigned. -/
def subResult (m : AddMode) (w a b : Nat) : Nat × Flags :=
  match m with
  | .wrap => ((a + (2 ^ w - b)) % 2 ^ w, 0)
  | .sat =>
    let r := clampSat (-(2 ^ (w - 1) : Nat)) ((2 ^ (w - 1) : Nat) - 1) (signedOf w a - signedOf w b)
    (narrow w r.1, r.2)
  | .usat => if b ≤ a then (a - b, 0) else (0, flagSAT)

/-- MULH: the high half of the 2w-bit product. -/
def mulhResult (m : MulhMode) (w a b : Nat) : Nat :=
  match m with
  | .signed => narrow w (signedOf w a * signedOf w b / (2 ^ w : Nat))
  | .unsigned => a * b / 2 ^ w % 2 ^ w
  | .signedUnsigned => narrow w (signedOf w a * (b : Int) / (2 ^ w : Nat))

/-- DIV (R104). -/
def divResult (uns : Bool) (w a b : Nat) : Nat :=
  if b = 0 then 2 ^ w - 1
  else if uns then a / b
  else narrow w ((signedOf w a).tdiv (signedOf w b))

/-- REM (R104). -/
def remResult (uns : Bool) (w a b : Nat) : Nat :=
  if b = 0 then a
  else if uns then a % b
  else narrow w ((signedOf w a).tmod (signedOf w b))

/-- MIN or MAX (R106). -/
def minMaxInt (isMax uns : Bool) (w a b : Nat) : Nat :=
  let less := if uns then a < b else signedOf w a < signedOf w b
  if less != isMax then a else b

/-- SHL, SHR, SRA and ROT (R105). -/
def shlResult (w a b : Nat) : Nat := a * 2 ^ (b % w) % 2 ^ w
def shrResult (w a b : Nat) : Nat := a / 2 ^ (b % w)
def sraResult (w a b : Nat) : Nat := narrow w (signedOf w a / (2 ^ (b % w) : Nat))
def rotResult (w a b : Nat) : Nat := (a * 2 ^ (b % w) + a / 2 ^ (w - b % w)) % 2 ^ w

/-- CLZ (R107). -/
def clzResult (w a : Nat) : Nat := if a = 0 then w else w - 1 - Nat.log2 a

/-- CTZ: how many low bits are zero, looking at n of them. -/
def ctzResult : Nat → Nat → Nat
  | 0, _ => 0
  | n + 1, a => if a % 2 = 1 then 0 else 1 + ctzResult n (a / 2)

/-- POPC: the one bits among the low n. -/
def popcResult : Nat → Nat → Nat
  | 0, _ => 0
  | n + 1, a => a % 2 + popcResult n (a / 2)

/-- BREV: the low n bits reversed. -/
def brevResult : Nat → Nat → Nat
  | 0, _ => 0
  | n + 1, a => a % 2 * 2 ^ n + brevResult n (a / 2)

/-- BSWAP: the low n bytes reversed. -/
def bswapResult : Nat → Nat → Nat
  | 0, _ => 0
  | n + 1, a => a % 256 * 256 ^ n + bswapResult n (a / 256)

/-- The length of a bit field at position b<5:0> of length b<12:6> (R108). -/
def fieldLen (w b : Nat) : Nat := if b % 64 ≥ w then 0 else min (b / 64 % 128) (w - b % 64)

/-- BFX and BFX.S (R108). -/
def bfxResult (sgn : Bool) (w a b : Nat) : Nat :=
  let l := fieldLen w b
  let f := a / 2 ^ (b % 64) % 2 ^ l
  if sgn && l != 0 then narrow w (signedOf l f) else f

/-- BFI (R108): `d` is the destination as read. -/
def bfiResult (w a b d : Nat) : Nat :=
  let l := fieldLen w b
  let m := (2 ^ l - 1) * 2 ^ (b % 64)
  (d &&& (2 ^ w - 1 - m)) ||| (a * 2 ^ (b % 64) &&& m)

/-- CMP (R110). -/
def cmpResult (c : CmpCond) (w a b : Nat) : Bool :=
  match c with
  | .eq => a == b
  | .ne => a != b
  | .lt => decide (signedOf w a < signedOf w b)
  | .ge => decide (signedOf w b ≤ signedOf w a)
  | .ltu => decide (a < b)
  | .geu => decide (b ≤ a)

/-! ## Meanings: scalar and vector integer operations -/

/-- ADD (R101). -/
def execAdd (t : IntTy) (d a b : BitVec 6) (m : AddMode) (s : State) : Out :=
  .next (s.intScalar t d a b (fun w x y _ => addResult m w x y))

/-- ADD, vector form (R101). -/
def execAddV (t : IntTy) (d a b : BitVec 5) (p : BitVec 3) (m : AddMode) (s : State) : Out :=
  .next (s.intVector t d a b p (fun w x y _ => addResult m w x y))

/-- SUB (R101). -/
def execSub (t : IntTy) (d a b : BitVec 6) (m : AddMode) (s : State) : Out :=
  .next (s.intScalar t d a b (fun w x y _ => subResult m w x y))

/-- SUB, vector form (R101). -/
def execSubV (t : IntTy) (d a b : BitVec 5) (p : BitVec 3) (m : AddMode) (s : State) : Out :=
  .next (s.intVector t d a b p (fun w x y _ => subResult m w x y))

/-- MUL (R103). -/
def execMul (t : IntTy) (d a b : BitVec 6) (s : State) : Out :=
  .next (s.intScalar t d a b (fun w x y _ => (x * y % 2 ^ w, 0)))

/-- MUL, vector form (R103). -/
def execMulV (t : IntTy) (d a b : BitVec 5) (p : BitVec 3) (s : State) : Out :=
  .next (s.intVector t d a b p (fun w x y _ => (x * y % 2 ^ w, 0)))

/-- MULH (R103). -/
def execMulh (t : IntTy) (d a b : BitVec 6) (m : MulhMode) (s : State) : Out :=
  .next (s.intScalar t d a b (fun w x y _ => (mulhResult m w x y, 0)))

/-- MULH, vector form (R103). -/
def execMulhV (t : IntTy) (d a b : BitVec 5) (p : BitVec 3) (m : MulhMode) (s : State) : Out :=
  .next (s.intVector t d a b p (fun w x y _ => (mulhResult m w x y, 0)))

/-- DIV (R104). -/
def execDiv (t : IntTy) (d a b : BitVec 6) (uns : Bool) (s : State) : Out :=
  .next (s.intScalar t d a b (fun w x y _ => (divResult uns w x y, 0)))

/-- DIV, vector form (R104). -/
def execDivV (t : IntTy) (d a b : BitVec 5) (p : BitVec 3) (uns : Bool) (s : State) : Out :=
  .next (s.intVector t d a b p (fun w x y _ => (divResult uns w x y, 0)))

/-- REM (R104). -/
def execRem (t : IntTy) (d a b : BitVec 6) (uns : Bool) (s : State) : Out :=
  .next (s.intScalar t d a b (fun w x y _ => (remResult uns w x y, 0)))

/-- REM, vector form (R104). -/
def execRemV (t : IntTy) (d a b : BitVec 5) (p : BitVec 3) (uns : Bool) (s : State) : Out :=
  .next (s.intVector t d a b p (fun w x y _ => (remResult uns w x y, 0)))

/-- AND (R101). -/
def execAnd (t : IntTy) (d a b : BitVec 6) (s : State) : Out :=
  .next (s.intScalar t d a b (fun _ x y _ => (x &&& y, 0)))

/-- AND, vector form (R101). -/
def execAndV (t : IntTy) (d a b : BitVec 5) (p : BitVec 3) (s : State) : Out :=
  .next (s.intVector t d a b p (fun _ x y _ => (x &&& y, 0)))

/-- OR (R101). -/
def execOr (t : IntTy) (d a b : BitVec 6) (s : State) : Out :=
  .next (s.intScalar t d a b (fun _ x y _ => (x ||| y, 0)))

/-- OR, vector form (R101). -/
def execOrV (t : IntTy) (d a b : BitVec 5) (p : BitVec 3) (s : State) : Out :=
  .next (s.intVector t d a b p (fun _ x y _ => (x ||| y, 0)))

/-- XOR (R101). -/
def execXor (t : IntTy) (d a b : BitVec 6) (s : State) : Out :=
  .next (s.intScalar t d a b (fun _ x y _ => (x ^^^ y, 0)))

/-- XOR, vector form (R101). -/
def execXorV (t : IntTy) (d a b : BitVec 5) (p : BitVec 3) (s : State) : Out :=
  .next (s.intVector t d a b p (fun _ x y _ => (x ^^^ y, 0)))

/-- ANDN (R101). -/
def execAndn (t : IntTy) (d a b : BitVec 6) (s : State) : Out :=
  .next (s.intScalar t d a b (fun w x y _ => (x &&& (2 ^ w - 1 - y), 0)))

/-- ANDN, vector form (R101). -/
def execAndnV (t : IntTy) (d a b : BitVec 5) (p : BitVec 3) (s : State) : Out :=
  .next (s.intVector t d a b p (fun w x y _ => (x &&& (2 ^ w - 1 - y), 0)))

/-- SHL (R105). -/
def execShl (t : IntTy) (d a b : BitVec 6) (s : State) : Out :=
  .next (s.intScalar t d a b (fun w x y _ => (shlResult w x y, 0)))

/-- SHL, vector form (R105). -/
def execShlV (t : IntTy) (d a b : BitVec 5) (p : BitVec 3) (s : State) : Out :=
  .next (s.intVector t d a b p (fun w x y _ => (shlResult w x y, 0)))

/-- SHR (R105). -/
def execShr (t : IntTy) (d a b : BitVec 6) (s : State) : Out :=
  .next (s.intScalar t d a b (fun w x y _ => (shrResult w x y, 0)))

/-- SHR, vector form (R105). -/
def execShrV (t : IntTy) (d a b : BitVec 5) (p : BitVec 3) (s : State) : Out :=
  .next (s.intVector t d a b p (fun w x y _ => (shrResult w x y, 0)))

/-- SRA (R105). -/
def execSra (t : IntTy) (d a b : BitVec 6) (s : State) : Out :=
  .next (s.intScalar t d a b (fun w x y _ => (sraResult w x y, 0)))

/-- SRA, vector form (R105). -/
def execSraV (t : IntTy) (d a b : BitVec 5) (p : BitVec 3) (s : State) : Out :=
  .next (s.intVector t d a b p (fun w x y _ => (sraResult w x y, 0)))

/-- ROT (R105). -/
def execRot (t : IntTy) (d a b : BitVec 6) (s : State) : Out :=
  .next (s.intScalar t d a b (fun w x y _ => (rotResult w x y, 0)))

/-- ROT, vector form (R105). -/
def execRotV (t : IntTy) (d a b : BitVec 5) (p : BitVec 3) (s : State) : Out :=
  .next (s.intVector t d a b p (fun w x y _ => (rotResult w x y, 0)))

/-- MIN (R106). -/
def execMin (t : IntTy) (d a b : BitVec 6) (uns : Bool) (s : State) : Out :=
  .next (s.intScalar t d a b (fun w x y _ => (minMaxInt false uns w x y, 0)))

/-- MIN, vector form (R106). -/
def execMinV (t : IntTy) (d a b : BitVec 5) (p : BitVec 3) (uns : Bool) (s : State) : Out :=
  .next (s.intVector t d a b p (fun w x y _ => (minMaxInt false uns w x y, 0)))

/-- MAX (R106). -/
def execMax (t : IntTy) (d a b : BitVec 6) (uns : Bool) (s : State) : Out :=
  .next (s.intScalar t d a b (fun w x y _ => (minMaxInt true uns w x y, 0)))

/-- MAX, vector form (R106). -/
def execMaxV (t : IntTy) (d a b : BitVec 5) (p : BitVec 3) (uns : Bool) (s : State) : Out :=
  .next (s.intVector t d a b p (fun w x y _ => (minMaxInt true uns w x y, 0)))

/-- BFX (R108). -/
def execBfx (t : IntTy) (d a b : BitVec 6) (sgn : Bool) (s : State) : Out :=
  .next (s.intScalar t d a b (fun w x y _ => (bfxResult sgn w x y, 0)))

/-- BFX, vector form (R108). -/
def execBfxV (t : IntTy) (d a b : BitVec 5) (p : BitVec 3) (sgn : Bool) (s : State) : Out :=
  .next (s.intVector t d a b p (fun w x y _ => (bfxResult sgn w x y, 0)))

/-- BFI (R108). -/
def execBfi (t : IntTy) (d a b : BitVec 6) (s : State) : Out :=
  .next (s.intScalar t d a b (fun w x y z => (bfiResult w x y z, 0)))

/-- BFI, vector form (R108). -/
def execBfiV (t : IntTy) (d a b : BitVec 5) (p : BitVec 3) (s : State) : Out :=
  .next (s.intVector t d a b p (fun w x y z => (bfiResult w x y z, 0)))

/-- CLZ (R107). -/
def execClz (t : IntTy) (d a : BitVec 6) (s : State) : Out :=
  .next (s.intScalar t d a 0 (fun w x _ _ => (clzResult w x, 0)))

/-- CLZ, vector form (R107). -/
def execClzV (t : IntTy) (d a : BitVec 5) (p : BitVec 3) (s : State) : Out :=
  .next (s.intVector t d a 0 p (fun w x _ _ => (clzResult w x, 0)))

/-- CTZ (R107). -/
def execCtz (t : IntTy) (d a : BitVec 6) (s : State) : Out :=
  .next (s.intScalar t d a 0 (fun w x _ _ => (ctzResult w x, 0)))

/-- CTZ, vector form (R107). -/
def execCtzV (t : IntTy) (d a : BitVec 5) (p : BitVec 3) (s : State) : Out :=
  .next (s.intVector t d a 0 p (fun w x _ _ => (ctzResult w x, 0)))

/-- POPC (R107). -/
def execPopc (t : IntTy) (d a : BitVec 6) (s : State) : Out :=
  .next (s.intScalar t d a 0 (fun w x _ _ => (popcResult w x, 0)))

/-- POPC, vector form (R107). -/
def execPopcV (t : IntTy) (d a : BitVec 5) (p : BitVec 3) (s : State) : Out :=
  .next (s.intVector t d a 0 p (fun w x _ _ => (popcResult w x, 0)))

/-- BREV (R107). -/
def execBrev (t : IntTy) (d a : BitVec 6) (s : State) : Out :=
  .next (s.intScalar t d a 0 (fun w x _ _ => (brevResult w x, 0)))

/-- BREV, vector form (R107). -/
def execBrevV (t : IntTy) (d a : BitVec 5) (p : BitVec 3) (s : State) : Out :=
  .next (s.intVector t d a 0 p (fun w x _ _ => (brevResult w x, 0)))

/-- BSWAP (R107). -/
def execBswap (t : IntTy) (d a : BitVec 6) (s : State) : Out :=
  .next (s.intScalar t d a 0 (fun w x _ _ => (bswapResult (w / 8) x, 0)))

/-- BSWAP, vector form (R107). -/
def execBswapV (t : IntTy) (d a : BitVec 5) (p : BitVec 3) (s : State) : Out :=
  .next (s.intVector t d a 0 p (fun w x _ _ => (bswapResult (w / 8) x, 0)))

/-- SEL (R109): bit 0 of the predicate selects. -/
def execSel (t : IntTy) (d a b : BitVec 6) (p : BitVec 3) (s : State) : Out :=
  .next (s.intScalar t d a b (fun _ x y _ => (if (s.thr.rp p).getLsbD 0 then x else y, 0)))

/-- CMP (R110). -/
def execCmp (t : IntTy) (pd : BitVec 3) (a b : BitVec 6) (c : CmpCond) (s : State) : Out :=
  let w := IntTy.width t
  .next (s.onThr fun u => (u.wp pd (predAll (cmpResult c w (u.intSrc w a) (u.intSrc w b)))).advance)

/-- CMP, vector form (R110). -/
def execCmpV (t : IntTy) (pd : BitVec 3) (a b : BitVec 5) (p : BitVec 3) (c : CmpCond) (s : State) : Out :=
  let w := IntTy.width t
  .next (s.onThr fun u =>
    (u.wp pd (predOf (512 / w) (u.rp p) (u.rp pd)
      (fun j => cmpResult c w (elem (u.rv a) w j) (elem (u.rv b) w j)))).advance)

/-! ## Predicates (R115) -/

/-- A predicate written, and the unit is complete. -/
def State.predOp (s : State) (d : BitVec 3) (x : Thread → Pred) : State := s.onThr fun u => (u.wp d (x u)).advance

/-- PAND. -/
def execPand (d a b : BitVec 3) (s : State) : Out := .next (s.predOp d fun u => u.rp a &&& u.rp b)

/-- POR. -/
def execPor (d a b : BitVec 3) (s : State) : Out := .next (s.predOp d fun u => u.rp a ||| u.rp b)

/-- PXOR. -/
def execPxor (d a b : BitVec 3) (s : State) : Out := .next (s.predOp d fun u => u.rp a ^^^ u.rp b)

/-- PNOT. -/
def execPnot (d a : BitVec 3) (s : State) : Out := .next (s.predOp d fun u => ~~~(u.rp a))

/-- PMOV.P. -/
def execPmovP (d : BitVec 3) (a : BitVec 6) (s : State) : Out := .next (s.predOp d fun u => (u.rg a).truncate 16)

/-- PMOV.G. -/
def execPmovG (d : BitVec 6) (a : BitVec 3) (s : State) : Out := .next (s.wordOp d fun u => (u.rp a).zeroExtend 64)

/-! ## Immediates and LEA (R111 to R114) -/

/-- ADDI. -/
def execAddi (d a : BitVec 6) (imm : BitVec 13) (s : State) : Out :=
  .next (s.wordOp d fun u => u.rg a + imm.signExtend 64)

/-- ANDI. -/
def execAndi (d a : BitVec 6) (imm : BitVec 13) (s : State) : Out :=
  .next (s.wordOp d fun u => u.rg a &&& imm.signExtend 64)

/-- ORI. -/
def execOri (d a : BitVec 6) (imm : BitVec 13) (s : State) : Out :=
  .next (s.wordOp d fun u => u.rg a ||| imm.signExtend 64)

/-- XORI. -/
def execXori (d a : BitVec 6) (imm : BitVec 13) (s : State) : Out :=
  .next (s.wordOp d fun u => u.rg a ^^^ imm.signExtend 64)

/-- SHLI. -/
def execShli (d a c : BitVec 6) (s : State) : Out := .next (s.wordOp d fun u => u.rg a <<< c.toNat)

/-- SHRI. -/
def execShri (d a c : BitVec 6) (s : State) : Out := .next (s.wordOp d fun u => u.rg a >>> c.toNat)

/-- SRAI. -/
def execSrai (d a c : BitVec 6) (s : State) : Out := .next (s.wordOp d fun u => (u.rg a).sshiftRight c.toNat)

/-- MOVI. -/
def execMovi (d : BitVec 6) (imm : BitVec 19) (s : State) : Out := .next (s.wordOp d fun _ => imm.signExtend 64)

/-- MOVH: one 16-bit quarter of g[d] written, the others kept. -/
def execMovh (d : BitVec 6) (q : BitVec 2) (v : BitVec 16) (s : State) : Out :=
  .next (s.wordOp d fun u =>
    (u.rg d &&& ~~~(0xFFFF#64 <<< (16 * q.toNat))) ||| (v.zeroExtend 64 <<< (16 * q.toNat)))

/-- LEA. -/
def execLea (d a b : BitVec 6) (sh : BitVec 3) (s : State) : Out :=
  .next (s.wordOp d fun u => u.rg a + (u.rg b <<< sh.toNat))

end Sys2Proof.Machine
end

