-- ==== Sys2Proof/Machine/Dispatch.lean ====
section
/-! DEFINITION. One arm per constructor of `Instr`, each one direct call of that instruction's meaning. -/

namespace Sys2Proof.Machine

open Sys2Proof

def exec (i : Instr) (s : State) : Host.Outcome State Fault Refusal :=
  match i with
  | .nop u => Sys2Proof.Machine.execNop u s
  | .bc u p n off => Sys2Proof.Machine.execBc u p n off s
  | .bz u a off => Sys2Proof.Machine.execBz u a off s
  | .bnz u a off => Sys2Proof.Machine.execBnz u a off s
  | .loop u a off => Sys2Proof.Machine.execLoop u a off s
  | .call u p n off => Sys2Proof.Machine.execCall u p n off s
  | .bi u a => Sys2Proof.Machine.execBi u a s
  | .calli u a => Sys2Proof.Machine.execCalli u a s
  | .ret u a => Sys2Proof.Machine.execRet u a s
  | .exit u => Sys2Proof.Machine.execExit u s
  | .yield u => Sys2Proof.Machine.execYield u s
  | .brk u code => Sys2Proof.Machine.execBrk u code s
  | .trap u code => Sys2Proof.Machine.execTrap u code s
  | .eret u => Sys2Proof.Machine.execEret u s
  | .mrd u d m => Sys2Proof.Machine.execMrd u d m s
  | .mwr u d m => Sys2Proof.Machine.execMwr u d m s
  | .segld u a sr => Sys2Proof.Machine.execSegld u a sr s
  | .segsub u d a b sr => Sys2Proof.Machine.execSegsub u d a b sr s
  | .segq u d q sr => Sys2Proof.Machine.execSegq u d q sr s
  | .launch u d a sr => Sys2Proof.Machine.execLaunch u d a sr s
  | .gang u d a b sr => Sys2Proof.Machine.execGang u d a b sr s
  | .barc u => Sys2Proof.Machine.execBarc u s
  | .tkillThread u a => Sys2Proof.Machine.execTkillThread u a s
  | .tkillCrew u => Sys2Proof.Machine.execTkillCrew u s
  | .tkillShift u => Sys2Proof.Machine.execTkillShift u s
  | .ldB u la sr d a imm => Sys2Proof.Machine.execLdB u la sr d a imm s
  | .ldH u la sr d a imm => Sys2Proof.Machine.execLdH u la sr d a imm s
  | .ldW u la sr d a imm => Sys2Proof.Machine.execLdW u la sr d a imm s
  | .ldD u la sr d a imm => Sys2Proof.Machine.execLdD u la sr d a imm s
  | .ldSB u la sr d a imm => Sys2Proof.Machine.execLdSB u la sr d a imm s
  | .ldSH u la sr d a imm => Sys2Proof.Machine.execLdSH u la sr d a imm s
  | .ldSW u la sr d a imm => Sys2Proof.Machine.execLdSW u la sr d a imm s
  | .stN u sr d a imm => Sys2Proof.Machine.execStN u sr d a imm s
  | .stB u sr d a imm => Sys2Proof.Machine.execStB u sr d a imm s
  | .stH u sr d a imm => Sys2Proof.Machine.execStH u sr d a imm s
  | .stW u sr d a imm => Sys2Proof.Machine.execStW u sr d a imm s
  | .stD u sr d a imm => Sys2Proof.Machine.execStD u sr d a imm s
  | .ldv u la sr d a imm => Sys2Proof.Machine.execLdv u la sr d a imm s
  | .stv u sr d a imm => Sys2Proof.Machine.execStv u sr d a imm s
  | .ldvs u la sr d a dbl => Sys2Proof.Machine.execLdvs u la sr d a dbl s
  | .ldvx u la sr d a dbl => Sys2Proof.Machine.execLdvx u la sr d a dbl s
  | .stvs u sr d a dbl => Sys2Proof.Machine.execStvs u sr d a dbl s
  | .stvx u sr d a dbl => Sys2Proof.Machine.execStvx u sr d a dbl s
  | .lds u la sr d a dbl => Sys2Proof.Machine.execLds u la sr d a dbl s
  | .ldsConsume u la sr d a dbl => Sys2Proof.Machine.execLdsConsume u la sr d a dbl s
  | .stsProduce u sr d a dbl => Sys2Proof.Machine.execStsProduce u sr d a dbl s
  | .stsOver u sr d a dbl => Sys2Proof.Machine.execStsOver u sr d a dbl s
  | .feset u sr a => Sys2Proof.Machine.execFeset u sr a s
  | .feclr u sr a => Sys2Proof.Machine.execFeclr u sr a s
  | .feq u sr d a => Sys2Proof.Machine.execFeq u sr d a s
  | .atom u la sr d a op sz => Sys2Proof.Machine.execAtom u la sr d a op sz s
  | .cas u la sr d a dbl => Sys2Proof.Machine.execCas u la sr d a dbl s
  | .cas2 u la sr d a => Sys2Proof.Machine.execCas2 u la sr d a s
  | .red u sr d a op sz => Sys2Proof.Machine.execRed u sr d a op sz s
  | .redFadd u rm sr d a dbl => Sys2Proof.Machine.execRedFadd u rm sr d a dbl s
  | .apnd u sr d a => Sys2Proof.Machine.execApnd u sr d a s
  | .fence u k sc => Sys2Proof.Machine.execFence u k sc s
  | .drain u => Sys2Proof.Machine.execDrain u s
  | .tbinit u a b sr => Sys2Proof.Machine.execTbinit u a b sr s
  | .tbexp u a b sr => Sys2Proof.Machine.execTbexp u a b sr s
  | .tbarv u a b sr => Sys2Proof.Machine.execTbarv u a b sr s
  | .tbwait u a sr => Sys2Proof.Machine.execTbwait u a sr s
  | .tbtest u d a sr => Sys2Proof.Machine.execTbtest u d a sr s
  | .xfer u d a b sr => Sys2Proof.Machine.execXfer u d a b sr s
  | .xferF u d a b sr => Sys2Proof.Machine.execXferF u d a b sr s
  | .gath u d a b sr => Sys2Proof.Machine.execGath u d a b sr s
  | .rcall u d a k rel sr e => Sys2Proof.Machine.execRcall u d a k rel sr e s
  | .rret u a b => Sys2Proof.Machine.execRret u a b s
  | .hset u e a sr => Sys2Proof.Machine.execHset u e a sr s
  | .hclr u e sr => Sys2Proof.Machine.execHclr u e sr s
  | .frz u a b sr => Sys2Proof.Machine.execFrz u a b sr s
  | .thaw u d a b sr => Sys2Proof.Machine.execThaw u d a b sr s
  | .frzq u d a sr => Sys2Proof.Machine.execFrzq u d a sr s
  | .rowcpy u d a b sr => Sys2Proof.Machine.execRowcpy u d a b sr s
  | .rowset u d a b sr => Sys2Proof.Machine.execRowset u d a b sr s
  | .rowop u d a b sr op => Sys2Proof.Machine.execRowop u d a b sr op s
  | .fdef u d a sr => Sys2Proof.Machine.execFdef u d a sr s
  | .frun u a => Sys2Proof.Machine.execFrun u a s
  | .fstop u a => Sys2Proof.Machine.execFstop u a s
  | .fsnap u a b => Sys2Proof.Machine.execFsnap u a b s
  | .fcpl u a b => Sys2Proof.Machine.execFcpl u a b s
  | .fstat u d a => Sys2Proof.Machine.execFstat u d a s
  | .mq u d a tile sr => Sys2Proof.Machine.execMq u d a tile sr s
  | .mqSP u d a tile sr => Sys2Proof.Machine.execMqSP u d a tile sr s
  | .mqr u d a tile sr => Sys2Proof.Machine.execMqr u d a tile sr s
  | .mqrSP u d a tile sr => Sys2Proof.Machine.execMqrSP u d a tile sr s
  | .macq u d a => Sys2Proof.Machine.execMacq u d a s
  | .mrel u a => Sys2Proof.Machine.execMrel u a s
  | .mzero u tile => Sys2Proof.Machine.execMzero u tile s
  | .mld u d a tile sr => Sys2Proof.Machine.execMld u d a tile sr s
  | .mdrain u d a tile sr rm => Sys2Proof.Machine.execMdrain u d a tile sr rm s
  | .mpoll u d a => Sys2Proof.Machine.execMpoll u d a s
  | .mwait u a => Sys2Proof.Machine.execMwait u a s
  | .add t d a b m => Sys2Proof.Machine.execAdd t d a b m s
  | .addV t d a b p m => Sys2Proof.Machine.execAddV t d a b p m s
  | .sub t d a b m => Sys2Proof.Machine.execSub t d a b m s
  | .subV t d a b p m => Sys2Proof.Machine.execSubV t d a b p m s
  | .mul t d a b => Sys2Proof.Machine.execMul t d a b s
  | .mulV t d a b p => Sys2Proof.Machine.execMulV t d a b p s
  | .mulh t d a b m => Sys2Proof.Machine.execMulh t d a b m s
  | .mulhV t d a b p m => Sys2Proof.Machine.execMulhV t d a b p m s
  | .div t d a b uns => Sys2Proof.Machine.execDiv t d a b uns s
  | .divV t d a b p uns => Sys2Proof.Machine.execDivV t d a b p uns s
  | .rem t d a b uns => Sys2Proof.Machine.execRem t d a b uns s
  | .remV t d a b p uns => Sys2Proof.Machine.execRemV t d a b p uns s
  | .and t d a b => Sys2Proof.Machine.execAnd t d a b s
  | .andV t d a b p => Sys2Proof.Machine.execAndV t d a b p s
  | .or t d a b => Sys2Proof.Machine.execOr t d a b s
  | .orV t d a b p => Sys2Proof.Machine.execOrV t d a b p s
  | .xor t d a b => Sys2Proof.Machine.execXor t d a b s
  | .xorV t d a b p => Sys2Proof.Machine.execXorV t d a b p s
  | .andn t d a b => Sys2Proof.Machine.execAndn t d a b s
  | .andnV t d a b p => Sys2Proof.Machine.execAndnV t d a b p s
  | .shl t d a b => Sys2Proof.Machine.execShl t d a b s
  | .shlV t d a b p => Sys2Proof.Machine.execShlV t d a b p s
  | .shr t d a b => Sys2Proof.Machine.execShr t d a b s
  | .shrV t d a b p => Sys2Proof.Machine.execShrV t d a b p s
  | .sra t d a b => Sys2Proof.Machine.execSra t d a b s
  | .sraV t d a b p => Sys2Proof.Machine.execSraV t d a b p s
  | .rot t d a b => Sys2Proof.Machine.execRot t d a b s
  | .rotV t d a b p => Sys2Proof.Machine.execRotV t d a b p s
  | .min t d a b uns => Sys2Proof.Machine.execMin t d a b uns s
  | .minV t d a b p uns => Sys2Proof.Machine.execMinV t d a b p uns s
  | .max t d a b uns => Sys2Proof.Machine.execMax t d a b uns s
  | .maxV t d a b p uns => Sys2Proof.Machine.execMaxV t d a b p uns s
  | .clz t d a => Sys2Proof.Machine.execClz t d a s
  | .clzV t d a p => Sys2Proof.Machine.execClzV t d a p s
  | .ctz t d a => Sys2Proof.Machine.execCtz t d a s
  | .ctzV t d a p => Sys2Proof.Machine.execCtzV t d a p s
  | .popc t d a => Sys2Proof.Machine.execPopc t d a s
  | .popcV t d a p => Sys2Proof.Machine.execPopcV t d a p s
  | .brev t d a => Sys2Proof.Machine.execBrev t d a s
  | .brevV t d a p => Sys2Proof.Machine.execBrevV t d a p s
  | .bswap t d a => Sys2Proof.Machine.execBswap t d a s
  | .bswapV t d a p => Sys2Proof.Machine.execBswapV t d a p s
  | .bfx t d a b sgn => Sys2Proof.Machine.execBfx t d a b sgn s
  | .bfxV t d a b p sgn => Sys2Proof.Machine.execBfxV t d a b p sgn s
  | .bfi t d a b => Sys2Proof.Machine.execBfi t d a b s
  | .bfiV t d a b p => Sys2Proof.Machine.execBfiV t d a b p s
  | .sel t d a b p => Sys2Proof.Machine.execSel t d a b p s
  | .cmp t pd a b c => Sys2Proof.Machine.execCmp t pd a b c s
  | .cmpV t pd a b p c => Sys2Proof.Machine.execCmpV t pd a b p c s
  | .pand d a b => Sys2Proof.Machine.execPand d a b s
  | .por d a b => Sys2Proof.Machine.execPor d a b s
  | .pxor d a b => Sys2Proof.Machine.execPxor d a b s
  | .pnot d a => Sys2Proof.Machine.execPnot d a s
  | .pmovP d a => Sys2Proof.Machine.execPmovP d a s
  | .pmovG d a => Sys2Proof.Machine.execPmovG d a s
  | .addi d a imm => Sys2Proof.Machine.execAddi d a imm s
  | .andi d a imm => Sys2Proof.Machine.execAndi d a imm s
  | .ori d a imm => Sys2Proof.Machine.execOri d a imm s
  | .xori d a imm => Sys2Proof.Machine.execXori d a imm s
  | .shli d a c => Sys2Proof.Machine.execShli d a c s
  | .shri d a c => Sys2Proof.Machine.execShri d a c s
  | .srai d a c => Sys2Proof.Machine.execSrai d a c s
  | .movi d imm => Sys2Proof.Machine.execMovi d imm s
  | .movh d q v => Sys2Proof.Machine.execMovh d q v s
  | .lea d a b sh => Sys2Proof.Machine.execLea d a b sh s
  | .fadd t d a b rm => Sys2Proof.Machine.execFadd t d a b rm s
  | .faddV t d a b p rm => Sys2Proof.Machine.execFaddV t d a b p rm s
  | .fsub t d a b rm => Sys2Proof.Machine.execFsub t d a b rm s
  | .fsubV t d a b p rm => Sys2Proof.Machine.execFsubV t d a b p rm s
  | .fmul t d a b rm => Sys2Proof.Machine.execFmul t d a b rm s
  | .fmulV t d a b p rm => Sys2Proof.Machine.execFmulV t d a b p rm s
  | .fma t d a b rm => Sys2Proof.Machine.execFma t d a b rm s
  | .fmaV t d a b p rm => Sys2Proof.Machine.execFmaV t d a b p rm s
  | .fms t d a b rm => Sys2Proof.Machine.execFms t d a b rm s
  | .fmsV t d a b p rm => Sys2Proof.Machine.execFmsV t d a b p rm s
  | .fnma t d a b rm => Sys2Proof.Machine.execFnma t d a b rm s
  | .fnmaV t d a b p rm => Sys2Proof.Machine.execFnmaV t d a b p rm s
  | .fdiv t d a la rm => Sys2Proof.Machine.execFdiv t d a la rm s
  | .fdivV t d a p la rm => Sys2Proof.Machine.execFdivV t d a p la rm s
  | .fsqrt t d a la rm => Sys2Proof.Machine.execFsqrt t d a la rm s
  | .fsqrtV t d a p la rm => Sys2Proof.Machine.execFsqrtV t d a p la rm s
  | .fmin t d a b => Sys2Proof.Machine.execFmin t d a b s
  | .fminV t d a b p => Sys2Proof.Machine.execFminV t d a b p s
  | .fmax t d a b => Sys2Proof.Machine.execFmax t d a b s
  | .fmaxV t d a b p => Sys2Proof.Machine.execFmaxV t d a b p s
  | .fabs t d a => Sys2Proof.Machine.execFabs t d a s
  | .fabsV t d a p => Sys2Proof.Machine.execFabsV t d a p s
  | .fneg t d a => Sys2Proof.Machine.execFneg t d a s
  | .fnegV t d a p => Sys2Proof.Machine.execFnegV t d a p s
  | .fcpys t d a b => Sys2Proof.Machine.execFcpys t d a b s
  | .fcpysV t d a b p => Sys2Proof.Machine.execFcpysV t d a b p s
  | .fcmp t pd a b c => Sys2Proof.Machine.execFcmp t pd a b c s
  | .fcmpV dbl pd a b p c => Sys2Proof.Machine.execFcmpV dbl pd a b p c s
  | .fclass t d a => Sys2Proof.Machine.execFclass t d a s
  | .fclassV t d a p => Sys2Proof.Machine.execFclassV t d a p s
  | .frint t d a rm => Sys2Proof.Machine.execFrint t d a rm s
  | .frintV t d a p rm => Sys2Proof.Machine.execFrintV t d a p rm s
  | .fcvt t d a sat src rm => Sys2Proof.Machine.execFcvt t d a sat src rm s
  | .fcvtV t d a sat src p rm => Sys2Proof.Machine.execFcvtV t d a sat src p rm s
  | .fcvti t d a sat uns it rm => Sys2Proof.Machine.execFcvti t d a sat uns it rm s
  | .fcvtiV t d a sat uns it p rm => Sys2Proof.Machine.execFcvtiV t d a sat uns it p rm s
  | .icvtf t d a uns it rm => Sys2Proof.Machine.execIcvtf t d a uns it rm s
  | .icvtfV t d a uns it p rm => Sys2Proof.Machine.execIcvtfV t d a uns it p rm s
  | .fexp2 t d a la rm => Sys2Proof.Machine.execFexp2 t d a la rm s
  | .fexp2V t d a p la rm => Sys2Proof.Machine.execFexp2V t d a p la rm s
  | .flog2 t d a la rm => Sys2Proof.Machine.execFlog2 t d a la rm s
  | .flog2V t d a p la rm => Sys2Proof.Machine.execFlog2V t d a p la rm s
  | .frcp t d a la rm => Sys2Proof.Machine.execFrcp t d a la rm s
  | .frcpV t d a p la rm => Sys2Proof.Machine.execFrcpV t d a p la rm s
  | .frsq t d a la rm => Sys2Proof.Machine.execFrsq t d a la rm s
  | .frsqV t d a p la rm => Sys2Proof.Machine.execFrsqV t d a p la rm s
  | .fsinpi t d a la rm => Sys2Proof.Machine.execFsinpi t d a la rm s
  | .fsinpiV t d a p la rm => Sys2Proof.Machine.execFsinpiV t d a p la rm s
  | .fcospi t d a la rm => Sys2Proof.Machine.execFcospi t d a la rm s
  | .fcospiV t d a p la rm => Sys2Proof.Machine.execFcospiV t d a p la rm s
  | .ftanh t d a la rm => Sys2Proof.Machine.execFtanh t d a la rm s
  | .ftanhV t d a p la rm => Sys2Proof.Machine.execFtanhV t d a p la rm s
  | .vbcast t d a => Sys2Proof.Machine.execVbcast t d a s
  | .vext t d a b => Sys2Proof.Machine.execVext t d a b s
  | .vins t d a b => Sys2Proof.Machine.execVins t d a b s
  | .vperm t d a b p => Sys2Proof.Machine.execVperm t d a b p s
  | .vrot t d a c p => Sys2Proof.Machine.execVrot t d a c p s
  | .vred t d a fn p rm => Sys2Proof.Machine.execVred t d a fn p rm s
  | .vdot t d a b p rm => Sys2Proof.Machine.execVdot t d a b p rm s
  | .viota t d p => Sys2Proof.Machine.execViota t d p s
  | .vsel t d a b p => Sys2Proof.Machine.execVsel t d a b p s
  | .vpack t d a sat part rm => Sys2Proof.Machine.execVpack t d a sat part rm s
  | .vunpack t d a part => Sys2Proof.Machine.execVunpack t d a part s
  | .lode d a b fn => Sys2Proof.Machine.execLode d a b fn s
  | .lodeV d a b p fn => Sys2Proof.Machine.execLodeV d a b p fn s
  | .vscale d a b p rm => Sys2Proof.Machine.execVscale d a b p rm s
  | .resultArrival k ix far => Sys2Proof.Machine.execResultArrival k ix far s
  | .longLatencyFault k ix => Sys2Proof.Machine.execLongLatencyFault k ix s
  | .wake k => Sys2Proof.Machine.execWake k s
  | .storefaultRecord ix => Sys2Proof.Machine.execStorefaultRecord ix s
  | .storefaultQueueEntry core => Sys2Proof.Machine.execStorefaultQueueEntry core s
  | .heldStorePerform ix => Sys2Proof.Machine.execHeldStorePerform ix s
  | .translationWalk island cluster va => Sys2Proof.Machine.execTranslationWalk island cluster va s
  | .pageServed island va entries => Sys2Proof.Machine.execPageServed island va entries s
  | .stopeAtomic ix => Sys2Proof.Machine.execStopeAtomic ix s
  | .wcbDrain core ix => Sys2Proof.Machine.execWcbDrain core ix s
  | .l1Writeback core line evict => Sys2Proof.Machine.execL1Writeback core line evict s
  | .copyCompletion id n => Sys2Proof.Machine.execCopyCompletion id n s
  | .matrixAccept cl => Sys2Proof.Machine.execMatrixAccept cl s
  | .tileClear cl id => Sys2Proof.Machine.execTileClear cl id s
  | .tileRelease cl id => Sys2Proof.Machine.execTileRelease cl id s
  | .mldCompletion cl id n => Sys2Proof.Machine.execMldCompletion cl id n s
  | .jobBegin cl id => Sys2Proof.Machine.execJobBegin cl id s
  | .jobKstep cl id => Sys2Proof.Machine.execJobKstep cl id s
  | .jobCompletion cl id => Sys2Proof.Machine.execJobCompletion cl id s
  | .ringChunkArrival cl => Sys2Proof.Machine.execRingChunkArrival cl s
  | .ringWatchdogExpiry cl id => Sys2Proof.Machine.execRingWatchdogExpiry cl id s
  | .jobFault cl id => Sys2Proof.Machine.execJobFault cl id s
  | .mdrainPerform cl id => Sys2Proof.Machine.execMdrainPerform cl id s
  | .matrixEngineFailure cl => Sys2Proof.Machine.execMatrixEngineFailure cl s
  | .callArrival id => Sys2Proof.Machine.execCallArrival id s
  | .handlerStart id => Sys2Proof.Machine.execHandlerStart id s
  | .handlerBudget k => Sys2Proof.Machine.execHandlerBudget k s
  | .replyArrival id => Sys2Proof.Machine.execReplyArrival id s
  | .rcallTimeout id => Sys2Proof.Machine.execRcallTimeout id s
  | .handlerInstall id => Sys2Proof.Machine.execHandlerInstall id s
  | .handlerClear id => Sys2Proof.Machine.execHandlerClear id s
  | .freezeDrain id => Sys2Proof.Machine.execFreezeDrain id s
  | .thawArrival id => Sys2Proof.Machine.execThawArrival id s
  | .rowOperationPerform id n => Sys2Proof.Machine.execRowOperationPerform id n s
  | .repartition id => Sys2Proof.Machine.execRepartition id s
  | .couplingCheck id => Sys2Proof.Machine.execCouplingCheck id s
  | .fieldPhase island num j => Sys2Proof.Machine.execFieldPhase island num j s
  | .fieldPhaseBarrier island num => Sys2Proof.Machine.execFieldPhaseBarrier island num s
  | .fieldSweepEnd island num => Sys2Proof.Machine.execFieldSweepEnd island num s
  | .snapshotArrival island num => Sys2Proof.Machine.execSnapshotArrival island num s
  | .packetDependenceRead serial => Sys2Proof.Machine.execPacketDependenceRead serial s
  | .dispatchDecision island => Sys2Proof.Machine.execDispatchDecision island s
  | .crewMemoryRelease serial n => Sys2Proof.Machine.execCrewMemoryRelease serial n s
  | .spillSave k => Sys2Proof.Machine.execSpillSave k s
  | .coreFailure core => Sys2Proof.Machine.execCoreFailure core s
  | .patrolScrub loc bad => Sys2Proof.Machine.execPatrolScrub loc bad s
  | .calibration lane => Sys2Proof.Machine.execCalibration lane s
  | .refresh seam => Sys2Proof.Machine.execRefresh seam s
  | .limitSense stack x => Sys2Proof.Machine.execLimitSense stack x s
  | .clockStepUp stack => Sys2Proof.Machine.execClockStepUp stack s
  | .linkFailure link => Sys2Proof.Machine.execLinkFailure link s
  | .unitRetirement w => Sys2Proof.Machine.execUnitRetirement w s
  | .farMessageArrival module core num island req => Sys2Proof.Machine.execFarMessageArrival module core num island req s
  | .moduleReset => Sys2Proof.Machine.execModuleReset s
  | .recoveryFetch stack img => Sys2Proof.Machine.execRecoveryFetch stack img s
  | .loadimg h stack img => Sys2Proof.Machine.execLoadimg h stack img s
  | .islandCreate h num shape tenant root wpart tables => Sys2Proof.Machine.execIslandCreate h num shape tenant root wpart tables s
  | .islandDestroy h => Sys2Proof.Machine.execIslandDestroy h s
  | .put h va bytes => Sys2Proof.Machine.execPut h va bytes s
  | .get h va len => Sys2Proof.Machine.execGet h va len s
  | .launchCommand h packet => Sys2Proof.Machine.execLaunchCommand h packet s
  | .wait h va => Sys2Proof.Machine.execWait h va s
  | .freezeFrz h va len => Sys2Proof.Machine.execFreezeFrz h va len s
  | .freezeThaw h va len => Sys2Proof.Machine.execFreezeThaw h va len s
  | .freezeFrzq h va => Sys2Proof.Machine.execFreezeFrzq h va s
  | .straitOpen h reader owner base ngran rate burst => Sys2Proof.Machine.execStraitOpen h reader owner base ngran rate burst s
  | .straitClose h reader owner base => Sys2Proof.Machine.execStraitClose h reader owner base s
  | .fartab h idx module target conn port => Sys2Proof.Machine.execFartab h idx module target conn port s
  | .tlbinv h va len => Sys2Proof.Machine.execTlbinv h va len s
  | .fieldlink h num ext offset lockstep bound => Sys2Proof.Machine.execFieldlink h num ext offset lockstep bound s
  | .spillSlot h k area => Sys2Proof.Machine.execSpillSlot h k area s
  | .refillSlot h k => Sys2Proof.Machine.execRefillSlot h k s
  | .evictCluster h cl area => Sys2Proof.Machine.execEvictCluster h cl area s
  | .restoreCluster h cl area => Sys2Proof.Machine.execRestoreCluster h cl area s
  | .kill h serial => Sys2Proof.Machine.execKill h serial s
  | .telemetry h q => Sys2Proof.Machine.execTelemetry h q s
  | .unknownCommand h op => Sys2Proof.Machine.execUnknownCommand h op s
  | .illegalWord w half => Sys2Proof.Machine.execIllegalWord w half s
  | .farAccessTimeout core num => Sys2Proof.Machine.execFarAccessTimeout core num s
  | .stopeEngineFailure engine => Sys2Proof.Machine.execStopeEngineFailure engine s
  | .coreRepairedOrRetired core repaired => Sys2Proof.Machine.execCoreRepairedOrRetired core repaired s
  | .debugResume k => Sys2Proof.Machine.execDebugResume k s
  | .frameOwnershipWrite frame owner st pin => Sys2Proof.Machine.execFrameOwnershipWrite frame owner st pin s
  | .powerLoss => Sys2Proof.Machine.execPowerLoss s
  | .connectionOpen conn islands => Sys2Proof.Machine.execConnectionOpen conn islands s

end Sys2Proof.Machine
end

