-- ==== Sys2Proof/Machine/Unit.lean ====
section
/-! DEFINITION. One unit of a thread (spec/01, R32 to R37; spec/02, R39, R40, R53; spec/08, R193; spec/13, R296): what
is due before it issues, its fetch and its checks, a lone word or a pair, and what its end leaves. -/

namespace Sys2Proof.Machine

open Sys2Proof

/-! ## What an instruction writes -/

/-- The registers that a half of a unit writes, at once or when a result lands (R34, R40): those of the files g, v and
p. CAS2 writes the pair of g[d], its first register a multiple of 4. -/
def instrDests : Instr → List Dest
  | .fadd _ d _ _ _ | .add _ d _ _ _ | .sub _ d _ _ _ | .mul _ d _ _ | .mulh _ d _ _ _ | .div _ d _ _ _
  | .rem _ d _ _ _ | .and _ d _ _ | .or _ d _ _ | .xor _ d _ _ | .andn _ d _ _ | .shl _ d _ _ | .shr _ d _ _
  | .sra _ d _ _ | .rot _ d _ _ | .min _ d _ _ _ | .max _ d _ _ _ | .clz _ d _ | .ctz _ d _ | .popc _ d _
  | .brev _ d _ | .bswap _ d _ | .bfx _ d _ _ _ | .bfi _ d _ _ | .sel _ d _ _ _ | .pmovG d _ | .addi d _ _
  | .andi d _ _ | .ori d _ _ | .xori d _ _ | .shli d _ _ | .shri d _ _ | .srai d _ _ | .movi d _ | .movh d _ _
  | .lea d _ _ _ | .fsub _ d _ _ _ | .fmul _ d _ _ _ | .fma _ d _ _ _ | .fms _ d _ _ _ | .fnma _ d _ _ _
  | .fdiv _ d _ _ _ | .fsqrt _ d _ _ _ | .fmin _ d _ _ | .fmax _ d _ _ | .fabs _ d _ | .fneg _ d _
  | .fcpys _ d _ _ | .fclass _ d _ | .frint _ d _ _ | .fcvt _ d _ _ _ _ | .fcvti _ d _ _ _ _ _
  | .icvtf _ d _ _ _ _ | .fexp2 _ d _ _ _ | .flog2 _ d _ _ _ | .frcp _ d _ _ _ | .frsq _ d _ _ _
  | .fsinpi _ d _ _ _ | .fcospi _ d _ _ _ | .ftanh _ d _ _ _ | .vext _ d _ _ | .lode d _ _ _ | .mrd _ d _
  | .segq _ d _ _ | .launch _ d _ _ | .gang _ d _ _ _ | .ldB _ _ _ d _ _ | .ldH _ _ _ d _ _ | .ldW _ _ _ d _ _
  | .ldD _ _ _ d _ _ | .ldSB _ _ _ d _ _ | .ldSH _ _ _ d _ _ | .ldSW _ _ _ d _ _ | .lds _ _ _ d _ _
  | .ldsConsume _ _ _ d _ _ | .atom _ _ _ d _ _ _ | .feq _ _ d _ | .tbtest _ d _ _ | .frzq _ d _ _
  | .fdef _ d _ _ | .fstat _ d _ | .mq _ d _ _ _ | .mqSP _ d _ _ _ | .mqr _ d _ _ _ | .mqrSP _ d _ _ _
  | .macq _ d _ | .mpoll _ d _ => [.g d]
  | .addV _ d _ _ _ _ | .subV _ d _ _ _ _ | .mulV _ d _ _ _ | .mulhV _ d _ _ _ _ | .divV _ d _ _ _ _
  | .remV _ d _ _ _ _ | .andV _ d _ _ _ | .orV _ d _ _ _ | .xorV _ d _ _ _ | .andnV _ d _ _ _ | .shlV _ d _ _ _
  | .shrV _ d _ _ _ | .sraV _ d _ _ _ | .rotV _ d _ _ _ | .minV _ d _ _ _ _ | .maxV _ d _ _ _ _ | .clzV _ d _ _
  | .ctzV _ d _ _ | .popcV _ d _ _ | .brevV _ d _ _ | .bswapV _ d _ _ | .bfxV _ d _ _ _ _ | .bfiV _ d _ _ _
  | .faddV _ d _ _ _ _ | .fsubV _ d _ _ _ _ | .fmulV _ d _ _ _ _ | .fmaV _ d _ _ _ _ | .fmsV _ d _ _ _ _
  | .fnmaV _ d _ _ _ _ | .fdivV _ d _ _ _ _ | .fsqrtV _ d _ _ _ _ | .fminV _ d _ _ _ | .fmaxV _ d _ _ _
  | .fabsV _ d _ _ | .fnegV _ d _ _ | .fcpysV _ d _ _ _ | .fclassV _ d _ _ | .frintV _ d _ _ _
  | .fcvtV _ d _ _ _ _ _ | .fcvtiV _ d _ _ _ _ _ _ | .icvtfV _ d _ _ _ _ _ | .fexp2V _ d _ _ _ _
  | .flog2V _ d _ _ _ _ | .frcpV _ d _ _ _ _ | .frsqV _ d _ _ _ _ | .fsinpiV _ d _ _ _ _ | .fcospiV _ d _ _ _ _
  | .ftanhV _ d _ _ _ _ | .vbcast _ d _ | .vins _ d _ _ | .vperm _ d _ _ _ | .vrot _ d _ _ _
  | .vred _ d _ _ _ _ | .vdot _ d _ _ _ _ | .viota _ d _ | .vsel _ d _ _ _ | .vpack _ d _ _ _ _
  | .vunpack _ d _ _ | .lodeV d _ _ _ _ | .vscale d _ _ _ _ | .ldv _ _ _ d _ _ | .ldvs _ _ _ d _ _
  | .ldvx _ _ _ d _ _ => [.v d]
  | .cmp _ d _ _ _ | .cmpV _ d _ _ _ _ | .pand d _ _ | .por d _ _ | .pxor d _ _ | .pnot d _ | .pmovP d _
  | .fcmp _ d _ _ _ | .fcmpV _ d _ _ _ _ => [.p d]
  | .call .. | .calli .. => [.g 63]
  | .loop _ a _ => [.g a]
  | .cas _ _ _ d _ _ => [.g (d.zeroExtend 6 <<< 1)]
  | .cas2 _ _ _ d _ => [.g (d.zeroExtend 6 <<< 2), .g ((d.zeroExtend 6 <<< 2) + 1)]
  | _ => []

/-- The rounding mode of an A-word that has one. -/
def instrRounding : Instr → Option Rm
  | .fadd _ _ _ _ rm | .faddV _ _ _ _ _ rm | .fsub _ _ _ _ rm | .fsubV _ _ _ _ _ rm | .fmul _ _ _ _ rm
  | .fmulV _ _ _ _ _ rm | .fma _ _ _ _ rm | .fmaV _ _ _ _ _ rm | .fms _ _ _ _ rm | .fmsV _ _ _ _ _ rm
  | .fnma _ _ _ _ rm | .fnmaV _ _ _ _ _ rm | .fdiv _ _ _ _ rm | .fdivV _ _ _ _ _ rm | .fsqrt _ _ _ _ rm
  | .fsqrtV _ _ _ _ _ rm | .frint _ _ _ rm | .frintV _ _ _ _ rm | .fcvt _ _ _ _ _ rm | .fcvtV _ _ _ _ _ _ rm
  | .fcvti _ _ _ _ _ _ rm | .fcvtiV _ _ _ _ _ _ _ rm | .icvtf _ _ _ _ _ rm | .icvtfV _ _ _ _ _ _ rm
  | .fexp2 _ _ _ _ rm | .fexp2V _ _ _ _ _ rm | .flog2 _ _ _ _ rm | .flog2V _ _ _ _ _ rm | .frcp _ _ _ _ rm
  | .frcpV _ _ _ _ _ rm | .frsq _ _ _ _ rm | .frsqV _ _ _ _ _ rm | .fsinpi _ _ _ _ rm | .fsinpiV _ _ _ _ _ rm
  | .fcospi _ _ _ _ rm | .fcospiV _ _ _ _ _ rm | .ftanh _ _ _ _ rm | .ftanhV _ _ _ _ _ rm | .vred _ _ _ _ _ rm
  | .vdot _ _ _ _ _ rm | .vpack _ _ _ _ _ rm | .vscale _ _ _ _ rm => some rm
  | _ => none

/-- Is the word an A-word of the AL format, whose result lands through a window. -/
def isLongA (i : Instr) : Bool := isLongLatency i && (instrRounding i).isSome

/-- A type that a handler may use (Table 8.2). -/
def FTy.isNear (t : FTy) : Bool := t == .f32 || t == .f64

/-- A format that a handler may use. -/
def Fmt.isNear (t : Fmt) : Bool := t == .fp32 || t == .fp64

/-- The near subset (Table 8.2): what a handler may execute. -/
def nearOk : Instr → Bool
  | .nop .. | .bc .. | .bz .. | .bnz .. | .loop .. | .bi .. | .call .. | .calli .. | .ret .. | .rret .. => true
  | .add .. | .sub .. | .mul .. | .mulh .. | .div .. | .rem .. | .and .. | .or .. | .xor .. | .andn ..
  | .shl .. | .shr .. | .sra .. | .rot .. | .min .. | .max .. | .clz .. | .ctz .. | .popc .. | .brev ..
  | .bswap .. | .bfx .. | .bfi .. | .sel .. | .cmp .. | .pand .. | .por .. | .pxor .. | .pnot .. | .pmovP ..
  | .pmovG .. | .addi .. | .andi .. | .ori .. | .xori .. | .shli .. | .shri .. | .srai .. | .movi .. | .movh ..
  | .lea .. | .lode .. => true
  | .fadd t _ _ _ rm | .fsub t _ _ _ rm | .fmul t _ _ _ rm | .fma t _ _ _ rm | .fms t _ _ _ rm
  | .fnma t _ _ _ rm | .fdiv t _ _ _ rm | .fsqrt t _ _ _ rm | .frint t _ _ rm | .fexp2 t _ _ _ rm
  | .flog2 t _ _ _ rm | .frcp t _ _ _ rm | .frsq t _ _ _ rm | .fsinpi t _ _ _ rm | .fcospi t _ _ _ rm
  | .ftanh t _ _ _ rm => FTy.isNear t && rm != .rsr
  | .fmin t _ _ _ | .fmax t _ _ _ | .fabs t _ _ | .fneg t _ _ | .fcpys t _ _ _ | .fcmp t _ _ _ _
  | .fclass t _ _ => FTy.isNear t
  | .fcvt t _ _ _ src rm => Fmt.isNear t && Fmt.isNear src && rm != .rsr
  | .fcvti t _ _ _ _ it rm => Fmt.isNear t && it != .i8 && rm != .rsr
  | .icvtf t _ _ _ it rm => Fmt.isNear t && it != .i8 && rm != .rsr
  | .ldB _ _ sg _ _ _ | .ldH _ _ sg _ _ _ | .ldW _ _ sg _ _ _ | .ldD _ _ sg _ _ _ | .ldSB _ _ sg _ _ _
  | .ldSH _ _ sg _ _ _ | .ldSW _ _ sg _ _ _ | .stB _ sg _ _ _ | .stH _ sg _ _ _ | .stW _ sg _ _ _
  | .stD _ sg _ _ _ | .stN _ sg _ _ _ | .lds _ _ sg _ _ _ | .ldsConsume _ _ sg _ _ _ | .stsProduce _ sg _ _ _
  | .stsOver _ sg _ _ _ | .feset _ sg _ | .feclr _ sg _ | .feq _ sg _ _ | .atom _ _ sg _ _ _ _
  | .cas _ _ sg _ _ _ | .cas2 _ _ sg _ _ => sg == 0
  | _ => false


/-! ## Checks of a pair (R34, R40, R53) -/

/-- The number and file of a register as PAIR gives them (R53). -/
def Dest.code : Dest → Nat
  | .g d => d.toNat
  | .v d => d.toNat + 2 ^ 12
  | .p d => d.toNat + 2 * 2 ^ 12

/-- A write that is discarded: g0 or p0. -/
def Dest.isZero : Dest → Bool
  | .g d => d == 0
  | .v _ => false
  | .p d => d == 0

/-- The register for which two halves conflict. -/
def pairConflict (c a : Instr) : Option Nat :=
  match (instrDests c).find? (fun d => !d.isZero && (instrDests a).contains d) with
  | some d => some d.code
  | none =>
    match c, instrRounding a with
    | .mwr _ _ .srctr, some .rsr => some (MReg.code .srctr + 4 * 2 ^ 12)
    | _, _ => none

/-! ## Outcomes -/

/-- What follows a next state. -/
def andThen (o : Out) (k : State → State) : Out :=
  match o with
  | .next s => .next (k s)
  | .fault f => .fault f
  | .refused r => .refused r

/-! ## What is due before a unit issues (R32, R296) -/

/-- Does the entry belong to the code that issues: the handler's, or the interrupted code's (R35 item 3). -/
def Thread.mine (t : Thread) (e : Pend) : Bool := e.ofHandler == t.hstate

/-- Is the entry's fault, or its parking condition, known. -/
def Pend.known (e : Pend) : Bool :=
  match e.wait with
  | .fault _ _ k | .park _ k => k
  | .value | .atomic | .listed | .far | .port => false

/-- What waits before a unit. -/
inductive Due where
  /-- Nothing: the unit may issue. -/
  | clear (s : State)
  /-- It does not issue now. -/
  | stop (s : State)
  deriving DecidableEq, Repr

/-- An LDS in a word's list at the end of its window: the thread parks at the word (R126). -/
def State.parkListed (s : State) (i : Nat) : State :=
  match s.waits.find? (fun w => w.key == s.thr.key && (match w.req with
    | .load _ e _ _ _ => e == some i
    | .produce _ _ _ | .append _ => false)) with
  | some w => s.park (.word w.word)
  | none => s.stall

/-- A load that the port still holds: the thread parks with the LDS before it that is in a word's list, or is Stalled. -/
def State.awaitLoad (s : State) (e : Pend) : State :=
  match s.thr.pending.find? (fun f => f.wait == .listed && f.acq && Nat.blt f.access e.access) with
  | some f => s.parkListed f.seq
  | none => s.stall

/-- The entries whose count is 0 land, oldest first (R32). One that has not arrived stalls the thread, or parks it at
its word (R126); an atomic and a load held at the port are performed, and a failure becomes known. DESIGN CHOICE (log
128): both halves of a pair see what lands here, as R32's procedure has it, though R34 says that neither half sees a result
that lands before the unit. -/
def State.landDue (s : State) : Nat → Due
  | 0 => if s.thr.pending.any (fun e => s.thr.mine e && e.left == 0) then .stop s.stall else .clear s
  | n + 1 =>
    match s.thr.pending.find? (fun e => s.thr.mine e && e.left == 0) with
    | none => .clear s
    | some e =>
      match e.wait with
      | .value =>
        (s.onThr (fun t => { t.land e with pending := t.pending.erase e })).landDue n
      | .atomic =>
        let s1 := s.performMsgs (fun m => m.key == s.thr.key && m.entry == some e.seq)
        if s1.thr.pending.any (fun f => f.seq == e.seq && f.wait == .atomic) then .stop s1.stall else s1.landDue n
      | .port =>
        let s1 := s.loadTry s.thr.key e.seq
        if s1.thr.pending.any (fun f => f.seq == e.seq && f.wait == .port) then .stop (s1.awaitLoad e) else s1.landDue n
      | .fault _ _ _ | .park _ _ => .stop (s.takeFailed e)
      | .far => .stop s.stall
      | .listed => .stop (s.parkListed e.seq)

/-- The fault of the matrix engine that comes first: MATRIXOPERAND before the others (R296). -/
def Thread.matrixFault (t : Thread) : Option (Cause × Word × Word) :=
  match t.mfaults.find? (fun f => f.1 == .matrixOperand) with
  | some f => some f
  | none => t.mfaults.head?

/-- A fault of the matrix engine is delivered; its job is retried after the handler's ERET unless its engine failed. -/
def State.deliverMatrix (s : State) (f : Cause × Word × Word) : State :=
  let retry := f.1 == .matrixOperand && f.2.2.toNat / 2 ^ 52 % 8 != 6
  match s.parkFirst with
  | some p => s.takePark p
  | none =>
    (s.onThr (fun t =>
      { t with mfaults := t.mfaults.erase f
               mretry := if retry then t.mretry ++ [f.2.2.toNat % 2 ^ 48] else t.mretry })).trap f.1 f.2.1 f.2.2

/-- The trap that the unit at issue owes since its wait ended in it. -/
def Thread.unitTrap (t : Thread) : Option GrantTrap := t.grantTrap.filter (fun w => w.pc == t.duePc && w.hstate == t.hstate)

/-- The trap that the wait of the unit at issue ended in is taken. -/
def State.deliverUnit (s : State) (w : GrantTrap) : State :=
  match s.parkFirst with
  | some p => s.takePark p
  | none => s.endWindows fun s =>
    if s.thr.handlerOpen then s.stall
    else
      (s.onThr (fun t => { t with grantTrap := none })).enterTrap w.cause w.i0 w.i1 s.thr.duePc false 0

/-- The landings, and then the trap that the unit owes. -/
def State.dueUnit (s : State) : Due :=
  match s.landDue (2 * s.thr.pending.length + 2), s.thr.unitTrap with
  | .clear r, some w => .stop (r.deliverUnit w)
  | d, _ => d

/-- What is due before the unit at the pc, in the order of R296, then the landings; a trap that the unit owes comes where its
cause stands there. -/
def State.due (s : State) : Due :=
  match s.thr.pending.find? (fun e => s.thr.mine e && e.known) with
  | some e => .stop (s.takeFailed e)
  | none =>
    if s.held.any (fun h => h.key == s.thr.key && h.parked) then .stop (s.park .held)
    else
      match (if s.thr.hstate || s.thr.isHandler then none else s.ownRecord) with
      | some f => .stop (s.deliverRecord f)
      | none =>
        match s.thr.unitTrap.filter (fun w => w.cause == .matrixOperand),
          (if s.thr.hstate || s.thr.isHandler then none else s.thr.matrixFault) with
        | some w, _ => .stop (s.deliverUnit w)
        | none, some f => .stop (s.deliverMatrix f)
        | none, none => s.dueUnit

/-! ## The unit's words (R39, R53) -/

/-- The words of the unit that begins at an address. -/
inductive UnitWords where
  | lone (w : BitVec 32)
  | pair (c a : BitVec 32)
  | park (va : Nat)
  | service (va level entry : Nat)
  | fail (c : Cause) (va : Nat)
  deriving DecidableEq, Repr

/-- A fetch that did not give a word. -/
def FetchRes.failed (r : FetchRes) (va : Nat) : UnitWords :=
  match r with
  | .ok w => .lone w
  | .park a => .park a
  | .service a l e => .service a l e
  | .fail c => .fail c va

/-- The unit that begins at an address. -/
def fetchUnit (s : State) (v : View) (a : Nat) : UnitWords :=
  match fetchWord s v a with
  | .ok w =>
    if !w.getLsbD 31 && !w.getLsbD 30 && a % 8 == 0 then
      match fetchWord s v (a + 4) with
      | .ok w2 => if w2.getLsbD 31 then .pair w w2 else .lone w
      | r => r.failed (a + 4)
    else .lone w
  | r => r.failed a

/-! ## Execution -/

/-- A fetch of the thread at issue failed: a park, or a trap at the unit (R292); a handler ends (R193). -/
def State.fetchFailed (s : State) : UnitWords → State
  | .park va => if s.thr.isHandler then s.stall else s.parkPage va
  | .service va l e =>
    if s.thr.isHandler then (s.serviceFault s.thr.view 3 va l e).stall else (s.serviceFault s.thr.view 0 va l e).parkPage va
  | .fail c va => s.trap c (wordOf va) 0
  | .lone _ | .pair _ _ => s

/-- One word alone. -/
def State.runLone (s : State) (w : BitVec 32) : Out :=
  match decodeWord w with
  | .error _ => Sys2Proof.Machine.execIllegalWord w false s
  | .ok i => if s.thr.isHandler && !nearOk i then .next (s.onThr (fun t => t.handlerFault .illegal)) else exec i s

/-- The registers of one file member copied from one thread to another. -/
def Thread.copyDest (t u : Thread) : Dest → Thread
  | .g d => t.wg d (u.rg d)
  | .v d => t.wv d (u.rv d)
  | .p d => t.wp d (u.rp d)

/-- The A half as it begins: the registers of before the unit, the counter of RSR and the entry numbers as the C half
leaves them, and no flag or entry of its own yet. -/
def State.beginA (s c : State) : State :=
  s.onThr (fun t => { t with srctr := c.thr.srctr, pendSeq := c.thr.pendSeq, pending := [], flags := 0 })

/-- What the A half adds to a state: its register, flags, counter and entries. -/
def State.mergeA (s : State) (a : Instr) (r : State) : State :=
  if !s.thr.live then s
  else
    let ds := if isLongA a then [] else instrDests a
    s.onThr (fun t =>
      let u := ds.foldl (fun x d => x.copyDest r.thr d) t
      { u with srctr := r.thr.srctr, pendSeq := r.thr.pendSeq, pending := t.pending ++ r.thr.pending
               flags := t.flags ||| r.thr.flags })

/-- The A half of a unit whose C half has run to `c`. -/
def State.runA (s : State) (a : Instr) (c : State) : Out :=
  andThen (exec a (s.beginA c)) (fun r => c.mergeA a r)

/-- Does the C half come after its A half: it leaves handler state, or enters the trap path, once the unit is complete (R89,
R90). -/
def comesLast : Instr → Bool
  | .eret _ | .trap _ _ | .brk _ _ => true
  | _ => false

/-- A pair (R34, R40): the C half first; where it is not issued the A half is not either. ERET, TRAP and BRK run after their
A half. -/
def State.runPair (s : State) (c a : Instr) : Out :=
  match exec c s with
  | .next r =>
    if r.thr.unitEnd = .held then .next r
    else if comesLast c then
      match s.runA a s with
      | .next t => exec c t
      | o => o
    else s.runA a r
  | o => o

/-- A word that is illegal where it stands: ERET outside handler state (R90), RRET in a thread (R196). -/
def State.misplaced (s : State) : Instr → Bool
  | .eret _ => !s.thr.hstate
  | .rret _ _ _ => !s.thr.isHandler
  | _ => false

/-- Two words as a pair: ILLEGAL, C half first, then PAIR (R53); a handler's subset (R193). -/
def State.runWords (s : State) (wc wa : BitVec 32) : Out :=
  match decodeWord wc, decodeWord wa with
  | .error _, _ => Sys2Proof.Machine.execIllegalWord wc false s
  | .ok c, .error _ => if s.misplaced c then exec c s else Sys2Proof.Machine.execIllegalWord wa true s
  | .ok c, .ok a =>
    if s.thr.isHandler && !(nearOk c && nearOk a) then .next (s.onThr (fun t => t.handlerFault .illegal))
    else
      match pairConflict c a with
      | some r => .next (s.trap .pair (wordOf (wc.toNat + wa.toNat * 2 ^ 32)) (wordOf r))
      | none => s.runPair c a

/-- The unit at the pc, or the replay that is due, with nothing before it. DESIGN CHOICE (log 90): the entry that a
replay makes is the youngest of the thread, so it stands over another for its register that lands before the same unit. -/
def State.runUnit (s : State) : Out :=
  match s.thr.replay with
  | some p =>
    match fetchWord s s.thr.view p.pc.toNat with
    | .ok w => (s.onThr (fun t => { t with replaying := some p, pairNow := false })).runLone w
    | r => .next ((s.onThr (fun t => { t with replaying := some p })).fetchFailed (r.failed p.pc.toNat))
  | none =>
    match fetchUnit s s.thr.view s.thr.pc.toNat with
    | .lone w => (s.onThr (fun t => { t with pairNow := false })).runLone w
    | .pair c a =>
      if s.thr.inRegion (s.thr.pc.toNat + 4) then (s.onThr (fun t => { t with pairNow := true })).runWords c a
      else .next (s.onThr (fun t => t.handlerFault .badTarget))
    | r => .next (s.fetchFailed r)

/-! ## After the unit -/

/-- A handler that has ended gives its result to its call, or to its field. -/
def State.endHandler (s : State) : State :=
  match s.thr.ended with
  | none => s
  | some r =>
    match s.thr.role with
    | .crew => s
    | .call id => s.endCall id r
    | .field island num site => s.endUpdate s.thr.key island num site r

/-- The clock of a thread's stack. -/
def State.clockOf (s : State) (t : Thread) : Nat := ((s.dies.toList.getD (stackOf t.view.cluster) StackSt.reset).clk).toNat

/-- What a complete unit leaves: the counts of the window, the budget of a handler, and the turn it used. A handler that
has left its region ends at that unit (R193). -/
def State.unitDone (s : State) (before : Thread) (now : Nat) : State :=
  let replayed := before.replay.isSome
  let s1 := s.onThr (fun t =>
    let u := if replayed then t else t.countDown before.pendSeq before.hstate
    { u with replay := if replayed then none else t.replay
             replaying := none
             pairNow := false
             budget := t.budget - 1
             last := now + 1 })
  if s1.thr.isHandler && s1.thr.live && s1.thr.ended.isNone && !s1.thr.inRegion s1.thr.pc.toNat then
    s1.onThr (fun t =>
      { t with ended := some (1, 2, [BitVec.ofNat 64 Cause.badTarget.code, (before.pc - t.segs[1].base).zeroExtend 64]) })
  else s1

/-- A thread that does not wait for a queue, or for this unit, keeps no place at a queue (R256, R261). -/
def State.leavePlace (s : State) : State :=
  match s.thr.status, s.thr.wait with
  | .stalled, _ | .parked, .queue _ => s
  | _, _ => s.leaveQueues s.thr.key

/-- What a unit leaves. -/
def State.afterUnit (s : State) (before : Thread) (now : Nat) : State :=
  let s1 := if s.thr.unitEnd = .done then s.unitDone before now
    else s.onThr (fun t => { t with replaying := none, pairNow := false, last := if t.status = .stalled then t.last else now + 1 })
  s1.leavePlace.endHandler

/-- The thread at issue takes its turn: what is due, then the unit. A unit whose wait was granted completes at once (Table
11.8), and a replay goes on at once (R36), or takes the trap that its wait ended in. A handler that has used its budget ends
(R194). -/
def State.issue (s : State) : Out :=
  let s0 := s.onThr (fun t => { t with status := .ready, wait := .none, unitEnd := .held })
  let now := s.clockOf s.thr
  let before := s0.thr
  let go (u : State) : Out := andThen u.runUnit (fun r => r.afterUnit before now)
  if before.isHandler && before.ended.isNone && before.budget = 0 then
    .next (State.endHandler (s0.onThr (fun t => { t with ended := some (2, 0, []) })))
  else if before.ended.isSome then .next s0.endHandler
  else
    match before.replay, before.unitTrap with
    | some _, some w => .next ((s0.deliverUnit w).afterUnit before now)
    | some _, none => go s0
    | none, _ =>
      if before.grant.isSome then go s0
      else
        match s0.due with
        | .stop r => .next (r.afterUnit before now)
        | .clear r => go r

end Sys2Proof.Machine
end

