-- ==== Sys2Proof/Machine/Turn.lean ====
section
/-! DEFINITION. Whose turn it is (spec/11, R255): the rotation of a core's slots, the turns of handlers, and the moves
that a step chooses among. -/

namespace Sys2Proof.Machine

open Sys2Proof

/-- Is the instruction an event: a move of the module of its own, and no word that a thread fetches. -/
def isEvent : Instr → Bool
  | .resultArrival .. | .longLatencyFault .. | .wake .. | .storefaultRecord .. | .storefaultQueueEntry ..
  | .heldStorePerform .. | .translationWalk .. | .pageServed .. | .stopeAtomic .. | .wcbDrain .. | .l1Writeback ..
  | .copyCompletion .. | .matrixAccept .. | .tileClear .. | .tileRelease .. | .mldCompletion .. | .jobBegin ..
  | .jobKstep .. | .jobCompletion .. | .ringChunkArrival .. | .ringWatchdogExpiry .. | .jobFault ..
  | .mdrainPerform .. | .matrixEngineFailure .. | .callArrival .. | .handlerStart .. | .handlerBudget ..
  | .replyArrival .. | .rcallTimeout .. | .handlerInstall .. | .handlerClear .. | .freezeDrain .. | .thawArrival ..
  | .rowOperationPerform .. | .repartition .. | .couplingCheck .. | .fieldPhase .. | .fieldPhaseBarrier ..
  | .fieldSweepEnd .. | .snapshotArrival .. | .packetDependenceRead .. | .dispatchDecision .. | .crewMemoryRelease ..
  | .spillSave .. | .coreFailure .. | .patrolScrub .. | .calibration .. | .refresh .. | .limitSense ..
  | .clockStepUp .. | .linkFailure .. | .unitRetirement .. | .farMessageArrival .. | .moduleReset ..
  | .recoveryFetch .. | .loadimg .. | .islandCreate .. | .islandDestroy .. | .put .. | .get .. | .launchCommand ..
  | .wait .. | .freezeFrz .. | .freezeThaw .. | .freezeFrzq .. | .straitOpen .. | .straitClose .. | .fartab ..
  | .tlbinv .. | .fieldlink .. | .spillSlot .. | .refillSlot .. | .evictCluster .. | .restoreCluster .. | .kill ..
  | .telemetry .. | .unknownCommand .. | .farAccessTimeout .. | .stopeEngineFailure .. | .coreRepairedOrRetired ..
  | .debugResume .. | .frameOwnershipWrite .. | .powerLoss .. | .connectionOpen .. => true
  | _ => false

/-! ## The turn of a thread -/

/-- Does the thread await the result of an entry: it is due now, or the thread goes no further before it. -/
def Thread.awaits (t : Thread) (e : Pend) : Bool :=
  t.status == .stalled || (t.status == .parked && t.wait == .held) || (t.mine e && e.left == 0)

/-- The answer to a far access that its thread awaits, and that may come: what it brings, or that it fails, is open (R310). -/
def State.dueFar (s : State) (t : Thread) : State :=
  match t.pending.find? (fun e => e.wait == .far && t.awaits e && s.farReady t.key e.seq) with
  | none => s
  | some e =>
    let u : State := { s with free := s.free + 1 }
    if Config.farFails s.free then u.farFailure t.key e else u.farAnswer t.key e.seq (Config.farBytes s.free)

/-- What a stalled thread's entries have met is known by now. -/
def State.knowStalled (s : State) (t : Thread) : State :=
  if t.status = .stalled then s.modThread t.key (fun u => { u with pending := u.pending.map Pend.know }) else s

/-- A thread takes its turn. -/
def State.turnOf (s : State) (t : Thread) : Out := (((s.dueFar t).knowStalled t).focus t.key).issue

/-! ## The rotation of a core (R255) -/

/-- The thread in a slot. -/
def State.inSlot (s : State) (core slot : Nat) : Option Thread :=
  s.threads.find? (fun t => t.live && !t.isHandler && t.status != .spilled && coreIndex t.view == core && t.view.slot == slot)

/-- Can the thread issue at its own turn of cycle `c`: Ready, or Stalled by what may have ended since, and not at this cycle
already. -/
def Thread.canIssue (t : Thread) (c : Nat) : Bool :=
  decide (t.last ≤ c) && (t.status == .ready || (t.status == .stalled && t.wait == .none))

/-- May a slot borrow the free turn of cycle `c`. -/
def Thread.borrows (t : Thread) (c : Nat) : Bool :=
  t.status == .ready && !t.spilling && (t.last == 0 || decide (t.last + 3 ≤ c)) && decide (4 ≤ (t.view.slot + 8 - c % 8) % 8)

/-- The slot that a free turn goes to: the one whose last issue is oldest, the lowest on a tie. -/
def State.borrower (s : State) (core c : Nat) : Option Thread :=
  ((List.range 8).filterMap (fun i => (s.inSlot core i).bind (fun t => if t.borrows c then some t else none))).foldl
    (fun best t => match best with
      | none => some t
      | some b => if t.last < b.last then some t else some b) none

/-- A free turn. -/
def State.freeTurn (s : State) (core c : Nat) : Out :=
  match s.borrower core c with
  | none => .next s
  | some t => s.turnOf t

/-- What waits at a core's port goes on, as far as it may, in rounds: what goes lets others go. -/
def State.portRounds (s : State) (core : Nat) : Nat → State
  | 0 => s
  | n + 1 => (((s.flushPort core).heldGo core).loadsGo core).portRounds core n

/-- The far accesses that the threads of a core, parked for their held stores, made before those are answered (R236, R294). -/
def State.heldFar (s : State) (core : Nat) : State :=
  (s.threads.filter (fun t => coreIndex t.view == core && t.status == .parked && t.wait == .held)).foldl State.dueFar s

/-- The shifts whose threads have all ended complete, as soon as nothing of theirs is owed (R254). -/
def State.shiftsEnd (s : State) : State :=
  (s.shifts.filter (fun k => k.gone && k.live == 0)).foldl (fun u k => u.shiftCheck k.serial) s

/-- What waits at a core's port goes on (R236); a shift that it kept from its completion completes. -/
def State.portGoes (s : State) (core : Nat) : State :=
  let s1 := s.heldFar core
  (s1.portRounds core (s1.portItems core).length).shiftsEnd

/-- Has a slot of the core issued in cycle `c` already. -/
def State.turnUsed (s : State) (core c : Nat) : Bool :=
  s.threads.any (fun t => !t.isHandler && coreIndex t.view == core && t.last == c + 1)

/-- The turn of a core at its stack's cycle. A turn that its owner has yielded is free, and so is that of a slot that its
spill engine has stopped (R88, R257). -/
def State.slotTurn (s : State) (core c : Nat) : Out :=
  match s.inSlot core (c % 8) with
  | none => s.freeTurn core c
  | some t =>
    if t.yielded then (s.modThread t.key (fun u => { u with yielded := false, freed := c + 1 })).freeTurn core c
    else if t.spilling || t.freed == c + 1 then s.freeTurn core c
    else if t.canIssue c then s.turnOf t
    else if t.status = .stalled then .next s
    else s.freeTurn core c

/-- The turn of a core: first what waits at its port, then a unit, one in a cycle. -/
def State.coreTurn (s : State) (core : Nat) : Out :=
  let c := ((s.dies.toList.getD (stackOf (core / 4)) StackSt.reset).clk).toNat
  if s.stackStopped (stackOf (core / 4)) || (s.core core).health != .ok then .next s
  else
    let s1 := s.portGoes core
    if s1.turnUsed core c then .next s1 else s1.slotTurn core c

/-- The handlers that run. -/
def State.handlers (s : State) : List Thread := s.threads.filter (fun t => t.isHandler && t.live)

/-- The turn of a handler's context: one unit in a cycle. -/
def State.handlerTurn (s : State) (t : Thread) : Out :=
  if s.stackStopped (stackOf t.view.cluster) || Nat.blt (s.clockOf t) t.last then .next s else s.turnOf t

/-! ## Moves -/

/-- The cores of a module: four in each of 96 clusters of four stacks. -/
def coreCount : Nat := 1536

/-- A round has passed for a stack: it comes a round nearer to leaving reset, or its clock has counted on, at its own rate
(R356, R358). -/
def StackSt.tick (d : StackSt) (stack : Nat) : StackSt :=
  if d.delay = 0 then
    { d with clk := d.clk + BitVec.ofNat 64 ((d.acc + d.mhz) / 1800), acc := (d.acc + d.mhz) % 1800 }
  else { d with delay := d.delay - 1 }.leave stack

/-- The turn passes on: the cores, the handlers, the islands; then a round of every stack has passed. -/
def State.passTurn (s : State) : State :=
  if s.turn < coreCount + s.handlers.length + s.islands.length then { s with turn := s.turn + 1 }
  else { s with turn := 0, dies := Vector.ofFn (fun (j : Fin 4) => s.dies[j].tick j.val) }

/-- The turn of an island's dispatch control (R249, R261): the Held packets read their barriers, and a decision is taken if
one can be. -/
def State.islandTurn (s : State) (i : Island) : State :=
  let heads := i.queues.filterMap (fun q => q.shifts.head?)
  (heads.foldl State.tryDependence s).decision i.num

/-- A move that is listed. -/
def State.move (s : State) : Move → Out
  | .event i => if isEvent i then exec i s else .next s
  | .core c => s.coreTurn c
  | .handler k =>
    match s.thread? k with
    | none => .next s
    | some t => if t.isHandler && t.live then s.handlerTurn t else .next s

/-- The number of the step goes on. -/
def State.nextDraw (s : State) : State := { s with draw := s.draw + 1 }

/-- What happens when no move is listed and no wake is on its way: the turn of a core, of a handler, or of an island. -/
def State.rotate (s : State) : Out :=
  if s.turn < coreCount then s.passTurn.coreTurn s.turn
  else
    match s.handlers[s.turn - coreCount]? with
    | some t => s.passTurn.handlerTurn t
    | none =>
      match s.islands[s.turn - coreCount - s.handlers.length]? with
      | some i => .next (s.passTurn.islandTurn i)
      | none => .next s.passTurn

/-! ## A module with one instruction placed -/

/-- Where the page table of the placed instruction lies, and the address at which it is fetched. -/
def placedRoot : Loc := 0x10_0000
def placedPc : Nat := 0x1_0000

/-- The island of the placed instruction: tile (0, 0) of stack 0. -/
def placedIsland : Island := ⟨1, 1, .rect 0 0 0 1 1, placedRoot, 0, 0, [], [], [], []⟩

/-- The thread of the placed instruction, in the slot whose turn it is. -/
def placedThread (slot : Nat) : Thread :=
  { Thread.blank (.crew 0 0 0) with
    view := ⟨1, 0, 0, slot, 0, 0, 0, 0⟩
    status := .ready
    pc := BitVec.ofNat 52 placedPc }

/-- A Ready thread whose next unit is the instruction: an island with one page of rights R, W and X, the page's frames
and its table's owned, the word in memory, and the turn of the thread's slot. -/
def State.placeWord (s : State) (bytes w : Nat) : State :=
  let slot := ((s.dies.toList.getD 0 StackSt.reset).clk).toNat % 8
  let x := placedIsland.place placedPc
  let m := memWrite (memWrite s.mem placedRoot 8 0x1F) x bytes w
  let keep (t : Thread) : Bool := t.key != .crew 0 0 0 && coreIndex t.view != 0
  { s with
    thr := placedThread slot
    others := s.others.filter keep
    held := s.held.filter (fun h => h.key != .crew 0 0 0)
    loads := s.loads.filter (fun h => h.key != .crew 0 0 0)
    faults := s.faults.filter (fun f => f.key != .crew 0 0 0)
    mem := m
    poison := s.poison.filter (fun p => p != wordAt placedRoot && p != wordAt x)
    frames := ⟨granuleAt x, 1, 0, false⟩ :: ⟨granuleAt placedRoot, 1, 0, false⟩ ::
      s.frames.filter (fun f => f.frame != granuleAt x && f.frame != granuleAt placedRoot)
    islands := placedIsland :: s.islands.filter (fun i => i.num != 1)
    tlb := []
    wakes := []
    agenda := []
    off := false
    turn := 0
    cores := s.cores.filter (fun c => c.id != 0)
    records := s.records.filter (fun r => r.1 != lineAt x)
    dies := Vector.ofFn (fun (j : Fin 4) => if j.val = 0 then { s.dies[j] with stopped := false } else s.dies[j]) }

end Sys2Proof.Machine
end

