-- ==== Sys2Proof/Machine/Step.lean ====
section
/-! DEFINITION. The step of the module: the move that is listed first, else a wake that is on its way, else the turn of a
core, a handler or an island. -/

namespace Sys2Proof.Machine

open Sys2Proof

/-- One move of the module (log 6). A module that is off makes none, unless one is listed (log 58). -/
def step (s : State) : Host.Outcome State Fault Refusal :=
  match s.agenda with
  | m :: rest => State.move { s.nextDraw with agenda := rest } m
  | [] =>
    if s.off then .fault .moduleOff
    else
      match s.wakes with
      | k :: _ => Sys2Proof.Machine.execWake k s.nextDraw
      | [] => s.nextDraw.rotate

/-- The state with an instruction placed where the next step fetches: a program is loaded from outside the machine, and
this stands for that load. Every instruction is one word of 32 bits. -/
def State.withFetchWord (s : State) (nbits w : Nat) : State := s.placeWord (Nat.max 4 (nbits / 8)) (w % 2 ^ nbits)

end Sys2Proof.Machine
end

