-- ==== Sys2Proof/Safety.lean ====
section
/-! DEFINITION. The terms that claims use: what it means that an instruction completes and changes only this or that, the
form that memory keeps, the lanes and bits of registers, and what counts as a safe run. -/

namespace Sys2Proof.Machine

open Sys2Proof

/-! ## Completion and frame -/

/-- The instruction answers a next state in which the thread at issue has changed by `f`, its unit is complete and its pc
has moved past the unit; nothing else in the whole state has changed. -/
def completes (i : Instr) (s : State) (f : Thread → Thread) : Prop := exec i s = .next (s.onThr fun t => (f t).advance)

/-- The instruction answers a next state in which the thread at issue is `f` of itself, and nothing else has changed. -/
def becomes (i : Instr) (s : State) (f : Thread → Thread) : Prop := exec i s = .next (s.onThr f)

/-- The registers of a thread that a program can name, with what only the machine uses cleared away. -/
def Thread.named (t : Thread) : Thread :=
  { t with
    pc := 0, status := .ready, wait := .none, grant := none, grantTrap := none, pending := [], pendSeq := 0, replay := none
    replaying := none, relFence := false, pairNow := false, unitEnd := .done, mfaults := [], mretry := []
    spilling := false, yielded := false, freed := 0, woken := false, budget := 0, area := 0, ended := none, last := 0 }

/-- The threads keep their named registers from one state to another, in the same order. -/
def State.sameRegs (s t : State) : Prop := t.threads.map Thread.named = s.threads.map Thread.named

/-! ## Bits, lanes, integer results (R18, R101) -/

/-- The w bits that a function of the bit number gives. -/
def bitsOf (f : Nat → Bool) : (w : Nat) → BitVec w
  | 0 => 0#0
  | w + 1 => BitVec.cons (f w) (bitsOf f w)

/-- The low w bits of g[a]. -/
def Thread.low (t : Thread) (w : Nat) (a : BitVec 6) : BitVec w := (t.rg a).truncate w

/-- Lane j of w bits of a vector register (R18). -/
def lane (w : Nat) (x : VWord) (j : Nat) : BitVec w := x.extractLsb' (w * j) w

/-- SAT is raised, or not. -/
def Thread.satIf (t : Thread) (b : Bool) : Thread := if b then t.raise flagSAT else t

/-- A vector instruction completes with a new v[d]: lane j is `f j` where bit j of p[p] is 1 and is kept elsewhere, and
SAT is raised where an active lane saturates. -/
def lanesComplete (i : Instr) (s : State) (w : Nat) (d : BitVec 5) (p : BitVec 3) (f : Nat → BitVec w × Bool) : Prop :=
  ∃ x : VWord,
    completes i s (fun t => (t.wv d x).satIf ((List.range (512 / w)).any fun j => (s.thr.rp p).getLsbD j && (f j).2)) ∧
    ∀ j, j < 512 / w → lane w x j = if (s.thr.rp p).getLsbD j then (f j).1 else lane w (s.thr.rv d) j

/-- Both forms of an integer operation complete at both widths with the result `f` of the operands and of the destination
as read, and with SAT where `f` says so: the scalar result is sign-extended into g[d] (R101). -/
def intCompletes (scalar : IntTy → BitVec 6 → BitVec 6 → BitVec 6 → Instr)
    (vector : IntTy → BitVec 5 → BitVec 5 → BitVec 5 → BitVec 3 → Instr)
    (f : (w : Nat) → BitVec w → BitVec w → BitVec w → BitVec w × Bool) : Prop :=
  (∀ (t : IntTy) (d a b : BitVec 6) (s : State), completes (scalar t d a b) s fun u =>
    let r := f (IntTy.width t) (u.low _ a) (u.low _ b) (u.low _ d)
    (u.wg d (r.1.signExtend 64)).satIf r.2) ∧
  (∀ (t : IntTy) (d a b : BitVec 5) (p : BitVec 3) (s : State), lanesComplete (vector t d a b p) s (IntTy.width t) d p fun j =>
    f (IntTy.width t) (lane _ (s.thr.rv a) j) (lane _ (s.thr.rv b) j) (lane _ (s.thr.rv d) j))

/-! ## Floating-point results (R61, R143) -/

/-- The rounding environment of the n-th rounding of an instruction: mode, flush bits of %fmt0, and under RSR the draw of
counter %srctr + n under %srkey (R47, R61). -/
def Thread.roundEnv (t : Thread) (rm : Rm) (sat : Bool) (n : Nat) : RoundEnv :=
  ⟨rm, ⟨t.fmt[0].getLsbD 10, t.fmt[0].getLsbD 11, t.fmt[0].getLsbD 12⟩, sat,
    if rm = .rsr then (lode32 (t.srctr + BitVec.ofNat 32 n) t.srkey).toNat / 256 else 0⟩

/-- The scalar operand g[a] in a format, after FZI. -/
def Thread.operand (t : Thread) (f : Fmt) (a : BitVec 6) : FVal :=
  readFloat ⟨t.fmt[0].getLsbD 10, t.fmt[0].getLsbD 11, t.fmt[0].getLsbD 12⟩ f ((t.rg a).toNat % 2 ^ Fmt.width f)

/-- Element j of v[a] in a format, after FZI. -/
def Thread.element (t : Thread) (f : Fmt) (a : BitVec 5) (j : Nat) : FVal :=
  readFloat ⟨t.fmt[0].getLsbD 10, t.fmt[0].getLsbD 11, t.fmt[0].getLsbD 12⟩ f (lane (Fmt.width f) (t.rv a) j).toNat

/-- The RSR counter after n roundings in a mode. -/
def Thread.counted (t : Thread) (rm : Rm) (n : Nat) : Thread :=
  if rm = .rsr then { t with srctr := t.srctr + BitVec.ofNat 32 n } else t

/-- A scalar floating-point instruction completes with a result in g[d], zero-extended, its flags raised, and one rounding
counted under RSR. -/
def floatCompletes (i : Instr) (s : State) (d : BitVec 6) (rm : Rm) (r : Thread → Rounded) : Prop :=
  completes i s fun t => ((t.wg d (BitVec.ofNat 64 (r t).bits)).raise (r t).flags).counted rm 1

/-- The predicate bit that governs element j of w bits (R18, R143). -/
def governs (p : Pred) (w j : Nat) : Bool := p.getLsbD (if w = 16 then j / 2 else if w = 8 then j / 4 else if w = 4 then j / 8 else j)

/-- The union of the flags of the active elements below n. -/
def activeFlags (p : Pred) (w : Nat) (r : Nat → Rounded) (n : Nat) : Flags :=
  (List.range n).foldl (fun fl j => fl ||| (if governs p w j then (r j).flags else 0)) 0

/-- A vector floating-point instruction completes: of n elements of w bits, governed as elements of gw bits, the active ones
take their results and the others keep their bits, the flags of the active ones are raised, and `draws` roundings are
counted under RSR. -/
def elementsComplete (i : Instr) (s : State) (d : BitVec 5) (p : BitVec 3) (gw w n : Nat) (rm : Rm) (draws : Nat)
    (r : Nat → Rounded) : Prop :=
  ∃ x : VWord,
    completes i s (fun t => ((t.wv d x).raise (activeFlags (s.thr.rp p) gw r n)).counted rm draws) ∧
    ∀ j, j < 512 / w → lane w x j =
      if j < n ∧ governs (s.thr.rp p) gw j then BitVec.ofNat w (r j).bits else lane w (s.thr.rv d) j

/-- Both forms of an elementwise instruction complete at every type: the result of an element is `f` of the operands and the
destination as read. -/
def arithCompletes (scalar : FTy → BitVec 6 → BitVec 6 → BitVec 6 → Rm → Instr)
    (vector : FTy → BitVec 5 → BitVec 5 → BitVec 5 → BitVec 3 → Rm → Instr)
    (f : Fmt → RoundEnv → FVal → FVal → FVal → Rounded) : Prop :=
  (∀ (t : FTy) (d a b : BitVec 6) (rm : Rm) (s : State), floatCompletes (scalar t d a b rm) s d rm fun u =>
    f (FTy.fmt t) (u.roundEnv rm false 0) (u.operand (FTy.fmt t) a) (u.operand (FTy.fmt t) b) (u.operand (FTy.fmt t) d)) ∧
  (∀ (t : FTy) (d a b : BitVec 5) (p : BitVec 3) (rm : Rm) (s : State),
    let w := Fmt.width (FTy.fmt t)
    elementsComplete (vector t d a b p rm) s d p w w (512 / w) rm (512 / w) fun j =>
      f (FTy.fmt t) (s.thr.roundEnv rm false j) (s.thr.element (FTy.fmt t) a j) (s.thr.element (FTy.fmt t) b j) (s.thr.element (FTy.fmt t) d j))

/-- An encoding with another sign (R150): the canonical NaN for a NaN; else the bits of the magnitude, zero for a subnormal
that FZI flushes, under the sign. -/
def signedAs (t : Thread) (f : Fmt) (x : Nat) (neg : Bool) : Rounded :=
  let z : Flush := ⟨t.fmt[0].getLsbD 10, t.fmt[0].getLsbD 11, t.fmt[0].getLsbD 12⟩
  ⟨if (Fmt.unpack f x).isNaN then (Fmt.nanBits f).getD 0
    else (if z.onInput f && Fmt.isSubnormal f x then 0 else x % 2 ^ (Fmt.width f - 1)) + Fmt.signBit f neg, 0⟩

/-- Both forms of an instruction on encodings complete at every type, without a flag but those of `f`. -/
def bitsComplete (scalar : FTy → BitVec 6 → BitVec 6 → BitVec 6 → Instr)
    (vector : FTy → BitVec 5 → BitVec 5 → BitVec 5 → BitVec 3 → Instr)
    (f : Thread → Fmt → Nat → Nat → Rounded) : Prop :=
  (∀ (t : FTy) (d a b : BitVec 6) (s : State), floatCompletes (scalar t d a b) s d .rne fun u =>
    f u (FTy.fmt t) ((u.rg a).toNat % 2 ^ Fmt.width (FTy.fmt t)) ((u.rg b).toNat % 2 ^ Fmt.width (FTy.fmt t))) ∧
  (∀ (t : FTy) (d a b : BitVec 5) (p : BitVec 3) (s : State),
    let w := Fmt.width (FTy.fmt t)
    elementsComplete (vector t d a b p) s d p w w (512 / w) .rne 0 fun j =>
      f s.thr (FTy.fmt t) (lane w (s.thr.rv a) j).toNat (lane w (s.thr.rv b) j).toNat)

/-- A thread with one more pending entry of an access of the unit at issue (R32): its destination, window, value and
flags. -/
def Thread.withEntryOf (t : Thread) (access : Nat) (d : Dest) (left : Nat) (w : PendWait) (value mask : VWord) (fl : Flags) :
    Thread :=
  { t with
    pending := t.pending ++ [⟨t.pendSeq, d, left, false, value, mask, fl, t.unitPc, w, t.hstate, access, false⟩]
    pendSeq := t.pendSeq + 1 }

/-- The same for the first entry of a unit. -/
def Thread.withEntry (t : Thread) (d : Dest) (left : Nat) (w : PendWait) (value mask : VWord) (fl : Flags) : Thread :=
  t.withEntryOf t.accessNum d left w value mask fl

/-- Both forms of a long-latency floating-point instruction complete at once with a pending entry of their window, which holds
the results of the operands as they are at issue and the flags, and will write the active elements alone (R32, R143). -/
def longCompletes (scalar : FTy → BitVec 6 → BitVec 6 → BitVec 4 → Rm → Instr)
    (vector : FTy → BitVec 5 → BitVec 5 → BitVec 3 → BitVec 4 → Rm → Instr)
    (f : Fmt → RoundEnv → FVal → FVal → Rounded) : Prop :=
  (∀ (t : FTy) (d a : BitVec 6) (la : BitVec 4) (rm : Rm) (s : State), completes (scalar t d a la rm) s fun u =>
    let r := f (FTy.fmt t) (u.roundEnv rm false 0) (u.operand (FTy.fmt t) d) (u.operand (FTy.fmt t) a)
    (u.withEntry (.g d) (u.lookahead la) .value (BitVec.ofNat 512 r.bits) (BitVec.allOnes 512) r.flags).counted rm 1) ∧
  (∀ (t : FTy) (d a : BitVec 5) (p : BitVec 3) (la : BitVec 4) (rm : Rm) (s : State),
    let w := Fmt.width (FTy.fmt t)
    let r := fun j => f (FTy.fmt t) (s.thr.roundEnv rm false j) (s.thr.element (FTy.fmt t) d j) (s.thr.element (FTy.fmt t) a j)
    ∃ value mask : VWord, completes (vector t d a p la rm) s (fun u =>
      (u.withEntry (.v d) (u.lookahead la) .value value mask (activeFlags (u.rp p) w r (512 / w))).counted rm (512 / w)) ∧
      ∀ j, j < 512 / w → lane w mask j = (if governs (s.thr.rp p) w j then BitVec.allOnes w else 0) ∧
        (governs (s.thr.rp p) w j = true → lane w value j = BitVec.ofNat w (r j).bits))

/-- Node i of level l of the reduction tree over n leaves (R75): its value and the flags raised below and in it. Level 0 is
the leaves; the node of level l + 1 combines the nodes 2i and 2i + 1 of level l, and is rounding number n − n / 2^l + i. -/
def treeNode (node : RoundEnv → FVal → FVal → Rounded) (f : Fmt) (env : Nat → RoundEnv) (leaf : Nat → FVal) (n : Nat) :
    Nat → Nat → FVal × Flags
  | 0, i => (leaf i, 0)
  | l + 1, i =>
    let a := treeNode node f env leaf n l (2 * i)
    let b := treeNode node f env leaf n l (2 * i + 1)
    let r := node (env (n - n / 2 ^ l + i)) a.1 b.1
    (Fmt.unpack f r.bits, a.2 ||| b.2 ||| r.flags)

/-- The leading zero bits of a value. -/
def leadingZeros (w : Nat) (x : BitVec w) : Nat := ((List.range w).reverse.takeWhile fun j => !x.getLsbD j).length

/-- The trailing zero bits of a value. -/
def trailingZeros (w : Nat) (x : BitVec w) : Nat := ((List.range w).takeWhile fun j => !x.getLsbD j).length

/-- The one bits of a value. -/
def oneBits (w : Nat) (x : BitVec w) : Nat := ((List.range w).filter fun j => x.getLsbD j).length

/-- The position and length of the bit field that an operand names (R108). -/
def fieldOf (w : Nat) (y : BitVec w) : Nat × Nat :=
  let pos := y.toNat % 64
  (pos, if pos ≥ w then 0 else min (y.toNat / 64 % 128) (w - pos))

/-- The operation code of an A-word (R38, R51), and `none` for a C-word. -/
def opcodeA (w : BitVec 32) : Option (BitVec 6) := if w.getLsbD 31 then some (w.extractLsb' 25 6) else none

/-! ## Accesses to memory (R30, R119 to R123, R218) -/

/-- A byte whose content at its place nothing under way is about to change: it is dirty or covered in no L1, in no buffer
entry, in no store that waits at a port, not in the reach of a message, and in no word that a waiting request may write. -/
def State.settled (s : State) (x : Loc) : Bool :=
  s.cores.all (fun c =>
    c.l1.all (fun l => l.line != lineAt x || !(l.dirty ||| l.covered).getLsbD (x % 128)) &&
    c.wcb.all (fun e => e.line != lineAt x || !e.mask.getLsbD (x % 128)) &&
    c.port.all (fun p => x < p.loc || p.loc + p.size ≤ x)) &&
  s.msgs.all (fun m => x < m.loc || m.loc + m.bytes ≤ x) &&
  s.waits.all (fun w => match w.req with
    | .load _ _ _ _ _ => true
    | .produce lo n _ => x < lo || lo + n ≤ x
    | .append _ => wordAt x != w.word)

/-- The bytes outside the ranges named that are settled read as before. -/
def State.keepsMemory (s t : State) (stored : List (Loc × Nat)) : Prop :=
  ∀ x, s.settled x = true → (∀ r ∈ stored, x < r.1 ∨ r.1 + r.2 ≤ x) → memGet t.mem x = memGet s.mem x

/-- A load of one access: segment, destination, lookahead, offset, size, and what the register takes of the bytes read. -/
structure LoadForm where
  sg : BitVec 3
  d : Dest
  la : BitVec 4
  off : Word
  n : Nat
  conv : Nat → VWord

/-- The offset of a CM word: g[a] + n × SignExt(imm) (R44). -/
def Thread.immOff (t : Thread) (a : BitVec 6) (imm : BitVec 5) (n : Nat) : Word :=
  BitVec.ofInt 64 ((t.rg a).toNat + n * imm.toInt)

/-- The sign extension of the low w bits of a value, in a g register. -/
def signedG (w v : Nat) : VWord := ((BitVec.ofNat w v).signExtend 64).zeroExtend 512

/-- The loads of one access. -/
def Thread.loadForm (t : Thread) : Instr → Option LoadForm
  | .ldB _ la sg d a imm => some ⟨sg, .g d, la, t.immOff a imm 1, 1, BitVec.ofNat 512⟩
  | .ldH _ la sg d a imm => some ⟨sg, .g d, la, t.immOff a imm 2, 2, BitVec.ofNat 512⟩
  | .ldW _ la sg d a imm => some ⟨sg, .g d, la, t.immOff a imm 4, 4, BitVec.ofNat 512⟩
  | .ldD _ la sg d a imm => some ⟨sg, .g d, la, t.immOff a imm 8, 8, BitVec.ofNat 512⟩
  | .ldSB _ la sg d a imm => some ⟨sg, .g d, la, t.immOff a imm 1, 1, signedG 8⟩
  | .ldSH _ la sg d a imm => some ⟨sg, .g d, la, t.immOff a imm 2, 2, signedG 16⟩
  | .ldSW _ la sg d a imm => some ⟨sg, .g d, la, t.immOff a imm 4, 4, signedG 32⟩
  | .ldv _ la sg d a imm => if t.segs[sg.toNat].space = spLane then none
      else some ⟨sg, .v d, la, t.immOff a imm 64, 64, BitVec.ofNat 512⟩
  | _ => none

/-- The stores of one access: segment, offset, size, value. -/
def Thread.storeForm (t : Thread) : Instr → Option (BitVec 3 × Word × Nat × Nat)
  | .stB _ sg d a imm => some (sg, t.immOff a imm 1, 1, (t.low 8 d).toNat)
  | .stH _ sg d a imm => some (sg, t.immOff a imm 2, 2, (t.low 16 d).toNat)
  | .stW _ sg d a imm => some (sg, t.immOff a imm 4, 4, (t.low 32 d).toNat)
  | .stD _ sg d a imm => some (sg, t.immOff a imm 8, 8, (t.low 64 d).toNat)
  | .stv _ sg d a imm => if t.segs[sg.toNat].space = spLane then none
      else some (sg, t.immOff a imm 64, 64, (t.rv d).toNat)
  | _ => none

/-- A vector access by lanes: segment, register, lookahead, element size, and the offset of each lane (R117, Table 5.2). -/
structure LaneForm where
  sg : BitVec 3
  d : BitVec 5
  la : BitVec 4
  esz : Nat
  off : Nat → Word

/-- The vector loads by lanes: LDV in lane memory, LDVS and LDVX. -/
def Thread.laneLoad (t : Thread) : Instr → Option LaneForm
  | .ldv _ la sg d a imm => if t.segs[sg.toNat].space = spLane then some ⟨sg, d, la, 4, fun _ => t.immOff a imm 64⟩ else none
  | .ldvs _ la sg d a dbl => some ⟨sg, d, la, if dbl then 8 else 4, fun j =>
      BitVec.ofNat 64 ((t.rg (BitVec.ofNat 6 (2 * a.toNat))).toNat + j * (t.rg (BitVec.ofNat 6 (2 * a.toNat + 1))).toNat)⟩
  | .ldvx _ la sg d a dbl => some ⟨sg, d, la, if dbl then 8 else 4, fun j =>
      BitVec.ofNat 64 ((t.rg a).toNat + (lane (if dbl then 64 else 32) (t.rv d) j).toNat)⟩
  | _ => none

/-- The vector stores by lanes: STV in lane memory, STVS and STVX; the register is that of the data. -/
def Thread.laneStore (t : Thread) : Instr → Option LaneForm
  | .stv _ sg d a imm => if t.segs[sg.toNat].space = spLane then some ⟨sg, d, 0, 4, fun _ => t.immOff a imm 64⟩ else none
  | .stvs _ sg d a dbl => some ⟨sg, d, 0, if dbl then 8 else 4, fun j =>
      BitVec.ofNat 64 ((t.rg (BitVec.ofNat 6 (2 * a.toNat))).toNat + j * (t.rg (BitVec.ofNat 6 (2 * a.toNat + 1))).toNat)⟩
  | .stvx _ sg d a dbl => some ⟨sg, a, 0, if dbl then 8 else 4, fun j =>
      (lane (if dbl then 64 else 32) (t.rv d) j).zeroExtend 64⟩
  | _ => none

/-- The lanes of a form with their offsets. -/
def LaneForm.lanes (f : LaneForm) : List (Nat × Nat) := (List.range (64 / f.esz)).map fun j => (j, (f.off j).toNat)

/-- Every lane passes its checks. -/
def LaneForm.pass (f : LaneForm) (s : State) (rights : BitVec 8) (k : Acc) : Bool :=
  f.lanes.all fun p => (s.laneCheck f.sg p.2 f.esz rights k).isNone

/-- Nothing that comes before the thread's accesses waits at its core's port: no store or load is there, no atomic of the core
or of the thread is on its way, and no operation of the core or of the thread is held (R235, R236). -/
def State.portClear (s : State) : Bool :=
  let c := coreIndex s.thr.view
  (s.core c).port.isEmpty && s.msgs.all (fun m => !(m.op.answers && (m.key == s.thr.key || coreIndex m.view == c))) &&
    s.held.all (fun h => h.key != s.thr.key && coreIndex h.view != c) && s.loads.all (fun h => coreIndex h.view != c)

/-- A load is performed at once: no LDS of the thread is still to be performed (R239), and nothing stands before it at the
port. -/
def State.readReady (s : State) : Bool := !s.thr.acquireBelow s.thr.accessNum && s.portClear

/-- A store, or any other access, is taken by the port at once and performed: no load, LDS or atomic of the thread is still to
be performed (R236), and the thread runs. -/
def State.storeReady (s : State) : Bool :=
  s.readReady && !s.thr.loadsOpen && s.thr.status == .ready && s.thr.ended.isNone

/-- A release at .dev is made at once: besides, no reduction or nibble store of the thread is on its way (R237). -/
def State.deviceReady (s : State) : Bool := s.storeReady && s.msgs.all (fun m => m.key != s.thr.key)

/-- The places that the pieces of a store write, each found in the state that the pieces before it leave. -/
def State.pieceRanges (s : State) (g : Seg) (sync quiet : Bool) : List (Nat × Nat) → Nat → List (Loc × Nat)
  | [], _ => []
  | p :: ps, v =>
    (match s.place s.thr g p.1 needW false with | .ok x => [(x, p.2)] | _ => []) ++
      (s.storePiece g p (v % 256 ^ p.2) sync quiet).pieceRanges g sync quiet ps (v / 256 ^ p.2)

/-- The places that the elements of a store write, in order: none for one that faults. -/
def State.elemRanges (s : State) (g : Seg) (sync : Bool) : List (Nat × Nat × Nat) → Bool → List (Loc × Nat)
  | [], _ => []
  | e :: es, recorded =>
    match s.storeFinding g (g.pieces e.1 e.2.1) with
    | .fault _ => (s.storeElems g sync [e] recorded).elemRanges g sync es true
    | _ => s.pieceRanges g sync recorded (g.pieces e.1 e.2.1) e.2.2 ++ (s.storeElems g sync [e] recorded).elemRanges g sync es recorded

/-- The places that a store of elements (offset, size, value) writes: none where it is held. -/
def State.storeRanges (s : State) (g : Seg) (es : List (Nat × Nat × Nat)) : List (Loc × Nat) :=
  if es.any (fun e => (s.storeFinding g (g.pieces e.1 e.2.1)).holds) then [] else s.elemRanges g s.thr.relFence es false

/-- The elements of a vector store by lanes: offset from the segment (from lane memory itself for a lane of it, R117), size
and value. -/
def LaneForm.elems (f : LaneForm) (g : Seg) (x : VWord) : List (Nat × Nat × Nat) :=
  f.lanes.map fun p => (if g.space = spLane then 512 * p.1 + p.2 else p.2, f.esz, (lane (8 * f.esz) x p.1).toNat)

/-- The segment through which the lanes of a form go: lane memory itself, whatever BASE is, or the segment (R117). -/
def laneSeg (g : Seg) : Seg := if g.space = spLane then { g with base := 0 } else g

/-- The byte that a core sees at a DRAM location through the window line: its buffer entry's, else its L1 line's, else
home's (R218, R220). -/
def State.sees (s : State) (c win : Nat) (x : Loc) : Byte :=
  match (s.core c).wcb.reverse.find? (fun e => e.window == win && e.mask.getLsbD (x % 128)) with
  | some e => e.data.extractLsb' (8 * (x % 128)) 8
  | none =>
    match (s.core c).l1? (lineAt x) with
    | some l => if l.valid.getLsbD (x % 128) then l.data.extractLsb' (8 * (x % 128)) 8 else memGet s.mem x
    | none => memGet s.mem x

/-- The thread at issue has completed its unit and its named registers, like those of every thread, are as before. -/
def State.passed (s t : State) : Prop :=
  s.sameRegs t ∧ t.thr.pc = s.thr.nextPc ∧ t.thr.unitEnd = .done ∧ t.thr.status = s.thr.status

/-- The thread has one more pending entry, as a load of the unit makes it: destination, window, all bits. -/
def State.gains (s t : State) (e : Pend) (d : Dest) (left : Nat) : Prop :=
  t.thr.pending.length = s.thr.pending.length + 1 ∧ t.thr.pending.getLast? = some e ∧ e.seq = s.thr.pendSeq ∧ e.dest = d ∧
    e.left = left ∧ e.arrived = false ∧ e.mask = BitVec.allOnes 512 ∧ e.flags = 0 ∧ e.pc = s.thr.unitPc

/-- Nothing is dirty, covered, buffered, at a port, held or on its way to memory. -/
def State.calm (s : State) : Bool :=
  s.cores.all (fun c => c.l1.all (fun l => l.dirty == 0 && l.covered == 0) && c.wcb.isEmpty && c.port.isEmpty) &&
    s.msgs.isEmpty && s.held.isEmpty

/-- No request waits at the word of a location. -/
def State.unwaited (s : State) (x : Loc) : Bool := s.waits.all fun w => w.word != wordAt x

/-- The request at the head of a word's list, `rest` behind it, has been served: it has left the list, which has been served on
from its head, and its thread is sent a wake, or its pending entry is answered (R125). -/
def State.served (t : State) (w : WordWait) (rest : List WordWait) : Prop :=
  t.waits.filter (fun r => r.word == w.word) <:+ rest ∧
    match w.req with
    | .load _ (some i) _ _ _ => ∀ v ∈ t.threads, v.key = w.key → ∀ e ∈ v.pending, e.seq = i → e.wait ≠ .listed
    | .load _ none _ _ _ | .produce _ _ _ | .append _ => w.key ∈ t.wakes

/-- A write to the location is performed: the granule is not frozen. -/
def State.writable (s : State) (x : Loc) : Bool := !(isDram x && s.isFrozen x)

/-- The bytes of a range are settled. -/
def State.settledRange (s : State) (x n : Nat) : Prop := ∀ j, j < n → s.settled (x + j) = true

/-- The thread at issue waits: its unit was not issued, and its named registers, like those of every thread, are as
before. -/
def State.waitsFor (s t : State) (w : Wait) : Prop :=
  s.sameRegs t ∧ t.thr.status = .parked ∧ t.thr.wait = w ∧ t.thr.pc = s.thr.pc ∧ t.thr.unitEnd = .held

/-- The new value of an atomic or reduction on w bits (R128, R130): old value, operand. -/
def atomNew (op : AtomOp) (uns : Bool) {w : Nat} (old x : BitVec w) : BitVec w :=
  match op with
  | .swap => x
  | .add => old + x
  | .and => old &&& x
  | .or => old ||| x
  | .xor => old ^^^ x
  | .min => if (if uns then x.ult old else x.slt old) then x else old
  | .max => if (if uns then old.ult x else old.slt x) then x else old

/-- The operation of a reduction as that of an atomic. -/
def redOp : RedOp → AtomOp
  | .add => .add | .and => .and | .or => .or | .xor => .xor | .min => .min | .max => .max

/-- The location of an operation at memory of `n` bytes passes the checks, and is found at x. -/
def State.operatesAt (s : State) (sg : BitVec 3) (a : BitVec 6) (n : Nat) (need : Need) (x : Loc) : Prop :=
  s.accCheck sg (s.thr.rg a).toNat n n rightA .atomic = none ∧ s.fieldCheck (s.thr.seg sg) (s.thr.rg a).toNat n = none ∧
    (s.thr.seg sg).space ≠ spFar ∧ s.place s.thr (s.thr.seg sg) (s.thr.rg a).toNat need false = .ok x

/-- An atomic of `n` bytes completes at once with a pending entry (two for 16 bytes, low half first) of its window: to DRAM it
is sent as a message, elsewhere it is performed with the result `new` of the old value, and so is every one of a handler; a far
one awaits its answer. -/
def atomicCompletes (i : Instr) (s : State) (sg : BitVec 3) (d a : BitVec 6) (la : BitVec 4) (n : Nat) (op : MemOp)
    (x y : BitVec 128) (new : Nat → Nat) : Prop :=
  let g := s.thr.seg sg
  let va := g.base.toNat + (s.thr.rg a).toNat
  let entries (w : PendWait) (old : Nat) (u : Thread) : Thread :=
    let u1 := u.withEntry (.g d) (u.lookahead la) w (BitVec.ofNat 512 (old % 2 ^ 64)) (BitVec.allOnes 512) 0
    if n = 16 then u1.withEntryOf u.accessNum (.g (d + 1)) (u.lookahead la) w (BitVec.ofNat 512 (old / 2 ^ 64)) (BitVec.allOnes 512) 0
    else u1
  (∀ z, s.operatesAt sg a n needRW z → s.storeReady = true → s.thr.isHandler = false →
    (isDram z = true → ∃ t : State, exec i s = .next t ∧ s.passed t ∧ s.keepsMemory t [] ∧
      t.thr.pending = (entries .atomic 0 s.thr).pending ∧
      t.msgs = s.msgs ++ [⟨s.thr.key, s.thr.view, z, n, op, x, y, some s.thr.pendSeq, va, s.thr.unitPc.toNat, s.thr.accessNum,
        s.portOrd⟩]) ∧
    (isDram z = false → s.poisoned z n = false → s.padHealth z = .ok → ∃ t : State, exec i s = .next t ∧ s.passed t ∧
      s.keepsMemory t [(z, n)] ∧ memRead t.mem z n = new (memRead s.mem z n) ∧
      t.thr.pending = (entries .value (memRead s.mem z n) s.thr).pending)) ∧
  (∀ z, s.operatesAt sg a n needRW z → s.thr.isHandler = true → s.writable z = true → s.poisoned z n = false →
    s.padHealth z ≠ .retired → s.settledRange z n → ∃ t : State, exec i s = .next t ∧ s.passed t ∧
      s.keepsMemory t [(z, n)] ∧ memRead t.mem z n = new (memRead s.mem z n) ∧
      t.thr.pending = (entries .value (memRead s.mem z n) s.thr).pending) ∧
  (s.accCheck sg (s.thr.rg a).toNat n n rightA .atomic = none →
    s.fieldCheck g (s.thr.rg a).toNat n = none → g.space = spFar →
    ∃ t : State, exec i s = .next t ∧ s.passed t ∧ t.mem = s.mem ∧ t.thr.pending = (entries .far 0 s.thr).pending)

/-- A reduction of `n` bytes completes without a change of a register: it is sent to the place that performs it, also far. -/
def reductionCompletes (i : Instr) (s : State) (sg : BitVec 3) (a : BitVec 6) (n : Nat) (op : MemOp) (x : BitVec 128) : Prop :=
  let g := s.thr.seg sg
  let va := g.base.toNat + (s.thr.rg a).toNat
  (∀ z, s.operatesAt sg a n needW z →
    ∃ t : State, exec i s = .next t ∧ s.passed t ∧ t.mem = s.mem ∧ t.thr.pending = s.thr.pending ∧
      t.msgs = s.msgs ++ [⟨s.thr.key, s.thr.view, z, n, op, x, 0, none, va, s.thr.unitPc.toNat, s.thr.pendSeq, s.draw⟩]) ∧
  (s.accCheck sg (s.thr.rg a).toNat n n rightA .atomic = none → s.fieldCheck g (s.thr.rg a).toNat n = none → g.space = spFar →
    ∃ t : State, exec i s = .next t ∧ s.passed t ∧ t.mem = s.mem ∧ t.thr.pending = s.thr.pending ∧
      t.farOut.length = s.farOut.length + 1)

/-! ## Operations at memory (R131) -/

/-- Nothing is dirty, covered, buffered or at a port in a core, or held. -/
def State.clean (s : State) : Bool := State.calm { s with msgs := [] }

/-- A message has been performed at its place: it has gone, its bytes hold the result of its operation, and the pending entry
that it answers the old value. -/
def State.performed (s t : State) (m : MemMsg) : Prop :=
  let w := 8 * m.bytes
  let old := memRead s.mem m.loc m.bytes
  let new := memRead t.mem m.loc m.bytes
  s.sameRegs t ∧ t.msgs = s.msgs.erase m ∧ s.keepsMemory t [(m.loc, m.bytes)] ∧
    (s.clean = true → m.bytes = 4 ∨ m.bytes = 8 →
      (∀ op uns, m.op = .atom op uns → new = (atomNew op uns (BitVec.ofNat w old) (m.a.truncate w)).toNat) ∧
      (∀ op uns, m.op = .red op uns → new = (atomNew (redOp op) uns (BitVec.ofNat w old) (m.a.truncate w)).toNat) ∧
      (∀ rm z, m.op = .fadd rm z →
        let f : Fmt := if m.bytes = 8 then .fp64 else .fp32
        new = (addRounded f ⟨rm, z, false, 0⟩ (readFloat z f old) (readFloat z f (m.a.toNat % 2 ^ w))).bits) ∧
      (m.op = .cas → new = if old = m.a.toNat % 2 ^ w then m.b.toNat % 2 ^ w else old)) ∧
    (s.clean = true → m.bytes = 16 → m.op = .cas2 → new = if old = m.a.toNat then m.b.toNat else old) ∧
    (s.clean = true → m.bytes = 1 → ∀ high, m.op = .nibble high →
      new = if high then old % 16 + 16 * (m.a.toNat % 16) else old / 16 * 16 + m.a.toNat % 16) ∧
    (s.clean = true → ∀ i, m.entry = some i → ∀ v ∈ t.threads, v.key = m.key → ∀ e ∈ v.pending, e.seq = i →
      e.wait = .value ∧ e.value = BitVec.ofNat 512 (old % 2 ^ 64))

/-- The way of a slice is one of those counted from way 15 down, from `lo` up to `hi` (R228). -/
def wayIn (lo hi w : Nat) : Prop := w ≤ 15 ∧ lo ≤ 15 - w ∧ 15 - w < hi

/-! ## Host commands (R312, R313) -/

/-- The command bears the number that its connection expects next, none is under way there, and the connection may address
the islands named, which exist. -/
def State.accepts (s : State) (h : CmdHeader) (islands : List Nat) : Prop :=
  s.serviceUp = true ∧ ∃ c : Conn, s.conns.find? (fun c => c.id == h.conn) = some c ∧ h.seq = c.expect ∧ c.busy = false ∧
    ∀ i ∈ islands, i ∈ c.islands ∧ (s.island? i).isSome = true

/-- The command has been taken and answered with a status and a body; its connection expects the next number. -/
def State.replied (t : State) (h : CmdHeader) (op status : Nat) (body : List Byte) : Prop :=
  (⟨h.conn, op, status, h.seq, h.island, h.tag, body⟩ : Reply) ∈ t.outbox ∧
    ∃ c : Conn, t.conns.find? (fun c => c.id == h.conn) = some c ∧ c.expect = h.seq + 1 ∧ c.busy = false

/-- The command has been taken, and its connection waits for its reply. -/
def State.accepted (s t : State) (h : CmdHeader) : Prop :=
  t.outbox = s.outbox ∧
    ∃ c : Conn, t.conns.find? (fun c => c.id == h.conn) = some c ∧ c.expect = h.seq + 1 ∧ c.busy = true

/-- Only replies and connections have changed, and what a GET has read so far. -/
def State.repliesOnly (s t : State) : Prop := t = { s with outbox := t.outbox, conns := t.conns, hostGets := t.hostGets }

/-- A range of virtual addresses lies in one line, at x. -/
def State.hostAt (s : State) (i : Island) (va n : Nat) (need : Need) (x : Loc) : Prop :=
  va % 128 + n ≤ 128 ∧ va + n ≤ 2 ^ 52 ∧ badAddress va = false ∧ s.locate i.view wholeSeg va need false = .ok x

/-! ## Stacks, save areas -/

/-- One stack. -/
def State.die (s : State) (stack : Nat) : StackSt := s.dies.toList.getD stack StackSt.reset

/-- The stack keeps its image slots. -/
def StackSt.sameSlots (d e : StackSt) : Prop := e.slotA = d.slotA ∧ e.slotB = d.slotB

/-- A range of memory is as another was. -/
def copied (s t : State) (x y n : Nat) : Prop := memRead t.mem y n = memRead s.mem x n

/-- Every byte outside the ranges named reads as before. -/
def State.keepsAll (s t : State) (stored : List (Loc × Nat)) : Prop :=
  ∀ x, (∀ r ∈ stored, x < r.1 ∨ r.1 + r.2 ≤ x) → memGet t.mem x = memGet s.mem x

/-! ## Threads that end (R87, R91) -/

/-- Every thread of a name has retired. -/
def State.ended (s : State) (k : ThreadKey) : Prop := ∀ v, s.thread? k = some v → v.status = .retired

/-- The threads whose name satisfies a test keep their named registers. -/
def State.sameThreads (s t : State) (p : ThreadKey → Prop) : Prop :=
  ∀ k, p k → (t.thread? k).map Thread.named = (s.thread? k).map Thread.named

/-- Some other thread of the crew of the thread at issue lives on. -/
def State.survivor (s : State) (key : ThreadKey) : Prop :=
  ∃ v ∈ s.others, v.live = true ∧ v.key ≠ key ∧ v.inCrew s.thr.crewId.1 s.thr.crewId.2 = true

/-- The bits that a machine register holds, where MWR may write it from the thread (Table 1.4, R24, R94). -/
def MReg.writable : MReg → Option Word
  | .flags => some 0x3F
  | .srkey | .srctr | .rcto => some 0xFFFFFFFF
  | .tvec => some 0xF_FFFF_FFFF_FFF8
  | .tpc => some 0xF80F_FFFF_FFFF_FFFF
  | .tcause => some 0xFF
  | .tinfo0 | .tinfo1 => some (BitVec.allOnes 64)
  | _ => none

/-! ## Matrix work (R165 to R188) -/

/-- The places of a job's operands, where every one of them is followed and passes its checks. -/
def State.operandsAt (s : State) : List Operand → Option (List (Nat × Ref))
  | [] => some []
  | o :: os =>
    match followHandle s s.thr.view s.thr.htab o.x with
    | .ok g =>
      let off := o.x.toNat / 2 ^ 16
      if (segCheck g (o.x.toNat % 2 ^ 16) off o.size o.align o.rights (o.permits g)).isSome ||
          (formCheck s s.thr.view g off o.size).isSome then none
      else (s.operandsAt os).map ((o.num, ⟨g, off, s.thr.view⟩) :: ·)
    | _ => none

/-- A range of an engine's access lies in one line and is well formed. -/
def Ref.oneLine (r : Ref) (rel n : Nat) : Prop :=
  (r.seg.base.toNat + r.off + rel) % 128 + n ≤ 128 ∧ badAddress (r.seg.base.toNat + r.off + rel) = false ∧ r.seg.space ≠ spFar

/-- An engine's barrier is found at x, and an arrival there is performed. -/
def State.barrierAt (s : State) (r : Ref) (x : Loc) : Prop :=
  s.locateNow r.view r.seg r.off needRW = .ok x ∧ s.isFrozen x = false ∧ s.padHealth x ≠ .retired ∧ s.settledRange x 16

/-- What an engine's arrival with a value leaves of a barrier (R138): the value, one more arrival. -/
def arrivedBarrier (b c : Barrier) (value : Nat) : Prop := c.value = value ∧ c.arrived = min (b.arrived + 1) 0xFFFFFFFF

/-- A queued job that the order permits begins; its tiles are cleared first where its descriptor says so (R178). -/
def State.jobBegins (s : State) (cl id : Nat) (j : Job) : Prop :=
  let m := s.matrixEng cl
  j.state = .queued → j.fin = none → s.clusterStopped cl = false → m.permitted (.job j) = true →
    (j.begun = true ∨ (fmtG j.fmt ≠ 2 ∧ j.desc.getLsbD 564 = false) → ∃ (t : State) (j' : Job), exec (.jobBegin cl id) s = .next t ∧
      s.sameRegs t ∧ t.mem = s.mem ∧ MatrixOp.job j' ∈ (t.matrixEng cl).ops ∧ j'.id = j.id ∧ j'.state = .running ∧
      j'.begun = true ∧ j'.t = j.t) ∧
    (j.begun = false → fmtG j.fmt ≠ 2 → j.desc.getLsbD 564 = true → ∃ t : State, exec (.jobBegin cl id) s = .next t ∧
      s.sameRegs t ∧ ∀ k ∈ jobTiles j.ring j.desc j.fmt j.base, ∀ w, w < 4096 → memRead t.mem (tileLoc cl k w) 4 = 0)

/-- A running job takes one k-step: every element of its tile takes its update, and no other word changes; the elements of an FP64
job are 8 bytes, rows 0 to 31 in its first tile and the others in the next (R176, R178). -/
def State.jobSteps (s : State) (cl id : Nat) (j : Job) : Prop :=
  ∀ (s1 : State) (x : StepData), j.state = .running → j.fin = none → s.clusterStopped cl = false → j.needsChunk = false →
    s.readStep j j.chunkNo = (s1, .ok x) → (j.sparse = false ∨ ∀ k ∈ x.md, badMeta k j.step = false) →
    descM j.desc ≤ 64 → descN j.desc ≤ 64 →
    let tile := j.base + j.chunkNo * descTstep j.desc
    let size := if fmtA j.fmt = 7 then 8 else 4
    let place := fun (i q : Nat) =>
      if fmtA j.fmt = 7 then tileLoc cl (tile + i / 32) (2 * (64 * (i % 32) + q)) else tileLoc cl tile (64 * i + q)
    ∃ (t : State) (fl : Flags), exec (.jobKstep cl id) s = .next t ∧ s.sameRegs t ∧
      (∀ y, y < tileLoc cl tile 0 ∨ tileLoc cl tile 0 + 4096 * size ≤ y → memGet t.mem y = memGet s1.mem y) ∧
      (∀ i q, i < 64 → q < 64 → memRead t.mem (place i q) size =
        if i < descM j.desc ∧ q < descN j.desc then (j.update x i q (memRead s1.mem (place i q) size)).bits % 256 ^ size
        else memRead s1.mem (place i q) size) ∧
      MatrixOp.job (j.nextStep fl) ∈ (t.matrixEng cl).ops

/-- An ended job completes: its record is written where it names one, then it arrives at its barrier where it names one, with its
status as the value and FAULT unless that is OK; it is gone, and its waiters wake (R182). `w` and `b` are the two operands with
their places. -/
def State.jobEnds (s : State) (cl id : Nat) (j : Job) : Prop :=
  ∀ (st : JobStatus) (w b : Option (Ref × Loc)), j.fin = some st → (s.matrixEng cl).evicted = false →
    j.refs.find? (fun r => r.1 == 6) = w.map (fun p => (6, p.1)) → j.refs.find? (fun r => r.1 == 7) = b.map (fun p => (7, p.1)) →
    (∀ r x, w = some (r, x) → s.calm = true ∧ r.oneLine 0 16 ∧ s.locateNow r.view r.seg r.off needW = .ok x ∧ s.writable x = true ∧
      s.padHealth x ≠ .retired) →
    let record := (st.code + j.flags.toNat * 2 ^ 8 + j.t % 2 ^ 32 * 2 ^ 16 + j.id % 2 ^ 48 * 2 ^ 64) % 2 ^ 128
    let after : State := match w with
      | some p => { s with mem := memWrite s.mem p.2 16 record }
      | none => s
    (∀ r y, b = some (r, y) → after.barrierAt r y ∧ ∀ r' x, w = some (r', x) → y + 16 ≤ x ∨ x + 16 ≤ y) →
    ∃ t : State, exec (.jobCompletion cl id) s = .next t ∧ s.sameRegs t ∧ MatrixOp.job j ∉ (t.matrixEng cl).ops ∧
      s.keepsMemory t ((w.toList ++ b.toList).map fun p => (p.2, 16)) ∧
      (∀ v ∈ s.threads, v.view.cluster = cl → v.wait = .job id → v.key ∈ t.wakes) ∧
      (∀ r x, w = some (r, x) → memRead t.mem x 16 = record) ∧
      (∀ r y, b = some (r, y) → arrivedBarrier (s.barrier y) (t.barrier y) st.code ∧
        (st ≠ .ok → (t.barrier y).flags.getLsbD 2 = true))

/-- A suspended job's fault reaches its owner (R184). -/
def State.jobFaults (s : State) (cl id : Nat) (j : Job) : Prop :=
  ∀ i0 i1 v, j.fault = some (i0, i1) → (s.matrixEng cl).evicted = false → s.thread? j.key = some v → v.live = true →
    ∃ t : State, exec (.jobFault cl id) s = .next t ∧ s.sameRegs t ∧ t.mem = s.mem ∧
      (t.thread? j.key).map (·.mfaults) = some (v.mfaults ++ [(.matrixOperand, i0, i1)])

/-- A ring job that waits for a chunk is broken, or times out (R181). -/
def State.jobExpires (s : State) (cl id : Nat) (j : Job) : Prop :=
  ∀ g v, j.ring = some g → j.state = .waitChunk → j.fin = none → s.ringPaused g = false → s.clusterStopped cl = false →
    (s.matrixEng cl).buffers.any (fun c => c.isFor g) = false → s.thread? j.key = some v →
    ∃ (t : State) (st : JobStatus) (f : Cause × Word × Word), exec (.ringWatchdogExpiry cl id) s = .next t ∧ s.sameRegs t ∧ t.mem = s.mem ∧
      MatrixOp.job { j with fin := some st } ∈ (t.matrixEng cl).ops ∧ (t.thread? j.key).map (·.mfaults) = some (v.mfaults ++ [f]) ∧
      (((s.gangs.find? fun k => k.id == g.gang).bind (·.failed)).isSome = true → st = .broken ∧ f.1 = .gangBroken) ∧
      (((s.gangs.find? fun k => k.id == g.gang).bind (·.failed)) = none → st = .timeout ∧ f.1 = .gangTimeout)

/-- MLD that passes its checks appends its operation (R172). -/
def State.mldQueues (s : State) : Prop :=
  let cl := s.thr.view.cluster
  let m := s.matrixEng cl
  let c := s.thr.crewId
  ∀ (u : Bool) (d a : BitVec 6) (tile : BitVec 4) (sg : BitVec 3) (bar : Seg),
    let g := s.thr.seg sg
    let off := (s.thr.rg a).toNat
    let b := s.thr.rg d
    s.engineRetired cl = false → m.owns c tile.toNat = true → s.storeReady = true →
    segCheck g sg.toNat off 16384 64 (rightR ||| rightE) g.isOperand = none → formCheck s s.thr.view g off 16384 = none →
    followHandle s s.thr.view s.thr.htab b = .ok bar → barrierCheck s bar b = none → m.taken < 16 →
    ∃ t : State, exec (.mld u d a tile sg) s = .next t ∧ s.passed t ∧ s.keepsMemory t [] ∧ t.nextId = s.nextId + 1 ∧
      (t.matrixEng cl).ops = m.ops ++ [.load s.nextId tile.toNat s.thr.key ⟨g, off, s.thr.view⟩
        ⟨bar, b.toNat / 2 ^ 16, s.thr.view⟩ 0]

/-- A job instruction that passes its checks appends its job and returns the next job number (R177, R179). -/
def State.jobsQueue (s : State) : Prop :=
  let cl := s.thr.view.cluster
  let m := s.matrixEng cl
  let c := s.thr.crewId
  ∀ (i : Instr) (u sparse isRing : Bool) (d a : BitVec 6) (tile : BitVec 4) (sg : BitVec 3) (s1 : State) (x : Nat)
      (refs : List (Nat × Ref)),
    i = (match sparse, isRing with
      | false, false => .mq u d a tile sg | true, false => .mqSP u d a tile sg
      | false, true => .mqr u d a tile sg | true, true => .mqrSP u d a tile sg) →
    let g := s.thr.seg sg
    let off := (s.thr.rg a).toNat
    let desc : BitVec 1024 := BitVec.ofNat 1024 x
    let n := descBits desc 558 2
    let f := s.thr.fmt.toList.getD n 0
    let ring := if isRing then s1.ringInfo else none
    s.engineRetired cl = false → s.storeReady = true →
    segCheck g sg.toNat off 128 128 (rightR ||| rightE) (Acc.permits .load g) = none →
    formCheck s s.thr.view g off 128 = none → g.space ≠ spFar → s.loadBytes g off 128 = (s1, .value x) →
    jobReason m c desc f tile.toNat sparse isRing ring = none →
    s1.operandsAt (jobOperands desc f (s.thr.scl.toList.getD n 0) sparse ring) = some refs → m.taken < 16 →
    ∃ (t : State) (j : Job), exec i s = .next t ∧ (s.onThr fun r => r.wg d (BitVec.ofNat 64 m.jobSeq)).passed t ∧ s.keepsMemory t [] ∧
      (t.matrixEng cl).ops = m.ops ++ [.job j] ∧ (t.matrixEng cl).jobSeq = m.jobSeq + 1 ∧ j.id = m.jobSeq ∧
      j.key = s.thr.key ∧ j.desc = desc ∧ j.fmt = f ∧ j.refs = refs ∧ j.base = tile.toNat ∧ j.sparse = sparse ∧
      j.ring = ring ∧ j.state = .queued ∧ j.begun = false ∧ j.fin = none

/-! ## Fields (R207 to R212, R262 to R279) -/

/-- Of the fields only `f` changes, and becomes `g`. -/
def State.fieldBecomes (s t : State) (f g : Field) : Prop :=
  t.fields = s.fields.map fun k => if k.island = f.island ∧ k.num = f.num then g else k

/-- A field at which a sweep may begin: it begins in states 2 and 3, unless one is under way or arrivals are due; a coupling
table that waits is then swapped in (R212). -/
def Field.swept (f : Field) : Field :=
  if (f.st = .running ∨ f.st = .stopping) ∧ f.begun = false ∧ f.due = [] then
    match f.pendingCpl with
    | none => { f with begun := true }
    | some c => { f with begun := true, cpl := c, pendingCpl := none, replaced := [], oldCpl := some f.cpl }
  else f

/-- The first bytes of a field's slabs, or of its twins. -/
def Field.slabs (f : Field) (lo : Nat) : List Loc := f.groups.map (fun e => e * 2 ^ 26 + lo)

/-- The slabs and twins of a field lie apart, in bank groups of memory. -/
def Field.placed (f : Field) : Prop :=
  f.slab + 1024 * f.rows ≤ 2 ^ 26 ∧ f.twin + 1024 * f.rows ≤ 2 ^ 26 ∧
    (f.slab + 1024 * f.rows ≤ f.twin ∨ f.twin + 1024 * f.rows ≤ f.slab) ∧ ∀ e ∈ f.groups, (e + 1) * 2 ^ 26 ≤ dramTop

/-- Every engine that can has copied its slab to its twin, and nothing else in memory has changed (R277). -/
def State.twinned (s t : State) (f : Field) : Prop :=
  s.keepsMemory t ((f.slabs f.twin).map fun x => (x, 1024 * f.rows)) ∧
    ∀ e ∈ f.groups, s.engineBad f e = false →
      memRead t.mem (e * 2 ^ 26 + f.twin) (1024 * f.rows) = memRead s.mem (e * 2 ^ 26 + f.slab) (1024 * f.rows)

/-- Two sites share no bit. -/
def Field.apart (f : Field) (a b : Nat) : Prop :=
  let w := fieldWidth f.desc
  let p := f.sitePlace a
  let q := f.sitePlace b
  p.1 ≠ q.1 ∨ p.2 + w ≤ q.2 ∨ q.2 + w ≤ p.2

/-! ## Transfers of control (R41, R44, R80) -/

/-- X + 4 × SignExt(off), X being the address of the unit at issue. -/
def Thread.relative (t : Thread) {w : Nat} (off : BitVec w) : Word := BitVec.ofInt 64 (t.unitPc.toNat + 4 * off.toInt)

/-- The target to which an instruction transfers control in a thread, if it does. -/
def transfersTo (t : Thread) : Instr → Option Word
  | .bc _ p n off | .call _ p n off => if (t.rp p).getLsbD 0 = n then none else some (t.relative off)
  | .bz _ a off => if t.rg a = 0 then some (t.relative off) else none
  | .bnz _ a off => if t.rg a = 0 then none else some (t.relative off)
  | .loop _ a off => if t.rg a = 1 then none else some (t.relative off)
  | .bi _ a | .calli _ a | .ret _ a => some (t.rg a)
  | _ => none

/-- Is the instruction a branch, a loop, a call or a register transfer. -/
def isTransfer : Instr → Bool
  | .bc .. | .call .. | .bz .. | .bnz .. | .loop .. | .bi .. | .calli .. | .ret .. => true
  | _ => false

/-- The register that a transfer writes: the return address in g63 where a call transfers, the decremented count where LOOP
is done. -/
def transferWrites (i : Instr) (t : Thread) : Thread :=
  match i with
  | .loop _ a _ => t.wg a (t.rg a - 1)
  | .call .. | .calli .. => if (transfersTo t i).isSome then t.wg 63 (t.nextPc.zeroExtend 64) else t
  | _ => t

/-! ## Traps (R295) -/

/-- The registers that entering the handler leaves, in a thread without pending entries of its handler: the saved cause,
information and return point, handler state, and the pc at %tvec. -/
def Thread.trapped (t : Thread) (c : Cause) (i0 i1 : Word) (resume : BitVec 52) (rpl : Bool) (left : Nat) : Thread :=
  { t with
    tcause := BitVec.ofNat 8 c.code, tinfo0 := i0, tinfo1 := i1
    tpc := BitVec.ofNat 64 (resume.toNat + rpl.toNat * 2 ^ 59 + left % 16 * 2 ^ 60)
    hstate := true, pc := t.tvec, status := .ready, wait := .none, grant := none
    grantTrap := if t.hstate then none else t.grantTrap
    replay := none, replaying := none, unitEnd := .held }

/-- The handler of the thread at issue has no window open: no pending entry of its own and no atomic on its way. -/
def State.windowsClear (s : State) : Bool :=
  s.thr.pending.all (fun e => !e.ofHandler) && (!s.thr.hstate || s.msgs.all (fun m => !(m.op.answers && m.key == s.thr.key)))

/-- The thread at issue can enter its trap handler: it belongs to a crew, %tvec is set and can be fetched, no window of its
handler is open, and no access of the code that it interrupts has met a parking condition, which comes first (log 16). -/
def State.canTrap (s : State) : Bool :=
  !s.thr.isHandler && s.thr.tvec != 0 && s.vectorOk && s.windowsClear && s.parkFirst.isNone

/-! ## The step (R255) -/

/-- No move or wake comes before the next turn. -/
def State.quiet (s : State) : Bool := s.agenda.isEmpty && !s.off && s.wakes.isEmpty

/-- Nothing that a core's turn takes before its unit is there: nothing waits at its port, no thread of it is parked for held
stores, and no shift waits for its completion alone. -/
def State.portIdle (s : State) (core : Nat) : Bool :=
  (s.core core).port.isEmpty && s.held.all (fun h => coreIndex h.view != core) && s.loads.all (fun h => coreIndex h.view != core) &&
    s.threads.all (fun t => coreIndex t.view != core || t.status != .parked || t.wait != .held) &&
    s.shifts.all (fun k => !k.gone || k.live != 0)

/-- The thread whose turn comes next and that can take it: the one in the slot that owns the core's cycle, where the core has
not issued in it and nothing waits at its port, or a handler. -/
def State.turnThread (s : State) : Option Thread :=
  if s.turn < coreCount then
    let st := stackOf (s.turn / 4)
    let c := (s.dies.toList.getD st StackSt.reset).clk.toNat
    if s.stackStopped st || (s.core s.turn).health != .ok || !s.portIdle s.turn || s.turnUsed s.turn c then none
    else
      match s.inSlot s.turn (c % 8) with
      | some t => if t.canIssue c && !t.yielded && !t.spilling && t.freed != c + 1 then some t else none
      | none => none
  else
    match s.handlers[s.turn - coreCount]? with
    | some t => if s.stackStopped (stackOf t.view.cluster) || s.clockOf t < t.last then none else some t
    | none => none

/-- The thread issues the unit at its pc, with what is due before it: it has not ended, no granted wait or replay goes first, and
no answer to a far access comes in this turn, nor a failure that it is Stalled for. -/
def Thread.issuesUnit (t : Thread) : Bool :=
  t.grant.isNone && t.replay.isNone && t.ended.isNone && (!t.isHandler || t.budget != 0) &&
    t.pending.all (fun e => e.wait != .far) && (t.status != .stalled || t.pending.all (fun e => !e.failed))

/-- The entry of the thread lands before its next unit: its count is 0, and it belongs to the code that issues (R32, R35). -/
def Thread.lands (t : Thread) (e : Pend) : Bool := t.mine e && e.left == 0

/-- Nothing is due before the unit at issue but results that have arrived: no fault or parking condition is known, no store is
parked, no record of a store fault, no matrix fault and no trap of the unit. -/
def State.onlyLandings (s : State) : Bool :=
  s.thr.pending.all (fun e => !(s.thr.mine e && e.known) && (!s.thr.lands e || e.wait == .value)) &&
    !s.held.any (fun h => h.key == s.thr.key && h.parked) &&
    (s.thr.hstate || s.thr.isHandler || (s.ownRecord.isNone && s.thr.mfaults.isEmpty)) && s.thr.unitTrap.isNone

/-- The state in which the thread's unit is fetched: the turn has passed on, the step has its number, and the thread is at
issue and Ready. -/
def State.atIssue (s : State) (t : Thread) : State :=
  (State.focus { s with turn := s.turn + 1, draw := s.draw + 1 } t.key).onThr fun u =>
    { u with status := .ready, wait := .none, unitEnd := .held }

/-! ## The form of memory -/

/-- Memory and the marks on its words are in their canonical forms. -/
def State.memOk (s : State) : Bool := Memory.wf s.mem && risingSet s.empty && risingSet s.poison

/-! ## Safe runs -/

/-- The state in which nothing can happen before the next module reset. -/
def State.shut (s : State) : Bool := s.off && s.agenda.isEmpty

end Sys2Proof.Machine
end

