-- ==== Sys2Proof/Certificates/Slice0/Obligations.lean ====
section
/-! DEFINITION. The statements for the provers, from the numbered rules of spec/. -/

open Sys2Proof Sys2Proof.Machine

/-! ## Instruction words (spec/02) -/

/-- Words that the manual prints beside an instruction decode to that instruction, one of each family: TRAP, MRD, LD.W, FENCE,
XFER, MQ, FRZ, HSET, ADD, ADDI, FMA, FCMP, FCVT, VPACK; and the words of Table 2.9. NOP, whose word is all zero but U, stands with
them. -/
def Obligations.SampleWordsDecode : Prop :=
  decodeWord 0x13222840 = .ok (.ldD false 2 1 5 2 0) ∧ decodeWord 0xC0830E40 = .ok (.fadd .f32 6 7 8 .rne) ∧
  decodeWord 0xAC492001 = .ok (.addi 9 9 1) ∧ decodeWord 0x412FFFFD = .ok (.bc true 1 false 0xFFFFD) ∧
  decodeWord 0x4600C012 = .ok (.trap true 0x12) ∧ decodeWord 0x47140000 = .ok (.mrd true 5 .tid) ∧
  decodeWord 0x52141882 = .ok (.ldW true 1 2 3 4 2) ∧ decodeWord 0x67000090 = .ok (.fence true .rel .clus) ∧
  decodeWord 0x6920A2D0 = .ok (.xfer true 4 10 11 2) ∧ decodeWord 0x701460D0 = .ok (.mq true 5 6 3 2) ∧
  decodeWord 0x6D0061E0 = .ok (.frz true 6 7 4) ∧ decodeWord 0x6C245019 = .ok (.hset true 1 5 3) ∧
  decodeWord 0x80218828 = .ok (.add .i64 3 4 5 .wrap) ∧ decodeWord 0xC78110D0 = .ok (.fmaV .f32 1 2 3 2 .rne) ∧
  decodeWord 0xD680882A = .ok (.fcmp .f32 1 4 5 .lt) ∧ decodeWord 0xDCC28CB0 = .ok (.fcvt .e4m3 5 6 true .fp32 .rne) ∧
  decodeWord 0xFB061000 = .ok (.vpack .e2m1 6 2 false 0 .rne) ∧ decodeWord 0x40000000 = .ok (.nop true)

/-- R38 to R52: decoding the word of any well-formed instruction gives that instruction back, with every operand at every value
its field admits. -/
def Obligations.DecodeOfEncode : Prop :=
  ∀ (i : Instr) (w : BitVec 32), i.wellFormed = true → encode i = some w → decodeWord w = .ok i

/-- R43, R52: a word that decodes is the one word of its instruction: no bit is ignored. The rows of the opcode table that are
moves of the machine, and ILLEGAL_WORD, have no word, and every other row has one. -/
def Obligations.EncodeOfDecode : Prop :=
  (∀ (w : BitVec 32) (i : Instr), decodeWord w = .ok i → encode i = some w ∧ i.wellFormed = true) ∧
  (∀ i : Instr, (encode i).isSome = true ↔ isEvent i = false ∧ ∀ w h, i ≠ .illegalWord w h)

/-! ## The step (spec/01, spec/02, spec/11) -/

/-- R32, R35, R39, R255: where nothing comes before the turn of a thread, the step first does what is due before its unit; with
nothing due but landings, and the unit at its pc a lone word that decodes to i, it is then exec of i with that thread at issue,
followed by the end of the unit (a handler runs the near subset only). What lands: each entry of the issuing code whose count is 0
leaves the window; its register takes its value (a vector register in the lanes of its mask), the youngest for a register standing;
its flags are raised; g0 and p0, and every register that no such entry names, keep what they read. The end of the unit takes
one from the count of each entry of that code made before the unit. A granted unit and a replay go before what is due
(log 14). -/
def Obligations.StepRunsLoneWord : Prop :=
  (∀ (s r : State) (t : Thread), s.quiet = true → s.turnThread = some t → s.thread? t.key = some t → t.issuesUnit = true →
    ((s.atIssue t).due = .stop r → step s = .next (r.afterUnit (s.atIssue t).thr (s.clockOf t))) ∧
    (∀ (w : BitVec 32) (i : Instr), (s.atIssue t).due = .clear r → r.thr.replay = none →
      fetchUnit r r.thr.view r.thr.pc.toNat = .lone w → decodeWord w = .ok i → (r.thr.isHandler = true → nearOk i = true) →
      step s = andThen (exec i (r.onThr fun u => { u with pairNow := false }))
        (fun q => q.afterUnit (s.atIssue t).thr (s.clockOf t)))) ∧
  (∀ s : State, s.onlyLandings = true → ∃ r : State, s.due = .clear r ∧
    r.thr.pending = s.thr.pending.filter (fun e => !s.thr.lands e) ∧ r.thr.pc = s.thr.pc ∧ r.mem = s.mem ∧ r.others = s.others ∧
    r.thr.flags = (s.thr.pending.filter s.thr.lands).foldl (fun fl e => fl ||| e.flags) s.thr.flags ∧
    (∀ i, (∀ e ∈ s.thr.pending, s.thr.lands e = true → e.dest ≠ .g i) → r.thr.rg i = s.thr.rg i) ∧
    (∀ i, (∀ e ∈ s.thr.pending, s.thr.lands e = true → e.dest ≠ .v i) → r.thr.rv i = s.thr.rv i) ∧
    (∀ i, (∀ e ∈ s.thr.pending, s.thr.lands e = true → e.dest ≠ .p i) → r.thr.rp i = s.thr.rp i) ∧
    (∀ (older younger : List Pend) (e : Pend), s.thr.pending = older ++ e :: younger → s.thr.lands e = true →
      (∀ f ∈ younger, s.thr.lands f = true → f.dest ≠ e.dest) →
      (∀ i, e.dest = .g i → r.thr.rg i = if i = 0 then 0 else e.value.truncate 64) ∧
      (∀ i, e.dest = .p i → r.thr.rp i = if i = 0 then 0xFFFF else e.value.truncate 16) ∧
      (∀ i, e.dest = .v i → (∀ f ∈ older, s.thr.lands f = true → f.dest ≠ e.dest) →
        r.thr.rv i = (s.thr.rv i &&& ~~~e.mask) ||| (e.value &&& e.mask)))) ∧
  (∀ (r : State) (before : Thread) (now : Nat), r.thr.unitEnd = .done → r.thr.isHandler = false → r.thr.role = .crew →
    r.thr.ended = none → before.replay = none → (r.afterUnit before now).thr.pending = r.thr.pending.map fun e =>
      if e.seq < before.pendSeq ∧ e.ofHandler = before.hstate then { e with left := e.left - 1 } else e)

/-- R34, R39, R40, R53: the same for a pair whose halves decode and do not write one register: both halves run, with Xn 8 on.
What that means: the C half runs on the state that what is due has left (that both halves see what landed there is the model's choice,
log 128); the A half reads the registers of before the unit, whatever the C half has written (only the counter of the random draws and
the numbering of pending entries go on from it); then the registers that the A half writes hold its results and every other register
what the C half left, its pending entries follow those of the C half, and the flags are those of both. That ERET, TRAP and BRK run after
their A half, and that a C half which is not issued holds its A half back, is the model's order (log 12). -/
def Obligations.StepRunsPair : Prop :=
  (∀ (s r : State) (t : Thread) (wc wa : BitVec 32) (c a : Instr), s.quiet = true → s.turnThread = some t →
    s.thread? t.key = some t → t.issuesUnit = true → (s.atIssue t).due = .clear r → r.thr.replay = none → r.thr.isHandler = false →
    fetchUnit r r.thr.view r.thr.pc.toNat = .pair wc wa → decodeWord wc = .ok c → decodeWord wa = .ok a →
    pairConflict c a = none →
    step s = andThen ((r.onThr fun u => { u with pairNow := true }).runPair c a)
      (fun q => q.afterUnit (s.atIssue t).thr (s.clockOf t))) ∧
  (∀ (s r q : State) (c a : Instr), exec c s = .next r → exec a (s.beginA r) = .next q →
    (s.beginA r).thr.g = s.thr.g ∧ (s.beginA r).thr.v = s.thr.v ∧ (s.beginA r).thr.p = s.thr.p ∧
    (r.thr.unitEnd = .done → comesLast c = false → r.thr.live = true →
      ∃ t : State, s.runPair c a = .next t ∧
        (∀ i, t.thr.rg i = if Dest.g i ∈ instrDests a ∧ isLongA a = false then q.thr.rg i else r.thr.rg i) ∧
        (∀ i, t.thr.rv i = if Dest.v i ∈ instrDests a ∧ isLongA a = false then q.thr.rv i else r.thr.rv i) ∧
        (∀ i, t.thr.rp i = if Dest.p i ∈ instrDests a ∧ isLongA a = false then q.thr.rp i else r.thr.rp i) ∧
        t.thr.pending = r.thr.pending ++ q.thr.pending ∧ t.thr.flags = r.thr.flags ||| q.thr.flags ∧ t.thr.pc = r.thr.pc ∧
        t.mem = r.mem) ∧
    (r.thr.unitEnd = .held → s.runPair c a = .next r))

/-- R34, R52, R53: a word that decodes to nothing traps ILLEGAL with the word in %tinfo0, and %tinfo1 1 for the A half; a pair
whose halves name one destination register traps PAIR. The traps come in that order, C half first, and neither half has an
effect. ERET outside handler state and RRET in a thread are illegal words where they stand (R90, R196), and come before an A
half that is none. -/
def Obligations.IllegalAndPairTraps : Prop :=
  (∀ (w : BitVec 32) (h : Bool) (s : State),
    exec (.illegalWord w h) s = .next (s.trap .illegal (w.zeroExtend 64) (if h then 1 else 0))) ∧
  (∀ (w : BitVec 32) (e : DecodeError) (s : State), decodeWord w = .error e →
    s.runLone w = .next (s.trap .illegal (w.zeroExtend 64) 0)) ∧
  (∀ (wc wa : BitVec 32) (s : State),
    (∀ e, decodeWord wc = .error e → s.runWords wc wa = .next (s.trap .illegal (wc.zeroExtend 64) 0)) ∧
    (∀ c e, decodeWord wc = .ok c → decodeWord wa = .error e →
      (s.misplaced c = false → s.runWords wc wa = .next (s.trap .illegal (wa.zeroExtend 64) 1)) ∧
      (s.misplaced c = true → s.runWords wc wa = .next (s.trap .illegal (wc.zeroExtend 64) 0))) ∧
    (∀ c a r, decodeWord wc = .ok c → decodeWord wa = .ok a → s.thr.isHandler = false → pairConflict c a = some r →
      s.runWords wc wa = .next (s.trap .pair (BitVec.ofNat 64 (wc.toNat + wa.toNat * 2 ^ 32)) (BitVec.ofNat 64 r))))

/-- The model's order of moves (log 6): a listed event runs as its instruction, with the list shortened; with none listed the
oldest wake is delivered. Every step has the next number. -/
def Obligations.StepTakesListedMove : Prop :=
  (∀ (s : State) (i : Instr) (rest : List Move), s.agenda = .event i :: rest → isEvent i = true →
    step s = exec i { s with agenda := rest, draw := s.draw + 1 }) ∧
  (∀ (s : State) (k : ThreadKey) (rest : List ThreadKey), s.agenda = [] → s.off = false → s.wakes = k :: rest →
    step s = exec (.wake k) { s with draw := s.draw + 1 })

/-- No instruction's meaning stops the machine, and a step stops only where the module is shut down and nothing is listed: that
stop, the fault moduleOff, is the model's choice (log 58). -/
def Obligations.StepStopsOnlyWhenShut : Prop :=
  (∀ (i : Instr) (s : State), ∃ t : State, exec i s = .next t) ∧
  (∀ s : State, (s.shut = true → step s = .fault .moduleOff) ∧ (s.shut = false → ∃ t : State, step s = .next t))

/-! ## Reset and invariants -/

/-- The thread record that the machine holds at reset, when nothing is dispatched, reads as R17 and Table 1.4 have a thread read as it is
dispatched: %flags, %srkey, %srctr, %tvec, %tpc, %tcause, %tinfo0, %tinfo1 and %sfq 0, %rcto 0x0010_0000, g0 0 and p0 0xFFFF. That the
record holds the values of dispatch at reset is the model's choice (log 2, DESIGN CHOICE). %clk reads 0 (R356). -/
def Obligations.ResetRegisters : Prop :=
  (∀ m ∈ [MReg.flags, .srkey, .srctr, .tvec, .tpc, .tcause, .tinfo0, .tinfo1, .sfq, .clk], State.reset.readM m = 0) ∧
  State.reset.readM .rcto = 0x00100000 ∧ State.reset.thr.rg 0 = 0 ∧ State.reset.thr.rp 0 = 0xFFFF

/-- Memory and its marks are in their canonical forms at reset (the form is the model's own, assumption 1). -/
def Obligations.ResetMemoryForm : Prop := State.reset.memOk = true

/-- Every step keeps memory and the marks on its words in their canonical forms, from every state in which they are. -/
def Obligations.StepKeepsMemoryForm : Prop :=
  ∀ s t : State, s.memOk = true → step s = .next t → t.memOk = true

/-- R1: what is written to memory is what is read from there, little-endian, and a write of n bytes leaves every other byte as
it was; the canonical form is kept. -/
def Obligations.MemoryReadsWhatWasWritten : Prop :=
  ∀ (m : Memory) (x n v : Nat), Memory.wf m = true →
    Memory.wf (memWrite m x n v) = true ∧ memRead (memWrite m x n v) x n = v % 256 ^ n ∧
    (∀ j, j < n → memGet (memWrite m x n v) (x + j) = BitVec.ofNat 8 (v / 256 ^ j)) ∧
    (∀ y, y < x ∨ x + n ≤ y → memGet (memWrite m x n v) y = memGet m y)

/-- R17: g0 reads 0 and p0 reads 0xFFFF whatever the thread holds, writes to them are discarded, and a write to any other
register of a file reads back and leaves the rest of its file as it was. -/
def Obligations.HardWiredRegisters : Prop :=
  (∀ (t : Thread) (x : Word) (y : Pred), t.rg 0 = 0 ∧ t.wg 0 x = t ∧ t.rp 0 = 0xFFFF ∧ t.wp 0 y = t) ∧
  (∀ (t : Thread) (i j : BitVec 6) (x : Word), i ≠ 0 → (t.wg i x).rg j = if j = i then x else t.rg j) ∧
  (∀ (t : Thread) (i j : BitVec 5) (x : VWord), (t.wv i x).rv j = if j = i then x else t.rv j) ∧
  (∀ (t : Thread) (i j : BitVec 3) (x : Pred), i ≠ 0 → (t.wp i x).rp j = if j = i then x else t.rp j)

/-! ## Integer and address arithmetic (spec/04) -/

/-- R101, R63: ADD, SUB and MUL wrap at the width of their type, in both forms, and set no flag; the saturating forms of ADD and
SUB clamp the exact sum or difference, and set SAT exactly where they clamp. -/
def Obligations.IntegerAddSubtractMultiply : Prop :=
  (intCompletes (.add · · · · .wrap) (.addV · · · · · .wrap) (fun _ x y _ => (x + y, false)) ∧
    intCompletes (.sub · · · · .wrap) (.subV · · · · · .wrap) (fun _ x y _ => (x - y, false)) ∧
    intCompletes .mul .mulV (fun _ x y _ => (x * y, false))) ∧
  (intCompletes (.add · · · · .sat) (.addV · · · · · .sat) (fun w x y _ =>
      let v := x.toInt + y.toInt
      if v < -(2 : Int) ^ (w - 1) then (BitVec.intMin w, true)
      else if (2 : Int) ^ (w - 1) ≤ v then (BitVec.intMax w, true) else (x + y, false)) ∧
    intCompletes (.sub · · · · .sat) (.subV · · · · · .sat) (fun w x y _ =>
      let v := x.toInt - y.toInt
      if v < -(2 : Int) ^ (w - 1) then (BitVec.intMin w, true)
      else if (2 : Int) ^ (w - 1) ≤ v then (BitVec.intMax w, true) else (x - y, false)) ∧
    intCompletes (.add · · · · .usat) (.addV · · · · · .usat) (fun w x y _ =>
      if 2 ^ w ≤ x.toNat + y.toNat then (BitVec.allOnes w, true) else (x + y, false)) ∧
    intCompletes (.sub · · · · .usat) (.subV · · · · · .usat) (fun w x y _ =>
      if x.toNat < y.toNat then (0#w, true) else (x - y, false)))

/-- R103: MULH gives the high half of the exact 2w-bit product, and neither MUL nor MULH sets a flag. -/
def Obligations.IntegerHighProduct : Prop :=
  intCompletes .mul .mulV (fun _ x y _ => (x * y, false)) ∧
  intCompletes (.mulh · · · · .signed) (.mulhV · · · · · .signed) (fun w x y _ =>
    (((x.signExtend (2 * w) * y.signExtend (2 * w)) >>> w).truncate w, false)) ∧
  intCompletes (.mulh · · · · .unsigned) (.mulhV · · · · · .unsigned) (fun w x y _ =>
    (((x.zeroExtend (2 * w) * y.zeroExtend (2 * w)) >>> w).truncate w, false)) ∧
  intCompletes (.mulh · · · · .signedUnsigned) (.mulhV · · · · · .signedUnsigned) (fun w x y _ =>
    (((x.signExtend (2 * w) * y.zeroExtend (2 * w)) >>> w).truncate w, false))

/-- R104: division never traps and sets no flag; by zero DIV gives all ones and REM gives A; signed division truncates
toward zero, −2^(w−1) by −1 gives −2^(w−1), and the remainder is A − B × q. -/
def Obligations.IntegerDivision : Prop :=
  intCompletes (.div · · · · false) (.divV · · · · · false) (fun w x y _ =>
    (if y = 0#w then BitVec.allOnes w else x.sdiv y, false)) ∧
  intCompletes (.div · · · · true) (.divV · · · · · true) (fun w x y _ =>
    (if y = 0#w then BitVec.allOnes w else x / y, false)) ∧
  intCompletes (.rem · · · · false) (.remV · · · · · false) (fun w x y _ =>
    (if y = 0#w then x else x - y * x.sdiv y, false)) ∧
  intCompletes (.rem · · · · true) (.remV · · · · · true) (fun w x y _ =>
    (if y = 0#w then x else x - y * (x / y), false)) ∧
  (∀ w, 0 < w → (BitVec.intMin w).sdiv (BitVec.allOnes w) = BitVec.intMin w)

/-- R101, R106: AND, OR, XOR and ANDN act bit by bit; MIN and MAX return one of their operands unchanged, by the signed or the
unsigned reading. -/
def Obligations.IntegerBitwiseMinMax : Prop :=
  (intCompletes .and .andV (fun _ x y _ => (x &&& y, false)) ∧
    intCompletes .or .orV (fun _ x y _ => (x ||| y, false)) ∧
    intCompletes .xor .xorV (fun _ x y _ => (x ^^^ y, false)) ∧
    intCompletes .andn .andnV (fun _ x y _ => (x &&& ~~~y, false))) ∧
  (intCompletes (.min · · · · false) (.minV · · · · · false) (fun _ x y _ => (if x.toInt ≤ y.toInt then x else y, false)) ∧
    intCompletes (.min · · · · true) (.minV · · · · · true) (fun _ x y _ => (if x.toNat ≤ y.toNat then x else y, false)) ∧
    intCompletes (.max · · · · false) (.maxV · · · · · false) (fun _ x y _ => (if x.toInt ≤ y.toInt then y else x, false)) ∧
    intCompletes (.max · · · · true) (.maxV · · · · · true) (fun _ x y _ => (if x.toNat ≤ y.toNat then y else x, false)))

/-- R105: only the low bits of a shift operand count, 5 of them for i32 and 6 for i64; each lane takes its own count. -/
def Obligations.IntegerShifts : Prop :=
  intCompletes .shl .shlV (fun w x y _ => (x <<< (y.toNat % w), false)) ∧
  intCompletes .shr .shrV (fun w x y _ => (x >>> (y.toNat % w), false)) ∧
  intCompletes .sra .sraV (fun w x y _ => (x.sshiftRight (y.toNat % w), false)) ∧
  intCompletes .rot .rotV (fun w x y _ => (x.rotateLeft (y.toNat % w), false))

/-- R107, R108: CLZ, CTZ, POPC, BREV and BSWAP; BFX extracts the field, BFX.S sign-extends it, and BFI puts A's low bits into
the field of the destination. -/
def Obligations.IntegerBitOperations : Prop :=
  (intCompletes (fun t d a _ => .clz t d a) (fun t d a _ p => .clzV t d a p)
      (fun w x _ _ => (BitVec.ofNat w (leadingZeros w x), false)) ∧
    intCompletes (fun t d a _ => .ctz t d a) (fun t d a _ p => .ctzV t d a p)
      (fun w x _ _ => (BitVec.ofNat w (trailingZeros w x), false)) ∧
    intCompletes (fun t d a _ => .popc t d a) (fun t d a _ p => .popcV t d a p)
      (fun w x _ _ => (BitVec.ofNat w (oneBits w x), false)) ∧
    intCompletes (fun t d a _ => .brev t d a) (fun t d a _ p => .brevV t d a p)
      (fun w x _ _ => (bitsOf (fun j => x.getLsbD (w - 1 - j)) w, false)) ∧
    intCompletes (fun t d a _ => .bswap t d a) (fun t d a _ p => .bswapV t d a p)
      (fun w x _ _ => (bitsOf (fun j => x.getLsbD (8 * (w / 8 - 1 - j / 8) + j % 8)) w, false))) ∧
  (intCompletes (.bfx · · · · false) (.bfxV · · · · · false) (fun w x y _ =>
      let f := fieldOf w y
      (bitsOf (fun j => decide (j < f.2) && x.getLsbD (f.1 + j)) w, false)) ∧
    intCompletes (.bfx · · · · true) (.bfxV · · · · · true) (fun w x y _ =>
      let f := fieldOf w y
      (bitsOf (fun j => decide (0 < f.2) && x.getLsbD (f.1 + min j (f.2 - 1))) w, false)) ∧
    intCompletes .bfi .bfiV (fun w x y z =>
      let f := fieldOf w y
      (bitsOf (fun j => if f.1 ≤ j ∧ j < f.1 + f.2 then x.getLsbD (j - f.1) else z.getLsbD j) w, false)))

/-- R109, R115, R110: SEL writes A where bit 0 of its predicate is 1 and B otherwise, at the width of its type, and no word of SEL names
p7; the predicate operations act on all sixteen bits, and a write to p0 is discarded. CMP writes 0xFFFF or 0 to its predicate;
the vector form writes bit i where the mask has bit i, keeps the others, and for i64 clears bits 15:8. -/
def Obligations.PredicateOperations : Prop :=
  (((∀ (t : IntTy) (d a b : BitVec 6) (p : BitVec 3) (s : State), completes (.sel t d a b p) s fun u =>
        u.wg d ((if (u.rp p).getLsbD 0 then u.low (IntTy.width t) a else u.low (IntTy.width t) b).signExtend 64)) ∧
      (∀ (w : BitVec 32) (t : IntTy) (d a b : BitVec 6) (p : BitVec 3), decodeWord w = .ok (.sel t d a b p) → p ≠ 7)) ∧
    ((∀ (d a b : BitVec 3) (s : State),
        completes (.pand d a b) s (fun u => u.wp d (u.rp a &&& u.rp b)) ∧
        completes (.por d a b) s (fun u => u.wp d (u.rp a ||| u.rp b)) ∧
        completes (.pxor d a b) s (fun u => u.wp d (u.rp a ^^^ u.rp b)) ∧
        completes (.pnot d a) s (fun u => u.wp d (~~~u.rp a))) ∧
      (∀ (d : BitVec 3) (a : BitVec 6) (s : State), completes (.pmovP d a) s (fun u => u.wp d ((u.rg a).truncate 16))) ∧
      (∀ (d : BitVec 6) (a : BitVec 3) (s : State), completes (.pmovG d a) s (fun u => u.wg d ((u.rp a).zeroExtend 64))) ∧
      (∀ (t : Thread) (x : Pred), t.wp 0 x = t ∧ t.rp 0 = 0xFFFF))) ∧
  (let holds (c : CmpCond) (w : Nat) (x y : BitVec w) : Bool := match c with
      | .eq => x == y | .ne => x != y | .lt => x.slt y | .ge => !x.slt y | .ltu => x.ult y | .geu => !x.ult y
    (∀ (t : IntTy) (pd : BitVec 3) (a b : BitVec 6) (c : CmpCond) (s : State), completes (.cmp t pd a b c) s fun u =>
      u.wp pd (if holds c (IntTy.width t) (u.low _ a) (u.low _ b) then 0xFFFF else 0)) ∧
    (∀ (t : IntTy) (pd : BitVec 3) (a b : BitVec 5) (p : BitVec 3) (c : CmpCond) (s : State),
      completes (.cmpV t pd a b p c) s fun u => u.wp pd (bitsOf (fun j =>
        decide (j < 512 / IntTy.width t) &&
          if (u.rp p).getLsbD j then holds c (IntTy.width t) (lane _ (u.rv a) j) (lane _ (u.rv b) j) else (u.rp pd).getLsbD j) 16)) ∧
    (∀ (t : Thread) (x : Pred), t.wp 0 x = t ∧ t.rp 0 = 0xFFFF))

/-- R111 to R114: LEA, the immediate operations, the constant shifts, MOVI and MOVH. -/
def Obligations.ImmediateOperations : Prop :=
  (∀ (d a b : BitVec 6) (sh : BitVec 3) (s : State),
    completes (.lea d a b sh) s (fun u => u.wg d (BitVec.ofNat 64 ((u.rg a).toNat + (u.rg b).toNat * 2 ^ sh.toNat)))) ∧
  (∀ (d a : BitVec 6) (imm : BitVec 13) (s : State),
    completes (.addi d a imm) s (fun u => u.wg d (BitVec.ofInt 64 ((u.rg a).toNat + imm.toInt))) ∧
    completes (.andi d a imm) s (fun u => u.wg d (u.rg a &&& BitVec.ofInt 64 imm.toInt)) ∧
    completes (.ori d a imm) s (fun u => u.wg d (u.rg a ||| BitVec.ofInt 64 imm.toInt)) ∧
    completes (.xori d a imm) s (fun u => u.wg d (u.rg a ^^^ BitVec.ofInt 64 imm.toInt))) ∧
  (∀ (d a c : BitVec 6) (s : State),
    completes (.shli d a c) s (fun u => u.wg d (BitVec.ofNat 64 ((u.rg a).toNat * 2 ^ c.toNat))) ∧
    completes (.shri d a c) s (fun u => u.wg d (BitVec.ofNat 64 ((u.rg a).toNat / 2 ^ c.toNat))) ∧
    completes (.srai d a c) s (fun u => u.wg d (BitVec.ofInt 64 ((u.rg a).toInt / 2 ^ c.toNat)))) ∧
  (∀ (d : BitVec 6) (imm : BitVec 19) (s : State), completes (.movi d imm) s (fun u => u.wg d (BitVec.ofInt 64 imm.toInt))) ∧
  (∀ (d : BitVec 6) (q : BitVec 2) (v : BitVec 16) (s : State), completes (.movh d q v) s fun u => u.wg d (bitsOf (fun j =>
    if j / 16 = q.toNat then v.getLsbD (j % 16) else (u.rg d).getLsbD j) 64))

/-! ## Transfers, traps and returns (spec/02, spec/04, spec/13) -/

/-- R80 to R86: a transfer whose target passes its checks goes there, writes what it writes, and changes nothing else; a
branch that is not taken, a LOOP that has reached 0, and NOP fall through. -/
def Obligations.TransfersComplete : Prop :=
  (∀ (u : Bool) (s : State), completes (.nop u) s id) ∧
  (∀ (i : Instr) (s : State), isTransfer i = true →
    (transfersTo s.thr i = none → completes i s (transferWrites i)) ∧
    (∀ T, transfersTo s.thr i = some T → checkTarget s s.thr.view T = .ok → s.thr.inRegion T.toNat = true →
      becomes i s (fun t => (transferWrites i t).goto (T.truncate 52))))

/-- R41: a target with bits 63:52 set traps ADDRFORM, one that is no multiple of 4 BADTARGET, the second word of a pair
MIDPAIR, and a C-word with U = 0 at an address 4 mod 8 PAIRALIGN; %tinfo0 is the target, and the transfer has no effect. -/
def Obligations.BadTargetsTrap : Prop :=
  ∀ (i : Instr) (s : State) (T : Word), isTransfer i = true → transfersTo s.thr i = some T →
    (2 ^ 52 ≤ T.toNat → exec i s = .next (s.trap .addrForm T 0)) ∧
    (T.toNat < 2 ^ 52 → T.toNat % 4 ≠ 0 → exec i s = .next (s.trap .badTarget T 0)) ∧
    (T.toNat < 2 ^ 52 → T.toNat % 8 = 4 → ∀ w prev, fetchWord s s.thr.view T.toNat = .ok w →
      fetchWord s s.thr.view (T.toNat - 4) = .ok prev →
      (w.getLsbD 31 = true → prev.getLsbD 31 = false → prev.getLsbD 30 = false →
        exec i s = .next (s.trap .midPair T 0)) ∧
      (w.getLsbD 31 = false → w.getLsbD 30 = false → exec i s = .next (s.trap .pairAlign T 0)))

/-- R295 to R298, R184, R89: a trap at the issue of a unit saves the cause, the two information words and the unit's address with RPL and
LEFT 0, sets handler state and goes to %tvec, and changes nothing else; in a thread of a crew with %tvec = 0 it terminates the
crew with that cause. TRAP and BRK complete their unit and enter the handler with cause TRAP or BRK: %tinfo0 the code, %tinfo1
the address of the unit, %tpc the next unit with RPL 0. Under debugging BRK parks the thread at the next unit instead. Before a
unit, with no entry of the window due: a held store that a page holds back parks the thread; else, outside handler state, the oldest
record of the thread leaves its core's queue and traps STOREFAULT, and with none a matrix fault traps, MATRIXOPERAND first. That a
parking condition comes before a trap is the model's choice (log 16), and that a job is retried after the handler of its fault
(log 13). -/
def Obligations.TrapEntrySaves : Prop :=
  ((∀ (s : State) (c : Cause) (i0 i1 : Word), s.canTrap = true →
        s.trap c i0 i1 = s.onThr (fun t => t.trapped c i0 i1 t.unitPc false 0)) ∧
    (∀ (s : State) (c : Cause) (i0 i1 : Word), s.thr.isHandler = false → s.thr.tvec = 0 → s.windowsClear = true →
        s.trap c i0 i1 = s.terminateCrew s.thr.crewId c)) ∧
  (∀ (u : Bool) (code : BitVec 14) (s : State),
      (s.canTrap = true → becomes (.trap u code) s (fun t =>
        { t.trapped .trap (code.zeroExtend 64) (t.unitPc.zeroExtend 64) t.nextPc false 0 with unitEnd := .done })) ∧
      (s.canTrap = true → s.thr.dbg = false → becomes (.brk u code) s (fun t =>
        { t.trapped .brk (code.zeroExtend 64) (t.unitPc.zeroExtend 64) t.nextPc false 0 with unitEnd := .done })) ∧
      (s.thr.dbg = true → becomes (.brk u code) s (fun t => { t.advance with status := .parked, wait := .debug }))) ∧
  (∀ s : State, (∀ e ∈ s.thr.pending, s.thr.mine e = true → e.known = false) →
    let parked := s.held.any fun h => h.key == s.thr.key && h.parked
    (parked = true → s.due = .stop (s.onThr fun t => { t with unitEnd := .held, status := .parked, wait := .held })) ∧
    (parked = false → s.thr.hstate = false →
      (∀ f, s.faults.find? (fun f => f.key == s.thr.key && f.stage == .queued) = some f →
        let s1 := State.enterQueue { s with faults := s.faults.erase f } f.core
        s1.canTrap = true → s.due = .stop (s1.onThr fun t => t.trapped .storeFault (BitVec.ofNat 64 f.va)
          (BitVec.ofNat 64 (f.pc % 2 ^ 52 + f.logSize * 2 ^ 52 + (if f.red then 2 ^ 55 else 0) + f.cause.code * 2 ^ 56))
          t.unitPc false 0)) ∧
      (s.faults.any (fun f => f.key == s.thr.key && f.stage == .queued) = false → s.thr.grantTrap = none →
        ∀ f, ((f ∈ s.thr.mfaults ∧ f.1 = .matrixOperand ∧ s.thr.mfaults.find? (fun g => g.1 == .matrixOperand) = some f) ∨
            ((∀ g ∈ s.thr.mfaults, g.1 ≠ .matrixOperand) ∧ s.thr.mfaults.head? = some f)) →
          let again : Bool := f.1 == .matrixOperand && f.2.2.toNat / 2 ^ 52 % 8 != 6
          let s1 := s.onThr fun t => { t with
            mfaults := t.mfaults.erase f, mretry := if again then t.mretry ++ [f.2.2.toNat % 2 ^ 48] else t.mretry }
          s1.canTrap = true → s.due = .stop (s1.onThr fun t => t.trapped f.1 f.2.1 f.2.2 t.unitPc false 0))))

/-- R35, R36, R42, R90: ERET in handler state checks its continuation, and with RPL the replay address, and returns: handler state
ends, the pc is %tpc bits 51:0, and with RPL the word at %tinfo1 is due for replay with the window LEFT. Outside handler
state it traps ILLEGAL with its own word. A fault of a long-latency instruction that is known is taken before the next unit: the
entry's access leaves the window without a landing, and the trap has RPL 1, LEFT the units that were left, the address of the next
unit in %tpc and that of the instruction in %tinfo1. A parking condition parks the thread with the replay due instead. A replay that is
due is issued alone, as the word at its address, with its window (that it goes before what else is due: log 14). -/
def Obligations.ReturnFromTrap : Prop :=
  (∀ (u : Bool) (s : State),
    (s.thr.hstate = false → exec (.eret u) s = .next (s.trap .illegal (if u then 0x46010000 else 0x06010000) 0)) ∧
    (s.thr.hstate = true → s.windowsClear = true → s.thr.mretry = [] →
      checkTarget s s.thr.view (s.thr.tpc &&& 0xF_FFFF_FFFF_FFFF) = .ok →
      (s.thr.tpc.getLsbD 59 = true → checkReplay s s.thr.view s.thr.tinfo1 = .ok) →
      becomes (.eret u) s (fun t =>
        { t with pc := t.tpc.truncate 52, hstate := false, unitEnd := .done, grant := none
                 grantTrap := t.grantTrap.filter (fun w => !w.hstate && w.pc == t.tpc.truncate 52)
                 replay := if t.tpc.getLsbD 59 then some ⟨t.tinfo1.truncate 52, t.tpc.toNat / 2 ^ 60, none, false⟩ else none }))) ∧
  (∀ (s : State) (e : Pend), s.thr.pending.find? (fun f => s.thr.mine f && f.known) = some e →
    let s1 := s.onThr fun t => { t with pending := t.pending.filter fun f => f.access != e.access }
    (∀ c va, e.wait = .fault c va true → c ≠ .scratchBound → s.parkFirst = none → s1.canTrap = true →
      s.due = .stop (s1.onThr fun t =>
        t.trapped c (BitVec.ofNat 64 va) (e.pc.zeroExtend 64) t.pc true e.left)) ∧
    (∀ va, e.wait = .park va true → ∃ r : State, s.due = .stop r ∧ s.sameRegs r ∧ r.mem = s.mem ∧ r.thr.status = .parked ∧
      r.thr.wait = .page va ∧ r.thr.pc = s.thr.pc ∧ r.thr.pending = s1.thr.pending ∧
      r.thr.replay = some ⟨e.pc, e.left, some e.access, e.acq⟩)) ∧
  (∀ (s : State) (p : Replay) (w : BitVec 32) (i : Instr), s.thr.replay = some p → s.thr.isHandler = false → s.thr.ended = none →
    s.thr.grantTrap = none →
    let s1 := s.onThr fun t => { t with
      status := .ready, wait := .none, unitEnd := .held, replaying := some p, pairNow := false }
    fetchWord s s.thr.view p.pc.toNat = .ok w → decodeWord w = .ok i →
    s.issue = andThen (exec i s1) fun q =>
      q.afterUnit { s.thr with status := .ready, wait := .none, unitEnd := .held } (s.clockOf s.thr))

/-! ## Floating point (spec/03, spec/06) -/

/-- R147, R61, R143: FADD, FSUB, FMUL, FMA, FMS and FNMA in both forms and every type: one rounding of the exact sum, product
or product-sum of the operands after FZI, the negations exact, and the counter of RSR advanced by the rounding count. -/
def Obligations.FloatArithmetic : Prop :=
  arithCompletes .fadd .faddV (fun f e x y _ => addRounded f e x y) ∧
  arithCompletes .fsub .fsubV (fun f e x y _ => addRounded f e x y.negate) ∧
  arithCompletes .fmul .fmulV (fun f e x y _ => mulRounded f e x y) ∧
  arithCompletes .fma .fmaV (fun f e x y z => fmaRounded f e x y z) ∧
  arithCompletes .fms .fmsV (fun f e x y z => fmaRounded f e x y z.negate) ∧
  arithCompletes .fnma .fnmaV (fun f e x y z => fmaRounded f e x.negate y z)

/-- R148, R156, R32: the long-latency instructions complete with a pending entry. FDIV divides d by a. -/
def Obligations.FloatLongLatency : Prop :=
  longCompletes .fdiv .fdivV divRounded ∧
  longCompletes .fsqrt .fsqrtV (fun f e _ x => sqrtRounded f e x) ∧
  longCompletes .frcp .frcpV (fun f e _ x => divRounded f e (.fin false 1 0) x)

/-- R156, R71 to R73: the approximate functions complete with a pending entry whose value is that of the model's function of
function, format, mode and operand (assumption 24). -/
def Obligations.ApproximateFunctions : Prop :=
  ∀ q ∈ [(Config.Approx.exp2, Instr.fexp2, Instr.fexp2V), (.log2, .flog2, .flog2V), (.rsq, .frsq, .frsqV),
      (.sinpi, .fsinpi, .fsinpiV), (.cospi, .fcospi, .fcospiV), (.tanh, .ftanh, .ftanhV)],
    (∀ (t : FTy) (d a : BitVec 6) (la : BitVec 4) (rm : Rm) (s : State), completes (q.2.1 t d a la rm) s fun u =>
      let r := approxRounded q.1 (FTy.fmt t) (u.roundEnv rm false 0) ((u.rg a).toNat % 2 ^ Fmt.width (FTy.fmt t))
      (u.withEntry (.g d) (u.lookahead la) .value (BitVec.ofNat 512 r.bits) (BitVec.allOnes 512) r.flags).counted rm 1) ∧
    (∀ (t : FTy) (d a : BitVec 5) (p : BitVec 3) (la : BitVec 4) (rm : Rm) (s : State),
      let w := Fmt.width (FTy.fmt t)
      let r := fun j => approxRounded q.1 (FTy.fmt t) (s.thr.roundEnv rm false j) (lane w (s.thr.rv a) j).toNat
      ∃ value mask : VWord, completes (q.2.2 t d a p la rm) s (fun u =>
        (u.withEntry (.v d) (u.lookahead la) .value value mask (activeFlags (u.rp p) w r (512 / w))).counted rm (512 / w)) ∧
        ∀ j, j < 512 / w → lane w mask j = (if governs (s.thr.rp p) w j then BitVec.allOnes w else 0) ∧
          (governs (s.thr.rp p) w j = true → lane w value j = BitVec.ofNat w (r j).bits))

/-- R149, R150, R152, R153: FMIN, FMAX, FCLASS and FRINT in both forms and every type, FRINT alone rounding by its mode; FABS
clears the sign bit, FNEG inverts it and FCPYS copies that of b: a NaN gives the canonical NaN, nothing is rounded and no flag
is set. -/
def Obligations.FloatSelectClassifyRoundSign : Prop :=
  let z (u : Thread) : Flush := ⟨u.fmt[0].getLsbD 10, u.fmt[0].getLsbD 11, u.fmt[0].getLsbD 12⟩
  (bitsComplete .fmin .fminV (fun u f x y => minMax f false (readFloat (z u) f x) (readFloat (z u) f y)) ∧
    bitsComplete .fmax .fmaxV (fun u f x y => minMax f true (readFloat (z u) f x) (readFloat (z u) f y)) ∧
    arithCompletes (fun t d a _ rm => .frint t d a rm) (fun t d a _ p rm => .frintV t d a p rm)
      (fun f e x _ _ => rintResult f e x) ∧
    bitsComplete (fun t d a _ => .fclass t d a) (fun t d a _ p => .fclassV t d a p) (fun u f x _ =>
      ⟨classMask (z u) f x, 0⟩)) ∧
  (bitsComplete (fun t d a _ => .fabs t d a) (fun t d a _ p => .fabsV t d a p) (fun u f x _ => signedAs u f x false) ∧
    bitsComplete (fun t d a _ => .fneg t d a) (fun t d a _ p => .fnegV t d a p)
      (fun u f x _ => signedAs u f x (!x.testBit (Fmt.width f - 1))) ∧
    bitsComplete .fcpys .fcpysV (fun u f x y => signedAs u f x (y.testBit (Fmt.width f - 1))))

/-- R151: FCMP writes 0xFFFF or 0 to its predicate and raises NV for a signalling NaN under LT, LE and UN alone; the vector
form writes bit j of an active element, keeps the others, and for f64 clears bits 15:8. -/
def Obligations.FloatCompare : Prop :=
  (∀ (t : FTy) (pd : BitVec 3) (a b : BitVec 6) (c : FCmpCond) (s : State), completes (.fcmp t pd a b c) s fun u =>
    let r := fcmpResult c (u.operand (FTy.fmt t) a) (u.operand (FTy.fmt t) b)
    (u.wp pd (if r.1 then 0xFFFF else 0)).raise r.2) ∧
  (∀ (dbl : Bool) (pd : BitVec 3) (a b : BitVec 5) (p : BitVec 3) (c : FCmpCond) (s : State),
    let f : Fmt := if dbl then .fp64 else .fp32
    let n := if dbl then 8 else 16
    let r := fun j => fcmpResult c (s.thr.element f a j) (s.thr.element f b j)
    completes (.fcmpV dbl pd a b p c) s fun u =>
      (u.wp pd (bitsOf (fun j => decide (j < n) && if (u.rp p).getLsbD j then (r j).1 else (u.rp pd).getLsbD j) 16)).raise
        (activeFlags (u.rp p) 32 (fun j => ⟨0, (r j).2⟩) n)) ∧
  (∀ (c : FCmpCond) (x y : FVal), (fcmpResult c x y).2 =
    if (c = .lt ∨ c = .le ∨ c = .un) ∧ (x = .nan true ∨ y = .nan true) then flagNV else 0)

/-- R59, R62, R147: a value that a format holds is delivered unchanged and with no flag, in all seven modes; addition and
multiplication do not depend on the order of their operands, in every format and mode and for special values too. -/
def Obligations.RoundingAndCommuting : Prop :=
  (∀ (f : Fmt) (env : RoundEnv) (bits : Nat) (neg : Bool) (m : Nat) (e : Int), bits < 2 ^ Fmt.width f →
      env.flush.onResult f = false → Fmt.unpack f bits = .fin neg m e → roundTo f env (.fin neg m e) = ⟨bits, 0⟩) ∧
  (∀ (f : Fmt) (env : RoundEnv) (x y : FVal), addRounded f env x y = addRounded f env y x ∧
      mulRounded f env x y = mulRounded f env y x)

/-- R155, R144, R154: FCVTI writes the rounded integer, sign-extended or zero-extended, with its flags; ICVTF rounds the integer of
its low bits; FCVT rounds the source value into the destination format, .SAT where the word says so. The vector forms convert
as many elements as the wider format has; each is governed as an element of the wider format, and the destination's other
elements keep their bits. -/
def Obligations.Conversions : Prop :=
  ((∀ (t : Fmt) (d a : BitVec 6) (sat : Bool) (src : Fmt) (rm : Rm) (s : State),
      floatCompletes (.fcvt t d a sat src rm) s d rm fun u => roundTo t (u.roundEnv rm sat 0) (u.operand src a)) ∧
    (∀ (t : Fmt) (d a : BitVec 6) (sat uns : Bool) (it : CvtInt) (rm : Rm) (s : State),
      completes (.fcvti t d a sat uns it rm) s fun u =>
        let n := CvtInt.width it
        let r := toIntResult n uns sat (u.roundEnv rm sat 0) (u.operand t a)
        let x : BitVec n := BitVec.ofInt n r.1
        ((u.wg d (if uns then x.zeroExtend 64 else x.signExtend 64)).raise r.2).counted rm 1) ∧
    (∀ (t : Fmt) (d a : BitVec 6) (uns : Bool) (it : CvtInt) (rm : Rm) (s : State),
      floatCompletes (.icvtf t d a uns it rm) s d rm fun u =>
        let x : BitVec (CvtInt.width it) := (u.rg a).truncate _
        roundTo t (u.roundEnv rm false 0) (intVal (if uns then (x.toNat : Int) else x.toInt)))) ∧
  ((∀ (t : Fmt) (d a : BitVec 5) (sat : Bool) (src : Fmt) (p : BitVec 3) (rm : Rm) (s : State),
      let w := max (Fmt.width t) (Fmt.width src)
      elementsComplete (.fcvtV t d a sat src p rm) s d p w (Fmt.width t) (512 / w) rm (512 / Fmt.width t) fun j =>
        roundTo t (s.thr.roundEnv rm sat j) (s.thr.element src a j)) ∧
    (∀ (t : Fmt) (d a : BitVec 5) (sat uns : Bool) (it : CvtInt) (p : BitVec 3) (rm : Rm) (s : State),
      let n := CvtInt.width it
      let w := max n (Fmt.width t)
      elementsComplete (.fcvtiV t d a sat uns it p rm) s d p w n (512 / w) rm (512 / n) fun j =>
        let r := toIntResult n uns sat (s.thr.roundEnv rm sat j) (s.thr.element t a j)
        ⟨(r.1 % 2 ^ n).toNat, r.2⟩) ∧
    (∀ (t : Fmt) (d a : BitVec 5) (uns : Bool) (it : CvtInt) (p : BitVec 3) (rm : Rm) (s : State),
      let n := CvtInt.width it
      let w := max n (Fmt.width t)
      elementsComplete (.icvtfV t d a uns it p rm) s d p w (Fmt.width t) (512 / w) rm (512 / Fmt.width t) fun j =>
        roundTo t (s.thr.roundEnv rm false j)
          (intVal (if uns then ((lane n (s.thr.rv a) j).toNat : Int) else (lane n (s.thr.rv a) j).toInt))))


/-! ## Lanes, reductions, dot products, packing, draws (spec/06, spec/03) -/

/-- R157, R158, R159: VBCAST copies a register to every lane; VEXT and VINS name a lane by g[b] modulo the lane count; VPERM,
VROT and VIOTA write the active lanes; VSEL selects by its predicate without a mask. -/
def Obligations.VectorLaneMoves : Prop :=
  (∀ (t : IntTy) (d : BitVec 5) (a : BitVec 6) (s : State), ∃ x : VWord, completes (.vbcast t d a) s (fun u => u.wv d x) ∧
    ∀ j, j < 512 / IntTy.width t → lane _ x j = s.thr.low (IntTy.width t) a) ∧
  (∀ (t : IntTy) (d : BitVec 6) (a : BitVec 5) (b : BitVec 6) (s : State), completes (.vext t d a b) s fun u =>
    u.wg d ((lane (IntTy.width t) (u.rv a) ((u.rg b).toNat % (512 / IntTy.width t))).signExtend 64)) ∧
  (∀ (t : IntTy) (d : BitVec 5) (a b : BitVec 6) (s : State), ∃ x : VWord, completes (.vins t d a b) s (fun u => u.wv d x) ∧
    ∀ j, j < 512 / IntTy.width t → lane _ x j =
      if j = (s.thr.rg b).toNat % (512 / IntTy.width t) then s.thr.low (IntTy.width t) a else lane _ (s.thr.rv d) j) ∧
  (∀ (t : IntTy) (d a b : BitVec 5) (p : BitVec 3) (s : State), lanesComplete (.vperm t d a b p) s (IntTy.width t) d p fun j =>
    (lane _ (s.thr.rv a) ((lane (IntTy.width t) (s.thr.rv b) j).toNat % (512 / IntTy.width t)), false)) ∧
  (∀ (t : IntTy) (d a c : BitVec 5) (p : BitVec 3) (s : State), lanesComplete (.vrot t d a c p) s (IntTy.width t) d p fun j =>
    (lane _ (s.thr.rv a) ((j + c.toNat) % (512 / IntTy.width t)), false)) ∧
  (∀ (t : IntTy) (d : BitVec 5) (p : BitVec 3) (s : State), lanesComplete (.viota t d p) s (IntTy.width t) d p fun j =>
    (BitVec.ofNat _ j, false)) ∧
  (∀ (t : IntTy) (d a b : BitVec 5) (p : BitVec 3) (s : State), ∃ x : VWord, completes (.vsel t d a b p) s (fun u => u.wv d x) ∧
    ∀ j, j < 512 / IntTy.width t → lane (IntTy.width t) x j =
      if (s.thr.rp p).getLsbD j then lane _ (s.thr.rv a) j else lane _ (s.thr.rv b) j)

/-- R75, R160, R76, R161: VRED combines adjacent elements level by level, an inactive leaf being −0 for ADD, +∞ for MIN and −∞ for
MAX; element 0 of v[d] takes the result, the other elements are kept, and n − 1 roundings are counted. VDOT adds the exact
products of the elements of a lane to the lane of the destination: in wrapping 32-bit integers for INT8, else with one
rounding to FP32. -/
def Obligations.VectorReductionAndDot : Prop :=
  (∀ (t : FTy) (d a : BitVec 5) (fn : VRedFn) (p : BitVec 3) (rm : Rm) (s : State),
      let f := FTy.fmt t
      let w := Fmt.width f
      let n := 512 / w
      let node (e : RoundEnv) (x y : FVal) : Rounded :=
        match fn with | .add => addRounded f e x y | .min => minMax f false x y | .max => minMax f true x y
      let none_ : FVal := match fn with | .add => .fin true 0 0 | .min => .inf false | .max => .inf true
      let leaf (j : Nat) : FVal := if governs (s.thr.rp p) w j then s.thr.element f a j else none_
      let half (i : Nat) := treeNode node f (s.thr.roundEnv rm false) leaf n (Nat.log2 n - 1) i
      let r := node (s.thr.roundEnv rm false (n - 2)) (half 0).1 (half 1).1
      ∃ x : VWord, completes (.vred t d a fn p rm) s
          (fun u => ((u.wv d x).raise ((half 0).2 ||| (half 1).2 ||| r.flags)).counted rm (n - 1)) ∧
        ∀ j, j < n → lane w x j = if j = 0 then BitVec.ofNat w r.bits else lane w (s.thr.rv d) j) ∧
  ((∀ (d a b : BitVec 5) (p : BitVec 3) (rm : Rm) (s : State), lanesComplete (.vdot .int8 d a b p rm) s 32 d p fun j =>
      let q (k : Nat) : BitVec 32 := (lane 8 (s.thr.rv a) (4 * j + k)).signExtend 32 * (lane 8 (s.thr.rv b) (4 * j + k)).signExtend 32
      (lane 32 (s.thr.rv d) j + q 0 + q 1 + q 2 + q 3, false)) ∧
    (∀ (t : DotTy) (d a b : BitVec 5) (p : BitVec 3) (rm : Rm) (s : State), t ≠ .int8 →
      let f := DotTy.fmt t
      let k := 32 / Fmt.width f
      elementsComplete (.vdot t d a b p rm) s d p 32 32 16 rm 16 fun j =>
        accumulate (s.thr.roundEnv rm false j) (s.thr.element .fp32 d j)
          (dotSum (fun i => s.thr.element f a (k * j + i)) (fun i => s.thr.element f b (k * j + i)) k)))

/-- R162, R163, R74, R164: VPACK rounds sixteen FP32 elements into one part of the packed register and keeps the others; VUNPACK
widens one part exactly (NV for a signalling NaN is its one flag); VSCALE multiplies each active element by its BS24 scale
with one rounding. LODE draws with the counter and the key in the low words of its operands: the 32 bits, their upper 24, or
those as a fraction in FP32; the vector form draws counter + i in lane i; LODE32(1, 0) is 0xCEA82E38. -/
def Obligations.VectorPackScaleDraw : Prop :=
  ((∀ (t : Fmt) (d a : BitVec 5) (sat : Bool) (part : BitVec 3) (rm : Rm) (s : State),
      let w := Fmt.width t
      let r := fun i => roundTo t (s.thr.roundEnv rm sat i) (s.thr.element .fp32 a i)
      ∃ x : VWord, completes (.vpack t d a sat part rm) s
          (fun u => ((u.wv d x).raise (activeFlags 0xFFFF 32 r 16)).counted rm (512 / w)) ∧
        ∀ j, j < 512 / w → lane w x j =
          if 16 * part.toNat ≤ j ∧ j < 16 * part.toNat + 16 then BitVec.ofNat w (r (j - 16 * part.toNat)).bits
          else lane w (s.thr.rv d) j) ∧
    (∀ (t : Fmt) (d a : BitVec 5) (part : BitVec 3) (s : State), elementsComplete (.vunpack t d a part) s d 0 32 32 16 .rne 0
      fun j => roundTo .fp32 ⟨.rne, ⟨false, false, false⟩, false, 0⟩ (s.thr.element t a (16 * part.toNat + j))) ∧
    (∀ (d a b : BitVec 5) (p : BitVec 3) (rm : Rm) (s : State), elementsComplete (.vscale d a b p rm) s d p 32 32 16 rm 16 fun j =>
      match Fmt.unpack .fp32 ((lane 32 (s.thr.rv b) j).toNat / 256 * 256) with
      | .fin n m e => mulRounded .fp32 (s.thr.roundEnv rm false j) (s.thr.element .fp32 a j) (.fin n m e)
      | _ => ⟨0x7FC00000, flagNV⟩)) ∧
  (let shape (fn : LodeFn) (x : BitVec 32) : BitVec 32 := match fn with
      | .raw => x
      | .u24 => x >>> 8
      | .f32 => BitVec.ofNat 32 (roundTo .fp32 ⟨.rne, ⟨false, false, false⟩, false, 0⟩ (.fin false (x.toNat / 256) (-24))).bits
    (∀ (d a b : BitVec 6) (fn : LodeFn) (s : State), completes (.lode d a b fn) s fun u =>
      u.wg d ((shape fn (lode32 (u.low 32 a) (u.low 32 b))).zeroExtend 64)) ∧
    (∀ (d a b : BitVec 5) (p : BitVec 3) (fn : LodeFn) (s : State), lanesComplete (.lodeV d a b p fn) s 32 d p fun j =>
      (shape fn (lode32 (s.thr.low 32 (a.zeroExtend 6) + BitVec.ofNat 32 j) (s.thr.low 32 (b.zeroExtend 6))), false)) ∧
    lode32 1 0 = 0xCEA82E38)


/-! ## Loads and stores (spec/05, spec/09) -/

/-- R30, R116, R228, R283: the checks of an access come in the order rights and space, bounds, alignment, and a failure traps
with the offset and the segment's number before any effect; then a stack-scratchpad offset beyond Z, as the cores hold it, traps
SCRATCHBOUND, and an address in a reserved region ADDRFORM, also one of far memory. That an access which begins below Z and ends above
it traps SCRATCHBOUND too is the model's reading (log 30, DEDUCED: R228 says o ≥ Z). -/
def Obligations.AccessChecksTrap : Prop :=
  ∀ (i : Instr) (s : State) (sg : BitVec 3) (off : Word) (n right : Nat) (far : Bool),
    ((∃ f, s.thr.loadForm i = some f ∧ f.sg = sg ∧ f.off = off ∧ f.n = n ∧ right = 0 ∧ far = true) ∨
      (∃ v, s.thr.storeForm i = some (sg, off, n, v) ∧ right = 1 ∧ far = false)) →
    let g := s.thr.seg sg
    let x := g.base.toNat + off.toNat
    let idx : Word := sg.zeroExtend 64
    let permitted := g.rights.getLsbD right = true ∧
      (g.space.toNat ≤ 6 ∨ (far = true ∧ (g.space.toNat = 8 ∨ (g.space.toNat = 7 ∧ g.rights.getLsbD 1 = false))))
    (¬permitted → exec i s = .next (s.trap .segRight off idx)) ∧
    (permitted → g.len < off.toNat + n → exec i s = .next (s.trap .segBound off idx)) ∧
    (permitted → off.toNat + n ≤ g.len → off.toNat % n ≠ 0 → exec i s = .next (s.trap .align off idx)) ∧
    (permitted → off.toNat + n ≤ g.len → off.toNat % n = 0 → g.space.toNat = 4 →
      let z := ((s.island? s.thr.view.island).map fun i => i.zOf i.zWays).getD 0
      z < x + n → exec i s = .next (s.trap .scratchBound (BitVec.ofNat 64 x) (BitVec.ofNat 64 z))) ∧
    (permitted → off.toNat + n ≤ g.len → off.toNat % n = 0 → 5 ≤ g.space.toNat →
      badAddress x = true → exec i s = .next (s.trap .addrForm (BitVec.ofNat 64 x) 0))

/-- R119, R32, R35, R233: a load that passes its checks completes at once with a pending entry of its window; nothing else that a
program can name changes, and no settled byte of memory. Where the access lies in one line and its place is found, the entry
holds the bytes there (for a line of which the core holds nothing); a page without the right makes the entry a PAGERIGHT
fault; a far load awaits its answer, unless a frozen copy in the module's caches serves it (one copy for the island: the model's
reading, log 111). A load behind an acquire of the thread is held at the port, and its unit completes all the same (R126, R239). A
handler's load reads its bank group. -/
def Obligations.LoadsComplete : Prop :=
  ∀ (i : Instr) (s : State) (f : LoadForm), s.thr.loadForm i = some f →
    s.accCheck f.sg f.off.toNat f.n f.n rightR .load = none →
    let g := s.thr.seg f.sg
    let va := g.base.toNat + f.off.toNat
    let c := coreIndex s.thr.view
    (s.thr.isHandler = true → g.space ≠ spFar → va % 128 + f.n ≤ 128 →
      ∀ x, s.place s.thr g f.off.toNat needR true = .ok x → s.poisoned x f.n = false → s.settledRange x f.n →
      ∃ (t : State) (e : Pend), exec i s = .next t ∧ s.passed t ∧ s.gains t e f.d (s.thr.lookahead f.la) ∧ s.keepsMemory t [] ∧
        e.wait = .value ∧ e.value = f.conv (memRead s.mem x f.n)) ∧
    (s.thr.isHandler = false → s.thr.acquireBelow s.thr.accessNum = true → s.portClear = true → g.space ≠ spFar →
      va % 128 + f.n ≤ 128 → ∀ x, s.locate s.thr.view g f.off.toNat needR true = .ok x → isLane x = false →
      ∃ (t : State) (e : Pend) (h : HeldLoad), exec i s = .next t ∧ s.passed t ∧ s.gains t e f.d (s.thr.lookahead f.la) ∧
        s.keepsMemory t [] ∧ e.wait = .port ∧ t.loads = s.loads ++ [h] ∧ h.key = s.thr.key ∧ h.entry = e.seq ∧
        h.parts.map (fun p => (p.loc, p.size)) = [(x, f.n)] ∧ h.lds = none) ∧
    (s.thr.isHandler = false → s.readReady = true →
    ∃ (t : State) (e : Pend), exec i s = .next t ∧ s.passed t ∧ s.gains t e f.d (s.thr.lookahead f.la) ∧ s.keepsMemory t [] ∧
      (g.space = spFar → g.policy = 2 ∨ s.farLines = [] → e.wait = .far) ∧
      (∀ v, g.space = spFar → g.policy ≠ 2 → s.farHeld s.thr.view.island g.fmod.toNat [(va, f.n)] = some v →
        e.wait = .value ∧ e.value = f.conv v) ∧
      (g.space ≠ spFar → va % 128 + f.n ≤ 128 →
        (∀ x, s.locate s.thr.view g f.off.toNat needR true = .ok x → s.poisoned x f.n = false → s.padHealth x ≠ .failed →
          (∀ j, j < f.n → s.settled (x + j) = true) → ((s.core c).l1? (lineAt x)).isNone = true →
          (∀ e ∈ (s.core c).wcb, e.window ≠ va / 128) →
          e.wait = .value ∧ e.value = f.conv (memRead s.mem x f.n)) ∧
        (s.locate s.thr.view g f.off.toNat needR true = .deny → e.wait = .fault .pageRight va false)))

/-- R117, R122, R123: a vector load by lanes that passes its checks completes at once with a pending entry of its window, and where
every lane is found in a scratchpad, lane memory or the stack scratchpad, the entry holds the lanes read there and nothing else
in the state changes. A vector store by lanes that passes its checks completes, and changes no register and no settled byte of
memory but those at the places of its lanes; outside DRAM each lane that no later lane overlaps is then found at its place. That in
lane memory lane i lies at byte 512 i + its offset, whatever BASE is, is the model's reading (log 29, DEDUCED), and that an element
must be aligned elsewhere too is its choice (log 93). No handler runs these instructions (Table 8.2). -/
def Obligations.VectorAccessesComplete : Prop :=
  (∀ (i : Instr) (s : State) (f : LaneForm), s.thr.laneLoad i = some f → s.readReady = true →
      f.pass s rightR .load = true →
      let g := s.thr.seg f.sg
      let off (p : Nat × Nat) : Nat := if g.space = spLane then 512 * p.1 + p.2 else p.2
      (s.thr.isHandler = false →
        ∃ (t : State) (e : Pend), exec i s = .next t ∧ s.passed t ∧ s.gains t e (.v f.d) (s.thr.lookahead f.la) ∧ s.keepsMemory t []) ∧
      (∀ x : Nat → Loc, g.isDram = false → g.space ≠ spFar →
        (∀ p ∈ f.lanes, ((laneSeg g).base.toNat + off p) % 128 + f.esz ≤ 128 ∧
          s.place s.thr (laneSeg g) (off p) needR true = .ok (x p.1) ∧ isDram (x p.1) = false ∧ s.poisoned (x p.1) f.esz = false ∧
          s.padHealth (x p.1) ≠ .failed) →
        ∃ value : VWord,
          completes i s (fun u => u.withEntry (.v f.d) (u.lookahead f.la) .value value (BitVec.allOnes 512) 0) ∧
          ∀ j, j < 64 / f.esz → (lane (8 * f.esz) value j).toNat = memRead s.mem (x j) f.esz)) ∧
  (∀ (i : Instr) (s : State) (f : LaneForm), s.thr.laneStore i = some f → s.storeReady = true → s.thr.isHandler = false →
      f.pass s rightW .store = true → (∀ p ∈ f.lanes, s.fieldCheck (s.thr.seg f.sg) p.2 f.esz = none) →
      let g := s.thr.seg f.sg
      let off (p : Nat × Nat) : Nat := if g.space = spLane then 512 * p.1 + p.2 else p.2
      ∃ t : State, exec i s = .next t ∧ s.passed t ∧ t.thr.pending = s.thr.pending ∧
        s.keepsMemory t (s.storeRanges (laneSeg g) (f.elems g (s.thr.rv f.d))) ∧
        (∀ x : Nat → Loc, (∀ p ∈ f.lanes, ((laneSeg g).base.toNat + off p) % 128 + f.esz ≤ 128 ∧
            s.place s.thr (laneSeg g) (off p) needW false = .ok (x p.1) ∧ isDram (x p.1) = false ∧
            s.padHealth (x p.1) = .ok) → s.thr.relFence = false →
          ∀ j, j < 64 / f.esz → (∀ k, j < k → k < 64 / f.esz → x k + f.esz ≤ x j ∨ x j + f.esz ≤ x k) →
            memRead t.mem (x j) f.esz = (lane (8 * f.esz) (s.thr.rv f.d) j).toNat))

/-- R120, R218, R220, R297: a store that passes its checks completes; no register changes, and no settled byte of memory but
those at the places of its pieces. Where it lies in one line and its place is found: outside DRAM the bytes are there (a
retired core's scratchpad discards them), to DRAM the core sees them through its window, and a frozen granule makes a record
and stores nothing. A handler's store writes its bank group. -/
def Obligations.StoresComplete : Prop :=
  ∀ (i : Instr) (s : State) (sg : BitVec 3) (off : Word) (n v : Nat), s.thr.storeForm i = some (sg, off, n, v) →
    s.accCheck sg off.toNat n n rightW .store = none → s.fieldCheck (s.thr.seg sg) off.toNat n = none →
    let g := s.thr.seg sg
    let va := g.base.toNat + off.toNat
    let c := coreIndex s.thr.view
    (s.thr.isHandler = true → s.thr.status = .ready → s.thr.ended = none → va % 128 + n ≤ 128 →
      ∀ x, s.place s.thr g off.toNat needW false = .ok x → s.writable x = true → s.padHealth x ≠ .retired →
      ∃ t : State, exec i s = .next t ∧ s.passed t ∧ t.thr.pending = s.thr.pending ∧ s.keepsMemory t [(x, n)] ∧
        memRead t.mem x n = v) ∧
    (s.thr.isHandler = false → s.storeReady = true → ∃ t : State, exec i s = .next t ∧ s.passed t ∧ t.thr.pending = s.thr.pending ∧
      s.keepsMemory t (s.storeRanges g [(off.toNat, n, v)]) ∧
      (va % 128 + n ≤ 128 → ∀ x, s.place s.thr g off.toNat needW false = .ok x →
        (isDram x = false → s.padHealth x = .ok → memRead t.mem x n = v) ∧
        (isDram x = true → s.isFrozen x = true → t.mem = s.mem ∧ t.cores = s.cores ∧
          t.faults = s.faults ++ [⟨c, s.thr.key, s.thr.unitPc.toNat, va, Nat.log2 n, false, .frozen, .flight⟩]) ∧
        (isDram x = true → s.isFrozen x = false → (∀ j, j < n → s.settled (x + j) = true) →
          (∀ e ∈ (s.core c).wcb, e.window = va / 128 → e.line = lineAt x) →
          ∀ j, j < n → t.sees c (va / 128) (x + j) = BitVec.ofNat 8 (v / 256 ^ j))))

/-- R121: ST.N that passes its checks completes without a change of a register. In the thread's own lane memory or scratchpad
the one nibble is replaced at once and the rest of the byte and of memory keeps its value; elsewhere it is a message to the
place that performs it. o is an unbounded integer (R6); its half is checked by bits 63:0 (R30, log 88). A handler's ST.N is performed
at its bank group. -/
def Obligations.NibbleStoreCompletes : Prop :=
  ∀ (u : Bool) (sg : BitVec 3) (d a : BitVec 6) (imm : BitVec 5) (s : State),
    let o : Int := (s.thr.rg a).toNat + imm.toInt
    let off := (BitVec.ofInt 64 (o / 2)).toNat
    let high : Bool := o % 2 == 1
    let g := s.thr.seg sg
    let x4 := (s.thr.low 4 d).toNat
    let put (b : Byte) : Byte := if high then BitVec.ofNat 4 x4 ++ b.extractLsb' 0 4 else b.extractLsb' 4 4 ++ BitVec.ofNat 4 x4
    s.accCheck sg off 1 1 rightW .nibble = none → s.fieldCheck g off 1 = none →
    ∀ y, s.place s.thr g off needW false = .ok y →
    (s.thr.isHandler = true → s.writable y = true → s.padHealth y ≠ .retired → s.settled y = true →
      ∃ t : State, exec (.stN u sg d a imm) s = .next t ∧ s.passed t ∧ s.keepsMemory t [(y, 1)] ∧
        memGet t.mem y = put (memGet s.mem y)) ∧
    (s.thr.isHandler = false → s.thr.relFence = false → ∃ t : State, exec (.stN u sg d a imm) s = .next t ∧ s.passed t ∧ s.keepsMemory t [(y, 1)] ∧
      (ownPort s.thr.view y = false → t.mem = s.mem ∧ t.msgs = s.msgs ++
        [⟨s.thr.key, s.thr.view, y, 1, .nibble high, BitVec.ofNat 128 x4, 0, none, g.base.toNat + off, s.thr.unitPc.toNat,
          s.thr.pendSeq, s.draw⟩]) ∧
      (ownPort s.thr.view y = true → s.storeReady = true → s.padHealth y = .ok → memGet t.mem y = put (memGet s.mem y)))


/-! ## Full/empty words, barriers, fences, atomics (spec/05, spec/10) -/

/-- R124 to R127, R133: LDS of a full word completes with a pending entry of its value, LDS.CONSUME leaving the word empty; of
an empty word it waits in the word's list, in its window or parked. STS.OVER, and STS.PRODUCE of an empty word, write the low
bytes and fill the word; STS.PRODUCE of a full word waits. FESET, FECLR and FEQ set and read the bit. A change of the bit serves the
word's list from its oldest request on. A handler's LDS of an empty word, or STS.PRODUCE of a full one, ends it with FESTATE (R193). APND
advances the ring's head, and fills the slot that the old head names modulo the capacity; that its header alone is checked against
running fields, wherever the slot lies, is the model's choice (log 97). No other register or settled byte changes. -/
def Obligations.FullEmptyOperations : Prop :=
  (∀ (i : Instr) (u dbl consume : Bool) (la : BitVec 4) (sg : BitVec 3) (d a : BitVec 6) (s : State) (x : Loc),
    i = (if consume then .ldsConsume u la sg d a dbl else .lds u la sg d a dbl) →
    let n := if dbl then 8 else 4
    let off := (s.thr.rg a).toNat
    let g := s.thr.seg sg
    (∀ v, s.thr.grant = some v → completes i s fun t =>
      t.withEntry (.g d) (t.lookahead la) .value (v.zeroExtend 512) (BitVec.allOnes 512) 0) ∧
    (s.thr.grant = none → s.thr.isHandler = true ∨ (s.readReady = true ∧ s.padHealth x ≠ .failed) →
      s.accCheck sg off n n rightS .fe = none →
      (consume = true → s.fieldCheck g off n = none) → s.place s.thr g off needR true = .ok x →
      (s.isFull (wordAt x) = false → s.thr.isHandler = true → ∃ t : State, exec i s = .next t ∧ s.sameRegs t ∧ s.keepsMemory t [] ∧
        t.thr.ended = (s.thr.handlerFault .feState).ended) ∧
      (s.isFull (wordAt x) = true → s.poisoned x n = false →
        ∃ (t : State) (e : Pend), exec i s = .next t ∧ s.passed t ∧ s.gains t e (.g d) (s.thr.lookahead la) ∧ e.wait = .value ∧
          s.keepsMemory t [] ∧ (s.settledRange x n → e.value = BitVec.ofNat 512 (memRead s.mem x n)) ∧
          (s.unwaited x = true → t.isFull (wordAt x) = !consume)) ∧
      (s.isFull (wordAt x) = false → s.thr.isHandler = false →
        (s.thr.lookahead la = 0 → ∃ t : State, exec i s = .next t ∧ s.waitsFor t (.word (wordAt x)) ∧ s.keepsMemory t []) ∧
        (s.thr.lookahead la ≠ 0 → ∃ (t : State) (e : Pend), exec i s = .next t ∧ s.passed t ∧ s.gains t e (.g d) (s.thr.lookahead la) ∧
          e.wait = .listed ∧ s.keepsMemory t [] ∧ t.waits.length = s.waits.length + 1)))) ∧
  (∀ (i : Instr) (u dbl over_ : Bool) (sg : BitVec 3) (d a : BitVec 6) (s : State) (x : Loc),
    i = (if over_ then .stsOver u sg d a dbl else .stsProduce u sg d a dbl) →
    let n := if dbl then 8 else 4
    let off := (s.thr.rg a).toNat
    let g := s.thr.seg sg
    (s.thr.grant.isSome = true → completes i s id) ∧
    (s.thr.grant = none → s.storeReady = true → s.accCheck sg off n n rightS .fe = none → s.fieldCheck g off n = none →
      s.place s.thr g off needW false = .ok x → s.writable x = true → s.thr.isHandler = true ∨ s.padHealth x ≠ .failed →
      (over_ = false → s.isFull (wordAt x) = true → s.thr.isHandler = true → ∃ t : State, exec i s = .next t ∧ s.sameRegs t ∧
        s.keepsMemory t [] ∧ t.thr.ended = (s.thr.handlerFault .feState).ended) ∧
      (over_ = true ∨ s.isFull (wordAt x) = false → ∃ t : State, exec i s = .next t ∧ s.passed t ∧ s.keepsMemory t [(x, n)] ∧
        (s.unwaited x = true → s.padHealth x ≠ .retired → s.settledRange x n →
          t.isFull (wordAt x) = true ∧ memRead t.mem x n = (s.thr.rg d).toNat % 256 ^ n)) ∧
      (over_ = false → s.isFull (wordAt x) = true → s.thr.isHandler = false → ∃ t : State, exec i s = .next t ∧
        s.waitsFor t (.word (wordAt x)) ∧ s.keepsMemory t []))) ∧
  (∀ (i : Instr) (u full : Bool) (sg : BitVec 3) (a : BitVec 6) (s : State) (x : Loc),
    i = (if full then .feset u sg a else .feclr u sg a) →
    let off := (s.thr.rg a).toNat
    let g := s.thr.seg sg
    s.storeReady = true → s.accCheck sg off 8 8 rightS .fe = none → s.fieldCheck g off 8 = none →
    s.place s.thr g off needW false = .ok x → s.writable x = true → s.thr.isHandler = true ∨ s.padHealth x ≠ .failed →
    ∃ t : State, exec i s = .next t ∧ s.passed t ∧ s.keepsMemory t [] ∧ (s.unwaited x = true → t.isFull (wordAt x) = full) ∧
      ∀ w rest, s.waits.filter (fun r => r.word == wordAt x) = w :: rest →
        (w.req.satisfied full = false → t.waits = s.waits ∧ t.isFull (wordAt x) = full) ∧
        (w.req.satisfied full = true → t.served w rest)) ∧
  (∀ (u : Bool) (sg : BitVec 3) (d a : BitVec 6) (s : State) (x : Loc),
    let off := (s.thr.rg a).toNat
    s.readReady = true → s.accCheck sg off 8 8 rightS .fe = none → s.place s.thr (s.thr.seg sg) off needR true = .ok x →
    s.poisoned x 8 = false → s.thr.isHandler = true ∨ s.padHealth x ≠ .failed →
    completes (.feq u sg d a) s fun t => t.wg d (if s.isFull (wordAt x) then 1 else 0)) ∧
  (∀ (u : Bool) (sg : BitVec 3) (d a : BitVec 6) (s : State) (x y : Loc),
    let off := (s.thr.rg a).toNat
    let g := s.thr.seg sg
    let head := memRead s.mem x 8
    let slot := off + 64 + 8 * (head % 2 ^ min ((memGet s.mem (x + 16)).toNat % 32) 16)
    let m := memWrite s.mem x 8 ((head + 1) % 2 ^ 64)
    s.thr.grant = none → s.storeReady = true → s.calm = true → s.thr.isHandler = false → s.accCheck sg off 64 64 rightA .append = none → s.fieldCheck g off 64 = none →
    s.place s.thr g off needW false = .ok x → s.writable x = true → s.padHealth x = .ok → slot + 8 ≤ g.len →
    State.place { s with mem := m } s.thr g slot needW false = .ok y → s.writable y = true → s.padHealth y ≠ .retired →
    s.isFull (wordAt y) = false → s.unwaited y = true →
    ∃ t : State, exec (.apnd u sg d a) s = .next t ∧ s.passed t ∧ t.mem = memWrite m y 8 (s.thr.rg d).toNat ∧
      t.isFull (wordAt y) = true)

/-- R137: TBINIT starts a generation, TBEXP and TBARV count with saturation, and the generation completes when ARRIVED reaches
EXPECT, OVER where it passes it and LATE for an expectation after completion. TBWAIT completes when DONE is set and parks
until then; TBTEST reads the barrier. When a generation completes every thread that waits for it is sent a wake. No register but
TBTEST's, and no settled byte but the barrier's, changes. No handler runs these instructions (Table 8.2). -/
def Obligations.BarrierOperations : Prop :=
  let cap (n : Nat) : Nat := min n 0xFFFFFFFF
  let init (n : Nat) (b : Barrier) : Barrier := ⟨n, 0, 0, 0, (b.gen + 1) % 2 ^ 15, n == 0⟩
  let expect_ (n : Nat) (b : Barrier) : Barrier :=
    if b.done then { b with flags := b.flags ||| 2 }
    else
      let e := cap (b.expect + n)
      { b with expect := e, done := e ≤ b.arrived, flags := if e < b.arrived then b.flags ||| 1 else b.flags }
  let arrive (n : Nat) (b : Barrier) : Barrier :=
    let k := cap (b.arrived + n)
    if b.done then { b with arrived := k, flags := b.flags ||| 1 }
    else { b with arrived := k, done := b.expect ≤ k, flags := if b.expect < k then b.flags ||| 1 else b.flags }
  (∀ (u : Bool) (a b : BitVec 6) (sg : BitVec 3) (s : State) (x : Loc),
    let off := (s.thr.rg a).toNat
    let g := s.thr.seg sg
    s.storeReady = true → s.thr.isHandler = false → s.accCheck sg off 16 16 rightS .append = none → s.fieldCheck g off 16 = none →
    s.place s.thr g off needRW false = .ok x → s.writable x = true → s.padHealth x ≠ .failed →
    ∀ q ∈ [(Instr.tbinit u a b sg, init), (.tbexp u a b sg, expect_), (.tbarv u a b sg, arrive)],
      ∃ t : State, exec q.1 s = .next t ∧ s.passed t ∧ s.keepsMemory t [(x, 16)] ∧
        (s.settledRange x 16 → s.padHealth x = .ok → t.barrier x = q.2 (s.thr.low 32 b).toNat (s.barrier x) ∧
          ((t.barrier x).done = true → ∀ v ∈ s.threads, v.wait = .barrier x → v.key ∈ t.wakes))) ∧
  (∀ (u : Bool) (a : BitVec 6) (sg : BitVec 3) (d : BitVec 6) (s : State) (x : Loc),
    let off := (s.thr.rg a).toNat
    s.readReady = true → s.accCheck sg off 16 16 rightS .append = none →
    s.place s.thr (s.thr.seg sg) off needRW true = .ok x → s.poisoned x 16 = false → s.settledRange x 16 →
    s.thr.isHandler = false → s.padHealth x ≠ .failed →
    let b := s.barrier x
    (b.done = true → ∃ t : State, exec (.tbwait u a sg) s = .next t ∧ s.passed t ∧ s.keepsMemory t []) ∧
    (b.done = false → ∃ t : State, exec (.tbwait u a sg) s = .next t ∧ s.waitsFor t (.barrier x) ∧ s.keepsMemory t []) ∧
    (∃ t : State, exec (.tbtest u d a sg) s = .next t ∧ s.keepsMemory t [] ∧
      (s.onThr fun r => r.wg d (BitVec.ofBool b.done ++ BitVec.ofNat 15 b.gen ++ (0 : BitVec 8) ++ b.flags ++
        BitVec.ofNat 32 b.value)).passed t))

/-- R134, R135, R239, R241: FENCE completes when no record of the thread is queued and nothing of it is held at its port, where
it acquires no load is open, and at .DEV and .SYS its reductions can be performed; those to far memory are taken as acknowledged
there (log 82, DEDUCED). A release leaves every dirty byte of the core
covered and the thread's buffer entries drained, and marks the next store; an acquire leaves the core no clean byte outside
frozen lines. Device scopes perform the thread's messages. DRAIN completes with every store of the thread performed, whatever
later loads are open. No register or settled byte changes. -/
def Obligations.FenceAndDrain : Prop :=
  (∀ (u : Bool) (k : FenceKind) (sc : Scope) (s : State),
    let c := coreIndex s.thr.view
    let wide := sc ≠ .slot ∧ sc ≠ .core
    s.ownRecord = none → s.portClear = true → (k ≠ .rel → s.thr.loadsOpen = false) →
    (sc = .dev ∨ sc = .sys → (∀ m ∈ s.msgs, m.key = s.thr.key → coreIndex m.view = c ∧ s.msgReady m = true) ∧
      ∀ m ∈ s.farOut, m.isRed s.thr.key = true → s.thr.openBelow m.upTo = false) →
    ∃ t : State, exec (.fence u k sc) s = .next t ∧ s.passed t ∧ s.keepsMemory t [] ∧
      (∀ e ∈ (t.core c).wcb, s.thr.key ∉ e.owners) ∧
      (k ≠ .acq → t.thr.relFence = true ∧ (wide → ∀ l ∈ (t.core c).l1, l.dirty &&& ~~~l.covered = 0)) ∧
      (k ≠ .rel → wide → ∀ l ∈ (t.core c).l1, l.frozen = true ∨ l.valid = l.dirty) ∧
      (sc = .dev ∨ sc = .sys → ∀ m ∈ t.msgs, m.key ≠ s.thr.key) ∧
      (∀ m ∈ t.msgs, m.key = s.thr.key → m.op.answers = false)) ∧
  (∀ (u : Bool) (s : State),
    s.portClear = true → s.faults.any (fun f => f.key == s.thr.key) = false →
    (∀ m ∈ s.msgs, m.key = s.thr.key →
      s.isFrozen m.loc = false ∧ s.wayGone m.key m.loc m.va = false ∧ coreIndex m.view = coreIndex s.thr.view ∧
        s.msgReady m = true) →
    (∀ m ∈ s.farOut, m.isRed s.thr.key = true → s.thr.openBelow m.upTo = false) →
    ∃ t : State, exec (.drain u) s = .next t ∧ s.passed t ∧ s.keepsMemory t [] ∧ (∀ m ∈ t.msgs, m.key ≠ s.thr.key) ∧
      (∀ m ∈ t.farOut, m.key = s.thr.key → m.entry.isSome = true ∨ m.copy.isSome = true))

/-- R128, R129, R130: ATOM, CAS and CAS2 return the old value through pending entries and leave the new one in memory: the
operation's result, or g[d+1] (the second half of the register group for CAS2) where the old value equals g[d]. RED and RED.FADD
are sent to the place that performs them, whatever loads are open, and return nothing; what they do there is stated with the
performance of messages (EventsAroundThreads). -/
def Obligations.AtomicsComplete : Prop :=
  (∀ (u : Bool) (la : BitVec 4) (sg : BitVec 3) (d a : BitVec 6) (op : AtomOp) (sz : Sz) (s : State),
    let w := if sz.isDbl then 64 else 32
    atomicCompletes (.atom u la sg d a op sz) s sg d a la (w / 8) (.atom op sz.unsigned) ((s.thr.rg d).zeroExtend 128) 0
      fun old => (atomNew op sz.unsigned (BitVec.ofNat w old) (s.thr.low w d)).toNat) ∧
  (∀ (u : Bool) (la : BitVec 4) (sg : BitVec 3) (d : BitVec 5) (a : BitVec 6) (dbl : Bool) (s : State),
    let w := if dbl then 64 else 32
    let r : BitVec 6 := BitVec.ofNat 6 (2 * d.toNat)
    atomicCompletes (.cas u la sg d a dbl) s sg r a la (w / 8) .cas ((s.thr.rg r).zeroExtend 128)
      ((s.thr.rg (r + 1)).zeroExtend 128) fun old => if old = (s.thr.low w r).toNat then (s.thr.low w (r + 1)).toNat else old) ∧
  (∀ (u : Bool) (la : BitVec 4) (sg : BitVec 3) (d : BitVec 4) (a : BitVec 6) (s : State),
    let r : BitVec 6 := BitVec.ofNat 6 (4 * d.toNat)
    let x := s.thr.rg (r + 1) ++ s.thr.rg r
    let y := s.thr.rg (r + 3) ++ s.thr.rg (r + 2)
    atomicCompletes (.cas2 u la sg d a) s sg r a la 16 .cas2 x y fun old => if old = x.toNat then y.toNat else old) ∧
  (∀ (u : Bool) (sg : BitVec 3) (d a : BitVec 6) (op : RedOp) (sz : Sz) (s : State),
    let w := if sz.isDbl then 64 else 32
    reductionCompletes (.red u sg d a op sz) s sg a (w / 8) (.red op sz.unsigned) ((s.thr.rg d).zeroExtend 128)) ∧
  (∀ (u : Bool) (rm : Rm) (sg : BitVec 3) (d a : BitVec 6) (dbl : Bool) (s : State),
    let f : Fmt := if dbl then .fp64 else .fp32
    let z : Flush := ⟨s.thr.fmt[0].getLsbD 10, s.thr.fmt[0].getLsbD 11, s.thr.fmt[0].getLsbD 12⟩
    reductionCompletes (.redFadd u rm sg d a dbl) s sg a (Fmt.width f / 8) (.fadd rm z) ((s.thr.rg d).zeroExtend 128))


/-! ## Threads, machine registers, segments (spec/01, spec/04) -/

/-- R87, R88, R91, R92, R100: EXIT retires its thread once its stores are performed and its matrix jobs have ended; YIELD
gives up the next turn; TKILL retires the thread, crew or shift that it names; BARC completes for the whole crew when its last
live thread arrives, and parks the others. Threads not named keep their registers; while a thread of the crew lives on, no
settled byte of memory changes. -/
def Obligations.ThreadsEndAndMeet : Prop :=
  (∀ (u : Bool) (s : State), (s.thr.pending.all fun e => !e.isOpen && !e.failed) = true → s.portClear = true →
    s.faults.any (fun f => f.key == s.thr.key) = false → s.jobsOpen = false →
    (∀ m ∈ s.msgs, m.key = s.thr.key → s.isFrozen m.loc = false ∧ s.wayGone m.key m.loc m.va = false ∧
      coreIndex m.view = coreIndex s.thr.view ∧ s.msgReady m = true) →
    (∀ m ∈ s.farOut, m.isRed s.thr.key = true → s.thr.openBelow m.upTo = false) →
    ∃ t : State, exec (.exit u) s = .next t ∧ t.thr.status = .retired ∧ s.sameThreads t (· ≠ s.thr.key) ∧
      (s.survivor s.thr.key → s.keepsMemory t [])) ∧
  (∀ (u : Bool) (s : State), becomes (.yield u) s fun t => { t.advance with yielded := true }) ∧
  (∀ (u : Bool) (a : BitVec 6) (s : State),
    let n := (s.thr.rg a).toNat
    let key : ThreadKey := .crew s.thr.crewId.1 s.thr.crewId.2 n
    (s.thr.nthr ≤ n → completes (.tkillThread u a) s id) ∧
    (n < s.thr.nthr → ∃ t : State, exec (.tkillThread u a) s = .next t ∧ t.ended key ∧ s.sameThreads t (· ≠ key) ∧
      (s.thr.key ≠ key → t.thr.pc = s.thr.nextPc) ∧ (s.survivor key → s.keepsMemory t []))) ∧
  (∀ (u : Bool) (s : State), ∃ t : State, exec (.tkillCrew u) s = .next t ∧
    (∀ n, t.ended (.crew s.thr.crewId.1 s.thr.crewId.2 n)) ∧
    (∀ k ∈ t.shifts, k.serial = s.thr.crewId.1 → k.killed = true) ∧
    s.sameThreads t (fun k => ∀ n, k ≠ .crew s.thr.crewId.1 s.thr.crewId.2 n)) ∧
  (∀ (u : Bool) (s : State),
    let n := s.thr.crewId.1
    ((s.shift? n).isNone = true → completes (.tkillShift u) s id) ∧
    ((s.shift? n).isSome = true → ∃ t : State, exec (.tkillShift u) s = .next t ∧
      (∀ c ∈ s.crews, c.serial = n → c.retired = false → ∀ i, t.ended (.crew n c.n i)) ∧
      (∀ k ∈ t.shifts, k.serial = n → k.killed = true) ∧ s.sameThreads t (fun k => ∀ m i, k ≠ .crew n m i))) ∧
  (∀ (u : Bool) (s : State) (k : Crew),
    let c := s.thr.crewId
    (s.thr.grant.isSome = true → completes (.barc u) s id) ∧
    (s.thr.grant = none → s.storeReady = true → s.crew? c = some k → s.thr.inCrew c.1 c.2 = true → s.thr.status = .ready →
      s.wakes.contains s.thr.key = false →
      ((∃ v ∈ s.crewThreads c, v.live = true ∧ v.tid ∉ k.barc ∧ v.tid ≠ s.thr.tid) →
        ∃ (t : State) (k' : Crew), exec (.barc u) s = .next t ∧ s.waitsFor t .barc ∧ s.keepsMemory t [] ∧ t.crew? c = some k' ∧
          s.thr.tid ∈ k'.barc) ∧
      ((∀ v ∈ s.crewThreads c, v.live = true → v.tid ∈ k.barc ∨ v.tid = s.thr.tid) →
        ∃ (t : State) (k' : Crew), exec (.barc u) s = .next t ∧ s.passed t ∧ s.keepsMemory t [] ∧ t.crew? c = some k' ∧ k'.barc = [] ∧
          ∀ v ∈ s.crewThreads c, v.live = true → v.key ≠ s.thr.key → v.key ∈ t.wakes)))

/-- R17, R20, R24 to R26, R93, R94: MRD reads a machine register; MWR changes the defined bits of the register it names, no
other machine register and no register of a file; a write to a read-only register completes without an effect; one to %wpart
needs ADM in the handle table, parks while the island is repartitioned, and completes at once when the value is the present
one. -/
def Obligations.MachineRegisters : Prop :=
  (∀ (u : Bool) (d : BitVec 6) (m : MReg) (s : State), completes (.mrd u d m) s fun t => t.wg d (s.readM m)) ∧
  (∀ (u : Bool) (d : BitVec 6) (m : MReg) (s : State), m ≠ .wpart → ∃ t : State, exec (.mwr u d m) s = .next t ∧
    t.readM m = (match MReg.writable m with | some k => s.thr.rg d &&& k | none => s.readM m) ∧
    (∀ m', m' ≠ m → t.readM m' = s.readM m') ∧ t.thr.g = s.thr.g ∧ t.thr.v = s.thr.v ∧ t.thr.p = s.thr.p ∧
    t.thr.segs = s.thr.segs ∧ t.thr.pc = s.thr.nextPc ∧ t.thr.pending = s.thr.pending ∧ t.others = s.others ∧ t.mem = s.mem) ∧
  (∀ (u : Bool) (d : BitVec 6) (s : State) (x h : Nat),
    (s.thr.grant.isSome = true → completes (.mwr u d .wpart) s id) ∧
    (s.thr.grant = none → s.thr.htab ≠ 0 → tableRead s s.thr.view s.thr.htab 8 = (.ok x, h) →
      let n := (s.thr.rg d).toNat % 16
      let busy := s.engJobs.any fun j => match j.work with | .repartition _ _ => j.island == s.thr.view.island | _ => false
      (h.testBit 16 = false → exec (.mwr u d .wpart) s = .next (s.trap .segRight (s.thr.rg d) 0x070)) ∧
      (h.testBit 16 = true → n ∈ [0, 4, 8, 12] →
        (s.readM .wpart = BitVec.ofNat 64 n → busy = false → completes (.mwr u d .wpart) s id) ∧
        (s.readM .wpart ≠ BitVec.ofNat 64 n ∨ busy = true → ∃ t : State, exec (.mwr u d .wpart) s = .next t ∧
          s.waitsFor t (.engine s.nextId) ∧ t.mem = s.mem ∧
          t.engJobs = s.engJobs ++ [⟨s.nextId, s.thr.key, s.thr.view.island, none, .repartition n 0⟩])))) ∧
  (∀ s : State, s.readM .tile = BitVec.ofNat 64 (s.thr.view.cluster % 96 % 12 + 16 * (s.thr.view.cluster % 96 / 12)) ∧
    s.readM .pkt = BitVec.ofNat 48 s.thr.crewId.1 ++ (0 : BitVec 7) ++ s.thr.prio ++ s.thr.queue)

/-- R22, R28, R29, R95, R96, R97: SEGLD loads a valid handle's fields and traps SEGRIGHT or ADDRFORM for the others; SEGSUB
narrows a segment in place and removes rights, and traps SEGRIGHT on an empty one and SEGBOUND past its end; SEGQ reads base,
length, or rights, space, policy and FMOD. A valid far handle whose FMOD names no entry of the far table gives an empty segment. The
address that ADDRFORM reports (BASE + LEN: log 87), SEGRIGHT for a table address of 0 (log 59, DEDUCED) and a base narrowed to 2^52,
which wraps to 0 (log 91), are the model's choices. -/
def Obligations.SegmentOperations : Prop :=
  (∀ (u : Bool) (a : BitVec 6) (sg : BitVec 3) (s : State),
    (∀ g, readHandle s s.thr.view s.thr.htab (s.thr.rg a).toNat = .ok g → completes (.segld u a sg) s fun t => t.wseg sg g) ∧
    (readHandle s s.thr.view s.thr.htab (s.thr.rg a).toNat = .segRight →
      exec (.segld u a sg) s = .next (s.trap .segRight (s.thr.rg a) (sg.zeroExtend 64))) ∧
    (∀ x, readHandle s s.thr.view s.thr.htab (s.thr.rg a).toNat = .addrForm x →
      exec (.segld u a sg) s = .next (s.trap .addrForm (BitVec.ofNat 64 x) 0)) ∧
    (∀ va, readHandle s s.thr.view s.thr.htab (s.thr.rg a).toNat = .park va →
      ∃ t : State, exec (.segld u a sg) s = .next t ∧ s.waitsFor t (.page va) ∧ t.mem = s.mem)) ∧
  (∀ (s : State) (v : View) (tab h x y hd e : Nat), tab ≠ 0 → h ≠ 0 → tableRead s v tab 8 = (.ok x, hd) →
    (hd % 65536 < h → readHandle s v tab h = .segRight) ∧
    (h ≤ hd % 65536 → tableRead s v (tab + 32 * h) 32 = (.ok y, e) →
      let b : BitVec 256 := BitVec.ofNat 256 e
      let g : Seg := ⟨b.extractLsb' 0 52, (b.extractLsb' 64 53).toNat, b.extractLsb' 128 8, b.extractLsb' 136 4,
        b.extractLsb' 140 2, b.extractLsb' 192 16⟩
      (b.getLsbD 191 = false ∨ g.space = 0 ∨ 8 < g.space.toNat → readHandle s v tab h = .segRight) ∧
      (b.getLsbD 191 = true → g.space ∈ [spLane, spCore, spCluster, spStack] →
        readHandle s v tab h = if memSizeOf s v g.space < g.base.toNat + g.len then .addrForm (g.base.toNat + g.len) else .ok g) ∧
      (b.getLsbD 191 = true → g.space ∈ [spInter, spBank, spCode] →
        readHandle s v tab h = if 2 ^ 52 < g.base.toNat + g.len then .addrForm (g.base.toNat + g.len) else .ok g) ∧
      (b.getLsbD 191 = true → g.space = spFar →
        readHandle s v tab h = if 2 ^ 52 < g.base.toNat + g.len then .addrForm (g.base.toNat + g.len)
          else if ((s.island? v.island).map fun i => i.far.any fun f => f.idx == g.fmod.toNat).getD false then .ok g
          else .ok ⟨0, 0, 0, 0, 0, 0⟩))) ∧
  (∀ (s : State) (v : View) (tab h : Nat), tab = 0 ∨ h = 0 → readHandle s v tab h = .segRight) ∧
  (∀ (u : Bool) (d a b : BitVec 6) (sg : BitVec 3) (s : State),
    let g := s.thr.seg sg
    (g.space = 0 → exec (.segsub u d a b sg) s = .next (s.trap .segRight 0 (sg.zeroExtend 64))) ∧
    (g.space ≠ 0 → g.len < (s.thr.rg a).toNat + (s.thr.rg b).toNat →
      exec (.segsub u d a b sg) s = .next (s.trap .segBound (s.thr.rg a) (sg.zeroExtend 64))) ∧
    (g.space ≠ 0 → (s.thr.rg a).toNat + (s.thr.rg b).toNat ≤ g.len → completes (.segsub u d a b sg) s fun t =>
      t.wseg sg { g with base := BitVec.ofNat 52 (g.base.toNat + (t.rg a).toNat), len := (t.rg b).toNat
                         rights := g.rights &&& ~~~t.low 8 d })) ∧
  (∀ (u : Bool) (d : BitVec 6) (q : SegSel) (sg : BitVec 3) (s : State), completes (.segq u d q sg) s fun t =>
    let g := t.seg sg
    t.wg d (if g.space = 0 then 0 else match q with
      | .base => g.base.zeroExtend 64
      | .length => BitVec.ofNat 64 g.len
      | .rights => (if g.space = spFar then g.fmod else 0).zeroExtend 32 <<< 16 |>.zeroExtend 64 |>.or
          ((0 : BitVec 50) ++ g.policy ++ g.space ++ g.rights)))

/-! ## Copies, launch, dispatch (spec/05, spec/11) -/

/-- R139, R140, R141: XFER, XFER.F and GATH that pass their checks, with room in the kick queue, hand the copy to a copy hart
and complete without a change of a register or of a settled byte: XFER to the hart of the issuer's cluster, GATH to that above its
first granule. COPY_COMPLETION moves a granule from its source to its destination, XFER.F filling its word, and ends a copy that is
done with an arrival of value 0 at its barrier, also in the step of its last granule. That a GATH goes on granule by granule with the
hart above the granule at hand is read from R140 (log 106, DEDUCED). A granule to or from far memory goes by a message of the far
module (R308), and one that fails there ends the copy with the bytes copied as VALUE. -/
def Obligations.CopiesComplete : Prop :=
  (∀ (i : Instr) (u : Bool) (kind : Fin 3) (d : BitVec 5) (a b : BitVec 6) (sg : BitVec 3) (s : State) (g bar : Seg),
    i = (match kind with | 0 => .xfer u d a b sg | 1 => .xferF u d a b sg | 2 => .gath u d a b sg) →
    let r : BitVec 6 := BitVec.ofNat 6 (2 * d.toNat)
    let x := s.thr.rg r
    let y := s.thr.rg (r + 1)
    let v := s.thr.view
    let here : Ref := ⟨s.thr.seg sg, (s.thr.rg a).toNat, v⟩
    let there : Ref := ⟨g, x.toNat / 2 ^ 16, v⟩
    let gather : Bool := kind = 2
    s.storeReady = true → followHandle s v s.thr.htab x = .ok g → followHandle s v s.thr.htab y = .ok bar →
    (if gather then copyCheck s g here.seg (handleNum x) there.off sg.toNat here.off bar y (s.thr.rg b) sg.toNat true
      else copyCheck s here.seg g sg.toNat here.off (handleNum x) there.off bar y (s.thr.rg b) sg.toNat false) = none →
    let hart := s.hartFor v (if gather then g else here.seg) (if gather then there.off else here.off) gather
    (s.copies.filter fun c => c.hart == hart).length < 16 →
    (gather = false → hart = v.cluster) ∧
    ∃ t : State, exec i s = .next t ∧ s.passed t ∧ s.keepsMemory t [] ∧ t.nextId = s.nextId + 1 ∧
      t.copies = s.copies ++ [⟨s.nextId, s.thr.key, if gather then there else here, if gather then here else there,
        (s.thr.rg b).toNat, 0, kind = 1, gather, hart, false, ⟨bar, y.toNat / 2 ^ 16, v⟩⟩]) ∧
  (∀ (s : State) (c : CopyJob) (x y : Loc), s.copies.find? (fun k => k.id == c.id) = some c → s.calm = true →
    8 * c.pos < c.len → c.src.seg.space ≠ spFar → c.dst.seg.space ≠ spFar →
    let so := c.src.off + 8 * c.pos
    let do_ := c.dst.off + 8 * c.pos
    (c.src.seg.base.toNat + so) % 128 ≤ 120 → (c.dst.seg.base.toNat + do_) % 128 ≤ 120 →
    badAddress (c.src.seg.base.toNat + so) = false → badAddress (c.dst.seg.base.toNat + do_) = false →
    let hart := s.hartFor c.src.view c.src.seg so c.gather
    let above : View := if c.gather = true ∧ hart < 384 then { c.src.view with cluster := hart } else c.src.view
    s.hartStops c = false → s.hartStops { c with hart := hart } = false →
    s.locateNow above c.src.seg so needR = .ok x → s.poisoned x 8 = false →
    s.locateNow c.dst.view c.dst.seg do_ (if c.feSet then needRW else needW) = .ok y → s.writable y = true →
    s.padHealth y ≠ .retired →
    let after : State := { s with mem := memWrite s.mem y 8 (memRead s.mem x 8) }
    (c.feSet = true → y % 8 = 0 ∧ (c.dst.seg.base.toNat + do_) % 8 = 0 ∧ s.unwaited y = true ∧
      after.locateNow c.dst.view c.dst.seg do_ needRW = .ok y) →
    (8 * (c.pos + 1) < c.len → ∃ t : State, exec (.copyCompletion c.id 1) s = .next t ∧ s.sameRegs t ∧ s.keepsMemory t [(y, 8)] ∧
      memRead t.mem y 8 = memRead s.mem x 8 ∧ (c.feSet = true → t.isFull (wordAt y) = true) ∧
      t.copies = s.copies.map (fun k => if k.id = c.id then { c with hart := hart, pos := c.pos + 1, stalled := false } else k)) ∧
    (∀ z, c.len ≤ 8 * (c.pos + 1) → after.barrierAt c.bar z → (z + 16 ≤ y ∨ y + 8 ≤ z) →
      ∃ t : State, exec (.copyCompletion c.id 1) s = .next t ∧ s.sameRegs t ∧ s.keepsMemory t [(y, 8), (z, 16)] ∧
        memRead t.mem y 8 = memRead s.mem x 8 ∧ (c.feSet = true → t.isFull (wordAt y) = true) ∧
        t.copies = s.copies.filter (fun k => k.id != c.id) ∧ arrivedBarrier (s.barrier z) (t.barrier z) 0)) ∧
  (∀ (s : State) (c : CopyJob) (x : Loc), s.copies.find? (fun k => k.id == c.id) = some c → s.calm = true → 8 * (c.pos + 1) < c.len →
    s.hartStops c = false →
    let so := c.src.off + 8 * c.pos
    let do_ := c.dst.off + 8 * c.pos
    let hart := s.hartFor c.src.view c.src.seg so c.gather
    s.hartStops { c with hart := hart } = false → Config.farFails s.free = false →
    (c.dst.seg.space = spFar → c.src.seg.space ≠ spFar → c.gather = false → (c.src.seg.base.toNat + so) % 128 ≤ 120 →
      badAddress (c.src.seg.base.toNat + so) = false → s.locateNow c.src.view c.src.seg so needR = .ok x → s.poisoned x 8 = false →
      ∃ t : State, exec (.copyCompletion c.id 1) s = .next t ∧ s.sameRegs t ∧ s.keepsMemory t [] ∧
        (c.pos % 512 = 0 → ∃ m ∈ t.farOut, m.copy = some c.id ∧ m.fmod = c.dst.seg.fmod.toNat) ∧
        t.copies = s.copies.map (fun k => if k.id = c.id then { c with hart := hart, pos := c.pos + 1, stalled := false } else k)) ∧
    (c.src.seg.space = spFar → c.dst.seg.space ≠ spFar → c.feSet = false → (c.dst.seg.base.toNat + do_) % 128 ≤ 120 →
      badAddress (c.dst.seg.base.toNat + do_) = false → s.locateNow c.dst.view c.dst.seg do_ needW = .ok x → s.writable x = true →
      s.padHealth x ≠ .retired →
      ∃ t : State, exec (.copyCompletion c.id 1) s = .next t ∧ s.sameRegs t ∧ s.keepsMemory t [(x, 8)] ∧
        memRead t.mem x 8 = (Config.farBytes s.free).toNat % 256 ^ 8 ∧
        (c.pos % 512 = 0 → ∃ m ∈ t.farOut, m.copy = some c.id ∧ m.fmod = c.src.seg.fmod.toNat) ∧
        t.copies = s.copies.map (fun k => if k.id = c.id then { c with hart := hart, pos := c.pos + 1, stalled := false } else k))) ∧
  (∀ (s : State) (c : CopyJob) (z : Loc), s.copies.find? (fun k => k.id == c.id) = some c → 8 * c.pos < c.len →
    c.src.seg.space = spFar → s.hartStops c = false →
    s.hartStops { c with hart := s.hartFor c.src.view c.src.seg (c.src.off + 8 * c.pos) c.gather } = false →
    Config.farFails s.free = true → s.barrierAt c.bar z →
    ∃ t : State, exec (.copyCompletion c.id 1) s = .next t ∧ s.sameRegs t ∧ s.keepsMemory t [(z, 16)] ∧
      t.copies = s.copies.filter (fun k => k.id != c.id) ∧
      arrivedBarrier (s.barrier z) (t.barrier z) (8 * c.pos) ∧ (t.barrier z).flags.getLsbD 2 = true) ∧
  (∀ (s : State) (c : CopyJob) (n : Nat) (x : Loc), s.copies.find? (fun k => k.id == c.id) = some c → c.len ≤ 8 * c.pos →
    s.hartStops c = false → s.barrierAt c.bar x →
    ∃ t : State, exec (.copyCompletion c.id n) s = .next t ∧ s.sameRegs t ∧ s.keepsMemory t [(x, 16)] ∧
      t.copies = s.copies.filter (fun k => k.id != c.id) ∧ arrivedBarrier (s.barrier x) (t.barrier x) 0)

/-- R98, R99, R249, R250, R87: LAUNCH and GANG of a valid packet give the shift the next serial number, put it at the tail of
its queue and return the number, and return 0 for an invalid one. A Held packet becomes Ready when its dependence barrier is
done. A decision takes a Ready queue of the greatest effective priority, and, where its next crew or gang can be placed, starts
the crew's threads, as many as the packet names for each member, Ready at the entry with every register 0. A retired crew to which nothing is owed gives up its memory. -/
def Obligations.LaunchAndDispatch : Prop :=
  (∀ (i : Instr) (u isGang : Bool) (d a b : BitVec 6) (sg : BitVec 3) (s s1 : State) (y h x : Nat) (isl : Island),
    i = (if isGang then .gang u d a b sg else .launch u d a sg) →
    let g := s.thr.seg sg
    let off := (s.thr.rg a).toNat
    let gl := if isGang then some (s.thr.rg b) else none
    tableRead s s.thr.view s.thr.htab 8 = (.ok y, h) → s.thr.htab ≠ 0 → h.testBit 17 = true → s.deviceReady = true →
    s.accCheck sg off 64 64 rightR .load = none → g.space ≠ spFar → s.loadBytes g off 64 = (s1, .value x) →
    s.island? s.thr.view.island = some isl →
    (checkPacket s1 isl s.thr.view x s.thr.htab gl false = .invalid → ∃ t : State, exec i s = .next t ∧
      (s.onThr fun r => r.wg d 0).passed t ∧ s.keepsMemory t [] ∧ t.shifts = s.shifts) ∧
    (∀ k, checkPacket s1 isl s.thr.view x s.thr.htab gl false = .ok k → (isl.queue k.queue).shifts.length < 256 →
      (isl.queue k.queue).waiters.head?.all (fun w => w == s.thr.key) = true →
      ∃ t : State, exec i s = .next t ∧ (s.onThr fun r => r.wg d (BitVec.ofNat 64 s.nextSerial)).passed t ∧ s.keepsMemory t [] ∧
        t.nextSerial = s.nextSerial + 1 ∧
        (t.island? isl.num).map (fun j => (j.queue k.queue).shifts) = some ((isl.queue k.queue).shifts ++ [s.nextSerial]) ∧
        ∃ k' ∈ t.shifts, k'.serial = s.nextSerial ∧ k'.entry = BitVec.ofNat 52 x ∧ k'.queue = x / 2 ^ 52 % 64 ∧
          k'.prio = x / 2 ^ 58 % 8 ∧ k'.threads = x / 2 ^ 116 % 32 + 1 ∧ k'.ncx = x / 2 ^ 128 % 65536 + 1 ∧
          k'.ncy = x / 2 ^ 144 % 65536 + 1 ∧ k'.nstage = x / 2 ^ 160 % 16 + 1 ∧ k'.args = BitVec.ofNat 64 (x / 2 ^ 192))) ∧
  (∀ (s : State) (n : Nat) (k : Shift) (b : Ref) (x : Loc), s.shift? n = some k → k.dep = some b → s.atHead k = true →
    k.ready = false → badAddress (b.seg.base.toNat + b.off) = false → s.locateNow b.view b.seg b.off needR = .ok x →
    s.poisoned x 16 = false → s.settledRange x 16 →
    ∃ t : State, exec (.packetDependenceRead n) s = .next t ∧ s.sameRegs t ∧ s.keepsMemory t [] ∧
      t.shift? n = some { k with ready := (s.barrier x).done }) ∧
  (∀ (s w : State) (isl : Island) (q : Queue × Shift) (fs : List (Nat × Nat × List (Nat × Nat × Nat))),
    s.hostLaunches = [] → s.waits = [] → s.island? isl.num = some isl → candidate (s.readyQueues isl) = some q →
    s.placement isl q.2 = some fs → (q.2.inboxDone = true ∨ q.2.ibxh = 0) → s.dispatch q.2 fs = .ok w →
    (∀ r ∈ s.readyQueues isl, r.1.eff ≤ q.1.eff) ∧
    ∃ (t : State) (new : List Thread), exec (.dispatchDecision isl.num) s = .next t ∧ t.threads = s.threads ++ new ∧
      (∀ v ∈ new, v.status = .ready ∧ v.pc = q.2.entry ∧ v.g = Vector.replicate 64 0 ∧ v.v = Vector.replicate 32 0 ∧
        v.p = Vector.replicate 8 0 ∧ v.pending = [] ∧ v.nthr = q.2.threads ∧ v.args = q.2.args) ∧
      new.length = fs.length * q.2.threads ∧
      (∀ m tid, m < fs.length → tid < q.2.threads →
        let gj := q.2.ncx / q.2.gangLen
        let cx := q.2.next / q.2.nstage % gj * q.2.gangLen + m
        let cy := q.2.next / (q.2.nstage * gj)
        let stage := q.2.next % q.2.nstage
        ∃ v ∈ new, v.key = .crew q.2.serial ((cy * q.2.ncx + cx) * q.2.nstage + stage) tid ∧ v.cx = cx ∧ v.cy = cy ∧
          v.stage = stage ∧ v.view.cluster = (fs.getD m (0, 0, [])).1) ∧
      t.crews.length = s.crews.length + fs.length ∧ (t.shift? q.2.serial).map (·.next) = some (q.2.next + 1)) ∧
  (∀ (s : State) (serial n : Nat) (k : Crew), s.crew? (serial, n) = some k →
    (k.retired = false ∨ s.crewOwed k = true → exec (.crewMemoryRelease serial n) s = .next s) ∧
    (k.retired = true → s.crewOwed k = false → ∃ t : State, exec (.crewMemoryRelease serial n) s = .next t ∧
      t.crew? (serial, n) = none ∧ t.thr = s.thr ∧ t.mem = s.mem ∧
      t.others = s.others.filter (fun v => !v.inCrew serial n)))

/-! ## The matrix engine (spec/07) -/

/-- R166, R169 to R173, R177, R179, R183, R185: with the engine in service and room in its queue: MACQ grants the tiles that no
crew owns and returns those of its mask that the crew then owns; MREL gives up the owned ones; MZERO, MLD and the four job
instructions append their operation and complete, a job instruction with the next job number; MPOLL reads a job's state and
steps, 0 when it has ended; MWAIT completes when it has ended and parks until then; MDRAIN appends its drain and parks, and
completes when it is granted. -/
def Obligations.MatrixInstructions : Prop :=
  ∀ s : State,
    let cl := s.thr.view.cluster
    let m := s.matrixEng cl
    let c := s.thr.crewId
    s.engineRetired cl = false →
    (∀ (u : Bool) (d a : BitVec 6), ∃ (t : State) (x : Word), exec (.macq u d a) s = .next t ∧
      (s.onThr fun r => r.wg d x).passed t ∧ t.mem = s.mem ∧ ∀ k, k < 16 →
        let free := m.owners.all fun o => o.1 != k
        x.getLsbD k = ((s.thr.rg a).getLsbD k && (m.owns c k || free)) ∧
        (t.matrixEng cl).owns c k = (m.owns c k || ((s.thr.rg a).getLsbD k && free))) ∧
    (∀ (u : Bool) (a : BitVec 6), ∃ t : State, exec (.mrel u a) s = .next t ∧ s.passed t ∧ t.mem = s.mem ∧
      (t.matrixEng cl).owners = m.owners.filter fun o =>
        !(decide (o.1 < 16) && (s.thr.rg a).getLsbD o.1 && m.owns c o.1)) ∧
    (∀ (u : Bool) (tile : BitVec 4),
      (m.owns c tile.toNat = false → exec (.mzero u tile) s = .next (s.trap .matrixOperand 5 0)) ∧
      (m.owns c tile.toNat = true → m.taken < 16 → ∃ t : State, exec (.mzero u tile) s = .next t ∧ s.passed t ∧ t.mem = s.mem ∧
        t.nextId = s.nextId + 1 ∧ (t.matrixEng cl).ops = m.ops ++ [.zero s.nextId tile.toNat])) ∧
    s.mldQueues ∧
    s.jobsQueue ∧
    (∀ (u : Bool) (d a : BitVec 6),
      (∀ j, m.job? ((s.thr.rg a).toNat % 2 ^ 48) = some j → completes (.mpoll u d a) s fun r =>
        r.wg d (BitVec.ofNat 64 ((match j.state with
          | .queued => 1 | .running => 2 | .waitChunk => 3 | .suspended => 4 | .preempted => 5) + j.t % 2 ^ 32 * 256))) ∧
      (m.job? ((s.thr.rg a).toNat % 2 ^ 48) = none → ∃ t : State, exec (.mpoll u d a) s = .next t ∧
        (s.onThr fun r => r.wg d 0).passed t ∧ t.mem = s.mem)) ∧
    (∀ (u : Bool) (a : BitVec 6),
      (∀ j, m.job? ((s.thr.rg a).toNat % 2 ^ 48) = some j → ∃ t : State, exec (.mwait u a) s = .next t ∧ s.waitsFor t (.job j.id) ∧
        t.mem = s.mem) ∧
      (m.job? ((s.thr.rg a).toNat % 2 ^ 48) = none → ∃ t : State, exec (.mwait u a) s = .next t ∧ s.passed t ∧ t.mem = s.mem)) ∧
    (∀ (u : Bool) (d a : BitVec 6) (tile : BitVec 4) (sg : BitVec 3) (rm : Rm),
      let w := s.thr.rg d
      (s.thr.grant.isSome = true → completes (.mdrain u d a tile sg rm) s id) ∧
      (s.thr.grant = none → drainInvalid w tile.toNat rm = false → m.owns c tile.toNat = true →
        (drainSrc w = 2 → m.owns c (tile.toNat + 1) = true) → s.storeReady = true →
        drainCheck s (s.thr.seg sg) sg.toNat (s.thr.rg a).toNat w = none → m.taken < 16 →
        ∃ t : State, exec (.mdrain u d a tile sg rm) s = .next t ∧ s.waitsFor t (.engine s.nextId) ∧ s.keepsMemory t [] ∧
          ∃ q : DrainJob, (t.matrixEng cl).ops = m.ops ++ [.drain q] ∧ q.id = s.nextId ∧ q.tile = tile.toNat ∧ q.key = s.thr.key ∧
            q.dst = ⟨s.thr.seg sg, (s.thr.rg a).toNat, s.thr.view⟩ ∧ q.ctl = w ∧ q.rm = rm ∧ q.row = 0))

/-- R165, R169 to R172, R178, R180 to R185, R188: what the matrix engine does in tile order. A full queue with room again lets on
a stalled core; clears zero their tile; a release goes when nothing earlier names its tile; MLD moves words into its tile and
arrives; a job begins, takes one k-step that updates every element of its tile and no other word, and completes with its record;
its fault reaches its owner; a chunk enters a free buffer; the watchdog breaks or times out a waiting ring job; a drain ends
with its flags, counter and grant, and adds its elements to the counters of its histogram record; a failed engine leaves its jobs ended
DEAD. The model's choices are: an expiry comes whenever it is listed, with no count of cycles (log 42); a chunk enters a buffer although
its job has ended (log 94); of a failed engine nothing but its jobs stays (log 43, DEDUCED). -/
def Obligations.MatrixEngineMoves : Prop :=
  ∀ (s : State) (cl : Nat),
    let m := s.matrixEng cl
    (∀ v ∈ s.threads, v.status = .stalled → v.wait = .job 0 → v.view.cluster = cl → v.view.core < 4 → m.taken < 16 →
      ∃ (t : State) (w : Thread), exec (.matrixAccept cl) s = .next t ∧ s.sameRegs t ∧ t.mem = s.mem ∧ w ∈ s.threads ∧ w.status = .stalled ∧
        (t.thread? w.key).map (·.status) = some .ready ∧ (t.matrixEng cl).lastCore = w.view.core) ∧
    (∀ (o : MatrixOp) (id tile : Nat), (o = .clear id tile ∨ o = .zero id tile) →
      m.ops.find? (fun p => match p with | .clear i _ | .zero i _ => i == id | _ => false) = some o → m.permitted o = true →
      s.clusterStopped cl = false → ∃ t : State, exec (.tileClear cl id) s = .next t ∧ s.sameRegs t ∧ s.keepsMemory t [(tileLoc cl tile 0, 16384)] ∧
        (∀ w, w < 4096 → memRead t.mem (tileLoc cl tile w) 4 = 0) ∧ (t.matrixEng cl).ops = m.ops.filter (· != o)) ∧
    (∀ (id tile : Nat), m.evicted = false → m.ops.find? (fun p => match p with | .release i _ => i == id | _ => false) = some (.release id tile) →
      (∀ p ∈ m.ops.takeWhile (· != .release id tile), tile ∉ p.tiles) →
      ∃ t : State, exec (.tileRelease cl id) s = .next t ∧ s.sameRegs t ∧ t.mem = s.mem ∧
        (t.matrixEng cl).ops = m.ops.filter (· != .release id tile)) ∧
    (∀ (id tile pos : Nat) (key : ThreadKey) (src bar : Ref) (x z : Loc),
      let o : MatrixOp := .load id tile key src bar pos
      m.ops.find? (fun p => match p with | .load i _ _ _ _ _ => i == id | _ => false) = some o → m.permitted o = true →
      s.clusterStopped cl = false → (pos < 4096 → s.calm = true → src.oneLine (4 * pos) 4 →
        s.locateNow src.view src.seg (src.off + 4 * pos) needR = .ok x → s.poisoned x 4 = false →
        let y := tileLoc cl tile pos
        (pos < 4095 → ∃ t : State, exec (.mldCompletion cl id 1) s = .next t ∧ s.sameRegs t ∧ s.keepsMemory t [(y, 4)] ∧
          memRead t.mem y 4 = memRead s.mem x 4 ∧
          (t.matrixEng cl).ops = m.ops.map fun p => if p = o then .load id tile key src bar (pos + 1) else p) ∧
        (pos = 4095 → State.barrierAt { s with mem := memWrite s.mem y 4 (memRead s.mem x 4) } bar z → z + 16 ≤ y ∨ y + 4 ≤ z →
          ∃ t : State, exec (.mldCompletion cl id 1) s = .next t ∧ s.sameRegs t ∧ s.keepsMemory t [(y, 4), (z, 16)] ∧
            memRead t.mem y 4 = memRead s.mem x 4 ∧ arrivedBarrier (s.barrier z) (t.barrier z) 0 ∧
            (t.matrixEng cl).ops = m.ops.filter (· != o))) ∧
      (4096 ≤ pos → s.barrierAt bar x → ∃ t : State, exec (.mldCompletion cl id 1) s = .next t ∧ s.sameRegs t ∧
        s.keepsMemory t [(x, 16)] ∧ arrivedBarrier (s.barrier x) (t.barrier x) 0 ∧
        (t.matrixEng cl).ops = m.ops.filter (· != o))) ∧
    (∀ (id : Nat) (j : Job), m.job? id = some j →
      s.jobBegins cl id j ∧ s.jobSteps cl id j ∧ s.jobEnds cl id j ∧ s.jobFaults cl id j ∧ s.jobExpires cl id j) ∧
    (∀ (k : Chunk) (rest : List Chunk), m.inbound = k :: rest → m.buffers.length < 2 → m.evicted = false →
      ∃ t : State, exec (.ringChunkArrival cl) s = .next t ∧ t.threads = s.threads ∧ t.mem = s.mem ∧
        (t.matrixEng cl).inbound = rest ∧ (t.matrixEng cl).buffers = m.buffers ++ [k]) ∧
    (∀ (id i : Nat) (q : DrainJob) (s1 s2 : State) (v : Thread),
      m.ops.find? (fun p => match p with | .drain q => q.id == id | _ => false) = some (.drain q) →
      m.permitted (.drain q) = true → s.clusterStopped cl = false → s.drainGo cl q q.row (drainRows q.ctl - q.row) = (s1, i, .ok) →
      (drainHist q.ctl = false → s2 = s1) → (drainHist q.ctl = true → ∃ n, s1.addHist cl q = (s2, .ok, n)) →
      s.thread? q.key = some v → v.live = true →
      (∀ x, drainRows q.ctl = q.row + 1 → s.calm = true → q.dst.oneLine (q.row * drainPitch q.ctl) (drainRowBytes q.ctl) →
        s.locateNow q.dst.view q.dst.seg (q.dst.off + q.row * drainPitch q.ctl) needW = .ok x → s.padHealth x ≠ .retired →
        memRead s1.mem x (drainRowBytes q.ctl) = s.drainRow cl q q.row % 256 ^ drainRowBytes q.ctl) ∧
      ∃ t : State, exec (.mdrainPerform cl id) s = .next t ∧ t.mem = s2.mem ∧ (t.matrixEng cl).ops = m.ops.filter (· != .drain q) ∧
        q.key ∈ t.wakes ∧ ∃ w, t.thread? q.key = some w ∧ w.grant = some 0 ∧ w.flags = v.flags ||| s2.drainFlags cl q ∧
          w.srctr = (if q.rm = .rsr then v.srctr + 4096 else v.srctr) ∧ w.g = v.g ∧ w.v = v.v ∧ w.p = v.p ∧ w.pc = v.pc) ∧
    (∀ (q : DrainJob) (u w : State) (n : Nat) (z : Loc),
      let v := q.dst.view
      let g := q.dst.seg
      let va := g.base.toNat + drainRecord q.ctl
      let bin := fun (x : Nat) =>
        let e := x / 2 ^ 23 % 256
        if e = 0 then 0 else if e = 255 then 31 else if e ≤ 112 then 1 else min (e - 111) 31
      let element := fun (p : Nat) => memRead u.mem (tileLoc cl q.tile (64 * (p / drainCols q.ctl) + p % drainCols q.ctl)) 4
      u.addHist cl q = (w, .ok, n) → u.calm = true → drainSrc q.ctl = 0 → va % 128 = 0 →
      u.locateNow v g (drainRecord q.ctl) needRW = .ok z → ∀ b, b < 32 →
        memRead w.mem (z + 4 * b) 4 = min (memRead u.mem (z + 4 * b) 4 +
          ((List.range (drainRows q.ctl * drainCols q.ctl)).filter fun p => bin (element p) == b).length) 0xFFFFFFFF) ∧
    (m.retired = false → ∃ t : State, exec (.matrixEngineFailure cl) s = .next t ∧ s.sameRegs t ∧ (t.matrixEng cl).retired = true ∧
      t.engineRetired cl = true ∧
      ∀ o ∈ (t.matrixEng cl).ops, ∃ j, o = .job j ∧ j.fin = some .dead)

/-! ## Calls, handlers, freeze, rows (spec/08) -/

/-- R191 to R199: RCALL that passes its checks writes a new CALLID into an empty slot header and sends its payload; RRET ends its
handler with status and values, and is illegal elsewhere; an engine accepts a call with its handler or answers NOENTRY or DEAD,
and starts it in a free context; BUDGET ends a handler; a reply fills its slot, and a timeout fills it with TIMEOUT and a fresh
CALLID; HSET and HCLR park until every engine has, or has emptied, the entry. That a timeout comes whenever it is listed for a live
call, with no count of cycles against %rcto, is the model's choice (log 42), and so is that HSET translates every granule before it
looks at a count (log 121). -/
def Obligations.CallsAndHandlers : Prop :=
  (∀ (u rel : Bool) (d a : BitVec 6) (k sg e : BitVec 3) (s : State) (r : Seg) (slot : Loc),
    let off := (s.thr.rg a).toNat
    let x := s.thr.rg d
    let g := s.thr.seg sg
    let core := coreIndex s.thr.view
    let id := (s.core core).callSeq
    s.storeReady = true → followHandle s s.thr.view s.thr.htab x = .ok r → rcallCheck g sg.toNat off r x = none →
    formCheck s s.thr.view g off 1 = none → s.inFlight core < 64 →
    s.locate s.thr.view r (x.toNat / 2 ^ 16) needW false = .ok slot → s.padHealth slot ≠ .retired → s.unwaited slot = true →
    (rel = true → s.calm = true) →
    ∃ (t : State) (c : Call), exec (.rcall u d a k rel sg e) s = .next t ∧ s.passed t ∧ s.keepsMemory t [(slot, 16)] ∧ t.calls = s.calls ++ [c] ∧
      t.isFull (wordAt slot) = false ∧ memRead t.mem (slot + 8) 8 = id % 2 ^ 64 ∧ c.callId = id ∧ c.entry = 8 + e.toNat ∧
      c.slot = slot ∧ c.live = true ∧ c.target = g ∧ c.off = off ∧
      c.payload = (List.range 8).map (fun i => s.thr.rg (BitVec.ofNat 6 (8 * k.toNat + i))) ∧
      (∀ z, g.space ≠ spFar → badAddress (g.base.toNat + off) = false → s.locate s.thr.view g off needNone false = .ok z →
        c.stage = .sent ∧ c.loc = z)) ∧
  (∀ (u : Bool) (a b : BitVec 6) (s : State),
    let st := s.thr.low 8 b
    let n := min ((s.thr.rg b).toNat / 256 % 8) 4
    (s.thr.isHandler = false → ∀ w, encode (.rret u a b) = some w →
      exec (.rret u a b) s = .next (s.trap .illegal (w.zeroExtend 64) 0)) ∧
    (s.thr.isHandler = true → 1 ≤ st.toNat → st.toNat ≤ 15 → becomes (.rret u a b) s fun t => t.handlerFault .illegal) ∧
    (s.thr.isHandler = true → (st = 0 ∨ 16 ≤ st.toNat) → becomes (.rret u a b) s fun t =>
      { t.advance with ended := some (st, n, (List.range n).map fun i => t.rg (a + BitVec.ofNat 6 i)) })) ∧
  (∀ (s : State) (c : Call), s.call? c.id = some c → c.stage = .sent → c.target.space ≠ spFar →
    let found := (s.island? c.island).bind (fun i => i.handlers.find? (fun h => h.entry == c.entry))
    let dead := s.deadEngines.contains (engineAt c.loc)
    ∃ (t : State) (c' : Call), exec (.callArrival c.id) s = .next t ∧ t.threads = s.threads ∧ t.mem = s.mem ∧
      t.calls = s.calls.filter (fun k => k.id != c.id) ++ [c'] ∧ c'.id = c.id ∧
      (dead = true → c'.stage = .replying ∧ c'.reply = some (4, 0, [])) ∧
      (dead = false → found = none → c'.stage = .replying ∧ c'.reply = some (5, 0, [])) ∧
      (∀ h, dead = false → found = some h → c'.stage = .waiting ∧ c'.region = some (h.region, h.off))) ∧
  (∀ (s : State) (c : Call) (r : Seg) (off : Nat), s.call? c.id = some c → c.stage = .waiting → c.region = some (r, off) →
    (s.calls.find? (fun k => k.stage == .waiting && engineAt k.loc == engineAt c.loc)).map (·.id) = some c.id →
    s.busyContexts (engineAt c.loc) < 4 → s.stackStopped (stackOf (clusterOver c.loc)) = false → c.payload.length = 8 →
    ∃ (t : State) (v : Thread), exec (.handlerStart c.id) s = .next t ∧ t.threads = s.threads ++ [v] ∧ t.mem = s.mem ∧ v.key = .handler c.id ∧
      v.status = .ready ∧ v.pc = r.base + BitVec.ofNat 52 off ∧ v.rg 1 = BitVec.ofNat 64 (c.loc % 2 ^ 26) ∧
      (∀ i, i < 8 → c.payload[i]? = some (v.rg (BitVec.ofNat 6 (2 + i)))) ∧ v.rg 10 = c.caller ∧ v.budget = 1024 ∧
      (t.call? c.id).map (·.stage) = some .running) ∧
  (∀ (s : State) (k : ThreadKey) (v : Thread), s.thread? k = some v → v.isHandler = true → v.live = true → v.budget = 0 →
    ∃ t : State, exec (.handlerBudget k) s = .next t ∧ s.sameRegs t ∧ t.mem = s.mem ∧
      (t.thread? k).map (·.ended) = some (some (2, 0, []))) ∧
  (∀ (s : State) (c : Call) (st : BitVec 8) (vals : List Word), s.call? c.id = some c → c.stage = .replying →
    c.reply = some (st, vals.length, vals) → vals.length ≤ 4 → s.padHealth c.slot = .ok → s.waits = [] → c.callId < 2 ^ 48 →
    ∃ t : State, exec (.replyArrival c.id) s = .next t ∧ s.sameRegs t ∧ t.calls = s.calls.filter (fun k => k.id != c.id) ∧
      (c.live = false ∨ memRead s.mem (c.slot + 8) 8 % 2 ^ 48 ≠ c.callId → t.mem = s.mem) ∧
      (c.live = true → memRead s.mem (c.slot + 8) 8 % 2 ^ 48 = c.callId →
        (∀ y, c.slot ≤ y → y < c.slot + 48 → s.padHealth y = .ok) →
        t.isFull (wordAt c.slot) = true ∧ memRead t.mem c.slot 1 = st.toNat ∧ memRead t.mem (c.slot + 1) 1 = vals.length ∧
        memRead t.mem (c.slot + 8) 8 = c.callId ∧
        ∀ i x, vals[i]? = some x → memRead t.mem (c.slot + 16 + 8 * i) 8 = x.toNat)) ∧
  (∀ (s : State) (c : Call), s.call? c.id = some c → c.live = true → memRead s.mem (c.slot + 8) 8 % 2 ^ 48 = c.callId →
    s.padHealth c.slot = .ok → s.waits = [] → s.stackStopped (stackOf (c.core / 4)) = false →
    ∃ t : State, exec (.rcallTimeout c.id) s = .next t ∧ s.sameRegs t ∧ (∀ k ∈ t.calls, k.id = c.id → k.live = false) ∧
      t.isFull (wordAt c.slot) = true ∧ memRead t.mem c.slot 1 = 3 ∧
      memRead t.mem (c.slot + 8) 8 = (s.core c.core).callSeq % 2 ^ 64) ∧
  (∀ (u : Bool) (e : BitVec 3) (a : BitVec 6) (sg : BitVec 3) (s : State),
    let g := s.thr.seg sg
    let off := (s.thr.rg a).toNat
    (s.thr.grant.isSome = true → completes (.hset u e a sg) s id ∧ completes (.hclr u e sg) s id) ∧
    (∀ l, s.thr.grant = none →
      segCheck g sg.toNat off 1 8 rightH (g.space == spInter || g.space == spBank || g.space == spCode) = none →
      granulesOf s s.thr.view g 0 g.len true = .ok l →
      (∀ p, l.find? (fun p => s.freezeCount p.2 == 0) = some p →
        exec (.hset u e a sg) s = .next (s.trap .segRight (BitVec.ofNat 64 p.1) (sg.zeroExtend 64))) ∧
      ((∀ p ∈ l, s.freezeCount p.2 ≠ 0) → ∃ t : State, exec (.hset u e a sg) s = .next t ∧ s.waitsFor t (.engine s.nextId) ∧
        t.mem = s.mem ∧ t.engJobs = s.engJobs ++
          [⟨s.nextId, s.thr.key, s.thr.view.island, none, .hset (8 + e.toNat) g off (l.map (·.2))⟩])) ∧
    (s.thr.grant = none → g.rights.getLsbD 7 = true → ∃ t : State, exec (.hclr u e sg) s = .next t ∧
      s.waitsFor t (.engine s.nextId) ∧ t.mem = s.mem ∧
      t.engJobs = s.engJobs ++ [⟨s.nextId, s.thr.key, s.thr.view.island, none, .hclr (8 + e.toNat)⟩])) ∧
  (∀ (s : State) (j : EngineJob) (i : Island), s.engJob? j.id = some j → j.conn = none → s.island? j.island = some i →
    (∀ e g off l, j.work = .hset e g off l → ∃ t : State, exec (.handlerInstall j.id) s = .next t ∧ s.sameRegs t ∧ t.mem = s.mem ∧
      j.key ∈ t.wakes ∧ (t.island? j.island).map (fun k => k.handlers.find? (fun h => h.entry == e)) = some (some ⟨e, g, off, l⟩)) ∧
    (∀ e, j.work = .hclr e → ∃ t : State, exec (.handlerClear j.id) s = .next t ∧ s.sameRegs t ∧ t.mem = s.mem ∧ j.key ∈ t.wakes ∧
      (t.island? j.island).map (fun k => k.handlers.find? (fun h => h.entry == e)) = some none))

/-- R200 to R203: FRZ counts a freeze on every granule of its range (on each of its sixteen 4 KiB pieces: the model's choice,
log 84) and parks until the recall has ended; an empty range completes. THAW uncounts them, or none where one may not be thawed,
and owes an arrival with the number that reached 0; FRZQ reads count and state. That bit 8 leaves a refused THAW's range out is the model's
choice (log 96). -/
def Obligations.FreezesComplete : Prop :=
  (∀ (u : Bool) (a b : BitVec 6) (sg : BitVec 3) (s : State) (l : List (Nat × Nat)),
    let off := (s.thr.rg a).toNat
    let n := (s.thr.rg b).toNat
    let g := s.thr.seg sg
    (s.thr.grant.isSome = true → completes (.frz u a b sg) s id) ∧
    (s.thr.grant = none → s.deviceReady = true → freezeCheck s g sg.toNat off n = none →
      (n = 0 → completes (.frz u a b sg) s id) ∧
      (n ≠ 0 → s.calm = true → granulesOf s s.thr.view g off n false = .ok l →
        (∀ p ∈ l, s.freezeCount p.2 ≠ 255 ∧ s.inField p.2 = false) →
        ∃ t : State, exec (.frz u a b sg) s = .next t ∧ s.waitsFor t (.engine s.nextId) ∧ t.mem = s.mem ∧
          (∀ k, t.freezeCount k = s.freezeCount k + (l.map (·.2)).count k) ∧
          t.engJobs = s.engJobs ++ [⟨s.nextId, s.thr.key, s.thr.view.island, none, .freeze (l.map (·.2))⟩]))) ∧
  (∀ (s : State) (j : EngineJob) (l : List Nat), s.engJob? j.id = some j → j.conn = none → j.work = .freeze l →
    ∃ t : State, exec (.freezeDrain j.id) s = .next t ∧ s.sameRegs t ∧ s.keepsMemory t [] ∧ j.key ∈ t.wakes ∧
      ∀ v ∈ t.threads, v.key = j.key → v.grant = some 0) ∧
  (∀ (u : Bool) (d a b : BitVec 6) (sg : BitVec 3) (s : State) (bar : Seg) (l : List (Nat × Nat)),
    let off := (s.thr.rg a).toNat
    let n := (s.thr.rg b).toNat
    let g := s.thr.seg sg
    let x := s.thr.rg d
    s.storeReady = true → freezeCheck s g sg.toNat off n = none → followHandle s s.thr.view s.thr.htab x = .ok bar →
    barrierCheck s bar x = none → granulesOf s s.thr.view g off n false = .ok l →
    ∃ t : State, exec (.thaw u d a b sg) s = .next t ∧ s.passed t ∧ t.mem = s.mem ∧ t.thaws.length = s.thaws.length + 1 ∧
      (s.thawRefused l = none → ∀ k, t.freezeCount k = s.freezeCount k - (l.map (·.2)).count k) ∧
      (s.thawRefused l ≠ none → t.freeze = s.freeze)) ∧
  (∀ (s : State) (j : ThawJob) (b : Ref) (x : Loc), s.thaws.find? (fun k => k.id == j.id) = some j → j.bar = some b →
    s.calm = true → s.barrierAt b x → (∀ o, j.refused = some o → o < 2 ^ 32) → j.count < 2 ^ 32 →
    ∃ t : State, exec (.thawArrival j.id) s = .next t ∧ s.sameRegs t ∧ s.keepsMemory t [(x, 16)] ∧
      t.thaws = s.thaws.filter (fun k => k.id != j.id) ∧
      arrivedBarrier (s.barrier x) (t.barrier x) (match j.refused with | some o => o | none => j.count)) ∧
  (∀ (u : Bool) (d a : BitVec 6) (sg : BitVec 3) (s : State) (l : List (Nat × Nat)),
    let off := (s.thr.rg a).toNat
    let g := s.thr.seg sg
    let k := pieceIn l (g.base.toNat + off)
    s.readReady = true → g.rights.getLsbD 0 = true → (g.space = spInter ∨ g.space = spBank) → off < g.len →
    badAddress (g.base.toNat + off) = false → granulesOf s s.thr.view g off 1 true = .ok l →
    completes (.frzq u d a sg) s fun t => t.wg d (BitVec.ofNat 64 (s.freezeCount k + (if s.thawing k then 2 ^ 8 else 0) +
      (if s.inHandler k then 2 ^ 9 else 0))))

/-- R204, R205: ROWCPY, ROWSET and ROWOP that pass their checks append their operation and complete; a stope engine performs it
row by row, from the sources as they are then, and arrives at the end with the number of rows, also in the step of the last row. -/
def Obligations.RowOperationsComplete : Prop :=
  (∀ (i : Instr) (u : Bool) (d : BitVec 5) (a b : BitVec 6) (sg : BitVec 3) (s : State) (bar : Seg) (op : Nat) (fn : RowFn)
      (srcs : List Nat),
    let r : BitVec 6 := BitVec.ofNat 6 (2 * d.toNat)
    let n := (s.thr.rg r).toNat
    let x := s.thr.rg (r + 1)
    let off := (s.thr.rg a).toNat
    let g := s.thr.seg sg
    let src (q : Nat) := (s.thr.rg (b + BitVec.ofNat 6 q)).toNat
    ((i = .rowcpy u d a b sg ∧ op = 0 ∧ srcs = [src 0]) ∨ (i = .rowset u d a b sg ∧ op = 1 ∧ srcs = []) ∨
      (i = .rowop u d a b sg fn ∧ (op, srcs) = (match fn with
        | .and => (2, [src 0, src 1]) | .or => (3, [src 0, src 1]) | .xor => (4, [src 0, src 1])
        | .not => (5, [src 0]) | .maj3 => (6, [src 0, src 1, src 2])))) →
    s.storeReady = true → rowCheck s g sg.toNat n (off :: srcs) = none → followHandle s s.thr.view s.thr.htab x = .ok bar →
    barrierCheck s bar x = none → s.fieldCheck g off (1024 * n) = none →
    (op = 5 ∨ op = 6 → badRow (g.base.toNat + off) (srcs.map (g.base.toNat + ·)) n = none) →
    ∃ t : State, exec i s = .next t ∧ s.passed t ∧ s.keepsMemory t [] ∧
      t.rowJobs = s.rowJobs ++ [⟨s.nextId, s.thr.key, op, n, 0, ⟨g, off, s.thr.view⟩, srcs,
        if op = 1 then s.thr.rg b else 0, ⟨bar, x.toNat / 2 ^ 16, s.thr.view⟩⟩]) ∧
  (∀ (s : State) (j : RowJob) (x : Nat → Loc) (y z : Loc), s.rowJobs.find? (fun k => k.id == j.id) = some j →
    s.stackStopped j.stack = false →
    (j.pos < j.rows → s.calm = true → s.waits = [] → j.dst.seg.space ≠ spFar →
      (∀ q o, j.srcs[q]? = some o → badAddress (j.dst.seg.base.toNat + (o + 1024 * j.pos)) = false ∧
        s.locateNow j.dst.view j.dst.seg (o + 1024 * j.pos) needR = .ok (x q) ∧ s.poisoned (x q) 1024 = false) →
      badAddress (j.dst.seg.base.toNat + (j.dst.off + 1024 * j.pos)) = false →
      s.locateNow j.dst.view j.dst.seg (j.dst.off + 1024 * j.pos) needW = .ok y → s.isFrozen y = false →
      s.padHealth y ≠ .retired →
      j.srcs.length = (match j.op with | 0 => 1 | 1 => 0 | 2 => 2 | 3 => 2 | 4 => 2 | 5 => 1 | _ => 3) →
      let row (q : Nat) := memRead s.mem (x q) 1024
      let result := match j.op with
        | 0 => row 0
        | 1 => (List.range 128).foldl (fun r i => r + j.pattern.toNat * 2 ^ (64 * i)) 0
        | 2 => row 0 &&& row 1 | 3 => row 0 ||| row 1 | 4 => row 0 ^^^ row 1 | 5 => 2 ^ 8192 - 1 - row 0
        | _ => (row 0 &&& row 1) ||| (row 0 &&& row 2) ||| (row 1 &&& row 2)
      (j.pos + 1 < j.rows → ∃ t : State, exec (.rowOperationPerform j.id 1) s = .next t ∧ s.sameRegs t ∧
        s.keepsMemory t [(y, 1024)] ∧ memRead t.mem y 1024 = result ∧
        t.rowJobs = s.rowJobs.map fun k => if k.id = j.id then { j with pos := j.pos + 1 } else k) ∧
      (j.pos + 1 = j.rows → j.rows < 2 ^ 32 → State.barrierAt { s with mem := memWrite s.mem y 1024 result } j.bar z →
        z + 16 ≤ y ∨ y + 1024 ≤ z → ∃ t : State, exec (.rowOperationPerform j.id 1) s = .next t ∧ s.sameRegs t ∧
          s.keepsMemory t [(y, 1024), (z, 16)] ∧ memRead t.mem y 1024 = result ∧
          arrivedBarrier (s.barrier z) (t.barrier z) j.rows ∧ t.rowJobs = s.rowJobs.filter fun k => k.id != j.id)) ∧
    (j.rows ≤ j.pos → j.rows < 2 ^ 32 → s.barrierAt j.bar y → ∃ t : State, exec (.rowOperationPerform j.id 1) s = .next t ∧
      s.sameRegs t ∧ s.keepsMemory t [(y, 16)] ∧ arrivedBarrier (s.barrier y) (t.barrier y) j.rows ∧
      t.rowJobs = s.rowJobs.filter fun k => k.id != j.id))

/-- R207, R208: what FDEF does with what its checks give. Where they pass it defines the field, stopped, with a freeze on each
granule of its tables, and returns its number; where one fails it returns that reason in bits 31:16, and nothing else has changed. The
checks themselves are the model's `fdefCheck`, which this statement takes as given (among them the model's choices of logs 49, 51, 86 and
122). -/
def Obligations.FieldDefinition : Prop :=
  (∀ (u : Bool) (d a : BitVec 6) (sg : BitVec 3) (s s1 : State) (x : Nat) (i : Island),
    let g := s.thr.seg sg
    let off := (s.thr.rg a).toNat
    s.storeReady = true → segCheck g sg.toNat off 128 128 (rightR ||| rightE) (Acc.permits .load g) = none →
    formCheck s s.thr.view g off 128 = none → g.space ≠ spFar → s.loadBytes g off 128 = (s1, .value x) →
    s1.island? s1.thr.view.island = some i →
    (∀ r, fdefCheck s1 i s1.thr.view s1.thr.htab (BitVec.ofNat 1024 x) = .fails r →
      ∃ t : State, exec (.fdef u d a sg) s = .next t ∧ (s.onThr fun v => v.wg d (BitVec.ofNat 64 (r * 2 ^ 16))).passed t ∧
        s.keepsMemory t [] ∧ t.fields = s.fields ∧ t.freeze = s.freeze) ∧
    (∀ f, fdefCheck s1 i s1.thr.view s1.thr.htab (BitVec.ofNat 1024 x) = .ok f →
      ∃ t : State, exec (.fdef u d a sg) s = .next t ∧ (s.onThr fun v => v.wg d (BitVec.ofNat 64 f.num)).passed t ∧
        s.keepsMemory t [] ∧ t.fields = s.fields ++ [f] ∧ f.st = .stopped ∧
        (∀ k, t.freezeCount k = s.freezeCount k + (f.tables.flatMap (·.grans)).count k)))

/-- R209, R211, R212, R277, R278: FRUN, FSTOP, FSNAP, FCPL and FSTAT act on a field by the state it is in (Table 8.9), and trap
as SEGRIGHT where there is none (FSTAT reads 0). A copy that meets an engine that has failed makes the field faulted. The check
of a coupling table ends in the swap that waits for the next sweep, or in the trap of a field that is gone; the copies that are
finished arrive, and a sweep that waited for them begins: that a sweep begins only when no arrival is due is the model's reading (log 50,
DEDUCED: R211 waits for the copy). -/
def Obligations.FieldControl : Prop :=
  (∀ (u : Bool) (a b : BitVec 6) (s : State),
    let n := (s.thr.rg a).toNat % 65536
    s.field? s.thr.view.island n = none →
      exec (.frun u a) s = .next (s.trap .segRight (BitVec.ofNat 64 n) 0) ∧
      exec (.fstop u a) s = .next (s.trap .segRight (BitVec.ofNat 64 n) 0) ∧
      exec (.fsnap u a b) s = .next (s.trap .segRight (BitVec.ofNat 64 n) 0) ∧
      (s.thr.grant = none → exec (.fcpl u a b) s = .next (s.trap .segRight (BitVec.ofNat 64 n) 0)) ∧
      ∀ d, completes (.fstat u d a) s fun t => t.wg d 0) ∧
  (∀ (u : Bool) (d a b : BitVec 6) (s : State) (f : Field) (g : Seg),
    let x := s.thr.rg b
    let r : Ref := ⟨g, x.toNat / 2 ^ 16, s.thr.view⟩
    s.field? s.thr.view.island ((s.thr.rg a).toNat % 65536) = some f →
    completes (.fstat u d a) s (fun t => t.wg d (BitVec.ofNat 64 (f.next % 2 ^ 32 + f.st.code * 2 ^ 32 + f.reason * 2 ^ 40 +
      (if f.snaps = [] ∧ f.due = [] then 0 else 2 ^ 48)))) ∧
    (s.deviceReady = true → ∃ t : State, exec (.frun u a) s = .next t ∧ s.passed t ∧ s.keepsMemory t [] ∧
      match f.st with
        | .stopped => s.fieldBecomes t f (Field.swept { f with st := .running })
        | .stopping => s.fieldBecomes t f { f with st := .running }
        | .running | .limit | .faulted => t.fields = s.fields) ∧
    (f.st = .running → ∃ t : State, exec (.fstop u a) s = .next t ∧ s.passed t ∧ t.mem = s.mem ∧
      s.fieldBecomes t f { f with st := .stopping }) ∧
    (f.st = .stopping → completes (.fstop u a) s id) ∧
    (f.st = .stopped ∨ f.st = .limit ∨ f.st = .faulted → (∀ v ∈ s.threads, ∀ li, v.role ≠ .field f.island f.num li) →
      ∃ t : State, exec (.fstop u a) s = .next t ∧ s.passed t ∧ (f.due = [] → t.mem = s.mem) ∧
        t.fields = s.fields.filter (fun k => !(k.island == f.island && k.num == f.num)) ∧
        ∀ k, t.freezeCount k = s.freezeCount k - (f.tables.flatMap (·.grans)).count k) ∧
    (followHandle s s.thr.view s.thr.htab x = .ok g → barrierCheck s g x = none →
      (f.st = .running ∨ f.st = .stopping → ∃ t : State, exec (.fsnap u a b) s = .next t ∧ s.passed t ∧ t.mem = s.mem ∧
        s.fieldBecomes t f { f with snaps := f.snaps ++ [r] }) ∧
      (f.st = .stopped ∨ f.st = .limit → s.fieldStopped f = false → s.copyFails f = false → f.placed → s.calm = true → s.waits = [] →
        ∃ t : State, exec (.fsnap u a b) s = .next t ∧ s.passed t ∧ s.twinned t f ∧
          s.fieldBecomes t f { f with due := f.due ++ [((f.next + 2 ^ 32 - 1) % 2 ^ 32, false, r)] }) ∧
      (f.st = .stopped ∨ f.st = .limit → s.fieldStopped f = false → s.copyFails f = true → f.placed → s.calm = true → s.waits = [] →
        (∀ v ∈ s.threads, ∀ li, v.role ≠ .field f.island f.num li) →
        ∃ t : State, exec (.fsnap u a b) s = .next t ∧ s.passed t ∧ s.twinned t f ∧
          s.fieldBecomes t f { f with st := .faulted, reason := 2, owed := [], snaps := []
                                      due := f.due ++ [(f.next, true, r)] ++ f.snaps.map (fun q => (f.next, true, q)) }) ∧
      (f.st = .faulted → s.fieldStopped f = false → f.placed → s.calm = true → s.waits = [] →
        ∃ t : State, exec (.fsnap u a b) s = .next t ∧ s.passed t ∧ s.twinned t f ∧
          s.fieldBecomes t f { f with due := f.due ++ [(f.next, true, r)] })) ∧
    (s.thr.grant.isSome = true → completes (.fcpl u a b) s id) ∧
    (s.thr.grant = none → followHandle s s.thr.view s.thr.htab x = .ok g →
      rightCheck g (x.toNat % 2 ^ 16) (x.toNat / 2 ^ 16) (rightR ||| rightE) true = none →
      boundCheck g (x.toNat % 2 ^ 16) (x.toNat / 2 ^ 16) 16 = none → formRange s s.thr.view g (x.toNat / 2 ^ 16) 16 = none →
      ∃ t : State, exec (.fcpl u a b) s = .next t ∧ s.waitsFor t (.engine s.nextId) ∧ t.mem = s.mem ∧ t.fields = s.fields ∧
        t.engJobs = s.engJobs ++ [⟨s.nextId, s.thr.key, s.thr.view.island, none, .fcpl f.num r (x.toNat % 2 ^ 16)⟩])) ∧
  (∀ (s : State) (j : EngineJob) (num idx : Nat) (r : Ref), s.engJob? j.id = some j → j.conn = none → j.work = .fcpl num r idx →
    (s.field? j.island num = none → ∃ t : State, exec (.couplingCheck j.id) s = .next t ∧ s.sameRegs t ∧ t.mem = s.mem ∧
      j.key ∈ t.wakes ∧ ∀ v ∈ t.threads, v.key = j.key → v.grantTrap = some ⟨.segRight, BitVec.ofNat 64 num, 0, v.duePc, v.hstate⟩) ∧
    (∀ f tb, s.field? j.island num = some f → s.fieldStopped f = false → r.seg.isDram = true →
      sizedTable s r 16 (cplSize f.desc (globalSites f.desc f.link)) = .ok tb →
      ∃ t : State, exec (.couplingCheck j.id) s = .next t ∧ s.sameRegs t ∧ t.mem = s.mem ∧ j.key ∈ t.wakes ∧
        (∀ v ∈ t.threads, v.key = j.key → v.grant = some 0) ∧
        s.fieldBecomes t f { f with pendingCpl := some tb, replaced := f.replaced ++ f.pendingCpl.toList } ∧
        ∀ k, t.freezeCount k = s.freezeCount k + tb.grans.count k)) ∧
  (∀ (s : State) (f : Field), s.field? f.island f.num = some f → s.fieldStopped f = false →
    (f.due = [] → ∃ t : State, exec (.snapshotArrival f.island f.num) s = .next t ∧ s.sameRegs t ∧ t.mem = s.mem ∧
      s.fieldBecomes t f f.swept) ∧
    (∀ v fault r x, f.due = [(v, fault, r)] → v < 2 ^ 32 → f.pendingCpl = none → s.calm = true → s.barrierAt r x →
      ∃ t : State, exec (.snapshotArrival f.island f.num) s = .next t ∧ s.sameRegs t ∧ s.keepsMemory t [(x, 16)] ∧
        arrivedBarrier (s.barrier x) (t.barrier x) v ∧ (fault = true → (t.barrier x).flags.getLsbD 2 = true) ∧
        s.fieldBecomes t f (Field.swept { f with due := [] })))

/-- R263, R269, R274 to R276, R281: a phase updates the sites of its colour, by the table routine or by the handler of its
entry, and arrives; a site takes its value, and its neighbours keep theirs; the phase barrier begins the next phase; the end of
a sweep counts NEXT, takes the snapshots and applies Table 8.9. The order in which the engines of a phase take their sites is the
model's choice of an interleaving (log 7); that a lockstep barrier waits for the neighbours' layers is its inference (log 101), and so is
that the end of a sweep copies the snapshots in that step and the next sweep waits for their arrivals (log 50). -/
def Obligations.FieldSweeps : Prop :=
  (∀ (s : State) (f : Field) (j e : Nat), s.field? f.island f.num = some f → f.sweeping = true → f.groups[j]? = some e →
    f.arrived.contains j = false → s.stackStopped (stackOf (clusterOver (e * 2 ^ 26))) = false → s.engineBad f e = false →
    (∀ l s1, fieldRoutine f.desc = 0 → s.phaseSites f j = some l → l.any (s.siteWaits f) = false →
      s.updateSites f l = (s1, true) →
      exec (.fieldPhase f.island f.num j) s = .next (s1.setField { f with
        arrived := f.arrived ++ [j], owed := f.owed.filter (fun p => p.1 != j) })) ∧
    (∀ l, fieldRoutine f.desc ≠ 0 → f.owed.find? (fun p => p.1 == j) = none → s.phaseSites f j = some l →
      exec (.fieldPhase f.island f.num j) s = .next (s.setField { f with owed := (j, l) :: f.owed })) ∧
    (fieldRoutine f.desc ≠ 0 → f.owed.find? (fun p => p.1 == j) = some (j, []) →
      exec (.fieldPhase f.island f.num j) s = .next (s.setField { f with
        arrived := f.arrived ++ [j], owed := f.owed.filter (fun p => p.1 != j) })) ∧
    (∀ li ls i h args, fieldRoutine f.desc ≠ 0 → f.owed.find? (fun p => p.1 == j) = some (j, li :: ls) →
      s.updating f li = false → s.siteWaits f li = false → s.busyContexts e < 4 → s.island? f.island = some i →
      i.handlers.find? (fun h => h.entry == fieldRoutine f.desc) = some h → s.updateArgs f li = some args →
      ∃ t : State, exec (.fieldPhase f.island f.num j) s = .next t ∧ t.thr = s.thr ∧ t.mem = s.mem ∧ t.fields = s.fields ∧
        ∃ v, t.others = s.others ++ [v] ∧ v.role = .field f.island f.num li ∧ v.status = .ready ∧
          v.pc = h.region.base + BitVec.ofNat 52 h.off ∧ ∀ n, n < 64 → v.rg (BitVec.ofNat 6 n) =
            if n = 0 then 0 else args.getD (n - 1) 0)) ∧
  (∀ (s : State) (f : Field) (li v : Nat), (f.sitePlace li).1 < dramTop → s.siteValue f li ≠ none →
    (s.writeSite f li v).siteValue f li = some (v % 2 ^ fieldWidth f.desc) ∧
      s.keepsMemory (s.writeSite f li v) [((f.sitePlace li).1, 1)] ∧
      ∀ k, f.apart li k → (s.writeSite f li v).siteValue f k = s.siteValue f k) ∧
  (∀ (s : State) (f : Field), s.field? f.island f.num = some f → f.sweeping = true →
    (∀ j, j < f.groups.length → j ∈ f.arrived) →
    (f.phase + 1 < fieldColours f.desc → f.partsArrived f.next (f.phase + 1) = true → ∃ t : State, exec (.fieldPhaseBarrier f.island f.num) s = .next t ∧ s.sameRegs t ∧
      t.mem = s.mem ∧ s.fieldBecomes t f { f with phase := f.phase + 1, arrived := [], owed := [] }) ∧
    (fieldColours f.desc ≤ f.phase + 1 → f.partsArrived ((f.next + 1) % 2 ^ 32) 0 = true → f.snaps = [] ∨ (f.placed ∧ s.fieldStopped f = false ∧ s.calm = true ∧ s.waits = [] ∧
        ∀ e ∈ f.groups, s.engineBad f e = false) →
      ∃ (t : State) (g : Field), exec (.fieldSweepEnd f.island f.num) s = .next t ∧ s.sameRegs t ∧
        s.fieldBecomes t f g.swept ∧ g.next = (f.next + 1) % 2 ^ 32 ∧ g.begun = false ∧ g.phase = 0 ∧ g.arrived = [] ∧
        g.owed = [] ∧ g.snaps = [] ∧ g.due = f.due ++ f.snaps.map (fun r => (f.next, false, r)) ∧
        g.st = (if fieldLimit f.desc ≠ 0 ∧ (g.next + 2 ^ 32 - fieldStart f.desc) % 2 ^ 32 = fieldLimit f.desc then .limit
          else if f.st = .stopping then .stopped else .running) ∧
        (f.snaps = [] → t.mem = s.mem) ∧ (f.snaps ≠ [] → s.twinned t f)))

/-- R32, R35, R89, R256, R297: a result that arrives fills its pending entry, a fault or parking condition that arrives becomes
known, a wake makes a parked thread Ready, a debug host lets a thread go on, and a store-fault record reaches its core's queue
of 16 or waits behind it. A load or LDS that the port holds is performed when it may go. R131, R294: a message at a stope engine and a held store are performed. R218, R220: a line is written
back, and a buffer entry drains. R286 to R292: a walk fills the translations of its cluster and stack, a served page wakes what
waits for it, and a frame changes its entry. R229, R230: a repartition takes the steps of Table 9.5 one by one. R197, R209, R300: a
core or a stope engine fails. The model's choices are: when each of these comes (log 6); that walks alone fill the caches, here with
what they hold (log 22); the repartition's jump to its third step, with every line of the slices dropped (log 33); that a write to a
pinned frame has no effect (log 54); the page-table words of PAGE_SERVED and the zeroing of a scrubbed frame (log 60); what a failed core
and a failed stope engine take with them (logs 61 and 62, DEDUCED). -/
def Obligations.EventsAroundThreads : Prop :=
  (∀ (s : State) (k : ThreadKey) (i : Nat) (far : VWord) (v : Thread) (e : Pend), s.thread? k = some v →
    v.pending.find? (fun f => f.seq == i) = some e →
    (e.wait = .value → ∃ t : State, exec (.resultArrival k i far) s = .next t ∧ s.sameRegs t ∧ t.mem = s.mem ∧
      t.thread? k = some { v with pending := v.pending.map fun f =>
        if f.seq = i ∧ f.wait = .value then { f with arrived := true } else f }) ∧
    (∀ m, e.wait = .atomic → s.msgs.filter (fun m => m.key == k && m.entry == some i) = [m] → isDram m.loc = true →
      (s.core (coreIndex m.view)).port = [] → s.msgReady m = true → (∀ n ∈ s.msgs.takeWhile (· != m), s.msgBefore n m = false) →
      s.isFrozen m.loc = false → s.poisoned m.loc m.bytes = false →
      ∃ t : State, exec (.resultArrival k i far) s = .next t ∧ s.performed t m ∧
        ∀ w, t.thread? k = some w → ∀ f ∈ w.pending, f.seq = i → f.arrived = true) ∧
    (∀ m, e.wait = .far → s.farOf k i = some m → s.farReady k i = true → m.parts = [] → ∃ t : State, exec (.resultArrival k i far) s = .next t ∧
      s.sameRegs t ∧ t.mem = s.mem ∧ t.farOf k i = none ∧
      t.thread? k = some { v with pending := v.pending.map fun f =>
        if f.wait = .far ∧ f.seq = i then { f with wait := .value, value := far, arrived := true }
        else if f.wait = .far ∧ f.seq = i + 1 ∧ s.farOf k (i + 1) = none then
          { f with wait := .value, value := far >>> 64, arrived := true }
        else f }) ∧
    (∀ m, e.wait = .far → s.farOf k i = some m → s.farReady k i = true → m.parts ≠ [] → ∃ t : State, exec (.resultArrival k i far) s = .next t ∧
      s.sameRegs t ∧ t.mem = s.mem ∧ t.farOf k i = none ∧
      t.thread? k = some { v with pending := v.pending.map fun f =>
        if f.wait = .far ∧ f.seq = i then { f with
          wait := .value, arrived := true
          value := loadConv m.sx (s.farFill m.island m.fmod (partBytes m.parts) far.toNat).2 }
        else f }) ∧
    (∀ (h : HeldLoad) (p : LoadPart), e.wait = .port → s.loads.find? (fun h => h.key == k && h.entry == i) = some h →
      (s.core (coreIndex h.view)).port = [] → s.msgs = [] → s.loadReady h = true → h.parts = [p] → s.wayGone h.key p.loc p.va = false →
      isDram p.loc = false → s.poisoned p.loc p.size = false → v.status ≠ .spilled → p.at_ = 0 →
      let read := memRead s.mem p.loc p.size
      (h.lds = none → ∃ t : State, exec (.resultArrival k i far) s = .next t ∧ s.sameRegs t ∧ t.mem = s.mem ∧
        t.loads = s.loads.erase h ∧ t.thread? k = some { v with pending := v.pending.map fun f =>
          if f.seq = i then { f with wait := .value, value := loadConv h.sx read } else f }) ∧
      (∀ c, h.lds = some c → s.isFull (wordAt p.loc) = true → s.unwaited p.loc = true →
        ∃ t : State, exec (.resultArrival k i far) s = .next t ∧ s.sameRegs t ∧ t.mem = s.mem ∧ t.loads = s.loads.erase h ∧
          t.isFull (wordAt p.loc) = !c ∧ t.thread? k = some { v with pending := v.pending.map fun f =>
            if f.seq = i then { f with wait := .value, value := loadConv h.sx read } else f }) ∧
      (∀ c, h.lds = some c → s.isFull (wordAt p.loc) = false → s.unwaited p.loc = true →
        ∃ (t : State) (w : WordWait), exec (.resultArrival k i far) s = .next t ∧ s.sameRegs t ∧ t.mem = s.mem ∧
          t.loads = s.loads.erase h ∧ t.waits = s.waits ++ [w] ∧ w.word = wordAt p.loc ∧ w.key = k ∧
          t.thread? k = some { v with pending := v.pending.map fun f => if f.seq = i then { f with wait := .listed } else f })) ∧
    (e.failed = true → ∃ t : State, exec (.longLatencyFault k i) s = .next t ∧ s.sameRegs t ∧ t.mem = s.mem ∧
      t.thread? k = some { v with pending := v.pending.map fun f => if f.access = e.access then f.know else f }) ∧
    (∀ m, e.wait = .far → s.farOf k i = some m → s.farReady k i = true → ∃ t : State, exec (.longLatencyFault k i) s = .next t ∧ s.sameRegs t ∧
      t.mem = s.mem ∧ t.farOf k i = none ∧
      t.thread? k = some { v with pending := v.pending.map fun f =>
        if f.access = e.access then { f with wait := .fault .owner m.va true } else f })) ∧
  (∀ (s : State) (k : ThreadKey) (v : Thread), s.thread? k = some v →
    (k ∈ s.wakes → ∃ t : State, exec (.wake k) s = .next t ∧ s.sameRegs t ∧ t.wakes = s.wakes.erase k ∧
      (v.status ≠ .spilled → t.mem = s.mem) ∧
      t.thread? k = some (match v.status with
        | .parked => { v with status := .ready, wait := .none }
        | .spilled => { v with woken := v.woken || v.wait != .none || v.replay.isSome }
        | .ready | .stalled | .retired => v)) ∧
    (v.wait = .debug → v.status = .parked → ∃ t : State, exec (.debugResume k) s = .next t ∧ s.sameRegs t ∧ t.mem = s.mem ∧
      t.thread? k = some { v with status := .ready, wait := .none })) ∧
  (∀ (s : State) (i : Nat) (f : StoreFault),
    let waits := s.faults.any fun g => g.core == f.core && g.stage == .behind
    (s.faults[i]? = some f → f.stage = .flight → exec (.storefaultRecord i) s = .next { s with
      faults := s.faults.erase f ++ [{ f with
        stage := if s.faults.countP (fun g => g.core == f.core && g.stage == .queued) < 16 ∧ waits = false then .queued
          else .behind }] }) ∧
    (s.faults.countP (fun g => g.core == f.core && g.stage == .queued) < 16 →
      s.faults.find? (fun g => g.core == f.core && g.stage == .behind) = some f →
      exec (.storefaultQueueEntry f.core) s = .next { s with faults := s.faults.replace f { f with stage := .queued } })) ∧
  (∀ (s : State) (i : Nat) (h : HeldStore) (off n val : Nat), s.held[i]? = some h → h.elems = [(off, n, val)] →
    (s.core (coreIndex h.view)).port = [] → s.heldReady h = true → s.isDead h.key = false → h.sync = false →
    (∀ m ∈ s.msgs, m.op.answers = true → coreIndex m.view ≠ coreIndex h.view) →
    (∀ a b c q, h.key = .crew a b c → s.shift? a = some q → q.gone = false) →
    (∀ c, (h.op = .plain ∧ s.heldFinding h (h.seg.pieces off n) = .fault c) ∨
        ((∃ op, h.op = .memory op) ∧ s.heldFinding h (h.seg.pieces off n) = .fault c ∧ s.heldFinding h [(off, n)] = .fault c) →
      ∃ t : State, exec (.heldStorePerform i) s = .next t ∧ s.sameRegs t ∧ t.mem = s.mem ∧ t.held = s.held.erase h ∧
        t.faults = s.faults ++ [⟨coreIndex h.view, h.key, h.pc, h.seg.base.toNat + off, Nat.log2 n, h.op != .plain, c, .flight⟩]) ∧
    (∀ x, 0 < n → (h.seg.base.toNat + off) % 128 + n ≤ 128 → s.heldPlace h off = .ok x → s.writable x = true →
      s.padHealth x ≠ .retired →
      (h.op = .plain → ∃ t : State, exec (.heldStorePerform i) s = .next t ∧ t.held = s.held.erase h ∧ s.sameRegs t ∧
        s.keepsMemory t [(x, n)] ∧
        (isDram x = false → memRead t.mem x n = val % 256 ^ n) ∧
        (isDram x = true → s.settledRange x n →
          let w := (h.seg.base.toNat + off) / 128
          (∀ e ∈ (s.core (coreIndex h.view)).wcb, e.window = w → e.line = lineAt x) →
          ∀ j, j < n → t.sees (coreIndex h.view) w (x + j) = BitVec.ofNat 8 (val / 256 ^ j))) ∧
      (∀ op, h.op = .memory op → op.answers = false → s.isFrozen x = false → s.wayGone h.key x (h.seg.base.toNat + off) = false →
        let m : MemMsg := ⟨h.key, h.view, x, n, op, BitVec.ofNat 128 val, 0, none, h.seg.base.toNat + off, h.pc, h.upTo, h.ord⟩
        State.msgReady { s with held := s.held.erase h, msgs := s.msgs ++ [m] } m = true → ∃ t : State, exec (.heldStorePerform i) s = .next t ∧ t.held = s.held.erase h ∧
          State.performed { s with held := s.held.erase h, msgs := s.msgs ++ [m] } t m))) ∧
  (∀ (s : State) (i : Nat) (m : MemMsg), s.msgs[i]? = some m → isDram m.loc = true →
    (s.core (coreIndex m.view)).port = [] → s.msgReady m = true → (∀ n ∈ s.msgs.take i, s.msgBefore n m = false) →
    (∀ a b c q, m.key = .crew a b c → s.shift? a = some q → q.gone = false) →
    (s.isFrozen m.loc = false → (m.op.answers = true → s.poisoned m.loc m.bytes = false) →
      ∃ t : State, exec (.stopeAtomic i) s = .next t ∧ s.performed t m) ∧
    (s.isFrozen m.loc = true → m.entry = none → s.isDead m.key = false →
      ∃ t : State, exec (.stopeAtomic i) s = .next t ∧ s.sameRegs t ∧ s.keepsMemory t [] ∧
        t.faults = s.faults ++ [⟨coreIndex m.view, m.key, m.pc, m.va, Nat.log2 m.bytes, true, .frozen, .flight⟩])) ∧
  (∀ (s : State) (c i : Nat) (e : WcbEntry), (s.core c).wcb[i]? = some e → (s.recorded e.line).length < 4 → e.mask ≠ 0 →
    ∃ (t : State) (g : Nat), g < 16 ∧ e.mask &&& granuleMask g ≠ 0 ∧ exec (.wcbDrain c i) s = .next t ∧ s.sameRegs t ∧ s.keepsMemory t [] ∧
      (∀ j, 8 * g ≤ j → j < 8 * g + 8 → e.mask.getLsbD j = true →
        memGet t.mem (128 * e.line + j) = e.data.extractLsb' (8 * j) 8) ∧
      ∀ f ∈ (t.core c).wcb, f.window = e.window → f.line = e.line → f.mask &&& granuleMask g = 0) ∧
  (∀ (s : State) (c line : Nat) (l : L1Line) (evict : Bool), (s.core c).l1? line = some l → (s.recorded line).length < 4 →
    ∃ t : State, exec (.l1Writeback c line evict) s = .next t ∧ s.sameRegs t ∧ s.keepsMemory t [] ∧
      (∀ j, j < 128 → l.dirty.getLsbD j = true → memGet t.mem (128 * line + j) = l.data.extractLsb' (8 * j) 8) ∧
      (evict = true → (t.core c).l1? line = none) ∧
      (evict = false → l.line = line → ∃ k, (t.core c).l1? line = some k ∧ k.dirty = 0 ∧ k.data = l.data ∧ k.valid = l.valid)) ∧
  (∀ (s : State) (island cl va : Nat) (i : Island), s.island? island = some i → badAddress va = false →
    cl ∈ Shape.tiles i.shape →
    (∀ e lg, walk s i va = .leaf e lg → permitted i va e lg = true →
      ∃ t : State, exec (.translationWalk island cl va) s = .next t ∧ t = { s with tlb := t.tlb } ∧
        (∀ c ∈ [some cl, none], ⟨c, stackOf cl, island, va / 2 ^ lg, lg, BitVec.ofNat 64 e⟩ ∈ t.tlb) ∧
        ((s.tlb.filter (fun k => k.cluster == some cl && k.stack == stackOf cl)).Pairwise (fun a b => a.shares b = false) →
          s.tlb.countP (fun k => k.cluster == some cl && k.stack == stackOf cl) ≤ 512 →
          t.tlb.countP (fun k => k.cluster == some cl && k.stack == stackOf cl) ≤ 512)) ∧
    (∀ l e, walk s i va = .service l e → ∃ t : State, exec (.translationWalk island cl va) s = .next t ∧ t.tlb = s.tlb ∧
      t = { s with svcFaults := t.svcFaults } ∧ ∃ f ∈ t.svcFaults, f.va / 65536 = va / 65536 ∧ f.island = i.num)) ∧
  (∀ (s : State) (island va x : Nat) (w : Word), isDram x = true → x % 8 = 0 → s.arrivals = [] → s.calm = true →
    ∃ t : State, exec (.pageServed island va [(x, w)]) s = .next t ∧ s.sameRegs t ∧ s.keepsMemory t [(x, 8)] ∧
      memRead t.mem x 8 = w.toNat ∧
      t.pageReqs = s.pageReqs.filter (fun r => !(r.2.1 == island && r.2.2 == va / 65536)) ∧
      (∀ k, (k, island, va / 65536) ∈ s.pageReqs → k ∈ t.wakes) ∧
      ∀ f ∈ t.svcFaults, f ∈ s.svcFaults ∧ ¬(f.island = island ∧ f.va / 65536 = va / 65536)) ∧
  (∀ (s : State) (fr owner st : Nat) (pin : Bool),
    ((s.frame fr).pin = true ∨ 2 ^ 23 ≤ fr → exec (.frameOwnershipWrite fr owner st pin) s = .next s) ∧
    ((s.frame fr).pin = false → fr < 2 ^ 23 → s.arrivals = [] → s.waits = [] →
      ∃ t : State, exec (.frameOwnershipWrite fr owner st pin) s = .next t ∧ s.sameRegs t ∧
        t.frame fr = ⟨fr, owner % 65536, st % 4, pin⟩ ∧ (∀ k, k ≠ fr → t.frame k = s.frame k) ∧
        (∀ y, memGet t.mem y = if (s.frame fr).state = 1 ∧ st % 4 = 0 ∧ y / 65536 = fr then 0 else memGet s.mem y))) ∧
  (∀ (s : State) (j : EngineJob) (i : Island) (n step : Nat), s.engJob? j.id = some j → j.conn = none →
    j.work = .repartition n step → s.island? j.island = some i → n ≤ 16 → i.wpart ≤ 16 →
    (∀ k ∈ s.engJobs, k.island = j.island → (∃ q m, k.work = .repartition q m) → k = j) →
    let lo := min n i.wpart
    let hi := max n i.wpart
    let next := fun (t : State) (m : Nat) =>
      t.engJobs = s.engJobs.map fun k => if k.id = j.id then { k with work := .repartition n m } else k
    ∃ t : State, exec (.repartition j.id) s = .next t ∧ s.sameRegs t ∧
      (i.wpart ≤ n → step ≤ 2 → t.mem = s.mem ∧ next t 3 ∧
        ∀ l ∈ t.homeDirty, clusterOver (128 * l) ∉ Shape.tiles i.shape) ∧
      (n < i.wpart → step = 1 → t.mem = s.mem ∧ next t (if s.spadBusy i then 1 else 2)) ∧
      (i.wpart ≤ n ∧ step = 4 ∨ n < i.wpart ∧ step = 0 → t.mem = s.mem ∧ next t (step + 1) ∧
        (t.island? j.island).map (·.zWays) = some n) ∧
      (i.wpart ≤ n ∧ step = 3 ∨ n < i.wpart ∧ step = 2 → next t (step + 1) ∧
        (∀ cl ∈ Shape.tiles i.shape, ∀ w, wayIn lo hi w → ∀ b, b < 2 ^ 18 → memGet t.mem (wayLoc cl w b) = 0) ∧
        (s.waits = [] → ∀ y, (∀ cl ∈ Shape.tiles i.shape, ∀ w, wayIn lo hi w → ∀ b, b < 2 ^ 18 → y ≠ wayLoc cl w b) →
          memGet t.mem y = memGet s.mem y)) ∧
      (i.wpart ≤ n ∧ 5 ≤ step ∨ n < i.wpart ∧ 3 ≤ step → t.mem = s.mem ∧ j.key ∈ t.wakes ∧
        (t.island? j.island).map (·.wpart) = some n ∧ t.engJobs = s.engJobs.filter (fun k => k.id != j.id))) ∧
  (∀ (s : State) (c : Nat), (s.core c).health = .ok →
    (∃ t : State, exec (.coreFailure c) s = .next t ∧ (t.core c).health = .failed ∧ (t.core c).l1 = [] ∧
      (∀ q ∈ s.crews, q.retired = false → (∃ v ∈ s.threads, coreIndex v.view = c ∧ v.live = true ∧
          v.inCrew q.serial q.n = true) → ∀ v ∈ s.threads, v.inCrew q.serial q.n = true → t.ended v.key)) ∧
    ((∀ v ∈ s.threads, coreIndex v.view = c → v.live = false) → ∃ t : State, exec (.coreFailure c) s = .next t ∧ s.sameRegs t ∧
      s.keepsMemory t [] ∧ t.core c = { s.core c with l1 := [], wcb := [], port := [], health := .failed })) ∧
  (∀ (s : State) (c : Nat) (repaired : Bool), c < coreCount → (s.core c).health = .failed → s.waits = [] → s.arrivals = [] →
    ∃ t : State, exec (.coreRepairedOrRetired c repaired) s = .next t ∧ s.sameRegs t ∧
      (t.core c).health = (if repaired then .ok else .retired) ∧
      (∀ b, b < 131072 → memGet t.mem (spadLoc c b) = 0 ∧ t.isFull (wordAt (spadLoc c b)) = true) ∧
      (∀ q b, q < 8 → b < 8192 → memGet t.mem (laneLoc c q b) = 0) ∧
      ∀ y, (∀ b, b < 131072 → y ≠ spadLoc c b) → (∀ q b, q < 8 → b < 8192 → y ≠ laneLoc c q b) →
        memGet t.mem y = memGet s.mem y) ∧
  (∀ (s : State) (e : Nat), e ∉ s.deadEngines →
    ∃ t : State, exec (.stopeEngineFailure e) s = .next t ∧ t.mem = s.mem ∧ t.deadEngines = s.deadEngines ++ [e] ∧
      s.sameThreads t (fun k => (∀ id, k ≠ .handler id) ∧ ∀ v ∈ s.threads, v.key = k → ∀ a b c, v.role ≠ .field a b c) ∧
      (∀ c ∈ s.calls, c.stage = .waiting ∨ c.stage = .running → engineAt c.loc = e →
        ∃ d ∈ t.calls, d.id = c.id ∧ d.stage = .replying ∧ d.reply = some (4, 0, [])) ∧
      ∀ f ∈ s.fields, e ∈ f.groups → f.st = .running ∨ f.st = .stopping →
        ∃ g ∈ t.fields, g.island = f.island ∧ g.num = f.num ∧ g.st = .faulted ∧ g.reason = 2)

/-- R312, R313: a command is taken when it bears the number that its connection expects; an older one is answered again, or as
STALE; one for an island that the connection may not address, or that is none, as DENIED or NOISLAND. R246, R249, R254, R281,
R289, R302 to R306, R309, R314 and Table 14.5: what the commands for islands, memory, launches, freezes, straits, the far-module
table, translations and field links do. The model's choices are: which of its faults a command answers as REFUSED and which as
NORESOURCE (log 67); DENIED before NOISLAND, and the window of 256 numbers beyond which a command is STALE (log 66); what FIELDLINK takes
(log 53); a GET read word by word (log 65); when the resident service accepts commands, and the numbers of its ports (log 69); STRAIT_OPEN
held until its range is mapped (log 107). -/
def Obligations.HostCommands : Prop :=
  (∀ (s : State) (h : CmdHeader) (op : Nat) (islands : List Nat) (k : State → CmdRes) (c : Conn), s.serviceUp = true →
    s.conns.find? (fun c => c.id == h.conn) = some c →
    (h.seq + 256 < c.expect → ∃ t : State, s.command h op islands k = t ∧ t = { s with outbox := t.outbox } ∧
      t.outbox = s.outbox ++ [⟨h.conn, op, 4, h.seq, h.island, h.tag, []⟩]) ∧
    (c.expect ≤ h.seq + 256 → h.seq < c.expect → ∃ t : State, s.command h op islands k = t ∧ t = { s with outbox := t.outbox } ∧
      ∀ r ∈ t.outbox, r ∈ s.outbox ∨ (r ∈ c.replies ∧ r.seq = h.seq)) ∧
    (c.expect < h.seq ∨ (h.seq = c.expect ∧ c.busy = true) → s.command h op islands k = s) ∧
    (h.seq = c.expect → c.busy = false → (∃ i ∈ islands, i ∉ c.islands) → ∃ t : State, s.command h op islands k = t ∧
      t.replied h op 5 [] ∧ s.repliesOnly t) ∧
    (h.seq = c.expect → c.busy = false → (∀ i ∈ islands, i ∈ c.islands) → (∃ i ∈ islands, s.island? i = none) →
      ∃ t : State, s.command h op islands k = t ∧ t.replied h op 2 [] ∧ s.repliesOnly t)) ∧
  (∀ (s : State) (k : Link) (islands : List Nat),
    (s.serviceUp = true → s.hasPort k.port = true → (∀ c ∈ s.conns, c.id ≠ k.conn) →
      exec (.connectionOpen k islands) s = .next { s with conns := s.conns ++ [⟨k.conn, islands, 1, [], false, k.port⟩] }) ∧
    (s.serviceUp = false ∨ s.hasPort k.port = false → exec (.connectionOpen k islands) s = .next s)) ∧
  (∀ (s : State) (h : CmdHeader) (op : Nat), op = 0 ∨ 14 < op → s.accepts h [] →
    ∃ t : State, exec (.unknownCommand h op) s = .next t ∧ t.replied h op 1 [] ∧ s.repliesOnly t) ∧
  (∀ (s : State) (h : CmdHeader) (num tenant root wpart : Nat) (shape : Shape) (tables : List Nat), s.accepts h [] →
    (∀ c ∈ s.conns, c.id = h.conn → num ∈ c.islands) → Shape.valid shape = true → 0 < num → num < 65536 → 0 < tenant →
    tenant < 0xFFFF → wpart = 0 ∨ wpart = 4 ∨ wpart = 8 ∨ wpart = 12 → root % 65536 = 0 → root < dramTop →
    (∀ x ∈ tables, x % 65536 = 0) → s.island? num = none →
    (∀ cl ∈ Shape.tiles shape, s.tileRetired cl = false ∧
      ∃ b, (s.dies.toList.getD (stackOf cl) StackSt.reset).boot = .running b) →
    (∀ i ∈ s.islands, ∀ cl ∈ Shape.tiles i.shape, cl ∉ Shape.tiles shape) →
    ∃ t : State, exec (.islandCreate h num shape tenant root wpart tables) s = .next t ∧ s.sameRegs t ∧ t.replied h 2 0 [] ∧
      t.islands = s.islands ++ [⟨num, tenant, shape, root, wpart, wpart, tables, [], [], []⟩] ∧
      (∀ cl ∈ Shape.tiles shape, ∀ w, wayIn 0 wpart w → ∀ b, b < 2 ^ 18 → memGet t.mem (wayLoc cl w b) = 0) ∧
      ∀ y, (∀ cl ∈ Shape.tiles shape, ∀ w, wayIn 0 wpart w → ∀ b, b < 2 ^ 18 → y ≠ wayLoc cl w b) →
        memGet t.mem y = memGet s.mem y) ∧
  (∀ (s : State) (h : CmdHeader) (i : Island), s.accepts h [h.island] → s.island? h.island = some i →
    (∃ t : State, exec (.islandDestroy h) s = .next t ∧ t.replied h 2 0 [] ∧ t.island? h.island = none) ∧
    ((∀ k ∈ s.shifts, k.island ≠ h.island) → (∀ f ∈ s.fields, f.island ≠ h.island) →
      (∀ v ∈ s.threads, v.isHandler = true → v.view.island ≠ h.island) →
      ∃ t : State, exec (.islandDestroy h) s = .next t ∧ s.sameRegs t ∧ t.mem = s.mem ∧ t.replied h 2 0 [] ∧
        t.islands = s.islands.filter (fun k => k.num != h.island) ∧
        t.tlb = s.tlb.filter (fun k => k.island != h.island)) ∧
    (∀ va x (bytes : List Byte), s.hostAt i va bytes.length needW x → s.inRunningField i.num x bytes.length = false →
      s.padHealth x ≠ .retired → bytes.length ≤ h.len.toNat →
      (s.isFrozen x = false → s.calm = true → ∃ t : State, exec (.put h va bytes) s = .next t ∧ s.sameRegs t ∧
        t.replied h 3 0 [] ∧ s.keepsMemory t [(x, bytes.length)] ∧
        ∀ j, j < bytes.length → memGet t.mem (x + j) = bytes.getD j 0) ∧
      (s.isFrozen x = true → bytes ≠ [] → ∃ t : State, exec (.put h va bytes) s = .next t ∧ t.replied h 3 1 [] ∧
        s.repliesOnly t)) ∧
    (∀ va n x,
      let got := ((s.hostGets.find? (fun g => g.conn == h.conn && g.seq == h.seq)).map (·.body)).getD []
      let k := min (8 - (va + got.length) % 8) (n - got.length)
      let body := got ++ (List.range k).map fun j => memGet s.mem (x + j)
      n ≤ 65535 → va + n ≤ 2 ^ 52 → s.hostAt i (va + got.length) k needR x → s.poisoned x k = false → s.calm = true →
      ∃ t : State, exec (.get h va n) s = .next t ∧ s.sameRegs t ∧ t.mem = s.mem ∧ (body.length = n → t.replied h 4 0 body) ∧
        (body.length ≠ n → t.outbox = s.outbox ∧ ⟨h.conn, h.seq, body⟩ ∈ t.hostGets)) ∧
    (∀ (packet : BitVec 512),
      (checkPacket s i i.view packet.toNat 0 none true = .invalid → ∃ t : State, exec (.launchCommand h packet) s = .next t ∧
        t.replied h 5 1 [] ∧ s.repliesOnly t) ∧
      (∀ k, checkPacket s i i.view packet.toNat 0 none true = .ok k → k.island = i.num →
        ((i.queue k.queue).shifts.length < 256 → (i.queue k.queue).waiters = [] → s.hostLaunches = [] →
          ∃ (t : State) (i' : Island), exec (.launchCommand h packet) s = .next t ∧ s.sameRegs t ∧ t.mem = s.mem ∧
            t.replied h 5 0 (bytesOf s.nextSerial 8) ∧ t.nextSerial = s.nextSerial + 1 ∧
            (∃ q ∈ t.shifts, q.serial = s.nextSerial) ∧ t.island? h.island = some i' ∧
            (i'.queue k.queue).shifts = (i.queue k.queue).shifts ++ [s.nextSerial]) ∧
        (256 ≤ (i.queue k.queue).shifts.length → ∃ t : State, exec (.launchCommand h packet) s = .next t ∧ s.sameRegs t ∧
          t.mem = s.mem ∧ s.accepted t h ∧ t.hostLaunches = s.hostLaunches ++ [⟨h.conn, h.seq, h.tag, s.nextSerial⟩]))) ∧
    (∀ va x, va % 16 = 0 → s.hostAt i va 16 needR x → s.poisoned x 16 = false → s.calm = true →
      ((s.barrier x).done = true → ∃ t : State, exec (.wait h va) s = .next t ∧ s.sameRegs t ∧ t.mem = s.mem ∧
        t.replied h 6 0 (bytesOf (s.barrier x).test.toNat 8)) ∧
      ((s.barrier x).done = false → ∃ t : State, exec (.wait h va) s = .next t ∧ s.sameRegs t ∧ t.mem = s.mem ∧
        s.accepted t h ∧ t.hostWaits = s.hostWaits ++ [⟨h.conn, h.seq, i.num, h.tag, x⟩])) ∧
    (∀ serial, s.shift? serial = none →
      ∃ t : State, exec (.kill h serial) s = .next t ∧ t.replied h 13 1 [] ∧ s.repliesOnly t) ∧
    (∀ serial k, s.shift? serial = some k → k.island = i.num → (∀ w ∈ s.hostLaunches, w.serial ≠ serial) →
      ∃ t : State, exec (.kill h serial) s = .next t ∧ t.replied h 13 0 [] ∧
        (∀ q ∈ t.shifts, q.serial = serial → q.killed = true) ∧
        ∀ c ∈ s.crews, c.serial = serial → c.retired = false → ∀ v ∈ s.threads, v.inCrew c.serial c.n = true → t.ended v.key) ∧
    (∀ va n l, va % 65536 = 0 → n % 65536 = 0 → va + n ≤ 2 ^ 52 → granulesOf s i.view wholeSeg va n false = .ok l →
      (l = [] → ∃ t : State, exec (.freezeFrz h va n) s = .next t ∧ t.replied h 7 0 [] ∧ s.repliesOnly t) ∧
      ((∃ p ∈ l, s.freezeCount p.2 = 255 ∨ s.inField p.2 = true) →
        ∃ t : State, exec (.freezeFrz h va n) s = .next t ∧ t.replied h 7 1 [] ∧ s.repliesOnly t) ∧
      (l ≠ [] → (∀ p ∈ l, s.freezeCount p.2 ≠ 255 ∧ s.inField p.2 = false) →
        ∃ t : State, exec (.freezeFrz h va n) s = .next t ∧ s.sameRegs t ∧ t.mem = s.mem ∧ s.accepted t h ∧
          (∀ g, t.freezeCount g = s.freezeCount g + (l.map (·.2)).count g) ∧
          t.engJobs = s.engJobs ++ [⟨s.nextId, .handler 0, i.num, some h, .freeze (l.map (·.2))⟩]) ∧
      (∃ t : State, exec (.freezeThaw h va n) s = .next t ∧ s.sameRegs t ∧ t.mem = s.mem ∧ s.accepted t h ∧
        t.thaws.length = s.thaws.length + 1 ∧
        (s.thawRefused l = none → ∀ g, t.freezeCount g = s.freezeCount g - (l.map (·.2)).count g) ∧
        (s.thawRefused l ≠ none → t.freeze = s.freeze)) ∧
      (∀ q, granulesOf s i.view wholeSeg va 65536 true = .ok q → va < 2 ^ 52 → ∃ t : State, exec (.freezeFrzq h va) s = .next t ∧
        s.repliesOnly t ∧
        t.replied h 7 0 (bytesOf ((s.freezeCount (pieceIn q va) + (if s.thawing (pieceIn q va) then 2 ^ 8 else 0) +
          (if s.inHandler (pieceIn q va) then 2 ^ 9 else 0)) % 2 ^ 64) 8))) ∧
    (∀ (r : StraitReader) owner base ngran rate burst j, s.island? r.island = some j → base % 65536 = 0 →
      base + ngran * 65536 ≤ dramTop → 0 < ngran → 0 < owner → owner < 0xFFFF → rate < 2 ^ 32 → burst < 2 ^ 16 →
      let rest := s.straits.filter (fun t => !(t.reader == r.island && t.owner == owner && t.base == base))
      let full := ∃ st ∈ s.ownerStacks owner, 64 ≤ rest.countP (fun t => (s.ownerStacks t.owner).contains st)
      let mapped := (r.entries.foldl State.putEntry s).straitMapped j base ngran
      (full → ∃ t : State, exec (.straitOpen h r owner base ngran rate burst) s = .next t ∧ t.replied h 8 3 [] ∧
        s.repliesOnly t) ∧
      (¬full → mapped = true → ∃ t : State, exec (.straitOpen h r owner base ngran rate burst) s = .next t ∧
        s.sameRegs t ∧ (r.entries = [] → t.mem = s.mem) ∧ t.replied h 8 0 [] ∧
        t.straits = rest ++ [⟨r.island, owner, base, ngran, rate, burst, burst * 4096⟩]) ∧
      (¬full → mapped = false → exec (.straitOpen h r owner base ngran rate burst) s = .next s)) ∧
    (∀ reader owner base,
      (s.straits.find? (fun t => t.reader == reader && t.owner == owner && t.base == base) = none →
        ∃ t : State, exec (.straitClose h reader owner base) s = .next t ∧ t.replied h 8 1 [] ∧ s.repliesOnly t) ∧
      (∀ k, s.straits.find? (fun t => t.reader == reader && t.owner == owner && t.base == base) = some k →
        ∃ t : State, exec (.straitClose h reader owner base) s = .next t ∧ s.sameRegs t ∧ t.mem = s.mem ∧ t.replied h 8 0 [] ∧
          t.straits = s.straits.erase k)) ∧
    (∀ idx module target conn port, idx < 256 →
      (∀ m, module = some m → m < 2 ^ 32 ∧ target < 2 ^ 16 ∧ s.hasPort port = true) →
      ∃ (t : State) (i' : Island), exec (.fartab h idx module target conn port) s = .next t ∧ s.sameRegs t ∧ t.mem = s.mem ∧
        t.replied h 9 0 [] ∧ t.island? h.island = some i' ∧
        (∀ n, i'.far.find? (fun f => f.idx == n) = if n = idx then module.map (fun m => ⟨idx, m, target, conn, port⟩)
          else i.far.find? (fun f => f.idx == n))) ∧
    (∀ va n, ∃ t : State, exec (.tlbinv h va n) s = .next t ∧ s.sameRegs t ∧ t.mem = s.mem ∧ t.replied h 10 0 [] ∧
      ∀ e, e ∈ t.tlb ↔ e ∈ s.tlb ∧ ¬(e.island = i.num ∧ va < (e.page + 1) * 2 ^ e.logSize ∧ e.page * 2 ^ e.logSize < va + n)) ∧
    (∀ num f ext (p : FieldPart) lockstep bound, s.field? i.num num = some f → f.st = .stopped →
      lockstep = true ∨ (1 ≤ bound ∧ bound ≤ 15) →
      (∀ a, a < 3 → p.offset.getD a 0 + (fieldExt f.desc).getD a 1 ≤ ext.getD a 0) →
      p.faces.length ≤ 6 → (∀ n, some n ∈ p.faces → ∃ k ∈ i.far, k.idx = n) →
      ∃ t : State, exec (.fieldlink h num ext p lockstep bound) s = .next t ∧ s.sameRegs t ∧ t.mem = s.mem ∧
        t.replied h 11 0 [] ∧ s.fieldBecomes t f { f with link := some ⟨ext, p.offset, lockstep, bound, p.faces⟩ }))

/-- R257 to R260: a slot whose thread is to be spilled saves the thread in the layout of Tables 11.9 to 11.12 and becomes free, and
a refill brings it back; a cluster's scratchpad and tiles are evicted and restored. R353 to R361: a module reset verifies and runs
an image, fetches recover, LOADIMG writes the slot that does not run, TELEMETRY reads; limits slow, stop or shut down; background
work changes no value but for poison; a worn unit is retired. R310, R311: a far message is performed once, and a far access that
gets no answer fails as OWNER; a halo layer comes whole or in parts (R308). The model's choices are: a refilled thread keeps its
registers in the model's thread, not in its save area (log 63); the slots' areas of an eviction (log 64); what a MODULE_RESET finds in
`resetPlan` (log 102), the slots that boot and LOADIMG write, step by step (log 71), and what a cold start keeps (log 72); the layout of
TELEMETRY's bodies (log 70) and the record of a unit not measured yet (log 103); one clock step down for each sensing and 100 cool ones for
a step up (log 73); at once for a slice, else at the next creation of an island, what a retired unit withdraws (log 68), a slice also what
its ways held (log 124); the two lists of what the resident service is told (log 38). -/
def Obligations.PreemptionAndDevice : Prop :=
  (∀ (s : State) (h : CmdHeader) (i : Island) (k : ThreadKey) (area : Nat), s.accepts h [h.island] →
    s.island? h.island = some i →
    (s.thread? k = none → ∃ t : State, exec (.spillSlot h k area) s = .next t ∧ t.replied h 12 1 [] ∧ s.repliesOnly t) ∧
    (∀ v, s.thread? k = some v → v.view.island = i.num → v.live = true → v.isHandler = false →
      (v.status = .spilled → ∃ t : State, exec (.spillSlot h k area) s = .next t ∧ t.replied h 12 0 [] ∧ s.repliesOnly t) ∧
      (v.status ≠ .spilled → v.spilling = false → s.spillBusy v = false → s.areaOk i.num area 65536 1 = true →
        exec (.spillSlot h k area) s = .next (s.modThread k fun x => { x with spilling := true, area := area })) ∧
      (v.status = .spilled → s.slotFree v = true → (s.matrixEng v.view.cluster).evicted = false → s.spillBusy v = false →
        v.area + 65536 ≤ dramTop →
        let lane := laneLoc (coreIndex v.view) v.view.slot 0
        ∃ (t : State) (w : Thread), exec (.refillSlot h k) s = .next t ∧ s.sameRegs t ∧ t.replied h 12 0 [] ∧
          t.thread? k = some w ∧ w.status = (if v.woken = true ∨ v.wait = .none then .ready else .parked) ∧
          copied s t (v.area + 0x4000) lane 8192 ∧ (s.spilledJob v = none → s.keepsAll t [(lane, 8192)])) ∧
      (v.status = .spilled → s.slotFree v = false → exec (.refillSlot h k) s = .next s)) ∧
    (∀ cl, cl ∈ Shape.tiles i.shape →
      (s.areaOk i.num area (2 ^ 20) 48 = true → s.clusterBusy cl = true → ∃ t : State, exec (.evictCluster h cl area) s = .next t ∧
        t.mem = s.mem ∧ t.outbox = s.outbox ∧ (t.matrixEng cl).evicted = true ∧
        t.threads = s.threads.map fun v =>
          if v.view.cluster = cl ∧ v.canSpill = true ∧ v.spilling = false ∧ s.nextSpill v = true then
            { v with spilling := true, area := area + 2 ^ 20 + 65536 * (8 * v.view.core + v.view.slot) }
          else v) ∧
      (s.areaOk i.num area (2 ^ 20) 48 = true → s.clusterBusy cl = false → (s.matrixEng cl).taken ≤ 16 →
        (∀ c ∈ (s.matrixEng cl).buffers, c.payload.length ≤ 0x8000) →
        ∃ t : State, exec (.evictCluster h cl area) s = .next t ∧ s.sameRegs t ∧ t.replied h 12 0 [] ∧
          (t.matrixEng cl).evicted = true ∧ s.keepsAll t [(area, 2 ^ 20)] ∧
          (∀ c, c < 4 → copied s t (spadLoc (4 * cl + c) 0) (area + c * 0x20000) 131072) ∧
          ∀ q, q < 16 → copied s t (tileLoc cl q 0) (area + 0x80000 + q * 16384) 16384) ∧
      (s.areaOk i.num area (2 ^ 20) 16 = true → (s.matrixEng cl).evicted = true → (∀ c, c < 4 → (s.core (4 * cl + c)).health ≠ .retired) →
        ∃ t : State, exec (.restoreCluster h cl area) s = .next t ∧ s.sameRegs t ∧ t.replied h 12 0 [] ∧
          (t.matrixEng cl).evicted = false ∧
          (∀ c, c < 4 → copied s t (area + c * 0x20000) (spadLoc (4 * cl + c) 0) 131072) ∧
          (∀ q, q < 16 → copied s t (area + 0x80000 + q * 16384) (tileLoc cl q 0) 16384) ∧
          s.keepsAll t ((List.range 4).map (fun c => (spadLoc (4 * cl + c) 0, 131072)) ++
            (List.range 16).map (fun q => (tileLoc cl q 0, 16384)))))) ∧
  (∀ (s : State) (k : ThreadKey) (v : Thread), s.thread? k = some v → v.spilling = true → v.canSpill = true →
    v.settled = true →
    (∀ m ∈ s.msgs, m.key = k → m.op.answers = false) → v.area + 65536 ≤ dramTop →
    ∃ (t : State) (w : Thread), exec (.spillSave k) s = .next t ∧ s.sameRegs t ∧ t.thread? k = some w ∧ w.status = .spilled ∧
      w.spilling = false ∧ w.pending.length = v.pending.length ∧ s.keepsAll t [(v.area, 65536)] ∧
      memRead t.mem v.area 8 % 2 ^ 52 = v.pc.toNat ∧
      (∀ j, 0 < j → j < 64 → memRead t.mem (v.area + 0x40 + 8 * j) 8 = (v.rg (BitVec.ofNat 6 j)).toNat) ∧
      (∀ j, j < 8 → memRead t.mem (v.area + 0x240 + 2 * j) 2 = (v.rp (BitVec.ofNat 3 j)).toNat) ∧
      (∀ j, j < 32 → memRead t.mem (v.area + 0x800 + 64 * j) 64 = (v.rv (BitVec.ofNat 5 j)).toNat) ∧
      copied s t (laneLoc (coreIndex v.view) v.view.slot 0) (v.area + 0x4000) 8192) ∧
  (∀ s : State,
    (∃ t : State, exec .moduleReset s = .next t ∧ let delays := s.resetPlan.delays
      t = { State.reset with
        dies := t.dies, wear := s.wear, retiredUnits := s.retiredUnits, withdrawn := s.withdrawn, agenda := s.agenda
        turn := s.turn, free := s.free, draw := s.draw, resetPlan := s.resetPlan, moduleId := s.resetPlan.id
        ports := portsOf s.resetPlan.ports
        svcReports := (s.tripped.map SvcReport.shutdown).toList } ∧
      ∀ j, j < 4 → (s.die j).sameSlots (t.die j) ∧ (t.die j).delay = delays.getD j 0 ∧
        (delays.getD j 0 ≠ 0 → (t.die j).boot = .off) ∧ (delays.getD j 0 = 0 → (t.die j).boot =
          let b := (s.die j).latest
          if ((s.die j).slot b).verifies j = true then .running b
          else if ((s.die j).slot (!b)).verifies j = true then .running (!b) else .fetching 3 b)) ∧
    (∃ t : State, exec .powerLoss s = .next t ∧
      t = { State.reset with
        dies := t.dies, wear := s.wear, retiredUnits := s.retiredUnits, withdrawn := s.withdrawn, tripped := s.tripped
        agenda := s.agenda, turn := s.turn, free := s.free, draw := s.draw, resetPlan := s.resetPlan
        off := true } ∧
      ∀ j, j < 4 → (s.die j).sameSlots (t.die j) ∧ (t.die j).boot = .off) ∧
    (∀ stack img n b, s.off = false → stack < 4 → (s.die stack).boot = .fetching n b →
      ∃ t : State, exec (.recoveryFetch stack img) s = .next t ∧
        t = { s with dies := t.dies, svcReports := t.svcReports } ∧
        (∀ j, j ≠ stack → t.die j = s.die j) ∧
        (verifies stack img = true → (t.die stack).boot = .running b ∧ ((t.die stack).slot b).image = some img ∧
          (t.die stack).image = some img ∧ t.svcReports = s.svcReports) ∧
        (verifies stack img = false → (s.die stack).sameSlots (t.die stack) ∧
          (t.die stack).boot = (if n ≤ 1 then .recovery else .fetching (n - 1) b) ∧
          t.svcReports = s.svcReports ++ (if n ≤ 1 then [SvcReport.recovery stack] else []))) ∧
    (∀ h, s.accepts h [] →
      (∀ stack img, s.imageVerifies img = false → ∃ t : State, exec (.loadimg h stack img) s = .next t ∧ t.replied h 1 1 [] ∧
        s.repliesOnly t) ∧
      (∀ stack img, s.imageVerifies img = true →
        (s.imageLoad = none → ∃ t : State, exec (.loadimg h stack img) s = .next t ∧
          t = { s with imageLoad := some ⟨h.conn, h.seq, img, []⟩, dies := t.dies } ∧
          ∀ j b, j < 4 → (s.die j).boot = .running b → (t.die j).boot = .running b ∧ (t.die j).slot b = (s.die j).slot b ∧
            ((t.die j).slot (!b)).image = none) ∧
        (∀ w, s.imageLoad = some ⟨h.conn, h.seq, img, w⟩ → stack < 4 →
          let last := ∀ j b, j < 4 → (s.die j).boot = .running b → j = stack ∨ j ∈ w
          ∃ t : State, exec (.loadimg h stack img) s = .next t ∧
            (last → t.replied h 1 0 [] ∧
              t = { s with outbox := t.outbox, conns := t.conns, hostGets := t.hostGets, dies := t.dies, imageLoad := none }) ∧
            (¬last → t = { s with dies := t.dies, imageLoad := some ⟨h.conn, h.seq, img, setAdd w stack⟩ }) ∧
            (∀ j, j ≠ stack → t.die j = s.die j) ∧
            ∀ b, (s.die stack).boot = .running b → (t.die stack).boot = .running b ∧
              (t.die stack).slot b = (s.die stack).slot b ∧ ((t.die stack).slot (!b)).image = some img ∧
              (t.die stack).latest = !b)) ∧
      (∀ l, ∃ t : State, exec (.telemetry h (.wear l)) s = .next t ∧ s.sameRegs t ∧ t.mem = s.mem ∧
        t.replied h 14 0 ((l.foldl State.measure s).wearRecords.flatMap Wear.bytes)) ∧
      (∃ t : State, exec (.telemetry h .counters) s = .next t ∧ t.replied h 14 0 (bytesOf s.dropped 8) ∧ s.repliesOnly t) ∧
      (∃ (t : State) (body : List Byte), exec (.telemetry h .clocks) s = .next t ∧ t.replied h 14 0 body ∧ body.length = 64 ∧
        (∀ j, j < 4 → (body.drop (16 * j)).take 8 = bytesOf (s.die j).clk.toNat 8)) ∧
      (∀ stack nonce b img, (s.die stack).boot = .running b → (s.die stack).image = some img →
        ∃ (t : State) (body : List Byte), exec (.telemetry h (.attest stack nonce)) s = .next t ∧ t.replied h 14 0 body ∧
          s.repliesOnly t ∧ body.take 32 = bytesOf img.digest.toNat 32 ∧ (body.drop 72).take 32 = bytesOf nonce.toNat 32)) ∧
    (∀ stack x, s.off = false → stack < 4 →
      (120 < x.maxTemp → ∃ t : State, exec (.limitSense stack x) s = .next t ∧ t.off = true ∧ t.mem = [] ∧ t.wear = s.wear ∧
        t.tripped = some stack) ∧
      (x.maxTemp ≤ 120 → ∃ t : State, exec (.limitSense stack x) s = .next t ∧ t = { s with dies := t.dies } ∧
        let d := s.die stack
        let e := t.die stack
        e.mhz = (if x.overCurrent = true ∨ 100 < x.baseTemp ∨ x.overPower = true then max 900 (d.mhz - 100) else d.mhz) ∧
        (∀ j, j < 4 → j ≠ stack →
          t.die j = if x.overPower then { s.die j with mhz := max 900 ((s.die j).mhz - 100) } else s.die j) ∧
        (110 < x.baseTemp → e.stopped = true) ∧ (x.baseTemp < 100 → e.stopped = false) ∧
        (100 ≤ x.baseTemp → x.baseTemp ≤ 110 → e.stopped = d.stopped) ∧ e.hot = x.hotSeams ∧
        e.coolTicks = (if x.cool then d.coolTicks + 1 else 0))) ∧
    (∀ stack, stack < 4 → ∃ t : State, exec (.clockStepUp stack) s = .next t ∧ t = { s with dies := t.dies } ∧
      (t.die stack).mhz = if 100 ≤ (s.die stack).coolTicks then min 1800 ((s.die stack).mhz + 100) else (s.die stack).mhz) ∧
    (∀ loc, exec (.patrolScrub loc false) s = .next s ∧ ∃ t : State, exec (.patrolScrub loc true) s = .next t ∧
      t = { s with poison := t.poison, svcReports := s.svcReports ++ [.poisoned (8 * wordAt loc)] } ∧ ∀ w, w ∈ t.poison ↔ w ∈ s.poison ∨ w = wordAt loc) ∧
    (∀ n, exec (.calibration n) s = .next s ∧ exec (.refresh n) s = .next s) ∧
    (∀ link, ∃ t : State, exec (.linkFailure link) s = .next t ∧ t = { s with linksDown := t.linksDown } ∧
      ∀ l, l ∈ t.linksDown ↔ l ∈ s.linksDown ∨ l = link) ∧
    (∀ w : Wear, let u := (w.kind, w.stack, w.unit)
      (8192 < w.margin ∨ u ∈ s.retiredUnits → exec (.unitRetirement w) s = .next (s.measure w)) ∧
      (w.margin ≤ 8192 → u ∈ wearUnits → u ∉ s.retiredUnits → ∃ t : State, exec (.unitRetirement w) s = .next t ∧
        u ∈ t.retiredUnits ∧ (∀ k ∈ s.retiredUnits, k ∈ t.retiredUnits) ∧
        (w.kind ≠ 2 → w.kind ≠ 3 → t = { s.measure w with retiredUnits := s.retiredUnits ++ [u] }) ∧
        (w.kind = 2 → let cl := clusterOfTile w.stack w.unit
          s.sameRegs t ∧ cl ∈ t.withdrawn ∧ (s.waits = [] → ∀ y,
            memGet t.mem y = if wayLoc cl 0 0 ≤ y ∧ y < wayLoc cl 0 0 + 2 ^ 22 then 0 else memGet s.mem y)) ∧
        (w.kind = 3 → t.engineRetired (clusterOfTile w.stack w.unit) = true)))) ∧
  (∀ (s : State) (module core num island : Nat) (i : Island),
    ((module, core, num) ∈ s.farSeen → ∀ req, req ≠ .unsupported →
      exec (.farMessageArrival module core num island req) s = .next s) ∧
    exec (.farMessageArrival module core num island .unsupported) s = .next { s with dropped := s.dropped + 1 } ∧
    ((module, core, num) ∉ s.farSeen → s.island? island = some i →
      let seen (t : State) : Prop := (module, core, num) ∈ t.farSeen
      (∀ va n x op uns a, s.hostAt i va n needRW x → isDram x = true → s.isFrozen x = false → s.poisoned x n = false →
        s.clean = true → s.bankStopped x = false → n = 4 ∨ n = 8 →
        let w := 8 * n
        let old : BitVec w := BitVec.ofNat w (memRead s.mem x n)
        (∃ t : State, exec (.farMessageArrival module core num island (.atom op uns va n a)) s = .next t ∧ s.sameRegs t ∧ seen t ∧
          s.keepsAll t [(x, n)] ∧ memRead t.mem x n = (atomNew op uns old (a.truncate w)).toNat) ∧
        (∀ r, redOp r = op → s.hostAt i va n needW x → ∃ t : State, exec (.farMessageArrival module core num island (.red r uns va n a)) s = .next t ∧
          s.sameRegs t ∧ seen t ∧ s.keepsAll t [(x, n)] ∧ memRead t.mem x n = (atomNew op uns old (a.truncate w)).toNat) ∧
        (∀ e c, ∃ t : State, exec (.farMessageArrival module core num island (.cas va n e c)) s = .next t ∧ s.sameRegs t ∧ seen t ∧
          s.keepsAll t [(x, n)] ∧
          memRead t.mem x n = if memRead s.mem x n = e.toNat % 2 ^ w then c.toNat % 2 ^ w else memRead s.mem x n)) ∧
      (∀ va x data fe, s.hostAt i va 8 (if fe then needRW else needW) x → isDram x = true → s.isFrozen x = false → s.clean = true →
        (fe = true → s.waits = []) →
        ∃ t : State, exec (.farMessageArrival module core num island (.push va data fe)) s = .next t ∧ s.sameRegs t ∧ seen t ∧
          s.keepsAll t [(x, 8)] ∧ memRead t.mem x 8 = data.toNat ∧ (fe = true → t.isFull (wordAt x) = true)) ∧
      (∀ num' face sweep phase first vals f l n e, s.field? i.num num' = some f → f.link = some l → l.faces.getD face none = some n →
        i.far.find? (fun k => k.idx == n) = some e → e.module = module → (l.lockstep = true ∨ ∀ k ∈ f.halos, k.face ≠ face) →
        vals.length * fieldWidth f.desc ≤ 32768 →
        let part : HaloPart := ⟨face, sweep, phase, first, vals⟩
        let mine := part :: f.parts.filter fun q => q.face == face && q.sweep == sweep && q.phase == phase
        let came := fun (k : Nat) => mine.findSome? fun q => if q.first ≤ k then q.vals[k - q.first]? else none
        ∃ (t : State) (g : Field), exec (.farMessageArrival module core num island (.halo num' face sweep phase first vals)) s = .next t ∧
          s.sameRegs t ∧ t.mem = s.mem ∧ seen t ∧ s.fieldBecomes t f g ∧
          (first = 0 → haloSize f.desc face ≤ vals.length → (⟨face, sweep, phase, vals⟩ : Halo) ∈ g.halos) ∧
          (first ≠ 0 ∨ vals.length < haloSize f.desc face → (∀ k, k < haloSize f.desc face → (came k).isSome = true) →
            ∃ h ∈ g.halos, h.face = face ∧ h.sweep = sweep ∧ h.phase = phase ∧
              ∀ k, k < haloSize f.desc face → h.vals[k]? = came k) ∧
          ((∃ k, k < haloSize f.desc face ∧ came k = none) → g = { f with parts := part :: f.parts })) ∧
      (∀ id c status vals, s.call? id = some c → c.target.space = spFar →
        ∃ t : State, exec (.farMessageArrival module core num island (.reply id status vals)) s = .next t ∧ s.sameRegs t ∧
          t.mem = s.mem ∧ seen t ∧ ∃ d ∈ t.calls, d.id = c.id ∧ d.stage = .replying ∧ d.reply = some (status, vals.length, vals)) ∧
      (∀ va entry payload caller, ∃ (t : State) (c : Call), exec (.farMessageArrival module core num island
          (.call va entry payload caller)) s = .next t ∧ s.sameRegs t ∧ t.mem = s.mem ∧ seen t ∧ t.calls = s.calls ++ [c] ∧
        c.entry = entry ∧ c.payload = payload ∧ c.caller = caller ||| 0x8000000000000000))) ∧
  (∀ (s : State) (m : FarMsg), s.farOut.find? (fun k => k.core == m.core && k.num == m.num) = some m →
    s.stackStopped (stackOf (m.core / 4)) = false →
    (m.entry = none → m.copy = none → exec (.farAccessTimeout m.core m.num) s = .next { s with
      farOut := s.farOut.erase m
      faults := if s.isDead m.key then s.faults else
        s.faults ++ [⟨m.core, m.key, m.pc, m.va, m.logSize, true, .owner, .flight⟩] }) ∧
    (∀ n v e, m.entry = some n → s.thread? m.key = some v → v.pending.find? (fun f => f.seq == n) = some e →
      s.farOf m.key n = some m →
      ∃ t : State, exec (.farAccessTimeout m.core m.num) s = .next t ∧ s.sameRegs t ∧ t.mem = s.mem ∧ t.farOf m.key n = none ∧
        t.thread? m.key = some { v with pending := v.pending.map fun f =>
          if f.access = e.access then { f with wait := .fault .owner m.va true } else f }) ∧
    (∀ id c x, m.entry = none → m.copy = some id → s.copies.find? (fun k => k.id == id) = some c → s.calm = true →
      s.barrierAt c.bar x → 8 * c.pos < 2 ^ 32 →
      ∃ t : State, exec (.farAccessTimeout m.core m.num) s = .next t ∧ s.sameRegs t ∧ s.keepsMemory t [(x, 16)] ∧
        t.copies = s.copies.filter (fun k => k.id != id) ∧ arrivedBarrier (s.barrier x) (t.barrier x) (8 * c.pos) ∧
        (t.barrier x).flags.getLsbD 2 = true))
end

