-- ==== Sys2Proof/Laws/Decode.lean ====
section
/-! SUPPORT. The fields of an instruction word, and the codes of every named operand: a code read back is the value it was
written for, and a value read is written as the code it was read from. -/

namespace Sys2Proof

/-! ## Fields -/

theorem fieldAt_toNat (w lo len : Nat) : (fieldAt w lo len).toNat = natAt w lo len := by simp [fieldAt, natAt]

/-- A field holds the value whose number its bits are. -/
theorem fieldAt_eq {w lo len : Nat} {x : BitVec len} (h : natAt w lo len = x.toNat) : fieldAt w lo len = x :=
  BitVec.eq_of_toNat_eq ((fieldAt_toNat w lo len).trans h)

/-- A field's bits are a number below its range. -/
theorem natAt_lt (w lo len : Nat) : natAt w lo len < 2 ^ len := Nat.mod_lt _ (Nat.two_pow_pos len)

theorem flagAt_eq (w lo : Nat) : flagAt w lo = (natAt w lo 1 == 1) := by simp [flagAt, natAt]

/-! ## Codes -/

@[simp] theorem IntTy.ofCode_code (x : IntTy) : IntTy.ofCode? x.code = some x := by cases x <;> rfl

theorem IntTy.code_of_ofCode {n : Nat} {x : IntTy} (h : IntTy.ofCode? n = some x) : x.code = n := by
  unfold IntTy.ofCode? at h
  split at h <;> simp_all <;> subst h <;> rfl

@[simp] theorem FTy.ofCode_code (x : FTy) : FTy.ofCode? x.code = some x := by cases x <;> rfl

theorem FTy.code_of_ofCode {n : Nat} {x : FTy} (h : FTy.ofCode? n = some x) : x.code = n := by
  unfold FTy.ofCode? at h
  split at h <;> simp_all <;> subst h <;> rfl

@[simp] theorem Fmt.ofCode_code (x : Fmt) : Fmt.ofCode? x.code = some x := by cases x <;> rfl

theorem Fmt.code_of_ofCode {n : Nat} {x : Fmt} (h : Fmt.ofCode? n = some x) : x.code = n := by
  unfold Fmt.ofCode? at h
  split at h <;> simp_all <;> subst h <;> rfl

@[simp] theorem DotTy.ofCode_code (x : DotTy) : DotTy.ofCode? x.code = some x := by cases x <;> rfl

theorem DotTy.code_of_ofCode {n : Nat} {x : DotTy} (h : DotTy.ofCode? n = some x) : x.code = n := by
  unfold DotTy.ofCode? at h
  split at h <;> simp_all <;> subst h <;> rfl

@[simp] theorem Rm.ofCode_code (x : Rm) : Rm.ofCode? x.code = some x := by cases x <;> rfl

theorem Rm.code_of_ofCode {n : Nat} {x : Rm} (h : Rm.ofCode? n = some x) : x.code = n := by
  unfold Rm.ofCode? at h
  split at h <;> simp_all <;> subst h <;> rfl

@[simp] theorem AddMode.ofCode_code (x : AddMode) : AddMode.ofCode? x.code = some x := by cases x <;> rfl

theorem AddMode.code_of_ofCode {n : Nat} {x : AddMode} (h : AddMode.ofCode? n = some x) : x.code = n := by
  unfold AddMode.ofCode? at h
  split at h <;> simp_all <;> subst h <;> rfl

@[simp] theorem MulhMode.ofCode_code (x : MulhMode) : MulhMode.ofCode? x.code = some x := by cases x <;> rfl

theorem MulhMode.code_of_ofCode {n : Nat} {x : MulhMode} (h : MulhMode.ofCode? n = some x) : x.code = n := by
  unfold MulhMode.ofCode? at h
  split at h <;> simp_all <;> subst h <;> rfl

@[simp] theorem CmpCond.ofCode_code (x : CmpCond) : CmpCond.ofCode? x.code = some x := by cases x <;> rfl

theorem CmpCond.code_of_ofCode {n : Nat} {x : CmpCond} (h : CmpCond.ofCode? n = some x) : x.code = n := by
  unfold CmpCond.ofCode? at h
  split at h <;> simp_all <;> subst h <;> rfl

@[simp] theorem FCmpCond.ofCode_code (x : FCmpCond) : FCmpCond.ofCode? x.code = some x := by cases x <;> rfl

theorem FCmpCond.code_of_ofCode {n : Nat} {x : FCmpCond} (h : FCmpCond.ofCode? n = some x) : x.code = n := by
  unfold FCmpCond.ofCode? at h
  split at h <;> simp_all <;> subst h <;> rfl

@[simp] theorem CvtInt.ofCode_code (x : CvtInt) : CvtInt.ofCode? x.code = some x := by cases x <;> rfl

theorem CvtInt.code_of_ofCode {n : Nat} {x : CvtInt} (h : CvtInt.ofCode? n = some x) : x.code = n := by
  unfold CvtInt.ofCode? at h
  split at h <;> simp_all <;> subst h <;> rfl

@[simp] theorem VRedFn.ofCode_code (x : VRedFn) : VRedFn.ofCode? x.code = some x := by cases x <;> rfl

theorem VRedFn.code_of_ofCode {n : Nat} {x : VRedFn} (h : VRedFn.ofCode? n = some x) : x.code = n := by
  unfold VRedFn.ofCode? at h
  split at h <;> simp_all <;> subst h <;> rfl

@[simp] theorem LodeFn.ofCode_code (x : LodeFn) : LodeFn.ofCode? x.code = some x := by cases x <;> rfl

theorem LodeFn.code_of_ofCode {n : Nat} {x : LodeFn} (h : LodeFn.ofCode? n = some x) : x.code = n := by
  unfold LodeFn.ofCode? at h
  split at h <;> simp_all <;> subst h <;> rfl

@[simp] theorem SegSel.ofCode_code (x : SegSel) : SegSel.ofCode? x.code = some x := by cases x <;> rfl

theorem SegSel.code_of_ofCode {n : Nat} {x : SegSel} (h : SegSel.ofCode? n = some x) : x.code = n := by
  unfold SegSel.ofCode? at h
  split at h <;> simp_all <;> subst h <;> rfl

@[simp] theorem FenceKind.ofCode_code (x : FenceKind) : FenceKind.ofCode? x.code = some x := by cases x <;> rfl

theorem FenceKind.code_of_ofCode {n : Nat} {x : FenceKind} (h : FenceKind.ofCode? n = some x) : x.code = n := by
  unfold FenceKind.ofCode? at h
  split at h <;> simp_all <;> subst h <;> rfl

@[simp] theorem Scope.ofCode_code (x : Scope) : Scope.ofCode? x.code = some x := by cases x <;> rfl

theorem Scope.code_of_ofCode {n : Nat} {x : Scope} (h : Scope.ofCode? n = some x) : x.code = n := by
  unfold Scope.ofCode? at h
  split at h <;> simp_all <;> subst h <;> rfl

@[simp] theorem AtomOp.ofCode_code (x : AtomOp) : AtomOp.ofCode? x.code = some x := by cases x <;> rfl

theorem AtomOp.code_of_ofCode {n : Nat} {x : AtomOp} (h : AtomOp.ofCode? n = some x) : x.code = n := by
  unfold AtomOp.ofCode? at h
  split at h <;> simp_all <;> subst h <;> rfl

@[simp] theorem RedOp.ofCode_code (x : RedOp) : RedOp.ofCode? x.code = some x := by cases x <;> rfl

theorem RedOp.code_of_ofCode {n : Nat} {x : RedOp} (h : RedOp.ofCode? n = some x) : x.code = n := by
  unfold RedOp.ofCode? at h
  split at h <;> simp_all <;> subst h <;> rfl

@[simp] theorem RowFn.ofCode_code (x : RowFn) : RowFn.ofCode? x.code = some x := by cases x <;> rfl

theorem RowFn.code_of_ofCode {n : Nat} {x : RowFn} (h : RowFn.ofCode? n = some x) : x.code = n := by
  unfold RowFn.ofCode? at h
  split at h <;> simp_all <;> subst h <;> rfl

@[simp] theorem Sz.ofCode_code (x : Sz) : Sz.ofCode? x.code = some x := by cases x <;> rfl

theorem Sz.code_of_ofCode {n : Nat} {x : Sz} (h : Sz.ofCode? n = some x) : x.code = n := by
  unfold Sz.ofCode? at h
  split at h <;> simp_all <;> subst h <;> rfl

@[simp] theorem MReg.ofCode_code (x : MReg) : MReg.ofCode? x.code = some x := by cases x <;> rfl

theorem MReg.code_of_ofCode {n : Nat} {x : MReg} (h : MReg.ofCode? n = some x) : x.code = n := by
  unfold MReg.ofCode? at h
  split at h <;> simp_all <;> subst h <;> rfl

@[simp] theorem Fmt.ofSrcCode_srcCode (x : Fmt) : Fmt.ofSrcCode? x.srcCode = some x := by cases x <;> rfl

theorem Fmt.srcCode_of_ofSrcCode {n : Nat} {x : Fmt} (h : Fmt.ofSrcCode? n = some x) : x.srcCode = n := by
  unfold Fmt.ofSrcCode? at h
  split at h <;> simp_all <;> subst h <;> rfl

end Sys2Proof
end

