-- ==== Sys2Proof/Laws/Lanes.lean ====
section
/-! SUPPORT. The lanes of vector registers: what an element read or written is in terms of bits, and what the elementwise
operations do to each lane. -/

namespace Sys2Proof.Machine

open Sys2Proof

/-- An element is the number that its lane holds. -/
theorem elem_eq_lane (x : VWord) (w j : Nat) : elem x w j = (lane w x j).toNat := by
  simp [elem, lane, BitVec.extractLsb'_toNat, Nat.shiftRight_eq_div_pow]

theorem lane_getLsbD (w : Nat) (x : VWord) (j k : Nat) (hk : k < w) : (lane w x j).getLsbD k = x.getLsbD (w * j + k) := by
  simp [lane, hk]

/-- The bits that an element replaced has. -/
theorem setElem_getLsbD (x : VWord) (w j v k : Nat) (hk : k < 512) :
    (setElem x w j v).getLsbD k = if w * j ≤ k ∧ k < w * j + w then v.testBit (k - w * j) else x.getLsbD k := by
  have h1 : (2 ^ w - 1).testBit (k - w * j) = decide (k - w * j < w) := Nat.testBit_two_pow_sub_one w _
  simp only [setElem, BitVec.getLsbD_or, BitVec.getLsbD_and, BitVec.getLsbD_not, BitVec.getLsbD_ofNat, hk, decide_true,
    Bool.true_and, Nat.testBit_mul_two_pow, h1, Nat.testBit_mod_two_pow]
  by_cases h : w * j ≤ k
  · by_cases h2 : k < w * j + w
    · have : k - w * j < w := by omega
      simp [h, h2, this]
    · have : ¬ k - w * j < w := by omega
      simp [h, h2, this]
  · simp [h]

/-- An element replaced shows in its own lane alone. -/
theorem lane_setElem (x : VWord) (w i j v : Nat) (hj : w * j + w ≤ 512) :
    lane w (setElem x w i v) j = if i = j then BitVec.ofNat w v else lane w x j := by
  apply BitVec.eq_of_getLsbD_eq
  intro k hk
  rw [lane_getLsbD _ _ _ _ hk, setElem_getLsbD _ _ _ _ _ (by omega)]
  by_cases h : i = j
  · subst h
    have : w * i + k - w * i = k := by omega
    rw [if_pos ⟨by omega, by omega⟩, this, if_pos rfl, BitVec.getLsbD_ofNat]
    simp [hk]
  · have hne : ¬ (w * i ≤ w * j + k ∧ w * j + k < w * i + w) := by
      rcases Nat.lt_or_gt_of_ne h with h' | h'
      · have := Nat.mul_le_mul_left w (show i + 1 ≤ j from h'); rw [Nat.mul_add] at this; omega
      · have := Nat.mul_le_mul_left w (show j + 1 ≤ i from h'); rw [Nat.mul_add] at this; omega
    rw [if_neg hne, if_neg h, lane_getLsbD _ _ _ _ hk]

/-- Two lanes of w bits within 512. -/
theorem lane_fits (w j n : Nat) (hj : j < n) (hn : w * n ≤ 512) : w * j + w ≤ 512 := by
  have := Nat.mul_le_mul_left w (show j + 1 ≤ n from hj)
  rw [Nat.mul_add] at this
  omega

/-- What an elementwise operation leaves in each lane. -/
theorem lane_mapElems (p : Pred) (gw w : Nat) (f : Nat → Nat) (old : VWord) (n j : Nat) (hj : w * j + w ≤ 512) :
    lane w (mapElems p gw w f old n) j =
      if j < n ∧ govBit p gw j then BitVec.ofNat w (f j) else lane w old j := by
  induction n with
  | zero => simp [mapElems]
  | succ n ih =>
    simp only [mapElems]
    by_cases hg : govBit p gw n
    · rw [if_pos hg, lane_setElem _ _ _ _ _ hj, ih]
      by_cases hnj : n = j
      · subst hnj; simp [hg]
      · have : j < n + 1 ↔ j < n := by omega
        simp [hnj, this]
    · rw [if_neg hg, ih]
      by_cases hnj : n = j
      · subst hnj; simp [hg]
      · have : j < n + 1 ↔ j < n := by omega
        simp [this]

/-- Lanes of 32 or 64 bits are governed by the bit of their own number. -/
theorem govBit_lane (p : Pred) (w j : Nat) (hw : ¬ w < 32) : govBit p w j = p.getLsbD j := by simp [govBit, hw]

/-- An integer type is 32 or 64 bits wide. -/
theorem IntTy.width_cases (t : IntTy) : IntTy.width t = 32 ∨ IntTy.width t = 64 := by cases t <;> simp [IntTy.width]

theorem IntTy.width_not_lt (t : IntTy) : ¬ IntTy.width t < 32 := by cases t <;> simp [IntTy.width]

/-- SAT in an elementwise operation: the union over the active lanes. -/
theorem elemFlags_sat (p : Pred) (w : Nat) (hw : ¬ w < 32) (b : Nat → Bool) (n : Nat) :
    elemFlags p w (fun j => if b j then flagSAT else 0) n =
      if (List.range n).any (fun j => p.getLsbD j && b j) then flagSAT else 0 := by
  induction n with
  | zero => simp [elemFlags]
  | succ n ih =>
    simp only [elemFlags, ih, govBit_lane p w n hw, List.range_succ, List.any_append, List.any_cons, List.any_nil,
      Bool.or_false]
    cases (List.range n).any (fun j => p.getLsbD j && b j) <;> cases p.getLsbD n <;> cases b n <;> simp

/-- The operation on whole threads that a vector integer instruction is. -/
theorem intVector_spec (s : State) (t : IntTy) (d a b : BitVec 5) (p : BitVec 3)
    (f : Nat → Nat → Nat → Nat → Nat × Flags) :
    s.intVector t d a b p f = s.onThr fun u =>
      let w := IntTy.width t
      let r (j : Nat) := f w (elem (u.rv a) w j) (elem (u.rv b) w j) (elem (u.rv d) w j)
      ((u.wv d (mapElems (u.rp p) w w (fun j => (r j).1) (u.rv d) (512 / w))).raise
        (elemFlags (u.rp p) w (fun j => (r j).2) (512 / w))).advance := rfl

/-- Raising no flag changes nothing. -/
theorem Thread.raise_zero (t : Thread) : t.raise 0 = t := by simp [Thread.raise]

theorem Thread.raise_if (t : Thread) (b : Bool) : t.raise (if b then flagSAT else 0) = t.satIf b := by
  cases b
  · exact t.raise_zero
  · rfl

/-- The signed reading of a value's number. -/
theorem signedOf_toInt (w : Nat) (hw : 0 < w) (x : BitVec w) : signedOf w x.toNat = x.toInt := by
  have h := x.isLt
  have h2 : 2 ^ w = 2 * 2 ^ (w - 1) := by rw [← Nat.pow_succ']; congr 1; omega
  rw [signedOf, BitVec.toInt_eq_toNat_cond, Nat.mod_eq_of_lt h]
  split <;> split <;> omega

/-- An integer narrowed is the number of its bit vector. -/
theorem narrow_toNat (w : Nat) (v : Int) : narrow w v = (BitVec.ofInt w v).toNat := by simp [narrow, BitVec.toNat_ofInt]

/-- A scalar integer operation completes as `intCompletes` says, if its numbers are those of the bit vectors. -/
theorem intScalar_completes (i : Instr) (s : State) (t : IntTy) (d a b : BitVec 6)
    (g : Nat → Nat → Nat → Nat → Nat × Flags) (f : (w : Nat) → BitVec w → BitVec w → BitVec w → BitVec w × Bool)
    (hi : exec i s = .next (s.intScalar t d a b g))
    (hv : ∀ (x y z : BitVec (IntTy.width t)), g (IntTy.width t) x.toNat y.toNat z.toNat =
      ((f _ x y z).1.toNat, if (f _ x y z).2 then flagSAT else 0)) :
    completes i s fun u =>
      let r := f (IntTy.width t) (u.low _ a) (u.low _ b) (u.low _ d)
      (u.wg d (r.1.signExtend 64)).satIf r.2 := by
  have hl (u : Thread) (x : BitVec 6) : u.intSrc (IntTy.width t) x = (u.low (IntTy.width t) x).toNat := by
    simp [Thread.intSrc, Thread.low]
  have hw (r : BitVec (IntTy.width t)) : intWord (IntTy.width t) r.toNat = r.signExtend 64 := by
    rw [intWord, BitVec.signExtend]
    congr 1
    rcases IntTy.width_cases t with h | h <;>
      simp only [signedOf, BitVec.toInt_eq_toNat_cond, Nat.mod_eq_of_lt r.isLt] <;>
      revert r <;> rw [h] <;> intro r <;> have := r.isLt <;> split <;> split <;> first | rfl | omega
  rw [completes, hi, State.intScalar]
  congr 2
  funext u
  simp only [hl, hv, hw, Thread.raise_if]

/-- The same for the vector form. -/
theorem intVector_completes (i : Instr) (s : State) (t : IntTy) (d a b : BitVec 5) (p : BitVec 3)
    (g : Nat → Nat → Nat → Nat → Nat × Flags) (f : (w : Nat) → BitVec w → BitVec w → BitVec w → BitVec w × Bool)
    (hi : exec i s = .next (s.intVector t d a b p g))
    (hv : ∀ (x y z : BitVec (IntTy.width t)), g (IntTy.width t) x.toNat y.toNat z.toNat =
      ((f _ x y z).1.toNat, if (f _ x y z).2 then flagSAT else 0)) :
    lanesComplete i s (IntTy.width t) d p fun j =>
      f (IntTy.width t) (lane _ (s.thr.rv a) j) (lane _ (s.thr.rv b) j) (lane _ (s.thr.rv d) j) := by
  refine ⟨mapElems (s.thr.rp p) (IntTy.width t) (IntTy.width t)
    (fun j => (f (IntTy.width t) (lane _ (s.thr.rv a) j) (lane _ (s.thr.rv b) j) (lane _ (s.thr.rv d) j)).1.toNat)
    (s.thr.rv d) (512 / IntTy.width t), ?_, ?_⟩
  · rw [completes, hi, intVector_spec]
    simp only [State.onThr, elem_eq_lane, hv, elemFlags_sat _ _ (IntTy.width_not_lt t), Thread.raise_if]
  · intro j hj
    have hb : IntTy.width t * j + IntTy.width t ≤ 512 :=
      lane_fits _ _ _ hj (by rcases IntTy.width_cases t with h | h <;> rw [h])
    rw [lane_mapElems _ _ _ _ _ _ _ hb, govBit_lane _ _ _ (IntTy.width_not_lt t)]
    by_cases hp : (s.thr.rp p).getLsbD j <;> simp [hp, hj]

/-- An integer operation completes in both forms, if its numbers are those of the bit vectors. -/
theorem intCompletes_of {scalar : IntTy → BitVec 6 → BitVec 6 → BitVec 6 → Instr}
    {vector : IntTy → BitVec 5 → BitVec 5 → BitVec 5 → BitVec 3 → Instr}
    {f : (w : Nat) → BitVec w → BitVec w → BitVec w → BitVec w × Bool} (g : Nat → Nat → Nat → Nat → Nat × Flags)
    (hs : ∀ t d a b s, exec (scalar t d a b) s = .next (s.intScalar t d a b g))
    (hv : ∀ t d a b p s, exec (vector t d a b p) s = .next (s.intVector t d a b p g))
    (hg : ∀ (w : Nat), w = 32 ∨ w = 64 → ∀ (x y z : BitVec w),
      g w x.toNat y.toNat z.toNat = ((f w x y z).1.toNat, if (f w x y z).2 then flagSAT else 0)) :
    intCompletes scalar vector f :=
  ⟨fun t d a b s => intScalar_completes _ s t d a b g f (hs t d a b s) (hg _ (IntTy.width_cases t)),
   fun t d a b p s => intVector_completes _ s t d a b p g f (hv t d a b p s) (hg _ (IntTy.width_cases t))⟩

end Sys2Proof.Machine
end

