-- ==== Sys2Proof/Laws/State.lean ====
section
/-! SUPPORT. What each small update of a thread or of the state changes, field by field: the updates that every meaning is built
from. The lemmas are simp lemmas, so that no proof unfolds a record update. -/

namespace Sys2Proof.Machine

open Sys2Proof

/-! ## Updates of a thread -/

/-! `Thread.wg` -/

@[simp] theorem Thread.wg_key (t : Thread) (i : BitVec 6) (x : Word) : (t.wg i x).key = t.key := by unfold Thread.wg; split <;> rfl
@[simp] theorem Thread.wg_role (t : Thread) (i : BitVec 6) (x : Word) : (t.wg i x).role = t.role := by unfold Thread.wg; split <;> rfl
@[simp] theorem Thread.wg_view (t : Thread) (i : BitVec 6) (x : Word) : (t.wg i x).view = t.view := by unfold Thread.wg; split <;> rfl
@[simp] theorem Thread.wg_status (t : Thread) (i : BitVec 6) (x : Word) : (t.wg i x).status = t.status := by unfold Thread.wg; split <;> rfl
@[simp] theorem Thread.wg_wait (t : Thread) (i : BitVec 6) (x : Word) : (t.wg i x).wait = t.wait := by unfold Thread.wg; split <;> rfl
@[simp] theorem Thread.wg_grant (t : Thread) (i : BitVec 6) (x : Word) : (t.wg i x).grant = t.grant := by unfold Thread.wg; split <;> rfl
@[simp] theorem Thread.wg_grantTrap (t : Thread) (i : BitVec 6) (x : Word) : (t.wg i x).grantTrap = t.grantTrap := by unfold Thread.wg; split <;> rfl
@[simp] theorem Thread.wg_pc (t : Thread) (i : BitVec 6) (x : Word) : (t.wg i x).pc = t.pc := by unfold Thread.wg; split <;> rfl
@[simp] theorem Thread.wg_v (t : Thread) (i : BitVec 6) (x : Word) : (t.wg i x).v = t.v := by unfold Thread.wg; split <;> rfl
@[simp] theorem Thread.wg_p (t : Thread) (i : BitVec 6) (x : Word) : (t.wg i x).p = t.p := by unfold Thread.wg; split <;> rfl
@[simp] theorem Thread.wg_segs (t : Thread) (i : BitVec 6) (x : Word) : (t.wg i x).segs = t.segs := by unfold Thread.wg; split <;> rfl
@[simp] theorem Thread.wg_nthr (t : Thread) (i : BitVec 6) (x : Word) : (t.wg i x).nthr = t.nthr := by unfold Thread.wg; split <;> rfl
@[simp] theorem Thread.wg_cx (t : Thread) (i : BitVec 6) (x : Word) : (t.wg i x).cx = t.cx := by unfold Thread.wg; split <;> rfl
@[simp] theorem Thread.wg_cy (t : Thread) (i : BitVec 6) (x : Word) : (t.wg i x).cy = t.cy := by unfold Thread.wg; split <;> rfl
@[simp] theorem Thread.wg_stage (t : Thread) (i : BitVec 6) (x : Word) : (t.wg i x).stage = t.stage := by unfold Thread.wg; split <;> rfl
@[simp] theorem Thread.wg_ncx (t : Thread) (i : BitVec 6) (x : Word) : (t.wg i x).ncx = t.ncx := by unfold Thread.wg; split <;> rfl
@[simp] theorem Thread.wg_ncy (t : Thread) (i : BitVec 6) (x : Word) : (t.wg i x).ncy = t.ncy := by unfold Thread.wg; split <;> rfl
@[simp] theorem Thread.wg_nstage (t : Thread) (i : BitVec 6) (x : Word) : (t.wg i x).nstage = t.nstage := by unfold Thread.wg; split <;> rfl
@[simp] theorem Thread.wg_queue (t : Thread) (i : BitVec 6) (x : Word) : (t.wg i x).queue = t.queue := by unfold Thread.wg; split <;> rfl
@[simp] theorem Thread.wg_prio (t : Thread) (i : BitVec 6) (x : Word) : (t.wg i x).prio = t.prio := by unfold Thread.wg; split <;> rfl
@[simp] theorem Thread.wg_args (t : Thread) (i : BitVec 6) (x : Word) : (t.wg i x).args = t.args := by unfold Thread.wg; split <;> rfl
@[simp] theorem Thread.wg_fmt (t : Thread) (i : BitVec 6) (x : Word) : (t.wg i x).fmt = t.fmt := by unfold Thread.wg; split <;> rfl
@[simp] theorem Thread.wg_scl (t : Thread) (i : BitVec 6) (x : Word) : (t.wg i x).scl = t.scl := by unfold Thread.wg; split <;> rfl
@[simp] theorem Thread.wg_flags (t : Thread) (i : BitVec 6) (x : Word) : (t.wg i x).flags = t.flags := by unfold Thread.wg; split <;> rfl
@[simp] theorem Thread.wg_srkey (t : Thread) (i : BitVec 6) (x : Word) : (t.wg i x).srkey = t.srkey := by unfold Thread.wg; split <;> rfl
@[simp] theorem Thread.wg_srctr (t : Thread) (i : BitVec 6) (x : Word) : (t.wg i x).srctr = t.srctr := by unfold Thread.wg; split <;> rfl
@[simp] theorem Thread.wg_tvec (t : Thread) (i : BitVec 6) (x : Word) : (t.wg i x).tvec = t.tvec := by unfold Thread.wg; split <;> rfl
@[simp] theorem Thread.wg_tpc (t : Thread) (i : BitVec 6) (x : Word) : (t.wg i x).tpc = t.tpc := by unfold Thread.wg; split <;> rfl
@[simp] theorem Thread.wg_tcause (t : Thread) (i : BitVec 6) (x : Word) : (t.wg i x).tcause = t.tcause := by unfold Thread.wg; split <;> rfl
@[simp] theorem Thread.wg_tinfo0 (t : Thread) (i : BitVec 6) (x : Word) : (t.wg i x).tinfo0 = t.tinfo0 := by unfold Thread.wg; split <;> rfl
@[simp] theorem Thread.wg_tinfo1 (t : Thread) (i : BitVec 6) (x : Word) : (t.wg i x).tinfo1 = t.tinfo1 := by unfold Thread.wg; split <;> rfl
@[simp] theorem Thread.wg_rcto (t : Thread) (i : BitVec 6) (x : Word) : (t.wg i x).rcto = t.rcto := by unfold Thread.wg; split <;> rfl
@[simp] theorem Thread.wg_inbox (t : Thread) (i : BitVec 6) (x : Word) : (t.wg i x).inbox = t.inbox := by unfold Thread.wg; split <;> rfl
@[simp] theorem Thread.wg_htab (t : Thread) (i : BitVec 6) (x : Word) : (t.wg i x).htab = t.htab := by unfold Thread.wg; split <;> rfl
@[simp] theorem Thread.wg_hstate (t : Thread) (i : BitVec 6) (x : Word) : (t.wg i x).hstate = t.hstate := by unfold Thread.wg; split <;> rfl
@[simp] theorem Thread.wg_pending (t : Thread) (i : BitVec 6) (x : Word) : (t.wg i x).pending = t.pending := by unfold Thread.wg; split <;> rfl
@[simp] theorem Thread.wg_pendSeq (t : Thread) (i : BitVec 6) (x : Word) : (t.wg i x).pendSeq = t.pendSeq := by unfold Thread.wg; split <;> rfl
@[simp] theorem Thread.wg_replay (t : Thread) (i : BitVec 6) (x : Word) : (t.wg i x).replay = t.replay := by unfold Thread.wg; split <;> rfl
@[simp] theorem Thread.wg_replaying (t : Thread) (i : BitVec 6) (x : Word) : (t.wg i x).replaying = t.replaying := by unfold Thread.wg; split <;> rfl
@[simp] theorem Thread.wg_relFence (t : Thread) (i : BitVec 6) (x : Word) : (t.wg i x).relFence = t.relFence := by unfold Thread.wg; split <;> rfl
@[simp] theorem Thread.wg_pairNow (t : Thread) (i : BitVec 6) (x : Word) : (t.wg i x).pairNow = t.pairNow := by unfold Thread.wg; split <;> rfl
@[simp] theorem Thread.wg_unitEnd (t : Thread) (i : BitVec 6) (x : Word) : (t.wg i x).unitEnd = t.unitEnd := by unfold Thread.wg; split <;> rfl
@[simp] theorem Thread.wg_mfaults (t : Thread) (i : BitVec 6) (x : Word) : (t.wg i x).mfaults = t.mfaults := by unfold Thread.wg; split <;> rfl
@[simp] theorem Thread.wg_mretry (t : Thread) (i : BitVec 6) (x : Word) : (t.wg i x).mretry = t.mretry := by unfold Thread.wg; split <;> rfl
@[simp] theorem Thread.wg_spilling (t : Thread) (i : BitVec 6) (x : Word) : (t.wg i x).spilling = t.spilling := by unfold Thread.wg; split <;> rfl
@[simp] theorem Thread.wg_yielded (t : Thread) (i : BitVec 6) (x : Word) : (t.wg i x).yielded = t.yielded := by unfold Thread.wg; split <;> rfl
@[simp] theorem Thread.wg_freed (t : Thread) (i : BitVec 6) (x : Word) : (t.wg i x).freed = t.freed := by unfold Thread.wg; split <;> rfl
@[simp] theorem Thread.wg_woken (t : Thread) (i : BitVec 6) (x : Word) : (t.wg i x).woken = t.woken := by unfold Thread.wg; split <;> rfl
@[simp] theorem Thread.wg_dbg (t : Thread) (i : BitVec 6) (x : Word) : (t.wg i x).dbg = t.dbg := by unfold Thread.wg; split <;> rfl
@[simp] theorem Thread.wg_budget (t : Thread) (i : BitVec 6) (x : Word) : (t.wg i x).budget = t.budget := by unfold Thread.wg; split <;> rfl
@[simp] theorem Thread.wg_area (t : Thread) (i : BitVec 6) (x : Word) : (t.wg i x).area = t.area := by unfold Thread.wg; split <;> rfl
@[simp] theorem Thread.wg_ended (t : Thread) (i : BitVec 6) (x : Word) : (t.wg i x).ended = t.ended := by unfold Thread.wg; split <;> rfl
@[simp] theorem Thread.wg_last (t : Thread) (i : BitVec 6) (x : Word) : (t.wg i x).last = t.last := by unfold Thread.wg; split <;> rfl

/-! `Thread.wv` -/

@[simp] theorem Thread.wv_key (t : Thread) (i : BitVec 5) (x : VWord) : (t.wv i x).key = t.key := rfl
@[simp] theorem Thread.wv_role (t : Thread) (i : BitVec 5) (x : VWord) : (t.wv i x).role = t.role := rfl
@[simp] theorem Thread.wv_view (t : Thread) (i : BitVec 5) (x : VWord) : (t.wv i x).view = t.view := rfl
@[simp] theorem Thread.wv_status (t : Thread) (i : BitVec 5) (x : VWord) : (t.wv i x).status = t.status := rfl
@[simp] theorem Thread.wv_wait (t : Thread) (i : BitVec 5) (x : VWord) : (t.wv i x).wait = t.wait := rfl
@[simp] theorem Thread.wv_grant (t : Thread) (i : BitVec 5) (x : VWord) : (t.wv i x).grant = t.grant := rfl
@[simp] theorem Thread.wv_grantTrap (t : Thread) (i : BitVec 5) (x : VWord) : (t.wv i x).grantTrap = t.grantTrap := rfl
@[simp] theorem Thread.wv_pc (t : Thread) (i : BitVec 5) (x : VWord) : (t.wv i x).pc = t.pc := rfl
@[simp] theorem Thread.wv_g (t : Thread) (i : BitVec 5) (x : VWord) : (t.wv i x).g = t.g := rfl
@[simp] theorem Thread.wv_v (t : Thread) (i : BitVec 5) (x : VWord) : (t.wv i x).v = t.v.set i.toNat x := rfl
@[simp] theorem Thread.wv_p (t : Thread) (i : BitVec 5) (x : VWord) : (t.wv i x).p = t.p := rfl
@[simp] theorem Thread.wv_segs (t : Thread) (i : BitVec 5) (x : VWord) : (t.wv i x).segs = t.segs := rfl
@[simp] theorem Thread.wv_nthr (t : Thread) (i : BitVec 5) (x : VWord) : (t.wv i x).nthr = t.nthr := rfl
@[simp] theorem Thread.wv_cx (t : Thread) (i : BitVec 5) (x : VWord) : (t.wv i x).cx = t.cx := rfl
@[simp] theorem Thread.wv_cy (t : Thread) (i : BitVec 5) (x : VWord) : (t.wv i x).cy = t.cy := rfl
@[simp] theorem Thread.wv_stage (t : Thread) (i : BitVec 5) (x : VWord) : (t.wv i x).stage = t.stage := rfl
@[simp] theorem Thread.wv_ncx (t : Thread) (i : BitVec 5) (x : VWord) : (t.wv i x).ncx = t.ncx := rfl
@[simp] theorem Thread.wv_ncy (t : Thread) (i : BitVec 5) (x : VWord) : (t.wv i x).ncy = t.ncy := rfl
@[simp] theorem Thread.wv_nstage (t : Thread) (i : BitVec 5) (x : VWord) : (t.wv i x).nstage = t.nstage := rfl
@[simp] theorem Thread.wv_queue (t : Thread) (i : BitVec 5) (x : VWord) : (t.wv i x).queue = t.queue := rfl
@[simp] theorem Thread.wv_prio (t : Thread) (i : BitVec 5) (x : VWord) : (t.wv i x).prio = t.prio := rfl
@[simp] theorem Thread.wv_args (t : Thread) (i : BitVec 5) (x : VWord) : (t.wv i x).args = t.args := rfl
@[simp] theorem Thread.wv_fmt (t : Thread) (i : BitVec 5) (x : VWord) : (t.wv i x).fmt = t.fmt := rfl
@[simp] theorem Thread.wv_scl (t : Thread) (i : BitVec 5) (x : VWord) : (t.wv i x).scl = t.scl := rfl
@[simp] theorem Thread.wv_flags (t : Thread) (i : BitVec 5) (x : VWord) : (t.wv i x).flags = t.flags := rfl
@[simp] theorem Thread.wv_srkey (t : Thread) (i : BitVec 5) (x : VWord) : (t.wv i x).srkey = t.srkey := rfl
@[simp] theorem Thread.wv_srctr (t : Thread) (i : BitVec 5) (x : VWord) : (t.wv i x).srctr = t.srctr := rfl
@[simp] theorem Thread.wv_tvec (t : Thread) (i : BitVec 5) (x : VWord) : (t.wv i x).tvec = t.tvec := rfl
@[simp] theorem Thread.wv_tpc (t : Thread) (i : BitVec 5) (x : VWord) : (t.wv i x).tpc = t.tpc := rfl
@[simp] theorem Thread.wv_tcause (t : Thread) (i : BitVec 5) (x : VWord) : (t.wv i x).tcause = t.tcause := rfl
@[simp] theorem Thread.wv_tinfo0 (t : Thread) (i : BitVec 5) (x : VWord) : (t.wv i x).tinfo0 = t.tinfo0 := rfl
@[simp] theorem Thread.wv_tinfo1 (t : Thread) (i : BitVec 5) (x : VWord) : (t.wv i x).tinfo1 = t.tinfo1 := rfl
@[simp] theorem Thread.wv_rcto (t : Thread) (i : BitVec 5) (x : VWord) : (t.wv i x).rcto = t.rcto := rfl
@[simp] theorem Thread.wv_inbox (t : Thread) (i : BitVec 5) (x : VWord) : (t.wv i x).inbox = t.inbox := rfl
@[simp] theorem Thread.wv_htab (t : Thread) (i : BitVec 5) (x : VWord) : (t.wv i x).htab = t.htab := rfl
@[simp] theorem Thread.wv_hstate (t : Thread) (i : BitVec 5) (x : VWord) : (t.wv i x).hstate = t.hstate := rfl
@[simp] theorem Thread.wv_pending (t : Thread) (i : BitVec 5) (x : VWord) : (t.wv i x).pending = t.pending := rfl
@[simp] theorem Thread.wv_pendSeq (t : Thread) (i : BitVec 5) (x : VWord) : (t.wv i x).pendSeq = t.pendSeq := rfl
@[simp] theorem Thread.wv_replay (t : Thread) (i : BitVec 5) (x : VWord) : (t.wv i x).replay = t.replay := rfl
@[simp] theorem Thread.wv_replaying (t : Thread) (i : BitVec 5) (x : VWord) : (t.wv i x).replaying = t.replaying := rfl
@[simp] theorem Thread.wv_relFence (t : Thread) (i : BitVec 5) (x : VWord) : (t.wv i x).relFence = t.relFence := rfl
@[simp] theorem Thread.wv_pairNow (t : Thread) (i : BitVec 5) (x : VWord) : (t.wv i x).pairNow = t.pairNow := rfl
@[simp] theorem Thread.wv_unitEnd (t : Thread) (i : BitVec 5) (x : VWord) : (t.wv i x).unitEnd = t.unitEnd := rfl
@[simp] theorem Thread.wv_mfaults (t : Thread) (i : BitVec 5) (x : VWord) : (t.wv i x).mfaults = t.mfaults := rfl
@[simp] theorem Thread.wv_mretry (t : Thread) (i : BitVec 5) (x : VWord) : (t.wv i x).mretry = t.mretry := rfl
@[simp] theorem Thread.wv_spilling (t : Thread) (i : BitVec 5) (x : VWord) : (t.wv i x).spilling = t.spilling := rfl
@[simp] theorem Thread.wv_yielded (t : Thread) (i : BitVec 5) (x : VWord) : (t.wv i x).yielded = t.yielded := rfl
@[simp] theorem Thread.wv_freed (t : Thread) (i : BitVec 5) (x : VWord) : (t.wv i x).freed = t.freed := rfl
@[simp] theorem Thread.wv_woken (t : Thread) (i : BitVec 5) (x : VWord) : (t.wv i x).woken = t.woken := rfl
@[simp] theorem Thread.wv_dbg (t : Thread) (i : BitVec 5) (x : VWord) : (t.wv i x).dbg = t.dbg := rfl
@[simp] theorem Thread.wv_budget (t : Thread) (i : BitVec 5) (x : VWord) : (t.wv i x).budget = t.budget := rfl
@[simp] theorem Thread.wv_area (t : Thread) (i : BitVec 5) (x : VWord) : (t.wv i x).area = t.area := rfl
@[simp] theorem Thread.wv_ended (t : Thread) (i : BitVec 5) (x : VWord) : (t.wv i x).ended = t.ended := rfl
@[simp] theorem Thread.wv_last (t : Thread) (i : BitVec 5) (x : VWord) : (t.wv i x).last = t.last := rfl

/-! `Thread.wp` -/

@[simp] theorem Thread.wp_key (t : Thread) (i : BitVec 3) (x : Pred) : (t.wp i x).key = t.key := by unfold Thread.wp; split <;> rfl
@[simp] theorem Thread.wp_role (t : Thread) (i : BitVec 3) (x : Pred) : (t.wp i x).role = t.role := by unfold Thread.wp; split <;> rfl
@[simp] theorem Thread.wp_view (t : Thread) (i : BitVec 3) (x : Pred) : (t.wp i x).view = t.view := by unfold Thread.wp; split <;> rfl
@[simp] theorem Thread.wp_status (t : Thread) (i : BitVec 3) (x : Pred) : (t.wp i x).status = t.status := by unfold Thread.wp; split <;> rfl
@[simp] theorem Thread.wp_wait (t : Thread) (i : BitVec 3) (x : Pred) : (t.wp i x).wait = t.wait := by unfold Thread.wp; split <;> rfl
@[simp] theorem Thread.wp_grant (t : Thread) (i : BitVec 3) (x : Pred) : (t.wp i x).grant = t.grant := by unfold Thread.wp; split <;> rfl
@[simp] theorem Thread.wp_grantTrap (t : Thread) (i : BitVec 3) (x : Pred) : (t.wp i x).grantTrap = t.grantTrap := by unfold Thread.wp; split <;> rfl
@[simp] theorem Thread.wp_pc (t : Thread) (i : BitVec 3) (x : Pred) : (t.wp i x).pc = t.pc := by unfold Thread.wp; split <;> rfl
@[simp] theorem Thread.wp_g (t : Thread) (i : BitVec 3) (x : Pred) : (t.wp i x).g = t.g := by unfold Thread.wp; split <;> rfl
@[simp] theorem Thread.wp_v (t : Thread) (i : BitVec 3) (x : Pred) : (t.wp i x).v = t.v := by unfold Thread.wp; split <;> rfl
@[simp] theorem Thread.wp_segs (t : Thread) (i : BitVec 3) (x : Pred) : (t.wp i x).segs = t.segs := by unfold Thread.wp; split <;> rfl
@[simp] theorem Thread.wp_nthr (t : Thread) (i : BitVec 3) (x : Pred) : (t.wp i x).nthr = t.nthr := by unfold Thread.wp; split <;> rfl
@[simp] theorem Thread.wp_cx (t : Thread) (i : BitVec 3) (x : Pred) : (t.wp i x).cx = t.cx := by unfold Thread.wp; split <;> rfl
@[simp] theorem Thread.wp_cy (t : Thread) (i : BitVec 3) (x : Pred) : (t.wp i x).cy = t.cy := by unfold Thread.wp; split <;> rfl
@[simp] theorem Thread.wp_stage (t : Thread) (i : BitVec 3) (x : Pred) : (t.wp i x).stage = t.stage := by unfold Thread.wp; split <;> rfl
@[simp] theorem Thread.wp_ncx (t : Thread) (i : BitVec 3) (x : Pred) : (t.wp i x).ncx = t.ncx := by unfold Thread.wp; split <;> rfl
@[simp] theorem Thread.wp_ncy (t : Thread) (i : BitVec 3) (x : Pred) : (t.wp i x).ncy = t.ncy := by unfold Thread.wp; split <;> rfl
@[simp] theorem Thread.wp_nstage (t : Thread) (i : BitVec 3) (x : Pred) : (t.wp i x).nstage = t.nstage := by unfold Thread.wp; split <;> rfl
@[simp] theorem Thread.wp_queue (t : Thread) (i : BitVec 3) (x : Pred) : (t.wp i x).queue = t.queue := by unfold Thread.wp; split <;> rfl
@[simp] theorem Thread.wp_prio (t : Thread) (i : BitVec 3) (x : Pred) : (t.wp i x).prio = t.prio := by unfold Thread.wp; split <;> rfl
@[simp] theorem Thread.wp_args (t : Thread) (i : BitVec 3) (x : Pred) : (t.wp i x).args = t.args := by unfold Thread.wp; split <;> rfl
@[simp] theorem Thread.wp_fmt (t : Thread) (i : BitVec 3) (x : Pred) : (t.wp i x).fmt = t.fmt := by unfold Thread.wp; split <;> rfl
@[simp] theorem Thread.wp_scl (t : Thread) (i : BitVec 3) (x : Pred) : (t.wp i x).scl = t.scl := by unfold Thread.wp; split <;> rfl
@[simp] theorem Thread.wp_flags (t : Thread) (i : BitVec 3) (x : Pred) : (t.wp i x).flags = t.flags := by unfold Thread.wp; split <;> rfl
@[simp] theorem Thread.wp_srkey (t : Thread) (i : BitVec 3) (x : Pred) : (t.wp i x).srkey = t.srkey := by unfold Thread.wp; split <;> rfl
@[simp] theorem Thread.wp_srctr (t : Thread) (i : BitVec 3) (x : Pred) : (t.wp i x).srctr = t.srctr := by unfold Thread.wp; split <;> rfl
@[simp] theorem Thread.wp_tvec (t : Thread) (i : BitVec 3) (x : Pred) : (t.wp i x).tvec = t.tvec := by unfold Thread.wp; split <;> rfl
@[simp] theorem Thread.wp_tpc (t : Thread) (i : BitVec 3) (x : Pred) : (t.wp i x).tpc = t.tpc := by unfold Thread.wp; split <;> rfl
@[simp] theorem Thread.wp_tcause (t : Thread) (i : BitVec 3) (x : Pred) : (t.wp i x).tcause = t.tcause := by unfold Thread.wp; split <;> rfl
@[simp] theorem Thread.wp_tinfo0 (t : Thread) (i : BitVec 3) (x : Pred) : (t.wp i x).tinfo0 = t.tinfo0 := by unfold Thread.wp; split <;> rfl
@[simp] theorem Thread.wp_tinfo1 (t : Thread) (i : BitVec 3) (x : Pred) : (t.wp i x).tinfo1 = t.tinfo1 := by unfold Thread.wp; split <;> rfl
@[simp] theorem Thread.wp_rcto (t : Thread) (i : BitVec 3) (x : Pred) : (t.wp i x).rcto = t.rcto := by unfold Thread.wp; split <;> rfl
@[simp] theorem Thread.wp_inbox (t : Thread) (i : BitVec 3) (x : Pred) : (t.wp i x).inbox = t.inbox := by unfold Thread.wp; split <;> rfl
@[simp] theorem Thread.wp_htab (t : Thread) (i : BitVec 3) (x : Pred) : (t.wp i x).htab = t.htab := by unfold Thread.wp; split <;> rfl
@[simp] theorem Thread.wp_hstate (t : Thread) (i : BitVec 3) (x : Pred) : (t.wp i x).hstate = t.hstate := by unfold Thread.wp; split <;> rfl
@[simp] theorem Thread.wp_pending (t : Thread) (i : BitVec 3) (x : Pred) : (t.wp i x).pending = t.pending := by unfold Thread.wp; split <;> rfl
@[simp] theorem Thread.wp_pendSeq (t : Thread) (i : BitVec 3) (x : Pred) : (t.wp i x).pendSeq = t.pendSeq := by unfold Thread.wp; split <;> rfl
@[simp] theorem Thread.wp_replay (t : Thread) (i : BitVec 3) (x : Pred) : (t.wp i x).replay = t.replay := by unfold Thread.wp; split <;> rfl
@[simp] theorem Thread.wp_replaying (t : Thread) (i : BitVec 3) (x : Pred) : (t.wp i x).replaying = t.replaying := by unfold Thread.wp; split <;> rfl
@[simp] theorem Thread.wp_relFence (t : Thread) (i : BitVec 3) (x : Pred) : (t.wp i x).relFence = t.relFence := by unfold Thread.wp; split <;> rfl
@[simp] theorem Thread.wp_pairNow (t : Thread) (i : BitVec 3) (x : Pred) : (t.wp i x).pairNow = t.pairNow := by unfold Thread.wp; split <;> rfl
@[simp] theorem Thread.wp_unitEnd (t : Thread) (i : BitVec 3) (x : Pred) : (t.wp i x).unitEnd = t.unitEnd := by unfold Thread.wp; split <;> rfl
@[simp] theorem Thread.wp_mfaults (t : Thread) (i : BitVec 3) (x : Pred) : (t.wp i x).mfaults = t.mfaults := by unfold Thread.wp; split <;> rfl
@[simp] theorem Thread.wp_mretry (t : Thread) (i : BitVec 3) (x : Pred) : (t.wp i x).mretry = t.mretry := by unfold Thread.wp; split <;> rfl
@[simp] theorem Thread.wp_spilling (t : Thread) (i : BitVec 3) (x : Pred) : (t.wp i x).spilling = t.spilling := by unfold Thread.wp; split <;> rfl
@[simp] theorem Thread.wp_yielded (t : Thread) (i : BitVec 3) (x : Pred) : (t.wp i x).yielded = t.yielded := by unfold Thread.wp; split <;> rfl
@[simp] theorem Thread.wp_freed (t : Thread) (i : BitVec 3) (x : Pred) : (t.wp i x).freed = t.freed := by unfold Thread.wp; split <;> rfl
@[simp] theorem Thread.wp_woken (t : Thread) (i : BitVec 3) (x : Pred) : (t.wp i x).woken = t.woken := by unfold Thread.wp; split <;> rfl
@[simp] theorem Thread.wp_dbg (t : Thread) (i : BitVec 3) (x : Pred) : (t.wp i x).dbg = t.dbg := by unfold Thread.wp; split <;> rfl
@[simp] theorem Thread.wp_budget (t : Thread) (i : BitVec 3) (x : Pred) : (t.wp i x).budget = t.budget := by unfold Thread.wp; split <;> rfl
@[simp] theorem Thread.wp_area (t : Thread) (i : BitVec 3) (x : Pred) : (t.wp i x).area = t.area := by unfold Thread.wp; split <;> rfl
@[simp] theorem Thread.wp_ended (t : Thread) (i : BitVec 3) (x : Pred) : (t.wp i x).ended = t.ended := by unfold Thread.wp; split <;> rfl
@[simp] theorem Thread.wp_last (t : Thread) (i : BitVec 3) (x : Pred) : (t.wp i x).last = t.last := by unfold Thread.wp; split <;> rfl

/-! `Thread.wseg` -/

@[simp] theorem Thread.wseg_key (t : Thread) (i : BitVec 3) (x : Seg) : (t.wseg i x).key = t.key := rfl
@[simp] theorem Thread.wseg_role (t : Thread) (i : BitVec 3) (x : Seg) : (t.wseg i x).role = t.role := rfl
@[simp] theorem Thread.wseg_view (t : Thread) (i : BitVec 3) (x : Seg) : (t.wseg i x).view = t.view := rfl
@[simp] theorem Thread.wseg_status (t : Thread) (i : BitVec 3) (x : Seg) : (t.wseg i x).status = t.status := rfl
@[simp] theorem Thread.wseg_wait (t : Thread) (i : BitVec 3) (x : Seg) : (t.wseg i x).wait = t.wait := rfl
@[simp] theorem Thread.wseg_grant (t : Thread) (i : BitVec 3) (x : Seg) : (t.wseg i x).grant = t.grant := rfl
@[simp] theorem Thread.wseg_grantTrap (t : Thread) (i : BitVec 3) (x : Seg) : (t.wseg i x).grantTrap = t.grantTrap := rfl
@[simp] theorem Thread.wseg_pc (t : Thread) (i : BitVec 3) (x : Seg) : (t.wseg i x).pc = t.pc := rfl
@[simp] theorem Thread.wseg_g (t : Thread) (i : BitVec 3) (x : Seg) : (t.wseg i x).g = t.g := rfl
@[simp] theorem Thread.wseg_v (t : Thread) (i : BitVec 3) (x : Seg) : (t.wseg i x).v = t.v := rfl
@[simp] theorem Thread.wseg_p (t : Thread) (i : BitVec 3) (x : Seg) : (t.wseg i x).p = t.p := rfl
@[simp] theorem Thread.wseg_segs (t : Thread) (i : BitVec 3) (x : Seg) : (t.wseg i x).segs = t.segs.set i.toNat x := rfl
@[simp] theorem Thread.wseg_nthr (t : Thread) (i : BitVec 3) (x : Seg) : (t.wseg i x).nthr = t.nthr := rfl
@[simp] theorem Thread.wseg_cx (t : Thread) (i : BitVec 3) (x : Seg) : (t.wseg i x).cx = t.cx := rfl
@[simp] theorem Thread.wseg_cy (t : Thread) (i : BitVec 3) (x : Seg) : (t.wseg i x).cy = t.cy := rfl
@[simp] theorem Thread.wseg_stage (t : Thread) (i : BitVec 3) (x : Seg) : (t.wseg i x).stage = t.stage := rfl
@[simp] theorem Thread.wseg_ncx (t : Thread) (i : BitVec 3) (x : Seg) : (t.wseg i x).ncx = t.ncx := rfl
@[simp] theorem Thread.wseg_ncy (t : Thread) (i : BitVec 3) (x : Seg) : (t.wseg i x).ncy = t.ncy := rfl
@[simp] theorem Thread.wseg_nstage (t : Thread) (i : BitVec 3) (x : Seg) : (t.wseg i x).nstage = t.nstage := rfl
@[simp] theorem Thread.wseg_queue (t : Thread) (i : BitVec 3) (x : Seg) : (t.wseg i x).queue = t.queue := rfl
@[simp] theorem Thread.wseg_prio (t : Thread) (i : BitVec 3) (x : Seg) : (t.wseg i x).prio = t.prio := rfl
@[simp] theorem Thread.wseg_args (t : Thread) (i : BitVec 3) (x : Seg) : (t.wseg i x).args = t.args := rfl
@[simp] theorem Thread.wseg_fmt (t : Thread) (i : BitVec 3) (x : Seg) : (t.wseg i x).fmt = t.fmt := rfl
@[simp] theorem Thread.wseg_scl (t : Thread) (i : BitVec 3) (x : Seg) : (t.wseg i x).scl = t.scl := rfl
@[simp] theorem Thread.wseg_flags (t : Thread) (i : BitVec 3) (x : Seg) : (t.wseg i x).flags = t.flags := rfl
@[simp] theorem Thread.wseg_srkey (t : Thread) (i : BitVec 3) (x : Seg) : (t.wseg i x).srkey = t.srkey := rfl
@[simp] theorem Thread.wseg_srctr (t : Thread) (i : BitVec 3) (x : Seg) : (t.wseg i x).srctr = t.srctr := rfl
@[simp] theorem Thread.wseg_tvec (t : Thread) (i : BitVec 3) (x : Seg) : (t.wseg i x).tvec = t.tvec := rfl
@[simp] theorem Thread.wseg_tpc (t : Thread) (i : BitVec 3) (x : Seg) : (t.wseg i x).tpc = t.tpc := rfl
@[simp] theorem Thread.wseg_tcause (t : Thread) (i : BitVec 3) (x : Seg) : (t.wseg i x).tcause = t.tcause := rfl
@[simp] theorem Thread.wseg_tinfo0 (t : Thread) (i : BitVec 3) (x : Seg) : (t.wseg i x).tinfo0 = t.tinfo0 := rfl
@[simp] theorem Thread.wseg_tinfo1 (t : Thread) (i : BitVec 3) (x : Seg) : (t.wseg i x).tinfo1 = t.tinfo1 := rfl
@[simp] theorem Thread.wseg_rcto (t : Thread) (i : BitVec 3) (x : Seg) : (t.wseg i x).rcto = t.rcto := rfl
@[simp] theorem Thread.wseg_inbox (t : Thread) (i : BitVec 3) (x : Seg) : (t.wseg i x).inbox = t.inbox := rfl
@[simp] theorem Thread.wseg_htab (t : Thread) (i : BitVec 3) (x : Seg) : (t.wseg i x).htab = t.htab := rfl
@[simp] theorem Thread.wseg_hstate (t : Thread) (i : BitVec 3) (x : Seg) : (t.wseg i x).hstate = t.hstate := rfl
@[simp] theorem Thread.wseg_pending (t : Thread) (i : BitVec 3) (x : Seg) : (t.wseg i x).pending = t.pending := rfl
@[simp] theorem Thread.wseg_pendSeq (t : Thread) (i : BitVec 3) (x : Seg) : (t.wseg i x).pendSeq = t.pendSeq := rfl
@[simp] theorem Thread.wseg_replay (t : Thread) (i : BitVec 3) (x : Seg) : (t.wseg i x).replay = t.replay := rfl
@[simp] theorem Thread.wseg_replaying (t : Thread) (i : BitVec 3) (x : Seg) : (t.wseg i x).replaying = t.replaying := rfl
@[simp] theorem Thread.wseg_relFence (t : Thread) (i : BitVec 3) (x : Seg) : (t.wseg i x).relFence = t.relFence := rfl
@[simp] theorem Thread.wseg_pairNow (t : Thread) (i : BitVec 3) (x : Seg) : (t.wseg i x).pairNow = t.pairNow := rfl
@[simp] theorem Thread.wseg_unitEnd (t : Thread) (i : BitVec 3) (x : Seg) : (t.wseg i x).unitEnd = t.unitEnd := rfl
@[simp] theorem Thread.wseg_mfaults (t : Thread) (i : BitVec 3) (x : Seg) : (t.wseg i x).mfaults = t.mfaults := rfl
@[simp] theorem Thread.wseg_mretry (t : Thread) (i : BitVec 3) (x : Seg) : (t.wseg i x).mretry = t.mretry := rfl
@[simp] theorem Thread.wseg_spilling (t : Thread) (i : BitVec 3) (x : Seg) : (t.wseg i x).spilling = t.spilling := rfl
@[simp] theorem Thread.wseg_yielded (t : Thread) (i : BitVec 3) (x : Seg) : (t.wseg i x).yielded = t.yielded := rfl
@[simp] theorem Thread.wseg_freed (t : Thread) (i : BitVec 3) (x : Seg) : (t.wseg i x).freed = t.freed := rfl
@[simp] theorem Thread.wseg_woken (t : Thread) (i : BitVec 3) (x : Seg) : (t.wseg i x).woken = t.woken := rfl
@[simp] theorem Thread.wseg_dbg (t : Thread) (i : BitVec 3) (x : Seg) : (t.wseg i x).dbg = t.dbg := rfl
@[simp] theorem Thread.wseg_budget (t : Thread) (i : BitVec 3) (x : Seg) : (t.wseg i x).budget = t.budget := rfl
@[simp] theorem Thread.wseg_area (t : Thread) (i : BitVec 3) (x : Seg) : (t.wseg i x).area = t.area := rfl
@[simp] theorem Thread.wseg_ended (t : Thread) (i : BitVec 3) (x : Seg) : (t.wseg i x).ended = t.ended := rfl
@[simp] theorem Thread.wseg_last (t : Thread) (i : BitVec 3) (x : Seg) : (t.wseg i x).last = t.last := rfl

/-! `Thread.goto` -/

@[simp] theorem Thread.goto_key (t : Thread) (a : BitVec 52) : (t.goto a).key = t.key := rfl
@[simp] theorem Thread.goto_role (t : Thread) (a : BitVec 52) : (t.goto a).role = t.role := rfl
@[simp] theorem Thread.goto_view (t : Thread) (a : BitVec 52) : (t.goto a).view = t.view := rfl
@[simp] theorem Thread.goto_status (t : Thread) (a : BitVec 52) : (t.goto a).status = t.status := rfl
@[simp] theorem Thread.goto_wait (t : Thread) (a : BitVec 52) : (t.goto a).wait = t.wait := rfl
@[simp] theorem Thread.goto_grant (t : Thread) (a : BitVec 52) : (t.goto a).grant = none := rfl
@[simp] theorem Thread.goto_grantTrap (t : Thread) (a : BitVec 52) : (t.goto a).grantTrap = t.grantTrap := rfl
@[simp] theorem Thread.goto_pc (t : Thread) (a : BitVec 52) : (t.goto a).pc = a := rfl
@[simp] theorem Thread.goto_g (t : Thread) (a : BitVec 52) : (t.goto a).g = t.g := rfl
@[simp] theorem Thread.goto_v (t : Thread) (a : BitVec 52) : (t.goto a).v = t.v := rfl
@[simp] theorem Thread.goto_p (t : Thread) (a : BitVec 52) : (t.goto a).p = t.p := rfl
@[simp] theorem Thread.goto_segs (t : Thread) (a : BitVec 52) : (t.goto a).segs = t.segs := rfl
@[simp] theorem Thread.goto_nthr (t : Thread) (a : BitVec 52) : (t.goto a).nthr = t.nthr := rfl
@[simp] theorem Thread.goto_cx (t : Thread) (a : BitVec 52) : (t.goto a).cx = t.cx := rfl
@[simp] theorem Thread.goto_cy (t : Thread) (a : BitVec 52) : (t.goto a).cy = t.cy := rfl
@[simp] theorem Thread.goto_stage (t : Thread) (a : BitVec 52) : (t.goto a).stage = t.stage := rfl
@[simp] theorem Thread.goto_ncx (t : Thread) (a : BitVec 52) : (t.goto a).ncx = t.ncx := rfl
@[simp] theorem Thread.goto_ncy (t : Thread) (a : BitVec 52) : (t.goto a).ncy = t.ncy := rfl
@[simp] theorem Thread.goto_nstage (t : Thread) (a : BitVec 52) : (t.goto a).nstage = t.nstage := rfl
@[simp] theorem Thread.goto_queue (t : Thread) (a : BitVec 52) : (t.goto a).queue = t.queue := rfl
@[simp] theorem Thread.goto_prio (t : Thread) (a : BitVec 52) : (t.goto a).prio = t.prio := rfl
@[simp] theorem Thread.goto_args (t : Thread) (a : BitVec 52) : (t.goto a).args = t.args := rfl
@[simp] theorem Thread.goto_fmt (t : Thread) (a : BitVec 52) : (t.goto a).fmt = t.fmt := rfl
@[simp] theorem Thread.goto_scl (t : Thread) (a : BitVec 52) : (t.goto a).scl = t.scl := rfl
@[simp] theorem Thread.goto_flags (t : Thread) (a : BitVec 52) : (t.goto a).flags = t.flags := rfl
@[simp] theorem Thread.goto_srkey (t : Thread) (a : BitVec 52) : (t.goto a).srkey = t.srkey := rfl
@[simp] theorem Thread.goto_srctr (t : Thread) (a : BitVec 52) : (t.goto a).srctr = t.srctr := rfl
@[simp] theorem Thread.goto_tvec (t : Thread) (a : BitVec 52) : (t.goto a).tvec = t.tvec := rfl
@[simp] theorem Thread.goto_tpc (t : Thread) (a : BitVec 52) : (t.goto a).tpc = t.tpc := rfl
@[simp] theorem Thread.goto_tcause (t : Thread) (a : BitVec 52) : (t.goto a).tcause = t.tcause := rfl
@[simp] theorem Thread.goto_tinfo0 (t : Thread) (a : BitVec 52) : (t.goto a).tinfo0 = t.tinfo0 := rfl
@[simp] theorem Thread.goto_tinfo1 (t : Thread) (a : BitVec 52) : (t.goto a).tinfo1 = t.tinfo1 := rfl
@[simp] theorem Thread.goto_rcto (t : Thread) (a : BitVec 52) : (t.goto a).rcto = t.rcto := rfl
@[simp] theorem Thread.goto_inbox (t : Thread) (a : BitVec 52) : (t.goto a).inbox = t.inbox := rfl
@[simp] theorem Thread.goto_htab (t : Thread) (a : BitVec 52) : (t.goto a).htab = t.htab := rfl
@[simp] theorem Thread.goto_hstate (t : Thread) (a : BitVec 52) : (t.goto a).hstate = t.hstate := rfl
@[simp] theorem Thread.goto_pending (t : Thread) (a : BitVec 52) : (t.goto a).pending = t.pending := rfl
@[simp] theorem Thread.goto_pendSeq (t : Thread) (a : BitVec 52) : (t.goto a).pendSeq = t.pendSeq := rfl
@[simp] theorem Thread.goto_replay (t : Thread) (a : BitVec 52) : (t.goto a).replay = t.replay := rfl
@[simp] theorem Thread.goto_replaying (t : Thread) (a : BitVec 52) : (t.goto a).replaying = t.replaying := rfl
@[simp] theorem Thread.goto_relFence (t : Thread) (a : BitVec 52) : (t.goto a).relFence = t.relFence := rfl
@[simp] theorem Thread.goto_pairNow (t : Thread) (a : BitVec 52) : (t.goto a).pairNow = t.pairNow := rfl
@[simp] theorem Thread.goto_unitEnd (t : Thread) (a : BitVec 52) : (t.goto a).unitEnd = .done := rfl
@[simp] theorem Thread.goto_mfaults (t : Thread) (a : BitVec 52) : (t.goto a).mfaults = t.mfaults := rfl
@[simp] theorem Thread.goto_mretry (t : Thread) (a : BitVec 52) : (t.goto a).mretry = t.mretry := rfl
@[simp] theorem Thread.goto_spilling (t : Thread) (a : BitVec 52) : (t.goto a).spilling = t.spilling := rfl
@[simp] theorem Thread.goto_yielded (t : Thread) (a : BitVec 52) : (t.goto a).yielded = t.yielded := rfl
@[simp] theorem Thread.goto_freed (t : Thread) (a : BitVec 52) : (t.goto a).freed = t.freed := rfl
@[simp] theorem Thread.goto_woken (t : Thread) (a : BitVec 52) : (t.goto a).woken = t.woken := rfl
@[simp] theorem Thread.goto_dbg (t : Thread) (a : BitVec 52) : (t.goto a).dbg = t.dbg := rfl
@[simp] theorem Thread.goto_budget (t : Thread) (a : BitVec 52) : (t.goto a).budget = t.budget := rfl
@[simp] theorem Thread.goto_area (t : Thread) (a : BitVec 52) : (t.goto a).area = t.area := rfl
@[simp] theorem Thread.goto_ended (t : Thread) (a : BitVec 52) : (t.goto a).ended = t.ended := rfl
@[simp] theorem Thread.goto_last (t : Thread) (a : BitVec 52) : (t.goto a).last = t.last := rfl

/-! `Thread.advance` -/

@[simp] theorem Thread.advance_key (t : Thread) : (t.advance).key = t.key := rfl
@[simp] theorem Thread.advance_role (t : Thread) : (t.advance).role = t.role := rfl
@[simp] theorem Thread.advance_view (t : Thread) : (t.advance).view = t.view := rfl
@[simp] theorem Thread.advance_status (t : Thread) : (t.advance).status = t.status := rfl
@[simp] theorem Thread.advance_wait (t : Thread) : (t.advance).wait = t.wait := rfl
@[simp] theorem Thread.advance_grant (t : Thread) : (t.advance).grant = none := rfl
@[simp] theorem Thread.advance_grantTrap (t : Thread) : (t.advance).grantTrap = t.grantTrap := rfl
@[simp] theorem Thread.advance_pc (t : Thread) : (t.advance).pc = t.nextPc := rfl
@[simp] theorem Thread.advance_g (t : Thread) : (t.advance).g = t.g := rfl
@[simp] theorem Thread.advance_v (t : Thread) : (t.advance).v = t.v := rfl
@[simp] theorem Thread.advance_p (t : Thread) : (t.advance).p = t.p := rfl
@[simp] theorem Thread.advance_segs (t : Thread) : (t.advance).segs = t.segs := rfl
@[simp] theorem Thread.advance_nthr (t : Thread) : (t.advance).nthr = t.nthr := rfl
@[simp] theorem Thread.advance_cx (t : Thread) : (t.advance).cx = t.cx := rfl
@[simp] theorem Thread.advance_cy (t : Thread) : (t.advance).cy = t.cy := rfl
@[simp] theorem Thread.advance_stage (t : Thread) : (t.advance).stage = t.stage := rfl
@[simp] theorem Thread.advance_ncx (t : Thread) : (t.advance).ncx = t.ncx := rfl
@[simp] theorem Thread.advance_ncy (t : Thread) : (t.advance).ncy = t.ncy := rfl
@[simp] theorem Thread.advance_nstage (t : Thread) : (t.advance).nstage = t.nstage := rfl
@[simp] theorem Thread.advance_queue (t : Thread) : (t.advance).queue = t.queue := rfl
@[simp] theorem Thread.advance_prio (t : Thread) : (t.advance).prio = t.prio := rfl
@[simp] theorem Thread.advance_args (t : Thread) : (t.advance).args = t.args := rfl
@[simp] theorem Thread.advance_fmt (t : Thread) : (t.advance).fmt = t.fmt := rfl
@[simp] theorem Thread.advance_scl (t : Thread) : (t.advance).scl = t.scl := rfl
@[simp] theorem Thread.advance_flags (t : Thread) : (t.advance).flags = t.flags := rfl
@[simp] theorem Thread.advance_srkey (t : Thread) : (t.advance).srkey = t.srkey := rfl
@[simp] theorem Thread.advance_srctr (t : Thread) : (t.advance).srctr = t.srctr := rfl
@[simp] theorem Thread.advance_tvec (t : Thread) : (t.advance).tvec = t.tvec := rfl
@[simp] theorem Thread.advance_tpc (t : Thread) : (t.advance).tpc = t.tpc := rfl
@[simp] theorem Thread.advance_tcause (t : Thread) : (t.advance).tcause = t.tcause := rfl
@[simp] theorem Thread.advance_tinfo0 (t : Thread) : (t.advance).tinfo0 = t.tinfo0 := rfl
@[simp] theorem Thread.advance_tinfo1 (t : Thread) : (t.advance).tinfo1 = t.tinfo1 := rfl
@[simp] theorem Thread.advance_rcto (t : Thread) : (t.advance).rcto = t.rcto := rfl
@[simp] theorem Thread.advance_inbox (t : Thread) : (t.advance).inbox = t.inbox := rfl
@[simp] theorem Thread.advance_htab (t : Thread) : (t.advance).htab = t.htab := rfl
@[simp] theorem Thread.advance_hstate (t : Thread) : (t.advance).hstate = t.hstate := rfl
@[simp] theorem Thread.advance_pending (t : Thread) : (t.advance).pending = t.pending := rfl
@[simp] theorem Thread.advance_pendSeq (t : Thread) : (t.advance).pendSeq = t.pendSeq := rfl
@[simp] theorem Thread.advance_replay (t : Thread) : (t.advance).replay = t.replay := rfl
@[simp] theorem Thread.advance_replaying (t : Thread) : (t.advance).replaying = t.replaying := rfl
@[simp] theorem Thread.advance_relFence (t : Thread) : (t.advance).relFence = t.relFence := rfl
@[simp] theorem Thread.advance_pairNow (t : Thread) : (t.advance).pairNow = t.pairNow := rfl
@[simp] theorem Thread.advance_unitEnd (t : Thread) : (t.advance).unitEnd = .done := rfl
@[simp] theorem Thread.advance_mfaults (t : Thread) : (t.advance).mfaults = t.mfaults := rfl
@[simp] theorem Thread.advance_mretry (t : Thread) : (t.advance).mretry = t.mretry := rfl
@[simp] theorem Thread.advance_spilling (t : Thread) : (t.advance).spilling = t.spilling := rfl
@[simp] theorem Thread.advance_yielded (t : Thread) : (t.advance).yielded = t.yielded := rfl
@[simp] theorem Thread.advance_freed (t : Thread) : (t.advance).freed = t.freed := rfl
@[simp] theorem Thread.advance_woken (t : Thread) : (t.advance).woken = t.woken := rfl
@[simp] theorem Thread.advance_dbg (t : Thread) : (t.advance).dbg = t.dbg := rfl
@[simp] theorem Thread.advance_budget (t : Thread) : (t.advance).budget = t.budget := rfl
@[simp] theorem Thread.advance_area (t : Thread) : (t.advance).area = t.area := rfl
@[simp] theorem Thread.advance_ended (t : Thread) : (t.advance).ended = t.ended := rfl
@[simp] theorem Thread.advance_last (t : Thread) : (t.advance).last = t.last := rfl

/-! `Thread.hold` -/

@[simp] theorem Thread.hold_key (t : Thread) : (t.hold).key = t.key := rfl
@[simp] theorem Thread.hold_role (t : Thread) : (t.hold).role = t.role := rfl
@[simp] theorem Thread.hold_view (t : Thread) : (t.hold).view = t.view := rfl
@[simp] theorem Thread.hold_status (t : Thread) : (t.hold).status = t.status := rfl
@[simp] theorem Thread.hold_wait (t : Thread) : (t.hold).wait = t.wait := rfl
@[simp] theorem Thread.hold_grant (t : Thread) : (t.hold).grant = t.grant := rfl
@[simp] theorem Thread.hold_grantTrap (t : Thread) : (t.hold).grantTrap = t.grantTrap := rfl
@[simp] theorem Thread.hold_pc (t : Thread) : (t.hold).pc = t.pc := rfl
@[simp] theorem Thread.hold_g (t : Thread) : (t.hold).g = t.g := rfl
@[simp] theorem Thread.hold_v (t : Thread) : (t.hold).v = t.v := rfl
@[simp] theorem Thread.hold_p (t : Thread) : (t.hold).p = t.p := rfl
@[simp] theorem Thread.hold_segs (t : Thread) : (t.hold).segs = t.segs := rfl
@[simp] theorem Thread.hold_nthr (t : Thread) : (t.hold).nthr = t.nthr := rfl
@[simp] theorem Thread.hold_cx (t : Thread) : (t.hold).cx = t.cx := rfl
@[simp] theorem Thread.hold_cy (t : Thread) : (t.hold).cy = t.cy := rfl
@[simp] theorem Thread.hold_stage (t : Thread) : (t.hold).stage = t.stage := rfl
@[simp] theorem Thread.hold_ncx (t : Thread) : (t.hold).ncx = t.ncx := rfl
@[simp] theorem Thread.hold_ncy (t : Thread) : (t.hold).ncy = t.ncy := rfl
@[simp] theorem Thread.hold_nstage (t : Thread) : (t.hold).nstage = t.nstage := rfl
@[simp] theorem Thread.hold_queue (t : Thread) : (t.hold).queue = t.queue := rfl
@[simp] theorem Thread.hold_prio (t : Thread) : (t.hold).prio = t.prio := rfl
@[simp] theorem Thread.hold_args (t : Thread) : (t.hold).args = t.args := rfl
@[simp] theorem Thread.hold_fmt (t : Thread) : (t.hold).fmt = t.fmt := rfl
@[simp] theorem Thread.hold_scl (t : Thread) : (t.hold).scl = t.scl := rfl
@[simp] theorem Thread.hold_flags (t : Thread) : (t.hold).flags = t.flags := rfl
@[simp] theorem Thread.hold_srkey (t : Thread) : (t.hold).srkey = t.srkey := rfl
@[simp] theorem Thread.hold_srctr (t : Thread) : (t.hold).srctr = t.srctr := rfl
@[simp] theorem Thread.hold_tvec (t : Thread) : (t.hold).tvec = t.tvec := rfl
@[simp] theorem Thread.hold_tpc (t : Thread) : (t.hold).tpc = t.tpc := rfl
@[simp] theorem Thread.hold_tcause (t : Thread) : (t.hold).tcause = t.tcause := rfl
@[simp] theorem Thread.hold_tinfo0 (t : Thread) : (t.hold).tinfo0 = t.tinfo0 := rfl
@[simp] theorem Thread.hold_tinfo1 (t : Thread) : (t.hold).tinfo1 = t.tinfo1 := rfl
@[simp] theorem Thread.hold_rcto (t : Thread) : (t.hold).rcto = t.rcto := rfl
@[simp] theorem Thread.hold_inbox (t : Thread) : (t.hold).inbox = t.inbox := rfl
@[simp] theorem Thread.hold_htab (t : Thread) : (t.hold).htab = t.htab := rfl
@[simp] theorem Thread.hold_hstate (t : Thread) : (t.hold).hstate = t.hstate := rfl
@[simp] theorem Thread.hold_pending (t : Thread) : (t.hold).pending = t.pending := rfl
@[simp] theorem Thread.hold_pendSeq (t : Thread) : (t.hold).pendSeq = t.pendSeq := rfl
@[simp] theorem Thread.hold_replay (t : Thread) : (t.hold).replay = t.replay := rfl
@[simp] theorem Thread.hold_replaying (t : Thread) : (t.hold).replaying = t.replaying := rfl
@[simp] theorem Thread.hold_relFence (t : Thread) : (t.hold).relFence = t.relFence := rfl
@[simp] theorem Thread.hold_pairNow (t : Thread) : (t.hold).pairNow = t.pairNow := rfl
@[simp] theorem Thread.hold_unitEnd (t : Thread) : (t.hold).unitEnd = .held := rfl
@[simp] theorem Thread.hold_mfaults (t : Thread) : (t.hold).mfaults = t.mfaults := rfl
@[simp] theorem Thread.hold_mretry (t : Thread) : (t.hold).mretry = t.mretry := rfl
@[simp] theorem Thread.hold_spilling (t : Thread) : (t.hold).spilling = t.spilling := rfl
@[simp] theorem Thread.hold_yielded (t : Thread) : (t.hold).yielded = t.yielded := rfl
@[simp] theorem Thread.hold_freed (t : Thread) : (t.hold).freed = t.freed := rfl
@[simp] theorem Thread.hold_woken (t : Thread) : (t.hold).woken = t.woken := rfl
@[simp] theorem Thread.hold_dbg (t : Thread) : (t.hold).dbg = t.dbg := rfl
@[simp] theorem Thread.hold_budget (t : Thread) : (t.hold).budget = t.budget := rfl
@[simp] theorem Thread.hold_area (t : Thread) : (t.hold).area = t.area := rfl
@[simp] theorem Thread.hold_ended (t : Thread) : (t.hold).ended = t.ended := rfl
@[simp] theorem Thread.hold_last (t : Thread) : (t.hold).last = t.last := rfl

/-! `Thread.addEntry` -/

@[simp] theorem Thread.addEntry_key (t : Thread) (k : Nat) (q : Bool) (d : Dest) (la : Nat) (w : PendWait) (y m : VWord) (fl : Flags) : (t.addEntry k q d la w y m fl).key = t.key := rfl
@[simp] theorem Thread.addEntry_role (t : Thread) (k : Nat) (q : Bool) (d : Dest) (la : Nat) (w : PendWait) (y m : VWord) (fl : Flags) : (t.addEntry k q d la w y m fl).role = t.role := rfl
@[simp] theorem Thread.addEntry_view (t : Thread) (k : Nat) (q : Bool) (d : Dest) (la : Nat) (w : PendWait) (y m : VWord) (fl : Flags) : (t.addEntry k q d la w y m fl).view = t.view := rfl
@[simp] theorem Thread.addEntry_status (t : Thread) (k : Nat) (q : Bool) (d : Dest) (la : Nat) (w : PendWait) (y m : VWord) (fl : Flags) : (t.addEntry k q d la w y m fl).status = t.status := rfl
@[simp] theorem Thread.addEntry_wait (t : Thread) (k : Nat) (q : Bool) (d : Dest) (la : Nat) (w : PendWait) (y m : VWord) (fl : Flags) : (t.addEntry k q d la w y m fl).wait = t.wait := rfl
@[simp] theorem Thread.addEntry_grant (t : Thread) (k : Nat) (q : Bool) (d : Dest) (la : Nat) (w : PendWait) (y m : VWord) (fl : Flags) : (t.addEntry k q d la w y m fl).grant = t.grant := rfl
@[simp] theorem Thread.addEntry_grantTrap (t : Thread) (k : Nat) (q : Bool) (d : Dest) (la : Nat) (w : PendWait) (y m : VWord) (fl : Flags) : (t.addEntry k q d la w y m fl).grantTrap = t.grantTrap := rfl
@[simp] theorem Thread.addEntry_pc (t : Thread) (k : Nat) (q : Bool) (d : Dest) (la : Nat) (w : PendWait) (y m : VWord) (fl : Flags) : (t.addEntry k q d la w y m fl).pc = t.pc := rfl
@[simp] theorem Thread.addEntry_g (t : Thread) (k : Nat) (q : Bool) (d : Dest) (la : Nat) (w : PendWait) (y m : VWord) (fl : Flags) : (t.addEntry k q d la w y m fl).g = t.g := rfl
@[simp] theorem Thread.addEntry_v (t : Thread) (k : Nat) (q : Bool) (d : Dest) (la : Nat) (w : PendWait) (y m : VWord) (fl : Flags) : (t.addEntry k q d la w y m fl).v = t.v := rfl
@[simp] theorem Thread.addEntry_p (t : Thread) (k : Nat) (q : Bool) (d : Dest) (la : Nat) (w : PendWait) (y m : VWord) (fl : Flags) : (t.addEntry k q d la w y m fl).p = t.p := rfl
@[simp] theorem Thread.addEntry_segs (t : Thread) (k : Nat) (q : Bool) (d : Dest) (la : Nat) (w : PendWait) (y m : VWord) (fl : Flags) : (t.addEntry k q d la w y m fl).segs = t.segs := rfl
@[simp] theorem Thread.addEntry_nthr (t : Thread) (k : Nat) (q : Bool) (d : Dest) (la : Nat) (w : PendWait) (y m : VWord) (fl : Flags) : (t.addEntry k q d la w y m fl).nthr = t.nthr := rfl
@[simp] theorem Thread.addEntry_cx (t : Thread) (k : Nat) (q : Bool) (d : Dest) (la : Nat) (w : PendWait) (y m : VWord) (fl : Flags) : (t.addEntry k q d la w y m fl).cx = t.cx := rfl
@[simp] theorem Thread.addEntry_cy (t : Thread) (k : Nat) (q : Bool) (d : Dest) (la : Nat) (w : PendWait) (y m : VWord) (fl : Flags) : (t.addEntry k q d la w y m fl).cy = t.cy := rfl
@[simp] theorem Thread.addEntry_stage (t : Thread) (k : Nat) (q : Bool) (d : Dest) (la : Nat) (w : PendWait) (y m : VWord) (fl : Flags) : (t.addEntry k q d la w y m fl).stage = t.stage := rfl
@[simp] theorem Thread.addEntry_ncx (t : Thread) (k : Nat) (q : Bool) (d : Dest) (la : Nat) (w : PendWait) (y m : VWord) (fl : Flags) : (t.addEntry k q d la w y m fl).ncx = t.ncx := rfl
@[simp] theorem Thread.addEntry_ncy (t : Thread) (k : Nat) (q : Bool) (d : Dest) (la : Nat) (w : PendWait) (y m : VWord) (fl : Flags) : (t.addEntry k q d la w y m fl).ncy = t.ncy := rfl
@[simp] theorem Thread.addEntry_nstage (t : Thread) (k : Nat) (q : Bool) (d : Dest) (la : Nat) (w : PendWait) (y m : VWord) (fl : Flags) : (t.addEntry k q d la w y m fl).nstage = t.nstage := rfl
@[simp] theorem Thread.addEntry_queue (t : Thread) (k : Nat) (q : Bool) (d : Dest) (la : Nat) (w : PendWait) (y m : VWord) (fl : Flags) : (t.addEntry k q d la w y m fl).queue = t.queue := rfl
@[simp] theorem Thread.addEntry_prio (t : Thread) (k : Nat) (q : Bool) (d : Dest) (la : Nat) (w : PendWait) (y m : VWord) (fl : Flags) : (t.addEntry k q d la w y m fl).prio = t.prio := rfl
@[simp] theorem Thread.addEntry_args (t : Thread) (k : Nat) (q : Bool) (d : Dest) (la : Nat) (w : PendWait) (y m : VWord) (fl : Flags) : (t.addEntry k q d la w y m fl).args = t.args := rfl
@[simp] theorem Thread.addEntry_fmt (t : Thread) (k : Nat) (q : Bool) (d : Dest) (la : Nat) (w : PendWait) (y m : VWord) (fl : Flags) : (t.addEntry k q d la w y m fl).fmt = t.fmt := rfl
@[simp] theorem Thread.addEntry_scl (t : Thread) (k : Nat) (q : Bool) (d : Dest) (la : Nat) (w : PendWait) (y m : VWord) (fl : Flags) : (t.addEntry k q d la w y m fl).scl = t.scl := rfl
@[simp] theorem Thread.addEntry_flags (t : Thread) (k : Nat) (q : Bool) (d : Dest) (la : Nat) (w : PendWait) (y m : VWord) (fl : Flags) : (t.addEntry k q d la w y m fl).flags = t.flags := rfl
@[simp] theorem Thread.addEntry_srkey (t : Thread) (k : Nat) (q : Bool) (d : Dest) (la : Nat) (w : PendWait) (y m : VWord) (fl : Flags) : (t.addEntry k q d la w y m fl).srkey = t.srkey := rfl
@[simp] theorem Thread.addEntry_srctr (t : Thread) (k : Nat) (q : Bool) (d : Dest) (la : Nat) (w : PendWait) (y m : VWord) (fl : Flags) : (t.addEntry k q d la w y m fl).srctr = t.srctr := rfl
@[simp] theorem Thread.addEntry_tvec (t : Thread) (k : Nat) (q : Bool) (d : Dest) (la : Nat) (w : PendWait) (y m : VWord) (fl : Flags) : (t.addEntry k q d la w y m fl).tvec = t.tvec := rfl
@[simp] theorem Thread.addEntry_tpc (t : Thread) (k : Nat) (q : Bool) (d : Dest) (la : Nat) (w : PendWait) (y m : VWord) (fl : Flags) : (t.addEntry k q d la w y m fl).tpc = t.tpc := rfl
@[simp] theorem Thread.addEntry_tcause (t : Thread) (k : Nat) (q : Bool) (d : Dest) (la : Nat) (w : PendWait) (y m : VWord) (fl : Flags) : (t.addEntry k q d la w y m fl).tcause = t.tcause := rfl
@[simp] theorem Thread.addEntry_tinfo0 (t : Thread) (k : Nat) (q : Bool) (d : Dest) (la : Nat) (w : PendWait) (y m : VWord) (fl : Flags) : (t.addEntry k q d la w y m fl).tinfo0 = t.tinfo0 := rfl
@[simp] theorem Thread.addEntry_tinfo1 (t : Thread) (k : Nat) (q : Bool) (d : Dest) (la : Nat) (w : PendWait) (y m : VWord) (fl : Flags) : (t.addEntry k q d la w y m fl).tinfo1 = t.tinfo1 := rfl
@[simp] theorem Thread.addEntry_rcto (t : Thread) (k : Nat) (q : Bool) (d : Dest) (la : Nat) (w : PendWait) (y m : VWord) (fl : Flags) : (t.addEntry k q d la w y m fl).rcto = t.rcto := rfl
@[simp] theorem Thread.addEntry_inbox (t : Thread) (k : Nat) (q : Bool) (d : Dest) (la : Nat) (w : PendWait) (y m : VWord) (fl : Flags) : (t.addEntry k q d la w y m fl).inbox = t.inbox := rfl
@[simp] theorem Thread.addEntry_htab (t : Thread) (k : Nat) (q : Bool) (d : Dest) (la : Nat) (w : PendWait) (y m : VWord) (fl : Flags) : (t.addEntry k q d la w y m fl).htab = t.htab := rfl
@[simp] theorem Thread.addEntry_hstate (t : Thread) (k : Nat) (q : Bool) (d : Dest) (la : Nat) (w : PendWait) (y m : VWord) (fl : Flags) : (t.addEntry k q d la w y m fl).hstate = t.hstate := rfl
@[simp] theorem Thread.addEntry_pending (t : Thread) (k : Nat) (q : Bool) (d : Dest) (la : Nat) (w : PendWait) (y m : VWord) (fl : Flags) : (t.addEntry k q d la w y m fl).pending = t.pending ++ [⟨t.pendSeq, d, la, false, y, m, fl, t.unitPc, w, t.hstate, k, q⟩] := rfl
@[simp] theorem Thread.addEntry_pendSeq (t : Thread) (k : Nat) (q : Bool) (d : Dest) (la : Nat) (w : PendWait) (y m : VWord) (fl : Flags) : (t.addEntry k q d la w y m fl).pendSeq = t.pendSeq + 1 := rfl
@[simp] theorem Thread.addEntry_replay (t : Thread) (k : Nat) (q : Bool) (d : Dest) (la : Nat) (w : PendWait) (y m : VWord) (fl : Flags) : (t.addEntry k q d la w y m fl).replay = t.replay := rfl
@[simp] theorem Thread.addEntry_replaying (t : Thread) (k : Nat) (q : Bool) (d : Dest) (la : Nat) (w : PendWait) (y m : VWord) (fl : Flags) : (t.addEntry k q d la w y m fl).replaying = t.replaying := rfl
@[simp] theorem Thread.addEntry_relFence (t : Thread) (k : Nat) (q : Bool) (d : Dest) (la : Nat) (w : PendWait) (y m : VWord) (fl : Flags) : (t.addEntry k q d la w y m fl).relFence = t.relFence := rfl
@[simp] theorem Thread.addEntry_pairNow (t : Thread) (k : Nat) (q : Bool) (d : Dest) (la : Nat) (w : PendWait) (y m : VWord) (fl : Flags) : (t.addEntry k q d la w y m fl).pairNow = t.pairNow := rfl
@[simp] theorem Thread.addEntry_unitEnd (t : Thread) (k : Nat) (q : Bool) (d : Dest) (la : Nat) (w : PendWait) (y m : VWord) (fl : Flags) : (t.addEntry k q d la w y m fl).unitEnd = t.unitEnd := rfl
@[simp] theorem Thread.addEntry_mfaults (t : Thread) (k : Nat) (q : Bool) (d : Dest) (la : Nat) (w : PendWait) (y m : VWord) (fl : Flags) : (t.addEntry k q d la w y m fl).mfaults = t.mfaults := rfl
@[simp] theorem Thread.addEntry_mretry (t : Thread) (k : Nat) (q : Bool) (d : Dest) (la : Nat) (w : PendWait) (y m : VWord) (fl : Flags) : (t.addEntry k q d la w y m fl).mretry = t.mretry := rfl
@[simp] theorem Thread.addEntry_spilling (t : Thread) (k : Nat) (q : Bool) (d : Dest) (la : Nat) (w : PendWait) (y m : VWord) (fl : Flags) : (t.addEntry k q d la w y m fl).spilling = t.spilling := rfl
@[simp] theorem Thread.addEntry_yielded (t : Thread) (k : Nat) (q : Bool) (d : Dest) (la : Nat) (w : PendWait) (y m : VWord) (fl : Flags) : (t.addEntry k q d la w y m fl).yielded = t.yielded := rfl
@[simp] theorem Thread.addEntry_freed (t : Thread) (k : Nat) (q : Bool) (d : Dest) (la : Nat) (w : PendWait) (y m : VWord) (fl : Flags) : (t.addEntry k q d la w y m fl).freed = t.freed := rfl
@[simp] theorem Thread.addEntry_woken (t : Thread) (k : Nat) (q : Bool) (d : Dest) (la : Nat) (w : PendWait) (y m : VWord) (fl : Flags) : (t.addEntry k q d la w y m fl).woken = t.woken := rfl
@[simp] theorem Thread.addEntry_dbg (t : Thread) (k : Nat) (q : Bool) (d : Dest) (la : Nat) (w : PendWait) (y m : VWord) (fl : Flags) : (t.addEntry k q d la w y m fl).dbg = t.dbg := rfl
@[simp] theorem Thread.addEntry_budget (t : Thread) (k : Nat) (q : Bool) (d : Dest) (la : Nat) (w : PendWait) (y m : VWord) (fl : Flags) : (t.addEntry k q d la w y m fl).budget = t.budget := rfl
@[simp] theorem Thread.addEntry_area (t : Thread) (k : Nat) (q : Bool) (d : Dest) (la : Nat) (w : PendWait) (y m : VWord) (fl : Flags) : (t.addEntry k q d la w y m fl).area = t.area := rfl
@[simp] theorem Thread.addEntry_ended (t : Thread) (k : Nat) (q : Bool) (d : Dest) (la : Nat) (w : PendWait) (y m : VWord) (fl : Flags) : (t.addEntry k q d la w y m fl).ended = t.ended := rfl
@[simp] theorem Thread.addEntry_last (t : Thread) (k : Nat) (q : Bool) (d : Dest) (la : Nat) (w : PendWait) (y m : VWord) (fl : Flags) : (t.addEntry k q d la w y m fl).last = t.last := rfl

/-! `Thread.addPend` -/

@[simp] theorem Thread.addPend_key (t : Thread) (d : Dest) (la : Nat) (w : PendWait) (y m : VWord) (fl : Flags) : (t.addPend d la w y m fl).key = t.key := rfl
@[simp] theorem Thread.addPend_role (t : Thread) (d : Dest) (la : Nat) (w : PendWait) (y m : VWord) (fl : Flags) : (t.addPend d la w y m fl).role = t.role := rfl
@[simp] theorem Thread.addPend_view (t : Thread) (d : Dest) (la : Nat) (w : PendWait) (y m : VWord) (fl : Flags) : (t.addPend d la w y m fl).view = t.view := rfl
@[simp] theorem Thread.addPend_status (t : Thread) (d : Dest) (la : Nat) (w : PendWait) (y m : VWord) (fl : Flags) : (t.addPend d la w y m fl).status = t.status := rfl
@[simp] theorem Thread.addPend_wait (t : Thread) (d : Dest) (la : Nat) (w : PendWait) (y m : VWord) (fl : Flags) : (t.addPend d la w y m fl).wait = t.wait := rfl
@[simp] theorem Thread.addPend_grant (t : Thread) (d : Dest) (la : Nat) (w : PendWait) (y m : VWord) (fl : Flags) : (t.addPend d la w y m fl).grant = t.grant := rfl
@[simp] theorem Thread.addPend_grantTrap (t : Thread) (d : Dest) (la : Nat) (w : PendWait) (y m : VWord) (fl : Flags) : (t.addPend d la w y m fl).grantTrap = t.grantTrap := rfl
@[simp] theorem Thread.addPend_pc (t : Thread) (d : Dest) (la : Nat) (w : PendWait) (y m : VWord) (fl : Flags) : (t.addPend d la w y m fl).pc = t.pc := rfl
@[simp] theorem Thread.addPend_g (t : Thread) (d : Dest) (la : Nat) (w : PendWait) (y m : VWord) (fl : Flags) : (t.addPend d la w y m fl).g = t.g := rfl
@[simp] theorem Thread.addPend_v (t : Thread) (d : Dest) (la : Nat) (w : PendWait) (y m : VWord) (fl : Flags) : (t.addPend d la w y m fl).v = t.v := rfl
@[simp] theorem Thread.addPend_p (t : Thread) (d : Dest) (la : Nat) (w : PendWait) (y m : VWord) (fl : Flags) : (t.addPend d la w y m fl).p = t.p := rfl
@[simp] theorem Thread.addPend_segs (t : Thread) (d : Dest) (la : Nat) (w : PendWait) (y m : VWord) (fl : Flags) : (t.addPend d la w y m fl).segs = t.segs := rfl
@[simp] theorem Thread.addPend_nthr (t : Thread) (d : Dest) (la : Nat) (w : PendWait) (y m : VWord) (fl : Flags) : (t.addPend d la w y m fl).nthr = t.nthr := rfl
@[simp] theorem Thread.addPend_cx (t : Thread) (d : Dest) (la : Nat) (w : PendWait) (y m : VWord) (fl : Flags) : (t.addPend d la w y m fl).cx = t.cx := rfl
@[simp] theorem Thread.addPend_cy (t : Thread) (d : Dest) (la : Nat) (w : PendWait) (y m : VWord) (fl : Flags) : (t.addPend d la w y m fl).cy = t.cy := rfl
@[simp] theorem Thread.addPend_stage (t : Thread) (d : Dest) (la : Nat) (w : PendWait) (y m : VWord) (fl : Flags) : (t.addPend d la w y m fl).stage = t.stage := rfl
@[simp] theorem Thread.addPend_ncx (t : Thread) (d : Dest) (la : Nat) (w : PendWait) (y m : VWord) (fl : Flags) : (t.addPend d la w y m fl).ncx = t.ncx := rfl
@[simp] theorem Thread.addPend_ncy (t : Thread) (d : Dest) (la : Nat) (w : PendWait) (y m : VWord) (fl : Flags) : (t.addPend d la w y m fl).ncy = t.ncy := rfl
@[simp] theorem Thread.addPend_nstage (t : Thread) (d : Dest) (la : Nat) (w : PendWait) (y m : VWord) (fl : Flags) : (t.addPend d la w y m fl).nstage = t.nstage := rfl
@[simp] theorem Thread.addPend_queue (t : Thread) (d : Dest) (la : Nat) (w : PendWait) (y m : VWord) (fl : Flags) : (t.addPend d la w y m fl).queue = t.queue := rfl
@[simp] theorem Thread.addPend_prio (t : Thread) (d : Dest) (la : Nat) (w : PendWait) (y m : VWord) (fl : Flags) : (t.addPend d la w y m fl).prio = t.prio := rfl
@[simp] theorem Thread.addPend_args (t : Thread) (d : Dest) (la : Nat) (w : PendWait) (y m : VWord) (fl : Flags) : (t.addPend d la w y m fl).args = t.args := rfl
@[simp] theorem Thread.addPend_fmt (t : Thread) (d : Dest) (la : Nat) (w : PendWait) (y m : VWord) (fl : Flags) : (t.addPend d la w y m fl).fmt = t.fmt := rfl
@[simp] theorem Thread.addPend_scl (t : Thread) (d : Dest) (la : Nat) (w : PendWait) (y m : VWord) (fl : Flags) : (t.addPend d la w y m fl).scl = t.scl := rfl
@[simp] theorem Thread.addPend_flags (t : Thread) (d : Dest) (la : Nat) (w : PendWait) (y m : VWord) (fl : Flags) : (t.addPend d la w y m fl).flags = t.flags := rfl
@[simp] theorem Thread.addPend_srkey (t : Thread) (d : Dest) (la : Nat) (w : PendWait) (y m : VWord) (fl : Flags) : (t.addPend d la w y m fl).srkey = t.srkey := rfl
@[simp] theorem Thread.addPend_srctr (t : Thread) (d : Dest) (la : Nat) (w : PendWait) (y m : VWord) (fl : Flags) : (t.addPend d la w y m fl).srctr = t.srctr := rfl
@[simp] theorem Thread.addPend_tvec (t : Thread) (d : Dest) (la : Nat) (w : PendWait) (y m : VWord) (fl : Flags) : (t.addPend d la w y m fl).tvec = t.tvec := rfl
@[simp] theorem Thread.addPend_tpc (t : Thread) (d : Dest) (la : Nat) (w : PendWait) (y m : VWord) (fl : Flags) : (t.addPend d la w y m fl).tpc = t.tpc := rfl
@[simp] theorem Thread.addPend_tcause (t : Thread) (d : Dest) (la : Nat) (w : PendWait) (y m : VWord) (fl : Flags) : (t.addPend d la w y m fl).tcause = t.tcause := rfl
@[simp] theorem Thread.addPend_tinfo0 (t : Thread) (d : Dest) (la : Nat) (w : PendWait) (y m : VWord) (fl : Flags) : (t.addPend d la w y m fl).tinfo0 = t.tinfo0 := rfl
@[simp] theorem Thread.addPend_tinfo1 (t : Thread) (d : Dest) (la : Nat) (w : PendWait) (y m : VWord) (fl : Flags) : (t.addPend d la w y m fl).tinfo1 = t.tinfo1 := rfl
@[simp] theorem Thread.addPend_rcto (t : Thread) (d : Dest) (la : Nat) (w : PendWait) (y m : VWord) (fl : Flags) : (t.addPend d la w y m fl).rcto = t.rcto := rfl
@[simp] theorem Thread.addPend_inbox (t : Thread) (d : Dest) (la : Nat) (w : PendWait) (y m : VWord) (fl : Flags) : (t.addPend d la w y m fl).inbox = t.inbox := rfl
@[simp] theorem Thread.addPend_htab (t : Thread) (d : Dest) (la : Nat) (w : PendWait) (y m : VWord) (fl : Flags) : (t.addPend d la w y m fl).htab = t.htab := rfl
@[simp] theorem Thread.addPend_hstate (t : Thread) (d : Dest) (la : Nat) (w : PendWait) (y m : VWord) (fl : Flags) : (t.addPend d la w y m fl).hstate = t.hstate := rfl
@[simp] theorem Thread.addPend_pending (t : Thread) (d : Dest) (la : Nat) (w : PendWait) (y m : VWord) (fl : Flags) : (t.addPend d la w y m fl).pending = t.pending ++ [⟨t.pendSeq, d, la, false, y, m, fl, t.unitPc, w, t.hstate, t.accessNum, false⟩] := rfl
@[simp] theorem Thread.addPend_pendSeq (t : Thread) (d : Dest) (la : Nat) (w : PendWait) (y m : VWord) (fl : Flags) : (t.addPend d la w y m fl).pendSeq = t.pendSeq + 1 := rfl
@[simp] theorem Thread.addPend_replay (t : Thread) (d : Dest) (la : Nat) (w : PendWait) (y m : VWord) (fl : Flags) : (t.addPend d la w y m fl).replay = t.replay := rfl
@[simp] theorem Thread.addPend_replaying (t : Thread) (d : Dest) (la : Nat) (w : PendWait) (y m : VWord) (fl : Flags) : (t.addPend d la w y m fl).replaying = t.replaying := rfl
@[simp] theorem Thread.addPend_relFence (t : Thread) (d : Dest) (la : Nat) (w : PendWait) (y m : VWord) (fl : Flags) : (t.addPend d la w y m fl).relFence = t.relFence := rfl
@[simp] theorem Thread.addPend_pairNow (t : Thread) (d : Dest) (la : Nat) (w : PendWait) (y m : VWord) (fl : Flags) : (t.addPend d la w y m fl).pairNow = t.pairNow := rfl
@[simp] theorem Thread.addPend_unitEnd (t : Thread) (d : Dest) (la : Nat) (w : PendWait) (y m : VWord) (fl : Flags) : (t.addPend d la w y m fl).unitEnd = t.unitEnd := rfl
@[simp] theorem Thread.addPend_mfaults (t : Thread) (d : Dest) (la : Nat) (w : PendWait) (y m : VWord) (fl : Flags) : (t.addPend d la w y m fl).mfaults = t.mfaults := rfl
@[simp] theorem Thread.addPend_mretry (t : Thread) (d : Dest) (la : Nat) (w : PendWait) (y m : VWord) (fl : Flags) : (t.addPend d la w y m fl).mretry = t.mretry := rfl
@[simp] theorem Thread.addPend_spilling (t : Thread) (d : Dest) (la : Nat) (w : PendWait) (y m : VWord) (fl : Flags) : (t.addPend d la w y m fl).spilling = t.spilling := rfl
@[simp] theorem Thread.addPend_yielded (t : Thread) (d : Dest) (la : Nat) (w : PendWait) (y m : VWord) (fl : Flags) : (t.addPend d la w y m fl).yielded = t.yielded := rfl
@[simp] theorem Thread.addPend_freed (t : Thread) (d : Dest) (la : Nat) (w : PendWait) (y m : VWord) (fl : Flags) : (t.addPend d la w y m fl).freed = t.freed := rfl
@[simp] theorem Thread.addPend_woken (t : Thread) (d : Dest) (la : Nat) (w : PendWait) (y m : VWord) (fl : Flags) : (t.addPend d la w y m fl).woken = t.woken := rfl
@[simp] theorem Thread.addPend_dbg (t : Thread) (d : Dest) (la : Nat) (w : PendWait) (y m : VWord) (fl : Flags) : (t.addPend d la w y m fl).dbg = t.dbg := rfl
@[simp] theorem Thread.addPend_budget (t : Thread) (d : Dest) (la : Nat) (w : PendWait) (y m : VWord) (fl : Flags) : (t.addPend d la w y m fl).budget = t.budget := rfl
@[simp] theorem Thread.addPend_area (t : Thread) (d : Dest) (la : Nat) (w : PendWait) (y m : VWord) (fl : Flags) : (t.addPend d la w y m fl).area = t.area := rfl
@[simp] theorem Thread.addPend_ended (t : Thread) (d : Dest) (la : Nat) (w : PendWait) (y m : VWord) (fl : Flags) : (t.addPend d la w y m fl).ended = t.ended := rfl
@[simp] theorem Thread.addPend_last (t : Thread) (d : Dest) (la : Nat) (w : PendWait) (y m : VWord) (fl : Flags) : (t.addPend d la w y m fl).last = t.last := rfl

/-! ## Updates of the state -/

/-! `State.onThr` -/

@[simp] theorem State.onThr_thr (s : State) (f : Thread → Thread) : (s.onThr f).thr = f s.thr := rfl
@[simp] theorem State.onThr_others (s : State) (f : Thread → Thread) : (s.onThr f).others = s.others := rfl
@[simp] theorem State.onThr_mem (s : State) (f : Thread → Thread) : (s.onThr f).mem = s.mem := rfl
@[simp] theorem State.onThr_empty (s : State) (f : Thread → Thread) : (s.onThr f).empty = s.empty := rfl
@[simp] theorem State.onThr_poison (s : State) (f : Thread → Thread) : (s.onThr f).poison = s.poison := rfl
@[simp] theorem State.onThr_freeze (s : State) (f : Thread → Thread) : (s.onThr f).freeze = s.freeze := rfl
@[simp] theorem State.onThr_cores (s : State) (f : Thread → Thread) : (s.onThr f).cores = s.cores := rfl
@[simp] theorem State.onThr_homeDirty (s : State) (f : Thread → Thread) : (s.onThr f).homeDirty = s.homeDirty := rfl
@[simp] theorem State.onThr_replicas (s : State) (f : Thread → Thread) : (s.onThr f).replicas = s.replicas := rfl
@[simp] theorem State.onThr_records (s : State) (f : Thread → Thread) : (s.onThr f).records = s.records := rfl
@[simp] theorem State.onThr_scPoints (s : State) (f : Thread → Thread) : (s.onThr f).scPoints = s.scPoints := rfl
@[simp] theorem State.onThr_tlb (s : State) (f : Thread → Thread) : (s.onThr f).tlb = s.tlb := rfl
@[simp] theorem State.onThr_frames (s : State) (f : Thread → Thread) : (s.onThr f).frames = s.frames := rfl
@[simp] theorem State.onThr_waits (s : State) (f : Thread → Thread) : (s.onThr f).waits = s.waits := rfl
@[simp] theorem State.onThr_msgs (s : State) (f : Thread → Thread) : (s.onThr f).msgs = s.msgs := rfl
@[simp] theorem State.onThr_faults (s : State) (f : Thread → Thread) : (s.onThr f).faults = s.faults := rfl
@[simp] theorem State.onThr_held (s : State) (f : Thread → Thread) : (s.onThr f).held = s.held := rfl
@[simp] theorem State.onThr_loads (s : State) (f : Thread → Thread) : (s.onThr f).loads = s.loads := rfl
@[simp] theorem State.onThr_wakes (s : State) (f : Thread → Thread) : (s.onThr f).wakes = s.wakes := rfl
@[simp] theorem State.onThr_pageReqs (s : State) (f : Thread → Thread) : (s.onThr f).pageReqs = s.pageReqs := rfl
@[simp] theorem State.onThr_svcFaults (s : State) (f : Thread → Thread) : (s.onThr f).svcFaults = s.svcFaults := rfl
@[simp] theorem State.onThr_arrivals (s : State) (f : Thread → Thread) : (s.onThr f).arrivals = s.arrivals := rfl
@[simp] theorem State.onThr_copies (s : State) (f : Thread → Thread) : (s.onThr f).copies = s.copies := rfl
@[simp] theorem State.onThr_rowJobs (s : State) (f : Thread → Thread) : (s.onThr f).rowJobs = s.rowJobs := rfl
@[simp] theorem State.onThr_thaws (s : State) (f : Thread → Thread) : (s.onThr f).thaws = s.thaws := rfl
@[simp] theorem State.onThr_engJobs (s : State) (f : Thread → Thread) : (s.onThr f).engJobs = s.engJobs := rfl
@[simp] theorem State.onThr_matrix (s : State) (f : Thread → Thread) : (s.onThr f).matrix = s.matrix := rfl
@[simp] theorem State.onThr_calls (s : State) (f : Thread → Thread) : (s.onThr f).calls = s.calls := rfl
@[simp] theorem State.onThr_deadEngines (s : State) (f : Thread → Thread) : (s.onThr f).deadEngines = s.deadEngines := rfl
@[simp] theorem State.onThr_fields (s : State) (f : Thread → Thread) : (s.onThr f).fields = s.fields := rfl
@[simp] theorem State.onThr_shifts (s : State) (f : Thread → Thread) : (s.onThr f).shifts = s.shifts := rfl
@[simp] theorem State.onThr_crews (s : State) (f : Thread → Thread) : (s.onThr f).crews = s.crews := rfl
@[simp] theorem State.onThr_gangs (s : State) (f : Thread → Thread) : (s.onThr f).gangs = s.gangs := rfl
@[simp] theorem State.onThr_islands (s : State) (f : Thread → Thread) : (s.onThr f).islands = s.islands := rfl
@[simp] theorem State.onThr_straits (s : State) (f : Thread → Thread) : (s.onThr f).straits = s.straits := rfl
@[simp] theorem State.onThr_farOut (s : State) (f : Thread → Thread) : (s.onThr f).farOut = s.farOut := rfl
@[simp] theorem State.onThr_farSeen (s : State) (f : Thread → Thread) : (s.onThr f).farSeen = s.farSeen := rfl
@[simp] theorem State.onThr_farFetch (s : State) (f : Thread → Thread) : (s.onThr f).farFetch = s.farFetch := rfl
@[simp] theorem State.onThr_farLines (s : State) (f : Thread → Thread) : (s.onThr f).farLines = s.farLines := rfl
@[simp] theorem State.onThr_linksDown (s : State) (f : Thread → Thread) : (s.onThr f).linksDown = s.linksDown := rfl
@[simp] theorem State.onThr_dropped (s : State) (f : Thread → Thread) : (s.onThr f).dropped = s.dropped := rfl
@[simp] theorem State.onThr_conns (s : State) (f : Thread → Thread) : (s.onThr f).conns = s.conns := rfl
@[simp] theorem State.onThr_hostWaits (s : State) (f : Thread → Thread) : (s.onThr f).hostWaits = s.hostWaits := rfl
@[simp] theorem State.onThr_hostLaunches (s : State) (f : Thread → Thread) : (s.onThr f).hostLaunches = s.hostLaunches := rfl
@[simp] theorem State.onThr_hostGets (s : State) (f : Thread → Thread) : (s.onThr f).hostGets = s.hostGets := rfl
@[simp] theorem State.onThr_outbox (s : State) (f : Thread → Thread) : (s.onThr f).outbox = s.outbox := rfl
@[simp] theorem State.onThr_moduleId (s : State) (f : Thread → Thread) : (s.onThr f).moduleId = s.moduleId := rfl
@[simp] theorem State.onThr_ports (s : State) (f : Thread → Thread) : (s.onThr f).ports = s.ports := rfl
@[simp] theorem State.onThr_dies (s : State) (f : Thread → Thread) : (s.onThr f).dies = s.dies := rfl
@[simp] theorem State.onThr_wear (s : State) (f : Thread → Thread) : (s.onThr f).wear = s.wear := rfl
@[simp] theorem State.onThr_retiredUnits (s : State) (f : Thread → Thread) : (s.onThr f).retiredUnits = s.retiredUnits := rfl
@[simp] theorem State.onThr_withdrawn (s : State) (f : Thread → Thread) : (s.onThr f).withdrawn = s.withdrawn := rfl
@[simp] theorem State.onThr_svcReports (s : State) (f : Thread → Thread) : (s.onThr f).svcReports = s.svcReports := rfl
@[simp] theorem State.onThr_imageLoad (s : State) (f : Thread → Thread) : (s.onThr f).imageLoad = s.imageLoad := rfl
@[simp] theorem State.onThr_tripped (s : State) (f : Thread → Thread) : (s.onThr f).tripped = s.tripped := rfl
@[simp] theorem State.onThr_off (s : State) (f : Thread → Thread) : (s.onThr f).off = s.off := rfl
@[simp] theorem State.onThr_nextSerial (s : State) (f : Thread → Thread) : (s.onThr f).nextSerial = s.nextSerial := rfl
@[simp] theorem State.onThr_nextId (s : State) (f : Thread → Thread) : (s.onThr f).nextId = s.nextId := rfl
@[simp] theorem State.onThr_free (s : State) (f : Thread → Thread) : (s.onThr f).free = s.free := rfl
@[simp] theorem State.onThr_draw (s : State) (f : Thread → Thread) : (s.onThr f).draw = s.draw := rfl
@[simp] theorem State.onThr_agenda (s : State) (f : Thread → Thread) : (s.onThr f).agenda = s.agenda := rfl
@[simp] theorem State.onThr_turn (s : State) (f : Thread → Thread) : (s.onThr f).turn = s.turn := rfl
@[simp] theorem State.onThr_resetPlan (s : State) (f : Thread → Thread) : (s.onThr f).resetPlan = s.resetPlan := rfl

/-! `State.mapThreads` -/

@[simp] theorem State.mapThreads_thr (s : State) (f : Thread → Thread) : (s.mapThreads f).thr = f s.thr := rfl
@[simp] theorem State.mapThreads_others (s : State) (f : Thread → Thread) : (s.mapThreads f).others = s.others.map f := rfl
@[simp] theorem State.mapThreads_mem (s : State) (f : Thread → Thread) : (s.mapThreads f).mem = s.mem := rfl
@[simp] theorem State.mapThreads_empty (s : State) (f : Thread → Thread) : (s.mapThreads f).empty = s.empty := rfl
@[simp] theorem State.mapThreads_poison (s : State) (f : Thread → Thread) : (s.mapThreads f).poison = s.poison := rfl
@[simp] theorem State.mapThreads_freeze (s : State) (f : Thread → Thread) : (s.mapThreads f).freeze = s.freeze := rfl
@[simp] theorem State.mapThreads_cores (s : State) (f : Thread → Thread) : (s.mapThreads f).cores = s.cores := rfl
@[simp] theorem State.mapThreads_homeDirty (s : State) (f : Thread → Thread) : (s.mapThreads f).homeDirty = s.homeDirty := rfl
@[simp] theorem State.mapThreads_replicas (s : State) (f : Thread → Thread) : (s.mapThreads f).replicas = s.replicas := rfl
@[simp] theorem State.mapThreads_records (s : State) (f : Thread → Thread) : (s.mapThreads f).records = s.records := rfl
@[simp] theorem State.mapThreads_scPoints (s : State) (f : Thread → Thread) : (s.mapThreads f).scPoints = s.scPoints := rfl
@[simp] theorem State.mapThreads_tlb (s : State) (f : Thread → Thread) : (s.mapThreads f).tlb = s.tlb := rfl
@[simp] theorem State.mapThreads_frames (s : State) (f : Thread → Thread) : (s.mapThreads f).frames = s.frames := rfl
@[simp] theorem State.mapThreads_waits (s : State) (f : Thread → Thread) : (s.mapThreads f).waits = s.waits := rfl
@[simp] theorem State.mapThreads_msgs (s : State) (f : Thread → Thread) : (s.mapThreads f).msgs = s.msgs := rfl
@[simp] theorem State.mapThreads_faults (s : State) (f : Thread → Thread) : (s.mapThreads f).faults = s.faults := rfl
@[simp] theorem State.mapThreads_held (s : State) (f : Thread → Thread) : (s.mapThreads f).held = s.held := rfl
@[simp] theorem State.mapThreads_loads (s : State) (f : Thread → Thread) : (s.mapThreads f).loads = s.loads := rfl
@[simp] theorem State.mapThreads_wakes (s : State) (f : Thread → Thread) : (s.mapThreads f).wakes = s.wakes := rfl
@[simp] theorem State.mapThreads_pageReqs (s : State) (f : Thread → Thread) : (s.mapThreads f).pageReqs = s.pageReqs := rfl
@[simp] theorem State.mapThreads_svcFaults (s : State) (f : Thread → Thread) : (s.mapThreads f).svcFaults = s.svcFaults := rfl
@[simp] theorem State.mapThreads_arrivals (s : State) (f : Thread → Thread) : (s.mapThreads f).arrivals = s.arrivals := rfl
@[simp] theorem State.mapThreads_copies (s : State) (f : Thread → Thread) : (s.mapThreads f).copies = s.copies := rfl
@[simp] theorem State.mapThreads_rowJobs (s : State) (f : Thread → Thread) : (s.mapThreads f).rowJobs = s.rowJobs := rfl
@[simp] theorem State.mapThreads_thaws (s : State) (f : Thread → Thread) : (s.mapThreads f).thaws = s.thaws := rfl
@[simp] theorem State.mapThreads_engJobs (s : State) (f : Thread → Thread) : (s.mapThreads f).engJobs = s.engJobs := rfl
@[simp] theorem State.mapThreads_matrix (s : State) (f : Thread → Thread) : (s.mapThreads f).matrix = s.matrix := rfl
@[simp] theorem State.mapThreads_calls (s : State) (f : Thread → Thread) : (s.mapThreads f).calls = s.calls := rfl
@[simp] theorem State.mapThreads_deadEngines (s : State) (f : Thread → Thread) : (s.mapThreads f).deadEngines = s.deadEngines := rfl
@[simp] theorem State.mapThreads_fields (s : State) (f : Thread → Thread) : (s.mapThreads f).fields = s.fields := rfl
@[simp] theorem State.mapThreads_shifts (s : State) (f : Thread → Thread) : (s.mapThreads f).shifts = s.shifts := rfl
@[simp] theorem State.mapThreads_crews (s : State) (f : Thread → Thread) : (s.mapThreads f).crews = s.crews := rfl
@[simp] theorem State.mapThreads_gangs (s : State) (f : Thread → Thread) : (s.mapThreads f).gangs = s.gangs := rfl
@[simp] theorem State.mapThreads_islands (s : State) (f : Thread → Thread) : (s.mapThreads f).islands = s.islands := rfl
@[simp] theorem State.mapThreads_straits (s : State) (f : Thread → Thread) : (s.mapThreads f).straits = s.straits := rfl
@[simp] theorem State.mapThreads_farOut (s : State) (f : Thread → Thread) : (s.mapThreads f).farOut = s.farOut := rfl
@[simp] theorem State.mapThreads_farSeen (s : State) (f : Thread → Thread) : (s.mapThreads f).farSeen = s.farSeen := rfl
@[simp] theorem State.mapThreads_farFetch (s : State) (f : Thread → Thread) : (s.mapThreads f).farFetch = s.farFetch := rfl
@[simp] theorem State.mapThreads_farLines (s : State) (f : Thread → Thread) : (s.mapThreads f).farLines = s.farLines := rfl
@[simp] theorem State.mapThreads_linksDown (s : State) (f : Thread → Thread) : (s.mapThreads f).linksDown = s.linksDown := rfl
@[simp] theorem State.mapThreads_dropped (s : State) (f : Thread → Thread) : (s.mapThreads f).dropped = s.dropped := rfl
@[simp] theorem State.mapThreads_conns (s : State) (f : Thread → Thread) : (s.mapThreads f).conns = s.conns := rfl
@[simp] theorem State.mapThreads_hostWaits (s : State) (f : Thread → Thread) : (s.mapThreads f).hostWaits = s.hostWaits := rfl
@[simp] theorem State.mapThreads_hostLaunches (s : State) (f : Thread → Thread) : (s.mapThreads f).hostLaunches = s.hostLaunches := rfl
@[simp] theorem State.mapThreads_hostGets (s : State) (f : Thread → Thread) : (s.mapThreads f).hostGets = s.hostGets := rfl
@[simp] theorem State.mapThreads_outbox (s : State) (f : Thread → Thread) : (s.mapThreads f).outbox = s.outbox := rfl
@[simp] theorem State.mapThreads_moduleId (s : State) (f : Thread → Thread) : (s.mapThreads f).moduleId = s.moduleId := rfl
@[simp] theorem State.mapThreads_ports (s : State) (f : Thread → Thread) : (s.mapThreads f).ports = s.ports := rfl
@[simp] theorem State.mapThreads_dies (s : State) (f : Thread → Thread) : (s.mapThreads f).dies = s.dies := rfl
@[simp] theorem State.mapThreads_wear (s : State) (f : Thread → Thread) : (s.mapThreads f).wear = s.wear := rfl
@[simp] theorem State.mapThreads_retiredUnits (s : State) (f : Thread → Thread) : (s.mapThreads f).retiredUnits = s.retiredUnits := rfl
@[simp] theorem State.mapThreads_withdrawn (s : State) (f : Thread → Thread) : (s.mapThreads f).withdrawn = s.withdrawn := rfl
@[simp] theorem State.mapThreads_svcReports (s : State) (f : Thread → Thread) : (s.mapThreads f).svcReports = s.svcReports := rfl
@[simp] theorem State.mapThreads_imageLoad (s : State) (f : Thread → Thread) : (s.mapThreads f).imageLoad = s.imageLoad := rfl
@[simp] theorem State.mapThreads_tripped (s : State) (f : Thread → Thread) : (s.mapThreads f).tripped = s.tripped := rfl
@[simp] theorem State.mapThreads_off (s : State) (f : Thread → Thread) : (s.mapThreads f).off = s.off := rfl
@[simp] theorem State.mapThreads_nextSerial (s : State) (f : Thread → Thread) : (s.mapThreads f).nextSerial = s.nextSerial := rfl
@[simp] theorem State.mapThreads_nextId (s : State) (f : Thread → Thread) : (s.mapThreads f).nextId = s.nextId := rfl
@[simp] theorem State.mapThreads_free (s : State) (f : Thread → Thread) : (s.mapThreads f).free = s.free := rfl
@[simp] theorem State.mapThreads_draw (s : State) (f : Thread → Thread) : (s.mapThreads f).draw = s.draw := rfl
@[simp] theorem State.mapThreads_agenda (s : State) (f : Thread → Thread) : (s.mapThreads f).agenda = s.agenda := rfl
@[simp] theorem State.mapThreads_turn (s : State) (f : Thread → Thread) : (s.mapThreads f).turn = s.turn := rfl
@[simp] theorem State.mapThreads_resetPlan (s : State) (f : Thread → Thread) : (s.mapThreads f).resetPlan = s.resetPlan := rfl

/-! `State.wake` -/

@[simp] theorem State.wake_thr (s : State) (k : ThreadKey) : (s.wake k).thr = s.thr := by unfold State.wake; split <;> rfl
@[simp] theorem State.wake_others (s : State) (k : ThreadKey) : (s.wake k).others = s.others := by unfold State.wake; split <;> rfl
@[simp] theorem State.wake_mem (s : State) (k : ThreadKey) : (s.wake k).mem = s.mem := by unfold State.wake; split <;> rfl
@[simp] theorem State.wake_empty (s : State) (k : ThreadKey) : (s.wake k).empty = s.empty := by unfold State.wake; split <;> rfl
@[simp] theorem State.wake_poison (s : State) (k : ThreadKey) : (s.wake k).poison = s.poison := by unfold State.wake; split <;> rfl
@[simp] theorem State.wake_freeze (s : State) (k : ThreadKey) : (s.wake k).freeze = s.freeze := by unfold State.wake; split <;> rfl
@[simp] theorem State.wake_cores (s : State) (k : ThreadKey) : (s.wake k).cores = s.cores := by unfold State.wake; split <;> rfl
@[simp] theorem State.wake_homeDirty (s : State) (k : ThreadKey) : (s.wake k).homeDirty = s.homeDirty := by unfold State.wake; split <;> rfl
@[simp] theorem State.wake_replicas (s : State) (k : ThreadKey) : (s.wake k).replicas = s.replicas := by unfold State.wake; split <;> rfl
@[simp] theorem State.wake_records (s : State) (k : ThreadKey) : (s.wake k).records = s.records := by unfold State.wake; split <;> rfl
@[simp] theorem State.wake_scPoints (s : State) (k : ThreadKey) : (s.wake k).scPoints = s.scPoints := by unfold State.wake; split <;> rfl
@[simp] theorem State.wake_tlb (s : State) (k : ThreadKey) : (s.wake k).tlb = s.tlb := by unfold State.wake; split <;> rfl
@[simp] theorem State.wake_frames (s : State) (k : ThreadKey) : (s.wake k).frames = s.frames := by unfold State.wake; split <;> rfl
@[simp] theorem State.wake_waits (s : State) (k : ThreadKey) : (s.wake k).waits = s.waits := by unfold State.wake; split <;> rfl
@[simp] theorem State.wake_msgs (s : State) (k : ThreadKey) : (s.wake k).msgs = s.msgs := by unfold State.wake; split <;> rfl
@[simp] theorem State.wake_faults (s : State) (k : ThreadKey) : (s.wake k).faults = s.faults := by unfold State.wake; split <;> rfl
@[simp] theorem State.wake_held (s : State) (k : ThreadKey) : (s.wake k).held = s.held := by unfold State.wake; split <;> rfl
@[simp] theorem State.wake_loads (s : State) (k : ThreadKey) : (s.wake k).loads = s.loads := by unfold State.wake; split <;> rfl
@[simp] theorem State.wake_pageReqs (s : State) (k : ThreadKey) : (s.wake k).pageReqs = s.pageReqs := by unfold State.wake; split <;> rfl
@[simp] theorem State.wake_svcFaults (s : State) (k : ThreadKey) : (s.wake k).svcFaults = s.svcFaults := by unfold State.wake; split <;> rfl
@[simp] theorem State.wake_arrivals (s : State) (k : ThreadKey) : (s.wake k).arrivals = s.arrivals := by unfold State.wake; split <;> rfl
@[simp] theorem State.wake_copies (s : State) (k : ThreadKey) : (s.wake k).copies = s.copies := by unfold State.wake; split <;> rfl
@[simp] theorem State.wake_rowJobs (s : State) (k : ThreadKey) : (s.wake k).rowJobs = s.rowJobs := by unfold State.wake; split <;> rfl
@[simp] theorem State.wake_thaws (s : State) (k : ThreadKey) : (s.wake k).thaws = s.thaws := by unfold State.wake; split <;> rfl
@[simp] theorem State.wake_engJobs (s : State) (k : ThreadKey) : (s.wake k).engJobs = s.engJobs := by unfold State.wake; split <;> rfl
@[simp] theorem State.wake_matrix (s : State) (k : ThreadKey) : (s.wake k).matrix = s.matrix := by unfold State.wake; split <;> rfl
@[simp] theorem State.wake_calls (s : State) (k : ThreadKey) : (s.wake k).calls = s.calls := by unfold State.wake; split <;> rfl
@[simp] theorem State.wake_deadEngines (s : State) (k : ThreadKey) : (s.wake k).deadEngines = s.deadEngines := by unfold State.wake; split <;> rfl
@[simp] theorem State.wake_fields (s : State) (k : ThreadKey) : (s.wake k).fields = s.fields := by unfold State.wake; split <;> rfl
@[simp] theorem State.wake_shifts (s : State) (k : ThreadKey) : (s.wake k).shifts = s.shifts := by unfold State.wake; split <;> rfl
@[simp] theorem State.wake_crews (s : State) (k : ThreadKey) : (s.wake k).crews = s.crews := by unfold State.wake; split <;> rfl
@[simp] theorem State.wake_gangs (s : State) (k : ThreadKey) : (s.wake k).gangs = s.gangs := by unfold State.wake; split <;> rfl
@[simp] theorem State.wake_islands (s : State) (k : ThreadKey) : (s.wake k).islands = s.islands := by unfold State.wake; split <;> rfl
@[simp] theorem State.wake_straits (s : State) (k : ThreadKey) : (s.wake k).straits = s.straits := by unfold State.wake; split <;> rfl
@[simp] theorem State.wake_farOut (s : State) (k : ThreadKey) : (s.wake k).farOut = s.farOut := by unfold State.wake; split <;> rfl
@[simp] theorem State.wake_farSeen (s : State) (k : ThreadKey) : (s.wake k).farSeen = s.farSeen := by unfold State.wake; split <;> rfl
@[simp] theorem State.wake_farFetch (s : State) (k : ThreadKey) : (s.wake k).farFetch = s.farFetch := by unfold State.wake; split <;> rfl
@[simp] theorem State.wake_farLines (s : State) (k : ThreadKey) : (s.wake k).farLines = s.farLines := by unfold State.wake; split <;> rfl
@[simp] theorem State.wake_linksDown (s : State) (k : ThreadKey) : (s.wake k).linksDown = s.linksDown := by unfold State.wake; split <;> rfl
@[simp] theorem State.wake_dropped (s : State) (k : ThreadKey) : (s.wake k).dropped = s.dropped := by unfold State.wake; split <;> rfl
@[simp] theorem State.wake_conns (s : State) (k : ThreadKey) : (s.wake k).conns = s.conns := by unfold State.wake; split <;> rfl
@[simp] theorem State.wake_hostWaits (s : State) (k : ThreadKey) : (s.wake k).hostWaits = s.hostWaits := by unfold State.wake; split <;> rfl
@[simp] theorem State.wake_hostLaunches (s : State) (k : ThreadKey) : (s.wake k).hostLaunches = s.hostLaunches := by unfold State.wake; split <;> rfl
@[simp] theorem State.wake_hostGets (s : State) (k : ThreadKey) : (s.wake k).hostGets = s.hostGets := by unfold State.wake; split <;> rfl
@[simp] theorem State.wake_outbox (s : State) (k : ThreadKey) : (s.wake k).outbox = s.outbox := by unfold State.wake; split <;> rfl
@[simp] theorem State.wake_moduleId (s : State) (k : ThreadKey) : (s.wake k).moduleId = s.moduleId := by unfold State.wake; split <;> rfl
@[simp] theorem State.wake_ports (s : State) (k : ThreadKey) : (s.wake k).ports = s.ports := by unfold State.wake; split <;> rfl
@[simp] theorem State.wake_dies (s : State) (k : ThreadKey) : (s.wake k).dies = s.dies := by unfold State.wake; split <;> rfl
@[simp] theorem State.wake_wear (s : State) (k : ThreadKey) : (s.wake k).wear = s.wear := by unfold State.wake; split <;> rfl
@[simp] theorem State.wake_retiredUnits (s : State) (k : ThreadKey) : (s.wake k).retiredUnits = s.retiredUnits := by unfold State.wake; split <;> rfl
@[simp] theorem State.wake_withdrawn (s : State) (k : ThreadKey) : (s.wake k).withdrawn = s.withdrawn := by unfold State.wake; split <;> rfl
@[simp] theorem State.wake_svcReports (s : State) (k : ThreadKey) : (s.wake k).svcReports = s.svcReports := by unfold State.wake; split <;> rfl
@[simp] theorem State.wake_imageLoad (s : State) (k : ThreadKey) : (s.wake k).imageLoad = s.imageLoad := by unfold State.wake; split <;> rfl
@[simp] theorem State.wake_tripped (s : State) (k : ThreadKey) : (s.wake k).tripped = s.tripped := by unfold State.wake; split <;> rfl
@[simp] theorem State.wake_off (s : State) (k : ThreadKey) : (s.wake k).off = s.off := by unfold State.wake; split <;> rfl
@[simp] theorem State.wake_nextSerial (s : State) (k : ThreadKey) : (s.wake k).nextSerial = s.nextSerial := by unfold State.wake; split <;> rfl
@[simp] theorem State.wake_nextId (s : State) (k : ThreadKey) : (s.wake k).nextId = s.nextId := by unfold State.wake; split <;> rfl
@[simp] theorem State.wake_free (s : State) (k : ThreadKey) : (s.wake k).free = s.free := by unfold State.wake; split <;> rfl
@[simp] theorem State.wake_draw (s : State) (k : ThreadKey) : (s.wake k).draw = s.draw := by unfold State.wake; split <;> rfl
@[simp] theorem State.wake_agenda (s : State) (k : ThreadKey) : (s.wake k).agenda = s.agenda := by unfold State.wake; split <;> rfl
@[simp] theorem State.wake_turn (s : State) (k : ThreadKey) : (s.wake k).turn = s.turn := by unfold State.wake; split <;> rfl
@[simp] theorem State.wake_resetPlan (s : State) (k : ThreadKey) : (s.wake k).resetPlan = s.resetPlan := by unfold State.wake; split <;> rfl

/-! `State.setFull` -/

@[simp] theorem State.setFull_thr (s : State) (w : Nat) (b : Bool) : (s.setFull w b).thr = s.thr := rfl
@[simp] theorem State.setFull_others (s : State) (w : Nat) (b : Bool) : (s.setFull w b).others = s.others := rfl
@[simp] theorem State.setFull_mem (s : State) (w : Nat) (b : Bool) : (s.setFull w b).mem = s.mem := rfl
@[simp] theorem State.setFull_empty (s : State) (w : Nat) (b : Bool) : (s.setFull w b).empty = if b then setDel s.empty w else setAdd s.empty w := rfl
@[simp] theorem State.setFull_poison (s : State) (w : Nat) (b : Bool) : (s.setFull w b).poison = s.poison := rfl
@[simp] theorem State.setFull_freeze (s : State) (w : Nat) (b : Bool) : (s.setFull w b).freeze = s.freeze := rfl
@[simp] theorem State.setFull_cores (s : State) (w : Nat) (b : Bool) : (s.setFull w b).cores = s.cores := rfl
@[simp] theorem State.setFull_homeDirty (s : State) (w : Nat) (b : Bool) : (s.setFull w b).homeDirty = s.homeDirty := rfl
@[simp] theorem State.setFull_replicas (s : State) (w : Nat) (b : Bool) : (s.setFull w b).replicas = s.replicas := rfl
@[simp] theorem State.setFull_records (s : State) (w : Nat) (b : Bool) : (s.setFull w b).records = s.records := rfl
@[simp] theorem State.setFull_scPoints (s : State) (w : Nat) (b : Bool) : (s.setFull w b).scPoints = s.scPoints := rfl
@[simp] theorem State.setFull_tlb (s : State) (w : Nat) (b : Bool) : (s.setFull w b).tlb = s.tlb := rfl
@[simp] theorem State.setFull_frames (s : State) (w : Nat) (b : Bool) : (s.setFull w b).frames = s.frames := rfl
@[simp] theorem State.setFull_waits (s : State) (w : Nat) (b : Bool) : (s.setFull w b).waits = s.waits := rfl
@[simp] theorem State.setFull_msgs (s : State) (w : Nat) (b : Bool) : (s.setFull w b).msgs = s.msgs := rfl
@[simp] theorem State.setFull_faults (s : State) (w : Nat) (b : Bool) : (s.setFull w b).faults = s.faults := rfl
@[simp] theorem State.setFull_held (s : State) (w : Nat) (b : Bool) : (s.setFull w b).held = s.held := rfl
@[simp] theorem State.setFull_loads (s : State) (w : Nat) (b : Bool) : (s.setFull w b).loads = s.loads := rfl
@[simp] theorem State.setFull_wakes (s : State) (w : Nat) (b : Bool) : (s.setFull w b).wakes = s.wakes := rfl
@[simp] theorem State.setFull_pageReqs (s : State) (w : Nat) (b : Bool) : (s.setFull w b).pageReqs = s.pageReqs := rfl
@[simp] theorem State.setFull_svcFaults (s : State) (w : Nat) (b : Bool) : (s.setFull w b).svcFaults = s.svcFaults := rfl
@[simp] theorem State.setFull_arrivals (s : State) (w : Nat) (b : Bool) : (s.setFull w b).arrivals = s.arrivals := rfl
@[simp] theorem State.setFull_copies (s : State) (w : Nat) (b : Bool) : (s.setFull w b).copies = s.copies := rfl
@[simp] theorem State.setFull_rowJobs (s : State) (w : Nat) (b : Bool) : (s.setFull w b).rowJobs = s.rowJobs := rfl
@[simp] theorem State.setFull_thaws (s : State) (w : Nat) (b : Bool) : (s.setFull w b).thaws = s.thaws := rfl
@[simp] theorem State.setFull_engJobs (s : State) (w : Nat) (b : Bool) : (s.setFull w b).engJobs = s.engJobs := rfl
@[simp] theorem State.setFull_matrix (s : State) (w : Nat) (b : Bool) : (s.setFull w b).matrix = s.matrix := rfl
@[simp] theorem State.setFull_calls (s : State) (w : Nat) (b : Bool) : (s.setFull w b).calls = s.calls := rfl
@[simp] theorem State.setFull_deadEngines (s : State) (w : Nat) (b : Bool) : (s.setFull w b).deadEngines = s.deadEngines := rfl
@[simp] theorem State.setFull_fields (s : State) (w : Nat) (b : Bool) : (s.setFull w b).fields = s.fields := rfl
@[simp] theorem State.setFull_shifts (s : State) (w : Nat) (b : Bool) : (s.setFull w b).shifts = s.shifts := rfl
@[simp] theorem State.setFull_crews (s : State) (w : Nat) (b : Bool) : (s.setFull w b).crews = s.crews := rfl
@[simp] theorem State.setFull_gangs (s : State) (w : Nat) (b : Bool) : (s.setFull w b).gangs = s.gangs := rfl
@[simp] theorem State.setFull_islands (s : State) (w : Nat) (b : Bool) : (s.setFull w b).islands = s.islands := rfl
@[simp] theorem State.setFull_straits (s : State) (w : Nat) (b : Bool) : (s.setFull w b).straits = s.straits := rfl
@[simp] theorem State.setFull_farOut (s : State) (w : Nat) (b : Bool) : (s.setFull w b).farOut = s.farOut := rfl
@[simp] theorem State.setFull_farSeen (s : State) (w : Nat) (b : Bool) : (s.setFull w b).farSeen = s.farSeen := rfl
@[simp] theorem State.setFull_farFetch (s : State) (w : Nat) (b : Bool) : (s.setFull w b).farFetch = s.farFetch := rfl
@[simp] theorem State.setFull_farLines (s : State) (w : Nat) (b : Bool) : (s.setFull w b).farLines = s.farLines := rfl
@[simp] theorem State.setFull_linksDown (s : State) (w : Nat) (b : Bool) : (s.setFull w b).linksDown = s.linksDown := rfl
@[simp] theorem State.setFull_dropped (s : State) (w : Nat) (b : Bool) : (s.setFull w b).dropped = s.dropped := rfl
@[simp] theorem State.setFull_conns (s : State) (w : Nat) (b : Bool) : (s.setFull w b).conns = s.conns := rfl
@[simp] theorem State.setFull_hostWaits (s : State) (w : Nat) (b : Bool) : (s.setFull w b).hostWaits = s.hostWaits := rfl
@[simp] theorem State.setFull_hostLaunches (s : State) (w : Nat) (b : Bool) : (s.setFull w b).hostLaunches = s.hostLaunches := rfl
@[simp] theorem State.setFull_hostGets (s : State) (w : Nat) (b : Bool) : (s.setFull w b).hostGets = s.hostGets := rfl
@[simp] theorem State.setFull_outbox (s : State) (w : Nat) (b : Bool) : (s.setFull w b).outbox = s.outbox := rfl
@[simp] theorem State.setFull_moduleId (s : State) (w : Nat) (b : Bool) : (s.setFull w b).moduleId = s.moduleId := rfl
@[simp] theorem State.setFull_ports (s : State) (w : Nat) (b : Bool) : (s.setFull w b).ports = s.ports := rfl
@[simp] theorem State.setFull_dies (s : State) (w : Nat) (b : Bool) : (s.setFull w b).dies = s.dies := rfl
@[simp] theorem State.setFull_wear (s : State) (w : Nat) (b : Bool) : (s.setFull w b).wear = s.wear := rfl
@[simp] theorem State.setFull_retiredUnits (s : State) (w : Nat) (b : Bool) : (s.setFull w b).retiredUnits = s.retiredUnits := rfl
@[simp] theorem State.setFull_withdrawn (s : State) (w : Nat) (b : Bool) : (s.setFull w b).withdrawn = s.withdrawn := rfl
@[simp] theorem State.setFull_svcReports (s : State) (w : Nat) (b : Bool) : (s.setFull w b).svcReports = s.svcReports := rfl
@[simp] theorem State.setFull_imageLoad (s : State) (w : Nat) (b : Bool) : (s.setFull w b).imageLoad = s.imageLoad := rfl
@[simp] theorem State.setFull_tripped (s : State) (w : Nat) (b : Bool) : (s.setFull w b).tripped = s.tripped := rfl
@[simp] theorem State.setFull_off (s : State) (w : Nat) (b : Bool) : (s.setFull w b).off = s.off := rfl
@[simp] theorem State.setFull_nextSerial (s : State) (w : Nat) (b : Bool) : (s.setFull w b).nextSerial = s.nextSerial := rfl
@[simp] theorem State.setFull_nextId (s : State) (w : Nat) (b : Bool) : (s.setFull w b).nextId = s.nextId := rfl
@[simp] theorem State.setFull_free (s : State) (w : Nat) (b : Bool) : (s.setFull w b).free = s.free := rfl
@[simp] theorem State.setFull_draw (s : State) (w : Nat) (b : Bool) : (s.setFull w b).draw = s.draw := rfl
@[simp] theorem State.setFull_agenda (s : State) (w : Nat) (b : Bool) : (s.setFull w b).agenda = s.agenda := rfl
@[simp] theorem State.setFull_turn (s : State) (w : Nat) (b : Bool) : (s.setFull w b).turn = s.turn := rfl
@[simp] theorem State.setFull_resetPlan (s : State) (w : Nat) (b : Bool) : (s.setFull w b).resetPlan = s.resetPlan := rfl

/-! `State.unpoison` -/

@[simp] theorem State.unpoison_thr (s : State) (x n : Nat) : (s.unpoison x n).thr = s.thr := rfl
@[simp] theorem State.unpoison_others (s : State) (x n : Nat) : (s.unpoison x n).others = s.others := rfl
@[simp] theorem State.unpoison_mem (s : State) (x n : Nat) : (s.unpoison x n).mem = s.mem := rfl
@[simp] theorem State.unpoison_empty (s : State) (x n : Nat) : (s.unpoison x n).empty = s.empty := rfl
@[simp] theorem State.unpoison_poison (s : State) (x n : Nat) : (s.unpoison x n).poison = s.poison.filter (fun w => !(x ≤ 8 * w && 8 * w + 8 ≤ x + n)) := rfl
@[simp] theorem State.unpoison_freeze (s : State) (x n : Nat) : (s.unpoison x n).freeze = s.freeze := rfl
@[simp] theorem State.unpoison_cores (s : State) (x n : Nat) : (s.unpoison x n).cores = s.cores := rfl
@[simp] theorem State.unpoison_homeDirty (s : State) (x n : Nat) : (s.unpoison x n).homeDirty = s.homeDirty := rfl
@[simp] theorem State.unpoison_replicas (s : State) (x n : Nat) : (s.unpoison x n).replicas = s.replicas := rfl
@[simp] theorem State.unpoison_records (s : State) (x n : Nat) : (s.unpoison x n).records = s.records := rfl
@[simp] theorem State.unpoison_scPoints (s : State) (x n : Nat) : (s.unpoison x n).scPoints = s.scPoints := rfl
@[simp] theorem State.unpoison_tlb (s : State) (x n : Nat) : (s.unpoison x n).tlb = s.tlb := rfl
@[simp] theorem State.unpoison_frames (s : State) (x n : Nat) : (s.unpoison x n).frames = s.frames := rfl
@[simp] theorem State.unpoison_waits (s : State) (x n : Nat) : (s.unpoison x n).waits = s.waits := rfl
@[simp] theorem State.unpoison_msgs (s : State) (x n : Nat) : (s.unpoison x n).msgs = s.msgs := rfl
@[simp] theorem State.unpoison_faults (s : State) (x n : Nat) : (s.unpoison x n).faults = s.faults := rfl
@[simp] theorem State.unpoison_held (s : State) (x n : Nat) : (s.unpoison x n).held = s.held := rfl
@[simp] theorem State.unpoison_loads (s : State) (x n : Nat) : (s.unpoison x n).loads = s.loads := rfl
@[simp] theorem State.unpoison_wakes (s : State) (x n : Nat) : (s.unpoison x n).wakes = s.wakes := rfl
@[simp] theorem State.unpoison_pageReqs (s : State) (x n : Nat) : (s.unpoison x n).pageReqs = s.pageReqs := rfl
@[simp] theorem State.unpoison_svcFaults (s : State) (x n : Nat) : (s.unpoison x n).svcFaults = s.svcFaults := rfl
@[simp] theorem State.unpoison_arrivals (s : State) (x n : Nat) : (s.unpoison x n).arrivals = s.arrivals := rfl
@[simp] theorem State.unpoison_copies (s : State) (x n : Nat) : (s.unpoison x n).copies = s.copies := rfl
@[simp] theorem State.unpoison_rowJobs (s : State) (x n : Nat) : (s.unpoison x n).rowJobs = s.rowJobs := rfl
@[simp] theorem State.unpoison_thaws (s : State) (x n : Nat) : (s.unpoison x n).thaws = s.thaws := rfl
@[simp] theorem State.unpoison_engJobs (s : State) (x n : Nat) : (s.unpoison x n).engJobs = s.engJobs := rfl
@[simp] theorem State.unpoison_matrix (s : State) (x n : Nat) : (s.unpoison x n).matrix = s.matrix := rfl
@[simp] theorem State.unpoison_calls (s : State) (x n : Nat) : (s.unpoison x n).calls = s.calls := rfl
@[simp] theorem State.unpoison_deadEngines (s : State) (x n : Nat) : (s.unpoison x n).deadEngines = s.deadEngines := rfl
@[simp] theorem State.unpoison_fields (s : State) (x n : Nat) : (s.unpoison x n).fields = s.fields := rfl
@[simp] theorem State.unpoison_shifts (s : State) (x n : Nat) : (s.unpoison x n).shifts = s.shifts := rfl
@[simp] theorem State.unpoison_crews (s : State) (x n : Nat) : (s.unpoison x n).crews = s.crews := rfl
@[simp] theorem State.unpoison_gangs (s : State) (x n : Nat) : (s.unpoison x n).gangs = s.gangs := rfl
@[simp] theorem State.unpoison_islands (s : State) (x n : Nat) : (s.unpoison x n).islands = s.islands := rfl
@[simp] theorem State.unpoison_straits (s : State) (x n : Nat) : (s.unpoison x n).straits = s.straits := rfl
@[simp] theorem State.unpoison_farOut (s : State) (x n : Nat) : (s.unpoison x n).farOut = s.farOut := rfl
@[simp] theorem State.unpoison_farSeen (s : State) (x n : Nat) : (s.unpoison x n).farSeen = s.farSeen := rfl
@[simp] theorem State.unpoison_farFetch (s : State) (x n : Nat) : (s.unpoison x n).farFetch = s.farFetch := rfl
@[simp] theorem State.unpoison_farLines (s : State) (x n : Nat) : (s.unpoison x n).farLines = s.farLines := rfl
@[simp] theorem State.unpoison_linksDown (s : State) (x n : Nat) : (s.unpoison x n).linksDown = s.linksDown := rfl
@[simp] theorem State.unpoison_dropped (s : State) (x n : Nat) : (s.unpoison x n).dropped = s.dropped := rfl
@[simp] theorem State.unpoison_conns (s : State) (x n : Nat) : (s.unpoison x n).conns = s.conns := rfl
@[simp] theorem State.unpoison_hostWaits (s : State) (x n : Nat) : (s.unpoison x n).hostWaits = s.hostWaits := rfl
@[simp] theorem State.unpoison_hostLaunches (s : State) (x n : Nat) : (s.unpoison x n).hostLaunches = s.hostLaunches := rfl
@[simp] theorem State.unpoison_hostGets (s : State) (x n : Nat) : (s.unpoison x n).hostGets = s.hostGets := rfl
@[simp] theorem State.unpoison_outbox (s : State) (x n : Nat) : (s.unpoison x n).outbox = s.outbox := rfl
@[simp] theorem State.unpoison_moduleId (s : State) (x n : Nat) : (s.unpoison x n).moduleId = s.moduleId := rfl
@[simp] theorem State.unpoison_ports (s : State) (x n : Nat) : (s.unpoison x n).ports = s.ports := rfl
@[simp] theorem State.unpoison_dies (s : State) (x n : Nat) : (s.unpoison x n).dies = s.dies := rfl
@[simp] theorem State.unpoison_wear (s : State) (x n : Nat) : (s.unpoison x n).wear = s.wear := rfl
@[simp] theorem State.unpoison_retiredUnits (s : State) (x n : Nat) : (s.unpoison x n).retiredUnits = s.retiredUnits := rfl
@[simp] theorem State.unpoison_withdrawn (s : State) (x n : Nat) : (s.unpoison x n).withdrawn = s.withdrawn := rfl
@[simp] theorem State.unpoison_svcReports (s : State) (x n : Nat) : (s.unpoison x n).svcReports = s.svcReports := rfl
@[simp] theorem State.unpoison_imageLoad (s : State) (x n : Nat) : (s.unpoison x n).imageLoad = s.imageLoad := rfl
@[simp] theorem State.unpoison_tripped (s : State) (x n : Nat) : (s.unpoison x n).tripped = s.tripped := rfl
@[simp] theorem State.unpoison_off (s : State) (x n : Nat) : (s.unpoison x n).off = s.off := rfl
@[simp] theorem State.unpoison_nextSerial (s : State) (x n : Nat) : (s.unpoison x n).nextSerial = s.nextSerial := rfl
@[simp] theorem State.unpoison_nextId (s : State) (x n : Nat) : (s.unpoison x n).nextId = s.nextId := rfl
@[simp] theorem State.unpoison_free (s : State) (x n : Nat) : (s.unpoison x n).free = s.free := rfl
@[simp] theorem State.unpoison_draw (s : State) (x n : Nat) : (s.unpoison x n).draw = s.draw := rfl
@[simp] theorem State.unpoison_agenda (s : State) (x n : Nat) : (s.unpoison x n).agenda = s.agenda := rfl
@[simp] theorem State.unpoison_turn (s : State) (x n : Nat) : (s.unpoison x n).turn = s.turn := rfl
@[simp] theorem State.unpoison_resetPlan (s : State) (x n : Nat) : (s.unpoison x n).resetPlan = s.resetPlan := rfl

/-! `State.poke` -/

@[simp] theorem State.poke_thr (s : State) (x n v : Nat) : (s.poke x n v).thr = s.thr := by unfold State.poke; split <;> rfl
@[simp] theorem State.poke_others (s : State) (x n v : Nat) : (s.poke x n v).others = s.others := by unfold State.poke; split <;> rfl
@[simp] theorem State.poke_empty (s : State) (x n v : Nat) : (s.poke x n v).empty = s.empty := by unfold State.poke; split <;> rfl
@[simp] theorem State.poke_freeze (s : State) (x n v : Nat) : (s.poke x n v).freeze = s.freeze := by unfold State.poke; split <;> rfl
@[simp] theorem State.poke_cores (s : State) (x n v : Nat) : (s.poke x n v).cores = s.cores := by unfold State.poke; split <;> rfl
@[simp] theorem State.poke_homeDirty (s : State) (x n v : Nat) : (s.poke x n v).homeDirty = s.homeDirty := by unfold State.poke; split <;> rfl
@[simp] theorem State.poke_replicas (s : State) (x n v : Nat) : (s.poke x n v).replicas = s.replicas := by unfold State.poke; split <;> rfl
@[simp] theorem State.poke_records (s : State) (x n v : Nat) : (s.poke x n v).records = s.records := by unfold State.poke; split <;> rfl
@[simp] theorem State.poke_scPoints (s : State) (x n v : Nat) : (s.poke x n v).scPoints = s.scPoints := by unfold State.poke; split <;> rfl
@[simp] theorem State.poke_tlb (s : State) (x n v : Nat) : (s.poke x n v).tlb = s.tlb := by unfold State.poke; split <;> rfl
@[simp] theorem State.poke_frames (s : State) (x n v : Nat) : (s.poke x n v).frames = s.frames := by unfold State.poke; split <;> rfl
@[simp] theorem State.poke_waits (s : State) (x n v : Nat) : (s.poke x n v).waits = s.waits := by unfold State.poke; split <;> rfl
@[simp] theorem State.poke_msgs (s : State) (x n v : Nat) : (s.poke x n v).msgs = s.msgs := by unfold State.poke; split <;> rfl
@[simp] theorem State.poke_faults (s : State) (x n v : Nat) : (s.poke x n v).faults = s.faults := by unfold State.poke; split <;> rfl
@[simp] theorem State.poke_held (s : State) (x n v : Nat) : (s.poke x n v).held = s.held := by unfold State.poke; split <;> rfl
@[simp] theorem State.poke_loads (s : State) (x n v : Nat) : (s.poke x n v).loads = s.loads := by unfold State.poke; split <;> rfl
@[simp] theorem State.poke_wakes (s : State) (x n v : Nat) : (s.poke x n v).wakes = s.wakes := by unfold State.poke; split <;> rfl
@[simp] theorem State.poke_pageReqs (s : State) (x n v : Nat) : (s.poke x n v).pageReqs = s.pageReqs := by unfold State.poke; split <;> rfl
@[simp] theorem State.poke_svcFaults (s : State) (x n v : Nat) : (s.poke x n v).svcFaults = s.svcFaults := by unfold State.poke; split <;> rfl
@[simp] theorem State.poke_arrivals (s : State) (x n v : Nat) : (s.poke x n v).arrivals = s.arrivals := by unfold State.poke; split <;> rfl
@[simp] theorem State.poke_copies (s : State) (x n v : Nat) : (s.poke x n v).copies = s.copies := by unfold State.poke; split <;> rfl
@[simp] theorem State.poke_rowJobs (s : State) (x n v : Nat) : (s.poke x n v).rowJobs = s.rowJobs := by unfold State.poke; split <;> rfl
@[simp] theorem State.poke_thaws (s : State) (x n v : Nat) : (s.poke x n v).thaws = s.thaws := by unfold State.poke; split <;> rfl
@[simp] theorem State.poke_engJobs (s : State) (x n v : Nat) : (s.poke x n v).engJobs = s.engJobs := by unfold State.poke; split <;> rfl
@[simp] theorem State.poke_matrix (s : State) (x n v : Nat) : (s.poke x n v).matrix = s.matrix := by unfold State.poke; split <;> rfl
@[simp] theorem State.poke_calls (s : State) (x n v : Nat) : (s.poke x n v).calls = s.calls := by unfold State.poke; split <;> rfl
@[simp] theorem State.poke_deadEngines (s : State) (x n v : Nat) : (s.poke x n v).deadEngines = s.deadEngines := by unfold State.poke; split <;> rfl
@[simp] theorem State.poke_fields (s : State) (x n v : Nat) : (s.poke x n v).fields = s.fields := by unfold State.poke; split <;> rfl
@[simp] theorem State.poke_shifts (s : State) (x n v : Nat) : (s.poke x n v).shifts = s.shifts := by unfold State.poke; split <;> rfl
@[simp] theorem State.poke_crews (s : State) (x n v : Nat) : (s.poke x n v).crews = s.crews := by unfold State.poke; split <;> rfl
@[simp] theorem State.poke_gangs (s : State) (x n v : Nat) : (s.poke x n v).gangs = s.gangs := by unfold State.poke; split <;> rfl
@[simp] theorem State.poke_islands (s : State) (x n v : Nat) : (s.poke x n v).islands = s.islands := by unfold State.poke; split <;> rfl
@[simp] theorem State.poke_straits (s : State) (x n v : Nat) : (s.poke x n v).straits = s.straits := by unfold State.poke; split <;> rfl
@[simp] theorem State.poke_farOut (s : State) (x n v : Nat) : (s.poke x n v).farOut = s.farOut := by unfold State.poke; split <;> rfl
@[simp] theorem State.poke_farSeen (s : State) (x n v : Nat) : (s.poke x n v).farSeen = s.farSeen := by unfold State.poke; split <;> rfl
@[simp] theorem State.poke_farFetch (s : State) (x n v : Nat) : (s.poke x n v).farFetch = s.farFetch := by unfold State.poke; split <;> rfl
@[simp] theorem State.poke_farLines (s : State) (x n v : Nat) : (s.poke x n v).farLines = s.farLines := by unfold State.poke; split <;> rfl
@[simp] theorem State.poke_linksDown (s : State) (x n v : Nat) : (s.poke x n v).linksDown = s.linksDown := by unfold State.poke; split <;> rfl
@[simp] theorem State.poke_dropped (s : State) (x n v : Nat) : (s.poke x n v).dropped = s.dropped := by unfold State.poke; split <;> rfl
@[simp] theorem State.poke_conns (s : State) (x n v : Nat) : (s.poke x n v).conns = s.conns := by unfold State.poke; split <;> rfl
@[simp] theorem State.poke_hostWaits (s : State) (x n v : Nat) : (s.poke x n v).hostWaits = s.hostWaits := by unfold State.poke; split <;> rfl
@[simp] theorem State.poke_hostLaunches (s : State) (x n v : Nat) : (s.poke x n v).hostLaunches = s.hostLaunches := by unfold State.poke; split <;> rfl
@[simp] theorem State.poke_hostGets (s : State) (x n v : Nat) : (s.poke x n v).hostGets = s.hostGets := by unfold State.poke; split <;> rfl
@[simp] theorem State.poke_outbox (s : State) (x n v : Nat) : (s.poke x n v).outbox = s.outbox := by unfold State.poke; split <;> rfl
@[simp] theorem State.poke_moduleId (s : State) (x n v : Nat) : (s.poke x n v).moduleId = s.moduleId := by unfold State.poke; split <;> rfl
@[simp] theorem State.poke_ports (s : State) (x n v : Nat) : (s.poke x n v).ports = s.ports := by unfold State.poke; split <;> rfl
@[simp] theorem State.poke_dies (s : State) (x n v : Nat) : (s.poke x n v).dies = s.dies := by unfold State.poke; split <;> rfl
@[simp] theorem State.poke_wear (s : State) (x n v : Nat) : (s.poke x n v).wear = s.wear := by unfold State.poke; split <;> rfl
@[simp] theorem State.poke_retiredUnits (s : State) (x n v : Nat) : (s.poke x n v).retiredUnits = s.retiredUnits := by unfold State.poke; split <;> rfl
@[simp] theorem State.poke_withdrawn (s : State) (x n v : Nat) : (s.poke x n v).withdrawn = s.withdrawn := by unfold State.poke; split <;> rfl
@[simp] theorem State.poke_svcReports (s : State) (x n v : Nat) : (s.poke x n v).svcReports = s.svcReports := by unfold State.poke; split <;> rfl
@[simp] theorem State.poke_imageLoad (s : State) (x n v : Nat) : (s.poke x n v).imageLoad = s.imageLoad := by unfold State.poke; split <;> rfl
@[simp] theorem State.poke_tripped (s : State) (x n v : Nat) : (s.poke x n v).tripped = s.tripped := by unfold State.poke; split <;> rfl
@[simp] theorem State.poke_off (s : State) (x n v : Nat) : (s.poke x n v).off = s.off := by unfold State.poke; split <;> rfl
@[simp] theorem State.poke_nextSerial (s : State) (x n v : Nat) : (s.poke x n v).nextSerial = s.nextSerial := by unfold State.poke; split <;> rfl
@[simp] theorem State.poke_nextId (s : State) (x n v : Nat) : (s.poke x n v).nextId = s.nextId := by unfold State.poke; split <;> rfl
@[simp] theorem State.poke_free (s : State) (x n v : Nat) : (s.poke x n v).free = s.free := by unfold State.poke; split <;> rfl
@[simp] theorem State.poke_draw (s : State) (x n v : Nat) : (s.poke x n v).draw = s.draw := by unfold State.poke; split <;> rfl
@[simp] theorem State.poke_agenda (s : State) (x n v : Nat) : (s.poke x n v).agenda = s.agenda := by unfold State.poke; split <;> rfl
@[simp] theorem State.poke_turn (s : State) (x n v : Nat) : (s.poke x n v).turn = s.turn := by unfold State.poke; split <;> rfl
@[simp] theorem State.poke_resetPlan (s : State) (x n v : Nat) : (s.poke x n v).resetPlan = s.resetPlan := by unfold State.poke; split <;> rfl

/-! `State.setCore` -/

@[simp] theorem State.setCore_thr (s : State) (c : CoreSt) : (s.setCore c).thr = s.thr := rfl
@[simp] theorem State.setCore_others (s : State) (c : CoreSt) : (s.setCore c).others = s.others := rfl
@[simp] theorem State.setCore_mem (s : State) (c : CoreSt) : (s.setCore c).mem = s.mem := rfl
@[simp] theorem State.setCore_empty (s : State) (c : CoreSt) : (s.setCore c).empty = s.empty := rfl
@[simp] theorem State.setCore_poison (s : State) (c : CoreSt) : (s.setCore c).poison = s.poison := rfl
@[simp] theorem State.setCore_freeze (s : State) (c : CoreSt) : (s.setCore c).freeze = s.freeze := rfl
@[simp] theorem State.setCore_homeDirty (s : State) (c : CoreSt) : (s.setCore c).homeDirty = s.homeDirty := rfl
@[simp] theorem State.setCore_replicas (s : State) (c : CoreSt) : (s.setCore c).replicas = s.replicas := rfl
@[simp] theorem State.setCore_records (s : State) (c : CoreSt) : (s.setCore c).records = s.records := rfl
@[simp] theorem State.setCore_scPoints (s : State) (c : CoreSt) : (s.setCore c).scPoints = s.scPoints := rfl
@[simp] theorem State.setCore_tlb (s : State) (c : CoreSt) : (s.setCore c).tlb = s.tlb := rfl
@[simp] theorem State.setCore_frames (s : State) (c : CoreSt) : (s.setCore c).frames = s.frames := rfl
@[simp] theorem State.setCore_waits (s : State) (c : CoreSt) : (s.setCore c).waits = s.waits := rfl
@[simp] theorem State.setCore_msgs (s : State) (c : CoreSt) : (s.setCore c).msgs = s.msgs := rfl
@[simp] theorem State.setCore_faults (s : State) (c : CoreSt) : (s.setCore c).faults = s.faults := rfl
@[simp] theorem State.setCore_held (s : State) (c : CoreSt) : (s.setCore c).held = s.held := rfl
@[simp] theorem State.setCore_loads (s : State) (c : CoreSt) : (s.setCore c).loads = s.loads := rfl
@[simp] theorem State.setCore_wakes (s : State) (c : CoreSt) : (s.setCore c).wakes = s.wakes := rfl
@[simp] theorem State.setCore_pageReqs (s : State) (c : CoreSt) : (s.setCore c).pageReqs = s.pageReqs := rfl
@[simp] theorem State.setCore_svcFaults (s : State) (c : CoreSt) : (s.setCore c).svcFaults = s.svcFaults := rfl
@[simp] theorem State.setCore_arrivals (s : State) (c : CoreSt) : (s.setCore c).arrivals = s.arrivals := rfl
@[simp] theorem State.setCore_copies (s : State) (c : CoreSt) : (s.setCore c).copies = s.copies := rfl
@[simp] theorem State.setCore_rowJobs (s : State) (c : CoreSt) : (s.setCore c).rowJobs = s.rowJobs := rfl
@[simp] theorem State.setCore_thaws (s : State) (c : CoreSt) : (s.setCore c).thaws = s.thaws := rfl
@[simp] theorem State.setCore_engJobs (s : State) (c : CoreSt) : (s.setCore c).engJobs = s.engJobs := rfl
@[simp] theorem State.setCore_matrix (s : State) (c : CoreSt) : (s.setCore c).matrix = s.matrix := rfl
@[simp] theorem State.setCore_calls (s : State) (c : CoreSt) : (s.setCore c).calls = s.calls := rfl
@[simp] theorem State.setCore_deadEngines (s : State) (c : CoreSt) : (s.setCore c).deadEngines = s.deadEngines := rfl
@[simp] theorem State.setCore_fields (s : State) (c : CoreSt) : (s.setCore c).fields = s.fields := rfl
@[simp] theorem State.setCore_shifts (s : State) (c : CoreSt) : (s.setCore c).shifts = s.shifts := rfl
@[simp] theorem State.setCore_crews (s : State) (c : CoreSt) : (s.setCore c).crews = s.crews := rfl
@[simp] theorem State.setCore_gangs (s : State) (c : CoreSt) : (s.setCore c).gangs = s.gangs := rfl
@[simp] theorem State.setCore_islands (s : State) (c : CoreSt) : (s.setCore c).islands = s.islands := rfl
@[simp] theorem State.setCore_straits (s : State) (c : CoreSt) : (s.setCore c).straits = s.straits := rfl
@[simp] theorem State.setCore_farOut (s : State) (c : CoreSt) : (s.setCore c).farOut = s.farOut := rfl
@[simp] theorem State.setCore_farSeen (s : State) (c : CoreSt) : (s.setCore c).farSeen = s.farSeen := rfl
@[simp] theorem State.setCore_farFetch (s : State) (c : CoreSt) : (s.setCore c).farFetch = s.farFetch := rfl
@[simp] theorem State.setCore_farLines (s : State) (c : CoreSt) : (s.setCore c).farLines = s.farLines := rfl
@[simp] theorem State.setCore_linksDown (s : State) (c : CoreSt) : (s.setCore c).linksDown = s.linksDown := rfl
@[simp] theorem State.setCore_dropped (s : State) (c : CoreSt) : (s.setCore c).dropped = s.dropped := rfl
@[simp] theorem State.setCore_conns (s : State) (c : CoreSt) : (s.setCore c).conns = s.conns := rfl
@[simp] theorem State.setCore_hostWaits (s : State) (c : CoreSt) : (s.setCore c).hostWaits = s.hostWaits := rfl
@[simp] theorem State.setCore_hostLaunches (s : State) (c : CoreSt) : (s.setCore c).hostLaunches = s.hostLaunches := rfl
@[simp] theorem State.setCore_hostGets (s : State) (c : CoreSt) : (s.setCore c).hostGets = s.hostGets := rfl
@[simp] theorem State.setCore_outbox (s : State) (c : CoreSt) : (s.setCore c).outbox = s.outbox := rfl
@[simp] theorem State.setCore_moduleId (s : State) (c : CoreSt) : (s.setCore c).moduleId = s.moduleId := rfl
@[simp] theorem State.setCore_ports (s : State) (c : CoreSt) : (s.setCore c).ports = s.ports := rfl
@[simp] theorem State.setCore_dies (s : State) (c : CoreSt) : (s.setCore c).dies = s.dies := rfl
@[simp] theorem State.setCore_wear (s : State) (c : CoreSt) : (s.setCore c).wear = s.wear := rfl
@[simp] theorem State.setCore_retiredUnits (s : State) (c : CoreSt) : (s.setCore c).retiredUnits = s.retiredUnits := rfl
@[simp] theorem State.setCore_withdrawn (s : State) (c : CoreSt) : (s.setCore c).withdrawn = s.withdrawn := rfl
@[simp] theorem State.setCore_svcReports (s : State) (c : CoreSt) : (s.setCore c).svcReports = s.svcReports := rfl
@[simp] theorem State.setCore_imageLoad (s : State) (c : CoreSt) : (s.setCore c).imageLoad = s.imageLoad := rfl
@[simp] theorem State.setCore_tripped (s : State) (c : CoreSt) : (s.setCore c).tripped = s.tripped := rfl
@[simp] theorem State.setCore_off (s : State) (c : CoreSt) : (s.setCore c).off = s.off := rfl
@[simp] theorem State.setCore_nextSerial (s : State) (c : CoreSt) : (s.setCore c).nextSerial = s.nextSerial := rfl
@[simp] theorem State.setCore_nextId (s : State) (c : CoreSt) : (s.setCore c).nextId = s.nextId := rfl
@[simp] theorem State.setCore_free (s : State) (c : CoreSt) : (s.setCore c).free = s.free := rfl
@[simp] theorem State.setCore_draw (s : State) (c : CoreSt) : (s.setCore c).draw = s.draw := rfl
@[simp] theorem State.setCore_agenda (s : State) (c : CoreSt) : (s.setCore c).agenda = s.agenda := rfl
@[simp] theorem State.setCore_turn (s : State) (c : CoreSt) : (s.setCore c).turn = s.turn := rfl
@[simp] theorem State.setCore_resetPlan (s : State) (c : CoreSt) : (s.setCore c).resetPlan = s.resetPlan := rfl

/-! `State.setFreeze` -/

@[simp] theorem State.setFreeze_thr (s : State) (a n : Nat) : (s.setFreeze a n).thr = s.thr := rfl
@[simp] theorem State.setFreeze_others (s : State) (a n : Nat) : (s.setFreeze a n).others = s.others := rfl
@[simp] theorem State.setFreeze_mem (s : State) (a n : Nat) : (s.setFreeze a n).mem = s.mem := rfl
@[simp] theorem State.setFreeze_empty (s : State) (a n : Nat) : (s.setFreeze a n).empty = s.empty := rfl
@[simp] theorem State.setFreeze_poison (s : State) (a n : Nat) : (s.setFreeze a n).poison = s.poison := rfl
@[simp] theorem State.setFreeze_cores (s : State) (a n : Nat) : (s.setFreeze a n).cores = s.cores := rfl
@[simp] theorem State.setFreeze_homeDirty (s : State) (a n : Nat) : (s.setFreeze a n).homeDirty = s.homeDirty := rfl
@[simp] theorem State.setFreeze_replicas (s : State) (a n : Nat) : (s.setFreeze a n).replicas = s.replicas := rfl
@[simp] theorem State.setFreeze_records (s : State) (a n : Nat) : (s.setFreeze a n).records = s.records := rfl
@[simp] theorem State.setFreeze_scPoints (s : State) (a n : Nat) : (s.setFreeze a n).scPoints = s.scPoints := rfl
@[simp] theorem State.setFreeze_tlb (s : State) (a n : Nat) : (s.setFreeze a n).tlb = s.tlb := rfl
@[simp] theorem State.setFreeze_frames (s : State) (a n : Nat) : (s.setFreeze a n).frames = s.frames := rfl
@[simp] theorem State.setFreeze_waits (s : State) (a n : Nat) : (s.setFreeze a n).waits = s.waits := rfl
@[simp] theorem State.setFreeze_msgs (s : State) (a n : Nat) : (s.setFreeze a n).msgs = s.msgs := rfl
@[simp] theorem State.setFreeze_faults (s : State) (a n : Nat) : (s.setFreeze a n).faults = s.faults := rfl
@[simp] theorem State.setFreeze_held (s : State) (a n : Nat) : (s.setFreeze a n).held = s.held := rfl
@[simp] theorem State.setFreeze_loads (s : State) (a n : Nat) : (s.setFreeze a n).loads = s.loads := rfl
@[simp] theorem State.setFreeze_wakes (s : State) (a n : Nat) : (s.setFreeze a n).wakes = s.wakes := rfl
@[simp] theorem State.setFreeze_pageReqs (s : State) (a n : Nat) : (s.setFreeze a n).pageReqs = s.pageReqs := rfl
@[simp] theorem State.setFreeze_svcFaults (s : State) (a n : Nat) : (s.setFreeze a n).svcFaults = s.svcFaults := rfl
@[simp] theorem State.setFreeze_arrivals (s : State) (a n : Nat) : (s.setFreeze a n).arrivals = s.arrivals := rfl
@[simp] theorem State.setFreeze_copies (s : State) (a n : Nat) : (s.setFreeze a n).copies = s.copies := rfl
@[simp] theorem State.setFreeze_rowJobs (s : State) (a n : Nat) : (s.setFreeze a n).rowJobs = s.rowJobs := rfl
@[simp] theorem State.setFreeze_thaws (s : State) (a n : Nat) : (s.setFreeze a n).thaws = s.thaws := rfl
@[simp] theorem State.setFreeze_engJobs (s : State) (a n : Nat) : (s.setFreeze a n).engJobs = s.engJobs := rfl
@[simp] theorem State.setFreeze_matrix (s : State) (a n : Nat) : (s.setFreeze a n).matrix = s.matrix := rfl
@[simp] theorem State.setFreeze_calls (s : State) (a n : Nat) : (s.setFreeze a n).calls = s.calls := rfl
@[simp] theorem State.setFreeze_deadEngines (s : State) (a n : Nat) : (s.setFreeze a n).deadEngines = s.deadEngines := rfl
@[simp] theorem State.setFreeze_fields (s : State) (a n : Nat) : (s.setFreeze a n).fields = s.fields := rfl
@[simp] theorem State.setFreeze_shifts (s : State) (a n : Nat) : (s.setFreeze a n).shifts = s.shifts := rfl
@[simp] theorem State.setFreeze_crews (s : State) (a n : Nat) : (s.setFreeze a n).crews = s.crews := rfl
@[simp] theorem State.setFreeze_gangs (s : State) (a n : Nat) : (s.setFreeze a n).gangs = s.gangs := rfl
@[simp] theorem State.setFreeze_islands (s : State) (a n : Nat) : (s.setFreeze a n).islands = s.islands := rfl
@[simp] theorem State.setFreeze_straits (s : State) (a n : Nat) : (s.setFreeze a n).straits = s.straits := rfl
@[simp] theorem State.setFreeze_farOut (s : State) (a n : Nat) : (s.setFreeze a n).farOut = s.farOut := rfl
@[simp] theorem State.setFreeze_farSeen (s : State) (a n : Nat) : (s.setFreeze a n).farSeen = s.farSeen := rfl
@[simp] theorem State.setFreeze_farFetch (s : State) (a n : Nat) : (s.setFreeze a n).farFetch = s.farFetch := rfl
@[simp] theorem State.setFreeze_farLines (s : State) (a n : Nat) : (s.setFreeze a n).farLines = s.farLines := rfl
@[simp] theorem State.setFreeze_linksDown (s : State) (a n : Nat) : (s.setFreeze a n).linksDown = s.linksDown := rfl
@[simp] theorem State.setFreeze_dropped (s : State) (a n : Nat) : (s.setFreeze a n).dropped = s.dropped := rfl
@[simp] theorem State.setFreeze_conns (s : State) (a n : Nat) : (s.setFreeze a n).conns = s.conns := rfl
@[simp] theorem State.setFreeze_hostWaits (s : State) (a n : Nat) : (s.setFreeze a n).hostWaits = s.hostWaits := rfl
@[simp] theorem State.setFreeze_hostLaunches (s : State) (a n : Nat) : (s.setFreeze a n).hostLaunches = s.hostLaunches := rfl
@[simp] theorem State.setFreeze_hostGets (s : State) (a n : Nat) : (s.setFreeze a n).hostGets = s.hostGets := rfl
@[simp] theorem State.setFreeze_outbox (s : State) (a n : Nat) : (s.setFreeze a n).outbox = s.outbox := rfl
@[simp] theorem State.setFreeze_moduleId (s : State) (a n : Nat) : (s.setFreeze a n).moduleId = s.moduleId := rfl
@[simp] theorem State.setFreeze_ports (s : State) (a n : Nat) : (s.setFreeze a n).ports = s.ports := rfl
@[simp] theorem State.setFreeze_dies (s : State) (a n : Nat) : (s.setFreeze a n).dies = s.dies := rfl
@[simp] theorem State.setFreeze_wear (s : State) (a n : Nat) : (s.setFreeze a n).wear = s.wear := rfl
@[simp] theorem State.setFreeze_retiredUnits (s : State) (a n : Nat) : (s.setFreeze a n).retiredUnits = s.retiredUnits := rfl
@[simp] theorem State.setFreeze_withdrawn (s : State) (a n : Nat) : (s.setFreeze a n).withdrawn = s.withdrawn := rfl
@[simp] theorem State.setFreeze_svcReports (s : State) (a n : Nat) : (s.setFreeze a n).svcReports = s.svcReports := rfl
@[simp] theorem State.setFreeze_imageLoad (s : State) (a n : Nat) : (s.setFreeze a n).imageLoad = s.imageLoad := rfl
@[simp] theorem State.setFreeze_tripped (s : State) (a n : Nat) : (s.setFreeze a n).tripped = s.tripped := rfl
@[simp] theorem State.setFreeze_off (s : State) (a n : Nat) : (s.setFreeze a n).off = s.off := rfl
@[simp] theorem State.setFreeze_nextSerial (s : State) (a n : Nat) : (s.setFreeze a n).nextSerial = s.nextSerial := rfl
@[simp] theorem State.setFreeze_nextId (s : State) (a n : Nat) : (s.setFreeze a n).nextId = s.nextId := rfl
@[simp] theorem State.setFreeze_free (s : State) (a n : Nat) : (s.setFreeze a n).free = s.free := rfl
@[simp] theorem State.setFreeze_draw (s : State) (a n : Nat) : (s.setFreeze a n).draw = s.draw := rfl
@[simp] theorem State.setFreeze_agenda (s : State) (a n : Nat) : (s.setFreeze a n).agenda = s.agenda := rfl
@[simp] theorem State.setFreeze_turn (s : State) (a n : Nat) : (s.setFreeze a n).turn = s.turn := rfl
@[simp] theorem State.setFreeze_resetPlan (s : State) (a n : Nat) : (s.setFreeze a n).resetPlan = s.resetPlan := rfl

/-! `State.modIsland` -/

@[simp] theorem State.modIsland_thr (s : State) (n : Nat) (f : Island → Island) : (s.modIsland n f).thr = s.thr := rfl
@[simp] theorem State.modIsland_others (s : State) (n : Nat) (f : Island → Island) : (s.modIsland n f).others = s.others := rfl
@[simp] theorem State.modIsland_mem (s : State) (n : Nat) (f : Island → Island) : (s.modIsland n f).mem = s.mem := rfl
@[simp] theorem State.modIsland_empty (s : State) (n : Nat) (f : Island → Island) : (s.modIsland n f).empty = s.empty := rfl
@[simp] theorem State.modIsland_poison (s : State) (n : Nat) (f : Island → Island) : (s.modIsland n f).poison = s.poison := rfl
@[simp] theorem State.modIsland_freeze (s : State) (n : Nat) (f : Island → Island) : (s.modIsland n f).freeze = s.freeze := rfl
@[simp] theorem State.modIsland_cores (s : State) (n : Nat) (f : Island → Island) : (s.modIsland n f).cores = s.cores := rfl
@[simp] theorem State.modIsland_homeDirty (s : State) (n : Nat) (f : Island → Island) : (s.modIsland n f).homeDirty = s.homeDirty := rfl
@[simp] theorem State.modIsland_replicas (s : State) (n : Nat) (f : Island → Island) : (s.modIsland n f).replicas = s.replicas := rfl
@[simp] theorem State.modIsland_records (s : State) (n : Nat) (f : Island → Island) : (s.modIsland n f).records = s.records := rfl
@[simp] theorem State.modIsland_scPoints (s : State) (n : Nat) (f : Island → Island) : (s.modIsland n f).scPoints = s.scPoints := rfl
@[simp] theorem State.modIsland_tlb (s : State) (n : Nat) (f : Island → Island) : (s.modIsland n f).tlb = s.tlb := rfl
@[simp] theorem State.modIsland_frames (s : State) (n : Nat) (f : Island → Island) : (s.modIsland n f).frames = s.frames := rfl
@[simp] theorem State.modIsland_waits (s : State) (n : Nat) (f : Island → Island) : (s.modIsland n f).waits = s.waits := rfl
@[simp] theorem State.modIsland_msgs (s : State) (n : Nat) (f : Island → Island) : (s.modIsland n f).msgs = s.msgs := rfl
@[simp] theorem State.modIsland_faults (s : State) (n : Nat) (f : Island → Island) : (s.modIsland n f).faults = s.faults := rfl
@[simp] theorem State.modIsland_held (s : State) (n : Nat) (f : Island → Island) : (s.modIsland n f).held = s.held := rfl
@[simp] theorem State.modIsland_loads (s : State) (n : Nat) (f : Island → Island) : (s.modIsland n f).loads = s.loads := rfl
@[simp] theorem State.modIsland_wakes (s : State) (n : Nat) (f : Island → Island) : (s.modIsland n f).wakes = s.wakes := rfl
@[simp] theorem State.modIsland_pageReqs (s : State) (n : Nat) (f : Island → Island) : (s.modIsland n f).pageReqs = s.pageReqs := rfl
@[simp] theorem State.modIsland_svcFaults (s : State) (n : Nat) (f : Island → Island) : (s.modIsland n f).svcFaults = s.svcFaults := rfl
@[simp] theorem State.modIsland_arrivals (s : State) (n : Nat) (f : Island → Island) : (s.modIsland n f).arrivals = s.arrivals := rfl
@[simp] theorem State.modIsland_copies (s : State) (n : Nat) (f : Island → Island) : (s.modIsland n f).copies = s.copies := rfl
@[simp] theorem State.modIsland_rowJobs (s : State) (n : Nat) (f : Island → Island) : (s.modIsland n f).rowJobs = s.rowJobs := rfl
@[simp] theorem State.modIsland_thaws (s : State) (n : Nat) (f : Island → Island) : (s.modIsland n f).thaws = s.thaws := rfl
@[simp] theorem State.modIsland_engJobs (s : State) (n : Nat) (f : Island → Island) : (s.modIsland n f).engJobs = s.engJobs := rfl
@[simp] theorem State.modIsland_matrix (s : State) (n : Nat) (f : Island → Island) : (s.modIsland n f).matrix = s.matrix := rfl
@[simp] theorem State.modIsland_calls (s : State) (n : Nat) (f : Island → Island) : (s.modIsland n f).calls = s.calls := rfl
@[simp] theorem State.modIsland_deadEngines (s : State) (n : Nat) (f : Island → Island) : (s.modIsland n f).deadEngines = s.deadEngines := rfl
@[simp] theorem State.modIsland_fields (s : State) (n : Nat) (f : Island → Island) : (s.modIsland n f).fields = s.fields := rfl
@[simp] theorem State.modIsland_shifts (s : State) (n : Nat) (f : Island → Island) : (s.modIsland n f).shifts = s.shifts := rfl
@[simp] theorem State.modIsland_crews (s : State) (n : Nat) (f : Island → Island) : (s.modIsland n f).crews = s.crews := rfl
@[simp] theorem State.modIsland_gangs (s : State) (n : Nat) (f : Island → Island) : (s.modIsland n f).gangs = s.gangs := rfl
@[simp] theorem State.modIsland_islands (s : State) (n : Nat) (f : Island → Island) : (s.modIsland n f).islands = s.islands.map (fun i => if i.num == n then f i else i) := rfl
@[simp] theorem State.modIsland_straits (s : State) (n : Nat) (f : Island → Island) : (s.modIsland n f).straits = s.straits := rfl
@[simp] theorem State.modIsland_farOut (s : State) (n : Nat) (f : Island → Island) : (s.modIsland n f).farOut = s.farOut := rfl
@[simp] theorem State.modIsland_farSeen (s : State) (n : Nat) (f : Island → Island) : (s.modIsland n f).farSeen = s.farSeen := rfl
@[simp] theorem State.modIsland_farFetch (s : State) (n : Nat) (f : Island → Island) : (s.modIsland n f).farFetch = s.farFetch := rfl
@[simp] theorem State.modIsland_farLines (s : State) (n : Nat) (f : Island → Island) : (s.modIsland n f).farLines = s.farLines := rfl
@[simp] theorem State.modIsland_linksDown (s : State) (n : Nat) (f : Island → Island) : (s.modIsland n f).linksDown = s.linksDown := rfl
@[simp] theorem State.modIsland_dropped (s : State) (n : Nat) (f : Island → Island) : (s.modIsland n f).dropped = s.dropped := rfl
@[simp] theorem State.modIsland_conns (s : State) (n : Nat) (f : Island → Island) : (s.modIsland n f).conns = s.conns := rfl
@[simp] theorem State.modIsland_hostWaits (s : State) (n : Nat) (f : Island → Island) : (s.modIsland n f).hostWaits = s.hostWaits := rfl
@[simp] theorem State.modIsland_hostLaunches (s : State) (n : Nat) (f : Island → Island) : (s.modIsland n f).hostLaunches = s.hostLaunches := rfl
@[simp] theorem State.modIsland_hostGets (s : State) (n : Nat) (f : Island → Island) : (s.modIsland n f).hostGets = s.hostGets := rfl
@[simp] theorem State.modIsland_outbox (s : State) (n : Nat) (f : Island → Island) : (s.modIsland n f).outbox = s.outbox := rfl
@[simp] theorem State.modIsland_moduleId (s : State) (n : Nat) (f : Island → Island) : (s.modIsland n f).moduleId = s.moduleId := rfl
@[simp] theorem State.modIsland_ports (s : State) (n : Nat) (f : Island → Island) : (s.modIsland n f).ports = s.ports := rfl
@[simp] theorem State.modIsland_dies (s : State) (n : Nat) (f : Island → Island) : (s.modIsland n f).dies = s.dies := rfl
@[simp] theorem State.modIsland_wear (s : State) (n : Nat) (f : Island → Island) : (s.modIsland n f).wear = s.wear := rfl
@[simp] theorem State.modIsland_retiredUnits (s : State) (n : Nat) (f : Island → Island) : (s.modIsland n f).retiredUnits = s.retiredUnits := rfl
@[simp] theorem State.modIsland_withdrawn (s : State) (n : Nat) (f : Island → Island) : (s.modIsland n f).withdrawn = s.withdrawn := rfl
@[simp] theorem State.modIsland_svcReports (s : State) (n : Nat) (f : Island → Island) : (s.modIsland n f).svcReports = s.svcReports := rfl
@[simp] theorem State.modIsland_imageLoad (s : State) (n : Nat) (f : Island → Island) : (s.modIsland n f).imageLoad = s.imageLoad := rfl
@[simp] theorem State.modIsland_tripped (s : State) (n : Nat) (f : Island → Island) : (s.modIsland n f).tripped = s.tripped := rfl
@[simp] theorem State.modIsland_off (s : State) (n : Nat) (f : Island → Island) : (s.modIsland n f).off = s.off := rfl
@[simp] theorem State.modIsland_nextSerial (s : State) (n : Nat) (f : Island → Island) : (s.modIsland n f).nextSerial = s.nextSerial := rfl
@[simp] theorem State.modIsland_nextId (s : State) (n : Nat) (f : Island → Island) : (s.modIsland n f).nextId = s.nextId := rfl
@[simp] theorem State.modIsland_free (s : State) (n : Nat) (f : Island → Island) : (s.modIsland n f).free = s.free := rfl
@[simp] theorem State.modIsland_draw (s : State) (n : Nat) (f : Island → Island) : (s.modIsland n f).draw = s.draw := rfl
@[simp] theorem State.modIsland_agenda (s : State) (n : Nat) (f : Island → Island) : (s.modIsland n f).agenda = s.agenda := rfl
@[simp] theorem State.modIsland_turn (s : State) (n : Nat) (f : Island → Island) : (s.modIsland n f).turn = s.turn := rfl
@[simp] theorem State.modIsland_resetPlan (s : State) (n : Nat) (f : Island → Island) : (s.modIsland n f).resetPlan = s.resetPlan := rfl

/-! ## Updates made of these -/

theorem State.stall_eq (s : State) : s.stall = s.onThr (fun t => { t.hold with status := .stalled }) := rfl

theorem State.park_eq (s : State) (w : Wait) :
    s.park w = s.onThr (fun t => { t.hold with status := .parked, wait := w }) := rfl

theorem State.finishG_eq (s : State) (d : BitVec 6) (x : Word) : s.finishG d x = s.onThr (fun t => (t.wg d x).advance) := rfl

theorem State.modThread_eq (s : State) (k : ThreadKey) (f : Thread → Thread) :
    s.modThread k f = s.mapThreads (fun t => if t.key == k then f t else t) := rfl

theorem State.modCore_eq (s : State) (n : Nat) (f : CoreSt → CoreSt) : s.modCore n f = s.setCore (f (s.core n)) := rfl

/-- Two updates of the thread at issue are one. -/
@[simp] theorem State.onThr_onThr (s : State) (f g : Thread → Thread) : (s.onThr f).onThr g = s.onThr (fun t => g (f t)) := rfl

/-- A store goes to no memory where the scratchpad is retired, and otherwise to memory and to the poison marks alone. -/
theorem State.poke_cases (s : State) (x n v : Nat) :
    s.padHealth x = .retired ∧ s.poke x n v = s ∨
      s.padHealth x ≠ .retired ∧ s.poke x n v = { s.unpoison x n with mem := memWrite s.mem x n v } := by
  by_cases h : s.padHealth x = .retired
  · exact .inl ⟨h, if_pos h⟩
  · exact .inr ⟨h, if_neg h⟩

end Sys2Proof.Machine
end

