-- ==== Sys2Proof/Laws/Memory.lean ====
section
/-! SUPPORT. Memory in its canonical form: what the form says, that every operation over cells and every operation over the
sets of marked words keeps it, and what one byte reads after each. -/

namespace Sys2Proof.Machine

open Sys2Proof

/-! ## The forms as statements about lists -/

/-- The canonical form: locations rise strictly and no listed byte is zero. -/
theorem Memory.wf_iff (m : Memory) : Memory.wf m = true ↔ m.Pairwise (fun c d => c.1 < d.1) ∧ ∀ c ∈ m, c.2 ≠ 0 := by
  induction m with
  | nil => simp [Memory.wf]
  | cons c m ih =>
    cases m with
    | nil => simp [Memory.wf]
    | cons d m =>
      simp only [Memory.wf, Bool.and_eq_true, bne_iff_ne, decide_eq_true_eq, ih, List.pairwise_cons, List.mem_cons,
        forall_eq_or_imp]
      constructor
      · rintro ⟨⟨h1, h2⟩, ⟨h3, h4⟩, h5, h6⟩
        exact ⟨⟨⟨h2, fun e he => lt_trans h2 (h3 e he)⟩, h3, h4⟩, h1, h5, h6⟩
      · rintro ⟨⟨⟨h2, -⟩, h3, h4⟩, h1, h5, h6⟩
        exact ⟨⟨h1, h2⟩, ⟨h3, h4⟩, h5, h6⟩

/-- A rising set rises strictly. -/
theorem risingSet_iff (l : List Nat) : risingSet l = true ↔ l.Pairwise (· < ·) := by
  induction l with
  | nil => simp [risingSet]
  | cons a l ih =>
    cases l with
    | nil => simp [risingSet]
    | cons b l =>
      simp only [risingSet, Bool.and_eq_true, decide_eq_true_eq, ih, List.pairwise_cons, List.mem_cons, forall_eq_or_imp]
      constructor
      · rintro ⟨h1, h2, h3⟩
        exact ⟨⟨h1, fun e he => lt_trans h1 (h2 e he)⟩, h2, h3⟩
      · rintro ⟨⟨h1, -⟩, h2, h3⟩
        exact ⟨h1, h2, h3⟩

/-! ## Cells -/

/-- A cell of memory after a byte is written is that byte's, or it was there before at another location. -/
theorem mem_memSet {m : Memory} {x : Loc} {b : Byte} {c : Host.Cell} (h : c ∈ memSet m x b) : c = (x, b) ∧ b ≠ 0 ∨ c ∈ m := by
  induction m with
  | nil => by_cases hb : b = emptyByte <;> simp_all [memSet, emptyByte]
  | cons d m ih =>
    by_cases hb : b = emptyByte
    · by_cases h1 : x < d.1
      · simp_all [memSet]
      · by_cases h2 : x = d.1
        · exact .inr (List.mem_cons_of_mem _ (by simpa [memSet, h1, h2, hb] using h))
        · simp only [memSet, h1, h2, if_false, List.mem_cons] at h
          rcases h with rfl | h
          · exact .inr (.head _)
          · exact (ih h).imp_right (.tail _)
    · by_cases h1 : x < d.1
      · simp only [memSet, h1, hb, if_true, if_false, List.mem_cons] at h
        exact h.imp (fun h => ⟨h, hb⟩) (fun h => List.mem_cons.2 h)
      · by_cases h2 : x = d.1
        · subst h2
          simp only [memSet, lt_irrefl, hb, if_true, if_false, List.mem_cons] at h
          rcases h with rfl | h
          · exact .inl ⟨rfl, hb⟩
          · exact .inr (.tail _ h)
        · simp only [memSet, h1, h2, if_false, List.mem_cons] at h
          rcases h with rfl | h
          · exact .inr (.head _)
          · exact (ih h).imp_right (.tail _)

/-- Writing a byte keeps the canonical form. -/
theorem memSet_wf {m : Memory} (x : Loc) (b : Byte) (h : Memory.wf m = true) : Memory.wf (memSet m x b) = true := by
  rw [Memory.wf_iff] at h ⊢
  refine ⟨?_, fun c hc => ?_⟩
  · obtain ⟨h, -⟩ := h
    induction m with
    | nil => by_cases hb : b = emptyByte <;> simp [memSet, hb]
    | cons d m ih =>
      obtain ⟨hd, hm⟩ := List.pairwise_cons.1 h
      by_cases h1 : x < d.1
      · by_cases hb : b = emptyByte
        · simpa [memSet, h1, hb] using h
        · simp only [memSet, h1, hb, if_true, if_false]
          refine List.pairwise_cons.2 ⟨fun e he => ?_, h⟩
          rcases List.mem_cons.1 he with rfl | he
          · exact h1
          · exact lt_trans h1 (hd e he)
      · by_cases h2 : x = d.1
        · by_cases hb : b = emptyByte
          · simpa [memSet, h2, hb] using hm
          · simp only [memSet, h2, hb, lt_irrefl, if_true, if_false]
            exact List.pairwise_cons.2 ⟨hd, hm⟩
        · simp only [memSet, h1, h2, if_false]
          refine List.pairwise_cons.2 ⟨fun e he => ?_, ih hm⟩
          rcases mem_memSet he with ⟨rfl, -⟩ | he
          · exact lt_of_le_of_ne (not_lt.1 h1) (Ne.symm h2)
          · exact hd e he
  · rcases mem_memSet hc with ⟨rfl, hb⟩ | hc
    · exact hb
    · exact h.2 c hc

/-- A location below every listed one reads as an unlisted byte does. -/
theorem memGet_of_lt {m : Memory} {x : Loc} (h : ∀ c ∈ m, x < c.1) : memGet m x = 0 := by
  induction m with
  | nil => rfl
  | cons c m ih =>
    have hc : c.1 ≠ x := (ne_of_lt (h c (.head _))).symm
    simp only [memGet, hc, if_false]
    exact ih (fun d hd => h d (.tail _ hd))

/-- What a byte reads after one byte is written. -/
theorem memGet_memSet {m : Memory} (x y : Loc) (b : Byte) (h : Memory.wf m = true) :
    memGet (memSet m x b) y = if y = x then b else memGet m y := by
  rw [Memory.wf_iff] at h
  obtain ⟨h, -⟩ := h
  induction m with
  | nil =>
    by_cases hb : b = emptyByte
    · simp [memSet, hb, memGet]
    · by_cases hy : y = x
      · simp [memSet, hb, memGet, hy]
      · simp [memSet, hb, memGet, hy, Ne.symm hy]
  | cons d m ih =>
    obtain ⟨hd, hm⟩ := List.pairwise_cons.1 h
    by_cases h1 : x < d.1
    · by_cases hb : b = emptyByte
      · simp only [memSet, h1, hb, if_true]
        by_cases hy : y = x
        · rw [if_pos hy, hy]
          refine memGet_of_lt (fun c hc => ?_)
          rcases List.mem_cons.1 hc with rfl | hc
          · exact h1
          · exact lt_trans h1 (hd c hc)
        · rw [if_neg hy]
      · simp only [memSet, h1, hb, if_true, if_false]
        by_cases hy : y = x
        · simp [memGet, hy]
        · simp [memGet, hy, Ne.symm hy]
    · by_cases h2 : x = d.1
      · by_cases hb : b = emptyByte
        · simp only [memSet, h2, hb, lt_irrefl, if_true, if_false]
          by_cases hy : y = d.1
          · rw [if_pos hy, hy]
            exact memGet_of_lt hd
          · simp [memGet, hy, Ne.symm hy]
        · simp only [memSet, h2, hb, lt_irrefl, if_true, if_false]
          by_cases hy : y = d.1
          · simp [memGet, hy]
          · simp [memGet, hy, Ne.symm hy]
      · simp only [memSet, h1, h2, if_false]
        by_cases hy : d.1 = y
        · have : y ≠ x := by rw [← hy]; exact Ne.symm h2
          simp [memGet, hy, this]
        · simp only [memGet, hy, if_false]
          exact ih hm

/-- Writing n bytes keeps the canonical form. -/
theorem memWrite_wf {m : Memory} (x n v : Nat) (h : Memory.wf m = true) : Memory.wf (memWrite m x n v) = true := by
  induction n generalizing m x v with
  | zero => exact h
  | succ n ih => exact ih _ _ (memSet_wf _ _ h)

/-- Writing bytes under a mask keeps the canonical form. -/
theorem memWriteMask_wf {m : Memory} (x n k v : Nat) (h : Memory.wf m = true) :
    Memory.wf (memWriteMask m x n k v) = true := by
  induction n generalizing m x k v with
  | zero => exact h
  | succ n ih =>
    refine ih _ _ _ ?_
    split
    · exact memSet_wf _ _ h
    · exact h

/-- Writing a list of bytes keeps the canonical form. -/
theorem memWriteList_wf {m : Memory} (x : Loc) (l : List Byte) (h : Memory.wf m = true) :
    Memory.wf (memWriteList m x l) = true := by
  induction l generalizing m x with
  | nil => exact h
  | cons b l ih => exact ih _ (memSet_wf _ _ h)

/-- Setting a range to zero keeps the canonical form. -/
theorem memClear_wf {m : Memory} (lo n : Nat) (h : Memory.wf m = true) : Memory.wf (memClear m lo n) = true := by
  rw [Memory.wf_iff] at h ⊢
  exact ⟨h.1.filter _, fun c hc => h.2 c (List.mem_of_mem_filter hc)⟩

/-- What a byte reads after a range is set to zero. -/
theorem memGet_memClear (m : Memory) (lo n y : Nat) :
    memGet (memClear m lo n) y = if lo ≤ y ∧ y < lo + n then 0 else memGet m y := by
  induction m with
  | nil => simp [memClear, memGet, emptyByte]
  | cons c m ih =>
    unfold memClear at ih ⊢
    rw [List.filter_cons]
    by_cases hk : c.1 < lo ∨ lo + n ≤ c.1
    · rw [if_pos (by simpa using hk)]
      by_cases hy : c.1 = y
      · have : ¬ (lo ≤ y ∧ y < lo + n) := by omega
        simp [memGet, hy, this]
      · simp only [memGet, hy, if_false, ih]
    · rw [if_neg (by simpa using hk), ih]
      by_cases hy : c.1 = y
      · rw [if_pos (by omega), if_pos (by omega)]
      · simp only [memGet, hy, if_false]

/-- Memory at reset lists nothing, and is in its canonical form. -/
theorem reset_mem_wf : Memory.wf State.reset.mem = true := rfl

/-! ## Sets of marked words -/

theorem mem_setAdd {l : List Nat} {x y : Nat} : y ∈ setAdd l x ↔ y = x ∨ y ∈ l := by
  induction l with
  | nil => simp [setAdd]
  | cons a l ih =>
    by_cases h1 : x < a
    · simp [setAdd, h1]
    · by_cases h2 : x = a
      · simp [setAdd, h2]
      · simp [setAdd, h1, h2, ih, or_left_comm]

theorem mem_setDel {l : List Nat} {x y : Nat} : y ∈ setDel l x ↔ y ∈ l ∧ y ≠ x := by simp [setDel]

theorem mem_setClear {l : List Nat} {lo n y : Nat} : y ∈ setClear l lo n ↔ y ∈ l ∧ (y < lo ∨ lo + n ≤ y) := by
  simp [setClear]

/-- Adding a word to a rising set keeps it rising. -/
theorem setAdd_rising {l : List Nat} (x : Nat) (h : risingSet l = true) : risingSet (setAdd l x) = true := by
  rw [risingSet_iff] at h ⊢
  induction l with
  | nil => simp [setAdd]
  | cons a l ih =>
    obtain ⟨ha, hl⟩ := List.pairwise_cons.1 h
    by_cases h1 : x < a
    · simp only [setAdd, h1, if_true]
      refine List.pairwise_cons.2 ⟨fun y hy => ?_, h⟩
      rcases List.mem_cons.1 hy with rfl | hy
      · exact h1
      · exact lt_trans h1 (ha y hy)
    · by_cases h2 : x = a
      · simpa [setAdd, h2] using ⟨ha, hl⟩
      · simp only [setAdd, h1, h2, if_false]
        refine List.pairwise_cons.2 ⟨fun y hy => ?_, ih hl⟩
        rcases mem_setAdd.1 hy with rfl | hy
        · omega
        · exact ha y hy

/-- Filtering a rising set keeps it rising. -/
theorem filter_rising {l : List Nat} (q : Nat → Bool) (h : risingSet l = true) : risingSet (l.filter q) = true := by
  rw [risingSet_iff] at h ⊢
  exact h.filter q

theorem setDel_rising {l : List Nat} (x : Nat) (h : risingSet l = true) : risingSet (setDel l x) = true := filter_rising _ h

theorem setClear_rising {l : List Nat} (lo n : Nat) (h : risingSet l = true) : risingSet (setClear l lo n) = true :=
  filter_rising _ h

/-! ## The invariant over the named operations -/

/-- The invariant is three facts. -/
theorem State.memOk_iff (s : State) : s.memOk = true ↔ Memory.wf s.mem = true ∧ risingSet s.empty = true ∧ risingSet s.poison = true := by
  simp [State.memOk, and_assoc]

/-- It depends on memory and its marks alone. -/
theorem State.memOk_of_eq {s t : State} (h : s.memOk = true) (hm : t.mem = s.mem) (he : t.empty = s.empty)
    (hp : t.poison = s.poison) : t.memOk = true := by
  rwa [State.memOk, hm, he, hp]

theorem State.onThr_memOk {s : State} (f : Thread → Thread) (h : s.memOk = true) : (s.onThr f).memOk = true :=
  State.memOk_of_eq h rfl rfl rfl

theorem State.mapThreads_memOk {s : State} (f : Thread → Thread) (h : s.memOk = true) : (s.mapThreads f).memOk = true :=
  State.memOk_of_eq h rfl rfl rfl

theorem State.setCore_memOk {s : State} (c : CoreSt) (h : s.memOk = true) : (s.setCore c).memOk = true :=
  State.memOk_of_eq h rfl rfl rfl

theorem State.wake_memOk {s : State} (k : ThreadKey) (h : s.memOk = true) : (s.wake k).memOk = true :=
  State.memOk_of_eq h (by simp) (by simp) (by simp)

theorem State.setFull_memOk {s : State} (w : Nat) (b : Bool) (h : s.memOk = true) : (s.setFull w b).memOk = true := by
  rw [State.memOk_iff] at h ⊢
  refine ⟨h.1, ?_, h.2.2⟩
  cases b
  · exact setAdd_rising _ h.2.1
  · exact setDel_rising _ h.2.1

theorem State.unpoison_memOk {s : State} (x n : Nat) (h : s.memOk = true) : (s.unpoison x n).memOk = true := by
  rw [State.memOk_iff] at h ⊢
  exact ⟨h.1, h.2.1, filter_rising _ h.2.2⟩

theorem State.poke_memOk {s : State} (x n v : Nat) (h : s.memOk = true) : (s.poke x n v).memOk = true := by
  rcases s.poke_cases x n v with ⟨-, hs⟩ | ⟨-, hs⟩ <;> rw [hs]
  · exact h
  · have hu := State.unpoison_memOk x n h
    rw [State.memOk_iff] at hu ⊢
    exact ⟨memWrite_wf _ _ _ hu.1, hu.2⟩

/-- The eviction of a home line touches no byte. -/
theorem State.sliceRoom_memOk {s : State} (line : Nat) (h : s.memOk = true) : (s.sliceRoom line).memOk = true := by
  unfold State.sliceRoom
  dsimp only
  split
  · exact h
  · split
    · exact h
    · exact State.memOk_of_eq h rfl rfl rfl

theorem State.mergeHome_memOk {s : State} (line : Nat) (m : BitVec 128) (d : BitVec 1024) (h : s.memOk = true) :
    (s.mergeHome line m d).memOk = true := by
  unfold State.mergeHome
  split
  · exact h
  · refine State.sliceRoom_memOk _ ?_
    rw [State.memOk_iff] at h ⊢
    exact ⟨memWriteMask_wf _ _ _ _ h.1, h.2.1, filter_rising _ h.2.2⟩

end Sys2Proof.Machine
end

