-- ==== Sys2Proof/Laws/Ops.lean ====
section
/-! SUPPORT. One lemma for each shared operation that says once everything it can do: taking a trap and returning from one,
transfers, the checks of an access, the port, plain loads and stores, and the step itself. -/

namespace Sys2Proof.Machine

open Sys2Proof

/-! ## Traps -/

/-- A trap ends a handler of a call or field, waits for the handler's own pending entries, terminates the crew, or enters the
trap handler (R193, R295, R298). -/
theorem State.enterTrap_cases (s : State) (c : Cause) (i0 i1 : Word) (r : BitVec 52) (rpl : Bool) (left : Nat) :
    s.thr.isHandler = true ∧ s.enterTrap c i0 i1 r rpl left = s.onThr (fun t => t.handlerFault c) ∨
    s.thr.isHandler = false ∧ s.thr.handlerOpen = true ∧ s.enterTrap c i0 i1 r rpl left = s.stall ∨
    s.thr.isHandler = false ∧ s.thr.handlerOpen = false ∧ (s.thr.tvec = 0 ∨ s.vectorOk = false) ∧
      s.enterTrap c i0 i1 r rpl left = s.terminateCrew s.thr.crewId c ∨
    s.thr.isHandler = false ∧ s.thr.handlerOpen = false ∧ s.thr.tvec ≠ 0 ∧ s.vectorOk = true ∧
      s.enterTrap c i0 i1 r rpl left = s.onThr (fun t => t.trapEntry c i0 i1 r rpl left) := by
  by_cases h1 : s.thr.isHandler = true
  · exact .inl ⟨h1, by simp [State.enterTrap, h1]⟩
  · by_cases h2 : s.thr.handlerOpen = true
    · exact .inr (.inl ⟨by simpa using h1, h2, by simp [State.enterTrap, h1, h2]⟩)
    · by_cases h3 : s.thr.tvec = 0
      · exact .inr (.inr (.inl ⟨by simpa using h1, by simpa using h2, .inl h3, by simp [State.enterTrap, h1, h2, h3]⟩))
      · by_cases h4 : s.vectorOk = true
        · exact .inr (.inr (.inr ⟨by simpa using h1, by simpa using h2, h3, h4, by
          simp only [State.enterTrap, h1, h2, h4, decide_eq_false h3]; rfl⟩))
        · exact .inr (.inr (.inl ⟨by simpa using h1, by simpa using h2, .inr (by simpa using h4),
            by simp [State.enterTrap, h1, h2, h4]⟩))

/-- The registers after the entry to a trap handler (R295). -/
theorem Thread.trapEntry_regs (t : Thread) (c : Cause) (i0 i1 : Word) (r : BitVec 52) (rpl : Bool) (left : Nat) :
    (t.trapEntry c i0 i1 r rpl left).pc = t.tvec ∧ (t.trapEntry c i0 i1 r rpl left).hstate = true ∧
    (t.trapEntry c i0 i1 r rpl left).tcause = BitVec.ofNat 8 c.code ∧ (t.trapEntry c i0 i1 r rpl left).tinfo0 = i0 ∧
    (t.trapEntry c i0 i1 r rpl left).tinfo1 = i1 ∧ (t.trapEntry c i0 i1 r rpl left).status = .ready :=
  ⟨rfl, rfl, rfl, rfl, rfl, rfl⟩

/-- A precise trap comes after a parking condition of the code that it would interrupt, and after the windows of its own handler
(log 16, R35, R295). -/
theorem State.trap_cases (s : State) (c : Cause) (i0 i1 : Word) :
    (∃ e, s.parkFirst = some e ∧ s.trap c i0 i1 = s.takePark e) ∨
    s.parkFirst = none ∧ s.trap c i0 i1 = s.endWindows fun u => u.enterTrap c i0 i1 u.thr.unitPc false 0 := by
  unfold State.trap
  split
  · next e h => exact .inl ⟨e, h, rfl⟩
  · next h => exact .inr ⟨h, rfl⟩

/-- The unit goes on exactly where no check failed. -/
theorem State.unless_cases (s : State) (t : Option TrapInfo) (k : State → State) :
    t = none ∧ s.unless t k = k s ∨ ∃ i, t = some i ∧ s.unless t k = s.trap i.cause i.i0 i.i1 := by
  cases t with
  | none => exact .inl ⟨rfl, rfl⟩
  | some i => exact .inr ⟨i, rfl, rfl⟩

/-- No check fails exactly where each of them passes. -/
theorem firstTrap_eq_none (l : List (Option TrapInfo)) : firstTrap l = none ↔ ∀ x ∈ l, x = none := by
  induction l with
  | nil => simp [firstTrap]
  | cons a l ih => cases a <;> simp [firstTrap, ih]

/-- The check of one access passes exactly where the rights, the space, the bounds and the alignment do (R30). -/
theorem segCheck_eq_none (g : Seg) (idx off size align : Nat) (rights : BitVec 8) (ok : Bool) :
    segCheck g idx off size align rights ok = none ↔
      g.rights &&& rights = rights ∧ ok = true ∧ off + size ≤ g.len ∧ off % align = 0 := by
  unfold segCheck
  by_cases h1 : g.rights &&& rights = rights <;> cases ok <;> by_cases h2 : off + size > g.len <;>
    by_cases h3 : off % align = 0 <;> simp [h1, h2, h3]; omega

/-- A transfer goes to its target, or traps, or waits for a page (R41, R193). -/
theorem State.transfer_cases (s : State) (a : Word) (f : Thread → Thread) :
    checkTarget s s.thr.view a = .ok ∧ s.thr.inRegion a.toNat = true ∧
      s.transfer a f = s.onThr (fun t => (f t).goto (a.truncate 52)) ∨
    (∃ c i0, s.transfer a f = s.trap c i0 0) ∨
    s.thr.isHandler = true ∧ (s.transfer a f = s.stall ∨ ∃ va l e, s.transfer a f = (s.serviceFault s.thr.view 3 va l e).stall) ∨
    s.thr.isHandler = false ∧ ∃ va, s.transfer a f = s.parkPage va ∨
      ∃ l e, s.transfer a f = (s.serviceFault s.thr.view 0 va l e).parkPage va := by
  unfold State.transfer
  split
  · exact .inr (.inl ⟨_, _, rfl⟩)
  · split
    · next h => exact .inr (.inr (.inl ⟨h, .inl rfl⟩))
    · next h => exact .inr (.inr (.inr ⟨by simpa using h, _, .inl rfl⟩))
  · split
    · next h => exact .inr (.inr (.inl ⟨h, .inr ⟨_, _, _, rfl⟩⟩))
    · next h => exact .inr (.inr (.inr ⟨by simpa using h, _, .inr ⟨_, _, rfl⟩⟩))
  · next h =>
    split
    · next hr => exact .inl ⟨h, hr, rfl⟩
    · exact .inr (.inl ⟨_, _, rfl⟩)

/-- The handler's windows end before what follows: its atomics are performed, and a failed entry of its own is taken in its
place (R35, R296). -/
theorem State.endWindows_cases (s : State) (k : State → State) :
    s.thr.hstate = false ∧ s.endWindows k = k s ∨
    s.thr.hstate = true ∧ ∃ s1, (s1 = s ∨ s1 = s.performMsgs (fun m => m.op.answers && m.key == s.thr.key)) ∧
      ((∃ e, s1.thr.ownFailed = some e ∧ s.endWindows k = s1.takeFailed e) ∨
        s1.thr.ownFailed = none ∧ s.endWindows k = k s1) := by
  cases h : s.thr.hstate
  · exact .inl ⟨rfl, by simp [State.endWindows, h]⟩
  · refine .inr ⟨rfl, if s.msgs.isEmpty then s else s.performMsgs (fun m => m.op.answers && m.key == s.thr.key), ?_, ?_⟩
    · split
      · exact .inl rfl
      · exact .inr rfl
    · simp only [State.endWindows, h, Bool.not_true, Bool.false_eq_true, if_false]
      generalize (if s.msgs.isEmpty then s else s.performMsgs (fun m => m.op.answers && m.key == s.thr.key)) = s1
      cases he : s1.thr.ownFailed with
      | some e => exact .inl ⟨e, rfl, rfl⟩
      | none => exact .inr ⟨rfl, rfl⟩

/-- The return from a trap, once the handler's windows have ended, leaves handler state, or traps again, or waits
(R36, R42). -/
theorem State.trapReturn_cases (s : State) :
    ∃ s1 : State, s.trapReturn = s1.retryJobs.onThr Thread.trapReturn ∧ s1.thr.handlerOpen = false ∨
      s.trapReturn = s1.stall ∧ s1.thr.handlerOpen = true ∨ (∃ e, s.trapReturn = s1.takeFailed e) ∨
      (∃ c i0, s.trapReturn = s1.trap c i0 0) ∨
      ∃ va, s.trapReturn = s1.parkPage va ∨ ∃ l e, s.trapReturn = (s1.serviceFault s1.thr.view 0 va l e).parkPage va := by
  unfold State.trapReturn
  rcases s.endWindows_cases _ with ⟨-, h⟩ | ⟨-, s1, -, ⟨e, -, h⟩ | ⟨-, h⟩⟩
  case inr.inl => exact ⟨s1, .inr (.inr (.inl ⟨e, h⟩))⟩
  all_goals
    rw [h]
    dsimp only
    split
    · exact ⟨_, .inr (.inr (.inr (.inl ⟨_, _, rfl⟩)))⟩
    · exact ⟨_, .inr (.inr (.inr (.inr ⟨_, .inl rfl⟩)))⟩
    · exact ⟨_, .inr (.inr (.inr (.inr ⟨_, .inr ⟨_, _, rfl⟩⟩)))⟩
    · split
      · next h => exact ⟨_, .inr (.inl ⟨rfl, h⟩)⟩
      · next h => exact ⟨_, .inl ⟨rfl, by simpa using h⟩⟩

/-! ## The port -/

/-- A read whose result the unit needs goes on unless an acquire of the thread before it is open (R239). -/
theorem State.readGate_cases (s : State) (k : State → State) :
    s.thr.acquireBelow s.thr.accessNum = false ∧ s.readGate k = k s ∨
      s.thr.acquireBelow s.thr.accessNum = true ∧ s.readGate k = s.stall := by
  cases h : s.thr.acquireBelow s.thr.accessNum <;> simp [State.readGate, h]

/-- A release goes on once the thread's earlier loads and atomics are performed and its stores have left the port
(R236, R237). -/
theorem State.writeGate_cases (s : State) (k : State → State) :
    ∃ s1, (s1 = s.flushPort (coreIndex s.thr.view) ∨
        s1 = (s.performMsgs (fun m => m.op.answers && m.key == s.thr.key)).flushPort (coreIndex s.thr.view)) ∧
      (s.writeGate k = s1.stall ∨
        s1.thr.loadsOpen = false ∧ s1.portOf (coreIndex s.thr.view) s1.thr.key = false ∧ s.writeGate k = k s1) := by
  refine ⟨(if s.msgs.isEmpty then s else s.performMsgs (fun m => m.op.answers && m.key == s.thr.key)).flushPort
    (coreIndex s.thr.view), ?_, ?_⟩
  · split
    · exact .inl rfl
    · exact .inr rfl
  · unfold State.writeGate
    dsimp only
    generalize State.flushPort _ (coreIndex s.thr.view) = s1
    split
    · exact .inl rfl
    · next h =>
      simp only [Bool.or_eq_true, not_or, Bool.not_eq_true] at h
      exact .inr ⟨h.1, h.2, rfl⟩

/-- An access that must be performed at once goes on once nothing at the port stands before it; a handler has no port
(R190, R235). -/
theorem State.portGate_cases (s : State) (k : PortKind) (x n : Nat) (go : State → State) :
    s.thr.isHandler = true ∧ s.portGate k x n go = go s ∨
    s.thr.isHandler = false ∧
      let s1 := s.portOpen (coreIndex s.thr.view) (s.item k [(x, n)])
      (s.portGate k x n go = go s1 ∧ s1.portFree (coreIndex s.thr.view) (s1.item k [(x, n)]) = true ∨
        s.portGate k x n go = s1.stall ∧ s1.portFree (coreIndex s.thr.view) (s1.item k [(x, n)]) = false) := by
  unfold State.portGate
  split
  · next h => exact .inl ⟨h, rfl⟩
  · next h =>
    refine .inr ⟨by simpa using h, ?_⟩
    dsimp only
    split
    · next hp => exact .inl ⟨rfl, hp⟩
    · next hp => exact .inr ⟨rfl, by simpa using hp⟩

/-- A store of one line at the port is performed, or waits there as the youngest (R236). -/
theorem State.portStore_cases (s : State) (c : Nat) (key : ThreadKey) (upTo pc va x n v : Nat) (pol : BitVec 2) (sync quiet : Bool) :
    s.portStore c key upTo pc va x n v pol sync quiet = s.performStore c key va x n v pol (sync || s.isDead key) ∨
    s.portStore c key upTo pc va x n v pol sync quiet = s.modCore c (fun k =>
      { k with port := k.port ++ [⟨key, upTo, s.draw, pc, va, x, n, v, pol, sync, quiet⟩] }) := by
  unfold State.portStore
  dsimp only
  split
  · exact .inl rfl
  · exact .inr rfl

/-! ## Loads and stores -/

/-- A plain load whose checks have passed: it leaves the entry of its destination pending with what it found, or the port holds
it (R119, R235); a handler's waits, or ends where its bytes cannot be read. -/
theorem State.loadUnit_cases (s : State) (g : Seg) (ps : List (Nat × Nat × Nat)) (d : Dest) (left sx : Nat) :
    let r := s.loadElems g ps
    s.thr.isHandler = false ∧ s.loadUnit g ps d left sx = r.1.holdLoad g ps d left sx none ∨
    s.thr.isHandler = true ∧
      (s.loadUnit g ps d left sx = r.1.stall ∨ ∃ c, s.loadUnit g ps d left sx = s.onThr (fun t => t.handlerFault c)) ∨
    s.loadUnit g ps d left sx = r.1.onThr (fun t => (t.loadEntry false d left r.2 (loadConv sx)).advance) := by
  intro r
  unfold State.loadUnit
  dsimp only
  split
  · next h _ => exact .inl ⟨h, rfl⟩
  · next h _ => exact .inr (.inl ⟨h, .inl rfl⟩)
  · next h _ => exact .inr (.inl ⟨h, .inl rfl⟩)
  · next h _ => exact .inr (.inl ⟨h, .inr ⟨_, rfl⟩⟩)
  · exact .inr (.inr rfl)

/-- A plain load whose checks pass is a far load, or an access to the bytes of its segment (R119). -/
theorem State.load_of_checks (s : State) (i : BitVec 3) (off : Word) (n : Nat) (d : Dest) (la : BitVec 4) (sx : Nat)
    (hc : s.accCheck i off.toNat n n rightR .load = none) :
    let g := s.thr.seg i
    s.load i off n d la sx =
      if g.space = spFar then s.farLoad g d (s.thr.lookahead la) [(g.base.toNat + off.toNat, n)] sx
      else s.loadUnit g (g.loadParts n [(0, off.toNat)]) d (s.thr.lookahead la) sx := by
  simp [State.load, State.unless, hc]

/-- A plain load that fails a check traps with that check (R30, R116). -/
theorem State.load_of_trap (s : State) (i : BitVec 3) (off : Word) (n : Nat) (d : Dest) (la : BitVec 4) (sx : Nat)
    (t : TrapInfo) (hc : s.accCheck i off.toNat n n rightR .load = some t) :
    s.load i off n d la sx = s.trap t.cause t.i0 t.i1 := by
  simp [State.load, State.unless, hc]

/-- A store behind the port is held by a parking condition, ends or stalls a handler, or has its elements performed, left at
the port, or recorded (R235, R294, R297). -/
theorem State.storeBytes_cases (s : State) (g : Seg) (es : List (Nat × Nat × Nat)) :
    (∃ r, r.holds = true ∧
      (s.storeBytes g es = (s.reported s.thr.view (if s.thr.isHandler then 3 else 0) r).stall ∨
        s.storeBytes g es = ((s.reported s.thr.view (if s.thr.isHandler then 3 else 0) r).holdStore g es s.thr.relFence
          true .plain).onThr (fun t => { t with relFence := false }))) ∨
    (∃ c, s.storeBytes g es = s.onThr (fun t => t.handlerFault c)) ∨
    s.storeBytes g es = (s.storeElems g s.thr.relFence es false).onThr (fun t => { t with relFence := false }) := by
  unfold State.storeBytes
  dsimp only
  split
  · next _ _ r hr =>
    refine .inl ⟨r, by simpa using List.find?_some hr, ?_⟩
    generalize s.reported s.thr.view (if s.thr.isHandler = true then 3 else 0) r = s1
    split
    · exact .inl rfl
    · exact .inr rfl
  · split
    · exact .inr (.inl ⟨_, rfl⟩)
    · exact .inr (.inr rfl)

/-- A plain store: its checks, then its bytes (R120). -/
theorem State.store_eq (s : State) (i : BitVec 3) (off : Word) (n v : Nat) :
    s.store i off n v = s.unless (firstTrap [s.accCheck i off.toNat n n rightW .store, s.fieldCheck (s.thr.seg i) off.toNat n])
      (fun s => (s.storeBytes (s.thr.seg i) [(off.toNat, n, v)]).finishStore) := rfl

/-! ## What is due before a unit -/

/-- What comes before the unit at issue, in the order of R296: a fault or parking condition of the code's own that is known, a held
store, a record, a matrix fault, and else what lands. -/
theorem State.due_cases (s : State) :
    (∃ e ∈ s.thr.pending, s.thr.mine e = true ∧ e.known = true ∧ s.due = .stop (s.takeFailed e)) ∨
    s.due = .stop (s.park .held) ∨ (∃ f, s.ownRecord = some f ∧ s.due = .stop (s.deliverRecord f)) ∨
    (∃ w, s.thr.unitTrap = some w ∧ w.cause = .matrixOperand ∧ s.due = .stop (s.deliverUnit w)) ∨
    (∃ f, s.thr.matrixFault = some f ∧ s.due = .stop (s.deliverMatrix f)) ∨ s.due = s.dueUnit := by
  unfold State.due
  split
  · next e h => exact .inl ⟨e, List.mem_of_find?_eq_some h, by simpa using List.find?_some h⟩
  · split
    · exact .inr (.inl rfl)
    · split
      · next f h => exact .inr (.inr (.inl ⟨f, by revert h; split <;> simp, rfl⟩))
      · split
        · next _ _ w h => exact .inr (.inr (.inr (.inl ⟨w, by simp_all [Option.filter_eq_some_iff], by simp_all [Option.filter_eq_some_iff], rfl⟩)))
        · next f _ h => exact .inr (.inr (.inr (.inr (.inl ⟨f, by revert h; split <;> simp, rfl⟩))))
        · exact .inr (.inr (.inr (.inr (.inr rfl))))

/-! ## The step -/

/-- A step makes the first move listed, or stops because the module is off, or wakes a thread, or gives a turn. -/
theorem step_cases (s : State) :
    (∃ m l, s.agenda = m :: l ∧ step s = State.move { s.nextDraw with agenda := l } m) ∨
    s.agenda = [] ∧ s.off = true ∧ step s = .fault .moduleOff ∨
    (∃ k l, s.agenda = [] ∧ s.off = false ∧ s.wakes = k :: l ∧ step s = execWake k s.nextDraw) ∨
    s.agenda = [] ∧ s.off = false ∧ s.wakes = [] ∧ step s = s.nextDraw.rotate := by
  unfold step
  split
  · next h => exact .inl ⟨_, _, h, rfl⟩
  · next h =>
    cases ho : s.off
    · split
      · simp_all
      · split
        · next hw => exact .inr (.inr (.inl ⟨_, _, h, rfl, hw, rfl⟩))
        · next hw => exact .inr (.inr (.inr ⟨h, rfl, hw, rfl⟩))
    · exact .inr (.inl ⟨h, rfl, by simp⟩)

end Sys2Proof.Machine
end

