-- ==== Sys2Proof/Tests/Slice0.lean ====
section
/-! SUPPORT. The model's own tests: words written out from the manual's encodings, values worked out by hand from its rules, and
for every statement of Certificates/Slice0/Obligations.lean that has hypotheses a state that meets them. -/

namespace Sys2Proof.Tests

open Sys2Proof Sys2Proof.Machine

set_option Elab.async false
set_option maxRecDepth 100000
set_option exponentiation.threshold 9000

/-! ## Small states -/

/-- A segment with every right. -/
def seg (sp : BitVec 4) (base : BitVec 52) (len : Nat) : Seg := ⟨base, len, 0xFF, sp, 0, 0⟩

/-- A ready thread of crew 0 of shift 1, in island 1, cluster 0, core 0, slot 0, at 0x100: s0 is memory from address 0, s1 lane
memory, s2 core scratchpad, s3 the bank-linear window, s4 stack scratchpad. -/
def th : Thread :=
  { Thread.blank (.crew 1 0 0) with
    view := ⟨1, 0, 0, 0, 0, 0x10000, 0, 0x10000⟩
    status := .ready, unitEnd := .held, pc := 0x100
    segs := #v[seg spInter 0 0x40000, seg spLane 0 0x2000, seg spCore 0 0x10000, seg spBank (BitVec.ofNat 52 (2 ^ 51)) 0x400000,
      seg spStack 0 0x10000, Seg.empty, Seg.empty, Seg.empty] }

/-- An island of one tile, cluster 0. -/
def isl : Island := ⟨1, 5, .rect 0 0 0 1 1, 0x100000, 0, 0, [], [], [], []⟩

/-- One thread at issue. The page tables at 0x100000 map addresses below 2^40 to the island's memory, and the first pages of the
bank-linear window, each with every right. -/
def st (t : Thread) : State :=
  { State.reset with
    thr := t
    islands := [isl]
    mem := [(0x100000, 31), (0x104000, 1), (0x104002, 0x11), (0x110000, 1), (0x110002, 0x12), (0x120000, 31), (0x120008, 31)]
    frames := [⟨0, 5, 0, false⟩, ⟨16, 5, 0, false⟩, ⟨17, 5, 0, false⟩, ⟨18, 5, 0, false⟩, ⟨1, 5, 0, false⟩] }

/-- The state with bytes written. -/
def put (s : State) (x n v : Nat) : State := { s with mem := memWrite s.mem x n v }

/-- The outcome is a next state of which a test holds. -/
def gives (o : Host.Outcome State Fault Refusal) (p : State → Bool) : Bool :=
  match o with
  | .next t => p t
  | _ => false

/-- The outcome is this next state. -/
def isNext (o : Host.Outcome State Fault Refusal) (t : State) : Bool :=
  match o with
  | .next u => u == t
  | _ => false

/-- Only landings are due, and leave a state of which a test holds. -/
def clears (d : Due) (p : State → Bool) : Bool :=
  match d with
  | .clear r => p r
  | .stop _ => false

/-- Something else is due, and leaves a state of which a test holds. -/
def stops (d : Due) (p : State → Bool) : Bool :=
  match d with
  | .clear _ => false
  | .stop r => p r

/-- The threads keep their named registers. -/
def same (s t : State) : Bool := t.threads.map Thread.named == s.threads.map Thread.named

/-- The listed settled bytes outside the ranges are as before. -/
def kept (s t : State) (stored : List (Loc × Nat)) : Bool :=
  (s.mem ++ t.mem).all fun c => !s.settled c.1 || stored.any (fun r => r.1 ≤ c.1 && c.1 < r.1 + r.2) ||
    memGet t.mem c.1 == memGet s.mem c.1

/-- The unit has completed, and the threads keep their named registers. -/
def passes (s t : State) : Bool :=
  same s t && t.thr.pc == s.thr.nextPc && t.thr.unitEnd == .done && t.thr.status == s.thr.status

/-- The thread at issue is parked at its unit. -/
def parks (s t : State) (w : Wait) : Bool :=
  same s t && t.thr.status == .parked && t.thr.wait == w && t.thr.pc == s.thr.pc && t.thr.unitEnd == .held

/-- The second thread of the crew, on core 1. -/
def th1 : Thread := { th with key := .crew 1 0 1, view := { th.view with core := 1 } }

/-- The crew, and a shift of which it is the only crew. -/
def crw : Crew := ⟨1, 0, 1, 0, 0, 0x10000, [(0, 0, 0x10000)], 2, [], none, false⟩

/-- A shift of one crew of two threads. -/
def shf : Shift := { packetShift (2 ^ 116) 0x400 1 1 false none none with serial := 1, next := 1, gone := true, live := 1 }

/-- Both threads, their crew and shift. -/
def s2 (t : Thread) : State :=
  { st { t with nthr := 2 } with others := [{ th1 with nthr := 2 }], crews := [crw], shifts := [shf], nextSerial := 2 }

/-- A handle table at 0x400: 4 entries with ADM and LNC; memory, code, the bank-linear window, core scratchpad. -/
def tab (s : State) (hd : Nat) : State :=
  put (put (put (put (put s 0x400 8 hd) 0x420 32 (entryOfSeg (seg spInter 0 0x40000))) 0x440 32
    (entryOfSeg (seg spCode 0 0x40000))) 0x460 32 (entryOfSeg (seg spBank (BitVec.ofNat 52 (2 ^ 51)) 0x400000))) 0x480 32
    (entryOfSeg (seg spCore 0 0x10000))

/-- The thread with that table. -/
def thH : Thread := { th with htab := 0x400, tvec := 0x200 }

/-- Handle-offset values through memory's handle. -/
def at1 (off : Nat) : Word := BitVec.ofNat 64 (off * 65536 + 1)

/-- An engine of cluster 0 with work and owned tiles. -/
def eng (owners : List (Nat × Nat × Nat)) (ops : List MatrixOp) : MatrixEng := ⟨0, owners, ops, 7, [], [], [], 0, false, false⟩

/-- A descriptor at 0x900: FP32 by format 0, K = M = N = 1, A at 0xA00 and B at 0xB00, barrier at 0xC00. -/
def desc1 : Nat := (at1 0xA00).toNat + (at1 0xB00).toNat * 2 ^ 64 + (at1 0xC00).toNat * 2 ^ 384 + 2 ^ 512 + 2 ^ 544 + 2 ^ 551

/-- The thread, with FP32 in %fmt0, and with tiles 3 and 4 of the engine. -/
def mst (ops : List MatrixOp) : State :=
  let t := Thread.wg (Thread.wg (Thread.wg (Thread.wg (Thread.wg thH 1 0x900) 2 0x3F) 3 (at1 0xC00)) 4 6) 6 9
  let s := put (tab (st { t with fmt := Vector.replicate 4 0x66 }) 4) 0x900 128 desc1
  { s with matrix := [eng [(3, 1, 0), (4, 1, 0), (5, 9, 0)] ops] }

/-- A job at tile 3, in a state. -/
def job1 (st : JobState) : Job :=
  let r (n off : Nat) : Nat × Ref := (n, ⟨th.seg 0, off, th.view⟩)
  ⟨9, .crew 1 0 0, th.view, BitVec.ofNat 1024 desc1, 0x66, [r 0 0xA00, r 1 0xB00], 3, false, none, st, st != .queued, 0, 0, 0, (0, 0),
    none, 0, none, none⟩

/-- A place through the handle of the core scratchpad. -/
def at4 (off : Nat) : Word := BitVec.ofNat 64 (off * 65536 + 4)

/-- A call from core 0 to memory's byte 0, its slot at 0x40 of the scratchpad, with CALLID 1. -/
def call1 (st : CallStage) : Call :=
  ⟨3, 1, 0, spadLoc 0 0x40, (1, 0), 1, th.seg 0, 0, th.view, 0, 8, none, [1, 2, 3, 4, 5, 6, 7, 8], 0, false, none, none, st, true, none⟩

/-- A handler of call 3. -/
def hnd : Thread := { th with key := .handler 3, role := .call 3 }

/-- A place through the handle of the bank-linear window. -/
def at3 (off : Nat) : Word := BitVec.ofNat 64 (off * 65536 + 3)

/-- The pieces of the first granule through the interleaved window of one shaft, and of granule 1 through the other. -/
def ips : List Nat := (List.range 16).map (fun j => 16384 * j)

/-- Their frames belong to the tenant. -/
def own16 (s : State) : State := { s with frames := (List.range' 1 15).map (fun j => ⟨1024 * j, 5, 0, false⟩) ++ s.frames }

/-- The pieces of granule 1 through the bank-linear window. -/
def bps : List Nat := List.range' 16 16

/-- A freeze count for pieces. -/
def cnt (l : List Nat) (n : Nat) : List (Nat × Nat) := l.map (fun k => (k, n))

/-- Pieces of one granule at the start of a range. -/
def zip0 (l : List Nat) : List (Nat × Nat) := l.map (fun k => (0, k))

/-- A field of two sites of one bit: one dimension, two colours, STATE at 0x4000, TWIN at 0x8000, its tables in granule 1; the routine
`r` is an entry, or 0 for the probability table. -/
def fdesc (r : Nat) : Nat :=
  (at3 0x4000).toNat + (at3 0x8000).toNat * 2 ^ 64 + (at3 0x10000).toNat * 2 ^ 128 +
    (if r = 0 then (at3 0x10100).toNat * 2 ^ 256 else 0) + 2 ^ 448 + 2 ^ 496 + r * 2 ^ 508

/-- A place in the window, for the thread. -/
def wref (off : Nat) : Ref := ⟨th.seg 3, off, th.view⟩

/-- That field, in a state. -/
def fld (r : Nat) (z : FieldState) : Field :=
  ⟨1, 1, BitVec.ofNat 1024 (fdesc r), th.view, [0], 0x4000, 0x8000, 1, ⟨wref 0x10000, bps⟩, none,
    if r = 0 then some ⟨wref 0x10100, bps⟩ else none, none, none, z, 0, 0, false, 0, [], [], [], [], none, [], none, none, [], []⟩

/-- Its tables: weights 1 in both directions; one entry whose threshold every draw passes. Granule 1 is frozen once. -/
def fst (fs : List Field) : State :=
  let t := Thread.wg (Thread.wg (Thread.wg thH 1 0x900) 2 1) 3 (at1 0xC00)
  let s := put (put (put (tab (st { t with htab := 0x400 }) 0x30004) 0x900 128 (fdesc 0)) 0x10000 18 (2 * 2 ^ 8 + 0x101 * 2 ^ 128))
    0x10100 20 (1 + 2 ^ 16 + 0x1000000 * 2 ^ 128)
  { s with freeze := cnt bps 1, fields := fs }

/-- A packet for queue 3 of priority 2: 2 threads, 2 crews by x, ENTRY 0x80, ARGS 9. -/
def pkt : Nat := 0x80 + 3 * 2 ^ 52 + 2 * 2 ^ 58 + 2 ^ 116 + 2 ^ 128 + 9 * 2 ^ 192

/-- A pending entry 4 of g5. -/
def pnd (w : PendWait) : Pend := ⟨4, .g 5, 3, false, 0, 0, 0, 0xF0, w, false, 4, false⟩

/-- The next command of connection 1, for island 1. -/
def cmd : CmdHeader := ⟨1, 5, 1, 0xAB, 0⟩

/-- The resident service runs, and connection 1, which may address islands 1 and 2, expects command 5. -/
def hst (s : State) : State :=
  { s with
    dies := Vector.replicate 4 { StackSt.reset with boot := .running true }
    conns := [⟨1, [1, 2], 5, [⟨1, 3, 0, 4, 1, 0xAA, [7]⟩], false, 0⟩] }

/-- The state's command is answered with a status and a body. -/
def answers (o : Host.Outcome State Fault Refusal) (op status : Nat) (body : List Byte) (p : State → Bool) : Bool :=
  gives o fun t => t.outbox == [⟨1, op, status, 5, 1, 0xAB, body⟩] &&
    t.conns.map (fun c => (c.id, c.expect, c.busy)) == [(1, 6, false)] && p t

/-- It is taken, and the connection waits. -/
def taken (o : Host.Outcome State Fault Refusal) (p : State → Bool) : Bool :=
  gives o fun t => t.outbox == [] && t.conns.map (fun c => (c.id, c.expect, c.busy)) == [(1, 6, true)] && p t

/-! ## Instruction words (spec/02)

Every word is written field by field, as Rulers 2.1 to 2.11 and Tables 2.5, 2.6 and 2.8 lay it out. -/

/-- Every word decodes to the instruction beside it. -/
def decodes (l : List (BitVec 32 × Instr)) : Bool := l.all fun r => decodeWord r.1 == .ok r.2

theorem test_decode_control : decodes [
  (0b0_0_000000_000_0_00000000000000000000, .nop false),
  (0b0_1_000001_101_1_10101011110011011110, .bc true 5 true 0xABCDE),
  (0b0_0_000010_100001_0_11111111111111111, .bz false 33 0x1FFFF),
  (0b0_1_000010_100001_1_00000000000000101, .bnz true 33 5),
  (0b0_0_000011_111110_0_10000000000000001, .loop false 62 0x10001),
  (0b0_1_000101_010_0_10000000000000000001, .call true 2 false 0x80001),
  (0b0_0_000100_000000_101001_000000_000_000, .bi false 41),
  (0b0_1_000100_000000_101001_000000_000_001, .calli true 41),
  (0b0_0_000100_000000_111111_000000_000_010, .ret false 63),
  (0b0_1_000110_000000_0000_00000000000000, .exit true),
  (0b0_0_000110_000000_0001_00000000000000, .yield false),
  (0b0_1_000110_000000_0010_10001101000101, .brk true 0x2345),
  (0b0_0_000110_000000_0011_11111111111111, .trap false 0x3FFF),
  (0b0_1_000110_000000_0100_00000000000000, .eret true)] = true := by decide +kernel

theorem test_decode_registers_threads : decodes [
  (0b0_0_000111_001001_0000_00000000010100, .mrd false 9 .clk),
  (0b0_1_000111_111101_0001_00000001000000, .mwr true 61 .flags),
  (0b0_0_001000_000000_010100_000000_110_000, .segld false 20 6),
  (0b0_1_001000_010101_010110_010111_111_001, .segsub true 21 22 23 7),
  (0b0_0_001000_011000_000010_000000_101_010, .segq false 24 .rights 5),
  (0b0_1_001001_011001_011010_000000_100_000, .launch true 25 26 4),
  (0b0_0_001001_011001_011010_011011_011_001, .gang false 25 26 27 3),
  (0b0_1_001001_000000_000000_000000_000_010, .barc true),
  (0b0_0_001010_000000_011100_000000_000_000, .tkillThread false 28),
  (0b0_1_001010_000000_000000_000000_000_001, .tkillCrew true),
  (0b0_0_001010_000000_000000_000000_000_010, .tkillShift false)] = true := by decide +kernel

theorem test_decode_memory : decodes [
  (0b0_0_010000_1001_001_000010_000011_11111, .ldB false 9 1 2 3 0x1F),
  (0b0_1_010001_1000_010_000011_000100_00001, .ldH true 8 2 3 4 1),
  (0b0_0_010010_0111_011_000100_000101_00010, .ldW false 7 3 4 5 2),
  (0b0_1_010011_0110_100_000101_000110_00011, .ldD true 6 4 5 6 3),
  (0b0_0_010100_0101_101_000110_000111_00100, .ldSB false 5 5 6 7 4),
  (0b0_1_010101_0100_110_000111_001000_00101, .ldSH true 4 6 7 8 5),
  (0b0_0_010110_1111_111_001000_001001_10000, .ldSW false 15 7 8 9 16),
  (0b0_1_010111_0000_001_001001_001010_10001, .stN true 1 9 10 17),
  (0b0_0_011000_0000_010_001010_001011_10010, .stB false 2 10 11 18),
  (0b0_1_011001_0000_011_001011_001100_10011, .stH true 3 11 12 19),
  (0b0_0_011010_0000_100_001100_001101_10100, .stW false 4 12 13 20),
  (0b0_1_011011_0000_101_001101_001110_10101, .stD true 5 13 14 21),
  (0b0_0_011100_0011_110_011111_001111_10110, .ldv false 3 6 31 15 22),
  (0b0_1_011101_0000_111_011110_010000_10111, .stv true 7 30 16 23),
  (0b0_0_011110_0010_001_011101_100010_000_10, .ldvs false 2 1 29 17 false),
  (0b0_1_011110_0001_010_011100_100011_001_11, .ldvx true 1 2 28 35 true),
  (0b0_0_011111_0000_011_011011_100100_000_11, .stvs false 3 27 18 true),
  (0b0_1_011111_0000_100_011010_011001_001_10, .stvx true 4 26 25 false)] = true := by decide +kernel

theorem test_decode_synchronisation : decodes [
  (0b0_0_100000_1001_001_000010_000011_000_10, .lds false 9 1 2 3 false),
  (0b0_1_100000_1000_010_000011_000100_001_11, .ldsConsume true 8 2 3 4 true),
  (0b0_0_100001_0000_011_000100_000101_000_11, .stsProduce false 3 4 5 true),
  (0b0_1_100001_0000_100_000101_000110_001_10, .stsOver true 4 5 6 false),
  (0b0_0_100010_0000_101_000000_000111_000_11, .feset false 5 7),
  (0b0_1_100010_0000_110_000000_001000_001_11, .feclr true 6 8),
  (0b0_0_100010_0000_111_001000_001001_010_11, .feq false 7 8 9),
  (0b0_1_100011_1100_001_001001_001010_101_01, .atom true 12 1 9 10 .min .wordU),
  (0b0_0_100100_1011_010_100010_001011_000_10, .cas false 11 2 17 11 false),
  (0b0_1_100100_1010_011_100100_001100_001_11, .cas2 true 10 3 9 12),
  (0b0_0_100101_0000_100_001100_001101_101_11, .red false 4 12 13 .max .dblU),
  (0b0_1_100101_0110_101_001101_001110_110_10, .redFadd true .rod 5 13 14 true),
  (0b0_0_100110_0000_110_001110_001111_000_11, .apnd false 6 14 15),
  (0b0_1_100111_000000_000000_000010_011_000, .fence true .rel .stack),
  (0b0_0_100111_000000_000000_000000_000_001, .drain false),
  (0b0_1_101000_000000_010000_010001_001_000, .tbinit true 16 17 1),
  (0b0_0_101000_000000_010001_010010_010_001, .tbexp false 17 18 2),
  (0b0_1_101000_000000_010010_010011_011_010, .tbarv true 18 19 3),
  (0b0_0_101000_000000_010011_000000_100_011, .tbwait false 19 4),
  (0b0_1_101000_010100_010101_000000_101_100, .tbtest true 20 21 5),
  (0b0_0_101001_100010_010110_010111_110_000, .xfer false 17 22 23 6),
  (0b0_1_101001_100100_010111_011000_111_001, .xferF true 18 23 24 7),
  (0b0_0_101010_100110_011000_011001_001_000, .gath false 19 24 25 1)] = true := by decide +kernel

theorem test_decode_near_and_engine : decodes [
  (0b0_1_101011_011110_011111_101001_010_110, .rcall true 30 31 5 true 2 6),
  (0b0_0_101100_000000_111100_011111_000_000, .rret false 60 31),
  (0b0_1_101100_001101_100000_000000_011_001, .hset true 5 32 3),
  (0b0_0_101100_001111_000000_000000_100_010, .hclr false 7 4),
  (0b0_1_101101_000000_100001_100010_101_000, .frz true 33 34 5),
  (0b0_0_101101_100011_100100_100101_110_001, .thaw false 35 36 37 6),
  (0b0_1_101101_100110_100111_000000_111_010, .frzq true 38 39 7),
  (0b0_0_101110_101000_101001_101010_001_000, .rowcpy false 20 41 42 1),
  (0b0_1_101110_101010_101011_101100_010_001, .rowset true 21 43 44 2),
  (0b0_0_101110_101100_101101_111101_011_110, .rowop false 22 45 61 3 .maj3),
  (0b0_1_101111_101110_101111_000000_100_000, .fdef true 46 47 4),
  (0b0_0_101111_000000_110000_000000_000_001, .frun false 48),
  (0b0_1_101111_000000_110001_000000_000_010, .fstop true 49),
  (0b0_0_101111_000000_110010_110011_000_011, .fsnap false 50 51),
  (0b0_1_101111_000000_110100_110101_000_100, .fcpl true 52 53),
  (0b0_0_101111_110110_110111_000000_000_101, .fstat false 54 55),
  (0b0_1_110000_111000_111001_001111_001_000, .mq true 56 57 15 1),
  (0b0_0_110000_111010_111011_001110_010_001, .mqSP false 58 59 14 2),
  (0b0_1_110001_111100_111101_001101_011_000, .mqr true 60 61 13 3),
  (0b0_0_110001_111110_111111_001100_100_001, .mqrSP false 62 63 12 4),
  (0b0_1_110010_000001_000010_000000_000_000, .macq true 1 2),
  (0b0_0_110010_000000_000011_000000_000_001, .mrel false 3),
  (0b0_1_110010_000000_000000_001011_000_010, .mzero true 11),
  (0b0_0_110010_000100_000101_001010_101_011, .mld false 4 5 10 5),
  (0b0_1_110011_000110_000111_001001_110_101, .mdrain true 6 7 9 6 .rsr),
  (0b0_0_110100_001000_001001_000000_000_000, .mpoll false 8 9),
  (0b0_1_110100_000000_001010_000000_000_001, .mwait true 10)] = true := by decide +kernel

theorem test_decode_integer : decodes [
  (0b1_000000_0_000_101000_101001_101010_001, .add .i32 40 41 42 .sat),
  (0b1_000000_1_001_01010_10100_11110_101_001, .addV .i64 10 20 30 5 .sat),
  (0b1_000001_0_000_101000_101001_101010_010, .sub .i32 40 41 42 .usat),
  (0b1_000001_1_001_01010_10100_11110_101_010, .subV .i64 10 20 30 5 .usat),
  (0b1_000010_0_000_101000_101001_101010_000, .mul .i32 40 41 42),
  (0b1_000010_1_001_01010_10100_11110_101_000, .mulV .i64 10 20 30 5),
  (0b1_000011_0_000_101000_101001_101010_010, .mulh .i32 40 41 42 .signedUnsigned),
  (0b1_000011_1_001_01010_10100_11110_101_010, .mulhV .i64 10 20 30 5 .signedUnsigned),
  (0b1_000100_0_000_101000_101001_101010_000, .div .i32 40 41 42 false),
  (0b1_000100_1_001_01010_10100_11110_101_000, .divV .i64 10 20 30 5 false),
  (0b1_000101_0_000_101000_101001_101010_001, .rem .i32 40 41 42 true),
  (0b1_000101_1_001_01010_10100_11110_101_001, .remV .i64 10 20 30 5 true),
  (0b1_000110_0_000_101000_101001_101010_000, .and .i32 40 41 42),
  (0b1_000110_1_001_01010_10100_11110_101_000, .andV .i64 10 20 30 5),
  (0b1_000111_0_000_101000_101001_101010_000, .or .i32 40 41 42),
  (0b1_000111_1_001_01010_10100_11110_101_000, .orV .i64 10 20 30 5),
  (0b1_001000_0_000_101000_101001_101010_000, .xor .i32 40 41 42),
  (0b1_001000_1_001_01010_10100_11110_101_000, .xorV .i64 10 20 30 5),
  (0b1_001001_0_000_101000_101001_101010_000, .andn .i32 40 41 42),
  (0b1_001001_1_001_01010_10100_11110_101_000, .andnV .i64 10 20 30 5),
  (0b1_001010_0_000_101000_101001_101010_000, .shl .i32 40 41 42),
  (0b1_001010_1_001_01010_10100_11110_101_000, .shlV .i64 10 20 30 5),
  (0b1_001011_0_000_101000_101001_101010_000, .shr .i32 40 41 42),
  (0b1_001011_1_001_01010_10100_11110_101_000, .shrV .i64 10 20 30 5),
  (0b1_001100_0_000_101000_101001_101010_000, .sra .i32 40 41 42),
  (0b1_001100_1_001_01010_10100_11110_101_000, .sraV .i64 10 20 30 5),
  (0b1_001101_0_000_101000_101001_101010_000, .rot .i32 40 41 42),
  (0b1_001101_1_001_01010_10100_11110_101_000, .rotV .i64 10 20 30 5),
  (0b1_001110_0_000_101000_101001_101010_000, .min .i32 40 41 42 false),
  (0b1_001110_1_001_01010_10100_11110_101_000, .minV .i64 10 20 30 5 false),
  (0b1_001111_0_000_101000_101001_101010_001, .max .i32 40 41 42 true),
  (0b1_001111_1_001_01010_10100_11110_101_001, .maxV .i64 10 20 30 5 true)] = true := by decide +kernel

theorem test_decode_integer_bits : decodes [
  (0b1_010000_0_001_101000_101001_000000_000, .clz .i64 40 41),
  (0b1_010000_1_000_01010_10100_00000_101_000, .clzV .i32 10 20 5),
  (0b1_010000_0_001_101000_101001_000000_001, .ctz .i64 40 41),
  (0b1_010000_1_000_01010_10100_00000_101_001, .ctzV .i32 10 20 5),
  (0b1_010000_0_001_101000_101001_000000_010, .popc .i64 40 41),
  (0b1_010000_1_000_01010_10100_00000_101_010, .popcV .i32 10 20 5),
  (0b1_010000_0_001_101000_101001_000000_011, .brev .i64 40 41),
  (0b1_010000_1_000_01010_10100_00000_101_011, .brevV .i32 10 20 5),
  (0b1_010000_0_001_101000_101001_000000_100, .bswap .i64 40 41),
  (0b1_010000_1_000_01010_10100_00000_101_100, .bswapV .i32 10 20 5),
  (0b1_010001_0_000_101000_101001_101010_001, .bfx .i32 40 41 42 true),
  (0b1_010001_1_001_01010_10100_11110_101_001, .bfxV .i64 10 20 30 5 true),
  (0b1_010010_0_000_101000_101001_101010_000, .bfi .i32 40 41 42),
  (0b1_010010_1_001_01010_10100_11110_101_000, .bfiV .i64 10 20 30 5),
  (0b1_010011_0_001_101000_101001_101010_110, .sel .i64 40 41 42 6),
  (0b1_010100_0_000_000101_101001_101010_011, .cmp .i32 5 41 42 .ge),
  (0b1_010100_1_001_00110_10100_11110_111_100, .cmpV .i64 6 20 30 7 .ltu),
  (0b1_010101_0_000_000001_000010_000011_000, .pand 1 2 3),
  (0b1_010101_0_000_000100_000101_000110_001, .por 4 5 6),
  (0b1_010101_0_000_000111_000001_000010_010, .pxor 7 1 2),
  (0b1_010101_0_000_000011_000100_000000_011, .pnot 3 4),
  (0b1_010101_0_000_000101_101110_000000_100, .pmovP 5 46),
  (0b1_010101_0_000_101111_000110_000000_101, .pmovG 47 6),
  (0b1_010110_000001_000010_1111111111111, .addi 1 2 0x1FFF),
  (0b1_010111_000011_000100_1000000000000, .andi 3 4 0x1000),
  (0b1_011000_000101_000110_0000000000001, .ori 5 6 1),
  (0b1_011001_000111_001000_0101010111100, .xori 7 8 0xABC),
  (0b1_011010_001001_001010_0000000111111, .shli 9 10 63),
  (0b1_011010_001011_001100_0100000011111, .shri 11 12 31),
  (0b1_011010_001101_001110_1000000000101, .srai 13 14 5),
  (0b1_011011_001111_100001_0111100001111, .movi 15 0x42F0F),
  (0b1_011100_010001_100101_1001000110100, .movh 17 2 0xB234),
  (0b1_011101_0_001_101000_101001_101010_110, .lea 40 41 42 6)] = true := by decide +kernel

theorem test_decode_float : decodes [
  (0b1_100000_0_100_101000_101001_101010_001, .fadd .f32 40 41 42 .rtz),
  (0b1_100000_1_011_01010_10100_11110_101_001, .faddV .bf16 10 20 30 5 .rtz),
  (0b1_100001_0_010_101000_101001_101010_010, .fsub .f16 40 41 42 .rdn),
  (0b1_100001_1_011_01010_10100_11110_101_010, .fsubV .bf16 10 20 30 5 .rdn),
  (0b1_100010_0_101_101000_101001_101010_011, .fmul .f64 40 41 42 .rup),
  (0b1_100010_1_011_01010_10100_11110_101_011, .fmulV .bf16 10 20 30 5 .rup),
  (0b1_100011_0_100_101000_101001_101010_100, .fma .f32 40 41 42 .rna),
  (0b1_100011_1_011_01010_10100_11110_101_100, .fmaV .bf16 10 20 30 5 .rna),
  (0b1_100100_0_100_101000_101001_101010_101, .fms .f32 40 41 42 .rsr),
  (0b1_100100_1_011_01010_10100_11110_101_101, .fmsV .bf16 10 20 30 5 .rsr),
  (0b1_100101_0_100_101000_101001_101010_110, .fnma .f32 40 41 42 .rod),
  (0b1_100101_1_011_01010_10100_11110_101_110, .fnmaV .bf16 10 20 30 5 .rod),
  (0b1_100110_0_100_101000_101001_1101_00_101, .fdiv .f32 40 41 13 .rsr),
  (0b1_100110_1_101_01010_10100_101_0110_0_101, .fdivV .f64 10 20 5 6 .rsr),
  (0b1_100111_0_100_101000_101001_1101_00_110, .fsqrt .f32 40 41 13 .rod),
  (0b1_100111_1_101_01010_10100_101_0110_0_110, .fsqrtV .f64 10 20 5 6 .rod),
  (0b1_101000_0_100_101000_101001_101010_000, .fmin .f32 40 41 42),
  (0b1_101000_1_011_01010_10100_11110_101_000, .fminV .bf16 10 20 30 5),
  (0b1_101001_0_100_101000_101001_101010_000, .fmax .f32 40 41 42),
  (0b1_101001_1_011_01010_10100_11110_101_000, .fmaxV .bf16 10 20 30 5),
  (0b1_101010_0_101_101000_101001_000000_000, .fabs .f64 40 41),
  (0b1_101010_1_010_01010_10100_00000_101_000, .fabsV .f16 10 20 5),
  (0b1_101010_0_101_101000_101001_000000_001, .fneg .f64 40 41),
  (0b1_101010_1_010_01010_10100_00000_101_001, .fnegV .f16 10 20 5),
  (0b1_101010_0_100_101000_101001_101010_010, .fcpys .f32 40 41 42),
  (0b1_101010_1_011_01010_10100_11110_101_010, .fcpysV .bf16 10 20 30 5),
  (0b1_101011_0_011_000111_101001_101010_011, .fcmp .bf16 7 41 42 .le),
  (0b1_101011_1_101_00110_10100_11110_010_100, .fcmpV true 6 20 30 2 .un),
  (0b1_101100_0_101_101000_101001_000000_000, .fclass .f64 40 41),
  (0b1_101100_1_010_01010_10100_00000_101_000, .fclassV .f16 10 20 5),
  (0b1_101101_0_101_101000_101001_000000_010, .frint .f64 40 41 .rdn),
  (0b1_101101_1_010_01010_10100_00000_101_010, .frintV .f16 10 20 5 .rdn),
  (0b1_110000_0_100_101000_101001_1101_00_000, .fexp2 .f32 40 41 13 .rne),
  (0b1_110000_1_101_01010_10100_101_0110_0_000, .fexp2V .f64 10 20 5 6 .rne),
  (0b1_110001_0_100_101000_101001_1101_00_001, .flog2 .f32 40 41 13 .rtz),
  (0b1_110001_1_101_01010_10100_101_0110_0_001, .flog2V .f64 10 20 5 6 .rtz),
  (0b1_110010_0_100_101000_101001_1101_00_110, .frcp .f32 40 41 13 .rod),
  (0b1_110010_1_101_01010_10100_101_0110_0_110, .frcpV .f64 10 20 5 6 .rod),
  (0b1_110011_0_100_101000_101001_1101_00_010, .frsq .f32 40 41 13 .rdn),
  (0b1_110011_1_101_01010_10100_101_0110_0_010, .frsqV .f64 10 20 5 6 .rdn),
  (0b1_110100_0_100_101000_101001_1101_00_011, .fsinpi .f32 40 41 13 .rup),
  (0b1_110100_1_101_01010_10100_101_0110_0_011, .fsinpiV .f64 10 20 5 6 .rup),
  (0b1_110101_0_100_101000_101001_1101_00_000, .fcospi .f32 40 41 13 .rne),
  (0b1_110101_1_101_01010_10100_101_0110_0_000, .fcospiV .f64 10 20 5 6 .rne),
  (0b1_110110_0_100_101000_101001_1101_00_001, .ftanh .f32 40 41 13 .rtz),
  (0b1_110110_1_101_01010_10100_101_0110_0_001, .ftanhV .f64 10 20 5 6 .rtz)] = true := by decide +kernel

theorem test_decode_conversion : decodes [
  (0b1_101110_0_000_101000_101001_010110_001, .fcvt .e2m1 40 41 true .fp32 .rtz),
  (0b1_101110_1_110_01010_10100_00101_101_101, .fcvtV .e4m3 10 20 false .bf16 5 .rsr),
  (0b1_101111_0_100_101000_101001_001101_010, .fcvti .fp32 40 41 true true .i64 .rdn),
  (0b1_101111_1_111_01010_10100_00010_101_011, .fcvtiV .e5m2 10 20 false false .i8 5 .rup),
  (0b1_101111_0_101_101000_101001_010100_100, .icvtf .fp64 40 41 true .i32 .rna),
  (0b1_101111_1_010_01010_10100_10001_101_000, .icvtfV .fp16 10 20 false .i64 5 .rne)] = true := by decide +kernel

theorem test_decode_vector : decodes [
  (0b1_111000_0_000_011110_101001_000000_000, .vbcast .i32 30 41),
  (0b1_111000_0_001_101000_010100_101010_001, .vext .i64 40 20 42),
  (0b1_111000_0_000_011110_101001_101010_010, .vins .i32 30 41 42),
  (0b1_111001_1_001_01010_10100_11110_101_000, .vperm .i64 10 20 30 5),
  (0b1_111001_1_000_01010_10100_01111_101_001, .vrot .i32 10 20 15 5),
  (0b1_111010_1_101_01010_10100_00000_101_011, .vred .f64 10 20 .add 5 .rup),
  (0b1_111010_1_010_01010_10100_00010_101_000, .vred .f16 10 20 .max 5 .rne),
  (0b1_111011_1_001_01010_10100_11110_101_110, .vdot .e2m1 10 20 30 5 .rod),
  (0b1_111100_1_001_01010_00000_00000_101_000, .viota .i64 10 5),
  (0b1_111100_1_000_01010_10100_11110_101_001, .vsel .i32 10 20 30 5),
  (0b1_111101_1_110_01010_10100_10011_000_101, .vpack .e4m3 10 20 true 3 .rsr),
  (0b1_111101_1_000_01010_10100_00111_001_000, .vunpack .e2m1 10 20 7),
  (0b1_111110_0_000_101000_101001_101010_010, .lode 40 41 42 .f32),
  (0b1_111110_1_000_01010_10100_11110_101_001, .lodeV 10 20 30 5 .u24),
  (0b1_111111_1_100_01010_10100_11110_101_100, .vscale 10 20 30 5 .rna)] = true := by decide +kernel

/-- Words that R52 lists as no instruction: unassigned op6, sub and selector values, reserved modes, bits that must be zero,
register groups that Table 2.7 excludes. -/
theorem test_decode_refuses : ([
    0b0_0_000000_000_0_00000000000000000001, 0b0_0_000011_111110_1_00000000000000100, 0b0_0_000100_000000_101001_000001_000_000,
    0b0_0_000100_000000_101001_000000_000_011, 0b0_0_000110_000001_0001_00000000000000, 0b0_0_000110_000000_0101_00000000000000,
    0b0_0_000111_001001_0000_00000000001111, 0b0_0_000111_001001_0000_01000000010100, 0b0_0_001000_011000_000011_000000_101_010,
    0b0_0_001001_011001_011010_011011_011_000, 0b0_0_001011_000_0_00000000000000000000, 0b0_0_010111_0001_001_001001_001010_10001,
    0b0_0_011110_0000_001_011101_100011_000_10, 0b0_0_011110_0000_001_100000_100010_000_10, 0b0_0_100000_0000_001_000010_000011_000_01,
    0b0_0_100010_0000_101_000000_000111_000_10, 0b0_0_100011_0000_001_001001_001010_001_01, 0b0_0_100011_0000_001_001001_001010_111_10,
    0b0_0_100100_0000_010_100001_001011_000_10, 0b0_0_100100_0000_011_100010_001100_001_11, 0b0_0_100101_0111_101_001101_001110_110_10,
    0b0_0_100101_0101_101_001101_001110_110_10, 0b0_0_100101_1000_100_001100_001101_101_11, 0b0_0_100111_000000_000000_000000_110_000,
    0b0_0_101001_100001_010110_010111_110_000, 0b0_0_101011_011110_011111_101010_010_110, 0b0_0_101100_000000_111101_011111_000_000,
    0b0_0_101100_010000_100000_000000_011_001, 0b0_0_101100_000111_100000_000000_011_001, 0b0_0_101110_101000_101001_111111_011_010,
    0b0_0_101110_101000_101001_111110_011_110, 0b0_0_110000_111000_111001_010000_001_000, 0b0_0_110011_000110_000111_001001_110_111,
    0b0_0_110101_000_0_00000000000000000000, 0b0_0_111111_000_0_00000000000000000000, 0b1_000000_0_010_101000_101001_101010_000,
    0b1_000000_0_000_101000_101001_101010_011, 0b1_000010_1_000_01010_10100_11110_101_001, 0b1_010011_1_000_01010_10100_11110_101_000,
    0b1_010011_0_001_101000_101001_101010_111, 0b1_010100_0_000_001000_101001_101010_000, 0b1_010101_0_001_000001_000010_000011_000,
    0b1_010101_0_000_000011_000100_000001_011, 0b1_011010_001001_001010_0000001000000, 0b1_011010_001001_001010_1100000000000,
    0b1_011100_010001_001000_0000000000000, 0b1_011101_0_001_101000_101001_101010_111, 0b1_011101_0_000_101000_101001_101010_110,
    0b1_011110_0_000_000000_000000_000000_000, 0b1_110111_0_000_000000_000000_000000_000, 0b1_100000_0_110_101000_101001_101010_000,
    0b1_100000_0_100_101000_101001_101010_111, 0b1_110000_0_100_101000_101001_0000_00_100, 0b1_110010_0_100_101000_101001_0000_00_111,
    0b1_101011_1_010_00110_10100_11110_010_000, 0b1_101110_0_001_101000_101001_000100_000, 0b1_101110_0_100_101000_101001_000011_000,
    0b1_101110_0_100_101000_101001_001000_000, 0b1_101111_0_000_101000_101001_000000_000, 0b1_101111_0_100_101000_101001_000011_000,
    0b1_101111_0_100_101000_101001_011000_000, 0b1_111001_1_001_01010_10100_01000_101_001, 0b1_111001_0_001_001010_010100_001000_101,
    0b1_111010_1_100_01010_10100_00011_101_000, 0b1_111010_1_100_01010_10100_00001_101_001, 0b1_111011_1_100_01010_10100_11110_101_000,
    0b1_111011_1_000_01010_10100_11110_101_001, 0b1_111101_1_110_01010_10100_00100_000_000, 0b1_111101_1_010_01010_10100_00010_001_000,
    0b1_111101_1_110_01010_10100_10000_001_000, 0b1_111101_1_110_01010_10100_00000_010_000, 0b1_111111_1_101_01010_10100_11110_101_000] : List (BitVec 32)).all
  (fun w => match decodeWord w with | .error _ => true | .ok _ => false) = true := by decide +kernel

/-- An instruction for each check of WellFormed.lean, which the check refuses. -/
theorem test_wellFormed_refuses : ([.atom true 0 1 2 3 .add .dblU, .red true 1 2 3 .xor .wordU, .redFadd true .rsr 1 2 3 true,
    .rret true 61 0, .rowop true 0 1 63 2 .and, .rowop true 0 1 62 2 .maj3, .lea 1 2 3 7, .sel .i32 1 2 3 7, .fexp2 .f32 1 2 0 .rna,
    .flog2 .f32 1 2 0 .rsr, .frsq .f32 1 2 0 .rod, .fsinpi .f32 1 2 0 .rna, .fcospi .f32 1 2 0 .rna, .ftanh .f32 1 2 0 .rna,
    .fexp2V .f32 1 2 0 0 .rna, .flog2V .f32 1 2 0 0 .rna, .frsqV .f32 1 2 0 0 .rna, .fsinpiV .f32 1 2 0 0 .rna,
    .fcospiV .f32 1 2 0 0 .rna, .ftanhV .f32 1 2 0 0 .rna, .fcvti .e2m1 1 2 false false .i32 .rne, .icvtf .e2m1 1 2 false .i32 .rne,
    .fcvtiV .e2m1 1 2 false false .i32 0 .rne, .icvtfV .e2m1 1 2 false .i32 0 .rne, .vred .f32 1 2 .min 0 .rtz,
    .vdot .int8 1 2 3 0 .rtz, .vrot .i64 1 2 8 0, .vpack .fp16 1 2 false 2 .rne, .vunpack .fp32 1 2 0] : List Instr).all
  (fun i => !i.wellFormed) = true := by decide +kernel

/-- The two readings of a bit that no instruction ignores: the word and the instruction name each other. -/
theorem witness_DecodeOfEncode : Instr.wellFormed (.mdrain true 6 7 9 6 .rsr) = true ∧
    encode (.mdrain true 6 7 9 6 .rsr) = some 0x73187275 := by decide +kernel

/-- Words that the manual prints beside an instruction. -/
theorem test_decode_manual : decodes [
  (0x4600C012, .trap true 0x12), (0x47140000, .mrd true 5 .tid), (0x80218828, .add .i64 3 4 5 .wrap), (0xAC492001, .addi 9 9 1),
  (0x52141882, .ldW true 1 2 3 4 2), (0x600630E7, .ldsConsume true 0 3 6 7 true), (0x67000090, .fence true .rel .clus),
  (0x670000E0, .fence true .sc .dev), (0x6920A2D0, .xfer true 4 10 11 2), (0xC6A1882B, .fma .f64 3 4 5 .rup),
  (0xC78110D0, .fmaV .f32 1 2 3 2 .rne), (0xCCA41280, .fdiv .f64 8 9 4 .rne), (0xD680882A, .fcmp .f32 1 4 5 .lt),
  (0xDCC28CB0, .fcvt .e4m3 5 6 true .fp32 .rne), (0xDEA28C41, .fcvti .fp64 5 6 true false .i32 .rtz),
  (0xE1811032, .fexp2V .f32 1 2 0 3 .rdn), (0xF5851018, .vred .f32 5 2 .add 3 .rne), (0xF7C84A80, .vdot .e4m3 8 9 10 0 .rne),
  (0xFB061000, .vpack .e2m1 6 2 false 0 .rne), (0xFC028C39, .lode 5 6 7 .u24), (0xFD0431C2, .lodeV 4 6 7 0 .f32),
  (0x701460D0, .mq true 5 6 3 2), (0x71146010, .mqr true 5 6 0 2), (0x72146000, .macq true 5 6), (0x72006001, .mrel true 6),
  (0x720000C2, .mzero true 3), (0x7220A0CB, .mld true 8 10 3 1), (0x731460D0, .mdrain true 5 6 3 2 .rne), (0x741C5000, .mpoll true 7 5),
  (0x74005001, .mwait true 5), (0x6C002280, .rret true 2 10), (0x6C245019, .hset true 1 5 3), (0x6D0061E0, .frz true 6 7 4),
  (0x6D2061E1, .thaw true 8 6 7 4), (0x6D246022, .frzq true 9 6 4), (0x6E28C370, .rowcpy true 5 12 13 6), (0x67000001, .drain true),
  (0x13222840, .ldD false 2 1 5 2 0), (0xC0830E40, .fadd .f32 6 7 8 .rne), (0x412FFFFD, .bc true 1 false 0xFFFFD)] = true := by decide +kernel

theorem witness_EncodeOfDecode : decodeWord 0x6C245019 = .ok (.hset true 1 5 3) ∧ encode (.hset true 1 5 3) = some 0x6C245019 := by
  decide +kernel

/-! ## Steps and invariants (spec/01, spec/02, spec/11) -/

/-- A placed module with further bytes written at the pc. -/
def pair (c a : Nat) : State :=
  let s := State.reset.withFetchWord 32 c
  put s (placedIsland.place placedPc) 8 (c + a * 2 ^ 32)

theorem witness_StepRunsPair :
    let s := pair 0x05000040 0xAC081005
    ∃ t, s.turnThread = some t ∧ s.quiet = true ∧ s.thread? t.key = some t ∧ t.issuesUnit = true ∧
      clears (s.atIssue t).due (fun r => r.thr.replay.isNone && !r.thr.isHandler &&
        fetchUnit r r.thr.view r.thr.pc.toNat == .pair 0x05000040 0xAC081005) = true ∧
      decodeWord 0x05000040 = .ok (.call false 0 false 0x40) ∧ decodeWord 0xAC081005 = .ok (.addi 1 0 0x1005) ∧
      pairConflict (.call false 0 false 0x40) (.addi 1 0 0x1005) = none ∧
      gives (step s) (fun u => (u.thread? t.key).map (fun v => (v.pc, v.rg 63, v.rg 1)) ==
        some (0x10100, 0x10008, 0xFFFFFFFFFFFFF005)) = true := ⟨_, rfl, by decide +kernel⟩

/-- The A half reads what stood before the unit; a C half that traps holds its A half back. -/
theorem witness_StepRunsPair_halves :
    let s := st ((Thread.wg { th with tvec := 0x200, pairNow := true } 1 0x40))
    let c := Instr.addi 1 1 2
    let a := Instr.addi 2 1 3
    let b := Instr.bi false 3
    gives (exec c s) (fun r => r.thr.unitEnd == .done && !comesLast c && r.thr.live && gives (exec a (s.beginA r)) (fun q =>
      gives (s.runPair c a) (fun t => t.thr.rg 1 == 0x42 && t.thr.rg 2 == 0x43 && t.thr.rg 2 == q.thr.rg 2 &&
        t.thr.pc == r.thr.pc && t.mem == r.mem))) = true ∧
      gives (exec b (s.onThr fun t => t.wg 3 2)) (fun r => r.thr.unitEnd == .held &&
        isNext ((s.onThr fun t => t.wg 3 2).runPair b a) r) = true := by decide +kernel

theorem witness_IllegalAndPairTraps :
    let s := st { th with tvec := 0x200 }
    gives (s.runLone 0x0B000000) (fun t => t.thr.tcause == 0x01 && t.thr.tinfo0 == 0x0B000000 && t.thr.tinfo1 == 0) = true ∧
      gives (s.runWords 0x40000000 0xBC000000) (fun t => t.thr.tinfo0 == 0xBC000000 && t.thr.tinfo1 == 1) = true ∧
      decodeWord 0x06010000 = .ok (.eret false) ∧ s.misplaced (.eret false) = true ∧
      gives (s.runWords 0x06010000 0xBC000000) (fun t => t.thr.tinfo0 == 0x06010000 && t.thr.tinfo1 == 0) = true ∧
      decodeWord 0x13222840 = .ok (.ldD false 2 1 5 2 0) ∧ decodeWord 0xAC289001 = .ok (.addi 5 4 0x1001) ∧ s.thr.isHandler = false ∧
      pairConflict (.ldD false 2 1 5 2 0) (.addi 5 4 0x1001) = some 5 ∧
      isNext (s.runWords 0x13222840 0xAC289001) (s.trap .pair 0xAC28900113222840 5) = true := by decide +kernel

theorem witness_StepTakesListedMove :
    let s : State := { st th with agenda := [.event (.clockStepUp 2)] }
    let w : State := { st th with wakes := [.crew 1 0 0] }
    s.agenda = .event (.clockStepUp 2) :: [] ∧ isEvent (.clockStepUp 2) = true ∧
      isNext (step s) (match exec (.clockStepUp 2) { s with agenda := [], draw := s.draw + 1 } with | .next t => t | _ => s) = true ∧
      w.agenda = [] ∧ w.off = false ∧ w.wakes = .crew 1 0 0 :: [] ∧ isNext (step w) { w with wakes := [], draw := w.draw + 1 } = true := by decide +kernel

theorem witness_StepStopsOnlyWhenShut :
    (State.shut { State.reset with off := true }) = true ∧ State.shut State.reset = false ∧
      (match step { State.reset with off := true } with | .fault .moduleOff => true | _ => false) = true ∧
      gives (step State.reset) (fun t => t.turn == 1) = true := by decide +kernel

theorem witness_StepKeepsMemoryForm : State.memOk (pair 0x40000000 0xAC081005) = true ∧
    gives (step (pair 0x40000000 0xAC081005)) State.memOk = true := by decide +kernel

theorem witness_MemoryReadsWhatWasWritten :
    let m : Memory := [(3, 9), (7, 1)]
    Memory.wf m = true ∧ memWrite m 2 3 0x010005 = [(2, 5), (4, 1), (7, 1)] ∧ memRead (memWrite m 2 3 0x010005) 2 3 = 0x010005 := by
  decide +kernel

/-! ## Traps (spec/02, spec/13) -/

/-- A thread in handler state that returns to 0x80, with the long-latency word FDIV at 0x90. -/
def ret (tpc : Word) : State :=
  put (st { th with hstate := true, tvec := 0x200, tpc := tpc, tinfo1 := 0x90 }) 0x90 4 0xCC829400

theorem witness_ReturnFromTrap :
    let s := ret 0x5800000000000080
    let r := ret 0x80
    let q := st { th with tvec := 0x200 }
    q.thr.hstate = false ∧ isNext (exec (.eret true) q) (q.trap .illegal 0x46010000 0) = true ∧
      s.thr.hstate = true ∧ s.windowsClear = true ∧ s.thr.mretry = [] ∧
      checkTarget s s.thr.view (s.thr.tpc &&& 0xFFFFFFFFFFFFF) = .ok ∧ checkReplay s s.thr.view s.thr.tinfo1 = .ok ∧
      gives (exec (.eret true) s) (fun t => t.thr.pc == 0x80 && !t.thr.hstate && t.thr.replay == some ⟨0x90, 5, none, false⟩) = true ∧
      r.thr.tpc.getLsbD 59 = false ∧
      gives (exec (.eret false) r) (fun t => t.thr.pc == 0x80 && !t.thr.hstate && t.thr.replay == none) = true := by decide +kernel

/-- What a long-latency instruction has met is taken before the next unit, and a replay that is due runs its word. -/
theorem witness_ReturnFromTrap_due :
    let f := pnd (.fault .owner 0x800 true)
    let p := pnd (.park 0x800 true)
    let s (e : Pend) : State := st { th with tvec := 0x200, pending := [{ pnd .listed with seq := 3, access := 3 }, e] }
    let t := { th with replay := some ⟨0x90, 5, some 4, false⟩ }
    let q := put (st t) 0x90 4 0xCC829400
    let i := Instr.fdiv .f32 5 10 0 .rne
    (s f).thr.pending.find? (fun e => (s f).thr.mine e && e.known) = some f ∧ (s f).parkFirst = none ∧ (s f).canTrap = true ∧
      stops (s f).due (fun r => r == (s f).onThr fun u =>
        { u with pending := [{ pnd .listed with seq := 3, access := 3 }] }.trapped .owner 0x800 0xF0 0x100 true 3) = true ∧
      (s p).thr.pending.find? (fun e => (s p).thr.mine e && e.known) = some p ∧
      stops (s p).due (fun r => parks (s p) r (.page 0x800) && r.thr.replay == some ⟨0xF0, 3, some 4, false⟩ &&
        r.thr.pending.length == 1) = true ∧
      q.thr.isHandler = false ∧ q.thr.grantTrap = none ∧ fetchWord q th.view 0x90 = .ok 0xCC829400 ∧
      gives q.issue (fun r => r.thr.pc == 0x100 && r.thr.replay == none && r.thr.pending.map (·.left) == [5]) = true ∧
      decodeWord 0xCC829400 = .ok i ∧ isNext q.issue (match exec i (q.onThr fun u =>
        { u with replaying := q.thr.replay, pairNow := false, unitEnd := .held }) with
        | .next r => r.afterUnit { t with unitEnd := .held } (q.clockOf t)
        | _ => q) = true := by decide +kernel

/-- A store held at its page parks its thread; else a record, or a matrix fault, is delivered. -/
theorem witness_TrapEntrySaves_due :
    let r : StoreFault := ⟨0, th.key, 0xF0, 0x800, 3, false, .frozen, .queued⟩
    let h : HeldStore := ⟨th.key, th.view, th.seg 0, [(0x800, 8, 1)], 0xF0, false, 0, true, .plain, 0⟩
    let s := st { th with tvec := 0x200, pending := [pnd .value] }
    let k : State := { s with held := [h] }
    let f : State := { s with faults := [r] }
    let m := s.onThr fun t => { t with mfaults := [(.gangBroken, 1, 2), (.matrixOperand, 3, 9)] }
    (∀ e ∈ s.thr.pending, s.thr.mine e = true → e.known = false) ∧
      stops k.due (fun u => u == k.onThr fun t => { t with unitEnd := .held, status := .parked, wait := .held }) = true ∧
      f.faults.find? (fun f => f.key == th.key && f.stage == .queued) = some r ∧ s.canTrap = true ∧
      stops f.due (fun u => u == s.onThr fun t => t.trapped .storeFault 0x800
        (BitVec.ofNat 64 (0xF0 + 3 * 2 ^ 52 + Cause.frozen.code * 2 ^ 56)) 0x100 false 0) = true ∧
      s.thr.grantTrap = none ∧ stops m.due (fun u => u == s.onThr fun t =>
        { t with mfaults := [(.gangBroken, 1, 2)], mretry := [9] }.trapped .matrixOperand 3 9 0x100 false 0) = true := by
  decide +kernel

theorem witness_TrapEntrySaves_noHandler :
    let s : State := { st th with shifts := [{ packetShift (2 ^ 116) 0x400 1 1 false none none with serial := 1 }] }
    s.thr.isHandler = false ∧ s.thr.tvec = 0 ∧ s.windowsClear = true ∧
      s.trap .align 3 4 = s.terminateCrew s.thr.crewId .align ∧ (s.trap .align 3 4).thr.live = false := by decide +kernel

theorem witness_RoundingAndCommuting :
    let env : RoundEnv := ⟨.rdn, ⟨false, false, false⟩, false, 0⟩
    (0x3555 : Nat) < 2 ^ Fmt.width .fp16 ∧ env.flush.onResult .fp16 = false ∧
      Fmt.unpack .fp16 0x3555 = .fin false 1365 (-12) ∧ roundTo .fp16 env (.fin false 1365 (-12)) = ⟨0x3555, 0⟩ := by decide +kernel

/-! ## Steps, transfers, traps (spec/01, spec/02, spec/13) -/

/-- The word NOP placed after reset is fetched and runs; the pair CALL+ADD as well. -/
theorem witness_StepRunsLoneWord :
    let s := State.reset.withFetchWord 32 0x40000000
    ∃ t, s.turnThread = some t ∧ s.quiet = true ∧ s.thread? t.key = some t ∧ t.issuesUnit = true ∧
      clears (s.atIssue t).due (fun r => r.thr.replay.isNone && !r.thr.isHandler &&
        fetchUnit r r.thr.view r.thr.pc.toNat == .lone 0x40000000) = true ∧ decodeWord 0x40000000 = .ok (.nop true) ∧
      gives (step s) (fun u => (u.thread? t.key).map (·.pc) == some (t.pc + 4)) = true := ⟨_, rfl, by decide +kernel⟩

/-- A record stops the unit; what has arrived lands, the youngest of a register standing; a unit takes one from each count. -/
theorem witness_StepRunsLoneWord_due :
    let s0 := State.reset.withFetchWord 32 0x40000000
    let e : Pend := { pnd .value with left := 0, value := 7, mask := BitVec.allOnes 512, flags := flagNX }
    let s := st { th with pending := [e, { e with seq := 5, value := 9 }, { e with seq := 6, dest := .v 2, value := 3, mask := 1 },
      { e with seq := 7, dest := .p 1 }, { pnd .listed with seq := 8 }] }
    let q := st { th with unitEnd := .done, pending := [pnd .value, { pnd .value with seq := 9 }], pendSeq := 10 }
    (∃ t, s0.turnThread = some t ∧
      (let b := s0.modThread t.key (fun u => { u with tvec := 0x10000, mfaults := [(.gangBroken, 1, 2)] })
       ∃ v, b.turnThread = some v ∧ b.quiet = true ∧ b.thread? v.key = some v ∧ v.issuesUnit = true ∧
        stops (b.atIssue v).due (fun r => r.thr.tcause == BitVec.ofNat 8 Cause.gangBroken.code &&
          isNext (step b) (r.afterUnit (b.atIssue v).thr (b.clockOf v))) = true)) ∧
      s.onlyLandings = true ∧ clears s.due (fun r => r.thr.pending == [{ pnd .listed with seq := 8 }] && r.thr.rg 5 == 9 &&
        r.thr.rv 2 == 1 && r.thr.rp 1 == 7 && r.thr.flags == flagNX && r.thr.rg 6 == 0) = true ∧
      q.thr.isHandler = false ∧ q.thr.role = .crew ∧ q.thr.ended = none ∧
      (q.afterUnit { th with pendSeq := 5 } 0).thr.pending = [{ pnd .value with left := 2 }, { pnd .value with seq := 9 }] := by
  refine ⟨⟨_, rfl, _, rfl, by decide +kernel⟩, by decide +kernel⟩

theorem witness_TransfersComplete :
    let s := st (th.wg 1 0x40)
    isTransfer (.bi true 1) = true ∧ transfersTo s.thr (.bi true 1) = some 0x40 ∧ checkTarget s s.thr.view 0x40 = .ok ∧
      s.thr.inRegion 0x40 = true ∧ gives (exec (.bi true 1) s) (fun t => t.thr.pc == 0x40) = true ∧
      transfersTo s.thr (.bz true 1 5) = none ∧ gives (exec (.bz true 1 5) s) (fun t => t.thr.pc == 0x104) = true ∧
      transfersTo s.thr (.loop true 1 0x1FFFE) = some 0xF8 ∧
      gives (exec (.loop true 1 0x1FFFE) s) (fun t => t.thr.pc == 0xF8 && t.thr.rg 1 == 0x3F) = true ∧
      gives (exec (.call true 0 false 4) s) (fun t => t.thr.pc == 0x110 && t.thr.rg 63 == 0x104) = true := by decide +kernel

theorem witness_BadTargetsTrap :
    let s (a : Word) := put (st ((Thread.wg { th with tvec := 0x200 } 1 a))) 0x80 8 0x8000000000000000
    let q := st (Thread.wg { th with tvec := 0x200 } 1 0x84)
    transfersTo (s 0x0010000000000000).thr (.bi true 1) = some 0x0010000000000000 ∧
      isNext (exec (.bi true 1) (s 0x0010000000000000)) ((s 0x0010000000000000).trap .addrForm 0x0010000000000000 0) = true ∧
      isNext (exec (.bi true 1) (s 0x82)) ((s 0x82).trap .badTarget 0x82 0) = true ∧
      fetchWord (s 0x84) th.view 0x84 = .ok 0x80000000 ∧ fetchWord (s 0x84) th.view 0x80 = .ok 0 ∧
      isNext (exec (.bi true 1) (s 0x84)) ((s 0x84).trap .midPair 0x84 0) = true ∧
      isNext (exec (.bi true 1) q) (q.trap .pairAlign 0x84 0) = true := by decide +kernel

theorem witness_TrapEntrySaves :
    let s := st { th with tvec := 0x200 }
    s.canTrap = true ∧ gives (.next (s.trap .align 3 4)) (fun t => t.thr.tcause == BitVec.ofNat 8 (Cause.code .align) && t.thr.tinfo0 == 3 && t.thr.tpc == 0x100 &&
        t.thr.pc == 0x200 && t.thr.hstate) = true ∧
      isNext (exec (.trap true 7) s) (s.onThr fun t => { t.trapped .trap 7 0x100 0x104 false 0 with unitEnd := .done }) = true ∧
      s.thr.dbg = false ∧ isNext (exec (.brk true 7) s) (s.onThr fun t =>
        { t.trapped .brk 7 0x100 0x104 false 0 with unitEnd := .done }) = true := by decide +kernel

theorem witness_TrapEntrySaves_break :
    let s := st { th with tvec := 0x200 }
    let d := st { th with dbg := true }
    s.canTrap = true ∧ s.thr.dbg = false ∧ d.thr.dbg = true ∧
      isNext (exec (.brk true 7) d) (d.onThr fun t => { t.advance with status := .parked, wait := .debug }) = true := by decide +kernel

/-! ## Values the manual works out (spec/03, spec/04, spec/06) -/

/-- What an instruction leaves in g3 and the flags, from a thread with no pending results. -/
def leaves (i : Instr) (a b : Word) (r : Word) (f : Flags) : Bool :=
  gives (exec i (st ((th.wg 4 a).wg 5 b))) fun t => t.thr.rg 3 == r && t.thr.flags == f && t.thr.pc == 0x104

/-- Table 4.2. -/
theorem test_table_4_2 :
    leaves (.add .i32 3 4 5 .wrap) 0x7FFFFFFF 1 0xFFFFFFFF80000000 0 ∧ leaves (.add .i32 3 4 5 .sat) 0x7FFFFFFF 1 0x7FFFFFFF flagSAT ∧
      leaves (.sub .i32 3 4 5 .usat) 3 5 0 flagSAT ∧ leaves (.div .i32 3 4 5 false) 7 0 0xFFFFFFFFFFFFFFFF 0 ∧
      leaves (.rem .i32 3 4 5 false) 7 0 7 0 ∧ leaves (.div .i64 3 4 5 false) (-7) 2 (-3) 0 ∧
      leaves (.rem .i64 3 4 5 false) (-7) 2 (-1) 0 ∧ leaves (.div .i32 3 4 5 false) 0x80000000 0xFFFFFFFF 0xFFFFFFFF80000000 0 ∧
      leaves (.mulh .i64 3 4 5 .unsigned) (-1) (-1) (-2) 0 ∧ leaves (.mulh .i64 3 4 5 .signed) (-1) (-1) 0 0 ∧
      leaves (.shl .i32 3 4 5) 1 33 2 0 ∧ leaves (.sra .i64 3 4 5) (-8) 2 (-2) 0 ∧ leaves (.clz .i32 3 4) 0 9 32 0 ∧
      leaves (.clz .i64 3 4) 1 9 63 0 ∧ leaves (.bfx .i64 3 4 5 true) 0xF0 0x104 (-1) 0 := by decide +kernel

/-- Table 6.5: FP32 to E4M3 and E2M1. -/
theorem test_table_6_5 :
    leaves (.fcvt .e4m3 3 4 false .fp32 .rne) 0x43E00000 0 0x7E 0 ∧ leaves (.fcvt .e4m3 3 4 false .fp32 .rne) 0x43E80000 0 0x7E flagNX ∧
      leaves (.fcvt .e4m3 3 4 false .fp32 .rne) 0x43EB0000 0 0x7F (flagOF ||| flagNX) ∧
      leaves (.fcvt .e4m3 3 4 true .fp32 .rne) 0x43EB0000 0 0x7E (flagSAT ||| flagNX) ∧
      leaves (.fcvt .e4m3 3 4 false .fp32 .rne) 0xFF800000 0 0x7F flagNV ∧ leaves (.fcvt .e4m3 3 4 true .fp32 .rne) 0xFF800000 0 0xFE flagSAT ∧
      leaves (.fcvt .e4m3 3 4 true .fp32 .rne) 0x7FC00000 0 0x7F 0 ∧
      leaves (.fcvt .e2m1 3 4 false .fp32 .rne) 0x43E00000 0 0x7 (flagOF ||| flagNX) ∧
      leaves (.fcvt .e2m1 3 4 true .fp32 .rne) 0x43EB0000 0 0x7 (flagSAT ||| flagNX) ∧
      leaves (.fcvt .e2m1 3 4 false .fp32 .rne) 0xFF800000 0 0xF flagNV ∧ leaves (.fcvt .e2m1 3 4 true .fp32 .rne) 0xFF800000 0 0xF flagSAT ∧
      leaves (.fcvt .e2m1 3 4 false .fp32 .rne) 0x7FC00000 0 0 flagNV := by decide +kernel

/-- Table 6.4: FRINT of −2.5 and −0.4 in FP32. -/
theorem test_table_6_4 :
    ([(.rne, 0xC0000000, 0x80000000), (.rna, 0xC0400000, 0x80000000), (.rtz, 0xC0000000, 0x80000000), (.rdn, 0xC0400000, 0xBF800000),
      (.rup, 0xC0000000, 0x80000000), (.rod, 0xC0400000, 0xBF800000)] : List (Rm × Word × Word)).all (fun r =>
        leaves (.frint .f32 3 4 r.1) 0xC0200000 0 r.2.1 flagNX && leaves (.frint .f32 3 4 r.1) 0xBECCCCCD 0 r.2.2 flagNX) = true := by decide +kernel

/-- Table 3.3: FP32 overflow of the largest finite value times itself, and of its negative; Table 3.6: conversion of 3e9 and NaN. -/
theorem test_overflow_and_integers :
    ([(.rne, 0x7F800000, 0xFF800000), (.rtz, 0x7F7FFFFF, 0xFF7FFFFF), (.rdn, 0x7F7FFFFF, 0xFF800000), (.rup, 0x7F800000, 0xFF7FFFFF),
      (.rna, 0x7F800000, 0xFF800000), (.rod, 0x7F7FFFFF, 0xFF7FFFFF)] : List (Rm × Word × Word)).all (fun r =>
        leaves (.fmul .f32 3 4 5 r.1) 0x7F7FFFFF 0x7F7FFFFF r.2.1 (flagOF ||| flagNX) &&
        leaves (.fmul .f32 3 4 5 r.1) 0x7F7FFFFF 0xFF7FFFFF r.2.2 (flagOF ||| flagNX)) = true ∧
      leaves (.fcvti .fp32 3 4 false false .i32 .rne) 0x4F32D05E 0 0xFFFFFFFF80000000 flagNV ∧
      leaves (.fcvti .fp32 3 4 true false .i32 .rne) 0x4F32D05E 0 0x7FFFFFFF flagSAT ∧
      leaves (.fcvti .fp32 3 4 true true .i32 .rne) 0x7FC00000 0 0 flagNV ∧
      leaves (.fcvti .fp32 3 4 false false .i8 .rna) 0xC0200000 0 (-3) flagNX ∧
      leaves (.icvtf .fp32 3 4 false .i64 .rne) 0x1000001 0 0x4B800000 flagNX := by decide +kernel

/-- R64, R151, R152 by hand: one rounding of FMA, comparison with NaN, classes; Table 3.9: the generator. -/
theorem test_fma_classes_lode :
    leaves (.fma .f32 3 4 5 .rne) 0x40000000 0x40400000 0x40C00000 0 ∧ leaves (.fadd .f32 3 4 5 .rne) 0x7F800000 0xFF800000 0x7FC00000 flagNV ∧
      leaves (.fadd .f32 3 4 5 .rdn) 0x3F800000 0xBF800000 0x80000000 0 ∧ leaves (.fclass .f32 3 4) 0x7F800001 0 0x100 0 ∧
      leaves (.fclass .f32 3 4) 0x80000001 0 4 0 ∧ leaves (.lode 3 4 5 .raw) 1 0 0xCEA82E38 0 ∧ leaves (.lode 3 4 5 .u24) 1 0 0xCEA82E 0 ∧
      gives (exec (.fcmp .f32 1 4 5 .lt) (st ((th.wg 4 0x7FC00000).wg 5 0))) (fun t => t.thr.rp 1 == 0 && t.thr.flags == 0) = true ∧
      gives (exec (.fcmp .f32 1 4 5 .lt) (st ((th.wg 4 0x7FA00000).wg 5 0))) (fun t => t.thr.rp 1 == 0 && t.thr.flags == flagNV) = true ∧
      gives (exec (.cmp .i32 1 4 5 .lt) (st ((th.wg 4 0xFFFFFFFF).wg 5 1))) (fun t => t.thr.rp 1 == 0xFFFF) = true := by decide +kernel

/-- The example of R162, and back. By Table 3.4 the result for 0.7, below 2^0 and inexact, raises UF too (assumption 83). -/
theorem test_vpack_example :
    let s := st (th.wv 2 (BitVec.ofNat 512 0x40E00000C0A00000402000003F333333))
    gives (exec (.vpack .e2m1 6 2 false 0 .rne) s) (fun t => t.thr.rv 6 == 0x7E41#512 && t.thr.flags == flagOF ||| flagUF ||| flagNX) = true ∧
      gives (exec (.vpack .e2m1 6 2 true 0 .rne) s) (fun t => t.thr.rv 6 == 0x7E41#512 && t.thr.flags == flagSAT ||| flagUF ||| flagNX) = true ∧
      gives (exec (.vunpack .e2m1 7 6 0) (st (th.wv 6 0x7E41#512))) (fun t =>
        t.thr.rv 7 == BitVec.ofNat 512 0x40C00000C0800000400000003F000000) = true := by decide +kernel

/-- Lanes by hand: a masked add keeps the other lanes; rotation and reduction. -/
theorem test_lanes :
    let s := st (((th.wp 1 2).wv 1 (BitVec.ofNat 512 0x5_00000003)).wv 2 (BitVec.ofNat 512 0x7_00000009))
    gives (exec (.addV .i32 2 1 2 1 .wrap) s) (fun t => t.thr.rv 2 == BitVec.ofNat 512 0xC_00000009) = true ∧
      gives (exec (.vrot .i32 3 1 1 0) s) (fun t => t.thr.rv 3 == BitVec.ofNat 512 (5 + 3 * 2 ^ 480)) = true ∧
      gives (exec (.vred .f32 4 5 .add 0 .rne) (st (th.wv 5 (BitVec.ofNat 512 0x40000000_3F800000)))) (fun t =>
        (t.thr.rv 4).toNat % 2 ^ 32 == 0x40400000) = true := by decide +kernel

/-! ## Memory accesses (spec/05) -/

/-- Memory with bytes 0x87654321 at address 0x800. -/
def sm (t : Thread) : State := put (st t) 0x800 8 0x1122334487654321

theorem witness_AccessChecksTrap :
    let s (a : Word) := st (Thread.wg { th with tvec := 0x200 } 1 a)
    let z := st (Thread.wg { th with tvec := 0x200 } 1 0)
    (∃ f, (s 4).thr.loadForm (.ldD true 0 0 5 1 0) = some f ∧ f.sg = 0 ∧ f.off = 4 ∧ f.n = 8) ∧
      isNext (exec (.ldD true 0 5 5 1 0) (s 4)) ((s 4).trap .segRight 4 5) = true ∧
      isNext (exec (.ldD true 0 0 5 1 0) (s 0x3FFFC)) ((s 0x3FFFC).trap .segBound 0x3FFFC 0) = true ∧
      isNext (exec (.ldD true 0 0 5 1 0) (s 4)) ((s 4).trap .align 4 0) = true ∧
      isNext (exec (.ldD true 0 4 5 1 0) z) (z.trap .scratchBound 0 0) = true ∧
      isNext (exec (.stD true 0 5 1 0) (s 4)) ((s 4).trap .align 4 0) = true ∧
      (let q := st { Thread.wg { th with tvec := 0x200 } 1 0 with segs := Vector.replicate 8 (seg spInter 0xFFFFF00000000 0x100) }
       badAddress 0xFFFFF00000000 = true ∧ isNext (exec (.ldD true 0 0 5 1 0) q) (q.trap .addrForm 0xFFFFF00000000 0) = true) := by
  refine ⟨⟨_, rfl, ?_⟩, ?_⟩ <;> decide

theorem witness_LoadsComplete :
    let s := sm (th.wg 1 0x800)
    ∃ f, s.thr.loadForm (.ldW true 4 0 5 1 0) = some f ∧ s.readReady = true ∧ s.thr.isHandler = false ∧
      s.accCheck f.sg f.off.toNat f.n f.n rightR .load = none ∧
      s.locate s.thr.view (s.thr.seg 0) f.off.toNat needR true = .ok 0x800 ∧ s.poisoned 0x800 f.n = false ∧ s.padHealth 0x800 ≠ .failed ∧
      (∀ j, j < f.n → s.settled (0x800 + j) = true) ∧ ((s.core 0).l1? (lineAt 0x800)).isNone = true ∧ (s.core 0).wcb = [] ∧
      gives (exec (.ldW true 4 0 5 1 0) s) (fun t => passes s t && kept s t [] && (t.thr.pending.getLast?.map fun e =>
        (e.wait, e.value, e.dest, e.left)) == some (.value, 0x87654321, .g 5, 4)) = true ∧
      gives (exec (.ldSW true 4 0 5 1 0) s) (fun t => (t.thr.pending.getLast?.map (·.value)) == some 0xFFFFFFFF87654321) = true :=
  ⟨_, rfl, by decide +kernel⟩

/-- A load of a page without R; one behind an LDS of its thread; one of a handler. -/
theorem witness_LoadsComplete_others :
    let s := sm (th.wg 1 0x800)
    let d := put s 0x100000 1 29
    let q := s.onThr fun t => { t with pending := [{ pnd .listed with acq := true }], pendSeq := 5 }
    let h := sm (hnd.wg 1 0x800)
    let i := Instr.ldW true 4 0 5 1 0
    (∃ f, s.thr.loadForm i = some f ∧ f.off = 0x800 ∧ f.n = 4) ∧ d.readReady = true ∧
      d.locate th.view (th.seg 0) 0x800 needR true = .deny ∧
      gives (exec i d) (fun t => passes d t && (t.thr.pending.getLast?.map (·.wait)) == some (.fault .pageRight 0x800 false)) = true ∧
      q.thr.acquireBelow q.thr.accessNum = true ∧ q.portClear = true ∧ q.accCheck 0 0x800 4 4 rightR .load = none ∧
      q.locate th.view (th.seg 0) 0x800 needR true = .ok 0x800 ∧ isLane 0x800 = false ∧
      gives (exec i q) (fun t => passes q t && kept q t [] && (t.thr.pending.getLast?.map fun e => (e.seq, e.wait)) == some (5, .port) &&
        t.loads.map (fun l => (l.key, l.entry, l.parts.map (fun p => (p.loc, p.size)), l.lds)) == [(th.key, 5, [(0x800, 4)], none)]) = true ∧
      h.thr.isHandler = true ∧ h.accCheck 0 0x800 4 4 rightR .load = none ∧
      h.place h.thr (h.thr.seg 0) 0x800 needR true = .ok 0x800 ∧ h.poisoned 0x800 4 = false ∧
      (∀ j, j < 4 → h.settled (0x800 + j) = true) ∧
      gives (exec i h) (fun t => passes h t && kept h t [] &&
        (t.thr.pending.getLast?.map fun e => (e.wait, e.value)) == some (.value, 0x87654321)) = true :=
  ⟨⟨_, rfl, by decide +kernel⟩, by decide +kernel⟩

/-- A far load, and one of a line whose frozen copy the module's caches hold. -/
theorem witness_LoadsComplete_far :
    let g (pol : BitVec 2) : Seg := { seg spFar 0x40000 0x1000 with rights := 1, fmod := 3, policy := pol }
    let s (pol : BitVec 2) : State :=
      { st (Thread.wg { th with segs := Vector.replicate 8 (g pol) } 1 0x10) with
        farLines := [⟨1, 3, 0x800, BitVec.allOnes 128, BitVec.ofNat 1024 (0x87654321 * 2 ^ 128)⟩] }
    ∃ f, (s 0).thr.loadForm (.ldW true 4 0 5 1 0) = some f ∧ (s 0).readReady = true ∧ (s 0).thr.isHandler = false ∧
      (s 0).accCheck f.sg f.off.toNat f.n f.n rightR .load = none ∧ ((s 0).thr.seg f.sg).space = spFar ∧
      (s 0).farHeld 1 3 [(0x40010, 4)] = some 0x87654321 ∧
      gives (exec (.ldW true 4 0 5 1 0) (s 0)) (fun t => passes (s 0) t && (t.thr.pending.getLast?.map fun e => (e.wait, e.value)) ==
        some (.value, 0x87654321)) = true ∧
      ((s 2).thr.seg f.sg).policy = 2 ∧ (s 2).accCheck f.sg f.off.toNat f.n f.n rightR .load = none ∧
      gives (exec (.ldW true 4 0 5 1 0) (s 2)) (fun t => passes (s 2) t && t.farOut.length == 1 &&
        (t.thr.pending.getLast?.map (·.wait)) == some .far) = true := ⟨_, rfl, by decide +kernel⟩

theorem witness_VectorAccessesComplete :
    let s := put (put (st (((th.wg 2 0).wg 3 4).wv 5 0x99)) (laneLoc 0 0 0) 4 7) (spadLoc 0 0) 8 0x0000000600000005
    (∃ f, s.thr.laneLoad (.ldvs true 0 2 5 1 false) = some f ∧ s.readReady = true ∧ f.pass s rightR .load = true ∧
      s.thr.isHandler = false ∧ (s.thr.seg f.sg).isDram = false ∧ (s.thr.seg f.sg).space ≠ spFar ∧ (s.thr.seg f.sg).space ≠ spLane ∧
      ∀ p ∈ f.lanes, ((laneSeg (s.thr.seg f.sg)).base.toNat + p.2) % 128 + f.esz ≤ 128 ∧
        s.place s.thr (laneSeg (s.thr.seg f.sg)) p.2 needR true = .ok (spadLoc 0 (4 * p.1)) ∧
        isDram (spadLoc 0 (4 * p.1)) = false ∧ s.poisoned (spadLoc 0 (4 * p.1)) f.esz = false ∧ s.padHealth (spadLoc 0 (4 * p.1)) ≠ .failed) ∧
    gives (exec (.ldvs true 0 2 5 1 false) s) (fun t => (t.thr.pending.getLast?.map fun e => (lane 32 e.value 0, lane 32 e.value 1)) ==
      some (5, 6)) = true ∧
    (∃ f, s.thr.laneStore (.stvs true 2 5 1 false) = some f ∧ s.storeReady = true ∧ s.thr.isHandler = false ∧
      f.pass s rightW .store = true ∧ (∀ p ∈ f.lanes, s.fieldCheck (s.thr.seg f.sg) p.2 f.esz = none) ∧
      (s.thr.seg f.sg).space ≠ spLane ∧
      (∀ p ∈ f.lanes, s.place s.thr (laneSeg (s.thr.seg f.sg)) p.2 needW false = .ok (spadLoc 0 (4 * p.1)) ∧
        s.padHealth (spadLoc 0 (4 * p.1)) = .ok) ∧ s.thr.relFence = false) ∧
    gives (exec (.stvs true 2 5 1 false) s) (fun t => passes s t && kept s t [(spadLoc 0 0, 64)] &&
      memRead t.mem (spadLoc 0 0) 8 == 0x99) = true := by
  refine ⟨⟨_, rfl, ?_⟩, ?_, ⟨_, rfl, ?_⟩, ?_⟩ <;> decide

/-- In lane memory lane i lies at byte 512 i + its offset, whatever BASE is. -/
theorem witness_VectorAccessesComplete_lanes :
    let t0 := Thread.wv (Thread.wg { th with segs := Vector.replicate 8 (seg spLane 0x100 0x200) } 1 0) 5 0x0000000600000005
    let s := put (put (st t0) (laneLoc 0 0 0) 4 7) (laneLoc 0 0 512) 4 8
    (∃ f, s.thr.laneLoad (.ldv true 0 1 5 1 0) = some f ∧ s.readReady = true ∧ f.pass s rightR .load = true ∧
      (s.thr.seg f.sg).space = spLane ∧
      ∀ p ∈ f.lanes, s.place s.thr (laneSeg (s.thr.seg f.sg)) (512 * p.1 + p.2) needR true = .ok (laneLoc 0 0 (512 * p.1))) ∧
    gives (exec (.ldv true 0 1 5 1 0) s) (fun t => (t.thr.pending.getLast?.map fun e => (lane 32 e.value 0, lane 32 e.value 1)) ==
      some (7, 8)) = true ∧
    (∃ f, s.thr.laneStore (.stv true 1 5 1 0) = some f ∧ s.storeReady = true ∧ f.pass s rightW .store = true) ∧
    gives (exec (.stv true 1 5 1 0) s) (fun t => passes s t && memRead t.mem (laneLoc 0 0 0) 4 == 5 &&
      memRead t.mem (laneLoc 0 0 512) 4 == 6) = true := by
  refine ⟨⟨_, rfl, ?_⟩, ?_, ⟨_, rfl, ?_⟩, ?_⟩ <;> decide

theorem witness_StoresComplete :
    let s := st ((th.wg 1 0x800).wg 2 0x1234567890ABCDEF)
    let f : State := { s with freeze := [(0, 1)] }
    s.thr.storeForm (.stW true 0 2 1 0) = some (0, 0x800, 4, 0x90ABCDEF) ∧ s.storeReady = true ∧ s.thr.isHandler = false ∧
      s.thr.ended = none ∧ s.thr.status = .ready ∧ s.accCheck 0 0x800 4 4 rightW .store = none ∧
      s.fieldCheck (s.thr.seg 0) 0x800 4 = none ∧ s.place s.thr (s.thr.seg 0) 0x800 needW false = .ok 0x800 ∧
      s.isFrozen 0x800 = false ∧ (∀ j, j < 4 → s.settled (0x800 + j) = true) ∧ (s.core 0).wcb = [] ∧
      gives (exec (.stW true 0 2 1 0) s) (fun t => passes s t && kept s t (s.storeRanges (s.thr.seg 0) [(0x800, 4, 0x90ABCDEF)]) &&
        t.sees 0 16 0x801 == 0xCD) = true ∧
      f.isFrozen 0x800 = true ∧ gives (exec (.stW true 0 2 1 0) f) (fun t => passes f t && t.mem == f.mem && t.cores == f.cores &&
        t.faults == [⟨0, .crew 1 0 0, 0x100, 0x800, 2, false, .frozen, .flight⟩]) = true ∧
      s.place s.thr (s.thr.seg 2) 0x800 needW false = .ok (spadLoc 0 0x800) ∧ s.padHealth (spadLoc 0 0x800) = .ok ∧
      gives (exec (.stW true 2 2 1 0) s) (fun t => memRead t.mem (spadLoc 0 0x800) 4 == 0x90ABCDEF) = true := by decide +kernel

/-- A handler's store, nibble store and atomic write its bank group. -/
theorem witness_StoresComplete_handler :
    let s := sm ((hnd.wg 1 0x800).wg 2 0xFF9)
    let g := s.thr.seg 0
    let n := s.onThr fun t => t.wg 1 0x1001
    s.thr.isHandler = true ∧ s.thr.status = .ready ∧ s.thr.ended = none ∧ s.accCheck 0 0x800 4 4 rightW .store = none ∧
      s.fieldCheck g 0x800 4 = none ∧ s.place s.thr g 0x800 needW false = .ok 0x800 ∧ s.writable 0x800 = true ∧
      s.padHealth 0x800 ≠ .retired ∧ s.settled 0x800 = true ∧
      gives (exec (.stW true 0 2 1 0) s) (fun t => passes s t && kept s t [(0x800, 4)] && memRead t.mem 0x800 4 == 0xFF9) = true ∧
      s.accCheck 0 0x800 1 1 rightW .nibble = none ∧ s.fieldCheck g 0x800 1 = none ∧
      gives (exec (.stN true 0 2 1 0) n) (fun t => passes n t && kept n t [(0x800, 1)] && memGet t.mem 0x800 == 0x91) = true ∧
      s.accCheck 0 0x800 8 8 rightA .atomic = none ∧ s.fieldCheck g 0x800 8 = none ∧ g.space ≠ spFar ∧
      s.place s.thr g 0x800 needRW false = .ok 0x800 ∧ s.poisoned 0x800 8 = false ∧
      (∀ j, j < 8 → s.settled (0x800 + j) = true) ∧
      gives (exec (.atom true 2 0 2 1 .add .dbl) s) (fun t => passes s t && kept s t [(0x800, 8)] &&
        memRead t.mem 0x800 8 == 0x112233448765531A && (t.thr.pending.getLast?.map (·.value)) == some 0x1122334487654321) = true := by
  decide +kernel

theorem witness_NibbleStoreCompletes :
    let s := put (st ((th.wg 1 0x801).wg 2 0x1239)) (spadLoc 0 0x400) 1 0x56
    s.storeReady = true ∧ s.thr.isHandler = false ∧ s.accCheck 2 0x400 1 1 rightW .nibble = none ∧
      s.fieldCheck (s.thr.seg 2) 0x400 1 = none ∧ s.thr.relFence = false ∧
      s.place s.thr (s.thr.seg 2) 0x400 needW false = .ok (spadLoc 0 0x400) ∧ ownPort th.view (spadLoc 0 0x400) = true ∧
      s.padHealth (spadLoc 0 0x400) = .ok ∧ ownPort th.view 0x400 = false ∧
      gives (exec (.stN true 2 2 1 0) s) (fun t => passes s t && memGet t.mem (spadLoc 0 0x400) == 0x96) = true ∧
      s.place s.thr (s.thr.seg 0) 0x400 needW false = .ok 0x400 ∧ s.accCheck 0 0x400 1 1 rightW .nibble = none ∧
      gives (exec (.stN true 0 2 1 0) s) (fun t => passes s t && t.msgs ==
        [⟨.crew 1 0 0, th.view, 0x400, 1, .nibble true, 9, 0, none, 0x400, 0x100, s.thr.pendSeq, s.draw⟩]) = true := by decide +kernel

/-! ## Full/empty words, barriers, fences, atomics (spec/05) -/

theorem witness_FullEmptyOperations_LDS :
    let s := sm (th.wg 1 0x800)
    let q : State := { s with empty := [0x100] }
    s.readReady = true ∧ s.padHealth 0x800 ≠ .failed ∧ s.accCheck 0 0x800 8 8 rightS .fe = none ∧
      s.fieldCheck (s.thr.seg 0) 0x800 8 = none ∧ s.place s.thr (s.thr.seg 0) 0x800 needR true = .ok 0x800 ∧ s.isFull 0x100 = true ∧ s.poisoned 0x800 8 = false ∧
      s.unwaited 0x800 = true ∧ (∀ j, j < 8 → s.settled (0x800 + j) = true) ∧
      gives (exec (.ldsConsume true 4 0 5 1 true) s) (fun t => passes s t && kept s t [] && !t.isFull 0x100 &&
        (t.thr.pending.getLast?.map (·.value)) == some 0x1122334487654321) = true ∧
      gives (exec (.lds true 4 0 5 1 true) s) (fun t => passes s t && t.isFull 0x100) = true ∧
      q.isFull 0x100 = false ∧ q.thr.lookahead 0 = 0 ∧ gives (exec (.lds true 0 0 5 1 true) q) (fun t => parks q t (.word 0x100)) = true ∧
      q.thr.lookahead 4 ≠ 0 ∧ gives (exec (.lds true 4 0 5 1 true) q) (fun t => passes q t && t.waits.length == 1 &&
        (t.thr.pending.getLast?.map (·.wait)) == some .listed) = true ∧
      (let r := st { th with grant := some 7 }
       gives (exec (.lds true 4 0 5 1 true) r) (fun t => passes r t && (t.thr.pending.getLast?.map (·.value)) == some 7) = true) := by
  decide +kernel

/-- A handler's LDS of an empty word and STS.PRODUCE of a full one end it with FESTATE; a change of the bit serves the oldest
request of the word's list, which another satisfied change does not. -/
theorem witness_FullEmptyOperations_lists :
    let h := sm ((hnd.wg 1 0x800).wg 2 7)
    let e : State := { h with empty := [0x100] }
    let w : WordWait := ⟨0x100, .crew 1 0 1, .produce 0x800 8 77, none⟩
    let l : WordWait := ⟨0x100, .crew 1 0 1, .load true none 0x800 8 0x800, none⟩
    let s : State := { s2 (th.wg 1 0x800) with waits := [w] }
    h.thr.isHandler = true ∧ h.accCheck 0 0x800 8 8 rightS .fe = none ∧ h.fieldCheck (h.thr.seg 0) 0x800 8 = none ∧
      h.place h.thr (h.thr.seg 0) 0x800 needR true = .ok 0x800 ∧ e.isFull 0x100 = false ∧
      gives (exec (.lds true 0 0 5 1 true) e) (fun t => same e t && kept e t [] && t.thr.ended == (e.thr.handlerFault .feState).ended) = true ∧
      h.storeReady = true ∧ h.place h.thr (h.thr.seg 0) 0x800 needW false = .ok 0x800 ∧ h.writable 0x800 = true ∧ h.isFull 0x100 = true ∧
      gives (exec (.stsProduce true 0 2 1 true) h) (fun t => same h t && t.thr.ended == (h.thr.handlerFault .feState).ended) = true ∧
      s.storeReady = true ∧ s.waits.filter (fun r => r.word == wordAt 0x800) = [w] ∧ w.req.satisfied false = true ∧
      gives (exec (.feclr true 0 1) s) (fun t => passes s t && t.waits == [] && t.isFull 0x100 && t.wakes == [.crew 1 0 1]) = true ∧
      w.req.satisfied true = false ∧ gives (exec (.feset true 0 1) s) (fun t => t.waits == [w] && t.isFull 0x100) = true ∧
      l.req.satisfied true = true ∧ gives (exec (.feset true 0 1) { s with waits := [l, w], empty := [0x100] }) (fun t =>
        passes s t && t.waits == [] && t.wakes == [.crew 1 0 1]) = true := by decide +kernel

theorem witness_FullEmptyOperations_STS :
    let s := sm ((th.wg 1 0x800).wg 2 0xABCDEF)
    let q : State := { s with empty := [0x100] }
    let g := st { th with grant := some 7 }
    s.storeReady = true ∧ s.accCheck 0 0x800 8 8 rightS .fe = none ∧ s.fieldCheck (s.thr.seg 0) 0x800 8 = none ∧
      s.place s.thr (s.thr.seg 0) 0x800 needW false = .ok 0x800 ∧ s.writable 0x800 = true ∧ s.padHealth 0x800 = .ok ∧ s.isFull 0x100 = true ∧
      q.isFull 0x100 = false ∧ q.unwaited 0x800 = true ∧ (∀ j, j < 8 → q.settled (0x800 + j) = true) ∧
      gives (exec (.stsProduce true 0 2 1 true) q) (fun t => passes q t && kept q t [(0x800, 8)] && t.isFull 0x100 &&
        memRead t.mem 0x800 8 == 0xABCDEF) = true ∧
      gives (exec (.stsProduce true 0 2 1 true) s) (fun t => parks s t (.word 0x100)) = true ∧
      gives (exec (.stsOver true 0 2 1 true) s) (fun t => passes s t && memRead t.mem 0x800 8 == 0xABCDEF) = true ∧
      gives (exec (.stsProduce true 0 2 1 true) g) (fun t => passes g t && t.mem == g.mem) = true ∧
      gives (exec (.feset true 0 1) q) (fun t => passes q t && t.isFull 0x100) = true ∧
      gives (exec (.feclr true 0 1) s) (fun t => passes s t && !t.isFull 0x100) = true ∧
      s.readReady = true ∧ s.place s.thr (s.thr.seg 0) 0x800 needR true = .ok 0x800 ∧
      gives (exec (.feq true 0 3 1) q) (fun t => t.thr.rg 3 == 0) = true ∧
      gives (exec (.feq true 0 3 1) s) (fun t => t.thr.rg 3 == 1) = true := by decide +kernel

/-- A ring at 0x800 of 2^2 slots whose head is 5: the slot is number 1. -/
theorem witness_FullEmptyOperations_APND :
    let s : State := { put (put (st ((th.wg 1 0x800).wg 2 77)) 0x800 8 5) 0x810 1 2 with empty := [0x109] }
    s.thr.grant = none ∧ s.storeReady = true ∧ s.calm = true ∧ s.thr.isHandler = false ∧ s.accCheck 0 0x800 64 64 rightA .append = none ∧
      s.fieldCheck (s.thr.seg 0) 0x800 64 = none ∧ s.place s.thr (s.thr.seg 0) 0x800 needW false = .ok 0x800 ∧
      s.writable 0x800 = true ∧ memRead s.mem 0x800 8 = 5 ∧
      State.place { s with mem := memWrite s.mem 0x800 8 6 } s.thr (s.thr.seg 0) 0x848 needW false = .ok 0x848 ∧
      s.writable 0x848 = true ∧ s.padHealth 0x800 = .ok ∧ s.padHealth 0x848 ≠ .retired ∧ s.isFull 0x109 = false ∧ s.unwaited 0x848 = true ∧
      gives (exec (.apnd true 0 2 1) s) (fun t => passes s t && t.isFull 0x109 && memRead t.mem 0x848 8 == 77 &&
        memRead t.mem 0x800 8 == 6) = true := by decide +kernel

theorem witness_BarrierOperations :
    let s := st ((th.wg 1 0x800).wg 2 1)
    let b : Barrier := ⟨1, 0, 9, 0, 3, false⟩
    let w (b : Barrier) := put s 0x800 16 b.bits
    s.storeReady = true ∧ s.accCheck 0 0x800 16 16 rightS .append = none ∧ s.fieldCheck (s.thr.seg 0) 0x800 16 = none ∧
      s.place s.thr (s.thr.seg 0) 0x800 needRW false = .ok 0x800 ∧ s.writable 0x800 = true ∧
      (∀ j, j < 16 → s.settled (0x800 + j) = true) ∧ (w b).barrier 0x800 = b ∧
      gives (exec (.tbinit true 1 2 0) (w b)) (fun t => passes s t && t.barrier 0x800 == ⟨1, 0, 0, 0, 4, false⟩) = true ∧
      gives (exec (.tbexp true 1 2 0) (w b)) (fun t => passes s t && t.barrier 0x800 == ⟨2, 0, 9, 0, 3, false⟩) = true ∧
      s.thr.isHandler = false ∧ s.padHealth 0x800 = .ok ∧
      gives (exec (.tbarv true 1 2 0) (w b)) (fun t => passes s t && t.barrier 0x800 == ⟨1, 1, 9, 0, 3, true⟩) = true ∧
      gives (exec (.tbarv true 1 2 0) { w b with others := [{ th1 with status := .parked, wait := .barrier 0x800 }] }) (fun t =>
        t.wakes == [.crew 1 0 1]) = true ∧
      s.readReady = true ∧ s.place s.thr (s.thr.seg 0) 0x800 needRW true = .ok 0x800 ∧ s.poisoned 0x800 16 = false ∧
      gives (exec (.tbwait true 1 0) (w b)) (fun t => parks s t (.barrier 0x800)) = true ∧
      gives (exec (.tbwait true 1 0) (w { b with done := true })) (fun t => passes s t) = true ∧
      gives (exec (.tbtest true 3 1 0) (w { b with done := true, flags := 4 })) (fun t => t.thr.rg 3 == 0x8003000400000009 &&
        t.thr.pc == 0x104) = true := by decide +kernel

theorem witness_FenceAndDrain :
    let s := sm ((th.wg 1 0x800).wg 2 0xABCDEF)
    let d : State := { s with msgs := [⟨.crew 1 0 0, th.view, 0x800, 8, .red .add false, 1, 0, none, 0x800, 0x80, 0, 0⟩], farOut := [⟨0, 1, th.key, none, 0x900, 0x90, 3, none, 1, 3, [], 0, 0⟩] }
    d.ownRecord = none ∧ d.portClear = true ∧ d.thr.loadsOpen = false ∧ d.thr.openBelow 0 = false ∧ d.faults = [] ∧
      (∀ m ∈ d.msgs, m.key = d.thr.key → d.isFrozen m.loc = false ∧ d.wayGone m.key m.loc m.va = false ∧
        coreIndex m.view = coreIndex d.thr.view ∧ d.msgReady m = true) ∧ (∀ m ∈ d.farOut, m.isRed th.key = true) ∧
      gives (exec (.fence true .rel .dev) d) (fun t => passes d t && t.msgs == [] && t.thr.relFence && kept d t [] &&
        memRead t.mem 0x800 8 == 0x1122334487654322) = true ∧
      gives (exec (.fence true .acq .clus) d) (fun t => passes d t && !t.thr.relFence) = true ∧
      gives (exec (.drain true) d) (fun t => passes d t && t.msgs == [] && t.farOut == [] &&
        memRead t.mem 0x800 8 == 0x1122334487654322) = true := by
  decide +kernel

theorem witness_AtomicsComplete :
    let s := put (sm (((((th.wg 1 0x800).wg 4 5).wg 5 9).wg 6 3).wg 7 0)) (spadLoc 0 0x800) 8 5
    s.operatesAt 0 1 8 needRW 0x800 ∧ s.thr.isHandler = false ∧ s.storeReady = true ∧ isDram 0x800 = true ∧
      s.operatesAt 2 1 8 needRW (spadLoc 0 0x800) ∧ s.operatesAt 2 1 16 needRW (spadLoc 0 0x800) ∧
      s.operatesAt 2 1 8 needW (spadLoc 0 0x800) ∧ s.operatesAt 0 1 8 needW 0x800 ∧
      s.poisoned (spadLoc 0 0x800) 16 = false ∧ s.padHealth (spadLoc 0 0x800) = .ok ∧
      gives (exec (.atom true 2 0 4 1 .add .dbl) s) (fun t => passes s t && kept s t [] && t.msgs ==
        [⟨.crew 1 0 0, th.view, 0x800, 8, .atom .add false, 5, 0, some 0, 0x800, 0x100, s.thr.accessNum, s.portOrd⟩] &&
        (t.thr.pending.getLast?.map fun e => (e.wait, e.left, e.dest)) == some (.atomic, 2, .g 4)) = true ∧
      gives (exec (.atom true 2 2 4 1 .add .dbl) s) (fun t => passes s t && memRead t.mem (spadLoc 0 0x800) 8 == 10 &&
        (t.thr.pending.getLast?.map (·.value)) == some 5) = true ∧
      gives (exec (.cas true 2 2 2 1 true) s) (fun t => passes s t && memRead t.mem (spadLoc 0 0x800) 8 == 9) = true ∧
      gives (exec (.cas2 true 2 2 1 1) s) (fun t => passes s t && t.thr.pending.length == 2 &&
        memRead t.mem (spadLoc 0 0x800) 8 == 5) = true ∧
      gives (exec (.red true 2 4 1 .max .dbl) s) (fun t => passes s t && t.mem == s.mem && t.msgs.length == 1 &&
        t.thr.pending == []) = true ∧
      gives (exec (.redFadd true .rne 0 4 1 true) s) (fun t => passes s t && t.msgs.length == 1) = true := by
  unfold State.operatesAt
  decide +kernel

theorem witness_AtomicsComplete_far :
    let s := st (Thread.wg { th with segs := Vector.replicate 8 (seg spFar 0 0x10000) } 1 0x800)
    s.storeReady = true ∧ s.accCheck 0 0x800 8 8 rightA .atomic = none ∧ (s.thr.seg 0).space = spFar ∧
      gives (exec (.atom true 2 0 4 1 .add .dbl) s) (fun t => passes s t && t.farOut.length == 1 &&
        (t.thr.pending.getLast?.map (·.wait)) == some .far) = true ∧
      gives (exec (.red true 0 4 1 .max .dbl) s) (fun t => passes s t && t.farOut.length == 1) = true := by decide +kernel

/-! ## Threads, registers, segments, launch (spec/01, spec/04, spec/11) -/

theorem witness_ThreadsEndAndMeet :
    let s := s2 (th.wg 1 1)
    let a := s2 (th.wg 1 2)
    let b : State := { s with crews := [{ crw with barc := [1] }] }
    s.thr.pending = [] ∧ s.portClear = true ∧ s.faults = [] ∧ s.jobsOpen = false ∧ s.msgs = [] ∧
      (∃ v ∈ s.others, v.live = true ∧ v.key ≠ s.thr.key ∧ v.inCrew s.thr.crewId.1 s.thr.crewId.2 = true) ∧
      gives (exec (.exit true) s) (fun t => t.thr.status == .retired && kept s t [] && t.others == s.others) = true ∧
      isNext (exec (.yield true) s) (s.onThr fun t => { t.advance with yielded := true }) = true ∧
      a.thr.nthr ≤ 2 ∧ isNext (exec (.tkillThread true 1) a) (a.onThr Thread.advance) = true ∧
      gives (exec (.tkillThread true 1) s) (fun t => t.others.all (fun v => v.status == .retired) && t.thr.pc == 0x104 &&
        t.thr.status == .ready && kept s t []) = true ∧
      gives (exec (.tkillCrew true) s) (fun t => t.threads.all (fun v => v.status == .retired) &&
        t.shifts.all (fun k => k.killed)) = true ∧
      (s.shift? 1).isSome = true ∧ gives (exec (.tkillShift true) s) (fun t => t.threads.all (fun v => v.status == .retired) &&
        t.shifts.all (fun k => k.killed)) = true ∧
      (let q := st th
       (q.shift? 1).isNone = true ∧ isNext (exec (.tkillShift true) q) (q.onThr Thread.advance) = true) ∧
      s.thr.grant = none ∧ s.wakes = [] ∧ s.thr.status = .ready ∧ s.storeReady = true ∧ s.crew? (1, 0) = some crw ∧ s.thr.inCrew 1 0 = true ∧
      gives (exec (.barc true) s) (fun t => parks s t .barc && (t.crew? (1, 0)).map (·.barc) == some [0]) = true ∧
      gives (exec (.barc true) b) (fun t => passes b t && (t.crew? (1, 0)).map (·.barc) == some [] &&
        t.wakes == [.crew 1 0 1]) = true := by decide +kernel

theorem witness_MachineRegisters :
    let s := tab (st (thH.wg 1 4)) 0x30004
    let n := tab (st (thH.wg 1 4)) 4
    let z := tab (st (thH.wg 1 0)) 0x30004
    gives (exec (.mwr true 1 .srkey) s) (fun t => t.readM .srkey == 4 && t.thr.pc == 0x104) = true ∧
      gives (exec (.mrd true 2 .tvec) s) (fun t => t.thr.rg 2 == 0x200) = true ∧
      s.thr.grant = none ∧ s.thr.htab ≠ 0 ∧ tableRead s s.thr.view s.thr.htab 8 = (.ok 0x400, 0x30004) ∧
      tableRead n n.thr.view n.thr.htab 8 = (.ok 0x400, 4) ∧ (4 : Nat).testBit 16 = false ∧
      isNext (exec (.mwr true 1 .wpart) n) (n.trap .segRight 4 0x070) = true ∧
      z.readM .wpart = 0 ∧ isNext (exec (.mwr true 1 .wpart) z) (z.onThr Thread.advance) = true ∧ s.readM .wpart ≠ 4 ∧
      gives (exec (.mwr true 1 .wpart) s) (fun t => parks s t (.engine 1) &&
        t.engJobs == [⟨1, .crew 1 0 0, 1, none, .repartition 4 0⟩]) = true := by decide +kernel

theorem witness_SegmentOperations :
    let s := tab (st (((thH.wg 1 1).wg 2 0x100).wg 3 0x80)) 4
    let e := tab (st ((thH.wg 1 5).wg 2 0x40000)) 4
    readHandle s s.thr.view s.thr.htab 1 = .ok (seg spInter 0 0x40000) ∧
      gives (exec (.segld true 1 6) s) (fun t => t.thr.seg 6 == seg spInter 0 0x40000 && t.thr.pc == 0x104) = true ∧
      readHandle e e.thr.view e.thr.htab 5 = .segRight ∧ isNext (exec (.segld true 1 6) e) (e.trap .segRight 5 6) = true ∧
      s.thr.htab ≠ 0 ∧ tableRead s s.thr.view 0x400 8 = (.ok 0x400, 4) ∧
      tableRead s s.thr.view (0x400 + 32 * 1) 32 = (.ok 0x420, entryOfSeg (seg spInter 0 0x40000)) ∧
      readHandle s s.thr.view 0x400 4 = .ok (seg spCore 0 0x10000) ∧ (s.thr.seg 6).space = 0 ∧
      isNext (exec (.segsub true 1 2 3 6) s) (s.trap .segRight 0 6) = true ∧ (s.thr.seg 0).space ≠ 0 ∧
      gives (exec (.segsub true 1 2 3 0) s) (fun t => t.thr.seg 0 == ⟨0x100, 0x80, 0xFE, spInter, 0, 0⟩) = true ∧
      isNext (exec (.segsub true 1 2 2 0) e) (e.trap .segBound 0x40000 0) = true ∧
      gives (exec (.segq true 5 .rights 0) s) (fun t => t.thr.rg 5 == 0x5FF) = true := by decide +kernel

/-! ## Copies, launch, dispatch (spec/05, spec/11) -/

theorem witness_CopiesComplete :
    let s := put (tab (st ((((thH.wg 1 0x900).wg 2 16).wg 4 (at1 0xA00)).wg 5 (at1 0xB00))) 4) 0x900 8 0x77
    let here : Ref := ⟨s.thr.seg 0, 0x900, s.thr.view⟩
    let there : Ref := ⟨s.thr.seg 0, 0xA00, s.thr.view⟩
    let bar : Ref := ⟨s.thr.seg 0, 0xB00, s.thr.view⟩
    let j : CopyJob := ⟨1, s.thr.key, here, there, 16, 0, false, false, s.hartFor th.view (th.seg 0) 0x900 false, false, bar⟩
    let c : State := { s with copies := [j] }
    let e : State := { s with copies := [{ j with pos := 2 }] }
    s.storeReady = true ∧ followHandle s s.thr.view s.thr.htab (at1 0xA00) = .ok (s.thr.seg 0) ∧
      followHandle s s.thr.view s.thr.htab (at1 0xB00) = .ok (s.thr.seg 0) ∧
      copyCheck s here.seg (s.thr.seg 0) 0 0x900 1 0xA00 (s.thr.seg 0) (at1 0xB00) 16 0 false = none ∧
      copyCheck s (s.thr.seg 0) here.seg 1 0xA00 0 0x900 (s.thr.seg 0) (at1 0xB00) 16 0 true = none ∧
      gives (exec (.xfer true 2 1 2 0) s) (fun t => passes s t && kept s t [] && t.copies == [j]) = true ∧
      gives (exec (.xferF true 2 1 2 0) s) (fun t => passes s t && t.copies == [{ j with feSet := true }]) = true ∧
      gives (exec (.gath true 2 1 2 0) s) (fun t => passes s t &&
        t.copies == [{ j with src := there, dst := here, gather := true, hart := s.hartFor th.view (th.seg 0) 0xA00 true }]) = true ∧
      c.copies.find? (fun k => k.id == j.id) = some j ∧ c.calm = true ∧ c.hartStops j = false ∧
      badAddress 0x900 = false ∧ badAddress 0xA00 = false ∧ c.locateNow here.view here.seg 0x900 needR = .ok 0x900 ∧
      c.locateNow here.view here.seg 0xA00 needW = .ok 0xA00 ∧ c.padHealth 0xA00 ≠ .retired ∧ c.poisoned 0x900 8 = false ∧ c.writable 0xA00 = true ∧
      gives (exec (.copyCompletion 1 1) c) (fun t => same c t && kept c t [(0xA00, 8)] && memRead t.mem 0xA00 8 == 0x77 &&
        t.copies == [{ j with pos := 1 }]) = true ∧
      e.hartStops { j with pos := 2 } = false ∧ e.barrierAt bar 0xB00 ∧ gives (exec (.copyCompletion 1 1) e) (fun t => same e t && kept e t [(0xB00, 16)] &&
        t.copies == [] && (t.barrier 0xB00).arrived == 1 && (t.barrier 0xB00).value == 0) = true := by
  unfold State.barrierAt State.settledRange
  decide +kernel

/-- The last granule of a copy that fills words; a granule to far memory, and one of a GATH from it, or its failure there. -/
theorem witness_CopiesComplete_ends :
    let here : Ref := ⟨th.seg 0, 0x900, th.view⟩
    let there : Ref := ⟨th.seg 0, 0xA00, th.view⟩
    let far : Ref := ⟨{ seg spFar 0 0x1000 with fmod := 3 }, 0, th.view⟩
    let bar : Ref := ⟨th.seg 0, 0xB00, th.view⟩
    let j : CopyJob := ⟨1, th.key, here, there, 8, 0, true, false, 0, false, bar⟩
    let s0 := put (st th) 0x900 8 0x77
    let s : State := { s0 with copies := [j], empty := [0x140] }
    let w : State := { s with mem := memWrite s.mem 0xA00 8 0x77 }
    let d : CopyJob := { j with dst := far, len := 16, feSet := false }
    let f : State := { s0 with copies := [d] }
    let g : CopyJob := { j with src := far, dst := there, len := 16, feSet := false, gather := true, hart := s0.hartFor th.view far.seg 0 true }
    let h : State := { s0 with copies := [g] }
    (s.hartStops j = false ∧ s.locateNow here.view here.seg 0x900 needR = .ok 0x900 ∧ s.locateNow there.view there.seg 0xA00 needRW = .ok 0xA00 ∧
      s.writable 0xA00 = true ∧ s.padHealth 0xA00 ≠ .retired ∧ s.unwaited 0xA00 = true ∧
      w.locateNow there.view there.seg 0xA00 needRW = .ok 0xA00 ∧ w.barrierAt bar 0xB00 ∧
      gives (exec (.copyCompletion 1 1) s) (fun t => same s t && kept s t [(0xA00, 8), (0xB00, 16)] && memRead t.mem 0xA00 8 == 0x77 &&
        t.isFull 0x140 && t.copies == [] && (t.barrier 0xB00).arrived == 1 && (t.barrier 0xB00).value == 0) = true ∧
      f.hartStops d = false ∧ f.calm = true ∧ h.hartStops g = false ∧ h.hartStops { g with hart := h.hartFor th.view far.seg 0 true } = false ∧
      h.barrierAt bar 0xB00) ∧ (Config.farFails h.free = true ∨ Config.farFails h.free = false) := by
  unfold State.barrierAt State.settledRange
  refine ⟨by decide +kernel, ?_⟩
  cases Config.farFails _ <;> simp

theorem witness_LaunchAndDispatch_LAUNCH :
    let s := put (tab (st (thH.wg 1 0x600)) 0x30004) 0x600 64 pkt
    let b := put s 0x600 64 (pkt + 2 ^ 62)
    tableRead s s.thr.view s.thr.htab 8 = (.ok 0x400, 0x30004) ∧ (0x30004 : Nat).testBit 17 = true ∧ s.deviceReady = true ∧
      s.accCheck 0 0x600 64 64 rightR .load = none ∧ (s.loadBytes (s.thr.seg 0) 0x600 64).2 = .value pkt ∧
      checkPacket (s.loadBytes (s.thr.seg 0) 0x600 64).1 isl s.thr.view pkt 0x400 none false =
        .ok (packetShift pkt 0x400 1 1 false none none) ∧ (isl.queue 3).shifts.length < 256 ∧ (isl.queue 3).waiters.head?.all (fun w => w == s.thr.key) = true ∧
      gives (exec (.launch true 5 1 0) s) (fun t => t.thr.rg 5 == 1 && t.thr.pc == 0x104 && t.nextSerial == 2 &&
        (t.island? 1).map (fun j => (j.queue 3).shifts) == some [1] && kept s t [] && (t.shifts.map fun k =>
          (k.serial, k.entry, k.queue, k.prio, k.threads, k.ncx, k.ncy, k.nstage, k.args)) == [(1, 0x80, 3, 2, 2, 2, 1, 1, 9)]) = true ∧
      checkPacket (b.loadBytes (b.thr.seg 0) 0x600 64).1 isl b.thr.view (pkt + 2 ^ 62) 0x400 none false = .invalid ∧
      gives (exec (.launch true 5 1 0) b) (fun t => t.thr.rg 5 == 0 && t.thr.pc == 0x104 && t.shifts == []) = true ∧
      gives (exec (.gang true 5 1 2 0) b) (fun t => t.thr.rg 5 == 0 && t.thr.pc == 0x104 && t.shifts == []) = true := by decide +kernel

theorem witness_LaunchAndDispatch_queue :
    let bar : Ref := ⟨th.seg 0, 0xB00, th.view⟩
    let k : Shift := { packetShift pkt 0x400 1 1 false (some bar) none with serial := 4 }
    let i : Island := { isl with queues := [⟨3, [4], 2, false, false, 0, [], []⟩] }
    let s : State := { st th with islands := [i], shifts := [k] }
    let r : State := { s with shifts := [{ k with ready := true }] }
    let c : State := { s2 th with crews := [{ crw with retired := true }] }
    s.shift? 4 = some k ∧ s.atHead k = true ∧ k.ready = false ∧ badAddress 0xB00 = false ∧ s.locateNow bar.view bar.seg 0xB00 needR = .ok 0xB00 ∧
      s.poisoned 0xB00 16 = false ∧ (∀ j, j < 16 → s.settled (0xB00 + j) = true) ∧
      gives (exec (.packetDependenceRead 4) (put s 0xB00 16 (Barrier.bits ⟨0, 0, 0, 0, 1, true⟩))) (fun t =>
        (t.shift? 4).map (·.ready) == some true) = true ∧
      gives (exec (.packetDependenceRead 4) s) (fun t => same s t && (t.shift? 4).map (·.ready) == some false) = true ∧
      r.hostLaunches = [] ∧ r.waits = [] ∧ candidate (r.readyQueues i) = some (i.queue 3, { k with ready := true }) ∧
      (r.placement i { k with ready := true }).isSome = true ∧ k.ibxh = 0 ∧
      (match r.dispatch { k with ready := true } ((r.placement i { k with ready := true }).getD []) with
        | .ok _ => true | _ => false) = true ∧
      gives (exec (.dispatchDecision 1) r) (fun t => t.threads.length == 3 && t.crews.length == 1 &&
        (t.others.all fun v => v.pc == 0x80 && v.status == .ready && v.nthr == 2 && v.args == 9) &&
        t.others.map (·.key) == [.crew 4 0 0, .crew 4 0 1] &&
        (t.shift? 4).map (·.next) == some 1) = true ∧
      c.crewOwed { crw with retired := true } = false ∧
      gives (exec (.crewMemoryRelease 1 0) c) (fun t => t.crews == [] && t.others == [] && t.thr == c.thr) = true ∧
      isNext (exec (.crewMemoryRelease 1 0) (s2 th)) (s2 th) = true := by decide +kernel

/-! ## The matrix engine (spec/07) -/

theorem witness_MatrixInstructions :
    let s := mst []
    let p := mst [.job (job1 .running)]
    let c := (1, 0)
    s.engineRetired 0 = false ∧ s.thr.crewId = c ∧ s.thr.view.cluster = 0 ∧
      gives (exec (.macq true 5 2) s) (fun t => t.thr.rg 5 == 0x1F && t.thr.pc == 0x104 && t.mem == s.mem &&
        (t.matrixEng 0).owns c 0 && !(t.matrixEng 0).owns c 5) = true ∧
      gives (exec (.mrel true 2) s) (fun t => passes s t && (t.matrixEng 0).owners == [(5, 9, 0)]) = true ∧
      isNext (exec (.mzero true 5) s) (s.trap .matrixOperand 5 0) = true ∧
      gives (exec (.mzero true 3) s) (fun t => passes s t && (t.matrixEng 0).ops == [.zero s.nextId 3]) = true ∧
      s.storeReady = true ∧ segCheck (s.thr.seg 0) 0 0 16384 64 (rightR ||| rightE) (s.thr.seg 0).isOperand = none ∧
      formCheck s s.thr.view (s.thr.seg 0) 0 16384 = none ∧ followHandle s s.thr.view s.thr.htab (at1 0xC00) = .ok (s.thr.seg 0) ∧
      barrierCheck s (s.thr.seg 0) (at1 0xC00) = none ∧
      gives (exec (.mld true 3 0 3 0) s) (fun t => passes s t && kept s t [] && (t.matrixEng 0).ops ==
        [.load s.nextId 3 s.thr.key ⟨s.thr.seg 0, 0, s.thr.view⟩ ⟨s.thr.seg 0, 0xC00, s.thr.view⟩ 0]) = true ∧
      segCheck (s.thr.seg 0) 0 0x900 128 128 (rightR ||| rightE) (Acc.permits .load (s.thr.seg 0)) = none ∧
      (s.loadBytes (s.thr.seg 0) 0x900 128).2 = .value desc1 ∧
      jobReason (s.matrixEng 0) c (BitVec.ofNat 1024 desc1) 0x66 3 false false none = none ∧
      (s.loadBytes (s.thr.seg 0) 0x900 128).1.operandsAt (jobOperands (BitVec.ofNat 1024 desc1) 0x66 0 false none) =
        some [(0, ⟨s.thr.seg 0, 0xA00, s.thr.view⟩), (1, ⟨s.thr.seg 0, 0xB00, s.thr.view⟩), (7, ⟨s.thr.seg 0, 0xC00, s.thr.view⟩)] ∧
      gives (exec (.mq true 5 1 3 0) s) (fun t => t.thr.rg 5 == 7 && t.thr.pc == 0x104 && (t.matrixEng 0).ops.length == 1 &&
        (t.matrixEng 0).jobSeq == 8) = true ∧
      isNext (exec (.mqSP true 5 1 3 0) s) ((s.loadBytes (s.thr.seg 0) 0x900 128).1.trap .matrixOperand 8 0) = true ∧
      isNext (exec (.mqr true 5 1 3 0) s) ((s.loadBytes (s.thr.seg 0) 0x900 128).1.trap .matrixOperand 7 0) = true ∧
      (p.matrixEng 0).job? 9 = some (job1 .running) ∧ gives (exec (.mpoll true 5 6) p) (fun t => t.thr.rg 5 == 2) = true ∧
      gives (exec (.mpoll true 5 6) s) (fun t => t.thr.rg 5 == 0 && t.thr.pc == 0x104) = true ∧
      gives (exec (.mwait true 6) p) (fun t => parks p t (.job 9)) = true ∧ gives (exec (.mwait true 6) s) (passes s) = true ∧
      drainInvalid 6 3 .rne = false ∧ drainSrc 6 = 0 ∧ drainCheck s (s.thr.seg 0) 0 0x900 6 = none ∧
      gives (exec (.mdrain true 4 1 3 0 .rne) s) (fun t => parks s t (.engine s.nextId) && kept s t [] && (t.matrixEng 0).ops ==
        [.drain ⟨s.nextId, 3, s.thr.key, ⟨s.thr.seg 0, 0x900, s.thr.view⟩, 6, .rne, 0x66, 0, 0, 0, false⟩]) = true := by decide +kernel

/-- Sparse and ring jobs: E4M3 with K = 128, one row, metadata and RSTEPS 1, in a gang of one. -/
theorem witness_MatrixInstructions_rings :
    let d (x : Nat) := (at1 0x1000).toNat + (at1 0x1100).toNat * 2 ^ 64 + x + 128 * 2 ^ 512 + 2 ^ 544 + 2 ^ 551 + 16 * 2 ^ 480
    let m (x : Nat) : State :=
      let s := mst []
      let t := put { s with crews := [{ crw with gang := some (2, 0) }], gangs := [⟨2, 0, 1, none⟩] } 0x900 128 (d x)
      { t with thr := { t.thr with fmt := Vector.replicate 4 0 } }
    let sp := (at1 0x2000).toNat * 2 ^ 256
    let rg := 2 ^ 704
    gives (exec (.mqSP true 5 1 3 0) (m sp)) (fun t => t.thr.rg 5 == 7 && (t.matrixEng 0).ops.length == 1) = true ∧
      gives (exec (.mqr true 5 1 3 0) (m rg)) (fun t => t.thr.rg 5 == 7 && (t.matrixEng 0).ringSeq == [(1, 0, 1)]) = true ∧
      gives (exec (.mqrSP true 5 1 3 0) (m (sp + rg))) (fun t => t.thr.rg 5 == 7 && (t.matrixEng 0).ops.length == 1) = true := by
  decide +kernel

theorem witness_MatrixEngineMoves_order :
    let s := mst [.zero 1 3, .clear 2 4, .release 3 4]
    let v : Thread := { th1 with status := .stalled, wait := .job 0 }
    let q : State := { mst [] with others := [v] }
    let x := tileLoc 0 3 5
    let dirty := put s x 4 0x01020304
    let far := tileLoc 0 4 0
    let k : Chunk := ⟨1, 2, 0, 0, 128, 1, 0, 0, 2, [], []⟩
    let r : State := { s with matrix := [{ eng [] [] with inbound := [k] }] }
    v ∈ q.threads ∧ (q.matrixEng 0).taken < 16 ∧ s.clusterStopped 0 = false ∧ (r.matrixEng 0).buffers.length < 2 ∧
      (r.matrixEng 0).evicted = false ∧
      gives (exec (.matrixAccept 0) q) (fun t => (t.thread? v.key).map (·.status) == some .ready && (t.matrixEng 0).lastCore == 1 &&
        t.mem == q.mem) = true ∧
      (s.matrixEng 0).permitted (.zero 1 3) = true ∧ (s.matrixEng 0).permitted (.clear 2 4) = true ∧
      gives (exec (.tileClear 0 1) dirty) (fun t => memRead t.mem x 4 == 0 && t.mem == s.mem &&
        (t.matrixEng 0).ops == [.clear 2 4, .release 3 4]) = true ∧
      gives (exec (.tileClear 0 2) (put s far 4 1)) (fun t => memRead t.mem far 4 == 0) = true ∧
      gives (exec (.tileRelease 0 3) s) (fun t => (t.matrixEng 0).ops.length == 3) = true ∧
      gives (exec (.tileRelease 0 3) (mst [.zero 1 3, .release 3 4])) (fun t => (t.matrixEng 0).ops == [.zero 1 3]) = true ∧
      (r.matrixEng 0).inbound = [k] ∧ gives (exec (.ringChunkArrival 0) r) (fun t => (t.matrixEng 0).buffers == [k] &&
        (t.matrixEng 0).inbound == []) = true ∧
      (s.matrixEng 0).retired = false ∧
      gives (exec (.matrixEngineFailure 0) (mst [.job (job1 .running), .zero 1 3])) (fun t => (t.matrixEng 0).retired &&
        (t.matrixEng 0).ops == [.job { job1 .running with fin := some .dead }]) = true := by decide +kernel

theorem witness_MatrixEngineMoves_loads :
    let g := th.seg 0
    let src : Ref := ⟨g, 0x980, th.view⟩
    let bar : Ref := ⟨g, 0xC00, th.view⟩
    let s := put (mst [.load 4 3 th.key src bar 5]) 0x994 4 0xAABBCCDD
    let e := mst [.load 4 3 th.key src bar 4096]
    let src3 : Ref := ⟨th.seg 3, 0x980, th.view⟩
    let l := put (mst [.load 4 3 th.key src3 bar 4095]) 0x497C 4 0xABCD
    let lw : State := { l with mem := memWrite l.mem (tileLoc 0 3 4095) 4 0xABCD }
    s.calm = true ∧ src.oneLine (4 * 5) 4 ∧ s.locateNow src.view g 0x994 needR = .ok 0x994 ∧ s.clusterStopped 0 = false ∧ s.poisoned 0x994 4 = false ∧
      (s.matrixEng 0).permitted (.load 4 3 th.key src bar 5) = true ∧
      gives (exec (.mldCompletion 0 4 1) s) (fun t => memRead t.mem (tileLoc 0 3 5) 4 == 0xAABBCCDD && same s t &&
        kept s t [(tileLoc 0 3 5, 4)] && (t.matrixEng 0).ops == [.load 4 3 th.key src bar 6]) = true ∧
      (l.matrixEng 0).permitted (.load 4 3 th.key src3 bar 4095) = true ∧ l.locateNow th.view src3.seg (0x980 + 4 * 4095) needR = .ok 0x497C ∧
      src3.oneLine (4 * 4095) 4 ∧ lw.barrierAt bar 0xC00 ∧
      gives (exec (.mldCompletion 0 4 1) l) (fun t => memRead t.mem (tileLoc 0 3 4095) 4 == 0xABCD && same l t &&
        kept l t [(tileLoc 0 3 4095, 4), (0xC00, 16)] && (t.barrier 0xC00).arrived == 1 && (t.matrixEng 0).ops == []) = true ∧
      e.barrierAt bar 0xC00 ∧
      gives (exec (.mldCompletion 0 4 1) e) (fun t => same e t && kept e t [(0xC00, 16)] && (t.barrier 0xC00).arrived == 1 &&
        (t.matrixEng 0).ops == []) = true := by
  unfold State.barrierAt State.settledRange Ref.oneLine
  decide +kernel

/-- 1.0 + 2.0 × 3.0 = 7.0 in word 0 of tile 3. -/
theorem witness_MatrixEngineMoves_jobs :
    let j := job1 .running
    let x := tileLoc 0 3 0
    let s := put (put (put (mst [.job j]) 0xA00 4 0x40000000) 0xB00 4 0x40400000) x 4 0x3F800000
    let b := mst [.job (job1 .queued)]
    let jr : Job := { job1 .running with fin := some .ok, flags := flagNX, t := 1, refs := [(6, ⟨th.seg 0, 0xD00, th.view⟩)] }
    let c : State := { mst [.job jr] with others := [{ th1 with status := .parked, wait := .job 9 }] }
    let jf : Job := { job1 .suspended with fault := some (1, 2) }
    let f := mst [.job jf]
    let jw : Job := { job1 .waitChunk with ring := some ⟨2, 1, 1, 4⟩ }
    let w : State := { mst [.job jw] with gangs := [⟨2, 0, 4, some 3⟩] }
    (s.matrixEng 0).job? 9 = some j ∧ s.clusterStopped 0 = false ∧ b.clusterStopped 0 = false ∧ w.clusterStopped 0 = false ∧ j.needsChunk = false ∧ j.chunkNo = 0 ∧
      (s.readStep j 0).2 = .ok ⟨[0x40000000], [], [], [0x40400000], 0⟩ ∧
      gives (exec (.jobKstep 0 9) s) (fun t => memRead t.mem x 4 == 0x40E00000 && (t.matrixEng 0).ops ==
        [.job (j.nextStep 0)]) = true ∧ (j.nextStep 0).fin = some .ok ∧
      (b.matrixEng 0).permitted (.job (job1 .queued)) = true ∧ fmtG (job1 .queued).fmt = 0 ∧
      gives (exec (.jobBegin 0 9) b) (fun t => same b t && t.mem == b.mem && (t.matrixEng 0).ops == [.job j]) = true ∧
      c.calm = true ∧ (c.matrixEng 0).evicted = false ∧ Ref.oneLine ⟨th.seg 0, 0xD00, th.view⟩ 0 16 ∧ c.locateNow th.view (th.seg 0) 0xD00 needW = .ok 0xD00 ∧ c.writable 0xD00 = true ∧ c.padHealth 0xD00 ≠ .retired ∧
      gives (exec (.jobCompletion 0 9) c) (fun t => memRead t.mem 0xD00 16 == 9 * 2 ^ 64 + 2 ^ 16 + 16 * 2 ^ 8 &&
        (t.matrixEng 0).ops == [] && t.wakes == [.crew 1 0 1]) = true ∧
      jf.fault = some (1, 2) ∧ f.thread? jf.key = some f.thr ∧
      gives (exec (.jobFault 0 9) f) (fun t => t.thr.mfaults == [(.matrixOperand, 1, 2)]) = true ∧
      w.ringPaused ⟨2, 1, 1, 4⟩ = false ∧ (w.matrixEng 0).buffers.any (fun k => k.isFor ⟨2, 1, 1, 4⟩) = false ∧ w.thread? jw.key = some w.thr ∧
      gives (exec (.ringWatchdogExpiry 0 9) w) (fun t => (t.matrixEng 0).ops == [.job { jw with fin := some .broken }] &&
        t.thr.mfaults.map (·.1) == [.gangBroken]) = true ∧
      gives (exec (.ringWatchdogExpiry 0 9) { w with gangs := [⟨2, 0, 4, none⟩] }) (fun t =>
        (t.matrixEng 0).ops == [.job { jw with fin := some .timeout }] && t.thr.mfaults.map (·.1) == [.gangTimeout]) = true := by
  unfold Ref.oneLine
  decide +kernel

/-- An FP64 job, 1.0 + 2.0 × 3.0 = 7.0, and a job that ended DEAD with a record and a barrier. -/
theorem witness_MatrixEngineMoves_others :
    let j : Job := { job1 .running with fmt := 0x77, base := 4 }
    let x := tileLoc 0 4 0
    let s := put (put (put (mst [.job j]) 0xA00 8 0x4000000000000000) 0xB00 8 0x4008000000000000) x 8 0x3FF0000000000000
    let rec_ : Ref := ⟨th.seg 0, 0xD00, th.view⟩
    let bar : Ref := ⟨th.seg 0, 0xC00, th.view⟩
    let e : Job := { job1 .running with fin := some .dead, refs := [(6, rec_), (7, bar)] }
    let c := mst [.job e]
    let d : State := { c with mem := memWrite c.mem 0xD00 16 (9 * 2 ^ 64 + JobStatus.code .dead) }
    fmtA j.fmt = 7 ∧ (s.matrixEng 0).job? 9 = some j ∧ j.needsChunk = false ∧
      (s.readStep j 0).2 = .ok ⟨[0x4000000000000000], [], [], [0x4008000000000000], 0⟩ ∧
      gives (exec (.jobKstep 0 9) s) (fun t => memRead t.mem x 8 == 0x401C000000000000 && (t.matrixEng 0).ops ==
        [.job (j.nextStep 0)]) = true ∧
      c.calm = true ∧ Ref.oneLine rec_ 0 16 ∧ c.locateNow th.view (th.seg 0) 0xD00 needW = .ok 0xD00 ∧ c.writable 0xD00 = true ∧
      c.padHealth 0xD00 ≠ .retired ∧ d.barrierAt bar 0xC00 ∧
      gives (exec (.jobCompletion 0 9) c) (fun t => kept c t [(0xD00, 16), (0xC00, 16)] && memRead t.mem 0xD00 16 ==
        9 * 2 ^ 64 + JobStatus.code .dead && (t.barrier 0xC00).arrived == 1 && (t.barrier 0xC00).value == JobStatus.code .dead &&
        (t.barrier 0xC00).flags.getLsbD 2 && (t.matrixEng 0).ops == []) = true := by
  unfold State.barrierAt State.settledRange Ref.oneLine
  decide +kernel

/-- A job with CLEAR set clears its tile as it begins. -/
theorem test_job_clears :
    let j : Job := { job1 .queued with desc := BitVec.ofNat 1024 (desc1 + 2 ^ 564) }
    gives (exec (.jobBegin 0 9) (put (mst [.job j]) (tileLoc 0 3 7) 4 5)) (fun t => memRead t.mem (tileLoc 0 3 7) 4 == 0) = true := by
  decide +kernel

/-- The element 1.0 counts in bin 16 of the record at 0xA00. -/
theorem witness_MatrixEngineMoves_histogram :
    let w : Word := BitVec.ofNat 64 (4 + 2 ^ 7 + 0x14 * 2 ^ 48)
    let q : DrainJob := ⟨5, 3, th.key, ⟨th.seg 0, 0x900, th.view⟩, w, .rne, 0x66, 0, 0, 0, false⟩
    let s := put (put (mst [.drain q]) (tileLoc 0 3 0) 4 0x3F800000) 0xA40 4 5
    let r := s.drainGo 0 q 0 1
    let u := r.1
    drainHist w = true ∧ r.2 = (1, .ok) ∧ (u.addHist 0 q).2.1 = .ok ∧ u.calm = true ∧ drainSrc w = 0 ∧
      u.locateNow th.view (th.seg 0) 0xA00 needRW = .ok 0xA00 ∧
      gives (exec (.mdrainPerform 0 5) s) (fun t => t.mem == (u.addHist 0 q).1.mem && memRead t.mem 0xA00 128 == 6 * 2 ^ 512 &&
        (t.matrixEng 0).ops == []) = true := by decide +kernel

/-- A drain of element (0, 0) as FP16: 1.0 is 0x3C00. -/
theorem witness_MatrixEngineMoves_drain :
    let q : DrainJob := ⟨5, 3, th.key, ⟨th.seg 0, 0x900, th.view⟩, 4, .rne, 0x66, 0, 0, 0, false⟩
    let s := put (mst [.drain q]) (tileLoc 0 3 0) 4 0x3F800000
    let r := s.drainGo 0 q 0 1
    (s.matrixEng 0).permitted (.drain q) = true ∧ r.2 = (1, .ok) ∧ drainHist 4 = false ∧ drainRows 4 = 1 ∧ s.calm = true ∧
      Ref.oneLine q.dst 0 (drainRowBytes 4) ∧ s.locateNow th.view (th.seg 0) 0x900 needW = .ok 0x900 ∧ s.padHealth 0x900 ≠ .retired ∧
      s.clusterStopped 0 = false ∧ s.thread? q.key = some s.thr ∧ s.thr.live = true ∧ memRead r.1.mem 0x900 2 = 0x3C00 ∧
      s.drainRow 0 q 0 % 256 ^ drainRowBytes 4 = 0x3C00 ∧
      gives (exec (.mdrainPerform 0 5) s) (fun t => t.mem == r.1.mem && (t.matrixEng 0).ops == [] && t.wakes == [th.key] &&
        t.thr.grant == some 0 && t.thr.flags == 0 && t.thr.pc == 0x100) = true := by
  unfold Ref.oneLine
  decide +kernel

/-! ## Calls, handlers, freeze, rows (spec/08) -/

theorem witness_CallsAndHandlers_RCALL :
    let s := tab (st (((thH.wg 1 0).wg 2 (at4 0x40)).wg 9 77)) 4
    let slot := spadLoc 0 0x40
    s.storeReady = true ∧ followHandle s s.thr.view s.thr.htab (at4 0x40) = .ok (s.thr.seg 2) ∧
      rcallCheck (s.thr.seg 0) 0 0 (s.thr.seg 2) (at4 0x40) = none ∧ formCheck s s.thr.view (s.thr.seg 0) 0 1 = none ∧ s.inFlight 0 < 64 ∧
      s.locate s.thr.view (s.thr.seg 2) 0x40 needW false = .ok slot ∧ s.padHealth slot ≠ .retired ∧ s.unwaited slot = true ∧ s.calm = true ∧
      badAddress 0 = false ∧ s.locate s.thr.view (s.thr.seg 0) 0 needNone false = .ok 0 ∧
      gives (exec (.rcall true 2 1 1 true 0 3) s) (fun t => passes s t && kept s t [(slot, 16)] && !t.isFull (wordAt slot) &&
        memRead t.mem (slot + 8) 8 == (s.core 0).callSeq && t.calls.map (fun c => (c.callId, c.entry, c.slot, c.payload, c.stage, c.loc)) ==
        [((s.core 0).callSeq, 11, slot, [0, 77, 0, 0, 0, 0, 0, 0], .sent, 0)]) = true := by decide +kernel

theorem witness_CallsAndHandlers_RRET :
    let s := st th
    let h (x : Word) : State := st ((hnd.wg 2 x).wg 3 0xAB)
    encode (.rret true 2 10) = some 0x6C002280 ∧ isNext (exec (.rret true 2 10) s) (s.trap .illegal 0x6C002280 0) = true ∧
      (h 5).thr.isHandler = true ∧ isNext (exec (.rret true 3 2) (h 5)) ((h 5).onThr fun t => t.handlerFault .illegal) = true ∧
      gives (exec (.rret true 3 2) (h 0x110)) (fun t => t.thr.ended == some (0x10, 1, [0xAB]) && t.thr.pc == 0x104) = true := by decide +kernel

theorem witness_CallsAndHandlers_engine :
    let i : Island := { isl with handlers := [⟨8, seg spCode 0x8000 0x1000, 0x40, []⟩] }
    let s : State := { st th with islands := [i], calls := [call1 .sent] }
    let n : State := { s with islands := [isl] }
    let d : State := { s with deadEngines := [0] }
    let w : State := { s with calls := [{ call1 .waiting with region := some (seg spCode 0x8000 0x1000, 0x40) }] }
    let b : State := { s with others := [{ hnd with budget := 0 }] }
    let stage (t : State) := t.calls.map fun c => (c.stage, c.reply)
    s.call? 3 = some (call1 .sent) ∧ w.stackStopped (stackOf (clusterOver 0)) = false ∧ engineAt (call1 .sent).loc = 0 ∧
      gives (exec (.callArrival 3) s) (fun t => stage t == [(.waiting, none)]) = true ∧
      gives (exec (.callArrival 3) n) (fun t => stage t == [(.replying, some (5, 0, []))]) = true ∧
      gives (exec (.callArrival 3) d) (fun t => stage t == [(.replying, some (4, 0, []))]) = true ∧ w.busyContexts 0 < 4 ∧ w.calls.map (·.stage) = [.waiting] ∧
      gives (exec (.handlerStart 3) w) (fun t => t.others.map (fun v => (v.key, v.pc, v.rg 1, v.rg 2, v.rg 9, v.budget)) ==
        [(.handler 3, 0x8040, 0, 1, 8, 1024)] && stage t == [(.running, none)]) = true ∧
      gives (exec (.handlerBudget (.handler 3)) b) (fun t => same b t && t.others.map (·.ended) == [some (2, 0, [])]) = true := by decide +kernel

theorem witness_CallsAndHandlers_replies :
    let slot := spadLoc 0 0x40
    let c : Call := { call1 .replying with reply := some (0x20, 2, [7, 9]) }
    let s := put { st th with calls := [c] } (slot + 8) 8 1
    let o := put { st th with calls := [c] } (slot + 8) 8 2
    s.call? 3 = some c ∧ s.stackStopped (stackOf (c.core / 4)) = false ∧ (∀ j, j < 48 → s.padHealth (slot + j) = .ok) ∧ s.padHealth slot = .ok ∧ s.waits = [] ∧ memRead s.mem (slot + 8) 8 % 2 ^ 48 = 1 ∧
      gives (exec (.replyArrival 3) s) (fun t => t.calls == [] && t.isFull (wordAt slot) && memRead t.mem slot 2 == 0x220 &&
        memRead t.mem (slot + 8) 8 == 1 && memRead t.mem (slot + 16) 16 == 7 + 9 * 2 ^ 64) = true ∧
      gives (exec (.replyArrival 3) o) (fun t => t.calls == [] && t.mem == o.mem) = true ∧
      gives (exec (.rcallTimeout 3) s) (fun t => t.calls.all (fun k => !k.live) && memRead t.mem slot 1 == 3 &&
        memRead t.mem (slot + 8) 8 == (s.core 0).callSeq) = true := by decide +kernel

theorem witness_CallsAndHandlers_HSET :
    let g := seg spInter 0 0x10000
    let s := own16 (st { Thread.wg th 1 0x40 with segs := Vector.replicate 8 g })
    let f : State := { s with freeze := cnt ips 1 }
    let e : State := { s with engJobs := [⟨2, .crew 1 0 0, 1, none, .hset 9 g 0x40 ips⟩] }
    let c : State := { s with
      engJobs := [⟨2, .crew 1 0 0, 1, none, .hclr 9⟩]
      islands := [{ isl with handlers := [⟨9, g, 0, []⟩] }] }
    s.thr.grant = none ∧ segCheck g 0 0x40 1 8 rightH (g.space == spInter || g.space == spBank || g.space == spCode) = none ∧
      granulesOf s s.thr.view g 0 0x10000 true = .ok (zip0 ips) ∧
      isNext (exec (.hset true 1 1 0) s) (s.trap .segRight 0 0) = true ∧
      gives (exec (.hset true 1 1 0) f) (fun t => parks f t (.engine f.nextId) && t.mem == f.mem && t.engJobs ==
        [⟨f.nextId, .crew 1 0 0, 1, none, .hset 9 g 0x40 ips⟩]) = true ∧
      gives (exec (.hclr true 1 0) s) (fun t => parks s t (.engine s.nextId) && t.engJobs ==
        [⟨s.nextId, .crew 1 0 0, 1, none, .hclr 9⟩]) = true ∧
      e.engJob? 2 = some ⟨2, .crew 1 0 0, 1, none, .hset 9 g 0x40 ips⟩ ∧ e.island? 1 = some isl ∧
      gives (exec (.handlerInstall 2) e) (fun t => t.wakes == [.crew 1 0 0] && (t.island? 1).map (·.handlers) ==
        some [⟨9, g, 0x40, ips⟩]) = true ∧
      gives (exec (.handlerClear 2) c) (fun t => t.wakes == [.crew 1 0 0] && (t.island? 1).map (·.handlers) == some []) = true := by decide +kernel

theorem witness_FreezesComplete :
    let s := own16 (tab (st (((thH.wg 1 0).wg 2 0x10000).wg 3 (at1 0xB00))) 4)
    let g := s.thr.seg 0
    let e : State := { s with engJobs := [⟨2, .crew 1 0 0, 1, none, .freeze ips⟩] }
    let z : State := { s with freeze := cnt ips 1 }
    let j : ThawJob := ⟨2, 1, [7], none, [7], 1, some ⟨g, 0xB00, th.view⟩, none⟩
    let a : State := { s with thaws := [j] }
    s.thr.grant = none ∧ s.deviceReady = true ∧ freezeCheck s g 0 0 0x10000 = none ∧ s.calm = true ∧
      granulesOf s s.thr.view g 0 0x10000 false = .ok (zip0 ips) ∧ s.freezeCount 0 ≠ 255 ∧ s.inField 0 = false ∧
      gives (exec (.frz true 1 2 0) s) (fun t => parks s t (.engine s.nextId) && t.mem == s.mem && t.freezeCount 0 == 1 &&
        t.engJobs == [⟨s.nextId, .crew 1 0 0, 1, none, .freeze ips⟩]) = true ∧
      gives (exec (.frz true 1 5 0) s) (passes s) = true ∧
      gives (exec (.freezeDrain 2) e) (fun t => kept e t [] && t.wakes == [.crew 1 0 0] && t.thr.grant == some 0) = true ∧
      followHandle s s.thr.view s.thr.htab (at1 0xB00) = .ok g ∧ barrierCheck s g (at1 0xB00) = none ∧
      s.thawRefused (zip0 ips) ≠ none ∧ gives (exec (.thaw true 3 1 2 0) s) (fun t => passes s t && t.thaws.map (·.refused) == [some 0]) = true ∧
      z.thawRefused (zip0 ips) = none ∧ gives (exec (.thaw true 3 1 2 0) z) (fun t => t.freezeCount 0 == 0 &&
        t.thaws.map (·.zeros) == [ips] && t.thaws.map (·.count) == [1]) = true ∧
      a.barrierAt ⟨g, 0xB00, th.view⟩ 0xB00 ∧
      gives (exec (.thawArrival 2) a) (fun t => same a t && kept a t [(0xB00, 16)] && t.thaws == [] && (t.barrier 0xB00).value == 1) = true ∧
      s.readReady = true ∧ g.rights.getLsbD 0 = true ∧ g.space = spInter ∧ badAddress g.base.toNat = false ∧
      granulesOf s s.thr.view g 0 1 true = .ok (zip0 ips) ∧
      gives (exec (.frzq true 5 1 0) z) (fun t => t.thr.rg 5 == 1) = true := by
  unfold State.barrierAt State.settledRange
  decide +kernel

/-- Rows through the bank-linear window: one row to row 4, with sources at rows 0 to 2. -/
def rst : State := tab (st (((((thH.wg 2 1).wg 3 (at1 0xB00)).wg 4 0x1000).wg 7 0x400).wg 8 0x800)) 4

/-- Their operation. -/
def rjob (op : Nat) (srcs : List Nat) (pat : Word) : RowJob :=
  ⟨rst.nextId, .crew 1 0 0, op, 1, 0, ⟨th.seg 3, 0x1000, th.view⟩, srcs, pat, ⟨th.seg 0, 0xB00, th.view⟩⟩

/-- The instruction queues the operation. -/
def rowed (i : Instr) (j : RowJob) : Bool := gives (exec i rst) fun t => passes rst t && kept rst t [] && t.rowJobs == [j]

theorem witness_RowOperationsComplete_checks :
    rst.storeReady = true ∧ rowCheck rst (th.seg 3) 3 1 [0x1000, 0, 0x400, 0x800] = none ∧
      barrierCheck rst (th.seg 0) (at1 0xB00) = none ∧ rst.fieldCheck (th.seg 3) 0x1000 1024 = none ∧
      badRow (2 ^ 51 + 0x1000) [2 ^ 51, 2 ^ 51 + 0x400, 2 ^ 51 + 0x800] 1 = none := by decide +kernel

theorem witness_RowOperationsComplete_queue :
    rowed (.rowcpy true 1 4 6 3) (rjob 0 [0] 0) = true ∧ rowed (.rowset true 1 4 7 3) (rjob 1 [] 0x400) = true ∧
      rowed (.rowop true 1 4 6 3 .xor) (rjob 4 [0, 0x400] 0) = true ∧ rowed (.rowop true 1 4 6 3 .not) (rjob 5 [0] 0) = true ∧
      rowed (.rowop true 1 4 6 3 .maj3) (rjob 6 [0, 0x400, 0x800] 0) = true := by decide +kernel

theorem witness_RowOperationsComplete_perform :
    let g := th.seg 3
    let bar : Ref := ⟨th.seg 0, 0xB00, th.view⟩
    let j : RowJob := ⟨2, .crew 1 0 0, 4, 2, 0, ⟨g, 0x1000, th.view⟩, [0x2000, 0x2400], 0, bar⟩
    let s := put (put { st th with rowJobs := [j] } 0x2000 8 0x0F0F) 0x2400 8 0x00FF
    let e : State := { st th with rowJobs := [{ j with pos := 2 }] }
    let l : State := { s with rowJobs := [{ j with pos := 1 }] }
    let lw : State := { l with mem := memWrite l.mem 0x1400 1024 0xFF }
    s.calm = true ∧ s.waits = [] ∧ s.stackStopped j.stack = false ∧ badAddress (g.base.toNat + 0x2000) = false ∧
      badAddress (g.base.toNat + 0x2400) = false ∧ badAddress (g.base.toNat + 0x1000) = false ∧
      s.locateNow th.view g 0x2000 needR = .ok 0x2000 ∧ s.poisoned 0x2000 1024 = false ∧
      s.locateNow th.view g 0x2400 needR = .ok 0x2400 ∧ s.poisoned 0x2400 1024 = false ∧
      s.locateNow th.view g 0x1000 needW = .ok 0x1000 ∧ s.isFrozen 0x1000 = false ∧ s.padHealth 0x1000 ≠ .retired ∧
      gives (exec (.rowOperationPerform 2 1) s) (fun t => same s t && kept s t [(0x1000, 1024)] && memRead t.mem 0x1000 1024 == 0x0FF0 &&
        t.rowJobs == [{ j with pos := 1 }]) = true ∧
      l.locateNow th.view g 0x1400 needW = .ok 0x1400 ∧ l.isFrozen 0x1400 = false ∧ l.padHealth 0x1400 ≠ .retired ∧
      l.locateNow th.view g 0x2400 needR = .ok 0x2400 ∧ l.locateNow th.view g 0x2800 needR = .ok 0x2800 ∧
      l.poisoned 0x2800 1024 = false ∧ lw.barrierAt bar 0xB00 ∧
      gives (exec (.rowOperationPerform 2 1) l) (fun t => same l t && kept l t [(0x1400, 1024), (0xB00, 16)] && t.rowJobs == [] &&
        memRead t.mem 0x1400 1024 == 0xFF && (t.barrier 0xB00).value == 2 && (t.barrier 0xB00).arrived == 1) = true ∧
      e.barrierAt bar 0xB00 ∧ gives (exec (.rowOperationPerform 2 1) e) (fun t => same e t && kept e t [(0xB00, 16)] && t.rowJobs == [] &&
        (t.barrier 0xB00).value == 2) = true := by
  unfold State.barrierAt State.settledRange
  decide +kernel

/-! ## Fields (spec/08, spec/12) -/

theorem witness_FieldDefinition :
    let s := fst []
    let b := put s 0x900 128 (fdesc 0 + 3 * 2 ^ 503)
    let r := s.loadBytes (s.thr.seg 0) 0x900 128
    s.storeReady = true ∧ segCheck (s.thr.seg 0) 0 0x900 128 128 (rightR ||| rightE) (Acc.permits .load (s.thr.seg 0)) = none ∧
      formCheck s s.thr.view (s.thr.seg 0) 0x900 128 = none ∧ r.2 = .value (fdesc 0) ∧ r.1.island? 1 = some isl ∧
      fdefCheck r.1 isl th.view 0x400 (BitVec.ofNat 1024 (fdesc 0)) = .ok (fld 0 .stopped) ∧
      gives (exec (.fdef true 5 1 0) s) (fun t => t.thr.rg 5 == 1 && t.thr.pc == 0x104 && kept s t [] && t.fields == [fld 0 .stopped] &&
        t.freezeCount 31 == 3) = true ∧
      fdefCheck (b.loadBytes (b.thr.seg 0) 0x900 128).1 isl th.view 0x400 (BitVec.ofNat 1024 (fdesc 0 + 3 * 2 ^ 503)) = .fails 1 ∧
      gives (exec (.fdef true 5 1 0) b) (fun t => t.thr.rg 5 == 0x10000 && t.fields == []) = true := by decide +kernel

theorem witness_FieldControl_states :
    let n := fst []
    let s (z : FieldState) := fst [fld 0 z]
    let bar : Ref := ⟨th.seg 0, 0xC00, th.view⟩
    let becomes (o : Host.Outcome State Fault Refusal) (l : List Field) : Bool := gives o fun t => t.thr.pc == 0x104 && t.fields == l
    n.field? 1 1 = none ∧ isNext (exec (.frun true 2) n) (n.trap .segRight 1 0) = true ∧
      isNext (exec (.fsnap true 2 3) n) (n.trap .segRight 1 0) = true ∧ gives (exec (.fstat true 5 2) n) (fun t => t.thr.rg 5 == 0) = true ∧
      (s .running).field? 1 1 = some (fld 0 .running) ∧ (s .running).deviceReady = true ∧
      gives (exec (.fstat true 5 2) (s .limit)) (fun t => t.thr.rg 5 == 4 * 2 ^ 32) = true ∧
      becomes (exec (.frun true 2) (s .stopped)) [{ fld 0 .running with begun := true }] = true ∧
      becomes (exec (.frun true 2) (s .stopping)) [fld 0 .running] = true ∧ becomes (exec (.frun true 2) (s .limit)) [fld 0 .limit] = true ∧
      becomes (exec (.fstop true 2) (s .running)) [fld 0 .stopping] = true ∧ becomes (exec (.fstop true 2) (s .stopping)) [fld 0 .stopping] = true ∧
      gives (exec (.fstop true 2) (s .faulted)) (fun t => t.fields == [] && t.freezeCount 31 == 0) = true ∧
      followHandle n n.thr.view n.thr.htab (at1 0xC00) = .ok (th.seg 0) ∧ barrierCheck n (th.seg 0) (at1 0xC00) = none ∧
      becomes (exec (.fsnap true 2 3) (s .running)) [{ fld 0 .running with snaps := [bar] }] = true := by decide +kernel

/-- FSNAP of a stopped field: the barrier arrival of the copied twin is owed at once. -/
theorem witness_FieldControl_FSNAP :
    let s := put (fst [fld 0 .stopped]) 0x4000 1 2
    let d : State := { s with deadEngines := [0] }
    let q := fst [fld 0 .faulted]
    let bar : Ref := ⟨th.seg 0, 0xC00, th.view⟩
    s.calm = true ∧ s.waits = [] ∧ (fld 0 .stopped).placed ∧ s.fieldStopped (fld 0 .stopped) = false ∧ s.copyFails (fld 0 .stopped) = false ∧
      d.copyFails (fld 0 .stopped) = true ∧ d.threads.all (fun v => v.role == .crew) = true ∧
      gives (exec (.fsnap true 2 3) d) (fun t =>
        t.fields == [{ fld 0 .faulted with reason := 2, due := [(0, true, bar)] }]) = true ∧
      gives (exec (.fsnap true 2 3) q) (fun t => t.fields == [{ fld 0 .faulted with due := [(0, true, bar)] }]) = true ∧
      gives (exec (.fsnap true 2 3) s) (fun t =>
        t.fields == [{ fld 0 .stopped with due := [(0xFFFFFFFF, false, ⟨th.seg 0, 0xC00, th.view⟩)] }]) = true := by
  unfold Field.placed
  decide +kernel

theorem witness_FieldControl_FCPL :
    let s := fst [fld 0 .running]
    let q : State := { s with thr := s.thr.wg 3 (at3 0x10000) }
    let j : EngineJob := ⟨7, .crew 1 0 0, 1, none, .fcpl 1 (wref 0x10000) 3⟩
    let c : State := { s with engJobs := [j] }
    let x : State := { fst [] with engJobs := [j] }
    q.thr.grant = none ∧ followHandle q q.thr.view q.thr.htab (at3 0x10000) = .ok (th.seg 3) ∧
      rightCheck (th.seg 3) 3 0x10000 (rightR ||| rightE) true = none ∧ boundCheck (th.seg 3) 3 0x10000 16 = none ∧
      formRange q q.thr.view (th.seg 3) 0x10000 16 = none ∧
      gives (exec (.fcpl true 2 3) q) (fun t => parks q t (.engine q.nextId) && t.engJobs ==
        [⟨q.nextId, .crew 1 0 0, 1, none, .fcpl 1 (wref 0x10000) 3⟩]) = true ∧
      c.fieldStopped (fld 0 .running) = false ∧ sizedTable c (wref 0x10000) 16 (cplSize (fld 0 .running).desc (globalSites (fld 0 .running).desc none)) = .ok ⟨wref 0x10000, bps⟩ ∧
      gives (exec (.couplingCheck 7) c) (fun t => t.wakes == [.crew 1 0 0] && t.thr.grant == some 0 && t.freezeCount 31 == 2 &&
        t.fields == [{ fld 0 .running with pendingCpl := some ⟨wref 0x10000, bps⟩ }]) = true ∧
      gives (exec (.couplingCheck 7) x) (fun t => t.wakes == [.crew 1 0 0] && t.thr.grantTrap == some ⟨.segRight, 1, 0, t.thr.duePc, false⟩) = true := by
  decide +kernel

/-- Site 0 has colour 0 and a neighbour at site 1: threshold 2^24 is above every draw, so its new value is 1. -/
theorem witness_FieldSweeps_phases :
    let f := { fld 0 .running with begun := true }
    let s := fst [f]
    let g := { f with arrived := [0] }
    let e := { f with arrived := [0], phase := 1, snaps := [] }
    let l := { fld 0 .stopping with begun := true, arrived := [0], phase := 1, next := 4 }
    f.sweeping = true ∧ f.groups[0]? = some 0 ∧ s.engineBad f 0 = false ∧ s.stackStopped (stackOf (clusterOver 0)) = false ∧
      g.partsArrived 0 1 = true ∧ e.partsArrived 1 0 = true ∧ l.partsArrived 5 0 = true ∧ fieldRoutine f.desc = 0 ∧ s.phaseSites f 0 = some [0] ∧
      [0].any (s.siteWaits f) = false ∧ (s.updateSites f [0]).2 = true ∧
      gives (exec (.fieldPhase 1 1 0) s) (fun t => memRead t.mem 0x4000 1 == 1 && t.fields == [g]) = true ∧
      s.siteValue f 0 = some 0 ∧ (s.writeSite f 1 1).siteValue f 1 = some 1 ∧ (s.writeSite f 1 1).siteValue f 0 = some 0 ∧
      gives (exec (.fieldPhaseBarrier 1 1) (fst [g])) (fun t => t.fields == [{ f with phase := 1 }]) = true ∧
      gives (exec (.fieldSweepEnd 1 1) (fst [e])) (fun t => t.fields == [{ f with next := 1 }]) = true ∧
      gives (exec (.fieldSweepEnd 1 1) (fst [l])) (fun t => t.fields == [{ fld 0 .stopped with next := 5 }]) = true := by decide +kernel

/-- The same with a handler routine of entry 8, and with a snapshot at the end of the sweep. -/
theorem witness_FieldSweeps_routines :
    let f := { fld 8 .running with begun := true }
    let h : HandlerEntry := ⟨8, seg spCode 0x8000 0x1000, 0x40, []⟩
    let s : State := { fst [f] with islands := [{ isl with handlers := [h] }] }
    let o := { f with owed := [(0, [0])] }
    let d := { f with owed := [(0, [])] }
    let q : State := { fst [o] with islands := [{ isl with handlers := [h] }] }
    fieldRoutine f.desc = 8 ∧ s.phaseSites f 0 = some [0] ∧
      gives (exec (.fieldPhase 1 1 0) s) (fun t => t.fields == [o]) = true ∧
      gives (exec (.fieldPhase 1 1 0) (fst [d])) (fun t => t.fields == [{ f with arrived := [0] }]) = true ∧
      q.updating o 0 = false ∧ q.siteWaits o 0 = false ∧ q.busyContexts 0 < 4 ∧ (q.updateArgs o 0).isSome = true ∧
      gives (exec (.fieldPhase 1 1 0) q) (fun t => t.fields == [o] && t.others.map (fun v => (v.role, v.pc, v.rg 1, v.rg 3, v.rg 5)) ==
        [(.field 1 1 0, 0x8040, 0x4000, 0, 2)]) = true := by decide +kernel

theorem witness_FieldSweeps_snapshots :
    let bar : Ref := ⟨th.seg 0, 0xC00, th.view⟩
    let f := { fld 0 .running with due := [(3, true, bar)] }
    let s := fst [f]
    let g := { fld 0 .running with begun := true, arrived := [0], phase := 1, snaps := [bar], next := 6 }
    s.calm = true ∧ s.fieldStopped f = false ∧ s.barrierAt bar 0xC00 ∧
      gives (exec (.snapshotArrival 1 1) s) (fun t => kept s t [(0xC00, 16)] && (t.barrier 0xC00).value == 3 &&
        (t.barrier 0xC00).flags.getLsbD 2 && t.fields == [{ fld 0 .running with begun := true }]) = true ∧
      gives (exec (.snapshotArrival 1 1) (fst [fld 0 .running])) (fun t => t.fields == [{ fld 0 .running with begun := true }]) = true ∧
      gives (exec (.fieldSweepEnd 1 1) (put (fst [g]) 0x4000 1 3)) (fun t =>
        t.fields == [{ fld 0 .running with next := 7, due := [(6, false, bar)] }]) = true := by
  unfold State.barrierAt State.settledRange
  decide +kernel

/-! ## Events (spec/05, spec/09, spec/10, spec/13) -/

theorem witness_EventsAroundThreads_results :
    let s (w : PendWait) : State := st { th with pending := [pnd w] }
    let m : MemMsg := ⟨th.key, th.view, 0x800, 8, .atom .add false, 5, 0, some 4, 0x800, 0xF0, 0, 0⟩
    let a : State := put { s .atomic with msgs := [m] } 0x800 8 7
    let f : State := { s .far with farOut := [⟨0, 1, th.key, some 4, 0x800, 0xF0, 3, none, 1, 3, [], 64, 0⟩] }
    let l : State := { s .far with farOut := [⟨0, 1, th.key, some 4, 0x800, 0xF0, 0, none, 1, 3, [(0x800, 1)], 8, 0⟩] }
    let one (t : State) := t.thr.pending
    (s .value).thread? th.key = some (s .value).thr ∧ [pnd .value].find? (fun f => f.seq == 4) = some (pnd .value) ∧
      gives (exec (.resultArrival th.key 4 0) (s .value)) (fun t => one t == [{ pnd .value with arrived := true }]) = true ∧
      a.msgs.filter (fun m => m.key == th.key && m.entry == some 4) = [m] ∧ isDram m.loc = true ∧ a.isFrozen m.loc = false ∧
      a.poisoned m.loc m.bytes = false ∧ a.clean = true ∧
      (a.core (coreIndex m.view)).port = [] ∧ a.msgReady m = true ∧
      gives (exec (.resultArrival th.key 4 0) a) (fun t => memRead t.mem 0x800 8 == 12 && t.msgs == [] &&
        one t == [{ pnd .value with arrived := true, value := 7 }]) = true ∧
      (f.farOf th.key 4).isSome = true ∧ f.farReady th.key 4 = true ∧ l.farReady th.key 4 = true ∧
      gives (exec (.resultArrival th.key 4 9) f) (fun t => one t == [{ pnd .value with arrived := true, value := 9 }] &&
        t.farOf th.key 4 == none) = true ∧
      gives (exec (.resultArrival th.key 4 0x9C) l) (fun t => one t ==
        [{ pnd .value with arrived := true, value := loadConv 8 (l.farFill 1 3 (partBytes [(0x800, 1)]) 0x9C).2 }]) = true ∧
      gives (exec (.longLatencyFault th.key 4) (s (.fault .owner 0x800 false))) (fun t => one t == [pnd (.fault .owner 0x800 true)]) = true ∧
      gives (exec (.longLatencyFault th.key 4) f) (fun t => one t == [pnd (.fault .owner 0x800 true)] && t.farOf th.key 4 == none) = true := by
  decide +kernel

/-- What the port holds: a load, an LDS of a full word and one of an empty word. -/
theorem witness_EventsAroundThreads_loads :
    let x := spadLoc 0 0x800
    let h (l : Option Bool) : HeldLoad := ⟨th.key, th.view, 4, 4, 0, th.seg 2, [⟨0x800, x, 8, 0⟩], 0, l⟩
    let s (l : Option Bool) : State := put { st { th with pending := [pnd .port] } with loads := [h l] } x 8 7
    let e : State := { s (some true) with empty := [wordAt x] }
    (s none).loads.find? (fun h => h.key == th.key && h.entry == 4) = some (h none) ∧ ((s none).core 0).port = [] ∧
      (s none).msgs = [] ∧ (s none).loadReady (h none) = true ∧ (s none).wayGone th.key x 0x800 = false ∧ isDram x = false ∧
      (s none).poisoned x 8 = false ∧ (s none).unwaited x = true ∧ (s none).isFull (wordAt x) = true ∧
      gives (exec (.resultArrival th.key 4 0) (s none)) (fun t => t.loads == [] && t.mem == (s none).mem &&
        t.thr.pending.map (fun e => (e.wait, e.value)) == [(.value, 7)]) = true ∧
      gives (exec (.resultArrival th.key 4 0) (s (some true))) (fun t => t.loads == [] && !t.isFull (wordAt x) &&
        t.thr.pending.map (fun e => (e.wait, e.value)) == [(.value, 7)]) = true ∧
      gives (exec (.resultArrival th.key 4 0) e) (fun t => t.loads == [] && t.waits.map (fun w => (w.word, w.key)) == [(wordAt x, th.key)] &&
        t.thr.pending.map (·.wait) == [.listed]) = true := by decide +kernel

theorem witness_EventsAroundThreads_wakes :
    let s : State := { st { th with status := .parked, wait := .held } with wakes := [th.key, th.key] }
    let d := st { th with status := .parked, wait := .debug }
    let r : StoreFault := ⟨0, th.key, 0xF0, 0x800, 3, false, .frozen, .flight⟩
    let f : State := { st th with faults := [r] }
    let b : State := { st th with faults := [{ r with stage := .behind }] }
    gives (exec (.wake th.key) s) (fun t => t.thr.status == .ready && t.thr.wait == .none && t.wakes == [th.key]) = true ∧
      gives (exec (.debugResume th.key) d) (fun t => t.thr.status == .ready && t.thr.wait == .none) = true ∧
      f.faults[0]? = some r ∧ f.faults.countP (fun g => g.core == r.core && g.stage == .queued) < 16 ∧
      gives (exec (.storefaultRecord 0) f) (fun t => t.faults == [{ r with stage := .queued }]) = true ∧
      b.faults.find? (fun g => g.core == 0 && g.stage == .behind) = some { r with stage := .behind } ∧
      gives (exec (.storefaultQueueEntry 0) b) (fun t => t.faults == [{ r with stage := .queued }]) = true := by decide +kernel

theorem witness_EventsAroundThreads_stores :
    let h : HeldStore := ⟨.crew 1 0 0, th.view, th.seg 0, [(0x800, 8, 0x0102030405060708)], 0xF0, false, 0, true, .plain, 0⟩
    let q : Shift := { shf with gone := false }
    let s : State := { st th with held := [h], shifts := [q] }
    let o : State := { st th with held := [{ h with op := .memory (.red .add false), elems := [(0x800, 8, 3)] }], shifts := [q] }
    let z : State := { s with freeze := [(0, 1)] }
    let m : MemMsg := ⟨th.key, th.view, 0x800, 8, .red .add false, 3, 0, none, 0x800, 0xF0, 0, 0⟩
    let a : State := put { st th with msgs := [m] } 0x800 8 4
    let k : State := { a with freeze := [(0, 1)] }
    s.held[0]? = some h ∧ s.shift? 1 = some q ∧ s.heldReady h = true ∧ s.isDead h.key = false ∧ s.heldPlace h 0x800 = .ok 0x800 ∧ (s.core 0).port = [] ∧ s.writable 0x800 = true ∧
      s.padHealth 0x800 ≠ .retired ∧ (s.core 0).wcb = [] ∧
      gives (exec (.heldStorePerform 0) s) (fun t => t.held == [] && t.sees 0 (0x800 / 128) 0x800 == 8 &&
        t.sees 0 (0x800 / 128) 0x807 == 1) = true ∧
      gives (exec (.heldStorePerform 0) o) (fun t => t.held == [] && memRead t.mem 0x800 8 == 3) = true ∧
      z.heldReady h = true ∧ z.heldFinding h (h.seg.pieces 0x800 8) = .fault .frozen ∧
      gives (exec (.heldStorePerform 0) z) (fun t => t.mem == z.mem && t.faults ==
        [⟨0, th.key, 0xF0, 0x800, 3, false, .frozen, .flight⟩]) = true ∧
      a.msgs[0]? = some m ∧ (a.core 0).port = [] ∧ a.msgReady m = true ∧ k.isDead m.key = false ∧ gives (exec (.stopeAtomic 0) a) (fun t => memRead t.mem 0x800 8 == 7 && t.msgs == []) = true ∧
      k.isFrozen 0x800 = true ∧ gives (exec (.stopeAtomic 0) k) (fun t => t.mem == k.mem && t.faults ==
        [⟨0, th.key, 0xF0, 0x800, 3, true, .frozen, .flight⟩]) = true := by decide +kernel

theorem witness_EventsAroundThreads_lines :
    let e : WcbEntry := ⟨0x10, 0x10, 3, 0xBBAA, [th.key]⟩
    let l : L1Line := ⟨0x10, 3, 1, 0, false, 0xBBAA⟩
    let s : State := { st th with cores := [⟨0, [], [e], [], 1, 0, .ok⟩] }
    let d := State.drainBytes { s with free := s.free + 1 } 0 e (e.mask &&& granuleMask 0)
    let c : State := { st th with cores := [⟨0, [l], [], [], 1, 0, .ok⟩] }
    (s.core 0).wcb[0]? = some e ∧ (List.range 16).find? (fun g => e.mask &&& granuleMask g != 0) = some 0 ∧ (s.recorded e.line).length < 4 ∧
      e.granules = [0] ∧ memRead d.mem 0x800 2 = 0xBBAA ∧ (d.core 0).wcb = [] ∧ kept s d [] = true ∧
      (c.core 0).l1? 0x10 = some l ∧
      gives (exec (.l1Writeback 0 0x10 true) c) (fun t => memRead t.mem 0x800 2 == 0xAA && (t.core 0).l1? 0x10 == none) = true ∧
      gives (exec (.l1Writeback 0 0x10 false) c) (fun t => memRead t.mem 0x800 2 == 0xAA &&
        (t.core 0).l1? 0x10 == some { l with dirty := 0 }) = true := by decide +kernel

theorem witness_EventsAroundThreads_pages :
    let s := st th
    let q : State := { s with
      pageReqs := [(th.key, 1, 0)]
      svcFaults := [⟨0x40, 1, 0, 5, 1, 0, th.view⟩] }
    let n : State := { s with frames := s.frames.filter fun f => f.frame != 16 }
    s.island? 1 = some isl ∧ badAddress 0x800 = false ∧ 0 ∈ Shape.tiles isl.shape ∧ walk s isl 0x800 = .leaf 31 40 ∧
      permitted isl 0x800 31 40 = true ∧ s.tlb = [] ∧
      gives (exec (.translationWalk 1 0 0x800) s) (fun t => t.tlb == [⟨some 0, 0, 1, 0, 40, 31⟩, ⟨none, 0, 1, 0, 40, 31⟩]) = true ∧
      walk n isl 0x800 = .service 1 0x100000 ∧
      gives (exec (.translationWalk 1 0 0x800) n) (fun t => t.tlb == [] && t.svcFaults.map (fun f => (f.va, f.island)) == [(0x800, 1)]) = true ∧
      q.arrivals = [] ∧ q.calm = true ∧ isDram 0x120000 = true ∧
      gives (exec (.pageServed 1 0 [(0x120000, 0x1F)]) q) (fun t => memRead t.mem 0x120000 8 == 0x1F && t.pageReqs == [] &&
        t.svcFaults == [] && t.wakes == [th.key] && kept q t [(0x120000, 8)]) = true := by decide +kernel

theorem witness_EventsAroundThreads_frames :
    let s := put { st th with frames := (⟨9, 3, 1, false⟩ : Frame) :: ⟨8, 3, 0, true⟩ :: (st th).frames } 0x90000 8 5
    let j (n : Nat) : EngineJob := ⟨2, .crew 1 0 0, 1, none, .repartition 3 n⟩
    let w (n : Nat) : State := put { st th with engJobs := [j n] } (wayLoc 0 13 0x20) 8 9
    let sh (n : Nat) : State := { w n with islands := [{ isl with wpart := 4, zWays := 4 }] }
    (s.frame 8).pin = true ∧ isNext (exec (.frameOwnershipWrite 8 7 0 false) s) s = true ∧ (s.frame 9).pin = false ∧ s.arrivals = [] ∧
      gives (exec (.frameOwnershipWrite 9 7 0 false) s) (fun t => t.frame 9 == ⟨9, 7, 0, false⟩ && memRead t.mem 0x90000 8 == 0 &&
        t.frame 8 == s.frame 8) = true ∧
      (w 0).engJob? 2 = some (j 0) ∧ (w 0).island? 1 = some isl ∧ isl.wpart = 0 ∧ (w 0).waits = [] ∧ (sh 1).spadBusy { isl with wpart := 4 } = false ∧
      gives (exec (.repartition 2) (w 0)) (fun t => t.engJobs == [j 3] && t.mem == (w 0).mem) = true ∧
      gives (exec (.repartition 2) (w 3)) (fun t => memRead t.mem (wayLoc 0 13 0x20) 8 == 0 && t.engJobs == [j 4]) = true ∧
      gives (exec (.repartition 2) (w 4)) (fun t => (t.island? 1).map (fun i => (i.zWays, i.wpart)) == some (3, 0) && t.engJobs == [j 5]) = true ∧
      gives (exec (.repartition 2) (w 5)) (fun t => (t.island? 1).map (·.wpart) == some 3 && t.wakes == [.crew 1 0 0] &&
        t.engJobs == []) = true ∧
      gives (exec (.repartition 2) (sh 0)) (fun t => (t.island? 1).map (fun i => (i.zWays, i.wpart)) == some (3, 4) &&
        t.engJobs == [j 1]) = true ∧
      gives (exec (.repartition 2) (sh 1)) (fun t => t.engJobs == [j 2] && t.mem == (sh 1).mem) = true ∧
      gives (exec (.repartition 2) (sh 2)) (fun t => memRead t.mem (wayLoc 0 13 0x20) 8 == 9 && t.engJobs == [j 3]) = true ∧
      gives (exec (.repartition 2) (sh 3)) (fun t => (t.island? 1).map (·.wpart) == some 3 && t.engJobs == []) = true := by decide +kernel

theorem witness_EventsAroundThreads_failures :
    let s : State := { s2 th with cores := [⟨1, [], [], [], 1, 0, .ok⟩] }
    let n : State := { st th with cores := [⟨5, [], [], [], 1, 0, .ok⟩] }
    let f : State := put { st th with cores := [⟨1, [], [], [], 1, 0, .failed⟩] } (spadLoc 1 8) 8 5
    let e : State := { fst [fld 8 .running] with calls := [call1 .waiting] }
    (s.core 1).health = .ok ∧ gives (exec (.coreFailure 1) s) (fun t => (t.core 1).health == .failed && t.threads.all (fun v => !v.live)) = true ∧
      gives (exec (.coreFailure 5) n) (fun t => t.core 5 == ⟨5, [], [], [], 1, 0, .failed⟩ && kept n t [] && same n t) = true ∧
      (f.core 1).health = .failed ∧ f.waits = [] ∧ f.arrivals = [] ∧
      gives (exec (.coreRepairedOrRetired 1 true) f) (fun t => (t.core 1).health == .ok && memRead t.mem (spadLoc 1 8) 8 == 0) = true ∧
      gives (exec (.coreRepairedOrRetired 1 false) f) (fun t => (t.core 1).health == .retired) = true ∧
      0 ∉ e.deadEngines ∧ gives (exec (.stopeEngineFailure 0) e) (fun t => t.deadEngines == [0] &&
        t.calls.map (fun c => (c.stage, c.reply)) == [(.replying, some (4, 0, []))] && t.fields == [{ fld 8 .faulted with reason := 2 }]) = true := by
  decide +kernel

/-! ## Host commands (spec/14) -/

theorem witness_HostCommands_protocol :
    let s := hst (st th)
    let old : State := { s with conns := [⟨1, [1, 2], 600, [], false, 0⟩] }
    s.serviceUp = true ∧ State.accepts s cmd [1] ∧
      answers (exec (.unknownCommand cmd 15) s) 15 1 [] (fun t => t.mem == s.mem) = true ∧
      answers (exec (.tlbinv { cmd with island := 3 } 0 1) s) 10 5 [] (fun _ => true) = false ∧
      gives (exec (.tlbinv { cmd with island := 3 } 0 1) s) (fun t => t.outbox.map (·.status) == [5]) = true ∧
      gives (exec (.tlbinv { cmd with island := 2 } 0 1) s) (fun t => t.outbox.map (·.status) == [2]) = true ∧
      gives (exec (.tlbinv { cmd with seq := 4 } 0 1) s) (fun t => t.outbox == [⟨1, 3, 0, 4, 1, 0xAA, [7]⟩]) = true ∧
      gives (exec (.tlbinv cmd 0 1) old) (fun t => t.outbox.map (·.status) == [4]) = true ∧
      isNext (exec (.tlbinv { cmd with seq := 6 } 0 1) s) s = true ∧
      s.hasPort 2 = true ∧ s.hasPort 3 = false ∧ isNext (exec (.connectionOpen ⟨9, 3⟩ [1]) s) s = true ∧
      isNext (exec (.connectionOpen ⟨9, 2⟩ [1]) s) { s with conns := s.conns ++ [⟨9, [1], 1, [], false, 2⟩] } = true := by
  refine ⟨by decide +kernel, ⟨by decide +kernel, ⟨_, rfl, by decide +kernel⟩⟩, by decide +kernel⟩

theorem witness_HostCommands_islands :
    let s := hst (st th)
    let w := put s (wayLoc 1 15 8) 8 5
    let sh : Shape := .rect 0 1 0 1 1
    Shape.valid sh = true ∧ s.island? 2 = none ∧ Shape.tiles sh = [clusterOver 0 + 1] ∧ s.tileRetired 1 = false ∧
      answers (exec (.islandCreate cmd 2 sh 7 0x200000 4 []) w) 2 0 [] (fun t => memRead t.mem (wayLoc 1 15 8) 8 == 0 && t.islands ==
        [isl, ⟨2, 7, sh, 0x200000, 4, 4, [], [], [], []⟩]) = true ∧
      answers (exec (.islandDestroy cmd) s) 2 0 [] (fun t => t.islands == [] && t.mem == s.mem) = true := by decide +kernel

theorem witness_HostCommands_memory :
    let s := put (hst (st th)) 0x810 4 0x04030201
    let z : State := { s with freeze := cnt ips 1 }
    s.hostAt isl 0x800 3 needW 0x800 ∧ s.inRunningField 1 0x800 3 = false ∧ s.padHealth 0x800 ≠ .retired ∧ s.isFrozen 0x800 = false ∧
      s.calm = true ∧ answers (exec (.put { cmd with len := 3 } 0x800 [1, 2, 3]) s) 3 0 [] (fun t => memRead t.mem 0x800 3 == 0x030201 &&
        kept s t [(0x800, 3)]) = true ∧ z.isFrozen 0x800 = true ∧
      answers (exec (.put { cmd with len := 3 } 0x800 [1, 2, 3]) z) 3 1 [] (fun t => t.mem == z.mem) = true ∧
      s.hostAt isl 0x810 4 needR 0x810 ∧ s.poisoned 0x810 4 = false ∧
      answers (exec (.get cmd 0x810 4) s) 4 0 [1, 2, 3, 4] (fun t => t.mem == s.mem) = true ∧
      s.hostAt isl 0x80E 2 needR 0x80E ∧ s.poisoned 0x80E 2 = false ∧
      gives (exec (.get cmd 0x80E 4) s) (fun t => t.outbox == [] && t.hostGets == [⟨1, 5, [0, 0]⟩] && t.mem == s.mem) = true := by
  unfold State.hostAt
  decide +kernel

/-- An island with a handle table at 0x10000, in frame 256, whose handle 2 is code; and a packet with that table. -/
def tisl : Island := { isl with tables := [0x10000] }

/-- The state with that table. -/
def lst (i : Island) : State :=
  let s := hst (st th)
  let x := isl.place 0x10000
  put (put { s with islands := [i], frames := (⟨256, 5, 0, false⟩ : Frame) :: s.frames } x 8 4) (x + 0x40) 32
    (entryOfSeg (seg spCode 0 0x40000))

/-- The packet. -/
def hpkt : BitVec 512 := BitVec.ofNat 512 (pkt % 2 ^ 192 + 2 ^ 64)

theorem witness_HostCommands_launches :
    let s := lst tisl
    let full : Island := { tisl with queues := [⟨3, List.replicate 256 9, 2, false, false, 0, [], []⟩] }
    let f := lst full
    s.island? 1 = some tisl ∧ checkPacket s tisl tisl.view hpkt.toNat 0 none true =
        .ok (packetShift hpkt.toNat 0x10000 1 1 true none none) ∧
      answers (exec (.launchCommand cmd hpkt) s) 5 0 (bytesOf 1 8) (fun t => t.nextSerial == 2 && t.shifts.map (·.serial) == [1] &&
        (t.island? 1).map (fun i => (i.queue 3).shifts) == some [1]) = true ∧
      checkPacket s tisl tisl.view (hpkt ||| (1#512 <<< 62)).toNat 0 none true = .invalid ∧
      answers (exec (.launchCommand cmd (hpkt ||| (1#512 <<< 62))) s) 5 1 [] (fun t => t.shifts == []) = true ∧
      checkPacket f full full.view hpkt.toNat 0 none true = .ok (packetShift hpkt.toNat 0x10000 1 1 true none none) ∧
      taken (exec (.launchCommand cmd hpkt) f) (fun t => t.hostLaunches == [⟨1, 5, 0xAB, 1⟩]) = true := by decide +kernel

theorem witness_HostCommands_waits :
    let s := hst (st th)
    let d := put s 0x820 16 (Barrier.bits ⟨0, 0, 0, 0, 1, true⟩)
    let k : State := { s with shifts := [{ shf with gone := false }] }
    s.locate isl.view wholeSeg 0x820 needR false = .ok 0x820 ∧ badAddress 0x820 = false ∧ s.poisoned 0x820 16 = false ∧
      s.calm = true ∧ (d.barrier 0x820).done = true ∧
      answers (exec (.wait cmd 0x820) d) 6 0 (bytesOf (d.barrier 0x820).test.toNat 8) (fun t => t.mem == d.mem) = true ∧
      (s.barrier 0x820).done = false ∧ taken (exec (.wait cmd 0x820) s) (fun t => t.hostWaits == [⟨1, 5, 1, 0xAB, 0x820⟩]) = true ∧
      answers (exec (.kill cmd 1) s) 13 1 [] (fun t => t.mem == s.mem) = true ∧
      answers (exec (.kill cmd 1) k) 13 0 [] (fun t => t.shifts.all (·.killed)) = true := by decide +kernel

theorem witness_HostCommands_tables :
    let s := own16 (hst (st th))
    let e : TlbEntry := ⟨some 0, 0, 1, 0, 40, 31⟩
    let q : Strait := ⟨1, 9, 0x200000, 2, 10, 3, 0x3000⟩
    let o : State := { s with islands := [isl, { isl with num := 2, tenant := 9 }] }
    let rs : List (Nat × Word) := [(0x120100, 0x13), (0x120108, 0x13)]
    let c : State := { s with freeze := cnt ips 1 }
    let f : State := { s with fields := [fld 0 .stopped], islands := [{ isl with far := [⟨4, 77, 2, 0, 2⟩] }] }
    granulesOf s isl.view wholeSeg 0 0x10000 false = .ok (zip0 ips) ∧ granulesOf s isl.view wholeSeg 0 0x10000 true = .ok (zip0 ips) ∧
      taken (exec (.freezeFrz cmd 0 0x10000) s) (fun t => t.freezeCount 0 == 1 && t.engJobs ==
        [⟨s.nextId, .handler 0, 1, some cmd, .freeze ips⟩]) = true ∧
      answers (exec (.freezeFrz cmd 0 0x10000) { s with freeze := [(0, 255)] }) 7 1 [] (fun _ => true) = true ∧
      answers (exec (.freezeFrz cmd 0 0) s) 7 0 [] (fun _ => true) = true ∧
      taken (exec (.freezeThaw cmd 0 0x10000) c) (fun t => t.freezeCount 0 == 0 && t.thaws.length == 1) = true ∧
      answers (exec (.freezeFrzq cmd 0) c) 7 0 (bytesOf 1 8) (fun _ => true) = true ∧
      (rs.foldl State.putEntry o).straitMapped isl 0x200000 2 = true ∧ s.straitMapped isl 0x200000 2 = false ∧ o.ownerStacks 9 = [0] ∧
      answers (exec (.straitOpen cmd ⟨1, rs⟩ 9 0x200000 2 10 3) o) 8 0 [] (fun t => t.straits == [q]) = true ∧
      isNext (exec (.straitOpen cmd ⟨1, []⟩ 9 0x200000 2 10 3) s) s = true ∧
      answers (exec (.straitOpen cmd ⟨1, []⟩ 9 0x200000 2 10 3) { o with straits := List.replicate 64 { q with base := 0 } }) 8 3 []
        (fun _ => true) = true ∧
      answers (exec (.straitClose cmd 1 9 0x200000) { s with straits := [q] }) 8 0 [] (fun t => t.straits == []) = true ∧
      answers (exec (.straitClose cmd 1 9 0x200000) s) 8 1 [] (fun _ => true) = true ∧
      answers (exec (.fartab cmd 4 (some 77) 2 0 2) s) 9 0 [] (fun t => (t.island? 1).map (·.far) == some [⟨4, 77, 2, 0, 2⟩]) = true ∧
      answers (exec (.fartab cmd 4 none 2 0 2) { s with islands := [{ isl with far := [⟨4, 77, 2, 0, 2⟩] }] }) 9 0 [] (fun t =>
        (t.island? 1).map (·.far) == some []) = true ∧
      answers (exec (.tlbinv cmd 0 0x10000) { s with tlb := [e] }) 10 0 [] (fun t => t.tlb == []) = true ∧
      f.field? 1 1 = some (fld 0 .stopped) ∧ answers (exec (.fieldlink cmd 1 [4, 1, 1] ⟨[2, 0, 0], [some 4]⟩ false 3) f) 11 0 [] (fun t =>
        t.fields == [{ fld 0 .stopped with link := some ⟨[4, 1, 1], [2, 0, 0], false, 3, [some 4]⟩ }]) = true := by decide +kernel

/-! ## Pre-emption, device, fabric (spec/11, spec/14, spec/21) -/

theorem witness_PreemptionAndDevice_slots :
    let s := hst { s2 th with others := [{ th1 with status := .spilled, wait := .held, area := 0x10000 }] }
    let f := hst { s2 th with others := [{ th1 with status := .spilled, area := 0x10000, key := .crew 1 0 1 },
      { th1 with key := .crew 1 0 2 }] }
    State.accepts s cmd [1] ∧ s.island? 1 = some isl ∧ s.thread? (.crew 7 0 0) = none ∧
      answers (exec (.spillSlot cmd (.crew 7 0 0) 0) s) 12 1 [] (fun t => t.mem == s.mem) = true ∧
      answers (exec (.spillSlot cmd (.crew 1 0 1) 0) s) 12 0 [] (fun t => t.mem == s.mem) = true ∧ s.areaOk 1 0x10000 65536 1 = true ∧ s.spillBusy th = false ∧ s.spillBusy th1 = false ∧
      isNext (exec (.spillSlot cmd th.key 0x10000) s) (s.modThread th.key fun x => { x with spilling := true, area := 0x10000 }) = true ∧
      s.slotFree { th1 with status := .spilled, wait := .held, area := 0x10000 } = true ∧ (s.matrixEng 0).evicted = false ∧
      f.slotFree { th1 with status := .spilled, area := 0x10000 } = false ∧ isNext (exec (.refillSlot cmd (.crew 1 0 1)) f) f = true := by
  refine ⟨⟨by decide +kernel, ⟨_, rfl, by decide +kernel⟩⟩, by decide +kernel⟩

/-- A thread whose slot is taken is Spilled. -/
theorem witness_PreemptionAndDevice_save :
    let v : Thread := { th with spilling := true, area := 0x10000 }
    let s := st v
    s.thread? th.key = some v ∧ v.canSpill = true ∧ v.settled = true ∧ s.msgs = [] ∧ v.area + 65536 ≤ dramTop ∧
      gives (exec (.spillSave th.key) s) (fun t => t.thr.status == .spilled && !t.thr.spilling && t.thr.pending == []) = true := by
  decide +kernel

/-- The conditions of an eviction and of a restoration; the former with a thread that still runs. -/
theorem witness_PreemptionAndDevice_clusters :
    let own := (List.range 48).map fun k => (⟨32 + k, 5, 0, false⟩ : Frame)
    let s := hst { st th with frames := own ++ (st th).frames }
    let q : State := { s with thr := { s.thr with status := .retired } }
    let e : State := { q with matrix := [{ eng [] [] with evicted := true }] }
    0 ∈ Shape.tiles isl.shape ∧ s.areaOk 1 0x200000 (2 ^ 20) 48 = true ∧ s.clusterBusy 0 = true ∧
      gives (exec (.evictCluster cmd 0 0x200000) s) (fun t => t.thr.spilling && (t.matrixEng 0).evicted && t.outbox == [] &&
        t.mem == s.mem) = true ∧
      q.clusterBusy 0 = false ∧ q.areaOk 1 0x200000 (2 ^ 20) 16 = true ∧ (q.matrixEng 0).buffers = [] ∧ (e.matrixEng 0).evicted = true ∧
      (List.range 4).all (fun c => (e.core c).health != .retired) = true := by decide +kernel

/-- Reset with empty slots begins to fetch; whatever an image is, one of the clauses on verification applies to it. -/
theorem witness_PreemptionAndDevice_boot (img : Image) :
    let s := hst (st th)
    let f : State := { s with dies := Vector.replicate 4 { StackSt.reset with boot := .fetching 3 false } }
    (gives (exec .moduleReset s) fun t => t.dies.toList.map (·.boot) == List.replicate 4 (.fetching 3 false)) = true ∧
      (gives (exec .powerLoss s) fun t => t.dies.toList.map (·.boot) == List.replicate 4 .off && t.off && t.mem == []) = true ∧
      f.off = false ∧ (f.die 1).boot = .fetching 3 false ∧ (s.die 1).boot = .running true ∧ State.accepts s cmd [] ∧
      (exec .moduleReset { s with resetPlan := ⟨[0, 7], 5, []⟩ } |> fun o => gives o fun t => t.dies.toList.map (fun d => (d.boot, d.delay)) ==
        [(.fetching 3 false, 0), (.off, 7), (.fetching 3 false, 0), (.fetching 3 false, 0)] && t.moduleId == 5) = true ∧ s.imageLoad = none ∧
      ({ s with imageLoad := some ⟨1, 5, img, [0, 1, 2]⟩ } : State).imageLoad = some ⟨cmd.conn, cmd.seq, img, [0, 1, 2]⟩ ∧
      (verifies 1 img = true ∨ verifies 1 img = false) ∧ (s.imageVerifies img = true ∨ s.imageVerifies img = false) := by
  refine ⟨by decide +kernel, by decide +kernel, by decide +kernel, by decide +kernel, by decide +kernel,
    ⟨by decide +kernel, ⟨_, rfl, by decide +kernel⟩⟩, by decide +kernel, by decide +kernel, rfl, ?_⟩
  cases verifies 1 img <;> cases State.imageVerifies _ img <;> simp

theorem witness_PreemptionAndDevice_service :
    let w : Wear := ⟨3, 0, 0, 8000, -1, 5⟩
    let s : State := { hst (st th) with wear := [w], dropped := 3 }
    let img : Image := ⟨0xD16E57, 0, 0, false, 0⟩
    let a : State := { s with dies := Vector.replicate 4 { StackSt.reset with boot := .running true, image := some img } }
    answers (exec (.telemetry cmd (.wear [{ w with margin := 9000 }])) s) 14 0
        (({ s with wear := [{ w with margin := 9000 }] } : State).wearRecords.flatMap Wear.bytes) (fun _ => true) = true ∧ s.wearRecords.contains w = true ∧
      answers (exec (.telemetry cmd .counters) s) 14 0 (bytesOf 3 8) (fun _ => true) = true ∧
      (a.die 0).boot = .running true ∧ (a.die 0).image = some img ∧
      (3, 0, 0) ∈ wearUnits ∧ (2, 0, 1) ∈ wearUnits ∧
      gives (exec (.unitRetirement w) s) (fun t => t.retiredUnits == [(3, 0, 0)] && t.engineRetired 0) = true ∧
      gives (exec (.unitRetirement { w with kind := 2, unit := 1 }) (put s (wayLoc 1 3 8) 1 7)) (fun t => t.withdrawn == [1] && same s t &&
        t.mem == s.mem) = true ∧ s.waits = [] ∧
      gives (exec (.unitRetirement { w with kind := 0 }) s) (fun t => t.retiredUnits == [(0, 0, 0)]) = true ∧
      isNext (exec (.unitRetirement { w with margin := 9000 }) s) { s with wear := [{ w with margin := 9000 }] } = true := by decide +kernel

theorem witness_PreemptionAndDevice_limits :
    let s := st th
    let x : Sensors := ⟨true, 112, 115, [4], false, false⟩
    gives (exec (.limitSense 1 { x with maxTemp := 121 }) s) (fun t => t.off && t.mem == [] && t.tripped == some 1) = true ∧
      gives (exec (.limitSense 1 { x with overPower := true }) s) (fun t => (t.die 2).mhz == (s.die 2).mhz - 100) = true ∧
      gives (exec (.limitSense 1 x) s) (fun t => (t.die 1).stopped && (t.die 1).hot == [4] && (t.die 1).mhz == (s.die 1).mhz - 100) = true ∧
      gives (exec (.clockStepUp 2) { s with dies := Vector.replicate 4 { StackSt.reset with mhz := 1000, coolTicks := 100 } }) (fun t =>
        (t.die 2).mhz == 1100 && (t.die 1).mhz == 1000) = true ∧
      isNext (exec (.patrolScrub 0x808 false) s) s = true ∧ gives (exec (.patrolScrub 0x808 true) s) (fun t => t.poison == [0x101] && t.svcReports == [.poisoned 0x808]) = true ∧
      isNext (exec (.calibration 3) s) s = true ∧ isNext (exec (.refresh 3) s) s = true ∧
      gives (exec (.linkFailure 2) s) (fun t => t.linksDown == [2]) = true := by decide +kernel

theorem witness_PreemptionAndDevice_fabric :
    let s := put (st th) 0x800 8 10
    let d : State := { s with farSeen := [(7, 1, 2)] }
    let i : Instr := .farMessageArrival 7 1 2 1 (.atom .add false 0x800 8 5)
    let lf : Field := { fld 0 .running with link := some ⟨[4, 1, 1], [0, 0, 0], true, 1, [some 4]⟩ }
    let f : State := { s with fields := [lf], islands := [{ isl with far := [⟨4, 7, 2, 0, 0⟩] }] }
    let p : Field := { lf with parts := [⟨0, 2, 0, 0, [0, 0, 0, 0]⟩] }
    let g : Seg := { seg spFar 0 0x1000 with fmod := 4 }
    let c : State := { s with calls := [{ call1 .sent with target := g }] }
    let seen (t : State) : Bool := t.farSeen == [(7, 1, 2)]
    isNext (exec i d) d = true ∧ s.island? 1 = some isl ∧ s.hostAt isl 0x800 8 needRW 0x800 ∧ isDram 0x800 = true ∧
      s.isFrozen 0x800 = false ∧ s.poisoned 0x800 8 = false ∧ s.clean = true ∧
      gives (exec i s) (fun t => seen t && memRead t.mem 0x800 8 == 15) = true ∧
      gives (exec (.farMessageArrival 7 1 2 1 (.red .max false 0x800 8 50)) s) (fun t => seen t && memRead t.mem 0x800 8 == 50) = true ∧
      gives (exec (.farMessageArrival 7 1 2 1 (.cas 0x800 8 10 3)) s) (fun t => seen t && memRead t.mem 0x800 8 == 3) = true ∧
      gives (exec (.farMessageArrival 7 1 2 1 (.push 0x800 9 false)) s) (fun t => seen t && memRead t.mem 0x800 8 == 9) = true ∧
      gives (exec (.farMessageArrival 7 1 2 1 (.push 0x800 9 true)) { s with empty := [0x100] }) (fun t => seen t && t.isFull 0x100) = true ∧
      haloSize lf.desc 0 = 9 ∧
      gives (exec (.farMessageArrival 7 1 2 1 (.halo 1 0 2 0 0 (List.replicate 9 1))) f) (fun t => seen t &&
        t.fields.map (·.halos) == [[⟨0, 2, 0, List.replicate 9 1⟩]]) = true ∧
      gives (exec (.farMessageArrival 7 1 2 1 (.halo 1 0 2 0 0 [0, 0, 0, 0])) f) (fun t => seen t && t.fields == [p]) = true ∧
      gives (exec (.farMessageArrival 7 1 2 1 (.halo 1 0 2 0 4 [1, 1, 1, 1, 1])) { f with fields := [p] }) (fun t => seen t &&
        t.fields.map (·.halos) == [[⟨0, 2, 0, [0, 0, 0, 0, 1, 1, 1, 1, 1]⟩]]) = true ∧ s.bankStopped 0x800 = false ∧
      gives (exec (.farMessageArrival 7 1 2 1 (.reply 3 0x20 [6])) c) (fun t => seen t && t.calls.map (fun k => (k.stage, k.reply)) ==
        [(.replying, some (0x20, 1, [6]))]) = true ∧
      gives (exec (.farMessageArrival 7 1 2 1 (.call 0x800 9 [1] 2)) s) (fun t => seen t && t.calls.map (fun k => (k.entry, k.caller)) == [(9, 0x8000000000000002)]) = true ∧
      isNext (exec (.farMessageArrival 7 1 2 1 .unsupported) s) { s with dropped := 1 } = true := by
  unfold State.hostAt
  decide +kernel

theorem witness_PreemptionAndDevice_timeouts :
    let m : FarMsg := ⟨0, 1, th.key, some 4, 0x800, 0xF0, 3, none, 1, 3, [], 64, 0⟩
    let s : State := { st { th with pending := [pnd .far] } with farOut := [m] }
    let r : State := { st th with farOut := [{ m with entry := none }] }
    let bar : Ref := ⟨th.seg 0, 0xC00, th.view⟩
    let j : CopyJob := ⟨2, th.key, bar, bar, 16, 1, false, false, 0, false, bar⟩
    let c : State := { st th with farOut := [{ m with entry := none, copy := some 2 }], copies := [j] }
    s.farOf th.key 4 = some m ∧ s.stackStopped (stackOf (m.core / 4)) = false ∧
      gives (exec (.farAccessTimeout 0 1) s) (fun t => t.thr.pending == [pnd (.fault .owner 0x800 true)] && t.farOut == []) = true ∧
      isNext (exec (.farAccessTimeout 0 1) r) { r with
        farOut := []
        faults := [⟨0, th.key, 0xF0, 0x800, 3, true, .owner, .flight⟩] } = true ∧
      c.calm = true ∧ c.barrierAt bar 0xC00 ∧
      gives (exec (.farAccessTimeout 0 1) c) (fun t => t.copies == [] && (t.barrier 0xC00).value == 8 &&
        (t.barrier 0xC00).flags.getLsbD 2 && kept c t [(0xC00, 16)]) = true := by
  unfold State.barrierAt State.settledRange
  decide +kernel

end Sys2Proof.Tests
end

section
/-! Integer arithmetic (spec/04, R101, R103 to R106): the number that each function of Table 4.1 gives is the number of a
bit-vector expression, and with that MUL, MULH, DIV, REM, the bitwise operations, MIN, MAX, the shifts and the rotate. -/

namespace Sys2Proof.Machine

open Sys2Proof

/-! ## Operations of two operands that set no flag -/

/-- An operation of two operands that never saturates completes in both forms, if its numbers are those of the bit vectors.
That the two forms are the shared operations on g is exec's own arm for each. -/
theorem intCompletes_of_noFlag {scalar : IntTy → BitVec 6 → BitVec 6 → BitVec 6 → Instr}
    {vector : IntTy → BitVec 5 → BitVec 5 → BitVec 5 → BitVec 3 → Instr} {f : (w : Nat) → BitVec w → BitVec w → BitVec w}
    (g : Nat → Nat → Nat → Nat) (hg : ∀ {w : Nat}, 0 < w → ∀ x y : BitVec w, g w x.toNat y.toNat = (f w x y).toNat)
    (hs : ∀ t d a b s, exec (scalar t d a b) s = .next (s.intScalar t d a b fun w x y _ => (g w x y, 0)) := by intros; rfl)
    (hv : ∀ t d a b p s, exec (vector t d a b p) s = .next (s.intVector t d a b p fun w x y _ => (g w x y, 0)) := by
      intros; rfl) :
    intCompletes scalar vector fun w x y _ => (f w x y, false) := by
  refine intCompletes_of (fun w x y _ => (g w x y, 0)) hs hv fun w hw x y _ => ?_
  have hpos : 0 < w := by omega
  simp [hg hpos x y]

/-! ## Products (R103) -/

/-- The upper half of a 2w-bit number is its integer's quotient by 2^w. -/
theorem highHalf_ofInt (w : Nat) (v : Int) :
    ((BitVec.ofInt (2 * w) v) >>> w).truncate w = BitVec.ofInt w (v / (2 ^ w : Nat)) := by
  have hpos : ((2 ^ w : Nat) : Int) ≠ 0 := by positivity
  have hsplit : v = v % (2 ^ (2 * w) : Nat) + (2 ^ w : Nat) * ((2 ^ w : Nat) * (v / (2 ^ (2 * w) : Nat))) := by
    have hsq : ((2 ^ (2 * w) : Nat) : Int) = (2 ^ w : Nat) * (2 ^ w : Nat) := by rw [two_mul, pow_add, Nat.cast_mul]
    rw [← mul_assoc, ← hsq, Int.emod_add_mul_ediv]
  obtain ⟨r, hr⟩ := Int.eq_ofNat_of_zero_le (Int.emod_nonneg v (b := (2 ^ (2 * w) : Nat)) (by positivity))
  apply BitVec.eq_of_toNat_eq
  rw [BitVec.toNat_setWidth, BitVec.toNat_ushiftRight, BitVec.toNat_ofInt, BitVec.toNat_ofInt, Nat.shiftRight_eq_div_pow]
  conv_rhs => rw [hsplit, Int.add_mul_ediv_left _ _ hpos, Int.add_mul_emod_self_left]
  rw [hr]
  rfl

/-- The same for a product formed in 2w bits. -/
theorem narrow_mul_div (w : Nat) (a b : Int) : narrow w (a * b / (2 ^ w : Nat)) =
    (((BitVec.ofInt (2 * w) a * BitVec.ofInt (2 * w) b) >>> w).truncate w).toNat := by
  rw [narrow_toNat, ← BitVec.ofInt_mul, highHalf_ofInt]

theorem zeroExtend_eq_ofInt {w : Nat} (n : Nat) (x : BitVec w) : x.zeroExtend n = BitVec.ofInt n x.toNat := by
  rw [BitVec.ofInt_natCast]
  exact (BitVec.ofNat_toNat n x).symm

theorem mulhResult_signed {w : Nat} (hw : 0 < w) (x y : BitVec w) : mulhResult .signed w x.toNat y.toNat =
    (((x.signExtend (2 * w) * y.signExtend (2 * w)) >>> w).truncate w).toNat := by
  rw [mulhResult, signedOf_toInt w hw, signedOf_toInt w hw, narrow_mul_div]
  rfl

theorem mulhResult_unsigned {w : Nat} (x y : BitVec w) : mulhResult .unsigned w x.toNat y.toNat =
    (((x.zeroExtend (2 * w) * y.zeroExtend (2 * w)) >>> w).truncate w).toNat := by
  rw [mulhResult, zeroExtend_eq_ofInt, zeroExtend_eq_ofInt, ← narrow_mul_div]
  rfl

theorem mulhResult_signedUnsigned {w : Nat} (hw : 0 < w) (x y : BitVec w) : mulhResult .signedUnsigned w x.toNat y.toNat =
    (((x.signExtend (2 * w) * y.zeroExtend (2 * w)) >>> w).truncate w).toNat := by
  rw [mulhResult, signedOf_toInt w hw, narrow_mul_div, ← zeroExtend_eq_ofInt]
  rfl

/-- Settles O15: the model's high half is a quotient of integers by 2^w, which is the upper half of the 2w-bit product. -/
theorem integerHighProduct : Obligations.IntegerHighProduct := by
  unfold Obligations.IntegerHighProduct
  refine ⟨?mul, ?signed, ?unsigned, ?signedUnsigned⟩
  case mul =>
    exact intCompletes_of_noFlag (fun w x y => x * y % 2 ^ w) fun _ x y => (BitVec.toNat_mul x y).symm
  case signed =>
    exact intCompletes_of_noFlag (mulhResult .signed) mulhResult_signed
  case unsigned =>
    exact intCompletes_of_noFlag (mulhResult .unsigned) fun _ => mulhResult_unsigned
  case signedUnsigned =>
    exact intCompletes_of_noFlag (mulhResult .signedUnsigned) mulhResult_signedUnsigned

/-! ## Quotients and remainders (R104) -/

/-- Signed division of words is integer division toward zero, wrapped. -/
theorem sdiv_eq_ofInt_tdiv {w : Nat} (x y : BitVec w) : x.sdiv y = BitVec.ofInt w (x.toInt.tdiv y.toInt) :=
  BitVec.eq_of_toInt_eq (by rw [BitVec.toInt_sdiv, BitVec.toInt_ofInt])

/-- The remainder of integer division toward zero is A − B × q in words too. -/
theorem ofInt_tmod {w : Nat} (x y : BitVec w) : BitVec.ofInt w (x.toInt.tmod y.toInt) = x - y * x.sdiv y := by
  rw [Int.tmod_def, Int.sub_eq_add_neg, BitVec.ofInt_add, BitVec.ofInt_neg, BitVec.ofInt_mul, BitVec.ofInt_toInt,
    BitVec.ofInt_toInt, ← sdiv_eq_ofInt_tdiv, ← BitVec.sub_eq_add_neg]

theorem umod_eq_sub_mul_udiv {w : Nat} (x y : BitVec w) : x % y = x - y * (x / y) := by
  have hx : y * (x / y) + x % y = x := by
    apply BitVec.eq_of_toNat_eq
    rw [BitVec.toNat_add, BitVec.toNat_mul, BitVec.toNat_udiv, BitVec.toNat_umod, Nat.mod_add_mod, Nat.div_add_mod,
      Nat.mod_eq_of_lt x.isLt]
  calc x % y = y * (x / y) + x % y - y * (x / y) := by rw [BitVec.add_comm, BitVec.add_sub_cancel]
    _ = x - y * (x / y) := by rw [hx]

/-- A word whose number is zero is the zero word. -/
theorem bitVec_toNat_eq_zero_iff {w : Nat} (y : BitVec w) : y.toNat = 0 ↔ y = 0#w := by
  rw [← BitVec.toNat_inj, BitVec.toNat_ofNat, Nat.zero_mod]

theorem divResult_signed {w : Nat} (hw : 0 < w) (x y : BitVec w) :
    divResult false w x.toNat y.toNat = (if y = 0#w then BitVec.allOnes w else x.sdiv y).toNat := by
  by_cases hy : y = 0#w
  · simp [divResult, hy]
  · have hq : narrow w (x.toInt.tdiv y.toInt) = (x.sdiv y).toNat := by rw [narrow_toNat, sdiv_eq_ofInt_tdiv]
    simp [divResult, bitVec_toNat_eq_zero_iff, hy, signedOf_toInt w hw, hq]

theorem divResult_unsigned {w : Nat} (x y : BitVec w) :
    divResult true w x.toNat y.toNat = (if y = 0#w then BitVec.allOnes w else x / y).toNat := by
  by_cases hy : y = 0#w
  · simp [divResult, hy]
  · simp [divResult, bitVec_toNat_eq_zero_iff, hy]

theorem remResult_signed {w : Nat} (hw : 0 < w) (x y : BitVec w) :
    remResult false w x.toNat y.toNat = (if y = 0#w then x else x - y * x.sdiv y).toNat := by
  by_cases hy : y = 0#w
  · simp [remResult, hy]
  · have hr : narrow w (x.toInt.tmod y.toInt) = (x - y * x.sdiv y).toNat := by rw [narrow_toNat, ofInt_tmod]
    simp only [remResult, bitVec_toNat_eq_zero_iff, hy, signedOf_toInt w hw, hr, if_false, Bool.false_eq_true]

theorem remResult_unsigned {w : Nat} (x y : BitVec w) :
    remResult true w x.toNat y.toNat = (if y = 0#w then x else x - y * (x / y)).toNat := by
  by_cases hy : y = 0#w
  · simp [remResult, hy]
  · simp only [remResult, bitVec_toNat_eq_zero_iff, hy, ← umod_eq_sub_mul_udiv, BitVec.toNat_umod, if_false, if_true]

/-- Settles O16: away from a zero divisor the model divides the integers of its operands, signed or unsigned. -/
theorem integerDivision : Obligations.IntegerDivision := by
  unfold Obligations.IntegerDivision
  refine ⟨?div, ?udiv, ?rem, ?urem, ?overflow⟩
  case div =>
    exact intCompletes_of_noFlag (divResult false) divResult_signed
  case udiv =>
    exact intCompletes_of_noFlag (divResult true) fun _ => divResult_unsigned
  case rem =>
    exact intCompletes_of_noFlag (remResult false) remResult_signed
  case urem =>
    exact intCompletes_of_noFlag (remResult true) fun _ => remResult_unsigned
  case overflow =>
    intro w _
    rw [← BitVec.neg_one_eq_allOnes, BitVec.intMin_sdiv_neg_one]

/-! ## Bitwise operations, minimum and maximum (R101, R106) -/

/-- A choice by `<` is the choice by `≤` where equal keys leave nothing to choose. -/
theorem ite_lt_eq_ite_le {α β : Type} [LinearOrder β] {a b : β} {x y : α} (h : a = b → x = y) :
    (if a < b then x else y) = if a ≤ b then x else y := by
  rcases lt_trichotomy a b with hlt | heq | hgt
  · rw [if_pos hlt, if_pos hlt.le]
  · rw [h heq, ite_self, ite_self]
  · rw [if_neg hgt.not_gt, if_neg hgt.not_ge]

/-- MIN and MAX choose by the signed reading of their operands. -/
theorem minMaxInt_signed {w : Nat} (hw : 0 < w) (x y : BitVec w) :
    minMaxInt false false w x.toNat y.toNat = (if x.toInt ≤ y.toInt then x else y).toNat ∧
      minMaxInt true false w x.toNat y.toNat = (if x.toInt ≤ y.toInt then y else x).toNat := by
  have hxy : x.toInt = y.toInt → x = y := BitVec.eq_of_toInt_eq
  rw [← ite_lt_eq_ite_le hxy, ← ite_lt_eq_ite_le fun h => (hxy h).symm]
  by_cases hlt : x.toInt < y.toInt <;> simp [minMaxInt, signedOf_toInt w hw, hlt]

/-- MIN.U and MAX.U choose by the unsigned reading of their operands. -/
theorem minMaxInt_unsigned {w : Nat} (x y : BitVec w) :
    minMaxInt false true w x.toNat y.toNat = (if x.toNat ≤ y.toNat then x else y).toNat ∧
      minMaxInt true true w x.toNat y.toNat = (if x.toNat ≤ y.toNat then y else x).toNat := by
  have hxy : x.toNat = y.toNat → x = y := BitVec.eq_of_toNat_eq
  rw [← ite_lt_eq_ite_le hxy, ← ite_lt_eq_ite_le fun h => (hxy h).symm]
  by_cases hlt : x.toNat < y.toNat <;> simp [minMaxInt, hlt]

theorem andn_toNat {w : Nat} (x y : BitVec w) : x.toNat &&& (2 ^ w - 1 - y.toNat) = (x &&& ~~~y).toNat := by
  rw [BitVec.toNat_and, BitVec.toNat_not]

/-- Settles O17: the model's operations on numbers are those on words, and MIN and MAX choose by order, where operands that
read the same are the same. -/
theorem integerBitwiseMinMax : Obligations.IntegerBitwiseMinMax := by
  unfold Obligations.IntegerBitwiseMinMax
  refine ⟨⟨?and, ?or, ?xor, ?andn⟩, ?min, ?minu, ?max, ?maxu⟩
  case and =>
    exact intCompletes_of_noFlag (fun _ x y => x &&& y) fun _ x y => (BitVec.toNat_and x y).symm
  case or =>
    exact intCompletes_of_noFlag (fun _ x y => x ||| y) fun _ x y => (BitVec.toNat_or x y).symm
  case xor =>
    exact intCompletes_of_noFlag (fun _ x y => x ^^^ y) fun _ x y => (BitVec.toNat_xor x y).symm
  case andn =>
    exact intCompletes_of_noFlag (fun w x y => x &&& (2 ^ w - 1 - y)) fun _ => andn_toNat
  case min =>
    exact intCompletes_of_noFlag (minMaxInt false false) fun hw x y => (minMaxInt_signed hw x y).1
  case minu =>
    exact intCompletes_of_noFlag (minMaxInt false true) fun _ x y => (minMaxInt_unsigned x y).1
  case max =>
    exact intCompletes_of_noFlag (minMaxInt true false) fun hw x y => (minMaxInt_signed hw x y).2
  case maxu =>
    exact intCompletes_of_noFlag (minMaxInt true true) fun _ x y => (minMaxInt_unsigned x y).2

/-! ## Shifts and rotates (R105) -/

theorem shlResult_toNat {w : Nat} (x y : BitVec w) : shlResult w x.toNat y.toNat = (x <<< (y.toNat % w)).toNat := by
  rw [shlResult, BitVec.toNat_shiftLeft, Nat.shiftLeft_eq]

theorem shrResult_toNat {w : Nat} (x y : BitVec w) : shrResult w x.toNat y.toNat = (x >>> (y.toNat % w)).toNat := by
  rw [shrResult, BitVec.toNat_ushiftRight, Nat.shiftRight_eq_div_pow]

theorem sraResult_toNat {w : Nat} (hw : 0 < w) (x y : BitVec w) :
    sraResult w x.toNat y.toNat = (x.sshiftRight (y.toNat % w)).toNat := by
  rw [sraResult, signedOf_toInt w hw, narrow_toNat, BitVec.sshiftRight, Int.shiftRight_eq_div_pow]

/-- The bits that a rotate brings round lie below those that it moves up, so their sum is their union. -/
theorem rotResult_toNat {w : Nat} (hw : 0 < w) (x y : BitVec w) :
    rotResult w x.toNat y.toNat = (x.rotateLeft (y.toNat % w)).toNat := by
  have hcount : y.toNat % w < w := Nat.mod_lt _ hw
  have hround : x.toNat / 2 ^ (w - y.toNat % w) < 2 ^ (y.toNat % w) := by
    rw [Nat.div_lt_iff_lt_mul (by positivity), ← pow_add, Nat.add_sub_cancel' hcount.le]
    exact x.isLt
  have hfit : x.toNat / 2 ^ (w - y.toNat % w) < 2 ^ w := (Nat.div_le_self _ _).trans_lt x.isLt
  rw [rotResult, BitVec.toNat_rotateLeft, Nat.mod_mod, Nat.shiftRight_eq_div_pow, ← Nat.shiftLeft_eq,
    Nat.shiftLeft_add_eq_or_of_lt hround, Nat.or_mod_two_pow, Nat.mod_eq_of_lt hfit]

/-- Settles O18: the model reduces each count by the width of its type and multiplies or divides by that power of two. -/
theorem integerShifts : Obligations.IntegerShifts := by
  unfold Obligations.IntegerShifts
  refine ⟨?shl, ?shr, ?sra, ?rot⟩
  case shl =>
    exact intCompletes_of_noFlag shlResult fun _ => shlResult_toNat
  case shr =>
    exact intCompletes_of_noFlag shrResult fun _ => shrResult_toNat
  case sra =>
    exact intCompletes_of_noFlag sraResult sraResult_toNat
  case rot =>
    exact intCompletes_of_noFlag rotResult rotResult_toNat

end Sys2Proof.Machine
end

section
/-! The codec (spec/02): what the decoder finds in the word of an instruction, and that a word that decodes is the word of what
it decodes to. Both directions are one case per row of the encoding tables; a row's fields are read off by arithmetic. -/

namespace Sys2Proof

open Sys2Proof

set_option Elab.async false

/-! ## Codes as fields -/

@[simp] theorem IntTy.ofCode_eq_some_iff {n : Nat} {x : IntTy} : IntTy.ofCode? n = some x ↔ n = x.code :=
  ⟨fun h => (IntTy.code_of_ofCode h).symm, fun h => h ▸ x.ofCode_code⟩

def IntTy.field (x : IntTy) : BitVec 1 := BitVec.ofNat 1 x.code

@[simp] theorem IntTy.code_eq_field (x : IntTy) : x.code = x.field.toNat := by cases x <;> rfl

@[simp] theorem FTy.ofCode_eq_some_iff {n : Nat} {x : FTy} : FTy.ofCode? n = some x ↔ n = x.code :=
  ⟨fun h => (FTy.code_of_ofCode h).symm, fun h => h ▸ x.ofCode_code⟩

def FTy.field (x : FTy) : BitVec 3 := BitVec.ofNat 3 x.code

@[simp] theorem FTy.code_eq_field (x : FTy) : x.code = x.field.toNat := by cases x <;> rfl

@[simp] theorem Fmt.ofCode_eq_some_iff {n : Nat} {x : Fmt} : Fmt.ofCode? n = some x ↔ n = x.code :=
  ⟨fun h => (Fmt.code_of_ofCode h).symm, fun h => h ▸ x.ofCode_code⟩

def Fmt.field (x : Fmt) : BitVec 3 := BitVec.ofNat 3 x.code

@[simp] theorem Fmt.code_eq_field (x : Fmt) : x.code = x.field.toNat := by cases x <;> rfl

@[simp] theorem DotTy.ofCode_eq_some_iff {n : Nat} {x : DotTy} : DotTy.ofCode? n = some x ↔ n = x.code :=
  ⟨fun h => (DotTy.code_of_ofCode h).symm, fun h => h ▸ x.ofCode_code⟩

def DotTy.field (x : DotTy) : BitVec 3 := BitVec.ofNat 3 x.code

@[simp] theorem DotTy.code_eq_field (x : DotTy) : x.code = x.field.toNat := by cases x <;> rfl

@[simp] theorem Rm.ofCode_eq_some_iff {n : Nat} {x : Rm} : Rm.ofCode? n = some x ↔ n = x.code :=
  ⟨fun h => (Rm.code_of_ofCode h).symm, fun h => h ▸ x.ofCode_code⟩

def Rm.field (x : Rm) : BitVec 3 := BitVec.ofNat 3 x.code

@[simp] theorem Rm.code_eq_field (x : Rm) : x.code = x.field.toNat := by cases x <;> rfl

@[simp] theorem AddMode.ofCode_eq_some_iff {n : Nat} {x : AddMode} : AddMode.ofCode? n = some x ↔ n = x.code :=
  ⟨fun h => (AddMode.code_of_ofCode h).symm, fun h => h ▸ x.ofCode_code⟩

def AddMode.field (x : AddMode) : BitVec 2 := BitVec.ofNat 2 x.code

@[simp] theorem AddMode.code_eq_field (x : AddMode) : x.code = x.field.toNat := by cases x <;> rfl

@[simp] theorem MulhMode.ofCode_eq_some_iff {n : Nat} {x : MulhMode} : MulhMode.ofCode? n = some x ↔ n = x.code :=
  ⟨fun h => (MulhMode.code_of_ofCode h).symm, fun h => h ▸ x.ofCode_code⟩

def MulhMode.field (x : MulhMode) : BitVec 2 := BitVec.ofNat 2 x.code

@[simp] theorem MulhMode.code_eq_field (x : MulhMode) : x.code = x.field.toNat := by cases x <;> rfl

@[simp] theorem CmpCond.ofCode_eq_some_iff {n : Nat} {x : CmpCond} : CmpCond.ofCode? n = some x ↔ n = x.code :=
  ⟨fun h => (CmpCond.code_of_ofCode h).symm, fun h => h ▸ x.ofCode_code⟩

def CmpCond.field (x : CmpCond) : BitVec 3 := BitVec.ofNat 3 x.code

@[simp] theorem CmpCond.code_eq_field (x : CmpCond) : x.code = x.field.toNat := by cases x <;> rfl

@[simp] theorem FCmpCond.ofCode_eq_some_iff {n : Nat} {x : FCmpCond} : FCmpCond.ofCode? n = some x ↔ n = x.code :=
  ⟨fun h => (FCmpCond.code_of_ofCode h).symm, fun h => h ▸ x.ofCode_code⟩

def FCmpCond.field (x : FCmpCond) : BitVec 3 := BitVec.ofNat 3 x.code

@[simp] theorem FCmpCond.code_eq_field (x : FCmpCond) : x.code = x.field.toNat := by cases x <;> rfl

@[simp] theorem CvtInt.ofCode_eq_some_iff {n : Nat} {x : CvtInt} : CvtInt.ofCode? n = some x ↔ n = x.code :=
  ⟨fun h => (CvtInt.code_of_ofCode h).symm, fun h => h ▸ x.ofCode_code⟩

def CvtInt.field (x : CvtInt) : BitVec 2 := BitVec.ofNat 2 x.code

@[simp] theorem CvtInt.code_eq_field (x : CvtInt) : x.code = x.field.toNat := by cases x <;> rfl

@[simp] theorem VRedFn.ofCode_eq_some_iff {n : Nat} {x : VRedFn} : VRedFn.ofCode? n = some x ↔ n = x.code :=
  ⟨fun h => (VRedFn.code_of_ofCode h).symm, fun h => h ▸ x.ofCode_code⟩

def VRedFn.field (x : VRedFn) : BitVec 2 := BitVec.ofNat 2 x.code

@[simp] theorem VRedFn.code_eq_field (x : VRedFn) : x.code = x.field.toNat := by cases x <;> rfl

@[simp] theorem LodeFn.ofCode_eq_some_iff {n : Nat} {x : LodeFn} : LodeFn.ofCode? n = some x ↔ n = x.code :=
  ⟨fun h => (LodeFn.code_of_ofCode h).symm, fun h => h ▸ x.ofCode_code⟩

def LodeFn.field (x : LodeFn) : BitVec 2 := BitVec.ofNat 2 x.code

@[simp] theorem LodeFn.code_eq_field (x : LodeFn) : x.code = x.field.toNat := by cases x <;> rfl

@[simp] theorem SegSel.ofCode_eq_some_iff {n : Nat} {x : SegSel} : SegSel.ofCode? n = some x ↔ n = x.code :=
  ⟨fun h => (SegSel.code_of_ofCode h).symm, fun h => h ▸ x.ofCode_code⟩

def SegSel.field (x : SegSel) : BitVec 2 := BitVec.ofNat 2 x.code

@[simp] theorem SegSel.code_eq_field (x : SegSel) : x.code = x.field.toNat := by cases x <;> rfl

@[simp] theorem FenceKind.ofCode_eq_some_iff {n : Nat} {x : FenceKind} : FenceKind.ofCode? n = some x ↔ n = x.code :=
  ⟨fun h => (FenceKind.code_of_ofCode h).symm, fun h => h ▸ x.ofCode_code⟩

def FenceKind.field (x : FenceKind) : BitVec 2 := BitVec.ofNat 2 x.code

@[simp] theorem FenceKind.code_eq_field (x : FenceKind) : x.code = x.field.toNat := by cases x <;> rfl

@[simp] theorem Scope.ofCode_eq_some_iff {n : Nat} {x : Scope} : Scope.ofCode? n = some x ↔ n = x.code :=
  ⟨fun h => (Scope.code_of_ofCode h).symm, fun h => h ▸ x.ofCode_code⟩

def Scope.field (x : Scope) : BitVec 3 := BitVec.ofNat 3 x.code

@[simp] theorem Scope.code_eq_field (x : Scope) : x.code = x.field.toNat := by cases x <;> rfl

@[simp] theorem AtomOp.ofCode_eq_some_iff {n : Nat} {x : AtomOp} : AtomOp.ofCode? n = some x ↔ n = x.code :=
  ⟨fun h => (AtomOp.code_of_ofCode h).symm, fun h => h ▸ x.ofCode_code⟩

def AtomOp.field (x : AtomOp) : BitVec 3 := BitVec.ofNat 3 x.code

@[simp] theorem AtomOp.code_eq_field (x : AtomOp) : x.code = x.field.toNat := by cases x <;> rfl

@[simp] theorem RedOp.ofCode_eq_some_iff {n : Nat} {x : RedOp} : RedOp.ofCode? n = some x ↔ n = x.code :=
  ⟨fun h => (RedOp.code_of_ofCode h).symm, fun h => h ▸ x.ofCode_code⟩

def RedOp.field (x : RedOp) : Fin 6 := Fin.ofNat 6 x.code

@[simp] theorem RedOp.code_eq_field (x : RedOp) : x.code = x.field.val := by cases x <;> rfl

@[simp] theorem RowFn.ofCode_eq_some_iff {n : Nat} {x : RowFn} : RowFn.ofCode? n = some x ↔ n = x.code :=
  ⟨fun h => (RowFn.code_of_ofCode h).symm, fun h => h ▸ x.ofCode_code⟩

def RowFn.field (x : RowFn) : Fin 5 := Fin.ofNat 5 (x.code - 2)

@[simp] theorem RowFn.code_eq_field (x : RowFn) : x.code = x.field.val + 2 := by cases x <;> rfl

@[simp] theorem Sz.ofCode_eq_some_iff {n : Nat} {x : Sz} : Sz.ofCode? n = some x ↔ n = x.code :=
  ⟨fun h => (Sz.code_of_ofCode h).symm, fun h => h ▸ x.ofCode_code⟩

def Sz.field (x : Sz) : BitVec 2 := BitVec.ofNat 2 x.code

@[simp] theorem Sz.code_eq_field (x : Sz) : x.code = x.field.toNat := by cases x <;> rfl

@[simp] theorem MReg.ofCode_eq_some_iff {n : Nat} {x : MReg} : MReg.ofCode? n = some x ↔ n = x.code :=
  ⟨fun h => (MReg.code_of_ofCode h).symm, fun h => h ▸ x.ofCode_code⟩

def MReg.field (x : MReg) : BitVec 7 := BitVec.ofNat 7 x.code

@[simp] theorem MReg.code_eq_field (x : MReg) : x.code = x.field.toNat := by cases x <;> rfl

@[simp] theorem Fmt.ofSrcCode_eq_some_iff {n : Nat} {x : Fmt} : Fmt.ofSrcCode? n = some x ↔ n = x.srcCode :=
  ⟨fun h => (Fmt.srcCode_of_ofSrcCode h).symm, fun h => h ▸ x.ofSrcCode_srcCode⟩

def Fmt.srcField (x : Fmt) : BitVec 4 := BitVec.ofNat 4 x.srcCode

@[simp] theorem Fmt.srcCode_eq_srcField (x : Fmt) : x.srcCode = x.srcField.toNat := by cases x <;> rfl

@[simp] theorem Rm.isPlain_iff (x : Rm) : x.isPlain = true ↔ x.field.toNat < 4 := by cases x <;> decide

/-- A bit as a field of an instruction word. -/
def bitField (b : Bool) : BitVec 1 := BitVec.ofBool b

theorem toNat_eq_bitField (b : Bool) : b.toNat = (bitField b).toNat := (BitVec.toNat_ofBool b).symm

@[simp] theorem fieldAt_eq_iff {w lo len : Nat} {x : BitVec len} : fieldAt w lo len = x ↔ natAt w lo len = x.toNat :=
  ⟨fun h => by rw [← h, fieldAt_toNat], fieldAt_eq⟩

@[simp] theorem flagAt_eq_iff {w lo : Nat} {b : Bool} : flagAt w lo = b ↔ natAt w lo 1 = (bitField b).toNat := by
  have hbit := natAt_lt w lo 1
  rw [flagAt_eq, ← toNat_eq_bitField]
  cases b <;> simp <;> omega

theorem flagAt_toNat (w lo : Nat) : (flagAt w lo).toNat = natAt w lo 1 := by
  rw [flagAt_eq_iff.1 (Eq.refl (flagAt w lo)), toNat_eq_bitField]

/-! ## The two forms of a word -/

theorem decodeFields_wordC {u : Bool} {op low : Nat} (hop : op < 64) (hlow : low < 2 ^ 24) :
    decodeFields (u.toNat * 2 ^ 30 + op * 2 ^ 24 + low) = decodeC op low u := by
  have hu := Bool.toNat_lt u
  have h31 : natAt (u.toNat * 2 ^ 30 + op * 2 ^ 24 + low) 31 1 = 0 := by unfold natAt; omega
  have h24 : natAt (u.toNat * 2 ^ 30 + op * 2 ^ 24 + low) 24 6 = op := by unfold natAt; omega
  have h0 : natAt (u.toNat * 2 ^ 30 + op * 2 ^ 24 + low) 0 24 = low := by unfold natAt; omega
  have h30 : flagAt (u.toNat * 2 ^ 30 + op * 2 ^ 24 + low) 30 = u :=
    flagAt_eq_iff.2 (by rw [← toNat_eq_bitField]; unfold natAt; omega)
  rw [decodeFields, if_pos h31, h24, h0, h30]

theorem decodeFields_wordA {op low : Nat} (hop : op < 64) (hlow : low < 2 ^ 25) :
    decodeFields (2 ^ 31 + op * 2 ^ 25 + low) = decodeA op low := by
  have h31 : ¬ natAt (2 ^ 31 + op * 2 ^ 25 + low) 31 1 = 0 := by unfold natAt; omega
  have h25 : natAt (2 ^ 31 + op * 2 ^ 25 + low) 25 6 = op := by unfold natAt; omega
  have h0 : natAt (2 ^ 31 + op * 2 ^ 25 + low) 0 25 = low := by unfold natAt; omega
  rw [decodeFields, if_neg h31, h25, h0]

theorem fits_and_decodes_wordC {u : Bool} {op low : Nat} {i : Instr} (hop : op < 64) (hlow : low < 2 ^ 24)
    (h : decodeC op low u = some i) : u.toNat * 2 ^ 30 + op * 2 ^ 24 + low < 2 ^ 32 ∧
      decodeFields (u.toNat * 2 ^ 30 + op * 2 ^ 24 + low) = some i := by
  have hu := Bool.toNat_lt u
  exact ⟨by omega, (decodeFields_wordC hop hlow).trans h⟩

theorem fits_and_decodes_wordA {op low : Nat} {i : Instr} (hop : op < 64) (hlow : low < 2 ^ 25) (h : decodeA op low = some i) :
    2 ^ 31 + op * 2 ^ 25 + low < 2 ^ 32 ∧ decodeFields (2 ^ 31 + op * 2 ^ 25 + low) = some i :=
  ⟨by omega, (decodeFields_wordA hop hlow).trans h⟩

/-! ## Encoding, then decoding

The rows of the opcode table in its order, a score of them at a time: what the encoder places is what the decoder reads. -/

theorem fits_and_decodes_rows0to15 {i : Instr} {n : Nat} (hlo : 0 ≤ i.ctorIdx) (hhi : i.ctorIdx < 16)
    (h : encodeNat i = some n) : n < 2 ^ 32 ∧ decodeFields n = some i := by
  cases i
  all_goals try (exact absurd hhi (Nat.not_lt.2 (Nat.le_of_ble_eq_true rfl)))
  all_goals try (exact absurd hlo (Nat.not_le.2 (Nat.le_of_ble_eq_true rfl)))
  all_goals
    clear hlo hhi
    simp only [encodeNat, wordC, Option.some.injEq] at h
    rw [← h]
    refine fits_and_decodes_wordC (by decide) (by simp [placed, toNat_eq_bitField] <;> omega) ?_
    generalize hlow : placed _ = low
    simp [placed, toNat_eq_bitField] at hlow
    simp [decodeC, decC00, decC01, decC02, decC03, decC04, decC05, decC06, decC07, ite_eq_iff, Option.bind_eq_some_iff]
    simp only [natAt, Nat.reducePow]
    omega

theorem fits_and_decodes_rows16to31 {i : Instr} {n : Nat} (hlo : 16 ≤ i.ctorIdx) (hhi : i.ctorIdx < 32)
    (h : encodeNat i = some n) : n < 2 ^ 32 ∧ decodeFields n = some i := by
  cases i
  all_goals try (exact absurd hhi (Nat.not_lt.2 (Nat.le_of_ble_eq_true rfl)))
  all_goals try (exact absurd hlo (Nat.not_le.2 (Nat.le_of_ble_eq_true rfl)))
  all_goals
    clear hlo hhi
    simp only [encodeNat, wordC, Option.some.injEq] at h
    rw [← h]
    refine fits_and_decodes_wordC (by decide) (by simp [placed, toNat_eq_bitField] <;> omega) ?_
    generalize hlow : placed _ = low
    simp [placed, toNat_eq_bitField] at hlow
    simp [decodeC, decC08, decC09, decC0A, decC10, decC11, decC12, decC13, decC14, decC15, decC16, ite_eq_iff,
      Option.bind_eq_some_iff]
    simp only [natAt, Nat.reducePow]
    omega

theorem fits_and_decodes_rows32to47 {i : Instr} {n : Nat} (hlo : 32 ≤ i.ctorIdx) (hhi : i.ctorIdx < 48)
    (h : encodeNat i = some n) : n < 2 ^ 32 ∧ decodeFields n = some i := by
  cases i
  all_goals try (exact absurd hhi (Nat.not_lt.2 (Nat.le_of_ble_eq_true rfl)))
  all_goals try (exact absurd hlo (Nat.not_le.2 (Nat.le_of_ble_eq_true rfl)))
  all_goals
    clear hlo hhi
    simp only [encodeNat, wordC, Option.some.injEq] at h
    rw [← h]
    refine fits_and_decodes_wordC (by decide) (by simp [placed, toNat_eq_bitField] <;> omega) ?_
    generalize hlow : placed _ = low
    simp [placed, toNat_eq_bitField] at hlow
    simp [decodeC, decC17, decC18, decC19, decC1A, decC1B, decC1C, decC1D, decC1E, decC1F, decC20, decC21, decC22,
      ite_eq_iff, Option.bind_eq_some_iff]
    simp only [natAt, Nat.reducePow]
    omega

theorem fits_and_decodes_rows48to63 {i : Instr} {n : Nat} (hlo : 48 ≤ i.ctorIdx) (hhi : i.ctorIdx < 64)
    (h : encodeNat i = some n) : n < 2 ^ 32 ∧ decodeFields n = some i := by
  cases i
  all_goals try (exact absurd hhi (Nat.not_lt.2 (Nat.le_of_ble_eq_true rfl)))
  all_goals try (exact absurd hlo (Nat.not_le.2 (Nat.le_of_ble_eq_true rfl)))
  all_goals
    clear hlo hhi
    simp only [encodeNat, wordC, Option.some.injEq] at h
    rw [← h]
    refine fits_and_decodes_wordC (by decide) (by simp [placed, toNat_eq_bitField] <;> omega) ?_
    generalize hlow : placed _ = low
    simp [placed, toNat_eq_bitField] at hlow
    simp [decodeC, decC22, decC23, decC24, decC25, decC26, decC27, decC28, decC29, ite_eq_iff, Option.bind_eq_some_iff]
    simp only [natAt, Nat.reducePow]
    omega

theorem fits_and_decodes_rows64to79 {i : Instr} {n : Nat} (hlo : 64 ≤ i.ctorIdx) (hhi : i.ctorIdx < 80)
    (h : encodeNat i = some n) : n < 2 ^ 32 ∧ decodeFields n = some i := by
  cases i
  all_goals try (exact absurd hhi (Nat.not_lt.2 (Nat.le_of_ble_eq_true rfl)))
  all_goals try (exact absurd hlo (Nat.not_le.2 (Nat.le_of_ble_eq_true rfl)))
  all_goals
    clear hlo hhi
    simp only [encodeNat, wordC, Option.some.injEq] at h
    rw [← h]
    refine fits_and_decodes_wordC (by decide) (by simp [placed, toNat_eq_bitField] <;> omega) ?_
    generalize hlow : placed _ = low
    simp [placed, toNat_eq_bitField] at hlow
    simp [decodeC, decC29, decC2A, decC2B, decC2C, decC2D, decC2E, decC2F, ite_eq_iff, Option.bind_eq_some_iff]
    simp only [natAt, Nat.reducePow]
    omega

theorem fits_and_decodes_rows80to92 {i : Instr} {n : Nat} (hlo : 80 ≤ i.ctorIdx) (hhi : i.ctorIdx < 93)
    (h : encodeNat i = some n) : n < 2 ^ 32 ∧ decodeFields n = some i := by
  cases i
  all_goals try (exact absurd hhi (Nat.not_lt.2 (Nat.le_of_ble_eq_true rfl)))
  all_goals try (exact absurd hlo (Nat.not_le.2 (Nat.le_of_ble_eq_true rfl)))
  all_goals
    clear hlo hhi
    simp only [encodeNat, wordC, Option.some.injEq] at h
    rw [← h]
    refine fits_and_decodes_wordC (by decide) (by simp [placed, toNat_eq_bitField] <;> omega) ?_
    generalize hlow : placed _ = low
    simp [placed, toNat_eq_bitField] at hlow
    simp [decodeC, decC2F, decC30, decC31, decC32, decC33, decC34, ite_eq_iff, Option.bind_eq_some_iff]
    simp only [natAt, Nat.reducePow]
    omega

theorem fits_and_decodes_rows93to108 {i : Instr} {n : Nat} (hlo : 93 ≤ i.ctorIdx) (hhi : i.ctorIdx < 109)
    (h : encodeNat i = some n) : n < 2 ^ 32 ∧ decodeFields n = some i := by
  cases i
  all_goals try (exact absurd hhi (Nat.not_lt.2 (Nat.le_of_ble_eq_true rfl)))
  all_goals try (exact absurd hlo (Nat.not_le.2 (Nat.le_of_ble_eq_true rfl)))
  all_goals
    clear hlo hhi
    simp only [encodeNat, wordA, Option.some.injEq] at h
    rw [← h]
    refine fits_and_decodes_wordA (by decide) (by simp [placed, toNat_eq_bitField] <;> omega) ?_
    generalize hlow : placed _ = low
    simp [placed, toNat_eq_bitField] at hlow
    simp [decodeA, decA00, decA01, decA02, decA03, decA04, decA05, decA06, decA07, ite_eq_iff, Option.bind_eq_some_iff]
    simp only [natAt, Nat.reducePow]
    omega

theorem fits_and_decodes_rows109to124 {i : Instr} {n : Nat} (hlo : 109 ≤ i.ctorIdx) (hhi : i.ctorIdx < 125)
    (h : encodeNat i = some n) : n < 2 ^ 32 ∧ decodeFields n = some i := by
  cases i
  all_goals try (exact absurd hhi (Nat.not_lt.2 (Nat.le_of_ble_eq_true rfl)))
  all_goals try (exact absurd hlo (Nat.not_le.2 (Nat.le_of_ble_eq_true rfl)))
  all_goals
    clear hlo hhi
    simp only [encodeNat, wordA, Option.some.injEq] at h
    rw [← h]
    refine fits_and_decodes_wordA (by decide) (by simp [placed, toNat_eq_bitField] <;> omega) ?_
    generalize hlow : placed _ = low
    simp [placed, toNat_eq_bitField] at hlow
    simp [decodeA, decA08, decA09, decA0A, decA0B, decA0C, decA0D, decA0E, decA0F, ite_eq_iff, Option.bind_eq_some_iff]
    simp only [natAt, Nat.reducePow]
    omega

theorem fits_and_decodes_rows125to140 {i : Instr} {n : Nat} (hlo : 125 ≤ i.ctorIdx) (hhi : i.ctorIdx < 141)
    (h : encodeNat i = some n) : n < 2 ^ 32 ∧ decodeFields n = some i := by
  cases i
  all_goals try (exact absurd hhi (Nat.not_lt.2 (Nat.le_of_ble_eq_true rfl)))
  all_goals try (exact absurd hlo (Nat.not_le.2 (Nat.le_of_ble_eq_true rfl)))
  all_goals
    clear hlo hhi
    simp only [encodeNat, wordA, Option.some.injEq] at h
    rw [← h]
    refine fits_and_decodes_wordA (by decide) (by simp [placed, toNat_eq_bitField] <;> omega) ?_
    generalize hlow : placed _ = low
    simp [placed, toNat_eq_bitField] at hlow
    simp [decodeA, decA10, decA11, decA12, decA13, decA14, ite_eq_iff, Option.bind_eq_some_iff]
    simp only [natAt, Nat.reducePow]
    omega

theorem fits_and_decodes_rows141to156 {i : Instr} {n : Nat} (hlo : 141 ≤ i.ctorIdx) (hhi : i.ctorIdx < 157)
    (h : encodeNat i = some n) : n < 2 ^ 32 ∧ decodeFields n = some i := by
  cases i
  all_goals try (exact absurd hhi (Nat.not_lt.2 (Nat.le_of_ble_eq_true rfl)))
  all_goals try (exact absurd hlo (Nat.not_le.2 (Nat.le_of_ble_eq_true rfl)))
  all_goals
    clear hlo hhi
    simp only [encodeNat, wordA, Option.some.injEq] at h
    rw [← h]
    refine fits_and_decodes_wordA (by decide) (by simp [placed, toNat_eq_bitField] <;> omega) ?_
    generalize hlow : placed _ = low
    simp [placed, toNat_eq_bitField] at hlow
    simp [decodeA, decA14, decA15, decA16, decA17, decA18, decA19, decA1A, decA1B, decA1C, ite_eq_iff,
      Option.bind_eq_some_iff]
    simp only [natAt, Nat.reducePow]
    omega

theorem fits_and_decodes_rows157to172 {i : Instr} {n : Nat} (hlo : 157 ≤ i.ctorIdx) (hhi : i.ctorIdx < 173)
    (h : encodeNat i = some n) : n < 2 ^ 32 ∧ decodeFields n = some i := by
  cases i
  all_goals try (exact absurd hhi (Nat.not_lt.2 (Nat.le_of_ble_eq_true rfl)))
  all_goals try (exact absurd hlo (Nat.not_le.2 (Nat.le_of_ble_eq_true rfl)))
  all_goals
    clear hlo hhi
    simp only [encodeNat, wordA, Option.some.injEq] at h
    rw [← h]
    refine fits_and_decodes_wordA (by decide) (by simp [placed, toNat_eq_bitField] <;> omega) ?_
    generalize hlow : placed _ = low
    simp [placed, toNat_eq_bitField] at hlow
    simp [decodeA, decA1D, decA20, decA21, decA22, decA23, decA24, decA25, decA26, decA27, ite_eq_iff,
      Option.bind_eq_some_iff]
    simp only [natAt, Nat.reducePow]
    omega

theorem fits_and_decodes_rows173to188 {i : Instr} {n : Nat} (hlo : 173 ≤ i.ctorIdx) (hhi : i.ctorIdx < 189)
    (h : encodeNat i = some n) : n < 2 ^ 32 ∧ decodeFields n = some i := by
  cases i
  all_goals try (exact absurd hhi (Nat.not_lt.2 (Nat.le_of_ble_eq_true rfl)))
  all_goals try (exact absurd hlo (Nat.not_le.2 (Nat.le_of_ble_eq_true rfl)))
  all_goals
    clear hlo hhi
    simp only [encodeNat, wordA, Option.some.injEq] at h
    rw [← h]
    refine fits_and_decodes_wordA (by decide) (by simp [placed, toNat_eq_bitField] <;> omega) ?_
    generalize hlow : placed _ = low
    simp [placed, toNat_eq_bitField] at hlow
    simp [decodeA, decA27, decA28, decA29, decA2A, decA2B, decA2C, decA2D, ite_eq_iff, Option.bind_eq_some_iff]
    simp only [natAt, Nat.reducePow]
    omega

theorem fits_and_decodes_rows189to196 {i : Instr} {n : Nat} (hlo : 189 ≤ i.ctorIdx) (hhi : i.ctorIdx < 197)
    (hw : i.wellFormed = true)
    (h : encodeNat i = some n) : n < 2 ^ 32 ∧ decodeFields n = some i := by
  cases i
  all_goals try (exact absurd hhi (Nat.not_lt.2 (Nat.le_of_ble_eq_true rfl)))
  all_goals try (exact absurd hlo (Nat.not_le.2 (Nat.le_of_ble_eq_true rfl)))
  all_goals
    clear hlo hhi
    simp only [Instr.wellFormed, Rm.isPlain_iff] at hw
    simp only [encodeNat, wordA, Option.some.injEq] at h
    rw [← h]
    refine fits_and_decodes_wordA (by decide) (by simp [placed, toNat_eq_bitField] <;> omega) ?_
    generalize hlow : placed _ = low
    simp [placed, toNat_eq_bitField] at hlow
    simp [decodeA, decA2D, decA2E, decA2F, decA30, decA31, decA32, decA33, decA34, ite_eq_iff, Option.bind_eq_some_iff]
    simp only [natAt, Nat.reducePow]
    omega

theorem fits_and_decodes_rows197to204 {i : Instr} {n : Nat} (hlo : 197 ≤ i.ctorIdx) (hhi : i.ctorIdx < 205)
    (hw : i.wellFormed = true)
    (h : encodeNat i = some n) : n < 2 ^ 32 ∧ decodeFields n = some i := by
  cases i
  all_goals try (exact absurd hhi (Nat.not_lt.2 (Nat.le_of_ble_eq_true rfl)))
  all_goals try (exact absurd hlo (Nat.not_le.2 (Nat.le_of_ble_eq_true rfl)))
  all_goals
    clear hlo hhi
    simp only [Instr.wellFormed, Rm.isPlain_iff] at hw
    simp only [encodeNat, wordA, Option.some.injEq] at h
    rw [← h]
    refine fits_and_decodes_wordA (by decide) (by simp [placed, toNat_eq_bitField] <;> omega) ?_
    generalize hlow : placed _ = low
    simp [placed, toNat_eq_bitField] at hlow
    simp [decodeA, decA2D, decA2E, decA2F, decA30, decA31, decA32, decA33, decA34, ite_eq_iff, Option.bind_eq_some_iff]
    simp only [natAt, Nat.reducePow]
    omega

theorem fits_and_decodes_rows205to220 {i : Instr} {n : Nat} (hlo : 205 ≤ i.ctorIdx) (hhi : i.ctorIdx < 221)
    (hw : i.wellFormed = true)
    (h : encodeNat i = some n) : n < 2 ^ 32 ∧ decodeFields n = some i := by
  cases i
  all_goals try (exact absurd hhi (Nat.not_lt.2 (Nat.le_of_ble_eq_true rfl)))
  all_goals try (exact absurd hlo (Nat.not_le.2 (Nat.le_of_ble_eq_true rfl)))
  all_goals
    clear hlo hhi
    simp only [Instr.wellFormed, Rm.isPlain_iff] at hw
    simp only [encodeNat, wordA, Option.some.injEq] at h
    rw [← h]
    refine fits_and_decodes_wordA (by decide) (by simp [placed, toNat_eq_bitField] <;> omega) ?_
    generalize hlow : placed _ = low
    simp [placed, toNat_eq_bitField] at hlow
    simp [decodeA, decA34, decA35, decA36, decA38, decA39, decA3A, decA3B, decA3C, decA3D, ite_eq_iff,
      Option.bind_eq_some_iff]
    simp only [natAt, Nat.reducePow]
    omega

theorem fits_and_decodes_rows221to223 {i : Instr} {n : Nat} (hlo : 221 ≤ i.ctorIdx) (hhi : i.ctorIdx < 224)
    (h : encodeNat i = some n) : n < 2 ^ 32 ∧ decodeFields n = some i := by
  cases i
  all_goals try (exact absurd hhi (Nat.not_lt.2 (Nat.le_of_ble_eq_true rfl)))
  all_goals try (exact absurd hlo (Nat.not_le.2 (Nat.le_of_ble_eq_true rfl)))
  all_goals
    clear hlo hhi
    simp only [encodeNat, wordA, Option.some.injEq] at h
    rw [← h]
    refine fits_and_decodes_wordA (by decide) (by simp [placed, toNat_eq_bitField] <;> omega) ?_
    generalize hlow : placed _ = low
    simp [placed, toNat_eq_bitField] at hlow
    simp [decodeA, decA3E, decA3F, ite_eq_iff, Option.bind_eq_some_iff]
    simp only [natAt, Nat.reducePow]
    omega

/-! ## Decoding, then encoding -/

/-- A row of a decoder function either answers or leaves the word to the next row. -/
theorem row_elim {c : Prop} [Decidable c] {x y : Option Instr} {i : Instr} {P : Prop} (h : (if c then x else y) = some i)
    (hx : x = some i → c → P) (hy : y = some i → P) : P := by
  by_cases hc : c
  · exact hx (by rwa [if_pos hc] at h) hc
  · exact hy (by rwa [if_neg hc] at h)

theorem code_elim {α : Type} {x : Option α} {f : α → Option Instr} {i : Instr} {P : Prop} (h : x.bind f = some i)
    (k : ∀ a, x = some a → f a = some i → P) : P := by
  obtain ⟨a, ha, hf⟩ := Option.bind_eq_some_iff.1 h
  exact k a ha hf

/-- The bits of w from bit lo on, in their places: what each field read takes a slice of. -/
def bitsFrom (w lo : Nat) : Nat := w / 2 ^ lo * 2 ^ lo

theorem bitsFrom_zero (w : Nat) : bitsFrom w 0 = w := by simp [bitsFrom]

theorem bitsFrom_eq_zero {w n : Nat} (h : w < 2 ^ n) : bitsFrom w n = 0 := by simp [bitsFrom, Nat.div_eq_of_lt h]

theorem natAt_mul_add_bitsFrom (w lo len : Nat) : natAt w lo len * 2 ^ lo + bitsFrom w (lo + len) = bitsFrom w lo := by
  rw [natAt, bitsFrom, bitsFrom, pow_add, ← Nat.div_div_eq_div_mul]
  conv_rhs => rw [← Nat.mod_add_div (w / 2 ^ lo) (2 ^ len)]
  ring

theorem natAt_mul_eq_sub (w lo len : Nat) : (natAt w lo len : Int) * 2 ^ lo = bitsFrom w lo - bitsFrom w (lo + len) := by
  rw [← natAt_mul_add_bitsFrom w lo len]
  push_cast
  ring

theorem natAt_eq_iff_bitsFrom {w lo len x : Nat} :
    natAt w lo len = x ↔ bitsFrom w lo = x * 2 ^ lo + bitsFrom w (lo + len) := by
  rw [← natAt_mul_add_bitsFrom w lo len]
  simp

theorem encodeNat_of_decodeC_00to0A {op low : Nat} {u : Bool} {i : Instr} (hlow : low < 2 ^ 24) (hlo : 0x00 ≤ op)
    (hhi : op ≤ 0x0A) (h : decodeC op low u = some i) : encodeNat i = wordC u op [(0, low)] := by
  have h0 := bitsFrom_zero low
  have h24 := bitsFrom_eq_zero hlow
  clear hlow
  interval_cases op
  all_goals
    dsimp only [decodeC, decC00, decC01, decC02, decC03, decC04, decC05, decC06, decC07, decC08, decC09, decC0A] at h
    repeat' first
      | with_reducible refine row_elim h ?_ ?_ <;> clear h <;> intro h
      | with_reducible refine code_elim h ?_ <;> clear h <;> intro _ _ h
      | with_reducible intro _
    all_goals cases h
    all_goals
      simp only [encodeNat, wordC, placed, Option.some.injEq, fieldAt_toNat, flagAt_toNat]
      zify
      try simp only [SegSel.ofCode_eq_some_iff, MReg.ofCode_eq_some_iff, natAt_eq_iff_bitsFrom, Nat.reduceAdd,
        Nat.reducePow] at *
      try simp only [natAt_mul_eq_sub]
      try simp only [Nat.reduceAdd, Int.reducePow]
      omega

theorem encodeNat_of_decodeC_10to17 {op low : Nat} {u : Bool} {i : Instr} (hlow : low < 2 ^ 24) (hlo : 0x10 ≤ op)
    (hhi : op ≤ 0x17) (h : decodeC op low u = some i) : encodeNat i = wordC u op [(0, low)] := by
  have h0 := bitsFrom_zero low
  have h24 := bitsFrom_eq_zero hlow
  clear hlow
  interval_cases op
  all_goals
    dsimp only [decodeC, decC10, decC11, decC12, decC13, decC14, decC15, decC16, decC17] at h
    repeat' first
      | with_reducible refine row_elim h ?_ ?_ <;> clear h <;> intro h
      | with_reducible refine code_elim h ?_ <;> clear h <;> intro _ _ h
      | with_reducible intro _
    all_goals cases h
    all_goals
      simp only [encodeNat, wordC, placed, Option.some.injEq, fieldAt_toNat, flagAt_toNat]
      zify
      try simp only [natAt_eq_iff_bitsFrom, Nat.reduceAdd, Nat.reducePow] at *
      try simp only [natAt_mul_eq_sub]
      try simp only [Nat.reduceAdd, Int.reducePow]
      omega

theorem encodeNat_of_decodeC_18to1F {op low : Nat} {u : Bool} {i : Instr} (hlow : low < 2 ^ 24) (hlo : 0x18 ≤ op)
    (hhi : op ≤ 0x1F) (h : decodeC op low u = some i) : encodeNat i = wordC u op [(0, low)] := by
  have h0 := bitsFrom_zero low
  have h24 := bitsFrom_eq_zero hlow
  clear hlow
  interval_cases op
  all_goals
    dsimp only [decodeC, decC18, decC19, decC1A, decC1B, decC1C, decC1D, decC1E, decC1F] at h
    repeat' first
      | with_reducible refine row_elim h ?_ ?_ <;> clear h <;> intro h
      | with_reducible refine code_elim h ?_ <;> clear h <;> intro _ _ h
      | with_reducible intro _
    all_goals cases h
    all_goals
      simp only [encodeNat, wordC, placed, Option.some.injEq, fieldAt_toNat, flagAt_toNat]
      zify
      try simp only [natAt_eq_iff_bitsFrom, Nat.reduceAdd, Nat.reducePow] at *
      try simp only [natAt_mul_eq_sub]
      try simp only [Nat.reduceAdd, Int.reducePow]
      omega

theorem encodeNat_of_decodeC_20to25 {op low : Nat} {u : Bool} {i : Instr} (hlow : low < 2 ^ 24) (hlo : 0x20 ≤ op)
    (hhi : op ≤ 0x25) (h : decodeC op low u = some i) : encodeNat i = wordC u op [(0, low)] := by
  have h0 := bitsFrom_zero low
  have h24 := bitsFrom_eq_zero hlow
  clear hlow
  interval_cases op
  all_goals
    dsimp only [decodeC, decC20, decC21, decC22, decC23, decC24, decC25] at h
    repeat' first
      | with_reducible refine row_elim h ?_ ?_ <;> clear h <;> intro h
      | with_reducible refine code_elim h ?_ <;> clear h <;> intro _ _ h
      | with_reducible intro _
    all_goals cases h
    all_goals
      simp only [encodeNat, wordC, placed, Option.some.injEq, fieldAt_toNat, flagAt_toNat]
      zify
      try simp only [Rm.ofCode_eq_some_iff, AtomOp.ofCode_eq_some_iff, RedOp.ofCode_eq_some_iff, Sz.ofCode_eq_some_iff,
        natAt_eq_iff_bitsFrom, Nat.reduceAdd, Nat.reducePow] at *
      try simp only [natAt_mul_eq_sub]
      try simp only [Nat.reduceAdd, Int.reducePow]
      omega

theorem encodeNat_of_decodeC_26to2B {op low : Nat} {u : Bool} {i : Instr} (hlow : low < 2 ^ 24) (hlo : 0x26 ≤ op)
    (hhi : op ≤ 0x2B) (h : decodeC op low u = some i) : encodeNat i = wordC u op [(0, low)] := by
  have h0 := bitsFrom_zero low
  have h24 := bitsFrom_eq_zero hlow
  clear hlow
  interval_cases op
  all_goals
    dsimp only [decodeC, decC26, decC27, decC28, decC29, decC2A, decC2B] at h
    repeat' first
      | with_reducible refine row_elim h ?_ ?_ <;> clear h <;> intro h
      | with_reducible refine code_elim h ?_ <;> clear h <;> intro _ _ h
      | with_reducible intro _
    all_goals cases h
    all_goals
      simp only [encodeNat, wordC, placed, Option.some.injEq, fieldAt_toNat, flagAt_toNat]
      zify
      try simp only [FenceKind.ofCode_eq_some_iff, Scope.ofCode_eq_some_iff, natAt_eq_iff_bitsFrom, Nat.reduceAdd,
        Nat.reducePow] at *
      try simp only [natAt_mul_eq_sub]
      try simp only [Nat.reduceAdd, Int.reducePow]
      omega

theorem encodeNat_of_decodeC_2Cto30 {op low : Nat} {u : Bool} {i : Instr} (hlow : low < 2 ^ 24) (hlo : 0x2C ≤ op)
    (hhi : op ≤ 0x30) (h : decodeC op low u = some i) : encodeNat i = wordC u op [(0, low)] := by
  have h0 := bitsFrom_zero low
  have h24 := bitsFrom_eq_zero hlow
  clear hlow
  interval_cases op
  all_goals
    dsimp only [decodeC, decC2C, decC2D, decC2E, decC2F, decC30] at h
    repeat' first
      | with_reducible refine row_elim h ?_ ?_ <;> clear h <;> intro h
      | with_reducible refine code_elim h ?_ <;> clear h <;> intro _ _ h
      | with_reducible intro _
    all_goals cases h
    all_goals
      simp only [encodeNat, wordC, placed, Option.some.injEq, fieldAt_toNat, flagAt_toNat]
      zify
      try simp only [RowFn.ofCode_eq_some_iff, natAt_eq_iff_bitsFrom, Nat.reduceAdd, Nat.reducePow] at *
      try simp only [natAt_mul_eq_sub]
      try simp only [Nat.reduceAdd, Int.reducePow]
      omega

theorem encodeNat_of_decodeC_31to34 {op low : Nat} {u : Bool} {i : Instr} (hlow : low < 2 ^ 24) (hlo : 0x31 ≤ op)
    (hhi : op ≤ 0x34) (h : decodeC op low u = some i) : encodeNat i = wordC u op [(0, low)] := by
  have h0 := bitsFrom_zero low
  have h24 := bitsFrom_eq_zero hlow
  clear hlow
  interval_cases op
  all_goals
    dsimp only [decodeC, decC31, decC32, decC33, decC34] at h
    repeat' first
      | with_reducible refine row_elim h ?_ ?_ <;> clear h <;> intro h
      | with_reducible refine code_elim h ?_ <;> clear h <;> intro _ _ h
      | with_reducible intro _
    all_goals cases h
    all_goals
      simp only [encodeNat, wordC, placed, Option.some.injEq, fieldAt_toNat, flagAt_toNat]
      zify
      try simp only [Rm.ofCode_eq_some_iff, natAt_eq_iff_bitsFrom, Nat.reduceAdd, Nat.reducePow] at *
      try simp only [natAt_mul_eq_sub]
      try simp only [Nat.reduceAdd, Int.reducePow]
      omega

theorem encodeNat_of_decodeA_00to07 {op low : Nat} {i : Instr} (hlow : low < 2 ^ 25) (hlo : 0x00 ≤ op)
    (hhi : op ≤ 0x07) (h : decodeA op low = some i) : encodeNat i = wordA op [(0, low)] := by
  have h0 := bitsFrom_zero low
  have h25 := bitsFrom_eq_zero hlow
  clear hlow
  interval_cases op
  all_goals
    dsimp only [decodeA, decA00, decA01, decA02, decA03, decA04, decA05, decA06, decA07] at h
    repeat' first
      | with_reducible refine row_elim h ?_ ?_ <;> clear h <;> intro h
      | with_reducible refine code_elim h ?_ <;> clear h <;> intro _ _ h
      | with_reducible intro _
    all_goals cases h
    all_goals
      simp only [encodeNat, wordA, placed, Option.some.injEq, fieldAt_toNat, flagAt_toNat]
      zify
      try simp only [IntTy.ofCode_eq_some_iff, AddMode.ofCode_eq_some_iff, MulhMode.ofCode_eq_some_iff,
        natAt_eq_iff_bitsFrom, Nat.reduceAdd, Nat.reducePow] at *
      try simp only [natAt_mul_eq_sub]
      try simp only [Nat.reduceAdd, Int.reducePow]
      omega

theorem encodeNat_of_decodeA_08to0F {op low : Nat} {i : Instr} (hlow : low < 2 ^ 25) (hlo : 0x08 ≤ op)
    (hhi : op ≤ 0x0F) (h : decodeA op low = some i) : encodeNat i = wordA op [(0, low)] := by
  have h0 := bitsFrom_zero low
  have h25 := bitsFrom_eq_zero hlow
  clear hlow
  interval_cases op
  all_goals
    dsimp only [decodeA, decA08, decA09, decA0A, decA0B, decA0C, decA0D, decA0E, decA0F] at h
    repeat' first
      | with_reducible refine row_elim h ?_ ?_ <;> clear h <;> intro h
      | with_reducible refine code_elim h ?_ <;> clear h <;> intro _ _ h
      | with_reducible intro _
    all_goals cases h
    all_goals
      simp only [encodeNat, wordA, placed, Option.some.injEq, fieldAt_toNat, flagAt_toNat]
      zify
      try simp only [IntTy.ofCode_eq_some_iff, natAt_eq_iff_bitsFrom, Nat.reduceAdd, Nat.reducePow] at *
      try simp only [natAt_mul_eq_sub]
      try simp only [Nat.reduceAdd, Int.reducePow]
      omega

theorem encodeNat_of_decodeA_10to14 {op low : Nat} {i : Instr} (hlow : low < 2 ^ 25) (hlo : 0x10 ≤ op)
    (hhi : op ≤ 0x14) (h : decodeA op low = some i) : encodeNat i = wordA op [(0, low)] := by
  have h0 := bitsFrom_zero low
  have h25 := bitsFrom_eq_zero hlow
  clear hlow
  interval_cases op
  all_goals
    dsimp only [decodeA, decA10, decA11, decA12, decA13, decA14] at h
    repeat' first
      | with_reducible refine row_elim h ?_ ?_ <;> clear h <;> intro h
      | with_reducible refine code_elim h ?_ <;> clear h <;> intro _ _ h
      | with_reducible intro _
    all_goals cases h
    all_goals
      simp only [encodeNat, wordA, placed, Option.some.injEq, fieldAt_toNat, flagAt_toNat]
      zify
      try simp only [IntTy.ofCode_eq_some_iff, CmpCond.ofCode_eq_some_iff, natAt_eq_iff_bitsFrom, Nat.reduceAdd,
        Nat.reducePow] at *
      try simp only [natAt_mul_eq_sub]
      try simp only [Nat.reduceAdd, Int.reducePow]
      omega

theorem encodeNat_of_decodeA_15to1D {op low : Nat} {i : Instr} (hlow : low < 2 ^ 25) (hlo : 0x15 ≤ op)
    (hhi : op ≤ 0x1D) (h : decodeA op low = some i) : encodeNat i = wordA op [(0, low)] := by
  have h0 := bitsFrom_zero low
  have h25 := bitsFrom_eq_zero hlow
  clear hlow
  interval_cases op
  all_goals
    dsimp only [decodeA, decA15, decA16, decA17, decA18, decA19, decA1A, decA1B, decA1C, decA1D] at h
    repeat' first
      | with_reducible refine row_elim h ?_ ?_ <;> clear h <;> intro h
      | with_reducible refine code_elim h ?_ <;> clear h <;> intro _ _ h
      | with_reducible intro _
    all_goals cases h
    all_goals
      simp only [encodeNat, wordA, placed, Option.some.injEq, fieldAt_toNat, flagAt_toNat]
      zify
      try simp only [natAt_eq_iff_bitsFrom, Nat.reduceAdd, Nat.reducePow] at *
      try simp only [natAt_mul_eq_sub]
      try simp only [Nat.reduceAdd, Int.reducePow]
      omega

theorem encodeNat_of_decodeA_20to25 {op low : Nat} {i : Instr} (hlow : low < 2 ^ 25) (hlo : 0x20 ≤ op)
    (hhi : op ≤ 0x25) (h : decodeA op low = some i) : encodeNat i = wordA op [(0, low)] := by
  have h0 := bitsFrom_zero low
  have h25 := bitsFrom_eq_zero hlow
  clear hlow
  interval_cases op
  all_goals
    dsimp only [decodeA, decA20, decA21, decA22, decA23, decA24, decA25] at h
    repeat' first
      | with_reducible refine row_elim h ?_ ?_ <;> clear h <;> intro h
      | with_reducible refine code_elim h ?_ <;> clear h <;> intro _ _ h
      | with_reducible intro _
    all_goals cases h
    all_goals
      simp only [encodeNat, wordA, placed, Option.some.injEq, fieldAt_toNat, flagAt_toNat]
      zify
      try simp only [FTy.ofCode_eq_some_iff, Rm.ofCode_eq_some_iff, natAt_eq_iff_bitsFrom, Nat.reduceAdd, Nat.reducePow]
        at *
      try simp only [natAt_mul_eq_sub]
      try simp only [Nat.reduceAdd, Int.reducePow]
      omega

theorem encodeNat_of_decodeA_26to2B {op low : Nat} {i : Instr} (hlow : low < 2 ^ 25) (hlo : 0x26 ≤ op)
    (hhi : op ≤ 0x2B) (h : decodeA op low = some i) : encodeNat i = wordA op [(0, low)] := by
  have h0 := bitsFrom_zero low
  have h25 := bitsFrom_eq_zero hlow
  clear hlow
  interval_cases op
  all_goals
    dsimp only [decodeA, decA26, decA27, decA28, decA29, decA2A, decA2B] at h
    repeat' first
      | with_reducible refine row_elim h ?_ ?_ <;> clear h <;> intro h
      | with_reducible refine code_elim h ?_ <;> clear h <;> intro _ _ h
      | with_reducible intro _
    all_goals cases h
    all_goals
      simp only [encodeNat, wordA, placed, Option.some.injEq, fieldAt_toNat, flagAt_toNat]
      zify
      try simp only [FTy.ofCode_eq_some_iff, Rm.ofCode_eq_some_iff, CmpCond.ofCode_eq_some_iff,
        FCmpCond.ofCode_eq_some_iff, natAt_eq_iff_bitsFrom, Nat.reduceAdd, Nat.reducePow] at *
      try simp only [natAt_mul_eq_sub]
      try simp only [Nat.reduceAdd, Int.reducePow]
      omega

theorem encodeNat_of_decodeA_2Cto31 {op low : Nat} {i : Instr} (hlow : low < 2 ^ 25) (hlo : 0x2C ≤ op)
    (hhi : op ≤ 0x31) (h : decodeA op low = some i) : encodeNat i = wordA op [(0, low)] := by
  have h0 := bitsFrom_zero low
  have h25 := bitsFrom_eq_zero hlow
  clear hlow
  interval_cases op
  all_goals
    dsimp only [decodeA, decA2C, decA2D, decA2E, decA2F, decA30, decA31] at h
    repeat' first
      | with_reducible refine row_elim h ?_ ?_ <;> clear h <;> intro h
      | with_reducible refine code_elim h ?_ <;> clear h <;> intro _ _ h
      | with_reducible intro _
    all_goals cases h
    all_goals
      simp only [encodeNat, wordA, placed, Option.some.injEq, fieldAt_toNat, flagAt_toNat]
      zify
      try simp only [FTy.ofCode_eq_some_iff, Fmt.ofCode_eq_some_iff, Rm.ofCode_eq_some_iff, CvtInt.ofCode_eq_some_iff,
        Fmt.ofSrcCode_eq_some_iff, natAt_eq_iff_bitsFrom, Nat.reduceAdd, Nat.reducePow] at *
      try simp only [natAt_mul_eq_sub]
      try simp only [Nat.reduceAdd, Int.reducePow]
      omega

theorem encodeNat_of_decodeA_32to39 {op low : Nat} {i : Instr} (hlow : low < 2 ^ 25) (hlo : 0x32 ≤ op)
    (hhi : op ≤ 0x39) (h : decodeA op low = some i) : encodeNat i = wordA op [(0, low)] := by
  have h0 := bitsFrom_zero low
  have h25 := bitsFrom_eq_zero hlow
  clear hlow
  interval_cases op
  all_goals
    dsimp only [decodeA, decA32, decA33, decA34, decA35, decA36, decA38, decA39] at h
    repeat' first
      | with_reducible refine row_elim h ?_ ?_ <;> clear h <;> intro h
      | with_reducible refine code_elim h ?_ <;> clear h <;> intro _ _ h
      | with_reducible intro _
    all_goals cases h
    all_goals
      simp only [encodeNat, wordA, placed, Option.some.injEq, fieldAt_toNat, flagAt_toNat]
      zify
      try simp only [IntTy.ofCode_eq_some_iff, FTy.ofCode_eq_some_iff, Rm.ofCode_eq_some_iff, natAt_eq_iff_bitsFrom,
        Nat.reduceAdd, Nat.reducePow] at *
      try simp only [natAt_mul_eq_sub]
      try simp only [Nat.reduceAdd, Int.reducePow]
      omega

theorem encodeNat_of_decodeA_3Ato3F {op low : Nat} {i : Instr} (hlow : low < 2 ^ 25) (hlo : 0x3A ≤ op)
    (hhi : op ≤ 0x3F) (h : decodeA op low = some i) : encodeNat i = wordA op [(0, low)] := by
  have h0 := bitsFrom_zero low
  have h25 := bitsFrom_eq_zero hlow
  clear hlow
  interval_cases op
  all_goals
    dsimp only [decodeA, decA3A, decA3B, decA3C, decA3D, decA3E, decA3F] at h
    repeat' first
      | with_reducible refine row_elim h ?_ ?_ <;> clear h <;> intro h
      | with_reducible refine code_elim h ?_ <;> clear h <;> intro _ _ h
      | with_reducible intro _
    all_goals cases h
    all_goals
      simp only [encodeNat, wordA, placed, Option.some.injEq, fieldAt_toNat, flagAt_toNat]
      zify
      try simp only [IntTy.ofCode_eq_some_iff, FTy.ofCode_eq_some_iff, Fmt.ofCode_eq_some_iff, DotTy.ofCode_eq_some_iff,
        Rm.ofCode_eq_some_iff, VRedFn.ofCode_eq_some_iff, LodeFn.ofCode_eq_some_iff, natAt_eq_iff_bitsFrom,
        Nat.reduceAdd, Nat.reducePow] at *
      try simp only [natAt_mul_eq_sub]
      try simp only [Nat.reduceAdd, Int.reducePow]
      omega

theorem encodeNat_of_event {i : Instr} (hi : 224 ≤ i.ctorIdx) : encodeNat i = none := by
  cases i
  all_goals first
    | rfl
    | exact absurd hi (Nat.not_le.2 (Nat.le_of_ble_eq_true rfl))

/-! ## The codec as a whole -/

theorem placed_zero (low : Nat) : placed [(0, low)] = low := by simp [placed]

/-- No operation code of the C-word map is left out: the ranges cover it, and between them nothing decodes. -/
theorem encodeNat_of_decodeC {op low : Nat} {u : Bool} {i : Instr} (hop : op < 64) (hlow : low < 2 ^ 24)
    (h : decodeC op low u = some i) : encodeNat i = wordC u op [(0, low)] := by
  rcases Nat.lt_or_ge op 0x0B with hhi0 | hlo1
  · exact encodeNat_of_decodeC_00to0A hlow (Nat.zero_le _) (Nat.le_of_lt_succ hhi0) h
  rcases Nat.lt_or_ge op 0x10 with hhi1 | hlo2
  · interval_cases op <;> exact absurd h (by simp [decodeC])
  rcases Nat.lt_or_ge op 0x18 with hhi2 | hlo3
  · exact encodeNat_of_decodeC_10to17 hlow hlo2 (Nat.le_of_lt_succ hhi2) h
  rcases Nat.lt_or_ge op 0x20 with hhi3 | hlo4
  · exact encodeNat_of_decodeC_18to1F hlow hlo3 (Nat.le_of_lt_succ hhi3) h
  rcases Nat.lt_or_ge op 0x26 with hhi4 | hlo5
  · exact encodeNat_of_decodeC_20to25 hlow hlo4 (Nat.le_of_lt_succ hhi4) h
  rcases Nat.lt_or_ge op 0x2C with hhi5 | hlo6
  · exact encodeNat_of_decodeC_26to2B hlow hlo5 (Nat.le_of_lt_succ hhi5) h
  rcases Nat.lt_or_ge op 0x31 with hhi6 | hlo7
  · exact encodeNat_of_decodeC_2Cto30 hlow hlo6 (Nat.le_of_lt_succ hhi6) h
  rcases Nat.lt_or_ge op 0x35 with hhi7 | hlo8
  · exact encodeNat_of_decodeC_31to34 hlow hlo7 (Nat.le_of_lt_succ hhi7) h
  · interval_cases op <;> exact absurd h (by simp [decodeC])

/-- No operation code of the A-word map is left out: the ranges cover it, and between them nothing decodes. -/
theorem encodeNat_of_decodeA {op low : Nat} {i : Instr} (hop : op < 64) (hlow : low < 2 ^ 25)
    (h : decodeA op low = some i) : encodeNat i = wordA op [(0, low)] := by
  rcases Nat.lt_or_ge op 0x08 with hhi0 | hlo1
  · exact encodeNat_of_decodeA_00to07 hlow (Nat.zero_le _) (Nat.le_of_lt_succ hhi0) h
  rcases Nat.lt_or_ge op 0x10 with hhi1 | hlo2
  · exact encodeNat_of_decodeA_08to0F hlow hlo1 (Nat.le_of_lt_succ hhi1) h
  rcases Nat.lt_or_ge op 0x15 with hhi2 | hlo3
  · exact encodeNat_of_decodeA_10to14 hlow hlo2 (Nat.le_of_lt_succ hhi2) h
  rcases Nat.lt_or_ge op 0x1E with hhi3 | hlo4
  · exact encodeNat_of_decodeA_15to1D hlow hlo3 (Nat.le_of_lt_succ hhi3) h
  rcases Nat.lt_or_ge op 0x20 with hhi4 | hlo5
  · interval_cases op <;> exact absurd h (by simp [decodeA])
  rcases Nat.lt_or_ge op 0x26 with hhi5 | hlo6
  · exact encodeNat_of_decodeA_20to25 hlow hlo5 (Nat.le_of_lt_succ hhi5) h
  rcases Nat.lt_or_ge op 0x2C with hhi6 | hlo7
  · exact encodeNat_of_decodeA_26to2B hlow hlo6 (Nat.le_of_lt_succ hhi6) h
  rcases Nat.lt_or_ge op 0x32 with hhi7 | hlo8
  · exact encodeNat_of_decodeA_2Cto31 hlow hlo7 (Nat.le_of_lt_succ hhi7) h
  rcases Nat.lt_or_ge op 0x3A with hhi8 | hlo9
  · exact encodeNat_of_decodeA_32to39 hlow hlo8 (Nat.le_of_lt_succ hhi8) h
  · exact encodeNat_of_decodeA_3Ato3F hlow hlo9 (Nat.le_of_lt_succ hop) h

/-- A word that decodes is the word of what it decodes to, whatever half of the map it lies in. -/
theorem encodeNat_of_decodeFields {n : Nat} {i : Instr} (hn : n < 2 ^ 32) (h : decodeFields n = some i) :
    encodeNat i = some n := by
  unfold decodeFields at h
  split at h
  · next h31 =>
    rw [encodeNat_of_decodeC (natAt_lt n 24 6) (natAt_lt n 0 24) h]
    simp only [wordC, placed_zero, flagAt_toNat, Option.some.injEq]
    unfold natAt at h31 ⊢
    omega
  · next h31 =>
    rw [encodeNat_of_decodeA (natAt_lt n 25 6) (natAt_lt n 0 25) h]
    simp only [wordA, placed_zero, Option.some.injEq]
    unfold natAt at h31 ⊢
    omega

/-- The word of a well-formed instruction has 32 bits and decodes to it. -/
theorem fits_and_decodes_of_encodeNat {i : Instr} {n : Nat} (hw : i.wellFormed = true) (h : encodeNat i = some n) :
    n < 2 ^ 32 ∧ decodeFields n = some i := by
  rcases Nat.lt_or_ge i.ctorIdx 16 with hhi0 | hlo1
  · exact fits_and_decodes_rows0to15 (Nat.zero_le _) hhi0 h
  rcases Nat.lt_or_ge i.ctorIdx 32 with hhi1 | hlo2
  · exact fits_and_decodes_rows16to31 hlo1 hhi1 h
  rcases Nat.lt_or_ge i.ctorIdx 48 with hhi2 | hlo3
  · exact fits_and_decodes_rows32to47 hlo2 hhi2 h
  rcases Nat.lt_or_ge i.ctorIdx 64 with hhi3 | hlo4
  · exact fits_and_decodes_rows48to63 hlo3 hhi3 h
  rcases Nat.lt_or_ge i.ctorIdx 80 with hhi4 | hlo5
  · exact fits_and_decodes_rows64to79 hlo4 hhi4 h
  rcases Nat.lt_or_ge i.ctorIdx 93 with hhi5 | hlo6
  · exact fits_and_decodes_rows80to92 hlo5 hhi5 h
  rcases Nat.lt_or_ge i.ctorIdx 109 with hhi6 | hlo7
  · exact fits_and_decodes_rows93to108 hlo6 hhi6 h
  rcases Nat.lt_or_ge i.ctorIdx 125 with hhi7 | hlo8
  · exact fits_and_decodes_rows109to124 hlo7 hhi7 h
  rcases Nat.lt_or_ge i.ctorIdx 141 with hhi8 | hlo9
  · exact fits_and_decodes_rows125to140 hlo8 hhi8 h
  rcases Nat.lt_or_ge i.ctorIdx 157 with hhi9 | hlo10
  · exact fits_and_decodes_rows141to156 hlo9 hhi9 h
  rcases Nat.lt_or_ge i.ctorIdx 173 with hhi10 | hlo11
  · exact fits_and_decodes_rows157to172 hlo10 hhi10 h
  rcases Nat.lt_or_ge i.ctorIdx 189 with hhi11 | hlo12
  · exact fits_and_decodes_rows173to188 hlo11 hhi11 h
  rcases Nat.lt_or_ge i.ctorIdx 197 with hhi12 | hlo12
  · exact fits_and_decodes_rows189to196 hlo12 hhi12 hw h
  rcases Nat.lt_or_ge i.ctorIdx 205 with hhi12 | hlo13
  · exact fits_and_decodes_rows197to204 hlo12 hhi12 hw h
  rcases Nat.lt_or_ge i.ctorIdx 221 with hhi13 | hlo14
  · exact fits_and_decodes_rows205to220 hlo13 hhi13 hw h
  rcases Nat.lt_or_ge i.ctorIdx 224 with hhi14 | hlo15
  · exact fits_and_decodes_rows221to223 hlo14 hhi14 h
  · exact absurd h (by rw [encodeNat_of_event hlo15]; simp)

theorem encode_isSome_iff (i : Instr) :
    (encode i).isSome = true ↔ Machine.isEvent i = false ∧ ∀ w h, i ≠ .illegalWord w h := by
  cases i <;> simp [encode, encodeNat, wordC, wordA, Machine.isEvent]

theorem decodeWord_eq_ok_iff (w : BitVec 32) (i : Instr) :
    decodeWord w = .ok i ↔ decodeFields w.toNat = some i ∧ i.wellFormed = true := by
  unfold decodeWord
  split
  · next hnone => simp [hnone]
  · next j hj =>
    by_cases hwf : j.wellFormed = true
    · simp only [hj, hwf, if_true, Except.ok.injEq, Option.some.injEq]
      exact ⟨fun h => ⟨h, h ▸ hwf⟩, fun h => h.1⟩
    · simp only [hj, hwf, Bool.false_eq_true, if_false, Option.some.injEq, reduceCtorEq, false_iff, not_and]
      exact fun h => h ▸ hwf

/-- Settles O2: the word of each row of the encoding tables is read back by the decoder function of its operation code. -/
theorem decodeOfEncode : Obligations.DecodeOfEncode := by
  unfold Obligations.DecodeOfEncode
  intro i w hw he
  obtain ⟨n, hn, rfl⟩ := Option.map_eq_some_iff.1 he
  obtain ⟨hlt, hdec⟩ := fits_and_decodes_of_encodeNat hw hn
  rw [decodeWord_eq_ok_iff, BitVec.toNat_ofNat, Nat.mod_eq_of_lt hlt]
  exact ⟨hdec, hw⟩

/-- Settles O3: each decoder function answers only for words whose every bit is in a field that it reads. -/
theorem encodeOfDecode : Obligations.EncodeOfDecode := by
  unfold Obligations.EncodeOfDecode
  refine ⟨fun w i h => ?_, encode_isSome_iff⟩
  obtain ⟨hdec, hwf⟩ := (decodeWord_eq_ok_iff w i).1 h
  refine ⟨?_, hwf⟩
  rw [encode, encodeNat_of_decodeFields w.isLt hdec, Option.map_some, BitVec.ofNat_toNat, BitVec.setWidth_eq]

/-- Settles O1: the decoder run on each word. -/
theorem sampleWordsDecode : Obligations.SampleWordsDecode := by
  unfold Obligations.SampleWordsDecode
  decide

end Sys2Proof
end

section
/-! The step and the unit (spec/01, spec/02, spec/11): every meaning answers a next state, and so does every turn and every move;
what words that are no instruction do; the moves that a step makes first. -/

namespace Sys2Proof.Machine

open Sys2Proof

set_option Elab.async false

/-! ## Nothing but a module that is off stops the machine (log 58) -/

/-- The outcome is a next state. -/
def goesOn (o : Out) : Prop := ∃ t : State, o = .next t

theorem goesOn_next (s : State) : goesOn (.next s) := ⟨s, rfl⟩

theorem goesOn_ite {c : Prop} [Decidable c] {o p : Out} (ho : goesOn o) (hp : goesOn p) : goesOn (if c then o else p) := by
  split
  · exact ho
  · exact hp

theorem goesOn_andThen {o : Out} {k : State → State} (h : goesOn o) : goesOn (andThen o k) := by
  obtain ⟨t, rfl⟩ := h
  exact ⟨k t, rfl⟩

/-- Every row of the opcode table has a meaning that answers a next state; VDOT's depends on its type. -/
theorem exec_goesOn (i : Instr) (s : State) : goesOn (exec i s) := by
  cases i
  case vdot t d a b p rm => cases t <;> exact ⟨_, rfl⟩
  all_goals exact ⟨_, rfl⟩

theorem runLone_goesOn (s : State) (w : BitVec 32) : goesOn (s.runLone w) := by
  unfold State.runLone
  split
  · exact ⟨_, rfl⟩
  · exact goesOn_ite (goesOn_next _) (exec_goesOn _ _)

theorem runA_goesOn (s : State) (a : Instr) (c : State) : goesOn (s.runA a c) := goesOn_andThen (exec_goesOn _ _)

theorem runPair_goesOn (s : State) (c a : Instr) : goesOn (s.runPair c a) := by
  obtain ⟨r, hr⟩ := exec_goesOn c s
  obtain ⟨t, ht⟩ := runA_goesOn s a s
  simp only [State.runPair, hr, ht]
  exact goesOn_ite (goesOn_next _) (goesOn_ite (exec_goesOn _ _) (runA_goesOn _ _ _))

theorem runWords_goesOn (s : State) (wc wa : BitVec 32) : goesOn (s.runWords wc wa) := by
  unfold State.runWords
  split
  · exact ⟨_, rfl⟩
  · exact goesOn_ite (exec_goesOn _ _) ⟨_, rfl⟩
  · refine goesOn_ite (goesOn_next _) ?_
    split
    · exact goesOn_next _
    · exact runPair_goesOn _ _ _

theorem runUnit_goesOn (s : State) : goesOn s.runUnit := by
  unfold State.runUnit
  split
  · split
    · exact runLone_goesOn _ _
    · exact goesOn_next _
  · split
    · exact runLone_goesOn _ _
    · exact goesOn_ite (runWords_goesOn _ _ _) (goesOn_next _)
    · exact goesOn_next _

theorem issue_goesOn (s : State) : goesOn s.issue := by
  unfold State.issue
  dsimp only
  refine goesOn_ite (goesOn_next _) (goesOn_ite (goesOn_next _) ?_)
  split
  · exact goesOn_next _
  · exact goesOn_andThen (runUnit_goesOn _)
  · refine goesOn_ite (goesOn_andThen (runUnit_goesOn _)) ?_
    split
    · exact goesOn_next _
    · exact goesOn_andThen (runUnit_goesOn _)

theorem freeTurn_goesOn (s : State) (core c : Nat) : goesOn (s.freeTurn core c) := by
  unfold State.freeTurn
  split
  · exact goesOn_next _
  · exact issue_goesOn _

theorem slotTurn_goesOn (s : State) (core c : Nat) : goesOn (s.slotTurn core c) := by
  unfold State.slotTurn
  split
  · exact freeTurn_goesOn _ _ _
  · exact goesOn_ite (freeTurn_goesOn _ _ _) (goesOn_ite (freeTurn_goesOn _ _ _)
      (goesOn_ite (issue_goesOn _) (goesOn_ite (goesOn_next _) (freeTurn_goesOn _ _ _))))

theorem coreTurn_goesOn (s : State) (core : Nat) : goesOn (s.coreTurn core) :=
  goesOn_ite (goesOn_next _) (goesOn_ite (goesOn_next _) (slotTurn_goesOn _ _ _))

theorem handlerTurn_goesOn (s : State) (t : Thread) : goesOn (s.handlerTurn t) :=
  goesOn_ite (goesOn_next _) (issue_goesOn _)

theorem move_goesOn (s : State) (m : Move) : goesOn (s.move m) := by
  cases m with
  | event i => exact goesOn_ite (exec_goesOn _ _) (goesOn_next _)
  | core c => exact coreTurn_goesOn _ _
  | handler k =>
    simp only [State.move]
    split
    · exact goesOn_next _
    · exact goesOn_ite (handlerTurn_goesOn _ _) (goesOn_next _)

theorem rotate_goesOn (s : State) : goesOn s.rotate := by
  unfold State.rotate
  refine goesOn_ite (coreTurn_goesOn _ _) ?_
  split
  · exact handlerTurn_goesOn _ _
  · split
    · exact goesOn_next _
    · exact goesOn_next _

/-- Settles O8: every meaning and every turn answers a next state, and what is left of a step is the module that is off. -/
theorem stepStopsOnlyWhenShut : Obligations.StepStopsOnlyWhenShut := by
  unfold Obligations.StepStopsOnlyWhenShut
  refine ⟨exec_goesOn, fun s => ?_⟩
  simp only [State.shut, Bool.and_eq_true, List.isEmpty_iff]
  rcases step_cases s with ⟨m, l, ha, h⟩ | ⟨ha, ho, h⟩ | ⟨k, l, ha, ho, -, h⟩ | ⟨ha, ho, -, h⟩
  · refine ⟨fun hs => ?_, fun _ => h ▸ move_goesOn _ _⟩
    rw [ha] at hs
    exact absurd hs.2 (List.cons_ne_nil m l)
  · exact ⟨fun _ => h, fun hs => by simp [ha, ho] at hs⟩
  · exact ⟨fun hs => by simp [ho] at hs, fun _ => h ▸ goesOn_next _⟩
  · exact ⟨fun hs => by simp [ho] at hs, fun _ => h ▸ rotate_goesOn _⟩

/-! ## The moves that come first (log 6) -/

/-- Settles O7: with a move listed, or a wake on its way, the step is that move on the state with the next number. -/
theorem stepTakesListedMove : Obligations.StepTakesListedMove := by
  unfold Obligations.StepTakesListedMove
  constructor
  · intro s i rest ha he
    simp only [step, ha, State.move, he, if_true, State.nextDraw]
  · intro s k rest ha ho hw
    simp only [step, ha, ho, hw, Bool.false_eq_true, if_false, State.nextDraw]
    rfl

/-! ## Words that are no instruction, and pairs with one destination (R52, R53) -/

/-- The word of an instruction that was decoded is the word it was decoded from. -/
theorem illegalHere_of_decodeWord {w : BitVec 32} {c : Instr} (s : State) (hw : decodeWord w = .ok c) :
    s.illegalHere c = s.trap .illegal (w.zeroExtend 64) 0 := by
  have hc := encodeNat_of_decodeFields w.isLt ((decodeWord_eq_ok_iff w c).1 hw).1
  have hword : wordOf w.toNat = w.zeroExtend 64 := BitVec.eq_of_toNat_eq (by simp [wordOf])
  rw [State.illegalHere, hc, Option.getD_some, hword]

/-- Where it stands, a misplaced word is an illegal word: ERET outside handler state, RRET in a thread (R90, R196). -/
theorem exec_of_misplaced {w : BitVec 32} {c : Instr} {s : State} (hw : decodeWord w = .ok c) (hm : s.misplaced c = true) :
    exec c s = .next (s.trap .illegal (w.zeroExtend 64) 0) := by
  rw [← illegalHere_of_decodeWord s hw]
  cases c <;> simp only [State.misplaced, Bool.false_eq_true, Bool.not_eq_true'] at hm
  case eret u => simp only [exec, execEret, hm, Bool.false_eq_true, if_false]
  case rret u a b => simp only [exec, execRret, hm, Bool.not_false, if_true]

/-- Settles O6: the words are looked at in the order C half, A half, pair. -/
theorem illegalAndPairTraps : Obligations.IllegalAndPairTraps := by
  unfold Obligations.IllegalAndPairTraps
  refine ⟨fun _ _ _ => rfl, fun w e s he => ?_, fun wc wa s => ⟨fun e he => ?_, fun c e hc he => ⟨fun hm => ?_, fun hm => ?_⟩,
    fun c a r hc ha hh hp => ?_⟩⟩
  · simp [State.runLone, he, execIllegalWord]
  · simp [State.runWords, he, execIllegalWord]
  · simp [State.runWords, hc, he, hm, execIllegalWord]
  · simp [State.runWords, hc, he, hm, exec_of_misplaced hc hm]
  · simp [State.runWords, hc, ha, hh, hp, wordOf]

/-! ## Reset (R17, R356) -/

/-- Settles O9: the record at reset, read register by register. -/
theorem resetRegisters : Obligations.ResetRegisters := by
  unfold Obligations.ResetRegisters
  decide

/-- Settles O10: at reset nothing is listed. -/
theorem resetMemoryForm : Obligations.ResetMemoryForm := rfl

/-! ## Memory (R1) -/

/-- A write of n bytes is found byte by byte, and nothing else has changed. -/
theorem memGet_memWrite {m : Memory} (x n v y : Nat) (h : Memory.wf m = true) :
    memGet (memWrite m x n v) y = if x ≤ y ∧ y < x + n then BitVec.ofNat 8 (v / 256 ^ (y - x)) else memGet m y := by
  induction n generalizing m x v with
  | zero =>
    rw [if_neg (by omega)]
    rfl
  | succ n ih =>
    rw [memWrite, ih _ _ (memSet_wf _ _ h), memGet_memSet _ _ _ h]
    by_cases hy : y = x
    · subst hy
      rw [if_neg (by omega), if_pos rfl, if_pos (by omega), Nat.sub_self, pow_zero, Nat.div_one]
    · rw [if_neg hy]
      by_cases hin : x + 1 ≤ y ∧ y < x + 1 + n
      · have hsub : y - x = y - (x + 1) + 1 := by omega
        rw [if_pos hin, if_pos (by omega), hsub, pow_succ', ← Nat.div_div_eq_div_mul]
      · rw [if_neg hin, if_neg (by omega)]

/-- A number whose bytes are those at x. -/
theorem memRead_of_memGet {m : Memory} (x n v : Nat) (h : ∀ j, j < n → memGet m (x + j) = BitVec.ofNat 8 (v / 256 ^ j)) :
    memRead m x n = v % 256 ^ n := by
  induction n generalizing x v with
  | zero => simp [memRead, Nat.mod_one]
  | succ n ih =>
    have h0 := h 0 (by omega)
    have hrest : memRead m (x + 1) n = v / 256 % 256 ^ n := by
      refine ih _ _ fun j hj => ?_
      have hj := h (j + 1) (by omega)
      rwa [pow_succ', ← Nat.div_div_eq_div_mul, show x + (j + 1) = x + 1 + j by omega] at hj
    rw [memRead, hrest, ← Nat.add_zero x, h0, pow_succ', Nat.mod_mul]
    simp

/-- Settles O12: each byte after a write is the byte of the value at its place, or was there before. -/
theorem memoryReadsWhatWasWritten : Obligations.MemoryReadsWhatWasWritten := by
  unfold Obligations.MemoryReadsWhatWasWritten
  intro m x n v h
  have hbyte (j : Nat) (hj : j < n) : memGet (memWrite m x n v) (x + j) = BitVec.ofNat 8 (v / 256 ^ j) := by
    rw [memGet_memWrite _ _ _ _ h, if_pos (by omega), Nat.add_sub_cancel_left]
  refine ⟨memWrite_wf _ _ _ h, memRead_of_memGet _ _ _ hbyte, hbyte, fun y hy => ?_⟩
  rw [memGet_memWrite _ _ _ _ h, if_neg (by omega)]

/-! ## Register files (R17) -/

theorem Thread.rg_wg {t : Thread} {i : BitVec 6} (j : BitVec 6) (x : Word) (hi : i ≠ 0) :
    (t.wg i x).rg j = if j = i then x else t.rg j := by
  simp only [Thread.rg, Thread.wg, hi, if_false]
  by_cases hj : j = i
  · subst hj
    simp only [if_neg hi, if_true, Vector.getElem_set_self]
  · have hne : i.toNat ≠ j.toNat := fun h => hj (BitVec.eq_of_toNat_eq h.symm)
    simp [hj, Vector.getElem_set_ne _ _ hne]

theorem Thread.rv_wv {t : Thread} {i : BitVec 5} (j : BitVec 5) (x : VWord) :
    (t.wv i x).rv j = if j = i then x else t.rv j := by
  simp only [Thread.rv, Thread.wv]
  by_cases hj : j = i
  · simp [hj]
  · have hne : i.toNat ≠ j.toNat := fun h => hj (BitVec.eq_of_toNat_eq h.symm)
    simp [hj, Vector.getElem_set_ne _ _ hne]

theorem Thread.rp_wp {t : Thread} {i : BitVec 3} (j : BitVec 3) (x : Pred) (hi : i ≠ 0) :
    (t.wp i x).rp j = if j = i then x else t.rp j := by
  simp only [Thread.rp, Thread.wp, hi, if_false]
  by_cases hj : j = i
  · subst hj
    simp only [if_neg hi, if_true, Vector.getElem_set_self]
  · have hne : i.toNat ≠ j.toNat := fun h => hj (BitVec.eq_of_toNat_eq h.symm)
    simp [hj, Vector.getElem_set_ne _ _ hne]

/-- Settles O13: the reads and writes of number 0 are cases of their own, and the other registers are the slots of a vector. -/
theorem hardWiredRegisters : Obligations.HardWiredRegisters := by
  unfold Obligations.HardWiredRegisters
  exact ⟨fun _ _ _ => ⟨rfl, rfl, rfl, rfl⟩, fun _ _ j x hi => Thread.rg_wg j x hi, fun _ _ j x => Thread.rv_wv j x,
    fun _ _ j x hi => Thread.rp_wp j x hi⟩

end Sys2Proof.Machine
end

section
/-! Integer arithmetic, bit operations, predicates and immediates (spec/04, R101, R107 to R115). -/

namespace Sys2Proof.Machine

open Sys2Proof

set_option Elab.async false

/-! ## Saturation (R63) -/

theorem ofNat_two_pow_eq_twoPow (w i : Nat) : BitVec.ofNat w (2 ^ i) = BitVec.twoPow w i :=
  BitVec.eq_of_toNat_eq (by rw [BitVec.toNat_ofNat, BitVec.toNat_twoPow])

/-- Clamped to the signed range, the exact result is one of its ends, or else the wrapped result itself. -/
theorem clampSat_signed {w : Nat} (hw : 0 < w) (v : Int) (r : BitVec w) (hr : r = BitVec.ofInt w v) :
    let c := clampSat (-(2 ^ (w - 1) : Nat)) ((2 ^ (w - 1) : Nat) - 1) v
    let f := if v < -(2 : Int) ^ (w - 1) then (BitVec.intMin w, true)
      else if (2 : Int) ^ (w - 1) ≤ v then (BitVec.intMax w, true) else (r, false)
    (narrow w c.1, c.2) = (f.1.toNat, if f.2 then flagSAT else 0) := by
  have hmin : BitVec.ofInt w (-(2 ^ (w - 1) : Nat)) = BitVec.intMin w := by
    rw [BitVec.ofInt_neg, BitVec.ofInt_natCast, ofNat_two_pow_eq_twoPow, ← BitVec.neg_intMin, BitVec.intMin]
  have hmax : BitVec.ofInt w ((2 ^ (w - 1) : Nat) - 1) = BitVec.intMax w := by
    rw [BitVec.intMax, Int.sub_eq_add_neg, BitVec.ofInt_add, BitVec.ofInt_natCast, ofNat_two_pow_eq_twoPow,
      BitVec.sub_eq_add_neg, BitVec.ofInt_neg]
    simp
  intro c f
  have hcast : ((2 ^ (w - 1) : Nat) : Int) = 2 ^ (w - 1) := by push_cast; rfl
  simp only [c, f, clampSat, narrow_toNat]
  by_cases hlo : v < -(2 : Int) ^ (w - 1)
  · simp [hcast, hlo, ← hmin]
  · by_cases hhi : (2 : Int) ^ (w - 1) ≤ v
    · have hgt : v > 2 ^ (w - 1) - 1 := by omega
      simp [hcast, hlo, hhi, hgt, ← hmax]
    · have hle : ¬ v > 2 ^ (w - 1) - 1 := by omega
      simp [hcast, hlo, hhi, hle, hr]

/-- The sum of two words is the wrapped sum of their signed readings. -/
theorem add_eq_ofInt_toInt {w : Nat} (x y : BitVec w) : x + y = BitVec.ofInt w (x.toInt + y.toInt) := by
  rw [BitVec.ofInt_add, BitVec.ofInt_toInt, BitVec.ofInt_toInt]

theorem sub_eq_ofInt_toInt {w : Nat} (x y : BitVec w) : x - y = BitVec.ofInt w (x.toInt - y.toInt) := by
  rw [Int.sub_eq_add_neg, BitVec.ofInt_add, BitVec.ofInt_neg, BitVec.ofInt_toInt, BitVec.ofInt_toInt, BitVec.sub_eq_add_neg]

theorem addResult_usat {w : Nat} (x y : BitVec w) :
    let f := if 2 ^ w ≤ x.toNat + y.toNat then (BitVec.allOnes w, true) else (x + y, false)
    addResult .usat w x.toNat y.toNat = (f.1.toNat, if f.2 then flagSAT else 0) := by
  by_cases h : x.toNat + y.toNat < 2 ^ w
  · simp [addResult, h, Nat.not_le.2 h, Nat.mod_eq_of_lt h]
  · simp [addResult, h, Nat.not_lt.1 h]

theorem subResult_usat {w : Nat} (x y : BitVec w) :
    let f := if x.toNat < y.toNat then (0#w, true) else (x - y, false)
    subResult .usat w x.toNat y.toNat = (f.1.toNat, if f.2 then flagSAT else 0) := by
  by_cases h : y.toNat ≤ x.toNat
  · simp [subResult, h, Nat.not_lt.2 h, BitVec.toNat_sub_of_le (BitVec.le_def.2 h)]
  · simp [subResult, h, Nat.not_le.1 h]

/-- Settles O14: the wrapping forms are those of words, and the saturating forms clamp the exact integer. -/
theorem integerAddSubtractMultiply : Obligations.IntegerAddSubtractMultiply := by
  unfold Obligations.IntegerAddSubtractMultiply
  refine ⟨⟨?add, ?sub, ?mul⟩, ?addSat, ?subSat, ?addUsat, ?subUsat⟩
  case add =>
    exact intCompletes_of_noFlag (fun w x y => (x + y) % 2 ^ w) fun _ x y => (BitVec.toNat_add x y).symm
  case sub =>
    refine intCompletes_of_noFlag (fun w x y => (x + (2 ^ w - y)) % 2 ^ w) fun _ x y => ?_
    rw [BitVec.toNat_sub, Nat.add_comm]
  case mul =>
    exact intCompletes_of_noFlag (fun w x y => x * y % 2 ^ w) fun _ x y => (BitVec.toNat_mul x y).symm
  case addSat =>
    refine intCompletes_of (fun w x y _ => addResult .sat w x y) (fun _ _ _ _ _ => rfl) (fun _ _ _ _ _ _ => rfl) ?_
    intro w hw x y _
    have hpos : 0 < w := by omega
    rw [addResult, signedOf_toInt w hpos, signedOf_toInt w hpos]
    exact clampSat_signed hpos _ _ (add_eq_ofInt_toInt x y)
  case subSat =>
    refine intCompletes_of (fun w x y _ => subResult .sat w x y) (fun _ _ _ _ _ => rfl) (fun _ _ _ _ _ _ => rfl) ?_
    intro w hw x y _
    have hpos : 0 < w := by omega
    rw [subResult, signedOf_toInt w hpos, signedOf_toInt w hpos]
    exact clampSat_signed hpos _ _ (sub_eq_ofInt_toInt x y)
  case addUsat =>
    exact intCompletes_of (fun w x y _ => addResult .usat w x y) (fun _ _ _ _ _ => rfl) (fun _ _ _ _ _ _ => rfl)
      fun _ _ x y _ => addResult_usat x y
  case subUsat =>
    exact intCompletes_of (fun w x y _ => subResult .usat w x y) (fun _ _ _ _ _ => rfl) (fun _ _ _ _ _ _ => rfl)
      fun _ _ x y _ => subResult_usat x y

/-! ## Words bit by bit -/

theorem bitsOf_getLsbD (f : Nat → Bool) (w i : Nat) : (bitsOf f w).getLsbD i = (decide (i < w) && f i) := by
  induction w with
  | zero => simp [bitsOf]
  | succ w ih =>
    rw [bitsOf, BitVec.getLsbD_cons, ih]
    by_cases hi : i = w
    · simp [hi]
    · have hlt : i < w ↔ i < w + 1 := by omega
      simp [hi, hlt]

theorem toNat_bitsOf_testBit (f : Nat → Bool) (w i : Nat) : (bitsOf f w).toNat.testBit i = (decide (i < w) && f i) :=
  bitsOf_getLsbD f w i

/-- A number is that of a word whose bits it has. -/
theorem eq_toNat_bitsOf {n w : Nat} {f : Nat → Bool} (h : ∀ i, n.testBit i = (decide (i < w) && f i)) :
    n = (bitsOf f w).toNat :=
  Nat.eq_of_testBit_eq fun i => (h i).trans (toNat_bitsOf_testBit f w i).symm

/-! ## Counts of bits (R107) -/

theorem clzResult_succ_of_testBit {w a : Nat} (ha : a < 2 ^ (w + 1)) (hb : a.testBit w = true) : clzResult (w + 1) a = 0 := by
  have hge := Nat.ge_two_pow_of_testBit hb
  have hlog : Nat.log2 a = w := (Nat.log2_eq_iff (by have := Nat.two_pow_pos w; omega)).2 ⟨hge, ha⟩
  have hne : a ≠ 0 := by have := Nat.two_pow_pos w; omega
  simp [clzResult, hlog, hne]

theorem clzResult_succ_of_lt {w a : Nat} (ha : a < 2 ^ w) : clzResult (w + 1) a = 1 + clzResult w a := by
  unfold clzResult
  by_cases h0 : a = 0
  · simp [h0, Nat.add_comm]
  · have hlog := (Nat.log2_lt h0).2 ha
    simp only [h0, if_false]
    omega

theorem leadingZeros_eq_clzResult (w a : Nat) (ha : a < 2 ^ w) :
    ((List.range w).reverse.takeWhile fun j => !a.testBit j).length = clzResult w a := by
  induction w with
  | zero =>
    obtain rfl : a = 0 := by simpa using ha
    rfl
  | succ w ih =>
    rw [List.range_succ, List.reverse_append, List.reverse_singleton, List.singleton_append, List.takeWhile_cons]
    by_cases hb : a.testBit w = true
    · simp [hb, clzResult_succ_of_testBit ha hb]
    · have hlt : a < 2 ^ w := by
        refine Nat.lt_pow_two_of_testBit a fun i hi => ?_
        rcases Nat.lt_or_ge w i with h | h
        · exact Nat.testBit_lt_two_pow (lt_of_lt_of_le ha (Nat.pow_le_pow_right (by omega) h))
        · obtain rfl : i = w := by omega
          simpa using hb
      rw [clzResult_succ_of_lt hlt, ← ih hlt]
      simp [hb, Nat.add_comm]

theorem trailingZeros_eq_ctzResult (w a : Nat) :
    ((List.range w).takeWhile fun j => !a.testBit j).length = ctzResult w a := by
  induction w generalizing a with
  | zero => rfl
  | succ w ih =>
    rw [List.range_succ_eq_map, List.takeWhile_cons, ctzResult, ← ih]
    rcases Nat.mod_two_eq_zero_or_one a with h | h
    · simp [Nat.testBit_zero, h, List.takeWhile_map, Function.comp_def, Nat.testBit_succ, Nat.add_comm]
    · simp [Nat.testBit_zero, h]

theorem oneBits_eq_popcResult (w a : Nat) : ((List.range w).filter fun j => a.testBit j).length = popcResult w a := by
  induction w generalizing a with
  | zero => rfl
  | succ w ih =>
    rw [List.range_succ_eq_map, List.filter_cons, popcResult, ← ih]
    rcases Nat.mod_two_eq_zero_or_one a with h | h
    · simp [Nat.testBit_zero, h, List.filter_map, Function.comp_def, Nat.testBit_succ]
    · simp [Nat.testBit_zero, h, List.filter_map, Function.comp_def, Nat.testBit_succ, Nat.add_comm]

/-- A count of at most w bits fits a word of w bits. -/
theorem ofNat_toNat_of_le {n w : Nat} (h : n ≤ w) : (BitVec.ofNat w n).toNat = n := by
  rw [BitVec.toNat_ofNat, Nat.mod_eq_of_lt (lt_of_le_of_lt h Nat.lt_two_pow_self)]

theorem leadingZeros_le (w : Nat) (x : BitVec w) : leadingZeros w x ≤ w := by
  simpa [leadingZeros] using (List.takeWhile_sublist (fun j => !x.getLsbD j) (l := (List.range w).reverse)).length_le

theorem trailingZeros_le (w : Nat) (x : BitVec w) : trailingZeros w x ≤ w := by
  simpa [trailingZeros] using (List.takeWhile_sublist (fun j => !x.getLsbD j) (l := List.range w)).length_le

theorem oneBits_le (w : Nat) (x : BitVec w) : oneBits w x ≤ w := by
  simpa [oneBits] using List.length_filter_le (fun j => x.getLsbD j) (List.range w)

theorem clzResult_toNat {w : Nat} (x : BitVec w) : clzResult w x.toNat = (BitVec.ofNat w (leadingZeros w x)).toNat := by
  rw [ofNat_toNat_of_le (leadingZeros_le w x)]
  exact (leadingZeros_eq_clzResult w x.toNat x.isLt).symm

theorem ctzResult_toNat {w : Nat} (x : BitVec w) : ctzResult w x.toNat = (BitVec.ofNat w (trailingZeros w x)).toNat := by
  rw [ofNat_toNat_of_le (trailingZeros_le w x)]
  exact (trailingZeros_eq_ctzResult w x.toNat).symm

theorem popcResult_toNat {w : Nat} (x : BitVec w) : popcResult w x.toNat = (BitVec.ofNat w (oneBits w x)).toNat := by
  rw [ofNat_toNat_of_le (oneBits_le w x)]
  exact (oneBits_eq_popcResult w x.toNat).symm

/-! ## Reversals (R107) -/

theorem brevResult_lt (n a : Nat) : brevResult n a < 2 ^ n := by
  induction n generalizing a with
  | zero => simp [brevResult]
  | succ n ih =>
    have hlow := ih (a / 2)
    have hbit := Nat.mod_lt a (show 0 < 2 by omega)
    rw [brevResult, pow_succ]
    nlinarith

theorem brevResult_testBit (n a i : Nat) : (brevResult n a).testBit i = (decide (i < n) && a.testBit (n - 1 - i)) := by
  induction n generalizing a i with
  | zero => simp [brevResult]
  | succ n ih =>
    rw [brevResult, Nat.mul_comm, Nat.testBit_two_pow_mul_add _ (brevResult_lt n (a / 2)), ih]
    by_cases hi : i < n
    · have hidx : n + 1 - 1 - i = n - 1 - i + 1 := by omega
      have hi' : i < n + 1 := by omega
      simp only [hi, hi', if_true, decide_true, Bool.true_and, hidx, Nat.testBit_succ]
    · by_cases hn : i = n
      · simp [hn, Nat.testBit_zero]
      · have hge : ¬ i < n + 1 := by omega
        have hsub : i - n = i - n - 1 + 1 := by omega
        have hbit : a % 2 / 2 = 0 := by omega
        rw [hsub, Nat.testBit_succ, hbit]
        simp [hi, hge]

theorem bswapResult_lt (n a : Nat) : bswapResult n a < 2 ^ (8 * n) := by
  induction n generalizing a with
  | zero => simp [bswapResult]
  | succ n ih =>
    have hlow := ih (a / 256)
    have hbyte := Nat.mod_lt a (show 0 < 256 by omega)
    have hpow : 256 ^ n = 2 ^ (8 * n) := by rw [pow_mul]; rfl
    rw [bswapResult, Nat.mul_add, pow_add, hpow, show 2 ^ (8 * 1) = 256 by rfl]
    nlinarith

theorem bswapResult_testBit (n a i : Nat) :
    (bswapResult n a).testBit i = (decide (i < 8 * n) && a.testBit (8 * (n - 1 - i / 8) + i % 8)) := by
  induction n generalizing a i with
  | zero => simp [bswapResult]
  | succ n ih =>
    have hpow : 256 ^ n = 2 ^ (8 * n) := by rw [pow_mul]; rfl
    have hdiv (k : Nat) : (a / 256).testBit k = a.testBit (k + 8) := by
      rw [show 256 = 2 ^ 8 by rfl, Nat.testBit_div_two_pow]
    have hmod (k : Nat) : (a % 256).testBit k = (decide (k < 8) && a.testBit k) := by
      rw [show 256 = 2 ^ 8 by rfl, Nat.testBit_mod_two_pow]
    rw [bswapResult, Nat.mul_comm, hpow, Nat.testBit_two_pow_mul_add _ (bswapResult_lt n (a / 256)), ih, hdiv, hmod]
    by_cases hi : i < 8 * n
    · have hidx : 8 * (n + 1 - 1 - i / 8) + i % 8 = 8 * (n - 1 - i / 8) + i % 8 + 8 := by omega
      have hi' : i < 8 * (n + 1) := by omega
      simp only [hi, hi', if_true, decide_true, Bool.true_and, hidx]
    · by_cases htop : i < 8 * (n + 1)
      · have hidx : 8 * (n + 1 - 1 - i / 8) + i % 8 = i - 8 * n := by omega
        have hlt : i - 8 * n < 8 := by omega
        simp only [hi, htop, hlt, if_false, decide_true, Bool.true_and, hidx]
      · have hge : ¬ i - 8 * n < 8 := by omega
        simp only [hi, htop, hge, if_false, decide_false, Bool.false_and]

theorem brevResult_toNat {w : Nat} (x : BitVec w) :
    brevResult w x.toNat = (bitsOf (fun j => x.getLsbD (w - 1 - j)) w).toNat :=
  eq_toNat_bitsOf fun i => brevResult_testBit w x.toNat i

theorem bswapResult_toNat {w : Nat} (hw : w = 32 ∨ w = 64) (x : BitVec w) : bswapResult (w / 8) x.toNat =
    (bitsOf (fun j => x.getLsbD (8 * (w / 8 - 1 - j / 8) + j % 8)) w).toNat := by
  have hbytes : 8 * (w / 8) = w := by omega
  refine eq_toNat_bitsOf fun i => ?_
  rw [bswapResult_testBit, hbytes]
  rfl

/-! ## Bit fields (R108) -/

theorem fieldOf_eq {w : Nat} (y : BitVec w) : fieldOf w y = (y.toNat % 64, fieldLen w y.toNat) := rfl

/-- A field that is not empty lies within the word. -/
theorem add_fieldLen_le {w b : Nat} (h : 0 < fieldLen w b) : b % 64 + fieldLen w b ≤ w := by
  unfold fieldLen at h ⊢
  split at h
  · omega
  · rename_i hpos
    rw [if_neg hpos]
    omega

theorem bfx_field_testBit (a pos l i : Nat) :
    (a / 2 ^ pos % 2 ^ l).testBit i = (decide (i < l) && a.testBit (pos + i)) := by
  rw [Nat.testBit_mod_two_pow, Nat.testBit_div_two_pow, Nat.add_comm]

theorem bfxResult_unsigned {w : Nat} (x y : BitVec w) : bfxResult false w x.toNat y.toNat =
    (bitsOf (fun j => decide (j < (fieldOf w y).2) && x.getLsbD ((fieldOf w y).1 + j)) w).toNat := by
  refine eq_toNat_bitsOf fun i => ?_
  simp only [bfxResult, Bool.false_and, Bool.false_eq_true, if_false, fieldOf_eq]
  rw [bfx_field_testBit]
  by_cases hi : i < fieldLen w y.toNat
  · have hin := add_fieldLen_le (w := w) (b := y.toNat) (by omega)
    have hw : i < w := by omega
    simp only [hi, hw, decide_true, Bool.true_and]
    rfl
  · simp [hi]

/-- A field of l bits, read as a signed number and narrowed to w bits, repeats its top bit. -/
theorem narrow_signedOf_testBit {w l : Nat} (f i : Nat) (hl : 0 < l) (hlw : l ≤ w) (hf : f < 2 ^ l) :
    (narrow w (signedOf l f)).testBit i = (decide (i < w) && f.testBit (min i (l - 1))) := by
  have hval := signedOf_toInt l hl (BitVec.ofNat l f)
  rw [BitVec.toNat_ofNat, Nat.mod_eq_of_lt hf] at hval
  rw [hval, narrow_toNat]
  have hext : BitVec.ofInt w (BitVec.ofNat l f).toInt = (BitVec.ofNat l f).signExtend w := rfl
  rw [hext]
  change ((BitVec.ofNat l f).signExtend w).getLsbD i = _
  rw [BitVec.getLsbD_signExtend, BitVec.getLsbD_ofNat, BitVec.msb_eq_getLsbD_last, BitVec.getLsbD_ofNat]
  by_cases hi : i < l
  · have hmin : min i (l - 1) = i := by omega
    simp [hi, hmin]
  · have hmin : min i (l - 1) = l - 1 := by omega
    simp [hi, hmin, hl]

theorem bfxResult_signed {w : Nat} (x y : BitVec w) : bfxResult true w x.toNat y.toNat =
    (bitsOf (fun j => decide (0 < (fieldOf w y).2) && x.getLsbD ((fieldOf w y).1 + min j ((fieldOf w y).2 - 1))) w).toNat := by
  refine eq_toNat_bitsOf fun i => ?_
  simp only [bfxResult, Bool.true_and, fieldOf_eq]
  by_cases hl : 0 < fieldLen w y.toNat
  · have hin := add_fieldLen_le hl
    have hne : (fieldLen w y.toNat != 0) = true := by simpa using hl.ne'
    have hlast : min i (fieldLen w y.toNat - 1) < fieldLen w y.toNat := by omega
    rw [if_pos hne, narrow_signedOf_testBit _ _ hl (by omega) (Nat.mod_lt _ (Nat.two_pow_pos _)), bfx_field_testBit]
    simp only [hlast, hl, decide_true, Bool.true_and]
    rfl
  · have hzero : fieldLen w y.toNat = 0 := by omega
    simp [hzero, Nat.mod_one]

theorem bfiResult_toNat {w : Nat} (x y z : BitVec w) : bfiResult w x.toNat y.toNat z.toNat =
    (bitsOf (fun j => if (fieldOf w y).1 ≤ j ∧ j < (fieldOf w y).1 + (fieldOf w y).2
      then x.getLsbD (j - (fieldOf w y).1) else z.getLsbD j) w).toNat := by
  refine eq_toNat_bitsOf fun i => ?_
  simp only [fieldOf_eq]
  have hmask (k : Nat) : ((2 ^ fieldLen w y.toNat - 1) * 2 ^ (y.toNat % 64)).testBit k =
      decide (y.toNat % 64 ≤ k ∧ k < y.toNat % 64 + fieldLen w y.toNat) := by
    rw [Nat.testBit_mul_two_pow, Nat.testBit_two_pow_sub_one]
    by_cases hk : y.toNat % 64 ≤ k
    · have hlt : k - y.toNat % 64 < fieldLen w y.toNat ↔ k < y.toNat % 64 + fieldLen w y.toNat := by omega
      simp [hk, hlt]
    · simp [hk]
  have hfit : (2 ^ fieldLen w y.toNat - 1) * 2 ^ (y.toNat % 64) < 2 ^ w := by
    refine Nat.lt_pow_two_of_testBit _ fun k hk => ?_
    rw [hmask]
    rcases Nat.eq_zero_or_pos (fieldLen w y.toNat) with h0 | hpos
    · simp [h0]
    · have hin := add_fieldLen_le hpos
      simp; omega
  have hnot : (2 ^ w - 1 - (2 ^ fieldLen w y.toNat - 1) * 2 ^ (y.toNat % 64)).testBit i =
      (decide (i < w) && !((2 ^ fieldLen w y.toNat - 1) * 2 ^ (y.toNat % 64)).testBit i) := by
    rw [Nat.sub_sub, Nat.add_comm 1]
    exact Nat.testBit_two_pow_sub_succ hfit i
  rw [bfiResult, Nat.testBit_or, Nat.testBit_and, Nat.testBit_and, hnot, hmask, Nat.testBit_mul_two_pow]
  by_cases hin : y.toNat % 64 ≤ i ∧ i < y.toNat % 64 + fieldLen w y.toNat
  · have hbound := add_fieldLen_le (w := w) (b := y.toNat) (by omega)
    have hw : i < w := by omega
    simp only [hin, hw, decide_true, Bool.not_true, Bool.and_false, Bool.false_or, Bool.true_and, Bool.and_true, and_self, if_true]
    rfl
  · have hz (hge : w ≤ i) : z.toNat.testBit i = false := BitVec.getLsbD_of_ge z i hge
    by_cases hw : i < w
    · simp only [hin, hw, decide_true, decide_false, Bool.not_false, Bool.and_true, Bool.and_false, Bool.or_false,
        Bool.true_and, if_false]
      rfl
    · simp [hin, hw]

/-- An operation of one operand that sets no flag completes in both forms; what its unused operand field holds is not read. -/
theorem intCompletes_unary {scalar : IntTy → BitVec 6 → BitVec 6 → Instr}
    {vector : IntTy → BitVec 5 → BitVec 5 → BitVec 3 → Instr} {f : (w : Nat) → BitVec w → BitVec w} (g : Nat → Nat → Nat)
    (hg : ∀ {w : Nat}, w = 32 ∨ w = 64 → ∀ x : BitVec w, g w x.toNat = (f w x).toNat)
    (hs : ∀ t d a s, exec (scalar t d a) s = .next (s.intScalar t d a 0 fun w x _ _ => (g w x, 0)) := by intros; rfl)
    (hv : ∀ t d a p s, exec (vector t d a p) s = .next (s.intVector t d a 0 p fun w x _ _ => (g w x, 0)) := by intros; rfl) :
    intCompletes (fun t d a _ => scalar t d a) (fun t d a _ p => vector t d a p) fun w x _ _ => (f w x, false) := by
  refine intCompletes_of (fun w x _ _ => (g w x, 0)) (fun t d a _ s => hs t d a s) (fun t d a _ p s => hv t d a p s) ?_
  intro w hw x _ _
  simp [hg hw x]

/-- Settles O19: counts, reversals and fields are settled bit by bit of their numbers. -/
theorem integerBitOperations : Obligations.IntegerBitOperations := by
  unfold Obligations.IntegerBitOperations
  refine ⟨⟨?clz, ?ctz, ?popc, ?brev, ?bswap⟩, ?bfx, ?bfxS, ?bfi⟩
  case clz =>
    exact intCompletes_unary clzResult fun _ => clzResult_toNat
  case ctz =>
    exact intCompletes_unary ctzResult fun _ => ctzResult_toNat
  case popc =>
    exact intCompletes_unary popcResult fun _ => popcResult_toNat
  case brev =>
    exact intCompletes_unary brevResult fun _ => brevResult_toNat
  case bswap =>
    exact intCompletes_unary (fun w x => bswapResult (w / 8) x) bswapResult_toNat
  case bfx =>
    exact intCompletes_of_noFlag (bfxResult false) fun _ => bfxResult_unsigned
  case bfxS =>
    exact intCompletes_of_noFlag (bfxResult true) fun _ => bfxResult_signed
  case bfi =>
    refine intCompletes_of (fun w x y z => (bfiResult w x y z, 0)) (fun _ _ _ _ _ => rfl) (fun _ _ _ _ _ _ => rfl) ?_
    intro w _ x y z
    simp only [bfiResult_toNat, Bool.false_eq_true, if_false]

end Sys2Proof.Machine
end

section
/-! Predicates, comparisons and immediates (spec/04, R109 to R115), and transfers of control (spec/02, spec/04, R41, R80 to
R86). -/

namespace Sys2Proof.Machine

open Sys2Proof

set_option Elab.async false

/-! ## Comparisons (R110) -/

theorem getLsbD_shiftLeft_one {w : Nat} (n k : Nat) (hk : k < w) : ((1#w) <<< n).getLsbD k = decide (k = n) := by
  rw [BitVec.getLsbD_shiftLeft, BitVec.getLsbD_one]
  by_cases h : k = n
  · simp [h, hk]
    omega
  · rcases Nat.lt_or_gt_of_ne h with hlt | hgt
    · simp [h, hlt]
    · have h0 : ¬ k - n = 0 := by omega
      simp [h, h0]

/-- A vector comparison sets the bits of the active lanes and keeps the others. -/
theorem predLanes_getLsbD (mask old : Pred) (f : Nat → Bool) (n k : Nat) (hk : k < 16) :
    (predLanes mask old f n).getLsbD k = if k < n ∧ mask.getLsbD k = true then f k else old.getLsbD k := by
  induction n with
  | zero => simp [predLanes]
  | succ n ih =>
    have hbit := getLsbD_shiftLeft_one (w := 16) n k hk
    by_cases hm : mask.getLsbD n = true
    · have hstep : (predLanes mask old f (n + 1)).getLsbD k =
          if k = n then f n else (predLanes mask old f n).getLsbD k := by
        rw [predLanes, if_pos hm]
        by_cases hkn : k = n
        · have hn : n < 16 := hkn ▸ hk
          cases f n <;> simp only [BitVec.getLsbD_or, BitVec.getLsbD_and, BitVec.getLsbD_not, hbit, hkn] <;> simp [hn]
        · cases f n <;> simp [hbit, hk, hkn, -BitVec.getLsbD_eq_getElem]
      rw [hstep, ih]
      by_cases hkn : k = n
      · subst hkn
        rw [if_pos rfl, if_pos ⟨Nat.lt_succ_self k, hm⟩]
      · have hlt : k < n + 1 ↔ k < n := by omega
        simp only [if_neg hkn, hlt]
    · rw [predLanes, if_neg hm, ih]
      by_cases hkn : k = n
      · subst hkn
        rw [if_neg fun h => hm h.2, if_neg fun h => hm h.2]
      · have hlt : k < n + 1 ↔ k < n := by omega
        simp only [hlt]

/-- The predicate of a comparison of 8 or 16 lanes, bit by bit: above the lanes it is clear. -/
theorem predOf_eq_bitsOf {n : Nat} (hn : n = 8 ∨ n = 16) (mask old : Pred) (f : Nat → Bool) :
    predOf n mask old f = bitsOf (fun j => decide (j < n) && if mask.getLsbD j then f j else old.getLsbD j) 16 := by
  apply BitVec.eq_of_getLsbD_eq
  intro k hk
  rw [bitsOf_getLsbD]
  have hlow : (0x00FF#16).getLsbD k = decide (k < 8) := by
    revert k
    decide
  rcases hn with rfl | rfl
  · have h : predOf 8 mask old f = predLanes mask old f 8 &&& 0x00FF#16 := rfl
    rw [h, BitVec.getLsbD_and, predLanes_getLsbD _ _ _ _ _ hk, hlow]
    by_cases h8 : k < 8 <;> simp [hk, h8, -BitVec.getLsbD_eq_getElem]
  · have h : predOf 16 mask old f = predLanes mask old f 16 := rfl
    rw [h, predLanes_getLsbD _ _ _ _ _ hk]
    simp [hk, -BitVec.getLsbD_eq_getElem]

/-- A comparison of numbers is that of the words. -/
theorem cmpResult_toNat {w : Nat} (hw : 0 < w) (c : CmpCond) (x y : BitVec w) : cmpResult c w x.toNat y.toNat =
    match c with
      | .eq => x == y | .ne => x != y | .lt => x.slt y | .ge => !x.slt y | .ltu => x.ult y | .geu => !x.ult y := by
  cases c <;> simp only [cmpResult, signedOf_toInt w hw]
  case eq => rw [Bool.eq_iff_iff, beq_iff_eq, beq_iff_eq, BitVec.toNat_inj]
  case ne => rw [Bool.eq_iff_iff, bne_iff_ne, bne_iff_ne, Ne, BitVec.toNat_inj]
  case lt => rw [BitVec.slt]
  case ge => simp only [BitVec.slt, ← decide_not, Int.not_lt]
  case ltu => rw [BitVec.ult]
  case geu => simp only [BitVec.ult, ← decide_not, Nat.not_lt]

theorem IntTy.width_pos (t : IntTy) : 0 < IntTy.width t := by cases t <;> decide

theorem IntTy.lanes_cases (t : IntTy) : 512 / IntTy.width t = 8 ∨ 512 / IntTy.width t = 16 := by
  cases t
  · exact .inr rfl
  · exact .inl rfl

theorem Thread.intSrc_eq_low (u : Thread) (w : Nat) (a : BitVec 6) : u.intSrc w a = (u.low w a).toNat := by
  simp [Thread.intSrc, Thread.low]

/-- The words of SEL name predicates 0 to 6 (Table 2.7). -/
theorem sel_predicate_ne {w : BitVec 32} {t : IntTy} {d a b : BitVec 6} {p : BitVec 3}
    (h : decodeWord w = .ok (.sel t d a b p)) : p ≠ 7 := by
  obtain ⟨-, hwf⟩ := (decodeWord_eq_ok_iff _ _).1 h
  simpa [Instr.wellFormed] using hwf

/-- Settles O20: SEL is an integer operation whose choice its predicate makes; a comparison of lanes is settled bit by bit. -/
theorem predicateOperations : Obligations.PredicateOperations := by
  unfold Obligations.PredicateOperations
  refine ⟨⟨⟨fun t d a b p s => ?sel, fun w t d a b p h => sel_predicate_ne h⟩, fun _ _ _ _ => ⟨rfl, rfl, rfl, rfl⟩, fun _ _ _ => rfl,
    fun _ _ _ => rfl, fun _ _ => ⟨rfl, rfl⟩⟩, fun t pd a b c s => ?cmp, fun t pd a b p c s => ?cmpV, fun _ _ => ⟨rfl, rfl⟩⟩
  case sel =>
    refine intScalar_completes (.sel t d a b p) s t d a b (fun _ x y _ => (if (s.thr.rp p).getLsbD 0 then x else y, 0))
      (fun _ x y _ => (if (s.thr.rp p).getLsbD 0 then x else y, false)) rfl fun x y _ => ?_
    cases (s.thr.rp p).getLsbD 0 <;> rfl
  case cmp =>
    simp only [completes, exec, execCmp, Thread.intSrc_eq_low, cmpResult_toNat (IntTy.width_pos t), predAll] <;> rfl
  case cmpV =>
    simp only [completes, exec, execCmpV, elem_eq_lane, cmpResult_toNat (IntTy.width_pos t), predOf_eq_bitsOf (IntTy.lanes_cases t)] <;> rfl

/-! ## Immediates (R111 to R114) -/

theorem setWidth_word_eq {n : Nat} (v : BitVec n) (h : n ≤ 64) (k : Nat) : (v.zeroExtend 64).getLsbD k = v.getLsbD k := by
  rw [BitVec.getLsbD_setWidth]
  by_cases hk : k < 64
  · simp [hk]
  · rw [BitVec.getLsbD_of_ge v k (by omega), Bool.and_false]

/-- MOVH replaces the quarter that it names. -/
theorem movh_eq_bitsOf (x : Word) (q : BitVec 2) (v : BitVec 16) :
    (x &&& ~~~(0xFFFF#64 <<< (16 * q.toNat))) ||| (v.zeroExtend 64 <<< (16 * q.toNat)) =
      bitsOf (fun j => if j / 16 = q.toNat then v.getLsbD (j % 16) else x.getLsbD j) 64 := by
  apply BitVec.eq_of_getLsbD_eq
  intro k hk
  have hq := q.isLt
  have hmask (i : Nat) : (0xFFFF#64).getLsbD i = decide (i < 16) := by
    rw [show 0xFFFF#64 = BitVec.ofNat 64 (2 ^ 16 - 1) by rfl, BitVec.getLsbD_ofNat, Nat.testBit_two_pow_sub_one]
    by_cases hi : i < 16
    · simp [hi]; omega
    · simp [hi]
  rw [bitsOf_getLsbD, BitVec.getLsbD_or, BitVec.getLsbD_and, BitVec.getLsbD_not, BitVec.getLsbD_shiftLeft,
    BitVec.getLsbD_shiftLeft, hmask, setWidth_word_eq v (by omega)]
  by_cases hlow : k < 16 * q.toNat
  · have hne : ¬ k / 16 = q.toNat := by omega
    simp [hk, hlow, hne]
  · by_cases hin : k - 16 * q.toNat < 16
    · have heq : k / 16 = q.toNat := by omega
      have hmod : k % 16 = k - 16 * q.toNat := by omega
      simp [hk, hlow, hin, heq, hmod]
    · have hne : ¬ k / 16 = q.toNat := by omega
      have hz : v.getLsbD (k - 16 * q.toNat) = false := BitVec.getLsbD_of_ge v _ (by omega)
      simp [hk, hlow, hin, hne, hz]

theorem add_signExtend_eq_ofInt {n : Nat} (x : Word) (imm : BitVec n) :
    x + imm.signExtend 64 = BitVec.ofInt 64 (x.toNat + imm.toInt) := by
  rw [BitVec.ofInt_add, BitVec.ofInt_natCast, BitVec.ofNat_toNat, BitVec.setWidth_eq]
  rfl

theorem add_shiftLeft_eq_ofNat (x y : Word) (n : Nat) : x + (y <<< n) = BitVec.ofNat 64 (x.toNat + y.toNat * 2 ^ n) := by
  apply BitVec.eq_of_toNat_eq
  simp [Nat.shiftLeft_eq]

/-- Settles O21: each result as the number it is the word of. -/
theorem immediateOperations : Obligations.ImmediateOperations := by
  unfold Obligations.ImmediateOperations
  refine ⟨fun d a b sh s => ?lea, fun d a imm s => ⟨?addi, rfl, rfl, rfl⟩, fun d a c s => ⟨?shli, ?shri, ?srai⟩, fun _ _ _ => rfl,
    fun d q v s => ?movh⟩
  case lea => simp only [completes, exec, execLea, State.wordOp, add_shiftLeft_eq_ofNat]
  case addi => simp only [completes, exec, execAddi, State.wordOp, add_signExtend_eq_ofInt]
  case shli =>
    have h (x : Word) : x <<< c.toNat = BitVec.ofNat 64 (x.toNat * 2 ^ c.toNat) :=
      BitVec.eq_of_toNat_eq (by simp [Nat.shiftLeft_eq])
    simp only [completes, exec, execShli, State.wordOp, h]
  case shri =>
    have h (x : Word) : x >>> c.toNat = BitVec.ofNat 64 (x.toNat / 2 ^ c.toNat) := by
      apply BitVec.eq_of_toNat_eq
      rw [BitVec.toNat_ushiftRight, BitVec.toNat_ofNat, Nat.shiftRight_eq_div_pow,
        Nat.mod_eq_of_lt (lt_of_le_of_lt (Nat.div_le_self _ _) x.isLt)]
    simp only [completes, exec, execShri, State.wordOp, h]
  case srai =>
    have h (x : Word) : x.sshiftRight c.toNat = BitVec.ofInt 64 (x.toInt / 2 ^ c.toNat) := by
      rw [BitVec.sshiftRight, Int.shiftRight_eq_div_pow]
      norm_cast
    simp only [completes, exec, execSrai, State.wordOp, h]
  case movh => simp only [completes, exec, execMovh, State.wordOp, movh_eq_bitsOf]

/-! ## Transfers of control (R41, R80 to R86) -/

theorem signExtend_shiftLeft_two {w : Nat} (off : BitVec w) : off.signExtend 64 <<< 2 = BitVec.ofInt 64 (4 * off.toInt) := by
  rw [BitVec.shiftLeft_eq_mul_twoPow, BitVec.ofInt_mul, BitVec.mul_comm]
  rfl

theorem branchTarget_eq_relative (t : Thread) {w : Nat} (off : BitVec w) : t.branchTarget off = t.relative off := by
  rw [Thread.branchTarget, Thread.relative, signExtend_shiftLeft_two, BitVec.ofInt_add, BitVec.ofInt_natCast]
  exact congrArg (· + _) (BitVec.eq_of_toNat_eq (by simp))

theorem taken_iff (t : Thread) (p : BitVec 3) (n : Bool) : t.taken p n = true ↔ ¬ (t.rp p).getLsbD 0 = n := by
  rw [Thread.taken, bne_iff_ne]

theorem sub_one_ne_zero_iff (x : Word) : x - 1 ≠ 0 ↔ ¬ x = 1 := by
  rw [not_iff_not]
  exact sub_eq_zero

/-- A transfer asks for its effect on the thread at issue alone. -/
theorem State.transfer_congr {s : State} (a : Word) {f g : Thread → Thread} (h : f s.thr = g s.thr) :
    s.transfer a f = s.transfer a g := by
  have hon : s.onThr (fun t => (f t).goto (a.truncate 52)) = s.onThr (fun t => (g t).goto (a.truncate 52)) := by
    simp only [State.onThr, h]
  unfold State.transfer
  rw [hon]

theorem onThr_congr {s : State} {f g : Thread → Thread} (h : f s.thr = g s.thr) : s.onThr f = s.onThr g := by
  simp only [State.onThr, h]

/-- What every transfer of control is: with no target its writes and the next unit, else the transfer to its target. -/
theorem exec_of_isTransfer {i : Instr} (s : State) (h : isTransfer i = true) : exec i s = .next
    (match transfersTo s.thr i with
      | none => s.onThr fun t => (transferWrites i t).advance
      | some T => s.transfer T (transferWrites i)) := by
  cases i <;> first | exact absurd h Bool.false_ne_true | skip
  case bc u p n off =>
    rw [exec, execBc, transfersTo, branchTarget_eq_relative]
    by_cases hp : (s.thr.rp p).getLsbD 0 = n
    · rw [if_pos hp, if_neg ((taken_iff _ _ _).not.2 (not_not.2 hp))]
      rfl
    · rw [if_neg hp, if_pos ((taken_iff _ _ _).2 hp)]
      rfl
  case call u p n off =>
    have hto : transfersTo s.thr (.call u p n off) = if (s.thr.rp p).getLsbD 0 = n then none else some (s.thr.relative off) := rfl
    rw [exec, execCall, branchTarget_eq_relative]
    by_cases hp : (s.thr.rp p).getLsbD 0 = n
    · rw [if_pos hp] at hto
      rw [hto, if_neg ((taken_iff _ _ _).not.2 (not_not.2 hp))]
      refine congrArg _ (onThr_congr (congrArg Thread.advance ?_))
      rw [transferWrites, hto]
      rfl
    · rw [if_neg hp] at hto
      rw [hto, if_pos ((taken_iff _ _ _).2 hp)]
      refine congrArg _ (State.transfer_congr _ ?_)
      rw [transferWrites, hto]
      rfl
  case bz u a off =>
    rw [exec, execBz, transfersTo, branchTarget_eq_relative]
    by_cases ha : s.thr.rg a = 0
    · rw [if_pos ha, if_pos (show s.rg a = 0 from ha)]
      rfl
    · rw [if_neg ha, if_neg (show ¬ s.rg a = 0 from ha)]
      rfl
  case bnz u a off =>
    rw [exec, execBnz, transfersTo, branchTarget_eq_relative]
    by_cases ha : s.thr.rg a = 0
    · rw [if_pos ha, if_neg (show ¬ s.rg a ≠ 0 from not_not.2 ha)]
      rfl
    · rw [if_neg ha, if_pos (show s.rg a ≠ 0 from ha)]
      rfl
  case loop u a off =>
    rw [exec, execLoop, transfersTo, branchTarget_eq_relative]
    by_cases ha : s.thr.rg a = 1
    · rw [if_pos ha, if_neg (show ¬ s.rg a - 1 ≠ 0 from fun h => (sub_one_ne_zero_iff _).1 h ha)]
      rfl
    · rw [if_neg ha, if_pos (show s.rg a - 1 ≠ 0 from (sub_one_ne_zero_iff _).2 ha)]
      exact congrArg _ (State.transfer_congr _ rfl)
  case bi => rfl
  case calli => rfl
  case ret => rfl

/-- Settles O22: a transfer is its writes with the next unit, or the transfer to its target, whose checks pass. -/
theorem transfersComplete : Obligations.TransfersComplete := by
  unfold Obligations.TransfersComplete
  refine ⟨fun _ _ => rfl, fun i s h => ⟨fun hto => ?_, fun T hto hok hin => ?_⟩⟩
  · rw [completes, exec_of_isTransfer s h, hto]
  · rw [becomes, exec_of_isTransfer s h, hto]
    simp only [State.transfer, hok, if_pos hin]

theorem transfer_of_badTarget {s : State} {T : Word} {c : Cause} {f : Thread → Thread}
    (h : checkTarget s s.thr.view T = .trap c T) : s.transfer T f = s.trap c T 0 := by
  simp only [State.transfer, h]

theorem two_pow_le_iff_div_ne_zero (a : Nat) : 2 ^ 52 ≤ a ↔ a / 2 ^ 52 ≠ 0 := by
  rw [Nat.div_ne_zero_iff]
  simp

/-- Settles O23: each check of a target, in its order. -/
theorem badTargetsTrap : Obligations.BadTargetsTrap := by
  unfold Obligations.BadTargetsTrap
  intro i s T h hto
  have hexec {c : Cause} (hc : checkTarget s s.thr.view T = .trap c T) : exec i s = .next (s.trap c T 0) := by
    rw [exec_of_isTransfer s h, hto]
    exact congrArg _ (transfer_of_badTarget hc)
  have hlow (hT : T.toNat < 2 ^ 52) : ¬ T.toNat / 2 ^ 52 ≠ 0 := by omega
  refine ⟨fun hT => hexec ?_, fun hT h4 => hexec ?_, fun hT h8 w prev hw hprev => ⟨fun h31 p31 p30 => hexec ?_, fun h31 h30 => hexec ?_⟩⟩
  · rw [checkTarget, if_pos ((two_pow_le_iff_div_ne_zero _).1 hT)]
  · rw [checkTarget, if_neg (hlow hT), if_pos h4]
  · rw [checkTarget, if_neg (hlow hT), if_neg (by omega), if_neg (by omega)]
    simp only [hw, hprev, h31, p31, p30]
    rfl
  · rw [checkTarget, if_neg (hlow hT), if_neg (by omega), if_neg (by omega)]
    simp only [hw, hprev, h31, h30]
    rfl

end Sys2Proof.Machine
end

section
/-! The unit (spec/01, spec/02): two threads of one name, which no program makes, keep a step from being the unit of the thread
at issue alone. -/

namespace Sys2Proof.Machine

open Sys2Proof

set_option Elab.async false

/-! ## A state with two threads of one name -/

/-- A module with words placed at the pc of its one thread, which is Stalled, and in another cluster a thread of the same name
that has met a fault which is not known yet. -/
def twins (bytes w : Nat) : State :=
  let s := State.reset.placeWord bytes w
  let fault : Pend := ⟨0, .g 1, 3, false, 0, 0, 0, 0, .fault .badTarget 0 false, false, 0, false⟩
  { s with
    thr := { s.thr with status := .stalled }
    others := [{ s.thr with view := { s.thr.view with cluster := 5 }, pending := [fault] }] }

/-- What the other threads have met is known in the state that a step leaves. -/
def othersKnow : Out → Bool
  | .next u => u.others.all fun v => v.pending.all Pend.known
  | .fault _ | .refused _ => false

/-- The thread at issue takes its turn: it is next, nothing comes before its unit, and nothing is due. -/
theorem twins_turn (bytes w : Nat) (h : bytes = 4 ∧ w = 0x40000000 ∨ bytes = 8 ∧ w = 0x8000000000000000) :
    (twins bytes w).quiet = true ∧ (twins bytes w).turnThread = some (twins bytes w).thr ∧
      (twins bytes w).thread? (twins bytes w).thr.key = some (twins bytes w).thr ∧ (twins bytes w).thr.issuesUnit = true := by
  rcases h with ⟨rfl, rfl⟩ | ⟨rfl, rfl⟩ <;> decide +kernel

theorem twins_due (bytes w : Nat) (h : bytes = 4 ∧ w = 0x40000000 ∨ bytes = 8 ∧ w = 0x8000000000000000) :
    ((twins bytes w).atIssue (twins bytes w).thr).due = .clear ((twins bytes w).atIssue (twins bytes w).thr) := by
  rcases h with ⟨rfl, rfl⟩ | ⟨rfl, rfl⟩ <;> decide +kernel

/-- Refutes O4: `thread?` names the first thread of a key, but a step makes known what every thread of the key of a Stalled
one has met; NOP, run for one of two threads of one name, leaves the fault of the other as it was. -/
theorem not_stepRunsLoneWord : ¬ Obligations.StepRunsLoneWord := by
  unfold Obligations.StepRunsLoneWord
  intro h
  obtain ⟨hunit, -, -⟩ := h
  let s := twins 4 0x40000000
  obtain ⟨hquiet, hturn, hthr, hissues⟩ := twins_turn 4 0x40000000 (.inl ⟨rfl, rfl⟩)
  have hfetch : fetchUnit (s.atIssue s.thr) (s.atIssue s.thr).thr.view (s.atIssue s.thr).thr.pc.toNat = .lone 0x40000000 := by
    decide +kernel
  have hstep := (hunit s (s.atIssue s.thr) s.thr hquiet hturn hthr hissues).2 0x40000000 (.nop true)
    (twins_due 4 0x40000000 (.inl ⟨rfl, rfl⟩)) (by decide +kernel) hfetch (by decide +kernel) (fun _ => rfl)
  have hknown : othersKnow (step s) = true := by decide +kernel
  have hleft : othersKnow (andThen (exec (.nop true) ((s.atIssue s.thr).onThr fun u => { u with pairNow := false }))
      fun q => q.afterUnit (s.atIssue s.thr).thr (s.clockOf s.thr)) = false := by decide +kernel
  rw [hstep, hleft] at hknown
  exact Bool.false_ne_true hknown

/-- Refutes O5, by the state of O4's refutation with the pair NOP, ADD g0 at the pc. -/
theorem not_stepRunsPair : ¬ Obligations.StepRunsPair := by
  unfold Obligations.StepRunsPair
  intro h
  obtain ⟨hunit, -⟩ := h
  let s := twins 8 0x8000000000000000
  obtain ⟨hquiet, hturn, hthr, hissues⟩ := twins_turn 8 0x8000000000000000 (.inr ⟨rfl, rfl⟩)
  have hfetch : fetchUnit (s.atIssue s.thr) (s.atIssue s.thr).thr.view (s.atIssue s.thr).thr.pc.toNat = .pair 0 0x80000000 := by
    decide +kernel
  have hstep := hunit s (s.atIssue s.thr) s.thr 0 0x80000000 (.nop false) (.add .i32 0 0 0 .wrap) hquiet hturn hthr hissues
    (twins_due 8 0x8000000000000000 (.inr ⟨rfl, rfl⟩)) (by decide +kernel) (by decide +kernel) hfetch (by decide +kernel)
    (by decide +kernel) (by decide +kernel)
  have hknown : othersKnow (step s) = true := by decide +kernel
  have hleft : othersKnow (andThen (((s.atIssue s.thr).onThr fun u => { u with pairNow := true }).runPair (.nop false)
      (.add .i32 0 0 0 .wrap)) fun q => q.afterUnit (s.atIssue s.thr).thr (s.clockOf s.thr)) = false := by decide +kernel
  rw [hstep, hleft] at hknown
  exact Bool.false_ne_true hknown

end Sys2Proof.Machine
end

section
/-! Traps and returns (spec/13, R295 to R298; spec/04, R89, R90; spec/01, R35, R36). -/

namespace Sys2Proof.Machine

open Sys2Proof

set_option Elab.async false

/-! ## The thread at issue and the fetch -/

/-- Room in a slice is made whatever the thread at issue holds. -/
theorem sliceRoom_onThr (s : State) (f : Thread → Thread) (line : Nat) : (s.onThr f).sliceRoom line = (s.sliceRoom line).onThr f := by
  unfold State.sliceRoom
  dsimp only
  by_cases h : (s.sliceSet line).length ≤ s.sliceWays (clusterOver (128 * line))
  · rw [if_pos h, if_pos (show ((s.onThr f).sliceSet line).length ≤ (s.onThr f).sliceWays (clusterOver (128 * line)) from h)]
  · rw [if_neg h, if_neg (show ¬ ((s.onThr f).sliceSet line).length ≤ (s.onThr f).sliceWays (clusterOver (128 * line)) from h)]
    change (match (s.sliceSet line)[Config.l2Victim s.free % (s.sliceSet line).length]? with | none => _ | some l => _) = _
    cases (s.sliceSet line)[Config.l2Victim s.free % (s.sliceSet line).length]? <;> rfl

/-- The home line with bytes merged, before its slice makes room. -/
def State.mergeBytes (s : State) (line : Nat) (m : BitVec 128) (d : BitVec 1024) : State :=
  { s.unpoisonMask line m with
    mem := memWriteMask s.mem (128 * line) 128 m.toNat d.toNat, homeDirty := setAdd s.homeDirty line }

theorem mergeHome_eq (s : State) (line : Nat) (m : BitVec 128) (d : BitVec 1024) :
    s.mergeHome line m d = if m = 0 then s else (s.mergeBytes line m d).sliceRoom line := rfl

theorem mergeBytes_onThr (s : State) (f : Thread → Thread) (line : Nat) (m : BitVec 128) (d : BitVec 1024) :
    (s.onThr f).mergeBytes line m d = (s.mergeBytes line m d).onThr f := by
  simp only [State.mergeBytes, State.unpoisonMask, State.onThr]

theorem mergeHome_onThr (s : State) (f : Thread → Thread) (line : Nat) (m : BitVec 128) (d : BitVec 1024) :
    (s.onThr f).mergeHome line m d = (s.mergeHome line m d).onThr f := by
  rw [mergeHome_eq, mergeHome_eq, mergeBytes_onThr, sliceRoom_onThr]
  split
  · rfl
  · rfl

theorem drainCovered_onThr (s : State) (f : Thread → Thread) (c : Nat) : (s.onThr f).drainCovered c = (s.drainCovered c).onThr f := by
  have hfold := List.foldl_hom (fun u : State => u.onThr f) (g₁ := fun u (l : L1Line) => u.mergeHome l.line l.covered l.data)
    (g₂ := fun u (l : L1Line) => u.mergeHome l.line l.covered l.data) (l := (s.core c).l1) (init := s)
    fun u l => (mergeHome_onThr u f l.line l.covered l.data)
  unfold State.drainCovered
  dsimp only
  rw [show (s.onThr f).core c = s.core c from rfl, hfold]
  rfl

theorem serveRecords_onThr (s : State) (f : Thread → Thread) (line : Nat) :
    (s.onThr f).serveRecords line = (s.serveRecords line).onThr f :=
  List.foldl_hom (fun u : State => u.onThr f) fun u c => drainCovered_onThr u f c

/-- What a fetch gives does not depend on the thread at issue. -/
theorem fetchWord_onThr (s : State) (f : Thread → Thread) (v : View) (a : Nat) : fetchWord (s.onThr f) v a = fetchWord s v a := by
  have hpeek (x : Nat) : (((s.onThr f).serveRecords (lineAt x)).peek x 4) = ((s.serveRecords (lineAt x)).peek x 4) := by
    rw [serveRecords_onThr]
    rfl
  simp only [fetchWord, hpeek]
  rfl

/-! ## Trap entry (R295, R298) -/

theorem performMsgs_of_none {s : State} {p : MemMsg → Bool} (h : ∀ m ∈ s.msgs, p m = false) : s.performMsgs p = s := by
  rw [State.performMsgs, List.filter_eq_nil_iff.2 fun m hm => by simp [h m hm]]
  rfl

theorem windowsClear_iff (s : State) : s.windowsClear = true ↔ (∀ e ∈ s.thr.pending, e.ofHandler = false) ∧
    (s.thr.hstate = true → ∀ m ∈ s.msgs, (m.op.answers && m.key == s.thr.key) = false) := by
  simp only [State.windowsClear, Bool.and_eq_true, List.all_eq_true, Bool.not_eq_true', Bool.or_eq_true]
  cases s.thr.hstate <;> simp

/-- With no window of the handler open, what waits for them goes on at once. -/
theorem endWindows_of_windowsClear {s : State} (k : State → State) (h : s.windowsClear = true) : s.endWindows k = k s := by
  obtain ⟨hpend, hmsgs⟩ := (windowsClear_iff s).1 h
  cases hs : s.thr.hstate
  · simp [State.endWindows, hs]
  · have hs1 : (if s.msgs.isEmpty then s else s.performMsgs fun m => m.op.answers && m.key == s.thr.key) = s := by
      rw [performMsgs_of_none (hmsgs hs), ite_self]
    have hown : s.thr.ownFailed = none := by
      rw [Thread.ownFailed, if_pos hs, List.find?_eq_none]
      exact fun e he => by simp [hpend e he]
    unfold State.endWindows
    dsimp only
    rw [hs1, hown, hs]
    rfl

theorem handlerOpen_of_windowsClear {s : State} (h : s.windowsClear = true) : s.thr.handlerOpen = false := by
  obtain ⟨hpend, -⟩ := (windowsClear_iff s).1 h
  rw [Thread.handlerOpen, List.any_eq_false.2 fun e he => by simp [hpend e he], Bool.and_false]

theorem landHandler_of_windowsClear {s : State} (h : s.windowsClear = true) : s.thr.landHandler = s.thr := by
  obtain ⟨hpend, -⟩ := (windowsClear_iff s).1 h
  have hnone : s.thr.pending.filter (fun e => e.ofHandler && e.wait == .value) = [] :=
    List.filter_eq_nil_iff.2 fun e he => by simp [hpend e he]
  have hall : s.thr.pending.filter (fun e => !e.ofHandler || e.failed) = s.thr.pending :=
    List.filter_eq_self.2 fun e he => by simp [hpend e he]
  have hmap : s.thr.pending.map (fun e => if e.ofHandler then e.know else e) = s.thr.pending :=
    (List.map_congr_left fun e he => by simp [hpend e he]).trans (List.map_id _)
  simp only [Thread.landHandler, hnone, hall, hmap, List.foldl_nil]

/-- %tpc as a number: the resume address, RPL and LEFT. -/
theorem tpc_eq_ofNat (resume : BitVec 52) (rpl : Bool) (left : Nat) :
    resume.zeroExtend 64 ||| (if rpl then 0x0800_0000_0000_0000 else 0) ||| BitVec.ofNat 64 (left * 2 ^ 60) =
      BitVec.ofNat 64 (resume.toNat + rpl.toNat * 2 ^ 59 + left % 16 * 2 ^ 60) := by
  have hr := resume.isLt
  have hrpl : (if rpl then (0x0800_0000_0000_0000 : Word) else 0) = BitVec.ofNat 64 (rpl.toNat * 2 ^ 59) := by cases rpl <;> rfl
  have hleft : BitVec.ofNat 64 (left * 2 ^ 60) = BitVec.ofNat 64 (left % 16 * 2 ^ 60) := by
    apply BitVec.eq_of_toNat_eq
    rw [BitVec.toNat_ofNat, BitVec.toNat_ofNat]
    omega
  have hrplle : rpl.toNat ≤ 1 := rpl.toNat_le
  rw [hrpl, hleft]
  apply BitVec.eq_of_toNat_eq
  rw [BitVec.toNat_or, BitVec.toNat_or, BitVec.toNat_setWidth, BitVec.toNat_ofNat, BitVec.toNat_ofNat, BitVec.toNat_ofNat,
    Nat.mod_eq_of_lt (show resume.toNat < 2 ^ 64 by omega), Nat.mod_eq_of_lt (show rpl.toNat * 2 ^ 59 < 2 ^ 64 by omega),
    Nat.mod_eq_of_lt (show left % 16 * 2 ^ 60 < 2 ^ 64 by omega), Nat.or_comm resume.toNat, Nat.mul_comm,
    ← Nat.two_pow_add_eq_or_of_lt (show resume.toNat < 2 ^ 59 by omega), Nat.or_comm, Nat.mul_comm (left % 16),
    ← Nat.two_pow_add_eq_or_of_lt (show 2 ^ 59 * rpl.toNat + resume.toNat < 2 ^ 60 by omega)]
  omega

theorem trapEntry_eq_trapped {s : State} (h : s.windowsClear = true) (c : Cause) (i0 i1 : Word) (resume : BitVec 52) (rpl : Bool)
    (left : Nat) : s.thr.trapEntry c i0 i1 resume rpl left = s.thr.trapped c i0 i1 resume rpl left := by
  rw [Thread.trapEntry, Thread.trapped, landHandler_of_windowsClear h, tpc_eq_ofNat]

/-- A thread that can trap enters its handler. -/
theorem enterTrap_of_canTrap {s : State} (h : s.canTrap = true) (c : Cause) (i0 i1 : Word) (resume : BitVec 52) (rpl : Bool)
    (left : Nat) : s.enterTrap c i0 i1 resume rpl left = s.onThr fun t => t.trapped c i0 i1 resume rpl left := by
  simp only [State.canTrap, Bool.and_eq_true, Bool.not_eq_true', bne_iff_ne] at h
  obtain ⟨⟨⟨⟨hcrew, htvec⟩, hvector⟩, hwindows⟩, -⟩ := h
  have hdead : ¬ (s.thr.tvec = 0 || !s.vectorOk) = true := by
    rw [hvector, decide_eq_false htvec]
    exact Bool.false_ne_true
  rw [State.enterTrap, hcrew, handlerOpen_of_windowsClear hwindows, if_neg Bool.false_ne_true, if_neg Bool.false_ne_true, if_neg hdead]
  exact onThr_congr (trapEntry_eq_trapped hwindows _ _ _ _ _ _)

theorem windowsClear_of_canTrap {s : State} (h : s.canTrap = true) : s.windowsClear = true := by
  simp only [State.canTrap, Bool.and_eq_true] at h
  exact h.1.2

theorem parkFirst_of_canTrap {s : State} (h : s.canTrap = true) : s.parkFirst = none := by
  simp only [State.canTrap, Bool.and_eq_true, Option.isNone_iff_eq_none] at h
  exact h.2

theorem isHandler_of_canTrap {s : State} (h : s.canTrap = true) : s.thr.isHandler = false := by
  simp only [State.canTrap, Bool.and_eq_true, Bool.not_eq_true'] at h
  exact h.1.1.1.1

theorem trap_of_canTrap {s : State} (h : s.canTrap = true) (c : Cause) (i0 i1 : Word) :
    s.trap c i0 i1 = s.onThr fun t => t.trapped c i0 i1 t.unitPc false 0 := by
  rw [State.trap, parkFirst_of_canTrap h]
  dsimp only
  rw [endWindows_of_windowsClear _ (windowsClear_of_canTrap h), enterTrap_of_canTrap h]
  rfl

theorem trap_of_tvec_zero {s : State} (hcrew : s.thr.isHandler = false) (htvec : s.thr.tvec = 0) (h : s.windowsClear = true)
    (c : Cause) (i0 i1 : Word) : s.trap c i0 i1 = s.terminateCrew s.thr.crewId c := by
  have hpark : s.parkFirst = none := by simp [State.parkFirst, htvec]
  rw [State.trap, hpark]
  dsimp only
  rw [endWindows_of_windowsClear _ h, State.enterTrap, if_neg (by simp [hcrew]), if_neg (by simp [handlerOpen_of_windowsClear h]),
    if_pos (by simp [htvec])]

theorem trapAfter_of_canTrap {s : State} (h : s.canTrap = true) (c : Cause) (code : BitVec 14) : s.trapAfter c code =
    s.onThr fun t => { t.trapped c (code.zeroExtend 64) (t.unitPc.zeroExtend 64) t.nextPc false 0 with unitEnd := .done } := by
  rw [State.trapAfter, parkFirst_of_canTrap h]
  dsimp only
  rw [endWindows_of_windowsClear _ (windowsClear_of_canTrap h), handlerOpen_of_windowsClear (windowsClear_of_canTrap h),
    enterTrap_of_canTrap h]
  rfl

/-! ## What is due before a unit (R296, R297) -/

theorem enterQueue_eq (s : State) (core : Nat) : ∃ l, s.enterQueue core = { s with faults := l } := by
  unfold State.enterQueue
  split
  · split
    · exact ⟨s.faults, rfl⟩
    · exact ⟨_, rfl⟩
  · exact ⟨s.faults, rfl⟩

/-- With no failure known, what is due is a parked store, a record, a matrix fault, or a landing. -/
theorem due_of_unknown {s : State} (h : ∀ e ∈ s.thr.pending, s.thr.mine e = true → e.known = false) : s.due =
    if s.held.any (fun h => h.key == s.thr.key && h.parked) then .stop (s.park .held)
    else
      match (if s.thr.hstate || s.thr.isHandler then none else s.ownRecord) with
      | some f => .stop (s.deliverRecord f)
      | none =>
        match s.thr.unitTrap.filter (fun w => w.cause == .matrixOperand),
          (if s.thr.hstate || s.thr.isHandler then none else s.thr.matrixFault) with
        | some w, _ => .stop (s.deliverUnit w)
        | none, some f => .stop (s.deliverMatrix f)
        | none, none => s.dueUnit := by
  have hfind : s.thr.pending.find? (fun e => s.thr.mine e && e.known) = none := by
    rw [List.find?_eq_none]
    intro e he
    cases hm : s.thr.mine e
    · simp
    · simp [h e he hm]
  rw [State.due, hfind] <;> rfl

/-- A record is delivered in a thread whose handler can be entered once the record has left. -/
theorem deliverRecord_of_canTrap {s : State} (f : StoreFault)
    (h : (State.enterQueue { s with faults := s.faults.erase f } f.core).canTrap = true) :
    s.deliverRecord f = (State.enterQueue { s with faults := s.faults.erase f } f.core).onThr fun t =>
      t.trapped .storeFault (wordOf f.va) f.info t.unitPc false 0 := by
  have henter := enterTrap_of_canTrap h .storeFault (wordOf f.va) f.info s.thr.unitPc false 0
  obtain ⟨l, hl⟩ := enterQueue_eq { s with faults := s.faults.erase f } f.core
  rw [hl] at h
  have hpark : s.parkFirst = none := (parkFirst_of_canTrap h :)
  have hwindows : s.windowsClear = true := (windowsClear_of_canTrap h :)
  rw [State.deliverRecord, hpark]
  dsimp only
  rw [endWindows_of_windowsClear _ hwindows, handlerOpen_of_windowsClear hwindows, if_neg Bool.false_ne_true, henter, hl]
  rfl

/-- A matrix fault is delivered in a thread whose handler can be entered once the fault has left. -/
theorem deliverMatrix_of_canTrap {s : State} (f : Cause × Word × Word) (g : Thread → Thread)
    (hg : g = fun t => { t with
      mfaults := t.mfaults.erase f
      mretry := if f.1 == .matrixOperand && f.2.2.toNat / 2 ^ 52 % 8 != 6 then t.mretry ++ [f.2.2.toNat % 2 ^ 48] else t.mretry })
    (h : (s.onThr g).canTrap = true) :
    s.deliverMatrix f = (s.onThr g).onThr fun t => t.trapped f.1 f.2.1 f.2.2 t.unitPc false 0 := by
  subst hg
  have hpark : s.parkFirst = none := (parkFirst_of_canTrap h :)
  rw [← trap_of_canTrap h, State.deliverMatrix, hpark]

/-- Settles O24: trap entry for a thread that can trap, and the order of what is due. -/
theorem trapEntrySaves : Obligations.TrapEntrySaves := by
  unfold Obligations.TrapEntrySaves
  refine ⟨⟨fun s c i0 i1 h => trap_of_canTrap h c i0 i1, fun s c i0 i1 hcrew htvec h => trap_of_tvec_zero hcrew htvec h c i0 i1⟩,
    fun u code s => ⟨fun h => ?_, fun h hdbg => ?_, fun hdbg => ?_⟩, fun s hunknown => ⟨fun hparked => ?_, fun hparked hstate =>
      ⟨fun f hf hcan => ?_, fun hnone hgrant f hf hcan => ?_⟩⟩⟩
  · exact congrArg _ (trapAfter_of_canTrap h .trap code)
  · rw [becomes, exec, execBrk, hdbg]
    exact congrArg _ (trapAfter_of_canTrap h .brk code)
  · rw [becomes, exec, execBrk, hdbg]
    rfl
  · rw [due_of_unknown hunknown, if_pos hparked]
    rfl
  · have hcrew : s.thr.isHandler = false := by
      obtain ⟨l, hl⟩ := enterQueue_eq { s with faults := s.faults.erase f } f.core
      rw [hl] at hcan
      exact (isHandler_of_canTrap hcan :)
    have hown : (if s.thr.hstate || s.thr.isHandler then none else s.ownRecord) = some f := by
      rw [hstate, hcrew]
      exact hf
    have hinfo : f.info = BitVec.ofNat 64
        (f.pc % 2 ^ 52 + f.logSize * 2 ^ 52 + (if f.red then 2 ^ 55 else 0) + f.cause.code * 2 ^ 56) := rfl
    rw [due_of_unknown hunknown, if_neg (by simp [hparked]), hown]
    dsimp only
    rw [deliverRecord_of_canTrap f hcan, hinfo]
    rfl
  · have hcrew : s.thr.isHandler = false := (isHandler_of_canTrap hcan :)
    have hown : (if s.thr.hstate || s.thr.isHandler then none else s.ownRecord) = none := by
      rw [hstate, hcrew]
      exact List.find?_eq_none.2 (List.any_eq_false.1 hnone)
    have hunit : s.thr.unitTrap = none := by rw [Thread.unitTrap, hgrant]; rfl
    have hmatrix : (if s.thr.hstate || s.thr.isHandler then none else s.thr.matrixFault) = some f := by
      rw [hstate, hcrew, Thread.matrixFault]
      rcases hf with ⟨-, -, hfirst⟩ | ⟨hother, hhead⟩
      · rw [hfirst]
        rfl
      · rw [List.find?_eq_none.2 fun g hg => by simp [hother g hg], hhead]
        rfl
    rw [due_of_unknown hunknown, if_neg (by simp [hparked]), hown, hunit, hmatrix]
    exact congrArg _ (deliverMatrix_of_canTrap f _ rfl hcan)

/-! ## Returning from a trap (R35, R36, R42, R90) -/

theorem trapReturn_of_windowsClear {s : State} (hwindows : s.windowsClear = true) (hretry : s.thr.mretry = [])
    (hcont : checkTarget s s.thr.view (s.thr.tpc &&& 0xF_FFFF_FFFF_FFFF) = .ok)
    (hreplay : s.thr.tpc.getLsbD 59 = true → checkReplay s s.thr.view s.thr.tinfo1 = .ok) :
    s.trapReturn = s.onThr Thread.trapReturn := by
  have hres : (if s.thr.tpc.getLsbD 59 then checkReplay s s.thr.view s.thr.tinfo1 else .ok) = TargetRes.ok := by
    split
    · next h => exact hreplay h
    · rfl
  have hjobs : s.retryJobs = s := by
    rw [State.retryJobs, hretry]
    rfl
  rw [State.trapReturn, endWindows_of_windowsClear _ hwindows, hcont]
  dsimp only
  rw [hres]
  dsimp only
  rw [handlerOpen_of_windowsClear hwindows, if_neg Bool.false_ne_true, hjobs]

theorem handlerOpen_onThr_filter {s : State} (p : Pend → Bool)
    (h : (s.onThr fun t => { t with pending := t.pending.filter p }).canTrap = true) :
    (s.onThr fun t => { t with pending := t.pending.filter p }).thr.handlerOpen = false :=
  handlerOpen_of_windowsClear (windowsClear_of_canTrap h)

/-- A state whose thread at issue has the same named registers, and whose other threads are the same. -/
theorem sameRegs_of {s t : State} (hthr : t.thr.named = s.thr.named) (hothers : t.others = s.others) : s.sameRegs t := by
  rw [State.sameRegs, State.threads, State.threads, List.map_cons, List.map_cons, hthr, hothers]

/-- The replay of an access parks its thread at a page: the registers and memory are as they were. -/
theorem parkPage_eq (s : State) (va : Nat) : ∃ l, s.parkPage va = State.park { s with pageReqs := l } (.page va) := by
  unfold State.parkPage
  dsimp only
  split
  · exact ⟨s.pageReqs, rfl⟩
  · exact ⟨_, rfl⟩

/-- The thread at issue as its turn begins. -/
def State.atTurn (s : State) : State := s.onThr fun t => { t with status := .ready, wait := .none, unitEnd := .held }

/-- A thread of a crew that has not ended issues its due replay before anything else that is due. -/
theorem issue_of_replay {s : State} {p : Replay} (hp : s.thr.replay = some p) (hcrew : s.thr.isHandler = false)
    (hended : s.thr.ended = none) (hunit : s.thr.unitTrap = none) :
    s.issue = andThen s.atTurn.runUnit fun r => r.afterUnit s.atTurn.thr (s.clockOf s.thr) := by
  have hbudget : ¬ (s.atTurn.thr.isHandler && s.atTurn.thr.ended.isNone && decide (s.atTurn.thr.budget = 0)) = true := by
    rw [show s.atTurn.thr.isHandler = false from hcrew]
    exact Bool.false_ne_true
  have hend : ¬ s.atTurn.thr.ended.isSome = true := by
    rw [show s.atTurn.thr.ended = none from hended]
    exact Bool.false_ne_true
  have hreplay : s.atTurn.thr.replay = some p := hp
  have htrap : s.atTurn.thr.unitTrap = none := hunit
  unfold State.atTurn at hbudget hend hreplay htrap ⊢
  unfold State.issue
  dsimp only
  rw [if_neg hbudget, if_neg hend, hreplay, htrap]

/-- A replay that is due is issued as the lone word at its address. -/
theorem runUnit_of_replay {s : State} {p : Replay} {w : BitVec 32} (hp : s.thr.replay = some p)
    (hfetch : fetchWord s s.thr.view p.pc.toNat = .ok w) :
    s.runUnit = (s.onThr fun t => { t with replaying := some p, pairNow := false }).runLone w := by
  rw [State.runUnit, hp]
  dsimp only
  rw [hfetch]

theorem runLone_of_decode {s : State} {w : BitVec 32} {i : Instr} (hcrew : s.thr.isHandler = false) (hdecode : decodeWord w = .ok i) :
    s.runLone w = exec i s := by
  rw [State.runLone, hdecode, hcrew]
  rfl

/-- Settles O25: ERET with no window of the handler open, a known failure by its wait, and a replay that is due. -/
theorem returnFromTrap : Obligations.ReturnFromTrap := by
  unfold Obligations.ReturnFromTrap
  refine ⟨fun u s => ⟨fun hstate => ?_, fun hstate hwindows hretry hcont hreplay => ?_⟩, fun s e he => ⟨fun c va hw hc hpark hcan => ?_,
    fun va hw => ?_⟩, fun s p w i hp hcrew hended hgrant hfetch hdecode => ?_⟩
  · have hword : wordOf ((encodeNat (.eret u)).getD 0) = if u then 0x46010000 else 0x06010000 := by cases u <;> decide
    rw [exec, execEret, hstate, if_neg Bool.false_ne_true, State.illegalHere, hword]
  · rw [becomes, exec, execEret, hstate, if_pos rfl, trapReturn_of_windowsClear hwindows hretry hcont hreplay]
    refine congrArg _ (onThr_congr ?_)
    rw [Thread.trapReturn, landHandler_of_windowsClear hwindows]
    rfl
  · rw [State.due, he]
    dsimp only
    rw [State.takeFailed, hw]
    dsimp only
    have hopen : (s.onThr fun t => t.dropAccess e).thr.handlerOpen = false := handlerOpen_onThr_filter _ hcan
    rw [hpark]
    dsimp only
    rw [hopen, if_neg Bool.false_ne_true, if_neg hc]
    have henter := enterTrap_of_canTrap hcan c (BitVec.ofNat 64 va) (e.pc.zeroExtend 64) s.thr.pc true e.left
    exact congrArg Due.stop (henter.trans (onThr_congr rfl))
  · obtain ⟨l, hl⟩ := parkPage_eq
      (s.onThr fun t => { t.dropAccess e with replay := some ⟨e.pc, e.left, some e.access, e.acq⟩ }) va
    refine ⟨_, by rw [State.due, he], ?_⟩
    rw [State.takeFailed, hw]
    dsimp only
    rw [State.takePark, hw]
    dsimp only
    rw [hl]
    simp only [State.park, State.onThr, Thread.hold, Thread.dropAccess, and_true]
    exact sameRegs_of (by simp only [Thread.named]) rfl
  · have hunit : s.thr.unitTrap = none := by rw [Thread.unitTrap, hgrant]; rfl
    have hfetch' : fetchWord s.atTurn s.atTurn.thr.view p.pc.toNat = .ok w := (fetchWord_onThr _ _ _ _).trans hfetch
    have hlone := runLone_of_decode (s := s.atTurn.onThr fun t => { t with replaying := some p, pairNow := false }) hcrew hdecode
    rw [issue_of_replay hp hcrew hended hunit, runUnit_of_replay (s := s.atTurn) hp hfetch', hlone]
    rfl

end Sys2Proof.Machine
end

section
/-! Floating-point arithmetic, selection, comparison, rounding and conversion (spec/03, spec/06, R143 to R156). -/

namespace Sys2Proof.Machine

open Sys2Proof

set_option Elab.async false

/-! ## Operands, environments, flags (R61, R143) -/

theorem flush_eq (t : Thread) : t.flush = ⟨t.fmt[0].getLsbD 10, t.fmt[0].getLsbD 11, t.fmt[0].getLsbD 12⟩ := by
  simp [Thread.flush, Flush.ofFmt]

theorem draw24_eq (ctr key : BitVec 32) (n : Nat) : draw24 ctr key n = (lode32 (ctr + BitVec.ofNat 32 n) key).toNat / 256 := by
  rw [draw24, BitVec.toNat_ushiftRight, Nat.shiftRight_eq_div_pow]

theorem env_eq_roundEnv (t : Thread) (rm : Rm) (sat : Bool) (n : Nat) : t.env rm sat n = t.roundEnv rm sat n := by
  rw [Thread.env, Thread.roundEnv, flush_eq, draw24_eq]

theorem fVal_eq_operand (t : Thread) (f : Fmt) (a : BitVec 6) : t.fVal f a = t.operand f a := by
  rw [Thread.fVal, Thread.operand, flush_eq]
  rfl

theorem fElem_eq_element (t : Thread) (f : Fmt) (a : BitVec 5) (j : Nat) : t.fElem f a j = t.element f a j := by
  rw [Thread.fElem, Thread.element, flush_eq, elem_eq_lane]

/-- The widths of elements: every element of fewer than 32 bits lies within its lane of 32. -/
def elementWidth (w : Nat) : Prop := w ∈ [4, 8, 16, 32, 64]

theorem elementWidth_fmt (f : Fmt) : elementWidth (Fmt.width f) := by cases f <;> simp [elementWidth, Fmt.width]

theorem elementWidth_cvtInt (t : CvtInt) : elementWidth (CvtInt.width t) := by cases t <;> simp [elementWidth, CvtInt.width]

theorem elementWidth_max {a b : Nat} (ha : elementWidth a) (hb : elementWidth b) : elementWidth (max a b) := by
  rcases max_choice a b with h | h <;> rw [h]
  · exact ha
  · exact hb

theorem govBit_eq_governs (p : Pred) {w : Nat} (j : Nat) (hw : elementWidth w) : govBit p w j = governs p w j := by
  simp only [elementWidth, List.mem_cons, List.not_mem_nil, or_false] at hw
  rcases hw with rfl | rfl | rfl | rfl | rfl
  · simp only [govBit, governs]
    congr 1
    simp
    omega
  · simp only [govBit, governs]
    congr 1
    simp
    omega
  · simp only [govBit, governs]
    congr 1
    simp
    omega
  · rfl
  · rfl

theorem mul_elements {w : Nat} (hw : elementWidth w) : w * (512 / w) ≤ 512 := Nat.mul_div_le 512 w

theorem activeFlags_succ (p : Pred) (w : Nat) (r : Nat → Rounded) (n : Nat) :
    activeFlags p w r (n + 1) = activeFlags p w r n ||| (if governs p w n then (r n).flags else 0) := by
  rw [activeFlags, List.range_succ, List.foldl_append]
  rfl

theorem elemFlags_eq_activeFlags (p : Pred) {w : Nat} (hw : elementWidth w) (r : Nat → Rounded) (n : Nat) :
    elemFlags p w (fun j => (r j).flags) n = activeFlags p w r n := by
  induction n with
  | zero => rfl
  | succ n ih => rw [elemFlags, ih, govBit_eq_governs p n hw, activeFlags_succ]

/-! ## The two forms of a floating-point operation -/

/-- A scalar operation with one rounding completes with its result. -/
theorem fScalar_completes {i : Instr} {s : State} {d : BitVec 6} {rm : Rm} {f r : Thread → Rounded}
    (hi : exec i s = .next (s.fScalar d rm f)) (hr : f s.thr = r s.thr) : floatCompletes i s d rm r := by
  rw [floatCompletes, completes, hi, State.fScalar]
  refine congrArg _ (onThr_congr ?_)
  rw [hr]
  rfl

/-- A vector operation completes with the results of its active elements. -/
theorem fVector_completes {i : Instr} {s : State} {d : BitVec 5} {p : BitVec 3} {gw w n : Nat} {rm : Rm} {draws : Nat}
    {f : Thread → Nat → Rounded} {r : Nat → Rounded} (hgw : elementWidth gw) (hw : elementWidth w)
    (hi : exec i s = .next (s.fVector d (s.thr.rp p) gw w n rm draws f)) (hr : ∀ j, f s.thr j = r j) :
    elementsComplete i s d p gw w n rm draws r := by
  refine ⟨mapElems (s.thr.rp p) gw w (fun j => (r j).bits) (s.thr.rv d) n, ?_, fun j hj => ?_⟩
  · rw [completes, hi, State.fVector]
    refine congrArg _ (onThr_congr ?_)
    simp only [hr, elemFlags_eq_activeFlags _ hgw]
    rfl
  · rw [lane_mapElems _ _ _ _ _ _ _ (lane_fits _ _ _ hj (mul_elements hw)), govBit_eq_governs _ _ hgw]

theorem fLanes_completes {i : Instr} {s : State} {t : FTy} {d : BitVec 5} {p : BitVec 3} {rm : Rm} {draws : Nat}
    {f : Thread → Nat → Rounded} {r : Nat → Rounded} (hi : exec i s = .next (s.fVector d (s.thr.rp p) (Fmt.width (FTy.fmt t))
      (Fmt.width (FTy.fmt t)) (512 / Fmt.width (FTy.fmt t)) rm draws f)) (hr : ∀ j, f s.thr j = r j) :
    elementsComplete i s d p (Fmt.width (FTy.fmt t)) (Fmt.width (FTy.fmt t)) (512 / Fmt.width (FTy.fmt t)) rm draws r :=
  fVector_completes (elementWidth_fmt _) (elementWidth_fmt _) hi hr

/-- Both forms of an elementwise instruction that the model gives by one function of the operands. -/
theorem arithCompletes_of {scalar : FTy → BitVec 6 → BitVec 6 → BitVec 6 → Rm → Instr}
    {vector : FTy → BitVec 5 → BitVec 5 → BitVec 5 → BitVec 3 → Rm → Instr} {f : Fmt → RoundEnv → FVal → FVal → FVal → Rounded}
    (hs : ∀ t d a b rm s, exec (scalar t d a b rm) s = .next (s.fScalar d rm fun u =>
      f (FTy.fmt t) (u.env rm false 0) (u.fVal (FTy.fmt t) a) (u.fVal (FTy.fmt t) b) (u.fVal (FTy.fmt t) d)))
    (hv : ∀ t d a b p rm s, exec (vector t d a b p rm) s = .next (s.fLanes t d p rm fun u j =>
      f (FTy.fmt t) (u.env rm false j) (u.fElem (FTy.fmt t) a j) (u.fElem (FTy.fmt t) b j) (u.fElem (FTy.fmt t) d j))) :
    arithCompletes scalar vector f := by
  refine ⟨fun t d a b rm s => fScalar_completes (hs t d a b rm s) ?_, fun t d a b p rm s => fLanes_completes (hv t d a b p rm s) ?_⟩
  · simp only [env_eq_roundEnv, fVal_eq_operand]
  · simp only [env_eq_roundEnv, fElem_eq_element, implies_true]

/-- Settles O26: each operation is one function of its operands in both forms. -/
theorem floatArithmetic : Obligations.FloatArithmetic := by
  unfold Obligations.FloatArithmetic
  exact ⟨arithCompletes_of (fun _ _ _ _ _ _ => rfl) fun _ _ _ _ _ _ _ => rfl,
    arithCompletes_of (fun _ _ _ _ _ _ => rfl) fun _ _ _ _ _ _ _ => rfl,
    arithCompletes_of (fun _ _ _ _ _ _ => rfl) fun _ _ _ _ _ _ _ => rfl,
    arithCompletes_of (fun _ _ _ _ _ _ => rfl) fun _ _ _ _ _ _ _ => rfl,
    arithCompletes_of (fun _ _ _ _ _ _ => rfl) fun _ _ _ _ _ _ _ => rfl,
    arithCompletes_of (fun _ _ _ _ _ _ => rfl) fun _ _ _ _ _ _ _ => rfl⟩

/-! ## Long-latency results (R32, R148, R156) -/

theorem lane_zeroes (w j : Nat) : lane w (0 : VWord) j = 0 := by
  simp [lane]

/-- The mask of an elementwise result has the bits of its active elements. -/
theorem lane_elemMask (p : Pred) (gw w n j : Nat) (hj : w * j + w ≤ 512) :
    lane w (elemMask p gw w n) j = if j < n ∧ govBit p gw j then BitVec.allOnes w else 0 := by
  have hmap (k : Nat) : elemMask p gw w k = mapElems p gw w (fun _ => 2 ^ w - 1) 0 k := by
    induction k with
    | zero => rfl
    | succ k ih => rw [elemMask, mapElems, ih]
  rw [hmap, lane_mapElems _ _ _ _ _ _ _ hj, lane_zeroes, BitVec.allOnes]
  congr 1
  exact BitVec.eq_of_toNat_eq (by simp)

theorem fPendScalar_completes {i : Instr} {s : State} {d : BitVec 6} {la : BitVec 4} {rm : Rm} {f r : Thread → Rounded}
    (hi : exec i s = .next (s.fPendScalar d la rm f)) (hr : f s.thr = r s.thr) : completes i s fun u =>
      (u.withEntry (.g d) (u.lookahead la) .value (BitVec.ofNat 512 (r u).bits) (BitVec.allOnes 512) (r u).flags).counted rm 1 := by
  rw [completes, hi, State.fPendScalar]
  refine congrArg _ (onThr_congr ?_)
  rw [hr]
  rfl

theorem fPendVector_completes {i : Instr} {s : State} {t : FTy} {d : BitVec 5} {p : BitVec 3} {la : BitVec 4} {rm : Rm}
    {f : Thread → Nat → Rounded} {r : Nat → Rounded} (hi : exec i s = .next (s.fPendVector t d p la rm f))
    (hr : ∀ j, f s.thr j = r j) :
    let w := Fmt.width (FTy.fmt t)
    ∃ value mask : VWord, completes i s (fun u =>
      (u.withEntry (.v d) (u.lookahead la) .value value mask (activeFlags (u.rp p) w r (512 / w))).counted rm (512 / w)) ∧
      ∀ j, j < 512 / w → lane w mask j = (if governs (s.thr.rp p) w j then BitVec.allOnes w else 0) ∧
        (governs (s.thr.rp p) w j = true → lane w value j = BitVec.ofNat w (r j).bits) := by
  intro w
  have hw : elementWidth w := elementWidth_fmt _
  refine ⟨mapElems (s.thr.rp p) w w (fun j => (r j).bits) 0 (512 / w), elemMask (s.thr.rp p) w w (512 / w), ?_, fun j hj => ?_⟩
  · rw [completes, hi, State.fPendVector]
    refine congrArg _ (onThr_congr ?_)
    simp only [hr, elemFlags_eq_activeFlags _ (elementWidth_fmt (FTy.fmt t))]
    rfl
  · have hfits := lane_fits _ _ _ hj (mul_elements hw)
    rw [lane_elemMask _ _ _ _ _ hfits, lane_mapElems _ _ _ _ _ _ _ hfits, govBit_eq_governs _ _ hw]
    exact ⟨by simp only [hj, true_and], fun hg => if_pos ⟨hj, hg⟩⟩

/-- Both forms of a long-latency instruction that the model gives by one function of the operands. -/
theorem longCompletes_of {scalar : FTy → BitVec 6 → BitVec 6 → BitVec 4 → Rm → Instr}
    {vector : FTy → BitVec 5 → BitVec 5 → BitVec 3 → BitVec 4 → Rm → Instr} {f : Fmt → RoundEnv → FVal → FVal → Rounded}
    (hs : ∀ t d a la rm s, exec (scalar t d a la rm) s = .next (s.fPendScalar d la rm fun u =>
      f (FTy.fmt t) (u.env rm false 0) (u.fVal (FTy.fmt t) d) (u.fVal (FTy.fmt t) a)))
    (hv : ∀ t d a p la rm s, exec (vector t d a p la rm) s = .next (s.fPendVector t d p la rm fun u j =>
      f (FTy.fmt t) (u.env rm false j) (u.fElem (FTy.fmt t) d j) (u.fElem (FTy.fmt t) a j))) : longCompletes scalar vector f := by
  refine ⟨fun t d a la rm s => fPendScalar_completes (hs t d a la rm s) ?_,
    fun t d a p la rm s => fPendVector_completes (hv t d a p la rm s) ?_⟩
  · simp only [env_eq_roundEnv, fVal_eq_operand]
  · simp only [env_eq_roundEnv, fElem_eq_element, implies_true]

/-- Settles O27: each instruction is one function of its operands in both forms. -/
theorem floatLongLatency : Obligations.FloatLongLatency := by
  unfold Obligations.FloatLongLatency
  exact ⟨longCompletes_of (fun _ _ _ _ _ _ => rfl) fun _ _ _ _ _ _ _ => rfl,
    longCompletes_of (fun _ _ _ _ _ _ => rfl) fun _ _ _ _ _ _ _ => rfl,
    longCompletes_of (fun _ _ _ _ _ _ => rfl) fun _ _ _ _ _ _ _ => rfl⟩

/-- Both forms of an approximate function are `approxRounded` of the encoding. -/
theorem approximate_completes {fn : Config.Approx} {scalar : FTy → BitVec 6 → BitVec 6 → BitVec 4 → Rm → Instr}
    {vector : FTy → BitVec 5 → BitVec 5 → BitVec 3 → BitVec 4 → Rm → Instr}
    (hs : ∀ t d a la rm s, exec (scalar t d a la rm) s = .next (s.fPendScalar d la rm fun u =>
      approxRounded fn (FTy.fmt t) (u.env rm false 0) (u.fSrc (FTy.fmt t) a)))
    (hv : ∀ t d a p la rm s, exec (vector t d a p la rm) s = .next (s.fPendVector t d p la rm fun u j =>
      approxRounded fn (FTy.fmt t) (u.env rm false j) (elem (u.rv a) (Fmt.width (FTy.fmt t)) j))) :
    (∀ (t : FTy) (d a : BitVec 6) (la : BitVec 4) (rm : Rm) (s : State), completes (scalar t d a la rm) s fun u =>
      let r := approxRounded fn (FTy.fmt t) (u.roundEnv rm false 0) ((u.rg a).toNat % 2 ^ Fmt.width (FTy.fmt t))
      (u.withEntry (.g d) (u.lookahead la) .value (BitVec.ofNat 512 r.bits) (BitVec.allOnes 512) r.flags).counted rm 1) ∧
    (∀ (t : FTy) (d a : BitVec 5) (p : BitVec 3) (la : BitVec 4) (rm : Rm) (s : State),
      let w := Fmt.width (FTy.fmt t)
      let r := fun j => approxRounded fn (FTy.fmt t) (s.thr.roundEnv rm false j) (lane w (s.thr.rv a) j).toNat
      ∃ value mask : VWord, completes (vector t d a p la rm) s (fun u =>
        (u.withEntry (.v d) (u.lookahead la) .value value mask (activeFlags (u.rp p) w r (512 / w))).counted rm (512 / w)) ∧
        ∀ j, j < 512 / w → lane w mask j = (if governs (s.thr.rp p) w j then BitVec.allOnes w else 0) ∧
          (governs (s.thr.rp p) w j = true → lane w value j = BitVec.ofNat w (r j).bits)) := by
  refine ⟨fun t d a la rm s => fPendScalar_completes (hs t d a la rm s) ?_,
    fun t d a p la rm s => fPendVector_completes (hv t d a p la rm s) ?_⟩
  · simp only [env_eq_roundEnv, Thread.fSrc]
  · simp only [env_eq_roundEnv, elem_eq_lane, implies_true]

/-- Settles O28: the six functions of the list, one by one. -/
theorem approximateFunctions : Obligations.ApproximateFunctions := by
  unfold Obligations.ApproximateFunctions
  simp only [List.forall_mem_cons, List.not_mem_nil, false_implies, implies_true, and_true]
  exact ⟨approximate_completes (fun _ _ _ _ _ _ => rfl) fun _ _ _ _ _ _ _ => rfl,
    approximate_completes (fun _ _ _ _ _ _ => rfl) fun _ _ _ _ _ _ _ => rfl,
    approximate_completes (fun _ _ _ _ _ _ => rfl) fun _ _ _ _ _ _ _ => rfl,
    approximate_completes (fun _ _ _ _ _ _ => rfl) fun _ _ _ _ _ _ _ => rfl,
    approximate_completes (fun _ _ _ _ _ _ => rfl) fun _ _ _ _ _ _ _ => rfl,
    approximate_completes (fun _ _ _ _ _ _ => rfl) fun _ _ _ _ _ _ _ => rfl⟩

end Sys2Proof.Machine
end

section
/-! What a format holds is delivered unchanged, addition and multiplication commute (spec/03, R59, R62), and the instructions on
encodings, comparisons and conversions (spec/06, R149 to R155). -/

namespace Sys2Proof.Machine

open Sys2Proof

set_option Elab.async false

/-! ## Encodings (R54, R55) -/

/-- What a finite encoding stands for: its magnitude is an exponent field and a fraction. -/
structure FiniteEncoding (f : Fmt) (bits : Nat) (neg : Bool) (m : Nat) (e : Int) : Prop where
  sign : bits / 2 ^ (Fmt.width f - 1) % 2 = neg.toNat
  magnitude : bits % 2 ^ (Fmt.width f - 1) = (e - Fmt.qmin f).toNat * 2 ^ (Fmt.prec f - 1) + m
  small : m < 2 ^ Fmt.prec f
  exponent : Fmt.qmin f ≤ e
  normal : e = Fmt.qmin f ∨ 2 ^ (Fmt.prec f - 1) ≤ m
  bounded : dyadGt m e (Fmt.largest f).1 (Fmt.largest f).2 = false

/-- The magnitude of an encoding is its exponent field above its fraction. -/
theorem magnitude_eq (f : Fmt) (bits : Nat) : bits % 2 ^ (Fmt.width f - 1) =
    bits / 2 ^ (Fmt.prec f - 1) % 2 ^ Fmt.ebits f * 2 ^ (Fmt.prec f - 1) + bits % 2 ^ (Fmt.prec f - 1) := by
  have hw : Fmt.width f - 1 = (Fmt.prec f - 1) + Fmt.ebits f := by cases f <;> rfl
  rw [hw, pow_add, Nat.mod_mul, Nat.mul_comm (2 ^ _)]
  omega

theorem dyadGt_eq_false {m n : Nat} {e g : Int} (he : e ≤ g) (hm : m ≤ n) : dyadGt m e n g = false := by
  have h0 : (e - g).toNat = 0 := by omega
  have hpos : 0 < 2 ^ (g - e).toNat := Nat.two_pow_pos _
  have hle : m ≤ n * 2 ^ (g - e).toNat := le_trans hm (Nat.le_mul_of_pos_right n hpos)
  simpa [dyadGt, h0] using hle

theorem dyadGt_eq_false_of_lt {m n : Nat} {e g : Int} (he : e < g) (hm : m ≤ 2 * n) : dyadGt m e n g = false := by
  have h0 : (e - g).toNat = 0 := by omega
  have hsucc : (g - e).toNat = (g - e - 1).toNat + 1 := by omega
  have hpos : 0 < 2 ^ (g - e - 1).toNat := Nat.two_pow_pos _
  have hle : m ≤ n * 2 ^ (g - e).toNat := by
    rw [hsucc, pow_succ', ← Nat.mul_assoc, Nat.mul_comm n 2]
    exact le_trans hm (Nat.le_mul_of_pos_right _ hpos)
  simpa [dyadGt, h0] using hle

theorem two_pow_prec (f : Fmt) : 2 ^ Fmt.prec f = 2 * 2 ^ (Fmt.prec f - 1) := by cases f <;> rfl

/-- An encoding with its exponent field and fraction that is finite. -/
theorem finiteEncoding_of {f : Fmt} {bits : Nat} {neg : Bool} (hneg : (bits / 2 ^ (Fmt.width f - 1) % 2 == 1) = neg) {m : Nat}
    {e : Int} (hm : bits / 2 ^ (Fmt.prec f - 1) % 2 ^ Fmt.ebits f = 0 ∧ m = bits % 2 ^ (Fmt.prec f - 1) ∧ e = Fmt.qmin f ∨
      bits / 2 ^ (Fmt.prec f - 1) % 2 ^ Fmt.ebits f ≠ 0 ∧ m = bits % 2 ^ (Fmt.prec f - 1) + 2 ^ (Fmt.prec f - 1) ∧
        e = Fmt.qmin f + (bits / 2 ^ (Fmt.prec f - 1) % 2 ^ Fmt.ebits f - 1 : Nat))
    (hmax : dyadGt m e (Fmt.largest f).1 (Fmt.largest f).2 = false) : FiniteEncoding f bits neg m e := by
  have hfrac : bits % 2 ^ (Fmt.prec f - 1) < 2 ^ (Fmt.prec f - 1) := Nat.mod_lt _ (Nat.two_pow_pos _)
  have hprec := two_pow_prec f
  have hmag := magnitude_eq f bits
  have hsign : bits / 2 ^ (Fmt.width f - 1) % 2 = neg.toNat := by
    rcases Nat.mod_two_eq_zero_or_one (bits / 2 ^ (Fmt.width f - 1)) with h | h <;> rw [h] at hneg ⊢ <;> subst hneg <;> rfl
  generalize hef : bits / 2 ^ (Fmt.prec f - 1) % 2 ^ Fmt.ebits f = ef at *
  rcases hm with ⟨h0, hm, he⟩ | ⟨h0, hm, he⟩
  · refine ⟨hsign, ?_, by omega, by omega, .inl he, hmax⟩
    rw [hmag, h0, hm, he, Int.sub_self]
    rfl
  · refine ⟨hsign, ?_, by omega, by omega, .inr (by omega), hmax⟩
    have hexp : (e - Fmt.qmin f).toNat = ef - 1 := by omega
    have hef1 : ef * 2 ^ (Fmt.prec f - 1) = (ef - 1) * 2 ^ (Fmt.prec f - 1) + 2 ^ (Fmt.prec f - 1) := by
      rw [← Nat.succ_mul, Nat.succ_eq_add_one, Nat.sub_add_cancel (by omega)]
    rw [hexp]
    omega

/-- The finite encodings are those that unpack to a finite value. -/
theorem finiteEncoding_of_unpack {f : Fmt} {bits : Nat} {neg : Bool} {m : Nat} {e : Int} (h : Fmt.unpack f bits = .fin neg m e) :
    FiniteEncoding f bits neg m e := by
  have hfrac : bits % 2 ^ (Fmt.prec f - 1) < 2 ^ (Fmt.prec f - 1) := Nat.mod_lt _ (Nat.two_pow_pos _)
  have hef : bits / 2 ^ (Fmt.prec f - 1) % 2 ^ Fmt.ebits f < 2 ^ Fmt.ebits f := Nat.mod_lt _ (Nat.two_pow_pos _)
  have hcases : (bits / 2 ^ (Fmt.width f - 1) % 2 == 1) = neg ∧
      (bits / 2 ^ (Fmt.prec f - 1) % 2 ^ Fmt.ebits f = 0 ∧ m = bits % 2 ^ (Fmt.prec f - 1) ∧ e = Fmt.qmin f ∨
        bits / 2 ^ (Fmt.prec f - 1) % 2 ^ Fmt.ebits f ≠ 0 ∧ m = bits % 2 ^ (Fmt.prec f - 1) + 2 ^ (Fmt.prec f - 1) ∧
        e = Fmt.qmin f + (bits / 2 ^ (Fmt.prec f - 1) % 2 ^ Fmt.ebits f - 1 : Nat)) ∧
      (bits / 2 ^ (Fmt.prec f - 1) % 2 ^ Fmt.ebits f = 2 ^ Fmt.ebits f - 1 →
        f = .e2m1 ∨ f = .e4m3 ∧ bits % 2 ^ (Fmt.prec f - 1) ≠ 7) := by
    unfold Fmt.unpack at h
    cases f <;> dsimp only at h
    case e4m3 =>
      split at h
      · cases h
      · next htop =>
        split at h
        · next h0 =>
          cases h
          exact ⟨rfl, .inl ⟨h0, rfl, rfl⟩, fun ht => .inr ⟨rfl, fun h7 => htop ⟨ht, h7⟩⟩⟩
        · next h0 =>
          cases h
          exact ⟨rfl, .inr ⟨h0, rfl, rfl⟩, fun ht => .inr ⟨rfl, fun h7 => htop ⟨ht, h7⟩⟩⟩
    case e2m1 =>
      split at h
      · next h0 =>
        cases h
        exact ⟨rfl, .inl ⟨h0, rfl, rfl⟩, fun _ => .inl rfl⟩
      · next h0 =>
        cases h
        exact ⟨rfl, .inr ⟨h0, rfl, rfl⟩, fun _ => .inl rfl⟩
    all_goals
      split at h
      · split at h <;> cases h
      · next htop =>
        split at h
        · next h0 =>
          cases h
          exact ⟨rfl, .inl ⟨h0, rfl, rfl⟩, fun ht => absurd ht htop⟩
        · next h0 =>
          cases h
          exact ⟨rfl, .inr ⟨h0, rfl, rfl⟩, fun ht => absurd ht htop⟩
  obtain ⟨hneg, hm, htop⟩ := hcases
  refine finiteEncoding_of hneg hm ?_
  generalize bits / 2 ^ (Fmt.prec f - 1) % 2 ^ Fmt.ebits f = ef at *
  generalize bits % 2 ^ (Fmt.prec f - 1) = frac at *
  cases f <;> norm_num [Fmt.prec, Fmt.ebits, Fmt.width, Fmt.qmin, Fmt.emin] at hfrac hef hm htop
  case e2m1 => exact dyadGt_eq_false (by norm_num [Fmt.largest]; omega) (by norm_num [Fmt.largest]; omega)
  all_goals simp only [reduceCtorEq, false_and, false_or, imp_false] at htop
  case e4m3 =>
    by_cases h15 : ef = 15
    · exact dyadGt_eq_false (by dsimp only [Fmt.largest]; omega) (by dsimp only [Fmt.largest]; omega)
    · exact dyadGt_eq_false_of_lt (by dsimp only [Fmt.largest]; omega) (by dsimp only [Fmt.largest]; omega)
  all_goals exact dyadGt_eq_false (by norm_num [Fmt.largest]; omega) (by norm_num [Fmt.largest]; omega)

/-! ## Rounding what a format holds (R59) -/

/-- A value that a format holds is rounded to its magnitude under the sign. -/
theorem roundFinite_of_encoding {f : Fmt} {bits : Nat} {neg : Bool} {m : Nat} {e : Int} (h : FiniteEncoding f bits neg m e)
    (env : RoundEnv) (hflush : env.flush.onResult f = false) (n : Bool) :
    roundFinite f env n m e false = ⟨Fmt.signBit f n + bits % 2 ^ (Fmt.width f - 1), 0⟩ := by
  obtain ⟨-, hmag, hsmall, hexp, hnormal, hbounded⟩ := h
  rw [hmag]
  have hprec : 0 < Fmt.prec f := by cases f <;> decide
  by_cases hm : m = 0
  · subst hm
    have he : e = Fmt.qmin f := hnormal.resolve_right (by have := Nat.two_pow_pos (Fmt.prec f - 1); omega)
    simp [roundFinite, he]
  · have hlog : Nat.log2 m < Fmt.prec f := (Nat.log2_lt hm).2 hsmall
    have hqe : max ((Nat.log2 m : Int) + e) (Fmt.emin f) - (Fmt.prec f : Int) + 1 = e := by
      have hq : Fmt.qmin f = Fmt.emin f - (Fmt.prec f : Int) + 1 := rfl
      rcases hnormal with he | hlarge
      · omega
      · have hge : Fmt.prec f - 1 ≤ Nat.log2 m := (Nat.le_log2 hm).2 hlarge
        omega
    have hround : roundAt env.rm env.draw n m e false e = (m, false) := by
      simp [roundAt, roundsAway, Nat.mod_one]
    simp only [roundFinite, hm, false_and, if_false, hflush, Bool.false_eq_true, hqe, hround, hbounded]
    simp [flagIf, Nat.add_assoc]

/-- The bits of an encoding are its magnitude under its sign. -/
theorem bits_eq_of_encoding {f : Fmt} {bits : Nat} {neg : Bool} {m : Nat} {e : Int} (h : FiniteEncoding f bits neg m e)
    (hbits : bits < 2 ^ Fmt.width f) : Fmt.signBit f neg + bits % 2 ^ (Fmt.width f - 1) = bits := by
  have hw : 2 ^ Fmt.width f = 2 ^ (Fmt.width f - 1) * 2 := by cases f <;> rfl
  have hsign := h.sign
  rw [Nat.mod_eq_of_lt (Nat.div_lt_of_lt_mul (hw ▸ hbits))] at hsign
  have hdiv := Nat.div_add_mod bits (2 ^ (Fmt.width f - 1))
  rw [hsign] at hdiv
  cases neg
  · simpa [Fmt.signBit] using hdiv
  · simpa [Fmt.signBit] using hdiv

/-! ## Addition and multiplication commute (R62, R147) -/

theorem exactSum_comm (rm : Rm) (x y : Term) : exactSum rm [x, y] = exactSum rm [y, x] := by
  have he : minExp [x, y] = minExp [y, x] := min_comm _ _
  have hv (e : Int) : sumAt e [x, y] = sumAt e [y, x] := by
    simp only [sumAt, add_zero]
    exact add_comm _ _
  have hsign : ([x, y].all fun t => t.m == 0 && t.neg == x.neg) = ([y, x].all fun t => t.m == 0 && t.neg == y.neg) ∧
      (([x, y].all fun t => t.m == 0 && t.neg == x.neg) = true → x.neg = y.neg) := by
    simp only [List.all_cons, List.all_nil, Bool.and_true, beq_self_eq_true]
    cases x.neg <;> cases y.neg <;> cases (x.m == 0) <;> cases (y.m == 0) <;> decide
  obtain ⟨hall, hneg⟩ := hsign
  have hzero : (if ([x, y].all fun t => t.m == 0 && t.neg == x.neg) then x.neg else rm == .rdn) =
      if ([y, x].all fun t => t.m == 0 && t.neg == y.neg) then y.neg else rm == .rdn := by
    rw [← hall]
    split
    · next h => exact hneg h
    · rfl
  unfold exactSum
  dsimp only [List.headD_cons]
  rw [he, hv, hzero]

theorem addRounded_comm (f : Fmt) (env : RoundEnv) (x y : FVal) : addRounded f env x y = addRounded f env y x := by
  cases x <;> cases y <;> simp only [addRounded]
  case nan.nan s t => rw [Bool.or_comm]
  case inf.inf n k =>
    by_cases h : n = k
    · simp [h]
    · simp [h, Ne.symm h]
  case fin.fin => rw [exactSum_comm]

theorem exactMul_comm (x y : FVal) : exactMul x y = exactMul y x := by
  cases x <;> cases y <;> simp only [exactMul, bne_comm, Bool.or_comm, Nat.mul_comm, add_comm]

/-- Settles O31: an encoding that is finite is rounded to itself, and sums and products are symmetric. -/
theorem roundingAndCommuting : Obligations.RoundingAndCommuting := by
  unfold Obligations.RoundingAndCommuting
  refine ⟨fun f env bits neg m e hbits hflush h => ?_, fun f env x y => ⟨addRounded_comm f env x y, ?_⟩⟩
  · have henc := finiteEncoding_of_unpack h
    rw [roundTo, roundFinite_of_encoding henc env hflush, bits_eq_of_encoding henc hbits]
  · rw [mulRounded, exactMul_comm]
    rfl

/-! ## Selection, class and sign (R149, R150, R152) -/

/-- Both forms of an instruction on encodings that the model gives by one function of them. -/
theorem bitsComplete_of {scalar : FTy → BitVec 6 → BitVec 6 → BitVec 6 → Instr}
    {vector : FTy → BitVec 5 → BitVec 5 → BitVec 5 → BitVec 3 → Instr} {f g : Thread → Fmt → Nat → Nat → Rounded}
    (hs : ∀ t d a b s, exec (scalar t d a b) s = .next (s.fScalar d .rne fun u =>
      g u (FTy.fmt t) (u.fSrc (FTy.fmt t) a) (u.fSrc (FTy.fmt t) b)))
    (hv : ∀ t d a b p s, exec (vector t d a b p) s = .next (s.fLanes t d p .rne fun u j =>
      g u (FTy.fmt t) (elem (u.rv a) (Fmt.width (FTy.fmt t)) j) (elem (u.rv b) (Fmt.width (FTy.fmt t)) j)))
    (hf : ∀ u t (x y : Nat), x < 2 ^ Fmt.width (FTy.fmt t) → g u (FTy.fmt t) x y = f u (FTy.fmt t) x y) :
    bitsComplete scalar vector f := by
  refine ⟨fun t d a b s => fScalar_completes (hs t d a b s) (hf _ _ _ _ (Nat.mod_lt _ (Nat.two_pow_pos _))), fun t d a b p s => ?_⟩
  have hi := fLanes_completes (draws := 512 / Fmt.width (FTy.fmt t)) (hv t d a b p s) fun j => by
    rw [elem_eq_lane, elem_eq_lane, hf _ _ _ _ (BitVec.isLt _)]
  exact hi

/-- What an encoding of the scalar formats stands for. -/
theorem unpack_fmt (t : FTy) (bits : Nat) : Fmt.unpack (FTy.fmt t) bits =
    let p := Fmt.prec (FTy.fmt t)
    let neg := bits / 2 ^ (Fmt.width (FTy.fmt t) - 1) % 2 == 1
    let ef := bits / 2 ^ (p - 1) % 2 ^ Fmt.ebits (FTy.fmt t)
    let frac := bits % 2 ^ (p - 1)
    if ef = 2 ^ Fmt.ebits (FTy.fmt t) - 1 then
      if frac = 0 then .inf neg else .nan (FTy.fmt t != .e5m2 && frac / 2 ^ (p - 2) % 2 == 0)
    else if ef = 0 then .fin neg frac (Fmt.qmin (FTy.fmt t))
    else .fin neg (frac + 2 ^ (p - 1)) (Fmt.qmin (FTy.fmt t) + (ef - 1 : Nat)) := by
  cases t <;> rfl

/-- An infinity has its sign, the magnitude of +∞, and is no subnormal. -/
theorem unpack_inf {t : FTy} {bits : Nat} {neg : Bool} (h : Fmt.unpack (FTy.fmt t) bits = .inf neg) :
    bits.testBit (Fmt.width (FTy.fmt t) - 1) = neg ∧
      (Fmt.infBits (FTy.fmt t)).getD 0 = bits % 2 ^ (Fmt.width (FTy.fmt t) - 1) ∧ Fmt.isSubnormal (FTy.fmt t) bits = false := by
  rw [unpack_fmt] at h
  dsimp only at h
  by_cases htop : bits / 2 ^ (Fmt.prec (FTy.fmt t) - 1) % 2 ^ Fmt.ebits (FTy.fmt t) = 2 ^ Fmt.ebits (FTy.fmt t) - 1
  · by_cases hfrac : bits % 2 ^ (Fmt.prec (FTy.fmt t) - 1) = 0
    · rw [if_pos htop, if_pos hfrac] at h
      injection h with h
      rw [magnitude_eq, Fmt.isSubnormal, htop, hfrac, Nat.testBit_eq_decide_div_mod_eq, ← h]
      refine ⟨rfl, ?_, ?_⟩ <;> cases t <;> rfl
    · rw [if_pos htop, if_neg hfrac] at h
      cases h
  · rw [if_neg htop] at h
    split at h <;> cases h

theorem testBit_of_encoding {f : Fmt} {bits : Nat} {neg : Bool} {m : Nat} {e : Int} (h : FiniteEncoding f bits neg m e) :
    bits.testBit (Fmt.width f - 1) = neg := by
  rw [Nat.testBit_eq_decide_div_mod_eq, h.sign]
  cases neg <;> rfl

/-- The model's FABS, FNEG and FCPYS put a sign on the magnitude of an encoding (R150). -/
theorem withSign_eq (u : Thread) (t : FTy) {x : Nat} (neg : Bool → Bool) {n : Bool}
    (hn : neg (x.testBit (Fmt.width (FTy.fmt t) - 1)) = n) :
    (⟨withSign u.flush (FTy.fmt t) x neg, 0⟩ : Rounded) = signedAs u (FTy.fmt t) x n := by
  unfold withSign readFloat signedAs
  rw [← flush_eq]
  cases h : Fmt.unpack (FTy.fmt t) x with
  | nan q => rfl
  | inf k =>
    obtain ⟨hsign, hmag, hsub⟩ := unpack_inf h
    rw [hsign] at hn
    simp only [repack, FVal.isNaN, hsub, hn, hmag, Bool.and_false, Bool.false_eq_true, if_false, Nat.add_comm]
  | fin k m e =>
    have henc := finiteEncoding_of_unpack h
    rw [testBit_of_encoding henc] at hn
    have hexact := roundFinite_of_encoding henc ⟨.rtz, ⟨false, false, false⟩, false, 0⟩ (by cases t <;> rfl)
    cases hflush : u.flush.onInput (FTy.fmt t) && Fmt.isSubnormal (FTy.fmt t) x
    · simp only [repack, FVal.isNaN, hn, hexact, hflush, Bool.false_eq_true, if_false, Nat.add_comm]
    · simp only [repack, FVal.isNaN, hn, hflush, roundFinite, Bool.false_eq_true, if_false, if_true, Nat.zero_add, true_and,
        Bool.not_false]

/-- Settles O29: each instruction is one function of the encodings in both forms, the last three by `withSign_eq`. -/
theorem floatSelectClassifyRoundSign : Obligations.FloatSelectClassifyRoundSign := by
  unfold Obligations.FloatSelectClassifyRoundSign
  intro z
  refine ⟨⟨?_, ?_, ?_, ?_⟩, ?_, ?_, ?_⟩
  · exact bitsComplete_of (g := fun u f x y => minMax f false (readFloat u.flush f x) (readFloat u.flush f y))
      (fun _ _ _ _ _ => rfl) (fun _ _ _ _ _ _ => rfl) fun u t x y _ => by rw [flush_eq]
  · exact bitsComplete_of (g := fun u f x y => minMax f true (readFloat u.flush f x) (readFloat u.flush f y))
      (fun _ _ _ _ _ => rfl) (fun _ _ _ _ _ _ => rfl) fun u t x y _ => by rw [flush_eq]
  · exact arithCompletes_of (fun _ _ _ _ _ _ => rfl) fun _ _ _ _ _ _ _ => rfl
  · exact bitsComplete_of (g := fun u f x _ => ⟨classMask u.flush f x, 0⟩)
      (fun _ _ _ _ _ => rfl) (fun _ _ _ _ _ _ => rfl) fun u t x y _ => by rw [flush_eq]
  · exact bitsComplete_of (g := fun u f x _ => ⟨withSign u.flush f x fun _ => false, 0⟩) (fun _ _ _ _ _ => rfl)
      (fun _ _ _ _ _ _ => rfl) fun u t x _ _ => withSign_eq u t _ rfl
  · exact bitsComplete_of (g := fun u f x _ => ⟨withSign u.flush f x fun n => !n, 0⟩) (fun _ _ _ _ _ => rfl)
      (fun _ _ _ _ _ _ => rfl) fun u t x _ _ => withSign_eq u t _ rfl
  · exact bitsComplete_of (g := fun u f x y => ⟨withSign u.flush f x fun _ => signOf f y, 0⟩) (fun _ _ _ _ _ => rfl)
      (fun _ _ _ _ _ _ => rfl) fun u t x y _ => withSign_eq u t _ rfl

/-! ## Comparison (R151) -/

theorem flags_fcmpResult (c : FCmpCond) (x y : FVal) : (fcmpResult c x y).2 =
    if (c = .lt ∨ c = .le ∨ c = .un) ∧ (x = .nan true ∨ y = .nan true) then flagNV else 0 := by
  have hsnan (v : FVal) : v.isSNaN = true ↔ v = .nan true := by
    cases v <;> simp [FVal.isSNaN]
  have hor : (x.isSNaN || y.isSNaN) = true ↔ x = .nan true ∨ y = .nan true := by
    rw [Bool.or_eq_true, hsnan, hsnan]
  cases c <;> simp [fcmpResult, flagIf, ← hor]

/-- Settles O30: both forms by the bits of their predicate. -/
theorem floatCompare : Obligations.FloatCompare := by
  unfold Obligations.FloatCompare
  refine ⟨fun t pd a b c s => ?_, fun dbl pd a b p c s => ?_, flags_fcmpResult⟩
  · simp only [completes, exec, execFcmp, fVal_eq_operand, predAll]
  · have hn : (if dbl then 8 else 16) = 8 ∨ (if dbl then 8 else 16) = 16 := by cases dbl <;> simp
    have hflags (q : Pred) (r : Nat → Bool × Flags) (n : Nat) :
        elemFlags q (Fmt.width (if dbl then Fmt.fp64 else .fp32)) (fun j => (r j).2) n =
          activeFlags q 32 (fun j => ⟨0, (r j).2⟩) n := by
      have hw := elemFlags_eq_activeFlags q (elementWidth_fmt (if dbl then Fmt.fp64 else .fp32)) (fun j => ⟨0, (r j).2⟩) n
      cases dbl <;> exact hw
    simp only [completes, exec, execFcmpV, fElem_eq_element, predOf_eq_bitsOf hn, hflags]
    exact congrArg _ (onThr_congr rfl)

/-! ## Conversions (R144, R154, R155) -/

/-- A signed conversion gives a number of its width (R69). -/
theorem toIntResult_signed_range (n : Nat) (sat : Bool) (env : RoundEnv) (x : FVal) :
    -(2 ^ (n - 1) : Nat) ≤ (toIntResult n false sat env x).1 ∧ (toIntResult n false sat env x).1 < (2 ^ (n - 1) : Nat) := by
  have hpos : 0 < 2 ^ (n - 1) := Nat.two_pow_pos _
  generalize hk : 2 ^ (n - 1) = k at *
  cases x with
  | nan q => cases sat <;> simp [toIntResult, hk] <;> omega
  | inf q => cases sat <;> cases q <;> simp [toIntResult, hk] <;> omega
  | fin neg m e =>
    have hin (v : Int) (fl : Flags) : (-(k : Int) ≤ (if v < -k then (if sat then (-(k : Int), flagSAT) else (-(k : Int), flagNV))
        else if v > k - 1 then (if sat then ((k : Int) - 1, flagSAT) else (-(k : Int), flagNV)) else (v, fl)).1) ∧
        ((if v < -k then (if sat then (-(k : Int), flagSAT) else (-(k : Int), flagNV))
        else if v > k - 1 then (if sat then ((k : Int) - 1, flagSAT) else (-(k : Int), flagNV)) else (v, fl)).1 < (k : Int)) := by
      split
      · cases sat <;> simp <;> omega
      · split
        · cases sat <;> simp <;> omega
        · omega
    simpa only [toIntResult, hk, Bool.false_eq_true, if_false] using hin _ _

theorem cvtInt_width_pos (it : CvtInt) : 0 < CvtInt.width it := by cases it <;> decide

theorem cvtInt_width_le (it : CvtInt) : CvtInt.width it ≤ 64 := by cases it <;> decide

/-- The register of an integer result: its low bits, extended. -/
theorem cvtWord_eq {n : Nat} (hn : 0 < n) (hle : n ≤ 64) (uns : Bool) (v : Int)
    (hv : uns = false → -(2 ^ (n - 1) : Nat) ≤ v ∧ v < (2 ^ (n - 1) : Nat)) :
    cvtWord n uns v = if uns then (BitVec.ofInt n v).zeroExtend 64 else (BitVec.ofInt n v).signExtend 64 := by
  cases uns
  · obtain ⟨hlo, hhi⟩ := hv rfl
    have hpow : 2 ^ n = 2 * 2 ^ (n - 1) := by rw [← pow_succ', Nat.sub_add_cancel hn]
    have hself : v.bmod (2 ^ n) = v := by
      rw [Int.bmod_eq_of_le] <;> omega
    simp only [cvtWord, Bool.false_eq_true, if_false, BitVec.signExtend, BitVec.toInt_ofInt, hself]
  · apply BitVec.eq_of_toNat_eq
    have hlt : (BitVec.ofInt n v).toNat < 2 ^ 64 := lt_of_lt_of_le (BitVec.isLt _) (Nat.pow_le_pow_right (by omega) hle)
    simp only [cvtWord, if_true, narrow_toNat, BitVec.ofInt_natCast, BitVec.toNat_ofNat, BitVec.toNat_setWidth]

theorem cvtSource_eq {n : Nat} (hn : 0 < n) (uns : Bool) (x : BitVec n) :
    cvtSource n uns x.toNat = intVal (if uns then (x.toNat : Int) else x.toInt) := by
  rw [cvtSource, signedOf_toInt n hn, Nat.mod_eq_of_lt x.isLt]

theorem cvtSource_mod (n : Nat) (uns : Bool) (x : Nat) : cvtSource n uns x = cvtSource n uns (x % 2 ^ n) := by
  rw [cvtSource, cvtSource, signedOf, signedOf, Nat.mod_mod]

/-- Settles O32: the scalar results as words, the vector forms as elements of the wider format. -/
theorem conversions : Obligations.Conversions := by
  unfold Obligations.Conversions
  refine ⟨⟨fun t d a sat src rm s => fScalar_completes rfl ?_, fun t d a sat uns it rm s => ?_, fun t d a uns it rm s =>
    fScalar_completes rfl ?_⟩, fun t d a sat src p rm s => ?_, fun t d a sat uns it p rm s => ?_, fun t d a uns it p rm s => ?_⟩
  · rw [env_eq_roundEnv, fVal_eq_operand]
  · have hword (u : Thread) := cvtWord_eq (cvtInt_width_pos it) (cvtInt_width_le it) uns
      (toIntResult (CvtInt.width it) uns sat (u.roundEnv rm sat 0) (u.operand t a)).1
      (fun h => h ▸ toIntResult_signed_range _ _ _ _)
    simp only [completes, exec, execFcvti, env_eq_roundEnv, fVal_eq_operand, hword]
    rfl
  · rw [env_eq_roundEnv, cvtSource_mod, ← BitVec.toNat_setWidth, cvtSource_eq (cvtInt_width_pos it)]
  · exact fVector_completes (elementWidth_max (elementWidth_fmt t) (elementWidth_fmt src)) (elementWidth_fmt t) rfl
      fun j => by rw [env_eq_roundEnv, fElem_eq_element]
  · refine fVector_completes (elementWidth_max (elementWidth_cvtInt it) (elementWidth_fmt t)) (elementWidth_cvtInt it) rfl
      fun j => ?_
    simp only [env_eq_roundEnv, fElem_eq_element, narrow, Nat.cast_pow, Nat.cast_ofNat]
  · exact fVector_completes (elementWidth_max (elementWidth_cvtInt it) (elementWidth_fmt t)) (elementWidth_fmt t) rfl
      fun j => by rw [env_eq_roundEnv, elem_eq_lane, cvtSource_eq (cvtInt_width_pos it)]

end Sys2Proof.Machine
end

section
/-! Lanes, reductions, dot products, packing, scaling and draws (spec/06, R157 to R164; spec/03, R74 to R76). -/

namespace Sys2Proof.Machine

open Sys2Proof

set_option Elab.async false

/-! ## Moving lanes (R157 to R159) -/

theorem intTy_lanes_fit (t : IntTy) : IntTy.width t * (512 / IntTy.width t) ≤ 512 := Nat.mul_div_le _ _

theorem intTy_lane_lt {t : IntTy} {j : Nat} (hj : j < 512 / IntTy.width t) : j < 16 := by
  cases t <;> simp only [IntTy.width] at hj <;> omega

theorem allLanes_getLsbD {j : Nat} (hj : j < 16) : (0xFFFF : Pred).getLsbD j = true := by
  have h : ∀ k, k < 16 → (0xFFFF : Pred).getLsbD k = true := by decide
  exact h j hj

theorem govBit_all (t : IntTy) {j : Nat} (hj : j < 512 / IntTy.width t) : govBit 0xFFFF (IntTy.width t) j = true := by
  rw [govBit_lane _ _ _ (IntTy.width_not_lt t)]
  exact allLanes_getLsbD (intTy_lane_lt hj)

theorem lanes_laneOp (t : IntTy) (p : Pred) (f : Nat → Nat) (old : VWord) {j : Nat} (hj : j < 512 / IntTy.width t) :
    lane (IntTy.width t) (mapElems p (IntTy.width t) (IntTy.width t) f old (512 / IntTy.width t)) j =
      if p.getLsbD j then BitVec.ofNat _ (f j) else lane _ old j := by
  rw [lane_mapElems _ _ _ _ _ _ _ (lane_fits _ _ _ hj (intTy_lanes_fit t)), govBit_lane _ _ _ (IntTy.width_not_lt t)]
  simp only [hj, true_and]

/-- An operation that gives the active lanes by a function of the lane completes with them. -/
theorem laneOp_completes {i : Instr} {s : State} {t : IntTy} {d : BitVec 5} {p : BitVec 3} {f : Thread → Nat → Nat}
    {g : Nat → BitVec (IntTy.width t)} (hi : exec i s = .next (s.laneOp t d p f)) (hg : ∀ j, BitVec.ofNat _ (f s.thr j) = g j) :
    lanesComplete i s (IntTy.width t) d p fun j => (g j, false) := by
  refine ⟨mapElems (s.thr.rp p) (IntTy.width t) (IntTy.width t) (f s.thr) (s.thr.rv d) (512 / IntTy.width t), ?_, fun j hj => ?_⟩
  · have hsat (l : List Nat) (q : Pred) : (l.any fun j => q.getLsbD j && false) = false := by simp
    rw [completes, hi, State.laneOp]
    simp only [hsat]
    rfl
  · rw [lanes_laneOp t _ _ _ hj, hg]

theorem ofNat_elem (w : Nat) (x : VWord) (j : Nat) : BitVec.ofNat w (elem x w j) = lane w x j := by
  rw [elem_eq_lane, BitVec.ofNat_toNat, BitVec.setWidth_eq]

theorem ofNat_intSrc (u : Thread) (w : Nat) (a : BitVec 6) : BitVec.ofNat w (u.intSrc w a) = u.low w a := by
  rw [Thread.intSrc_eq_low, BitVec.ofNat_toNat, BitVec.setWidth_eq]

theorem intWord_elem (t : IntTy) (x : VWord) (j : Nat) :
    intWord (IntTy.width t) (elem x (IntTy.width t) j) = (lane (IntTy.width t) x j).signExtend 64 := by
  rw [intWord, elem_eq_lane, signedOf_toInt _ (IntTy.width_pos t)]
  rfl

/-- Settles O33: each move by the lanes that it writes. -/
theorem vectorLaneMoves : Obligations.VectorLaneMoves := by
  unfold Obligations.VectorLaneMoves
  refine ⟨fun t d a s => ⟨_, rfl, fun j hj => ?_⟩, fun t d a b s => ?_, fun t d a b s => ⟨_, rfl, fun j hj => ?_⟩,
    fun t d a b p s => laneOp_completes rfl fun j => ?_, fun t d a c p s => laneOp_completes rfl fun j => ?_,
    fun t d p s => laneOp_completes rfl fun j => rfl, fun t d a b p s => ⟨_, rfl, fun j hj => ?_⟩⟩
  · rw [lane_mapElems _ _ _ _ _ _ _ (lane_fits _ _ _ hj (intTy_lanes_fit t)), govBit_all t hj, if_pos ⟨hj, rfl⟩, ofNat_intSrc]
  · simp only [completes, exec, execVext, State.wordOp, intWord_elem, laneIndex]
  · rw [lane_setElem _ _ _ _ _ (lane_fits _ _ _ hj (intTy_lanes_fit t)), ofNat_intSrc]
    simp only [laneIndex, eq_comm (b := j)]
  · rw [ofNat_elem, elem_eq_lane]
  · rw [ofNat_elem]
  · rw [lanes_laneOp t _ _ _ hj, show s.thr.rp 0 = 0xFFFF from rfl, allLanes_getLsbD (intTy_lane_lt hj), if_pos rfl]
    dsimp only
    split
    · rw [ofNat_elem]
    · rw [ofNat_elem]

/-! ## Draws, packing and scaling (R162 to R164) -/

theorem raise_zero (t : Thread) : t.raise 0 = t := by
  simp [Thread.raise]

/-- A lane operation of 32 bits without flags or draws, as the lanes that it leaves. -/
theorem fVector_lanesComplete {i : Instr} {s : State} {d : BitVec 5} {p : BitVec 3} {f : Thread → Nat → Rounded}
    {g : Nat → BitVec 32} (hi : exec i s = .next (s.fVector d (s.thr.rp p) 32 32 16 .rne 0 f))
    (hg : ∀ j, BitVec.ofNat 32 (f s.thr j).bits = g j) (hfl : ∀ j, (f s.thr j).flags = 0) :
    lanesComplete i s 32 d p fun j => (g j, false) := by
  have hflags : elemFlags (s.thr.rp p) 32 (fun j => (f s.thr j).flags) 16 = 0 := by
    simp only [hfl, elemFlags, ite_self]
    rfl
  refine ⟨mapElems (s.thr.rp p) 32 32 (fun j => (f s.thr j).bits) (s.thr.rv d) 16, ?_, fun j hj => ?_⟩
  · have hsat (l : List Nat) (q : Pred) : (l.any fun j => q.getLsbD j && false) = false := by simp
    rw [completes, hi, State.fVector]
    refine congrArg _ (onThr_congr ?_)
    simp only [hsat, hflags, raise_zero]
    rfl
  · rw [lane_mapElems _ _ _ _ _ _ _ (lane_fits _ _ 16 hj (by omega)), govBit_lane _ _ _ (by omega), hg]
    have hj16 : j < 16 := hj
    simp only [hj16, true_and]

/-- The lanes that sixteen elements put one after the other leave. -/
theorem lane_foldl_setElem (w base n j : Nat) (r : Nat → Nat) (x : VWord) (hj : w * j + w ≤ 512) :
    lane w ((List.range n).foldl (fun x i => setElem x w (base + i) (r i)) x) j =
      if base ≤ j ∧ j < base + n then BitVec.ofNat w (r (j - base)) else lane w x j := by
  induction n with
  | zero =>
    rw [if_neg (by omega)]
    rfl
  | succ n ih =>
    rw [List.range_succ, List.foldl_append, List.foldl_cons, List.foldl_nil, lane_setElem _ _ _ _ _ hj, ih]
    by_cases h : base + n = j
    · subst h
      rw [if_pos rfl, if_pos (by omega), Nat.add_sub_cancel_left]
    · rw [if_neg h]
      by_cases hin : base ≤ j ∧ j < base + n
      · rw [if_pos hin, if_pos (by omega)]
      · rw [if_neg hin, if_neg (by omega)]

/-! ## The encodings that roundings deliver (R59, R60) -/

/-- A rounded mantissa has at most the precision, and fills it where the spacing is that of its own binade. -/
theorem roundAt_bounds (rm : Rm) (draw : Nat) (neg : Bool) {m : Nat} (hm : m ≠ 0) (e : Int) (sticky : Bool) {p : Nat}
    (hp : 0 < p) {qe : Int} (hqe : (Nat.log2 m : Int) + e - p + 1 ≤ qe) :
    (roundAt rm draw neg m e sticky qe).1 ≤ 2 ^ p ∧
      ((Nat.log2 m : Int) + e - p + 1 = qe → 2 ^ (p - 1) ≤ (roundAt rm draw neg m e sticky qe).1) := by
  have hlo : 2 ^ Nat.log2 m ≤ m := Nat.log2_self_le hm
  have hhi : m < 2 ^ (Nat.log2 m + 1) := Nat.lt_log2_self
  have hk : m * 2 ^ (e - qe).toNat / 2 ^ (qe - e).toNat < 2 ^ p := by
    rw [Nat.div_lt_iff_lt_mul (Nat.two_pow_pos _), ← pow_add]
    calc m * 2 ^ (e - qe).toNat < 2 ^ (Nat.log2 m + 1) * 2 ^ (e - qe).toNat := Nat.mul_lt_mul_of_pos_right hhi (Nat.two_pow_pos _)
      _ = 2 ^ (Nat.log2 m + 1 + (e - qe).toNat) := (pow_add _ _ _).symm
      _ ≤ 2 ^ (p + (qe - e).toNat) := Nat.pow_le_pow_right (by omega) (by omega)
  have hk' (h : (Nat.log2 m : Int) + e - p + 1 = qe) : 2 ^ (p - 1) ≤ m * 2 ^ (e - qe).toNat / 2 ^ (qe - e).toNat := by
    rw [Nat.le_div_iff_mul_le (Nat.two_pow_pos _), ← pow_add]
    calc 2 ^ (p - 1 + (qe - e).toNat) ≤ 2 ^ (Nat.log2 m + (e - qe).toNat) := Nat.pow_le_pow_right (by omega) (by omega)
      _ = 2 ^ Nat.log2 m * 2 ^ (e - qe).toNat := pow_add _ _ _
      _ ≤ m * 2 ^ (e - qe).toNat := Nat.mul_le_mul_right _ hlo
  simp only [roundAt]
  constructor
  · split <;> omega
  · intro h
    have := hk' h
    split <;> omega

/-- An encoding of a number or an infinity, or the canonical NaN. -/
def Canonical (f : Fmt) (bits : Nat) : Prop :=
  (∃ neg mag, bits = Fmt.signBit f neg + mag ∧ mag ≤ (Fmt.infBits f).getD 0) ∨ bits = (Fmt.nanBits f).getD 0

theorem infBits_fmt (t : FTy) :
    (Fmt.infBits (FTy.fmt t)).getD 0 = (2 ^ Fmt.ebits (FTy.fmt t) - 1) * 2 ^ (Fmt.prec (FTy.fmt t) - 1) := by cases t <;> rfl

theorem largestBits_le (t : FTy) : Fmt.largestBits (FTy.fmt t) ≤ (Fmt.infBits (FTy.fmt t)).getD 0 := by cases t <;> decide

/-- The largest finite value, in terms of the format. -/
theorem largest_fmt (t : FTy) : Fmt.largest (FTy.fmt t) =
    (2 ^ Fmt.prec (FTy.fmt t) - 1, Fmt.qmin (FTy.fmt t) + ((2 ^ Fmt.ebits (FTy.fmt t) - 3 : Nat) : Int)) := by
  cases t <;> decide

theorem canonical_nanResult (f : Fmt) (fl : Flags) : Canonical f (nanResult f fl).bits := by
  right
  unfold nanResult
  cases Fmt.nanBits f <;> rfl

theorem canonical_infResult (t : FTy) (env : RoundEnv) (neg : Bool) : Canonical (FTy.fmt t) (infResult (FTy.fmt t) env neg).bits :=
  .inl ⟨neg, (Fmt.infBits (FTy.fmt t)).getD 0, by cases t <;> rfl, le_rfl⟩

theorem canonical_overflow (t : FTy) (env : RoundEnv) (neg : Bool) : Canonical (FTy.fmt t) (overflow (FTy.fmt t) env neg).bits := by
  have hbig : Canonical (FTy.fmt t) (Fmt.signBit (FTy.fmt t) neg + Fmt.largestBits (FTy.fmt t)) :=
    .inl ⟨neg, _, rfl, largestBits_le t⟩
  have hinf : ∃ b, Fmt.infBits (FTy.fmt t) = some b := by cases t <;> exact ⟨_, rfl⟩
  obtain ⟨b, hb⟩ := hinf
  unfold overflow
  split
  · exact hbig
  · have hchoice (q : Bool) : Canonical (FTy.fmt t)
        (if q then Fmt.signBit (FTy.fmt t) neg + b else Fmt.signBit (FTy.fmt t) neg + Fmt.largestBits (FTy.fmt t)) := by
      cases q
      · exact hbig
      · exact .inl ⟨neg, b, rfl, by rw [hb]; rfl⟩
    simp only [hb]
    exact hchoice _

/-- A rounded mantissa that is not beyond the largest value gives a magnitude below an infinity's. -/
theorem magnitude_le_inf (t : FTy) {r : Nat} {qe : Int} (hq : Fmt.qmin (FTy.fmt t) ≤ qe) (hr : r ≤ 2 ^ Fmt.prec (FTy.fmt t))
    (hfull : qe = Fmt.qmin (FTy.fmt t) ∨ 2 ^ (Fmt.prec (FTy.fmt t) - 1) ≤ r)
    (hle : dyadGt r qe (Fmt.largest (FTy.fmt t)).1 (Fmt.largest (FTy.fmt t)).2 = false) :
    (qe - Fmt.qmin (FTy.fmt t)).toNat * 2 ^ (Fmt.prec (FTy.fmt t) - 1) + r ≤ (Fmt.infBits (FTy.fmt t)).getD 0 := by
  rw [largest_fmt] at hle
  rw [infBits_fmt]
  generalize hL : Fmt.qmin (FTy.fmt t) + ((2 ^ Fmt.ebits (FTy.fmt t) - 3 : Nat) : Int) = L at hle
  have htop : L ≤ qe → r * 2 ^ (qe - L).toNat ≤ 2 ^ Fmt.prec (FTy.fmt t) - 1 := by
    intro h
    have h0 : (L - qe).toNat = 0 := by omega
    simpa [dyadGt, h0] using hle
  have hover : L < qe → r * 2 ≤ 2 ^ Fmt.prec (FTy.fmt t) - 1 := by
    intro h
    have hpow : 2 ≤ 2 ^ (qe - L).toNat := Nat.le_self_pow (by omega) 2
    exact le_trans (Nat.mul_le_mul_left r hpow) (htop (le_of_lt h))
  have hsame : L = qe → r ≤ 2 ^ Fmt.prec (FTy.fmt t) - 1 := by
    intro h
    have := htop (le_of_eq h)
    rwa [h, Int.sub_self, Int.toNat_zero, pow_zero, Nat.mul_one] at this
  clear htop hle
  cases t <;> norm_num [FTy.fmt, Fmt.prec, Fmt.ebits, Fmt.width, Fmt.qmin, Fmt.emin] at * <;> omega

theorem canonical_roundFinite (t : FTy) (env : RoundEnv) (neg : Bool) (m : Nat) (e : Int) :
    Canonical (FTy.fmt t) (roundFinite (FTy.fmt t) env neg m e false).bits := by
  have hzero : Canonical (FTy.fmt t) (Fmt.signBit (FTy.fmt t) neg) := .inl ⟨neg, 0, rfl, Nat.zero_le _⟩
  unfold roundFinite
  dsimp only
  split
  · exact hzero
  · next hm =>
    have hm : m ≠ 0 := fun h => hm ⟨h, rfl⟩
    split
    · exact hzero
    · split
      · exact canonical_overflow t env neg
      · next hle =>
        have hq0 : Fmt.qmin (FTy.fmt t) = Fmt.emin (FTy.fmt t) - (Fmt.prec (FTy.fmt t) : Int) + 1 := rfl
        have hprec : 0 < Fmt.prec (FTy.fmt t) := by cases t <;> decide
        refine .inl ⟨neg, _, Nat.add_assoc _ _ _, magnitude_le_inf t (by omega) ?_ ?_ (Bool.eq_false_iff.2 hle)⟩
        · exact (roundAt_bounds _ _ _ hm _ _ hprec (by omega)).1
        · rcases le_or_gt (Fmt.emin (FTy.fmt t)) ((Nat.log2 m : Int) + e) with h | h
          · rw [max_eq_left h]
            exact .inr ((roundAt_bounds _ _ _ hm _ _ hprec le_rfl).2 rfl)
          · exact .inl (by rw [max_eq_right (le_of_lt h)]; rfl)

end Sys2Proof.Machine
end

section
/-! Reductions and dot products (spec/03, R75, R76; spec/06, R160, R161), packing, scaling and draws (R162 to R164). -/

namespace Sys2Proof.Machine

open Sys2Proof

set_option Elab.async false

/-! ## Canonical encodings are what their values encode to -/

theorem signBit_cases (t : FTy) (neg : Bool) : Fmt.signBit (FTy.fmt t) neg =
    neg.toNat * (2 ^ Fmt.ebits (FTy.fmt t) * 2 ^ (Fmt.prec (FTy.fmt t) - 1)) := by
  cases t <;> cases neg <;> rfl

/-- An encoding of a magnitude below an infinity's stands for a finite value. -/
theorem unpack_of_magnitude_lt (t : FTy) (neg : Bool) {mag : Nat} (h : mag < (Fmt.infBits (FTy.fmt t)).getD 0) :
    ∃ n m e, Fmt.unpack (FTy.fmt t) (Fmt.signBit (FTy.fmt t) neg + mag) = .fin n m e := by
  have hef : (Fmt.signBit (FTy.fmt t) neg + mag) / 2 ^ (Fmt.prec (FTy.fmt t) - 1) % 2 ^ Fmt.ebits (FTy.fmt t) ≠
      2 ^ Fmt.ebits (FTy.fmt t) - 1 := by
    rw [infBits_fmt] at h
    rw [signBit_cases]
    cases t <;> cases neg <;> norm_num [FTy.fmt, Fmt.prec, Fmt.ebits, Fmt.width] at h ⊢ <;> omega
  rw [unpack_fmt]
  dsimp only
  rw [if_neg hef]
  split
  · exact ⟨_, _, _, rfl⟩
  · exact ⟨_, _, _, rfl⟩

theorem magnitude_lt_width (t : FTy) (neg : Bool) {mag : Nat} (h : mag ≤ (Fmt.infBits (FTy.fmt t)).getD 0) :
    Fmt.signBit (FTy.fmt t) neg + mag < 2 ^ Fmt.width (FTy.fmt t) := by
  rw [infBits_fmt] at h
  rw [signBit_cases]
  cases t <;> cases neg <;> norm_num [FTy.fmt, Fmt.prec, Fmt.ebits, Fmt.width] at h ⊢ <;> omega

theorem repack_unpack_of_canonical {t : FTy} {bits : Nat} (h : Canonical (FTy.fmt t) bits) :
    repack (FTy.fmt t) (Fmt.unpack (FTy.fmt t) bits) = bits := by
  rcases h with ⟨neg, mag, rfl, hmag⟩ | rfl
  · rcases Nat.lt_or_eq_of_le hmag with hlt | rfl
    · obtain ⟨n, m, e, hfin⟩ := unpack_of_magnitude_lt t neg hlt
      have henc := finiteEncoding_of_unpack hfin
      have hexact := roundFinite_of_encoding henc ⟨.rtz, ⟨false, false, false⟩, false, 0⟩ (by cases t <;> rfl) n
      have hsign : (Fmt.signBit (FTy.fmt t) n + (Fmt.signBit (FTy.fmt t) neg + mag) % 2 ^ (Fmt.width (FTy.fmt t) - 1)) =
          Fmt.signBit (FTy.fmt t) neg + mag := bits_eq_of_encoding henc (magnitude_lt_width t neg hmag)
      rw [hfin, repack, hexact, hsign]
    · cases t <;> cases neg <;> decide
  · cases t <;> decide

theorem canonical_repack (t : FTy) (v : FVal) : Canonical (FTy.fmt t) (repack (FTy.fmt t) v) := by
  cases v with
  | nan q => exact .inr rfl
  | inf n => exact .inl ⟨n, _, rfl, le_rfl⟩
  | fin n m e => exact canonical_roundFinite t _ n m e

theorem canonical_addRounded (t : FTy) (env : RoundEnv) (x y : FVal) : Canonical (FTy.fmt t) (addRounded (FTy.fmt t) env x y).bits := by
  cases x <;> cases y <;> simp only [addRounded]
  case inf.inf n k =>
    split
    · exact canonical_infResult t env n
    · exact canonical_nanResult _ _
  case inf.fin => exact canonical_infResult t env _
  case fin.inf => exact canonical_infResult t env _
  case fin.fin => exact canonical_roundFinite t env _ _ _
  all_goals exact canonical_nanResult _ _

theorem canonical_minMax (t : FTy) (isMax : Bool) (x y : FVal) : Canonical (FTy.fmt t) (minMax (FTy.fmt t) isMax x y).bits := by
  unfold minMax
  cases x.isNaN <;> cases y.isNaN
  · exact canonical_repack t _
  · exact canonical_repack t _
  · exact canonical_repack t _
  · exact canonical_nanResult _ _

theorem canonical_redNode (fn : VRedFn) (t : FTy) (env : RoundEnv) (x y : FVal) :
    Canonical (FTy.fmt t) (redNode fn (FTy.fmt t) env x y).bits := by
  cases fn
  · exact canonical_addRounded t env x y
  · exact canonical_minMax t false x y
  · exact canonical_minMax t true x y

/-! ## A value does not depend on its scale (R59) -/

theorem roundsAway_zero (rm : Rm) (draw : Nat) (neg : Bool) (k sh : Nat) : roundsAway rm draw neg k 0 sh false = false := by
  simp [roundsAway]

theorem mul_two_pow_beq_zero (r j : Nat) : (r * 2 ^ j == 0) = (r == 0) := by simp

theorem roundsAway_scale (rm : Rm) (draw : Nat) (neg : Bool) (k r sh j : Nat) :
    roundsAway rm draw neg k (r * 2 ^ j) (sh + j) false = roundsAway rm draw neg k r sh false := by
  have hj : 0 < 2 ^ j := Nat.two_pow_pos j
  have hr := mul_two_pow_beq_zero r j
  have hgt : (2 * (r * 2 ^ j) > 2 ^ (sh + j)) = (2 * r > 2 ^ sh) := by
    rw [pow_add, ← Nat.mul_assoc, gt_iff_lt, gt_iff_lt, Nat.mul_lt_mul_right hj]
  have heq : (2 * (r * 2 ^ j) == 2 ^ (sh + j)) = (2 * r == 2 ^ sh) := by
    rw [pow_add, ← Nat.mul_assoc, Bool.eq_iff_iff, beq_iff_eq, beq_iff_eq, Nat.mul_left_inj (by omega)]
  have hge : (2 * (r * 2 ^ j) ≥ 2 ^ (sh + j)) = (2 * r ≥ 2 ^ sh) := by
    rw [pow_add, ← Nat.mul_assoc, ge_iff_le, ge_iff_le, Nat.mul_le_mul_right_iff hj]
  have hneg : (draw * 2 ^ (sh + j) < (2 ^ (sh + j) - r * 2 ^ j) * 2 ^ 24) = (draw * 2 ^ sh < (2 ^ sh - r) * 2 ^ 24) := by
    rw [pow_add, ← Nat.mul_assoc, ← Nat.sub_mul, Nat.mul_right_comm (2 ^ sh - r),
      Nat.mul_lt_mul_right hj]
  have hpos : (draw * 2 ^ (sh + j) < r * 2 ^ j * 2 ^ 24) = (draw * 2 ^ sh < r * 2 ^ 24) := by
    rw [pow_add, ← Nat.mul_assoc, Nat.mul_right_comm r, Nat.mul_lt_mul_right hj]
  unfold roundsAway
  simp only [hr, hgt, heq, hge, hneg, hpos, Bool.false_and]

theorem roundAt_scale (rm : Rm) (draw : Nat) (neg : Bool) (m : Nat) (e : Int) (j : Nat) (qe : Int) :
    roundAt rm draw neg (m * 2 ^ j) (e - j) false qe = roundAt rm draw neg m e false qe := by
  rcases le_or_gt e qe with h | h
  · have hup : (e - j - qe).toNat = 0 := by omega
    have hup' : (e - qe).toNat = 0 := by omega
    have hsh : (qe - (e - j)).toNat = (qe - e).toNat + j := by omega
    simp only [roundAt, hup, hup', hsh, pow_zero, Nat.mul_one]
    rw [pow_add, Nat.mul_div_mul_right _ _ (Nat.two_pow_pos j), Nat.mul_mod_mul_right, roundsAway_scale, bne, bne,
      mul_two_pow_beq_zero]
  · have hsh : (qe - e).toNat = 0 := by omega
    rcases le_or_gt (j : Int) (e - qe) with hj | hj
    · have hsh' : (qe - (e - j)).toNat = 0 := by omega
      have hup : m * 2 ^ j * 2 ^ (e - j - qe).toNat = m * 2 ^ (e - qe).toNat := by
        rw [Nat.mul_assoc, ← pow_add, show j + (e - j - qe).toNat = (e - qe).toNat by omega]
      simp only [roundAt, hsh, hsh', hup]
    · have hup : (e - j - qe).toNat = 0 := by omega
      have hsplit : m * 2 ^ j = m * 2 ^ (e - qe).toNat * 2 ^ (qe - (e - j)).toNat := by
        rw [Nat.mul_assoc, ← pow_add, show (e - qe).toNat + (qe - (e - j)).toNat = j by omega]
      simp only [roundAt, hsh, hup, pow_zero, Nat.mul_one, Nat.div_one, Nat.mod_one, roundsAway_zero]
      rw [hsplit, Nat.mul_div_cancel _ (Nat.two_pow_pos _), Nat.mul_mod_left, roundsAway_zero]

theorem log2_mul_two_pow {m : Nat} (hm : m ≠ 0) (j : Nat) : Nat.log2 (m * 2 ^ j) = Nat.log2 m + j := by
  have hne : m * 2 ^ j ≠ 0 := Nat.mul_ne_zero hm (Nat.two_pow_pos j).ne'
  rw [Nat.log2_eq_iff hne, pow_add, Nat.add_right_comm, pow_add _ _ j]
  exact ⟨Nat.mul_le_mul_right _ (Nat.log2_self_le hm), Nat.mul_lt_mul_of_pos_right Nat.lt_log2_self (Nat.two_pow_pos j)⟩

theorem roundFinite_scale (f : Fmt) (env : RoundEnv) (n : Bool) {m : Nat} (hm : m ≠ 0) (e : Int) (j : Nat) :
    roundFinite f env n (m * 2 ^ j) (e - j) false = roundFinite f env n m e false := by
  have hne : m * 2 ^ j ≠ 0 := Nat.mul_ne_zero hm (Nat.two_pow_pos j).ne'
  have hlg : (Nat.log2 (m * 2 ^ j) : Int) + (e - j) = (Nat.log2 m : Int) + e := by
    rw [log2_mul_two_pow hm]
    omega
  simp only [roundFinite, hm, hne, false_and, if_false, hlg, roundAt_scale]

/-- A zero's exponent does not matter to a sum. -/
theorem addRounded_zero_left (f : Fmt) (env : RoundEnv) (n : Bool) (e : Int) (y : FVal) :
    addRounded f env (.fin n 0 e) y = addRounded f env (.fin n 0 0) y := by
  cases y with
  | nan s => rfl
  | inf k => rfl
  | fin k l g =>
    suffices h : ∀ q : Int, addRounded f env (.fin n 0 q) (.fin k l g) =
        if l = 0 then roundFinite f env (if n = k then n else env.rm == .rdn) 0 0 false else roundFinite f env k l g false by
      rw [h, h]
    intro q
    have hv (E : Int) : sumAt E [⟨n, 0, q⟩, ⟨k, l, g⟩] = if k then -((l * 2 ^ (g - E).toNat : Nat) : Int) else (l * 2 ^ (g - E).toNat : Nat) := by
      cases n <;> simp [sumAt]
    simp only [addRounded]
    by_cases hl : l = 0
    · subst hl
      have hsame : ([⟨n, 0, q⟩, ⟨k, 0, g⟩] : List Term).all (fun t => t.m == 0 && t.neg == n) = (n == k) := by
        simp [eq_comm]
      simp only [exactSum, hv, Nat.zero_mul, Nat.cast_zero, neg_zero, ite_self, if_true, List.headD_cons, hsame, beq_iff_eq]
    · have hpos : 0 < l * 2 ^ (g - min q g).toNat := Nat.mul_pos (by omega) (Nat.two_pow_pos _)
      have hmin : min q g = g - ((g - min q g).toNat : Int) := by omega
      have hsum : exactSum env.rm [⟨n, 0, q⟩, ⟨k, l, g⟩] = ⟨k, l * 2 ^ (g - min q g).toNat, min q g⟩ := by
        have hE : minExp [⟨n, 0, q⟩, ⟨k, l, g⟩] = min q g := rfl
        rw [exactSum, hE, hv]
        cases k
        · simp only [Bool.false_eq_true, if_false]
          rw [if_neg (by omega), decide_eq_false (by omega), Int.natAbs_natCast]
        · simp only [if_true]
          rw [if_neg (by omega), decide_eq_true (by omega), Int.natAbs_neg, Int.natAbs_natCast]
      rw [hsum, if_neg hl]
      dsimp only
      have hscale := roundFinite_scale f env k hl g (g - min q g).toNat
      rwa [← hmin] at hscale

/-! ## The reduction tree (R75, R160) -/

/-- The union of the flags of the first h of a sequence. -/
def unionFlags (r : Nat → Flags) : Nat → Flags
  | 0 => 0
  | h + 1 => r 0 ||| unionFlags (fun i => r (i + 1)) h

theorem unionFlags_zero (h : Nat) : unionFlags (fun _ => 0) h = 0 := by
  induction h with
  | zero => rfl
  | succ h ih => rw [unionFlags, ih]; rfl

/-- The flags of the two below each node and of the nodes are those of all below and of the nodes. -/
theorem unionFlags_pairs (a r : Nat → Flags) (h : Nat) :
    unionFlags (fun i => a (2 * i) ||| a (2 * i + 1) ||| r i) h = unionFlags a (2 * h) ||| unionFlags r h := by
  induction h generalizing a r with
  | zero => simp [unionFlags]
  | succ h ih =>
    have hshift := ih (fun i => a (i + 2)) fun i => r (i + 1)
    have hfun : (fun i => a (2 * (i + 1)) ||| a (2 * (i + 1) + 1) ||| r (i + 1)) =
        fun i => a (2 * i + 2) ||| a (2 * i + 1 + 2) ||| r (i + 1) := by
      funext i
      rw [show 2 * (i + 1) = 2 * i + 2 by omega, show 2 * i + 2 + 1 = 2 * i + 1 + 2 by omega]
    rw [unionFlags, hfun, hshift, show 2 * (h + 1) = 2 * h + 1 + 1 by omega]
    simp only [unionFlags, Nat.mul_zero, Nat.zero_add]
    ac_rfl

/-- A level of 2h values: its h nodes, their flags, and the number of the next level's first node. -/
theorem redLevel_range (fn : VRedFn) (f : Fmt) (env : Nat → RoundEnv) (h c : Nat) (g : Nat → FVal) :
    redLevel fn f env c ((List.range (2 * h)).map g) =
      ((List.range h).map fun i => Fmt.unpack f (redNode fn f (env (c + i)) (g (2 * i)) (g (2 * i + 1))).bits,
        unionFlags (fun i => (redNode fn f (env (c + i)) (g (2 * i)) (g (2 * i + 1))).flags) h, c + h) := by
  induction h generalizing c g with
  | zero => rfl
  | succ h ih =>
    have hrange : (List.range (2 * (h + 1))).map g = g 0 :: g 1 :: (List.range (2 * h)).map fun i => g (i + 2) := by
      rw [show 2 * (h + 1) = 2 * h + 1 + 1 by omega, List.range_succ_eq_map, List.map_cons, List.map_map, List.range_succ_eq_map,
        List.map_cons, List.map_map]
      rfl
    have hnum (i : Nat) : c + 1 + i = c + (i + 1) := by omega
    have heven (i : Nat) : 2 * i + 2 = 2 * (i + 1) := by omega
    have hodd (i : Nat) : 2 * i + 1 + 2 = 2 * (i + 1) + 1 := by omega
    rw [hrange, redLevel, ih]
    simp only [hnum, heven, hodd, List.range_succ_eq_map, List.map_cons, List.map_map, unionFlags, Nat.add_zero, Nat.mul_zero,
      Nat.zero_add]
    rfl

/-- The levels of the tree from level l on, over 2^K leaves. -/
theorem redTree_levels (fn : VRedFn) (f : Fmt) (env : Nat → RoundEnv) (leaf : Nat → FVal) (K k l : Nat) (hK : l + k = K) :
    redTree fn f env k (2 ^ K - 2 ^ k)
        ((List.range (2 ^ k)).map fun i => (treeNode (redNode fn f) f env leaf (2 ^ K) l i).1)
        (unionFlags (fun i => (treeNode (redNode fn f) f env leaf (2 ^ K) l i).2) (2 ^ k)) =
      ([(treeNode (redNode fn f) f env leaf (2 ^ K) K 0).1], (treeNode (redNode fn f) f env leaf (2 ^ K) K 0).2) := by
  induction k generalizing l with
  | zero =>
    subst hK
    simp [redTree, unionFlags]
  | succ k ih =>
    have hpow : 2 ^ (k + 1) = 2 * 2 ^ k := pow_succ' 2 k
    have hle : 2 ^ (k + 1) ≤ 2 ^ K := Nat.pow_le_pow_right (by omega) (by omega)
    have hdiv : 2 ^ K / 2 ^ l = 2 ^ (k + 1) := by
      rw [Nat.pow_div (by omega) (by omega)]
      congr 1
      omega
    have hnext : 2 ^ K - 2 ^ (k + 1) + 2 ^ k = 2 ^ K - 2 ^ k := by omega
    have hnode (i : Nat) : treeNode (redNode fn f) f env leaf (2 ^ K) (l + 1) i =
        (Fmt.unpack f (redNode fn f (env (2 ^ K - 2 ^ (k + 1) + i)) (treeNode (redNode fn f) f env leaf (2 ^ K) l (2 * i)).1
            (treeNode (redNode fn f) f env leaf (2 ^ K) l (2 * i + 1)).1).bits,
          (treeNode (redNode fn f) f env leaf (2 ^ K) l (2 * i)).2 ||| (treeNode (redNode fn f) f env leaf (2 ^ K) l (2 * i + 1)).2 |||
            (redNode fn f (env (2 ^ K - 2 ^ (k + 1) + i)) (treeNode (redNode fn f) f env leaf (2 ^ K) l (2 * i)).1
              (treeNode (redNode fn f) f env leaf (2 ^ K) l (2 * i + 1)).1).flags) := by
      rw [treeNode, hdiv]
    have hih := ih (l + 1) (by omega)
    simp only [hnode] at hih
    rw [unionFlags_pairs (fun i => (treeNode (redNode fn f) f env leaf (2 ^ K) l i).2)
      fun i => (redNode fn f (env (2 ^ K - 2 ^ (k + 1) + i)) (treeNode (redNode fn f) f env leaf (2 ^ K) l (2 * i)).1
        (treeNode (redNode fn f) f env leaf (2 ^ K) l (2 * i + 1)).1).flags] at hih
    rw [redTree]
    conv_lhs => rw [hpow, redLevel_range, ← hpow]
    dsimp only
    rw [hnext, hpow]
    rw [hpow] at hih
    exact hih

/-- Leaves that the nodes do not tell apart give the same nodes. -/
theorem treeNode_congr {node : RoundEnv → FVal → FVal → Rounded} {leaf leaf' : Nat → FVal}
    (h : ∀ e i j, node e (leaf i) (leaf j) = node e (leaf' i) (leaf' j)) (f : Fmt) (env : Nat → RoundEnv) (n l i : Nat) :
    treeNode node f env leaf n (l + 1) i = treeNode node f env leaf' n (l + 1) i := by
  induction l generalizing i with
  | zero => simp only [treeNode, h]
  | succ l ih => rw [treeNode, ih, ih, ← treeNode]

theorem unpack_neutralLeaf (t : FTy) (fn : VRedFn) : Fmt.unpack (FTy.fmt t) (neutralLeaf fn (FTy.fmt t)) =
    match fn with
      | .add => .fin true 0 (Fmt.qmin (FTy.fmt t))
      | .min => .inf false
      | .max => .inf true := by
  cases t <;> cases fn <;> decide

/-- The value of a leaf that is masked off (R160). -/
def neutral (fn : VRedFn) : FVal :=
  match fn with
  | .add => .fin true 0 0
  | .min => .inf false
  | .max => .inf true

/-- The nodes do not tell a masked leaf as it is encoded from its value. -/
theorem redNode_neutral (fn : VRedFn) (t : FTy) (e : RoundEnv) (p q : Bool) (x y : FVal) :
    redNode fn (FTy.fmt t) e (if p then x else Fmt.unpack (FTy.fmt t) (neutralLeaf fn (FTy.fmt t)))
        (if q then y else Fmt.unpack (FTy.fmt t) (neutralLeaf fn (FTy.fmt t))) =
      redNode fn (FTy.fmt t) e (if p then x else neutral fn) (if q then y else neutral fn) := by
  rw [unpack_neutralLeaf]
  cases fn
  case add =>
    have hleft (v : FVal) := addRounded_zero_left (FTy.fmt t) e true (Fmt.qmin (FTy.fmt t)) v
    have hright (v : FVal) : addRounded (FTy.fmt t) e v (.fin true 0 (Fmt.qmin (FTy.fmt t))) =
        addRounded (FTy.fmt t) e v (.fin true 0 0) := by
      rw [addRounded_comm, hleft, addRounded_comm]
    cases p <;> cases q <;> simp only [redNode, neutral, Bool.false_eq_true, if_false, if_true, hleft, hright]
  case min => rfl
  case max => rfl

theorem lanes_two_pow (t : FTy) : ∃ K, 512 / Fmt.width (FTy.fmt t) = 2 ^ (K + 1 + 1) := by
  cases t
  · exact ⟨3, rfl⟩
  · exact ⟨3, rfl⟩
  · exact ⟨2, rfl⟩
  · exact ⟨1, rfl⟩

theorem redTree_eq (fn : VRedFn) (f : Fmt) (env : Nat → RoundEnv) (leaf : Nat → FVal) (K : Nat) :
    redTree fn f env K 0 ((List.range (2 ^ K)).map leaf) 0 =
      ([(treeNode (redNode fn f) f env leaf (2 ^ K) K 0).1], (treeNode (redNode fn f) f env leaf (2 ^ K) K 0).2) := by
  have h := redTree_levels fn f env leaf K K 0 (Nat.zero_add K)
  rw [Nat.sub_self] at h
  simp only [treeNode, unionFlags_zero] at h
  exact h

/-- The root of a tree of 2^(K + 1) leaves: its last node is rounding number 2^(K + 1) − 2. -/
theorem treeNode_root (node : RoundEnv → FVal → FVal → Rounded) (f : Fmt) (env : Nat → RoundEnv) (leaf : Nat → FVal) (K : Nat) :
    treeNode node f env leaf (2 ^ (K + 1)) (K + 1) 0 =
      (Fmt.unpack f (node (env (2 ^ (K + 1) - 2)) (treeNode node f env leaf (2 ^ (K + 1)) K 0).1
          (treeNode node f env leaf (2 ^ (K + 1)) K 1).1).bits,
        (treeNode node f env leaf (2 ^ (K + 1)) K 0).2 ||| (treeNode node f env leaf (2 ^ (K + 1)) K 1).2 |||
          (node (env (2 ^ (K + 1) - 2)) (treeNode node f env leaf (2 ^ (K + 1)) K 0).1
            (treeNode node f env leaf (2 ^ (K + 1)) K 1).1).flags) := by
  have hdiv : 2 ^ (K + 1) / 2 ^ K = 2 := by rw [pow_succ, Nat.mul_div_cancel_left _ (Nat.two_pow_pos K)]
  rw [treeNode, hdiv]
  rfl

/-- VRED leaves the rounded root of its tree in element 0. -/
theorem vred_completes (t : FTy) (d a : BitVec 5) (fn : VRedFn) (p : BitVec 3) (rm : Rm) (s : State) :
    let f := FTy.fmt t
    let w := Fmt.width f
    let n := 512 / w
    let leaf (j : Nat) : FVal := if governs (s.thr.rp p) w j then s.thr.element f a j else neutral fn
    let half (i : Nat) := treeNode (redNode fn f) f (s.thr.roundEnv rm false) leaf n (Nat.log2 n - 1) i
    let r := redNode fn f (s.thr.roundEnv rm false (n - 2)) (half 0).1 (half 1).1
    ∃ x : VWord, completes (.vred t d a fn p rm) s
        (fun u => ((u.wv d x).raise ((half 0).2 ||| (half 1).2 ||| r.flags)).counted rm (n - 1)) ∧
      ∀ j, j < n → lane w x j = if j = 0 then BitVec.ofNat w r.bits else lane w (s.thr.rv d) j := by
  intro f w n leaf half r
  obtain ⟨K, hK⟩ := lanes_two_pow t
  have hlog : Nat.log2 (512 / Fmt.width (FTy.fmt t)) = K + 1 + 1 := by rw [hK, Nat.log2_two_pow]
  have hleaf (i : Nat) : treeNode (redNode fn f) f (s.thr.roundEnv rm false)
      (fun j => if govBit (s.thr.rp p) w j then s.thr.fElem f a j else Fmt.unpack f (neutralLeaf fn f)) n (K + 1) i = half i := by
    have hcongr := treeNode_congr (node := redNode fn f) (fun e i j => redNode_neutral fn t e (governs (s.thr.rp p) w i)
      (governs (s.thr.rp p) w j) (s.thr.element f a i) (s.thr.element f a j)) f (s.thr.roundEnv rm false) n K i
    simp only [govBit_eq_governs _ _ (elementWidth_fmt (FTy.fmt t)), fElem_eq_element, f, w] at hcongr ⊢
    simp only [hcongr, half, n, w, f, hlog, leaf, Nat.add_sub_cancel]
  have hroot := treeNode_root (redNode fn f) f (s.thr.roundEnv rm false)
    (fun j => if govBit (s.thr.rp p) w j then s.thr.fElem f a j else Fmt.unpack f (neutralLeaf fn f)) (K + 1)
  rw [← hK, show 512 / Fmt.width (FTy.fmt t) = n from rfl] at hroot
  have htree : redTree fn f (fun k => s.thr.env rm false k) (Nat.log2 n) 0 ((List.range n).map fun j =>
      if govBit (s.thr.rp p) w j then s.thr.fElem f a j else Fmt.unpack f (neutralLeaf fn f)) 0 =
      ([Fmt.unpack f r.bits], (half 0).2 ||| (half 1).2 ||| r.flags) := by
    have hn : n = 2 ^ (K + 1 + 1) := hK
    have htree := redTree_eq fn f (s.thr.roundEnv rm false)
      (fun j => if govBit (s.thr.rp p) w j then s.thr.fElem f a j else Fmt.unpack f (neutralLeaf fn f)) (K + 1 + 1)
    rw [← hn] at htree
    rw [hroot] at htree
    simp only [hleaf] at htree
    simp only [env_eq_roundEnv]
    rw [show Nat.log2 n = K + 1 + 1 from hlog]
    exact htree
  have hbits : repack f (Fmt.unpack f r.bits) = r.bits := repack_unpack_of_canonical (canonical_redNode fn t _ _ _)
  refine ⟨setElem (s.thr.rv d) w 0 r.bits, ?_, fun j hj => ?_⟩
  · rw [completes, exec, execVred]
    refine congrArg _ (onThr_congr ?_)
    dsimp only
    rw [htree]
    dsimp only [List.headD_cons]
    rw [hbits]
    rfl
  · rw [lane_setElem _ _ _ _ _ (lane_fits _ _ _ hj (mul_elements (elementWidth_fmt _)))]
    simp only [eq_comm (b := j)]

/-! ## Dot products (R76, R161) -/

/-- The exact sum of the products of signed bytes, in the 32 bits of its lane. -/
theorem narrow_dotInt (x : BitVec 32) (p q : Nat → BitVec 8) :
    BitVec.ofNat 32 (narrow 32 ((x.toNat : Int) + dotInt (fun k => signedOf 8 (p k).toNat) (fun k => signedOf 8 (q k).toNat) 4)) =
      x + (p 0).signExtend 32 * (q 0).signExtend 32 + (p 1).signExtend 32 * (q 1).signExtend 32 +
        (p 2).signExtend 32 * (q 2).signExtend 32 + (p 3).signExtend 32 * (q 3).signExtend 32 := by
  have hmul (k : Nat) : (p k).signExtend 32 * (q k).signExtend 32 = BitVec.ofInt 32 ((p k).toInt * (q k).toInt) := by
    rw [BitVec.ofInt_mul]
    rfl
  simp only [narrow_toNat, BitVec.ofNat_toNat, BitVec.setWidth_eq, dotInt, signedOf_toInt 8 (by omega), hmul, BitVec.ofInt_add,
    BitVec.ofInt_natCast, BitVec.add_assoc, BitVec.zero_add, Int.zero_add]

/-- Settles O34: the reduction by its tree, the dot products lane by lane. -/
theorem vectorReductionAndDot : Obligations.VectorReductionAndDot := by
  unfold Obligations.VectorReductionAndDot
  refine ⟨fun t d a fn p rm s => ?_, fun d a b p rm s => ?_, fun t d a b p rm s ht => ?_⟩
  · cases fn
    · exact vred_completes t d a .add p rm s
    · exact vred_completes t d a .min p rm s
    · exact vred_completes t d a .max p rm s
  · refine fVector_lanesComplete rfl (fun j => ?_) fun j => rfl
    simp only [elem_eq_lane]
    exact narrow_dotInt _ (fun k => lane 8 (s.thr.rv a) (4 * j + k)) fun k => lane 8 (s.thr.rv b) (4 * j + k)
  · have hexec : exec (.vdot t d a b p rm) s = .next (s.fVector d (s.thr.rp p) 32 32 16 rm 16 fun u i =>
        accumulate (u.env rm false i) (u.fElem .fp32 d i)
          (dotSum (fun j => u.fElem (DotTy.fmt t) a (32 / Fmt.width (DotTy.fmt t) * i + j))
            (fun j => u.fElem (DotTy.fmt t) b (32 / Fmt.width (DotTy.fmt t) * i + j)) (32 / Fmt.width (DotTy.fmt t)))) := by
      cases t
      case int8 => exact absurd rfl ht
      all_goals rfl
    refine fVector_completes (elementWidth_fmt .fp32) (elementWidth_fmt .fp32) hexec fun j => ?_
    simp only [env_eq_roundEnv, fElem_eq_element]

/-! ## Packing, scaling and draws (R162 to R164) -/

theorem scaled_eq (env : RoundEnv) (x : FVal) (bits : Nat) (hb : bits < 2 ^ 32) : scaled env x (bs24Val (bits / 256)) =
    match Fmt.unpack .fp32 (bits / 256 * 256) with
      | .fin n m e => mulRounded .fp32 env x (.fin n m e)
      | _ => ⟨0x7FC00000, flagNV⟩ := by
  have hmod : bits / 256 % 2 ^ 24 = bits / 256 := Nat.mod_eq_of_lt (by omega)
  rw [bs24Val, hmod]
  cases Fmt.unpack .fp32 (bits / 256 * 256) <;> rfl

theorem canonical_lt_width {t : FTy} {bits : Nat} (h : Canonical (FTy.fmt t) bits) : bits < 2 ^ Fmt.width (FTy.fmt t) := by
  rcases h with ⟨neg, mag, rfl, hmag⟩ | rfl
  · exact magnitude_lt_width t neg hmag
  · cases t <;> decide

/-- What LODE makes of a draw, as 32 bits. -/
def lodeWord (fn : LodeFn) (x : BitVec 32) : BitVec 32 :=
  match fn with
  | .raw => x
  | .u24 => x >>> 8
  | .f32 => BitVec.ofNat 32 (roundTo .fp32 ⟨.rne, ⟨false, false, false⟩, false, 0⟩ (.fin false (x.toNat / 256) (-24))).bits

theorem lodeShape_eq (fn : LodeFn) (x : BitVec 32) : lodeShape fn x = (lodeWord fn x).toNat := by
  cases fn
  case raw => rfl
  case u24 => rw [lodeShape, lodeWord, BitVec.toNat_ushiftRight, Nat.shiftRight_eq_div_pow]
  case f32 =>
    have hlt := canonical_lt_width
      (canonical_roundFinite .f32 ⟨.rne, ⟨false, false, false⟩, false, 0⟩ false (x.toNat / 256) (-24))
    rw [lodeShape, lodeWord, BitVec.toNat_ofNat]
    exact (Nat.mod_eq_of_lt hlt).symm

theorem ofNat_lodeShape (fn : LodeFn) (x : BitVec 32) : BitVec.ofNat 64 (lodeShape fn x) = (lodeWord fn x).zeroExtend 64 := by
  rw [lodeShape_eq]
  exact BitVec.eq_of_toNat_eq (by simp)

/-- VPACK leaves its sixteen rounded elements one after the other. -/
theorem vpack_completes (t : Fmt) (d a : BitVec 5) (sat : Bool) (part : BitVec 3) (rm : Rm) (s : State) :
    let w := Fmt.width t
    let r := fun i => roundTo t (s.thr.roundEnv rm sat i) (s.thr.element .fp32 a i)
    completes (.vpack t d a sat part rm) s fun u =>
      ((u.wv d ((List.range 16).foldl (fun x i => setElem x w (16 * part.toNat + i) (r i).bits) (s.thr.rv d))).raise
        (activeFlags 0xFFFF 32 r 16)).counted rm (512 / w) := by
  intro w r
  have hflags : elemFlags 0xFFFF 32 (fun i => (r i).flags) 16 = activeFlags 0xFFFF 32 r 16 :=
    elemFlags_eq_activeFlags 0xFFFF (elementWidth_fmt .fp32) r 16
  rw [completes, exec, execVpack]
  refine congrArg _ (onThr_congr ?_)
  simp only [env_eq_roundEnv, fElem_eq_element]
  rw [← hflags]
  rfl

/-- Settles O35: packing by its sixteen elements, the others as elements or lanes of 32 bits. -/
theorem vectorPackScaleDraw : Obligations.VectorPackScaleDraw := by
  unfold Obligations.VectorPackScaleDraw
  refine ⟨⟨fun t d a sat part rm s => ⟨_, vpack_completes t d a sat part rm s, fun j hj => ?_⟩, fun t d a part s => ?_, fun d a b p rm s => ?_⟩, fun d a b fn s => ?_,
    fun d a b p fn s => ?_, by decide⟩
  · exact lane_foldl_setElem _ _ _ _ _ _ (lane_fits _ _ _ hj (mul_elements (elementWidth_fmt t)))
  · refine fVector_completes (elementWidth_fmt .fp32) (elementWidth_fmt .fp32) rfl fun j => ?_
    simp only [fElem_eq_element]
  · refine fVector_completes (elementWidth_fmt .fp32) (elementWidth_fmt .fp32) rfl fun j => ?_
    simp only [env_eq_roundEnv, fElem_eq_element, elem_eq_lane]
    exact scaled_eq _ _ _ (BitVec.isLt _)
  · simp only [completes, exec, execLode, State.wordOp, ofNat_lodeShape]
    cases fn <;> rfl
  · refine fVector_lanesComplete rfl (fun j => ?_) fun j => rfl
    dsimp only
    rw [lodeShape_eq, BitVec.ofNat_toNat, BitVec.setWidth_eq]
    cases fn <;> rfl

end Sys2Proof.Machine
end

section
/-! Memory of another form (log 1): a byte that the list of memory names twice keeps its second value when zero is written to it.
The statements below speak of every state, also of one whose memory names a byte twice, and so they fail there. -/

namespace Sys2Proof.Machine

open Sys2Proof

set_option Elab.async false

/-! ## A state that lists a byte twice -/

/-- A segment at 0 of 64 KiB with every right. -/
def wholeOf (sp : BitVec 4) : Seg := ⟨0, 0x10000, 0xFF, sp, 0, 0⟩

/-- A running thread whose segments all are one. -/
def runner (sp : BitVec 4) : Thread :=
  { Thread.blank (.crew 1 0 0) with
    view := ⟨1, 0, 0, 0, 0, 0x10000, 0, 0x10000⟩
    status := .ready, unitEnd := .held
    segs := Vector.replicate 8 (wholeOf sp) }

/-- An island of one tile, cluster 0. -/
def oneTile : Island := ⟨1, 5, .rect 0 0 0 1 1, 0x100000, 0, 0, [], [], [], []⟩

/-- A module with that thread and island alone, whose memory names a byte twice: as 1, and as 3 behind it. -/
def twice (sp : BitVec 4) (x : Loc) : State :=
  { State.reset with thr := runner sp, islands := [oneTile], mem := [(x, 1), (x, 3)] }

/-- A place in the scratchpad of core 0. -/
def padRef (off : Nat) : Ref := ⟨wholeOf spCore, off, (runner spCore).view⟩

/-- What an outcome leaves in memory. -/
def bytesLeft (x : Loc) (n : Nat) : Out → Option Nat
  | .next t => some (memRead t.mem x n)
  | .fault _ | .refused _ => none

theorem memRead_of_bytesLeft {o : Out} {t : State} {x n v : Nat} (hexec : o = .next t) (hleft : bytesLeft x n o = some v) :
    memRead t.mem x n = v := by
  subst hexec
  exact Option.some.inj hleft

/-- The value of the barrier that an outcome leaves. -/
def valueLeft (x : Loc) : Out → Option Nat
  | .next t => some (t.barrier x).value
  | .fault _ | .refused _ => none

theorem barrier_value_of_valueLeft {o : Out} {t : State} {x v : Nat} (hexec : o = .next t) (hleft : valueLeft x o = some v) :
    (t.barrier x).value = v := by
  subst hexec
  exact Option.some.inj hleft

/-- Refutes O39: ST.B of zero to a byte of the scratchpad that memory names twice. -/
theorem not_storesComplete : ¬ Obligations.StoresComplete := by
  unfold Obligations.StoresComplete
  intro h
  let x := spadLoc 0 0
  let s := twice spCore x
  obtain ⟨-, hthread⟩ := h (.stB true 0 0 0 0) s 0 0 1 0 (by decide +kernel) (by decide +kernel) (by decide +kernel)
  obtain ⟨t, hexec, -, -, -, hplace⟩ := hthread (by decide +kernel) (by decide +kernel)
  obtain ⟨hpad, -, -⟩ := hplace (by decide +kernel) x (by decide +kernel)
  have hread := hpad (by decide +kernel) (by decide +kernel)
  have hleft : memRead t.mem x 1 = 3 := memRead_of_bytesLeft hexec (by decide +kernel)
  rw [hread] at hleft
  exact absurd hleft (by decide)

/-- Refutes O40: ST.N of zero to the low nibble of a byte of the scratchpad that memory names twice. -/
theorem not_nibbleStoreCompletes : ¬ Obligations.NibbleStoreCompletes := by
  unfold Obligations.NibbleStoreCompletes
  intro h
  let x := spadLoc 0 0
  let s := twice spCore x
  obtain ⟨-, hthread⟩ := h true 0 0 0 0 s (by decide +kernel) (by decide +kernel) x (by decide +kernel)
  obtain ⟨t, hexec, -, -, -, hown⟩ := hthread (by decide +kernel) (by decide +kernel)
  have hbyte := hown (by decide +kernel) (by decide +kernel) (by decide +kernel)
  have hleft : memRead t.mem x 1 = 3 := memRead_of_bytesLeft hexec (by decide +kernel)
  simp only [memRead, hbyte] at hleft
  exact absurd hleft (by decide +kernel)

/-- Lane 0 lies before every other lane of lane memory. -/
theorem laneLoc_lanes_apart {k : Nat} (hk : 0 < k) (hlt : k < 16) : laneLoc 0 0 (512 * k) + 4 ≤ laneLoc 0 0 (512 * 0) ∨ laneLoc 0 0 (512 * 0) + 4 ≤ laneLoc 0 0 (512 * k) := by
  have hmod : 512 * k % 2 ^ 13 = 512 * k := Nat.mod_eq_of_lt (by omega)
  right
  simp only [laneLoc, hmod]
  exact Nat.add_le_add_left (show 4 ≤ 512 * k by omega) (2 ^ 41)

/-- Refutes O38: STV of zero to lane memory, whose first byte memory names twice. -/
theorem not_vectorAccessesComplete : ¬ Obligations.VectorAccessesComplete := by
  unfold Obligations.VectorAccessesComplete
  intro h
  obtain ⟨-, hstore⟩ := h
  let x := laneLoc 0 0 0
  let s := twice spLane x
  obtain ⟨t, hexec, -, -, -, hlanes⟩ := hstore (.stv true 0 0 0 0) s _ rfl (by decide +kernel) (by decide +kernel)
    (by decide +kernel) (by decide +kernel)
  have hread := hlanes (fun j => laneLoc 0 0 (512 * j)) (by decide +kernel) (by decide +kernel) 0 (by decide)
    fun k hk hlt => laneLoc_lanes_apart hk (by simpa using hlt)
  have hleft : memRead t.mem x 4 = 3 := memRead_of_bytesLeft hexec (by decide +kernel)
  exact absurd (hread.symm.trans hleft) (by decide +kernel)

/-- Refutes O41: STS.OVER of zero to a word of the scratchpad whose first byte memory names twice. -/
theorem not_fullEmptyOperations : ¬ Obligations.FullEmptyOperations := by
  unfold Obligations.FullEmptyOperations
  intro h
  obtain ⟨-, hsts, -⟩ := h
  let x := spadLoc 0 0
  let s := twice spCore x
  obtain ⟨-, hgo⟩ := hsts (.stsOver true 0 0 0 false) true false true 0 0 0 s x rfl
  obtain ⟨-, hover, -⟩ := hgo (by decide +kernel) (by decide +kernel) (by decide +kernel) (by decide +kernel) (by decide +kernel)
    (by decide +kernel) (.inr (by decide +kernel))
  obtain ⟨t, hexec, -, -, hdone⟩ := hover (.inl rfl)
  obtain ⟨-, hread⟩ := hdone (by decide +kernel) (by decide +kernel) fun _ _ => rfl
  have hleft : memRead t.mem x 4 = 3 := memRead_of_bytesLeft hexec (by decide +kernel)
  exact absurd (hread.symm.trans hleft) (by decide +kernel)

/-- Refutes O42: TBINIT of a barrier of the scratchpad whose value has a byte that memory names twice. -/
theorem not_barrierOperations : ¬ Obligations.BarrierOperations := by
  unfold Obligations.BarrierOperations
  intro h
  obtain ⟨hcount, -⟩ := h
  let x := spadLoc 0 0
  let s := twice spCore (spadLoc 0 8)
  obtain ⟨t, hexec, -, -, hdone⟩ := hcount true 0 0 0 s x (by decide +kernel) (by decide +kernel) (by decide +kernel)
    (by decide +kernel) (by decide +kernel) (by decide +kernel) (by decide +kernel) _ (List.mem_cons_self ..)
  obtain ⟨hbar, -⟩ := hdone (fun _ _ => rfl) (by decide +kernel)
  have hleft : (t.barrier x).value = 3 := barrier_value_of_valueLeft hexec (by decide +kernel)
  rw [hbar] at hleft
  exact absurd hleft (by decide +kernel)

/-- Refutes O44: ATOM.SWAP with zero at a word of the scratchpad whose first byte memory names twice. -/
theorem not_atomicsComplete : ¬ Obligations.AtomicsComplete := by
  unfold Obligations.AtomicsComplete atomicCompletes State.operatesAt
  intro h
  obtain ⟨hatom, -⟩ := h
  let x := spadLoc 0 0
  let s := twice spCore x
  obtain ⟨hthread, -⟩ := hatom true 2 0 0 0 .swap .word s
  obtain ⟨-, hpad⟩ := hthread x (by decide +kernel) (by decide +kernel) (by decide +kernel)
  obtain ⟨t, hexec, -, -, hread, -⟩ := hpad (by decide +kernel) (by decide +kernel) (by decide +kernel)
  have hleft : memRead t.mem x 4 = 3 := memRead_of_bytesLeft hexec (by decide +kernel)
  exact absurd (hread.symm.trans hleft) (by decide +kernel)

/-- Refutes O48: COPY_COMPLETION of a granule of zeroes to a word of the scratchpad whose first byte memory names twice. -/
theorem not_copiesComplete : ¬ Obligations.CopiesComplete := by
  unfold Obligations.CopiesComplete
  intro h
  obtain ⟨-, hcopy, -⟩ := h
  let x := spadLoc 0 0
  let c : CopyJob := ⟨1, .crew 1 0 0, padRef 0x100, padRef 0, 16, 0, false, false, 0, false, padRef 0x200⟩
  let s : State := { twice spCore x with copies := [c] }
  obtain ⟨hmiddle, -⟩ := hcopy s c (spadLoc 0 0x100) x (by decide +kernel) (by decide +kernel) (by decide +kernel) (by decide +kernel)
    (by decide +kernel) (by decide +kernel) (by decide +kernel) (by decide +kernel) (by decide +kernel) (by decide +kernel)
    (by decide +kernel) (by decide +kernel) (by decide +kernel) (by decide +kernel) (by decide +kernel) (by decide +kernel)
    (by decide)
  obtain ⟨t, hexec, -, -, hread, -⟩ := hmiddle (by decide)
  have hleft : memRead t.mem x 8 = 3 := memRead_of_bytesLeft hexec (by decide +kernel)
  exact absurd (hread.symm.trans hleft) (by decide +kernel)

/-- Refutes O51: MLD_COMPLETION of a word of zeroes to a word of tile 3 whose first byte memory names twice. -/
theorem not_matrixEngineMoves : ¬ Obligations.MatrixEngineMoves := by
  unfold Obligations.MatrixEngineMoves Ref.oneLine
  intro h
  let x := tileLoc 0 3 0
  let o : MatrixOp := .load 1 3 (.crew 1 0 0) (padRef 0x100) (padRef 0x200) 0
  let s : State := { twice spCore x with matrix := [⟨0, [], [o], 0, [], [], [], 0, false, false⟩] }
  obtain ⟨-, -, -, hload, -⟩ := h s 0
  obtain ⟨hword, -⟩ := hload 1 3 0 (.crew 1 0 0) (padRef 0x100) (padRef 0x200) (spadLoc 0 0x100) 0 (by decide +kernel)
    (by decide +kernel) (by decide +kernel)
  obtain ⟨hmiddle, -⟩ := hword (by decide) (by decide +kernel) (by decide +kernel) (by decide +kernel) (by decide +kernel)
  obtain ⟨t, hexec, -, -, hread, -⟩ := hmiddle (by decide)
  have hleft : memRead t.mem x 4 = 3 := memRead_of_bytesLeft hexec (by decide +kernel)
  exact absurd (hread.symm.trans hleft) (by decide +kernel)

/-- The first bytes of the scratchpad of core 0 are well where no core is listed. -/
theorem padHealth_of_cores {s : State} (hs : s.cores = []) {y : Loc} (hlo : spadLoc 0 0 ≤ y) (hhi : y < spadLoc 0 0 + 48) : s.padHealth y = .ok := by
  have hy : spadLoc 0 0 ≤ y ∧ y < laneLoc 0 0 0 := ⟨hlo, hhi.trans (by decide)⟩
  simp only [State.padHealth, hy, and_self, if_true, State.core, hs, List.find?_nil, Option.getD_none, CoreSt.fresh]

/-- Refutes O52: the reply of status 0 to a slot of the scratchpad whose header's status byte memory names twice. -/
theorem not_callsAndHandlers : ¬ Obligations.CallsAndHandlers := by
  unfold Obligations.CallsAndHandlers
  intro h
  obtain ⟨-, -, -, -, -, hreply, -⟩ := h
  let x := spadLoc 0 0
  let c : Call := ⟨3, 0, 0, x, (1, 0), 1, wholeOf spInter, 0, (runner spCore).view, 0, 8, none, [], 0, false, none, none, .replying,
    true, some (0, 0, [])⟩
  let s : State := { twice spCore x with calls := [c] }
  obtain ⟨t, hexec, -, -, -, hdone⟩ := hreply s c 0 [] (by decide +kernel) (by decide +kernel) (by decide +kernel)
    (by decide +kernel) (by decide +kernel) (by decide +kernel) (by decide +kernel)
  have hfilled := hdone (by decide +kernel) (by decide +kernel) (fun y hlo hhi => padHealth_of_cores (s := s) rfl hlo hhi)
  obtain ⟨-, hread, -⟩ := hfilled
  have hleft : memRead t.mem x 1 = 3 := memRead_of_bytesLeft hexec (by decide +kernel)
  exact absurd (hread.symm.trans hleft) (by decide +kernel)

/-- Refutes O53: the arrival of a THAW with value 0 at a barrier of the scratchpad whose value has a byte that memory names
twice. -/
theorem not_freezesComplete : ¬ Obligations.FreezesComplete := by
  unfold Obligations.FreezesComplete State.barrierAt
  intro h
  obtain ⟨-, -, -, harrival, -⟩ := h
  let x := spadLoc 0 0
  let j : ThawJob := ⟨2, 1, [], none, [], 0, some (padRef 0), none⟩
  let s : State := { twice spCore (spadLoc 0 8) with thaws := [j] }
  obtain ⟨t, hexec, -, -, -, hvalue, -⟩ := harrival s j (padRef 0) x (by decide +kernel) rfl (by decide +kernel)
    ⟨by decide +kernel, by decide +kernel, by decide +kernel, fun _ _ => rfl⟩ (by simp [j]) (by decide)
  have hleft : (t.barrier x).value = 3 := barrier_value_of_valueLeft hexec (by decide +kernel)
  rw [hvalue] at hleft
  exact absurd hleft (by decide +kernel)

end Sys2Proof.Machine
end

section
/-! Memory of another form (log 1), in engines, fields and host commands: the same counterexample as for stores. -/

namespace Sys2Proof.Machine

open Sys2Proof

set_option Elab.async false

/-- Refutes O54: the arrival of a row operation of no rows at a barrier of the scratchpad whose value has a byte that memory
names twice. -/
theorem not_rowOperationsComplete : ¬ Obligations.RowOperationsComplete := by
  unfold Obligations.RowOperationsComplete State.barrierAt
  intro h
  obtain ⟨-, hperform⟩ := h
  let x := spadLoc 0 0
  let j : RowJob := ⟨2, .crew 1 0 0, 0, 0, 0, ⟨wholeOf spBank, 0, (runner spBank).view⟩, [], 0, padRef 0⟩
  let s : State := { twice spCore (spadLoc 0 8) with rowJobs := [j] }
  obtain ⟨-, hend⟩ := hperform s j (fun _ => 0) x 0 (by decide +kernel) (by decide +kernel)
  obtain ⟨t, hexec, -, -, ⟨hvalue, -⟩, -⟩ := hend (by decide) (by decide)
    ⟨by decide +kernel, by decide +kernel, by decide +kernel, fun _ _ => rfl⟩
  have hleft : (t.barrier x).value = 3 := barrier_value_of_valueLeft hexec (by decide +kernel)
  rw [hvalue] at hleft
  exact absurd hleft (by decide +kernel)

/-- A stopped field of one bank group, its slab at the bottom of memory, with sites of one bit. -/
def stoppedField : Field :=
  ⟨1, 1, 2 ^ 448, (runner spCore).view, [0], 0, 0x8000, 1, ⟨padRef 0, []⟩, none, none, none, none, .stopped, 0, 0, false, 0, [], [], [],
    [], none, [], none, none, [], []⟩

/-- Refutes O56: the arrival of a snapshot with value 0 at a barrier of the scratchpad whose value has a byte that memory names
twice. -/
theorem not_fieldControl : ¬ Obligations.FieldControl := by
  unfold Obligations.FieldControl State.barrierAt
  intro h
  obtain ⟨-, -, -, harrival⟩ := h
  let x := spadLoc 0 0
  let f : Field := { stoppedField with due := [(0, false, padRef 0)] }
  let s : State := { twice spCore (spadLoc 0 8) with fields := [f] }
  obtain ⟨-, hdue⟩ := harrival s f (by decide +kernel) (by decide +kernel)
  obtain ⟨t, hexec, -, -, ⟨hvalue, -⟩, -⟩ := hdue 0 false (padRef 0) x rfl (by decide) rfl (by decide +kernel)
    ⟨by decide +kernel, by decide +kernel, by decide +kernel, fun _ _ => rfl⟩
  have hleft : (t.barrier x).value = 3 := barrier_value_of_valueLeft hexec (by decide +kernel)
  rw [hvalue] at hleft
  exact absurd hleft (by decide +kernel)

/-- Refutes O57: a site of one bit takes the value 0 in a byte that memory names twice. -/
theorem not_fieldSweeps : ¬ Obligations.FieldSweeps := by
  unfold Obligations.FieldSweeps
  intro h
  obtain ⟨-, hwrite, -⟩ := h
  obtain ⟨hsite, -⟩ := hwrite (twice spCore 0) stoppedField 0 0 (by decide +kernel) (by decide +kernel)
  exact absurd hsite (by decide +kernel)

/-- Refutes O58: PAGE_SERVED writes zero to a page-table word whose first byte memory names twice. -/
theorem not_eventsAroundThreads : ¬ Obligations.EventsAroundThreads := by
  unfold Obligations.EventsAroundThreads
  intro h
  obtain ⟨-, -, -, -, -, -, -, -, hserved, -⟩ := h
  let s := twice spCore 0
  obtain ⟨t, hexec, -, -, hread, -⟩ := hserved s 1 0 0 0 (by decide +kernel) (by decide) (by decide +kernel) (by decide +kernel)
  have hleft : memRead t.mem 0 8 = 3 := memRead_of_bytesLeft hexec (by decide +kernel)
  exact absurd (hread.symm.trans hleft) (by decide +kernel)

/-- Refutes O60: the arrival of value 0 of a copy whose far message got no answer, at a barrier of the scratchpad whose value
has a byte that memory names twice. -/
theorem not_preemptionAndDevice : ¬ Obligations.PreemptionAndDevice := by
  unfold Obligations.PreemptionAndDevice State.barrierAt
  intro h
  obtain ⟨-, -, -, -, htimeout⟩ := h
  let x := spadLoc 0 0
  let c : CopyJob := ⟨2, .crew 1 0 0, padRef 0, padRef 0, 16, 0, false, false, 0, false, padRef 0⟩
  let m : FarMsg := ⟨0, 1, .crew 1 0 0, none, 0, 0, 3, some 2, 1, 3, [], 64, 0⟩
  let s : State := { twice spCore (spadLoc 0 8) with copies := [c], farOut := [m] }
  obtain ⟨-, -, hcopy⟩ := htimeout s m (by decide +kernel) (by decide +kernel)
  obtain ⟨t, hexec, -, -, -, ⟨hvalue, -⟩, -⟩ := hcopy 2 c x rfl rfl (by decide +kernel) (by decide +kernel)
    ⟨by decide +kernel, by decide +kernel, by decide +kernel, fun _ _ => rfl⟩ (by decide)
  have hleft : (t.barrier x).value = 3 := barrier_value_of_valueLeft hexec (by decide +kernel)
  rw [hvalue] at hleft
  exact absurd hleft (by decide +kernel)

/-- The first command of connection 1, which writes one byte to island 1. -/
def firstPut : CmdHeader := ⟨1, 1, 1, 0, 1⟩

/-- A module whose resident service runs, with that connection; its page tables map the addresses below 2^40 to memory, and
memory names the byte at 0x800 twice. -/
def served : State :=
  { twice spInter 0x800 with
    mem := [(0x800, 1), (0x800, 3), (0x100000, 31), (0x104000, 1), (0x104002, 0x11), (0x110000, 1), (0x110002, 0x12), (0x120000, 31)]
    frames := [⟨0, 5, 0, false⟩, ⟨16, 5, 0, false⟩, ⟨17, 5, 0, false⟩, ⟨18, 5, 0, false⟩]
    dies := Vector.replicate 4 { StackSt.reset with boot := .running true }
    conns := [⟨1, [1], 1, [], false, 0⟩] }

theorem served_accepts : served.accepts firstPut [1] := by
  unfold State.accepts
  exact ⟨by decide +kernel, ⟨1, [1], 1, [], false, 0⟩, by decide +kernel, rfl, rfl, by decide +kernel⟩

/-- Refutes O59: PUT of a zero to a byte that memory names twice. -/
theorem not_hostCommands : ¬ Obligations.HostCommands := by
  unfold Obligations.HostCommands State.hostAt
  intro h
  obtain ⟨-, -, -, -, hisland⟩ := h
  obtain ⟨-, -, hput, -⟩ := hisland served firstPut oneTile served_accepts (by decide +kernel)
  obtain ⟨hwrite, -⟩ := hput 0x800 0x800 [0] ⟨by decide, by decide, by decide +kernel, by decide +kernel⟩ (by decide +kernel)
    (by decide +kernel) (by decide +kernel)
  obtain ⟨t, hexec, -, -, -, hbytes⟩ := hwrite (by decide +kernel) (by decide +kernel)
  have hbyte := hbytes 0 (by decide)
  have hleft : memRead t.mem 0x800 1 = 3 := memRead_of_bytesLeft hexec (by decide +kernel)
  simp only [memRead, hbyte] at hleft
  exact absurd hleft (by decide)

end Sys2Proof.Machine
end

section
/-! Threads that end: a store at the port whose window line a buffer entry of another line holds goes into that entry, and drains
to bytes that no part of the state names for it. -/

namespace Sys2Proof.Machine

open Sys2Proof

set_option Elab.async false

/-- A store of one byte at the port of core 0, of thread 1 of the crew. -/
def portByte (x v : Nat) (sync : Bool) : PortStore := ⟨.crew 1 0 1, 0, 0, 0, x, x, 1, v, 0, sync, false⟩

/-- Two threads of one crew on core 0, the second with two stores at the port: the first goes to the window line 0 of a buffer
entry that holds line 1, the second drains the entry. -/
def misfiled : State :=
  { State.reset with
    thr := { runner spCore with nthr := 2 }
    others := [{ runner spCore with key := .crew 1 0 1, view := { (runner spCore).view with slot := 1 } }]
    islands := [oneTile]
    cores := [⟨0, [], [⟨0, 1, 0, 0, []⟩], [portByte 0 5 false, portByte 0x400 0 true], 1, 1, .ok⟩] }

/-- Refutes O45: TKILL.THREAD of one of two threads lets the stores of the other leave the port, and the byte 0x80 changes,
which is dirty nowhere, buffered nowhere and in the reach of no store. -/
theorem not_threadsEndAndMeet : ¬ Obligations.ThreadsEndAndMeet := by
  unfold Obligations.ThreadsEndAndMeet
  intro h
  obtain ⟨-, -, hkill, -⟩ := h
  obtain ⟨-, hends⟩ := hkill true 0 misfiled
  obtain ⟨t, hexec, -, -, -, hkeeps⟩ := hends (by decide +kernel)
  have hbyte := hkeeps ⟨_, List.mem_cons_self .., by decide +kernel, by decide +kernel, by decide +kernel⟩ 0x80 (by decide +kernel)
    (fun _ hr => absurd hr List.not_mem_nil)
  have hleft : memRead t.mem 0x80 1 = 5 := memRead_of_bytesLeft hexec (by decide +kernel)
  simp only [memRead, hbyte] at hleft
  exact absurd hleft (by decide +kernel)

end Sys2Proof.Machine
end

section
/-! Plain loads and stores (spec/05, R116, R119, R120): the one access that each of them makes, and the order of its checks. -/

namespace Sys2Proof.Machine

open Sys2Proof

set_option Elab.async false

/-! ## The access of a plain load or store -/

/-- The offset of a CM word is the sum of its register and its scaled displacement in 64 bits (R44). -/
theorem State.cmOffset_eq_immOff (s : State) (a : BitVec 6) (imm : BitVec 5) (n : Nat) : s.cmOffset a imm n = s.thr.immOff a imm n := by
  unfold State.cmOffset Thread.immOff State.rg BitVec.signExtend
  rw [BitVec.ofInt_add, BitVec.ofInt_mul, BitVec.mul_comm, BitVec.ofInt_natCast, BitVec.ofInt_natCast, BitVec.ofNat_toNat,
    BitVec.setWidth_eq]

theorem State.rg_mod_eq_low (s : State) (d : BitVec 6) {n w : Nat} (hw : 256 ^ n = 2 ^ w) : (s.rg d).toNat % 256 ^ n = (s.thr.low w d).toNat := by
  rw [hw, Thread.low, BitVec.truncate_eq_setWidth, BitVec.toNat_setWidth]
  rfl

/-- A signed load extends the bytes read, whichever way it is written. -/
theorem loadConv_eq_signedG {w v : Nat} (hw : w = 8 ∨ w = 16 ∨ w = 32) (hv : v < 2 ^ w) : loadConv w v = signedG w v := by
  have hint : (BitVec.ofNat w v).toInt = if v < 2 ^ (w - 1) then (v : Int) else (v : Int) - 2 ^ w := by
    rw [BitVec.toInt_eq_toNat_cond, BitVec.toNat_ofNat, Nat.mod_eq_of_lt hv]
    rcases hw with rfl | rfl | rfl <;> split <;> split <;> omega
  rw [loadConv, if_neg (by omega), signedG, BitVec.signExtend, hint]
  rfl

/-- A load of one access is `load` of that access (R119). -/
theorem exec_of_loadForm {i : Instr} {s : State} {f : LoadForm} (h : s.thr.loadForm i = some f) :
    ∃ sx, exec i s = .next (s.load f.sg f.off f.n f.d f.la sx) ∧ 0 < f.n ∧ ∀ v, v < 256 ^ f.n → loadConv sx v = f.conv v := by
  have hplain : ∀ v, loadConv 0 v = BitVec.ofNat 512 v := fun _ => rfl
  cases i <;> simp only [Thread.loadForm, Option.some.injEq, reduceCtorEq] at h
  case ldB => subst h; exact ⟨0, by rw [← s.cmOffset_eq_immOff]; rfl, Nat.succ_pos _, fun v _ => hplain v⟩
  case ldH => subst h; exact ⟨0, by rw [← s.cmOffset_eq_immOff]; rfl, Nat.succ_pos _, fun v _ => hplain v⟩
  case ldW => subst h; exact ⟨0, by rw [← s.cmOffset_eq_immOff]; rfl, Nat.succ_pos _, fun v _ => hplain v⟩
  case ldD => subst h; exact ⟨0, by rw [← s.cmOffset_eq_immOff]; rfl, Nat.succ_pos _, fun v _ => hplain v⟩
  case ldSB => subst h; exact ⟨8, by rw [← s.cmOffset_eq_immOff]; rfl, Nat.succ_pos _, fun v hv => loadConv_eq_signedG (.inl rfl) hv⟩
  case ldSH => subst h; exact ⟨16, by rw [← s.cmOffset_eq_immOff]; rfl, Nat.succ_pos _, fun v hv => loadConv_eq_signedG (.inr (.inl rfl)) hv⟩
  case ldSW => subst h; exact ⟨32, by rw [← s.cmOffset_eq_immOff]; rfl, Nat.succ_pos _, fun v hv => loadConv_eq_signedG (.inr (.inr rfl)) hv⟩
  case ldv u la sg d a imm =>
    split at h
    · exact absurd h (by simp)
    · next hspace =>
      simp only [Option.some.injEq] at h
      subst h
      refine ⟨0, ?_, Nat.succ_pos _, fun v _ => hplain v⟩
      rw [← s.cmOffset_eq_immOff]
      exact congrArg Host.Outcome.next (if_neg hspace)

/-- A store of one access is `store` of that access (R120). -/
theorem exec_of_storeForm {i : Instr} {s : State} {sg : BitVec 3} {off : Word} {n v : Nat}
    (h : s.thr.storeForm i = some (sg, off, n, v)) : exec i s = .next (s.store sg off n v) ∧ 0 < n := by
  cases i <;> simp only [Thread.storeForm, Option.some.injEq, Prod.mk.injEq, reduceCtorEq] at h
  case stB => obtain ⟨rfl, rfl, rfl, rfl⟩ := h; rw [← s.cmOffset_eq_immOff, ← s.rg_mod_eq_low _ (n := 1) rfl]; exact ⟨rfl, by decide⟩
  case stH => obtain ⟨rfl, rfl, rfl, rfl⟩ := h; rw [← s.cmOffset_eq_immOff, ← s.rg_mod_eq_low _ (n := 2) rfl]; exact ⟨rfl, by decide⟩
  case stW => obtain ⟨rfl, rfl, rfl, rfl⟩ := h; rw [← s.cmOffset_eq_immOff, ← s.rg_mod_eq_low _ (n := 4) rfl]; exact ⟨rfl, by decide⟩
  case stD => obtain ⟨rfl, rfl, rfl, rfl⟩ := h; rw [← s.cmOffset_eq_immOff, ← s.rg_mod_eq_low _ (n := 8) rfl]; exact ⟨rfl, by decide⟩
  case stv u sg d a imm =>
    split at h
    · exact absurd h (by simp)
    · next hspace =>
      simp only [Option.some.injEq, Prod.mk.injEq] at h
      obtain ⟨rfl, rfl, rfl, rfl⟩ := h
      rw [← s.cmOffset_eq_immOff]
      exact ⟨congrArg Host.Outcome.next (if_neg hspace), by decide⟩

/-! ## The order of the checks (R30, R116, R228, R283) -/

theorem State.load_of_accCheck {s : State} {sg : BitVec 3} {off : Word} {n : Nat} {i : TrapInfo} (d : Dest) (la : BitVec 4) (sx : Nat)
    (h : s.accCheck sg off.toNat n n rightR .load = some i) : s.load sg off n d la sx = s.trap i.cause i.i0 i.i1 := by
  rw [State.load, h]
  rfl

theorem State.store_of_accCheck {s : State} {sg : BitVec 3} {off : Word} {n : Nat} {i : TrapInfo} (v : Nat)
    (h : s.accCheck sg off.toNat n n rightW .store = some i) : s.store sg off n v = s.trap i.cause i.i0 i.i1 := by
  rw [State.store, h]
  rfl

/-- What a failing check of an access says: rights and space first, then the bounds, then the alignment, then the size of the
stack scratchpad, then the address. -/
theorem State.accCheck_cases (s : State) (sg : BitVec 3) (off : Word) (n : Nat) (hn : 0 < n) (rights : BitVec 8) (k : Acc) :
    let g := s.thr.seg sg
    let x := g.base.toNat + off.toNat
    let idx : Word := sg.zeroExtend 64
    let permitted := g.rights &&& rights = rights ∧ k.permits g = true
    let check := s.accCheck sg off.toNat n n rights k
    (¬permitted → check = some ⟨.segRight, off, idx⟩) ∧
    (permitted → g.len < off.toNat + n → check = some ⟨.segBound, off, idx⟩) ∧
    (permitted → off.toNat + n ≤ g.len → off.toNat % n ≠ 0 → check = some ⟨.align, off, idx⟩) ∧
    (permitted → off.toNat + n ≤ g.len → off.toNat % n = 0 → g.space.toNat = 4 →
      let z := ((s.island? s.thr.view.island).map fun i => i.zOf i.zWays).getD 0
      z < x + n → check = some ⟨.scratchBound, BitVec.ofNat 64 x, BitVec.ofNat 64 z⟩) ∧
    (permitted → off.toNat + n ≤ g.len → off.toNat % n = 0 → 5 ≤ g.space.toNat → g.space.toNat ≤ 8 →
      badAddress x = true → check = some ⟨.addrForm, BitVec.ofNat 64 x, 0⟩) := by
  intro g x idx permitted check
  have hoff : wordOf off.toNat = off := by simp [wordOf]
  have hidx : wordOf sg.toNat = idx := BitVec.ofNat_toNat 64 sg
  have hseg : segCheck g sg.toNat off.toNat n n rights (k.permits g) =
      if ¬permitted then some ⟨.segRight, off, idx⟩
      else if g.len < off.toNat + n then some ⟨.segBound, off, idx⟩
      else if off.toNat % n ≠ 0 then some ⟨.align, off, idx⟩ else none := by
    unfold segCheck
    rw [hoff, hidx]
    by_cases hr : g.rights &&& rights = rights <;> by_cases hk : k.permits g = true <;> simp [permitted, hr, hk]
  have hcheck : check = firstTrap [segCheck g sg.toNat off.toNat n n rights (k.permits g), formCheck s s.thr.view g off.toNat n] := rfl
  refine ⟨fun hp => ?_, fun hp hl => ?_, fun hp hl ha => ?_, fun hp hl ha hspace hz => ?_, fun hp hl ha hlo hhi hbad => ?_⟩
  · rw [hcheck, hseg, if_pos hp]; rfl
  · rw [hcheck, hseg, if_neg (not_not.2 hp), if_pos hl]; rfl
  · rw [hcheck, hseg, if_neg (not_not.2 hp), if_neg (not_lt.2 hl), if_pos ha]; rfl
  · rw [hcheck, hseg, if_neg (not_not.2 hp), if_neg (not_lt.2 hl), if_neg (not_not.2 ha)]
    have hstack : g.space = spStack := BitVec.eq_of_toNat_eq hspace
    simp only [firstTrap, formCheck, hstack, if_true]
    rw [if_pos (by omega)]
    rfl
  · rw [hcheck, hseg, if_neg (not_not.2 hp), if_neg (not_lt.2 hl), if_neg (not_not.2 ha)]
    have hstack : g.space ≠ spStack := fun h => by rw [h] at hlo; exact absurd hlo (by decide)
    have hvirtual : g.isVirtual = true := by simp [Seg.isVirtual, hlo, hhi]
    simp only [firstTrap, formCheck, hstack, if_false, hvirtual, if_true, x, hbad]
    rfl

theorem and_rightR_eq_iff (x : BitVec 8) : x &&& rightR = rightR ↔ x.getLsbD 0 = true := by
  revert x; decide

theorem and_rightW_eq_iff (x : BitVec 8) : x &&& rightW = rightW ↔ x.getLsbD 1 = true := by
  revert x; decide

theorem and_rightW_eq_zero_iff (x : BitVec 8) : x &&& rightW = 0 ↔ x.getLsbD 1 = false := by
  revert x; decide

theorem permits_load_iff (g : Seg) : Acc.permits .load g = true ↔
    g.space.toNat ≤ 6 ∨ g.space.toNat = 8 ∨ (g.space.toNat = 7 ∧ g.rights.getLsbD 1 = false) := by
  simp only [Acc.permits, Bool.or_eq_true, decide_eq_true_eq, beq_iff_eq, Bool.and_eq_true, and_rightW_eq_zero_iff, or_assoc]

theorem permits_store_iff (g : Seg) : Acc.permits .store g = true ↔ g.space.toNat ≤ 6 := by
  simp only [Acc.permits, decide_eq_true_eq]

/-- Settles O36: the checks of the one access that a plain load or store makes, taken in their order. -/
theorem accessChecksTrap : Obligations.AccessChecksTrap := by
  unfold Obligations.AccessChecksTrap
  intro i s sg off n right far hform g x idx permitted
  obtain ⟨rights, k, hpos, hpermitted, hspace, htrap⟩ : ∃ (rights : BitVec 8) (k : Acc), 0 < n ∧
      (permitted ↔ g.rights &&& rights = rights ∧ k.permits g = true) ∧ (permitted → g.space.toNat ≤ 8) ∧
      ∀ j, s.accCheck sg off.toNat n n rights k = some j → exec i s = .next (s.trap j.cause j.i0 j.i1) := by
    rcases hform with ⟨f, hf, rfl, rfl, rfl, rfl, rfl⟩ | ⟨v, hv, rfl, rfl⟩
    · obtain ⟨sx, hexec, hpos, -⟩ := exec_of_loadForm hf
      refine ⟨rightR, .load, hpos, ?_, ?_, fun j hj => by rw [hexec, State.load_of_accCheck _ _ _ hj]⟩
      · rw [and_rightR_eq_iff, permits_load_iff]
        exact and_congr_right fun _ => or_congr_right (and_iff_right rfl)
      · rintro ⟨-, h⟩
        omega
    · obtain ⟨hexec, hpos⟩ := exec_of_storeForm hv
      refine ⟨rightW, .store, hpos, ?_, ?_, fun j hj => by rw [hexec, State.store_of_accCheck _ hj]⟩
      · rw [and_rightW_eq_iff, permits_store_iff]
        exact and_congr_right fun _ => or_iff_left fun h => Bool.noConfusion h.1
      · rintro ⟨-, h | ⟨h, -⟩⟩
        · omega
        · exact Bool.noConfusion h
  obtain ⟨hright, hbound, halign, hscratch, haddr⟩ := s.accCheck_cases sg off n hpos rights k
  refine ⟨fun hp => ?_, fun hp hl => ?_, fun hp hl ha => ?_, fun hp hl ha hsp => ?_, fun hp hl ha hlo hbad => ?_⟩
  · exact htrap _ (hright fun h => hp (hpermitted.2 h))
  · exact htrap _ (hbound (hpermitted.1 hp) hl)
  · exact htrap _ (halign (hpermitted.1 hp) hl ha)
  · intro z hz
    exact htrap _ (hscratch (hpermitted.1 hp) hl ha hsp hz)
  · exact htrap _ (haddr (hpermitted.1 hp) hl ha hlo (hspace hp) hbad)

end Sys2Proof.Machine
end

section
/-! The segment instructions (spec/04, R22, R28, R29, R95 to R97). -/

namespace Sys2Proof.Machine

open Sys2Proof

set_option Elab.async false

/-! ## Handles -/

/-- The fields of a handle entry, as the bits of Table 1.8. -/
theorem segOfEntry_eq_extract (e : Nat) :
    let b : BitVec 256 := BitVec.ofNat 256 e
    segOfEntry e = ⟨b.extractLsb' 0 52, (b.extractLsb' 64 53).toNat, b.extractLsb' 128 8, b.extractLsb' 136 4,
      b.extractLsb' 140 2, b.extractLsb' 192 16⟩ := by
  have field : ∀ k w : Nat, k + w ≤ 256 → (BitVec.ofNat 256 e).extractLsb' k w = BitVec.ofNat w (e / 2 ^ k) := by
    intro k w hkw
    apply BitVec.eq_of_getLsbD_eq
    intro j hj
    simp only [BitVec.getLsbD_extractLsb', BitVec.getLsbD_ofNat, ← Nat.shiftRight_eq_div_pow, Nat.testBit_shiftRight]
    rw [decide_eq_true hj, decide_eq_true (show k + j < 256 by omega), Bool.true_and]
  intro b
  simp only [b, segOfEntry, field 0 52 (by decide), field 64 53 (by decide), field 128 8 (by decide), field 136 4 (by decide),
    field 140 2 (by decide), field 192 16 (by decide), BitVec.toNat_ofNat, Nat.pow_zero, Nat.div_one]

theorem entry_valid_iff (e : Nat) : e / 2 ^ 191 % 2 = 0 ↔ (BitVec.ofNat 256 e).getLsbD 191 = false := by
  rw [BitVec.getLsbD_ofNat, decide_eq_true (by decide : 191 < 256), Bool.true_and, Nat.testBit_eq_decide_div_mod_eq]
  simp only [decide_eq_false_iff_not]
  omega

/-- An entry that is valid and names a space of Table 1.6 is not refused for what it is. -/
theorem entry_accepted {e : Nat} {sp : BitVec 4} (hvalid : (BitVec.ofNat 256 e).getLsbD 191 = true) (hspace : 1 ≤ sp.toNat ∧ sp.toNat ≤ 8) :
    ¬(e / 2 ^ 191 % 2 = 0 ∨ sp = 0 ∨ sp.toNat > 8) := by
  obtain ⟨hlo, hhi⟩ := hspace
  rintro (h | rfl | h)
  · rw [entry_valid_iff, hvalid] at h
    exact Bool.noConfusion h
  · exact absurd hlo (by decide)
  · omega

theorem Seg.physical_of_mem {g : Seg} (h : g.space ∈ [spLane, spCore, spCluster, spStack]) :
    (1 ≤ g.space.toNat ∧ g.space.toNat ≤ 8) ∧ g.isVirtual = false := by
  rw [Seg.isVirtual]
  revert h
  generalize g.space = sp
  revert sp
  decide

theorem Seg.virtual_of_mem {g : Seg} (h : g.space ∈ [spInter, spBank, spCode]) :
    (1 ≤ g.space.toNat ∧ g.space.toNat ≤ 8) ∧ g.isVirtual = true ∧ g.space ≠ spFar := by
  rw [Seg.isVirtual]
  revert h
  generalize g.space = sp
  revert sp
  decide

theorem Seg.far_of_eq {g : Seg} (h : g.space = spFar) : (1 ≤ g.space.toNat ∧ g.space.toNat ≤ 8) ∧ g.isVirtual = true := by
  rw [Seg.isVirtual, h]
  decide

theorem readHandle_of_none {s : State} {v : View} {tab h : Nat} (hnone : tab = 0 ∨ h = 0) : readHandle s v tab h = .segRight := by
  rw [readHandle, if_pos hnone]

/-- What a handle whose table and entry can be read gives, by the segment of the entry (R29). -/
theorem readHandle_of_reads {s : State} {v : View} {tab h x y hd e : Nat} (htab : tab ≠ 0) (hh : h ≠ 0)
    (hheader : tableRead s v tab 8 = (.ok x, hd)) (hin : h ≤ hd % 65536) (hentry : tableRead s v (tab + 32 * h) 32 = (.ok y, e)) :
    readHandle s v tab h =
      let g := segOfEntry e
      if e / 2 ^ 191 % 2 = 0 ∨ g.space = 0 ∨ g.space.toNat > 8 then .segRight
      else if g.isVirtual then
        if g.base.toNat + g.len > 2 ^ 52 then .addrForm (g.base.toNat + g.len)
        else if g.space = spFar ∧ !(((s.island? v.island).map (fun i => i.far.any (fun f => f.idx == g.fmod.toNat))).getD false) then
          .ok Seg.empty
        else .ok g
      else if g.base.toNat + g.len > memSizeOf s v g.space then .addrForm (g.base.toNat + g.len)
      else .ok g := by
  rw [readHandle, if_neg (by simp [htab, hh]), hheader]
  simp only [if_neg (not_lt.2 hin), gt_iff_lt, hentry]

theorem readHandle_of_beyond {s : State} {v : View} {tab h x hd : Nat} (htab : tab ≠ 0) (hh : h ≠ 0)
    (hheader : tableRead s v tab 8 = (.ok x, hd)) (hout : hd % 65536 < h) : readHandle s v tab h = .segRight := by
  rw [readHandle, if_neg (by simp [htab, hh]), hheader]
  exact if_pos hout

/-! ## Parking on a page -/

theorem State.parkPage_waitsFor (s : State) (va : Nat) : s.waitsFor (s.parkPage va) (.page va) ∧ (s.parkPage va).mem = s.mem := by
  unfold State.parkPage
  simp only
  split <;> exact ⟨⟨rfl, rfl, rfl, rfl, rfl⟩, rfl⟩

/-! ## SEGSUB and SEGQ -/

theorem Seg.narrow_eq (g : Seg) (t : Thread) (d a b : BitVec 6) : g.narrow (t.rg a) (t.rg b) (t.rg d) =
    { g with base := BitVec.ofNat 52 (g.base.toNat + (t.rg a).toNat), len := (t.rg b).toNat, rights := g.rights &&& ~~~t.low 8 d } := by
  rw [Seg.narrow, BitVec.truncate_eq_setWidth, BitVec.ofNat_add, BitVec.ofNat_toNat, BitVec.setWidth_eq, BitVec.ofNat_toNat]
  rfl

/-- The packed word of SEGQ's last selection: rights, space, policy and FMOD side by side (R97). -/
theorem querySum_eq_fields (r : BitVec 8) (sp : BitVec 4) (pol : BitVec 2) (f : BitVec 16) :
    wordOf (r.toNat + sp.toNat * 2 ^ 8 + pol.toNat * 2 ^ 12 + f.toNat * 2 ^ 16) =
      (f.zeroExtend 32 <<< 16 |>.zeroExtend 64 |>.or ((0 : BitVec 50) ++ pol ++ sp ++ r)) := by
  have hlow : ((0 : BitVec 50) ++ pol ++ sp ++ r).toNat = r.toNat + sp.toNat * 2 ^ 8 + pol.toNat * 2 ^ 12 := by
    rw [BitVec.toNat_append, BitVec.toNat_append, BitVec.toNat_append, ← Nat.shiftLeft_add_eq_or_of_lt r.isLt,
      ← Nat.shiftLeft_add_eq_or_of_lt sp.isLt, ← Nat.shiftLeft_add_eq_or_of_lt pol.isLt, show (0 : BitVec 50).toNat = 0 from rfl]
    simp only [Nat.shiftLeft_eq]
    omega
  have hhigh : ((f.zeroExtend 32 <<< 16).zeroExtend 64).toNat = f.toNat <<< 16 := by
    have := f.isLt
    simp only [BitVec.zeroExtend_eq_setWidth, BitVec.toNat_setWidth, BitVec.toNat_shiftLeft, Nat.shiftLeft_eq]
    omega
  apply BitVec.eq_of_toNat_eq
  have hr := r.isLt; have hsp := sp.isLt; have hpol := pol.isLt; have hf := f.isLt
  rw [BitVec.or_eq, BitVec.toNat_or, hhigh, ← Nat.shiftLeft_add_eq_or_of_lt (by rw [hlow]; omega), hlow, wordOf, BitVec.toNat_ofNat,
    Nat.shiftLeft_eq]
  omega

theorem Seg.query_rights (g : Seg) (hspace : g.space ≠ 0) : g.query .rights =
    ((if g.space = spFar then g.fmod else 0).zeroExtend 32 <<< 16 |>.zeroExtend 64 |>.or ((0 : BitVec 50) ++ g.policy ++ g.space ++ g.rights)) := by
  rw [← querySum_eq_fields, Seg.query, if_neg hspace]
  split <;> rfl

/-- Settles O47, clause by clause. -/
theorem segmentOperations : Obligations.SegmentOperations := by
  unfold Obligations.SegmentOperations
  refine ⟨fun u a sg s => ⟨fun g hg => ?_, fun h => ?_, fun x hx => ?_, fun va hva => ?_⟩,
    fun s v tab h x y hd e htab hh hheader => ⟨readHandle_of_beyond htab hh hheader, fun hin hentry => ?_⟩,
    fun s v tab h => readHandle_of_none, fun u d a b sg s => ⟨fun hempty => ?_, fun hspace hlen => ?_, fun hspace hlen => ?_⟩,
    fun u d q sg s => ?_⟩
  · simp only [completes, exec, execSegld, State.rg, hg]
  · simp only [exec, execSegld, State.rg, h]
  · simp only [exec, execSegld, State.rg, hx]
    rfl
  · obtain ⟨hwaits, hmem⟩ := s.parkPage_waitsFor va
    exact ⟨s.parkPage va, by simp only [exec, execSegld, State.rg, hva], hwaits, hmem⟩
  · intro b g
    have hread := readHandle_of_reads htab hh hheader hin hentry
    have hvalidIff := entry_valid_iff e
    rw [segOfEntry_eq_extract e] at hread
    refine ⟨fun hbad => hread.trans (if_pos (hbad.imp_left hvalidIff.2)), fun hvalid hspace => ?_, fun hvalid hspace => ?_, fun hvalid hspace => ?_⟩
    · obtain ⟨hknown, hv⟩ := Seg.physical_of_mem hspace
      exact hread.trans ((if_neg (entry_accepted hvalid hknown)).trans (if_neg (by rw [hv]; exact Bool.false_ne_true)))
    · obtain ⟨hknown, hv, hfar⟩ := Seg.virtual_of_mem hspace
      exact hread.trans ((if_neg (entry_accepted hvalid hknown)).trans ((if_pos hv).trans
        (if_congr Iff.rfl rfl (if_neg fun h => hfar h.1))))
    · obtain ⟨hknown, hv⟩ := Seg.far_of_eq hspace
      refine hread.trans ((if_neg (entry_accepted hvalid hknown)).trans ((if_pos hv).trans (if_congr Iff.rfl rfl ?_)))
      cases ((s.island? v.island).map fun i => i.far.any fun f => f.idx == g.fmod.toNat).getD false
      · exact if_pos ⟨hspace, rfl⟩
      · exact if_neg fun h => Bool.noConfusion h.2
  · exact congrArg Host.Outcome.next (if_pos hempty)
  · exact congrArg Host.Outcome.next ((if_neg hspace).trans (if_pos hlen))
  · refine congrArg Host.Outcome.next ((if_neg hspace).trans ((if_neg (not_lt.2 hlen)).trans ?_))
    exact congrArg s.onThr (funext fun t => by rw [Seg.narrow_eq])
  · refine congrArg Host.Outcome.next (onThr_congr (congrArg (fun x => (s.thr.wg d x).advance) ?_))
    by_cases hspace : (s.thr.seg sg).space = 0
    · exact (if_pos hspace).trans (if_pos hspace).symm
    · rw [if_neg hspace]
      cases q with
      | base => exact if_neg hspace
      | length => exact if_neg hspace
      | rights => exact Seg.query_rights _ hspace

end Sys2Proof.Machine
end

section
/-! The machine registers (spec/01, spec/04, R17, R20, R24 to R26, R93, R94). -/

namespace Sys2Proof.Machine

open Sys2Proof

set_option Elab.async false

/-! ## Reading and writing machine registers -/

/-- Completing a unit changes no machine register. -/
theorem State.readM_advance (s : State) (f : Thread → Thread) (m : MReg) :
    (s.onThr fun t => (f t).advance).readM m = (s.onThr f).readM m := by
  cases m <;> rfl

/-- A write to a register of the thread leaves every other machine register as it was. -/
theorem State.readM_writeM_ne (s : State) (x : Word) {m m' : MReg} (h : m' ≠ m) :
    (s.onThr fun t => t.writeM m x).readM m' = s.readM m' := by
  cases m
  case flags => cases m' <;> try rfl
                exact absurd rfl h
  case srkey => cases m' <;> try rfl
                exact absurd rfl h
  case srctr => cases m' <;> try rfl
                exact absurd rfl h
  case tvec => cases m' <;> try rfl
               exact absurd rfl h
  case tpc => cases m' <;> try rfl
              exact absurd rfl h
  case tcause => cases m' <;> try rfl
                 exact absurd rfl h
  case tinfo0 => cases m' <;> try rfl
                 exact absurd rfl h
  case tinfo1 => cases m' <;> try rfl
                 exact absurd rfl h
  case rcto => cases m' <;> try rfl
               exact absurd rfl h
  all_goals rfl

/-- What a register holds of a word is the word masked to its bits. -/
theorem truncate_zeroExtend_eq_and (x : Word) {w : Nat} {k : Word} (hk : ∀ j, j < 64 → k.getLsbD j = decide (j < w)) :
    (x.truncate w).zeroExtend 64 = x &&& k := by
  apply BitVec.eq_of_getLsbD_eq
  intro j hj
  simp only [BitVec.truncate_eq_setWidth, BitVec.zeroExtend_eq_setWidth, BitVec.getLsbD_setWidth, BitVec.getLsbD_and, hk j hj,
    decide_eq_true hj, Bool.true_and]
  exact Bool.and_comm _ _

theorem tvec_zeroExtend_eq_and (x : Word) :
    (x.truncate 52 &&& 0xF_FFFF_FFFF_FFF8 : BitVec 52).zeroExtend 64 = x &&& 0xF_FFFF_FFFF_FFF8 := by
  have hlow : (x.truncate 52).zeroExtend 64 = x &&& 0xF_FFFF_FFFF_FFFF := truncate_zeroExtend_eq_and x (by decide)
  calc (x.truncate 52 &&& 0xF_FFFF_FFFF_FFF8 : BitVec 52).zeroExtend 64
    _ = (x.truncate 52).zeroExtend 64 &&& (0xF_FFFF_FFFF_FFF8 : BitVec 52).zeroExtend 64 := BitVec.setWidth_and
    _ = x &&& (0xF_FFFF_FFFF_FFFF &&& 0xF_FFFF_FFFF_FFF8) := by rw [hlow, BitVec.and_assoc]; rfl
    _ = x &&& 0xF_FFFF_FFFF_FFF8 := congrArg (x &&& ·) (by decide)

/-- A register reads, of the word written to it, the bits that it has; one that cannot be written reads as before (R24, R94). -/
theorem State.readM_writeM_self (s : State) (x : Word) (m : MReg) :
    (s.onThr fun t => t.writeM m x).readM m = match MReg.writable m with | some k => x &&& k | none => s.readM m := by
  cases m
  case flags => exact truncate_zeroExtend_eq_and x (w := 6) (by decide)
  case srkey => exact truncate_zeroExtend_eq_and x (w := 32) (by decide)
  case srctr => exact truncate_zeroExtend_eq_and x (w := 32) (by decide)
  case rcto => exact truncate_zeroExtend_eq_and x (w := 32) (by decide)
  case tcause => exact truncate_zeroExtend_eq_and x (w := 8) (by decide)
  case tvec => exact tvec_zeroExtend_eq_and x
  case tinfo0 => exact (BitVec.and_allOnes).symm
  case tinfo1 => exact (BitVec.and_allOnes).symm
  all_goals rfl

/-- What MWR leaves of the thread as it was. -/
theorem Thread.writeM_frame (t : Thread) (m : MReg) (x : Word) :
    (t.writeM m x).g = t.g ∧ (t.writeM m x).v = t.v ∧ (t.writeM m x).p = t.p ∧ (t.writeM m x).segs = t.segs ∧
      (t.writeM m x).nextPc = t.nextPc ∧ (t.writeM m x).pending = t.pending := by
  cases m <;> exact ⟨rfl, rfl, rfl, rfl, rfl, rfl⟩

theorem exec_mwr_of_ne {m : MReg} (u : Bool) (d : BitVec 6) (s : State) (hm : m ≠ .wpart) :
    exec (.mwr u d m) s = .next (s.onThr fun t => (t.writeM m (t.rg d)).advance) := by
  cases m <;> try rfl
  exact absurd rfl hm

/-! ## %wpart (R25) -/

theorem State.withHeader_of_read {s : State} {x h : Nat} (k : Nat → State) (htab : s.thr.htab ≠ 0)
    (hread : tableRead s s.thr.view s.thr.htab 8 = (.ok x, h)) : s.withHeader k = k h := by
  rw [State.withHeader, hread]
  simp only [if_neg htab]

theorem State.engineWork_waitsFor (s : State) (w : EngineWork) :
    s.waitsFor (s.engineWork w) (.engine s.nextId) ∧ (s.engineWork w).mem = s.mem ∧
      (s.engineWork w).engJobs = s.engJobs ++ [⟨s.nextId, s.thr.key, s.thr.view.island, none, w⟩] :=
  ⟨⟨rfl, rfl, rfl, rfl, rfl⟩, rfl, rfl⟩

theorem testBit_sixteen_eq_false_iff (h : Nat) : h.testBit 16 = false ↔ h / 2 ^ 16 % 2 = 0 := by
  rw [Nat.testBit_eq_decide_div_mod_eq, decide_eq_false_iff_not]
  omega

/-- %pkt: the serial number of the shift, the priority and the queue, side by side (Table 1.4). -/
theorem State.readM_pkt (s : State) : s.readM .pkt = BitVec.ofNat 48 s.thr.crewId.1 ++ (0 : BitVec 7) ++ s.thr.prio ++ s.thr.queue := by
  have hq := s.thr.queue.isLt
  have hp := s.thr.prio.isLt
  have hread : (s.readM .pkt).toNat = s.thr.crewId.1 % 2 ^ 48 * 2 ^ 16 + (s.thr.prio.toNat * 2 ^ 6 + s.thr.queue.toNat) := by
    have hprio : (s.thr.prio.zeroExtend 64 <<< 6).toNat = s.thr.prio.toNat <<< 6 := by
      simp only [BitVec.zeroExtend_eq_setWidth, BitVec.toNat_setWidth, BitVec.toNat_shiftLeft, Nat.shiftLeft_eq]
      omega
    have hserial : (BitVec.ofNat 64 (s.thr.crewId.1 % 2 ^ 48 * 2 ^ 16)).toNat = (s.thr.crewId.1 % 2 ^ 48) <<< 16 := by
      simp only [BitVec.toNat_ofNat, Nat.shiftLeft_eq]
      omega
    have hqueue : (s.thr.queue.zeroExtend 64).toNat = s.thr.queue.toNat := by
      simp only [BitVec.zeroExtend_eq_setWidth, BitVec.toNat_setWidth]
      omega
    rw [State.readM, BitVec.toNat_or, BitVec.toNat_or, hqueue, hprio, hserial, Nat.or_comm, Nat.or_comm s.thr.queue.toNat,
      ← Nat.shiftLeft_add_eq_or_of_lt hq, ← Nat.shiftLeft_add_eq_or_of_lt (by rw [Nat.shiftLeft_eq]; omega)]
    simp only [Nat.shiftLeft_eq]
  apply BitVec.eq_of_toNat_eq
  rw [hread, BitVec.toNat_append, BitVec.toNat_append, BitVec.toNat_append, ← Nat.shiftLeft_add_eq_or_of_lt hq,
    ← Nat.shiftLeft_add_eq_or_of_lt hp, show (0 : BitVec 7).toNat = 0 from rfl, Nat.or_zero, BitVec.toNat_ofNat]
  simp only [Nat.shiftLeft_eq]
  omega

/-- Settles O46: MRD and MWR of the thread's own registers by the laws above; %wpart by what its handle table says. -/
theorem machineRegisters : Obligations.MachineRegisters := by
  unfold Obligations.MachineRegisters
  refine ⟨fun u d m s => rfl, fun u d m s hm => ?_, fun u d s x h => ⟨fun hgrant => ?_, fun hgrant htab hread => ?_⟩,
    fun s => ⟨rfl, s.readM_pkt⟩⟩
  · obtain ⟨hg, hv, hp, hsegs, hpc, hpending⟩ := s.thr.writeM_frame m (s.thr.rg d)
    refine ⟨_, exec_mwr_of_ne u d s hm, ?_, fun m' hm' => ?_, hg, hv, hp, hsegs, hpc, hpending, rfl, rfl⟩
    · exact (s.readM_advance _ m).trans (s.readM_writeM_self (s.thr.rg d) m)
    · exact (s.readM_advance _ m').trans (s.readM_writeM_ne (s.thr.rg d) hm')
  · exact congrArg Host.Outcome.next (if_pos hgrant)
  · intro n busy
    have hexec : exec (.mwr u d .wpart) s = .next
        (if h / 2 ^ 16 % 2 = 0 then s.trap .segRight (s.rg d) 0x070
        else if n ≠ 0 ∧ n ≠ 4 ∧ n ≠ 8 ∧ n ≠ 12 then s.illegalHere (.mwr u d .wpart)
        else if wordOf n = s.wpartReg ∧ !busy then s.finish else s.engineWork (.repartition n 0)) :=
      congrArg Host.Outcome.next ((if_neg (by simp [hgrant])).trans (State.withHeader_of_read _ htab hread))
    clear_value n busy
    refine ⟨fun hadm => ?_, fun hadm hn => ⟨fun hpresent hbusy => ?_, fun hwork => ?_⟩⟩
    · rw [hexec, if_pos ((testBit_sixteen_eq_false_iff h).1 hadm)]
      rfl
    all_goals
      have hadm' : ¬h / 2 ^ 16 % 2 = 0 := by rw [← testBit_sixteen_eq_false_iff, hadm]; exact Bool.noConfusion
      have hvalue : ¬(n ≠ 0 ∧ n ≠ 4 ∧ n ≠ 8 ∧ n ≠ 12) :=
        fun ⟨h0, h4, h8, h12⟩ => by simp [h0, h4, h8, h12] at hn
      rw [if_neg hadm', if_neg hvalue] at hexec
    · rw [completes, hexec, if_pos ⟨hpresent.symm, by rw [hbusy]; rfl⟩]
      rfl
    · rw [if_neg fun hidle => hwork.elim (fun hne => hne hidle.1.symm) fun hbusy => by rw [hbusy] at hidle; exact Bool.noConfusion hidle.2] at hexec
      exact ⟨_, hexec, s.engineWork_waitsFor _⟩

end Sys2Proof.Machine
end

section
/-! The caches (spec/09, R218 to R221; spec/10, R237 to R241): what a write-back, a drain, a fill, a release and an acquire leave
as they were. A byte of memory changes only where a mask names it. -/

namespace Sys2Proof.Machine

open Sys2Proof

set_option Elab.async false

/-! ## Memory, byte by byte -/

/-- A byte written leaves every other byte as it was, in every form of memory. -/
theorem memGet_memSet_ne {x y : Nat} (m : Memory) (b : Byte) (h : y ≠ x) : memGet (memSet m x b) y = memGet m y := by
  induction m with
  | nil =>
    rw [memSet]
    split
    · rfl
    · simp only [memGet, if_neg (Ne.symm h)]
  | cons c m ih =>
    rw [memSet]
    split
    · split
      · rfl
      · rw [memGet, if_neg (Ne.symm h)]
    · split
      · next hc =>
        have hne : ¬c.1 = y := fun hy => h (hy.symm.trans hc.symm)
        split
        · rw [memGet, if_neg hne]
        · rw [memGet, memGet, if_neg (Ne.symm h), if_neg hne]
      · rw [memGet, memGet, ih]

theorem memGet_memWrite_of_outside {y : Nat} (m : Memory) (x n v : Nat) (h : y < x ∨ x + n ≤ y) :
    memGet (memWrite m x n v) y = memGet m y := by
  induction n generalizing m x v with
  | zero => rfl
  | succ n ih => rw [memWrite, ih _ _ _ (by omega), memGet_memSet_ne _ _ (by omega)]

theorem memGet_memWriteMask_of_clear {y : Nat} (m : Memory) (x n k v : Nat)
    (h : y < x ∨ x + n ≤ y ∨ k.testBit (y - x) = false) : memGet (memWriteMask m x n k v) y = memGet m y := by
  induction n generalizing m x k v with
  | zero => rfl
  | succ n ih =>
    rw [memWriteMask, ih]
    · split
      · next hbit =>
        refine memGet_memSet_ne _ _ fun hy => ?_
        subst hy
        rcases h with h | h | h
        · omega
        · omega
        · rw [Nat.sub_self, Nat.testBit_zero, decide_eq_false_iff_not] at h
          exact h hbit
      · rfl
    · rcases h with h | h | h
      · exact .inl (by omega)
      · exact .inr (.inl (by omega))
      · by_cases hy : x < y
        · refine .inr (.inr ?_)
          rw [← Nat.testBit_succ, show (y - (x + 1)).succ = y - x by omega]
          exact h
        · exact .inl (by omega)

/-! ## Cores -/

theorem State.core_id (s : State) (c : Nat) : (s.core c).id = c := by
  rw [State.core]
  cases h : s.cores.find? fun k => k.id == c with
  | none => rfl
  | some k => simpa using List.find?_some h

theorem find_replaced_of_ne {k : CoreSt} {c : Nat} (hc : c ≠ k.id) (l : List CoreSt) :
    (l.map fun d => if d.id == k.id then k else d).find? (fun d => d.id == c) = l.find? fun d => d.id == c := by
  induction l with
  | nil => rfl
  | cons d l ih =>
    rw [List.map_cons, List.find?_cons, List.find?_cons, ih]
    by_cases hd : d.id = k.id
    · have hk : (k.id == c) = false := beq_eq_false_iff_ne.2 (Ne.symm hc)
      rw [if_pos (beq_iff_eq.2 hd), hd, hk]
    · rw [if_neg (by simpa using hd)]

theorem find_replaced_same {k : CoreSt} (l : List CoreSt) (hany : l.any (fun d => d.id == k.id) = true) :
    (l.map fun d => if d.id == k.id then k else d).find? (fun d => d.id == k.id) = some k := by
  induction l with
  | nil => exact absurd hany (by simp)
  | cons d l ih =>
    rw [List.map_cons, List.find?_cons]
    by_cases hd : d.id = k.id
    · rw [if_pos (beq_iff_eq.2 hd), beq_self_eq_true]
    · rw [if_neg (by simpa using hd), beq_eq_false_iff_ne.2 hd]
      rw [List.any_cons, beq_eq_false_iff_ne.2 hd, Bool.false_or] at hany
      exact ih hany

theorem State.core_setCore (s : State) (k : CoreSt) (c : Nat) : (s.setCore k).core c = if c = k.id then k else s.core c := by
  rw [State.core, State.setCore]
  by_cases hany : s.cores.any (fun d => d.id == k.id) = true
  · rw [if_pos hany]
    split
    · next hc => rw [hc, find_replaced_same _ hany]; rfl
    · next hc => rw [find_replaced_of_ne hc]; rfl
  · have hnone : s.cores.find? (fun d => d.id == k.id) = none := by
      rw [List.find?_eq_none]
      exact fun d hd h => hany (List.any_eq_true.2 ⟨d, hd, h⟩)
    rw [if_neg hany, List.find?_append, List.find?_singleton]
    by_cases hc : c = k.id
    · rw [hc, hnone, if_pos rfl, beq_self_eq_true, if_pos rfl]
      rfl
    · rw [if_neg hc, if_neg (by simpa using Ne.symm hc), Option.or_none]
      rfl

theorem State.core_modCore (s : State) {f : CoreSt → CoreSt} (d c : Nat) (hf : (f (s.core d)).id = d) :
    (s.modCore d f).core c = if c = d then f (s.core d) else s.core c := by
  rw [State.modCore, State.core_setCore, hf]

theorem mem_cores_setCore {s : State} {k e : CoreSt} (h : e ∈ (s.setCore k).cores) : e = k ∨ e ∈ s.cores := by
  simp only [State.setCore] at h
  split at h
  · obtain ⟨d, hd, rfl⟩ := List.mem_map.1 h
    split
    · exact .inl rfl
    · exact .inr hd
  · rcases List.mem_append.1 h with h | h
    · exact .inr h
    · exact .inl (List.mem_singleton.1 h)

/-! ## Bytes that nothing under way is about to change -/

/-- Nothing that a core holds is about to change a byte. -/
def CoreSt.clearAt (k : CoreSt) (x : Loc) : Prop :=
  (∀ l ∈ k.l1, l.line = lineAt x → l.dirty.getLsbD (x % 128) = false ∧ l.covered.getLsbD (x % 128) = false) ∧
  (∀ e ∈ k.wcb, e.line = lineAt x → e.mask.getLsbD (x % 128) = false) ∧
  (∀ p ∈ k.port, x < p.loc ∨ p.loc + p.size ≤ x)

/-- Nothing on its way to memory, and nothing that waits there, is about to change a byte. -/
def State.clearBeyond (s : State) (x : Loc) : Bool :=
  s.msgs.all (fun m => x < m.loc || m.loc + m.bytes ≤ x) &&
  s.waits.all (fun w => match w.req with
    | .load _ _ _ _ _ => true
    | .produce lo n _ => x < lo || lo + n ≤ x
    | .append _ => wordAt x != w.word)

theorem State.settled_iff (s : State) (x : Loc) : s.settled x = true ↔ (∀ k ∈ s.cores, k.clearAt x) ∧ s.clearBeyond x = true := by
  rw [State.settled, Bool.and_assoc, Bool.and_eq_true, List.all_eq_true]
  refine and_congr (forall₂_congr fun k _ => ?_) Iff.rfl
  simp only [CoreSt.clearAt, Bool.and_eq_true, List.all_eq_true, Bool.or_eq_true, bne_iff_ne, ne_eq, Bool.not_eq_true',
    BitVec.getLsbD_or, Bool.or_eq_false_iff, decide_eq_true_eq, and_assoc, imp_iff_not_or]

/-! ## What the caches leave as it was -/

/-- The state without its memory and its caches. -/
def State.apart (s : State) : State :=
  { s with mem := [], poison := [], cores := [], homeDirty := [], replicas := [], records := [], scPoints := [], free := 0 }

/-- A core has given up bytes: its port is as before, and each of its buffer entries is one of before, with no byte more. -/
structure CoreSt.Drained (k k' : CoreSt) : Prop where
  port : k'.port = k.port
  farSeq : k'.farSeq = k.farSeq
  health : k'.health = k.health
  wcb : ∀ e ∈ k'.wcb, ∃ f ∈ k.wcb, e.window = f.window ∧ e.line = f.line ∧ e.owners = f.owners ∧
    ∀ j, e.mask.getLsbD j = true → f.mask.getLsbD j = true

/-- Caches alone have changed. -/
structure State.CachesOnly (s t : State) : Prop where
  apart : t.apart = s.apart
  poison : ∀ w ∈ t.poison, w ∈ s.poison
  cores : ∀ c, (s.core c).Drained (t.core c)
  form : s.memOk = true → t.memOk = true

/-- A byte that is settled stays so, and keeps its value. -/
def State.KeepsByte (x : Loc) (s t : State) : Prop :=
  s.settled x = true → t.settled x = true ∧ memGet t.mem x = memGet s.mem x

/-- Caches alone have changed, and no settled byte. -/
structure State.Settles (s t : State) : Prop extends State.CachesOnly s t where
  keeps : ∀ x, State.KeepsByte x s t

theorem CoreSt.Drained.refl (k : CoreSt) : k.Drained k :=
  ⟨rfl, rfl, rfl, fun e he => ⟨e, he, rfl, rfl, rfl, fun _ h => h⟩⟩

theorem CoreSt.Drained.trans {k k' k'' : CoreSt} (h : k.Drained k') (h' : k'.Drained k'') : k.Drained k'' := by
  refine ⟨h'.port.trans h.port, h'.farSeq.trans h.farSeq, h'.health.trans h.health, fun e he => ?_⟩
  obtain ⟨f, hf, hwf, hlf, hof, hmf⟩ := h'.wcb e he
  obtain ⟨g, hg, hwg, hlg, hog, hmg⟩ := h.wcb f hf
  exact ⟨g, hg, hwf.trans hwg, hlf.trans hlg, hof.trans hog, fun j hj => hmg j (hmf j hj)⟩

theorem State.CachesOnly.refl (s : State) : s.CachesOnly s := ⟨rfl, fun _ h => h, fun c => .refl (s.core c), id⟩

theorem State.CachesOnly.trans {s t u : State} (h : s.CachesOnly t) (h' : t.CachesOnly u) : s.CachesOnly u :=
  ⟨h'.apart.trans h.apart, fun w hw => h.poison w (h'.poison w hw), fun c => (h.cores c).trans (h'.cores c), fun hs => h'.form (h.form hs)⟩

theorem State.KeepsByte.refl (x : Loc) (s : State) : State.KeepsByte x s s := fun h => ⟨h, rfl⟩

theorem State.KeepsByte.trans {x : Loc} {s t u : State} (h : State.KeepsByte x s t) (h' : State.KeepsByte x t u) : State.KeepsByte x s u := by
  intro hs
  obtain ⟨ht, hmem⟩ := h hs
  obtain ⟨hu, hmem'⟩ := h' ht
  exact ⟨hu, hmem'.trans hmem⟩

theorem State.Settles.refl (s : State) : s.Settles s := ⟨.refl s, fun x => .refl x s⟩

theorem State.Settles.trans {s t u : State} (h : s.Settles t) (h' : t.Settles u) : s.Settles u :=
  ⟨h.toCachesOnly.trans h'.toCachesOnly, fun x => (h.keeps x).trans (h'.keeps x)⟩

/-- What each step of a fold keeps, the fold keeps. -/
theorem foldl_related {α β : Type} {R : α → α → Prop} (hrefl : ∀ u, R u u) (htrans : ∀ {u v w}, R u v → R v w → R u w)
    {f : α → β → α} (l : List β) (h : ∀ b ∈ l, ∀ u, R u (f u b)) (s : α) : R s (l.foldl f s) := by
  induction l generalizing s with
  | nil => exact hrefl s
  | cons b l ih => exact htrans (h b (List.mem_cons_self ..) s) (ih (fun c hc => h c (List.mem_cons_of_mem _ hc)) _)

/-! ## The steps that write-backs are made of -/

theorem CoreSt.clearAt_fresh (id : Nat) (x : Loc) : (CoreSt.fresh id).clearAt x :=
  ⟨fun _ h => absurd h List.not_mem_nil, fun _ h => absurd h List.not_mem_nil, fun _ h => absurd h List.not_mem_nil⟩

theorem State.core_clearAt {s : State} {x : Loc} (h : ∀ k ∈ s.cores, k.clearAt x) (c : Nat) : (s.core c).clearAt x := by
  rw [State.core]
  cases hk : s.cores.find? fun k => k.id == c with
  | none => exact CoreSt.clearAt_fresh c x
  | some k => exact h k (List.mem_of_find?_eq_some hk)

theorem State.setCore_cachesOnly {s : State} {k : CoreSt} (h : (s.core k.id).Drained k) : s.CachesOnly (s.setCore k) := by
  refine ⟨rfl, fun _ h => h, fun c => ?_, State.setCore_memOk k⟩
  rw [State.core_setCore]
  split
  · next hc => rw [hc]; exact h
  · exact .refl _

theorem State.setCore_keepsByte {s : State} {k : CoreSt} {x : Loc} (h : (s.core k.id).clearAt x → k.clearAt x) :
    State.KeepsByte x s (s.setCore k) := by
  intro hs
  obtain ⟨hcores, hbeyond⟩ := (s.settled_iff x).1 hs
  refine ⟨((s.setCore k).settled_iff x).2 ⟨fun e he => ?_, hbeyond⟩, rfl⟩
  rcases mem_cores_setCore he with rfl | he
  · exact h (State.core_clearAt hcores _)
  · exact hcores e he

theorem State.modCore_settles {s : State} {f : CoreSt → CoreSt} (c : Nat) (hid : (f (s.core c)).id = c)
    (hdrained : (s.core c).Drained (f (s.core c))) (hclear : ∀ x, (s.core c).clearAt x → (f (s.core c)).clearAt x) :
    s.Settles (s.modCore c f) :=
  ⟨State.setCore_cachesOnly (by rw [hid]; exact hdrained), fun x => State.setCore_keepsByte (by rw [hid]; exact hclear x)⟩

theorem State.sliceRoom_keeps (s : State) (line : Nat) : (s.sliceRoom line).mem = s.mem ∧ (s.sliceRoom line).cores = s.cores ∧
    (s.sliceRoom line).poison = s.poison ∧ (s.sliceRoom line).apart = s.apart := by
  rw [State.sliceRoom]
  split
  · exact ⟨rfl, rfl, rfl, rfl⟩
  · split <;> exact ⟨rfl, rfl, rfl, rfl⟩

theorem State.mem_of_mem_unpoisonMask (s : State) {line : Nat} {m : BitVec 128} {w : Nat} (h : w ∈ (s.unpoisonMask line m).poison) :
    w ∈ s.poison := by
  simp only [State.unpoisonMask, List.mem_filter] at h
  exact h.1

/-- What a merge at home can change: nothing, or the bytes of the mask with the marks of poison under it. -/
theorem State.mergeHome_cases (s : State) (line : Nat) (m : BitVec 128) (d : BitVec 1024) :
    (s.mergeHome line m d).mem = (if m = 0 then s.mem else memWriteMask s.mem (128 * line) 128 m.toNat d.toNat) ∧
    (s.mergeHome line m d).cores = s.cores ∧ (∀ w ∈ (s.mergeHome line m d).poison, w ∈ s.poison) ∧
    (s.mergeHome line m d).apart = s.apart := by
  by_cases hm : m = 0
  · rw [State.mergeHome, if_pos hm, if_pos hm]
    exact ⟨rfl, rfl, fun _ h => h, rfl⟩
  · simp only [State.mergeHome, if_neg hm, State.sliceRoom_keeps, true_and]
    exact ⟨rfl, rfl, fun w hw => s.mem_of_mem_unpoisonMask hw, rfl⟩

theorem State.core_eq_of_cores {s t : State} (h : t.cores = s.cores) (c : Nat) : t.core c = s.core c := by
  rw [State.core, State.core, h]

theorem State.mergeHome_cachesOnly (s : State) (line : Nat) (m : BitVec 128) (d : BitVec 1024) : s.CachesOnly (s.mergeHome line m d) := by
  obtain ⟨-, hcores, hpoison, hapart⟩ := s.mergeHome_cases line m d
  exact ⟨hapart, hpoison, fun c => by rw [State.core_eq_of_cores hcores]; exact .refl _, State.mergeHome_memOk line m d⟩

/-- Where caches alone have changed, what is beyond the cores is as before. -/
theorem State.clearBeyond_of_apart {s t : State} (h : t.apart = s.apart) (x : Loc) : t.clearBeyond x = s.clearBeyond x := by
  change t.apart.clearBeyond x = s.apart.clearBeyond x
  rw [h]

/-- A byte that a mask of a line does not name lies outside the line, or where the mask has a 0. -/
theorem outside_or_clear {line y : Nat} {m : BitVec 128} (h : line = lineAt y → m.getLsbD (y % 128) = false) :
    y < 128 * line ∨ 128 * line + 128 ≤ y ∨ m.toNat.testBit (y - 128 * line) = false := by
  by_cases hline : line = y / 128
  · have hbit : m.toNat.testBit (y % 128) = false := h hline
    rw [show y - 128 * line = y % 128 by omega]
    exact .inr (.inr hbit)
  · omega

theorem State.mergeHome_keepsByte (s : State) {line : Nat} {m : BitVec 128} (d : BitVec 1024) {x : Loc}
    (h : line = lineAt x → m.getLsbD (x % 128) = false) : State.KeepsByte x s (s.mergeHome line m d) := by
  intro hs
  obtain ⟨hmem, hcores, -, hapart⟩ := s.mergeHome_cases line m d
  refine ⟨?_, ?_⟩
  · rw [State.settled_iff, hcores, State.clearBeyond_of_apart hapart, ← State.settled_iff]
    exact hs
  · rw [hmem]
    split
    · rfl
    · exact memGet_memWriteMask_of_clear _ _ _ _ _ (outside_or_clear h)

theorem State.mergeHome_settles (s : State) {line : Nat} {m : BitVec 128} (d : BitVec 1024)
    (h : ∀ x, s.settled x = true → line = lineAt x → m.getLsbD (x % 128) = false) : s.Settles (s.mergeHome line m d) :=
  ⟨s.mergeHome_cachesOnly line m d, fun x hx => s.mergeHome_keepsByte d (h x hx) hx⟩

theorem State.recallHome_settles (s : State) (line : Nat) : s.Settles (s.recallHome line) :=
  ⟨⟨rfl, fun _ h => h, fun _ => .refl _, fun h => State.memOk_of_eq h rfl rfl rfl⟩, fun _ h => ⟨h, rfl⟩⟩

/-- A line that a core holds names no settled byte as dirty or covered. -/
theorem State.l1_clear {s : State} {x : Loc} (hs : s.settled x = true) {c : Nat} {l : L1Line} (hl : l ∈ (s.core c).l1)
    (hline : l.line = lineAt x) : l.dirty.getLsbD (x % 128) = false ∧ l.covered.getLsbD (x % 128) = false :=
  (State.core_clearAt ((s.settled_iff x).1 hs).1 c).1 l hl hline

/-- A buffer entry of a core holds no settled byte. -/
theorem State.wcb_clear {s : State} {x : Loc} (hs : s.settled x = true) {c : Nat} {e : WcbEntry} (he : e ∈ (s.core c).wcb)
    (hline : e.line = lineAt x) : e.mask.getLsbD (x % 128) = false :=
  (State.core_clearAt ((s.settled_iff x).1 hs).1 c).2.1 e he hline

/-! ## Drains of covered bytes (R237, R238) -/

/-- The covered bytes of some lines merged at their homes. -/
def State.mergeCovered (s : State) (ls : List L1Line) : State := ls.foldl (fun u l => u.mergeHome l.line l.covered l.data) s

theorem State.mergeCovered_cores (s : State) (ls : List L1Line) : (s.mergeCovered ls).cores = s.cores :=
  foldl_related (R := fun u v : State => v.cores = u.cores) (fun _ => rfl) (fun h h' => h'.trans h) ls
    (fun l _ u => (u.mergeHome_cases l.line l.covered l.data).2.1) s

theorem State.mergeCovered_cachesOnly (s : State) (ls : List L1Line) : s.CachesOnly (s.mergeCovered ls) :=
  foldl_related CachesOnly.refl CachesOnly.trans ls (fun _ _ u => u.mergeHome_cachesOnly ..) s

theorem State.mergeCovered_keepsByte (s : State) {ls : List L1Line} {x : Loc}
    (h : ∀ l ∈ ls, l.line = lineAt x → l.covered.getLsbD (x % 128) = false) : State.KeepsByte x s (s.mergeCovered ls) :=
  foldl_related (State.KeepsByte.refl x) State.KeepsByte.trans ls (fun l hl u => u.mergeHome_keepsByte l.data (h l hl)) s

theorem State.mergeCovered_settles (s : State) (c : Nat) : s.Settles (s.mergeCovered (s.core c).l1) :=
  ⟨s.mergeCovered_cachesOnly _, fun _ hx => s.mergeCovered_keepsByte (fun _ hl hline => (State.l1_clear hx hl hline).2) hx⟩

/-- A line whose covered bytes have been written back. -/
def L1Line.drained (l : L1Line) : L1Line := { l with dirty := l.dirty &&& ~~~l.covered, covered := 0 }

theorem CoreSt.drained_mapL1 (k : CoreSt) (f : L1Line → L1Line) : k.Drained { k with l1 := k.l1.map f } :=
  ⟨rfl, rfl, rfl, fun e he => ⟨e, he, rfl, rfl, rfl, fun _ h => h⟩⟩

/-- Lines that are changed where they stand hold no byte more as dirty or covered than before. -/
theorem CoreSt.clearAt_mapL1 {k : CoreSt} {f : L1Line → L1Line} {x : Loc} (hline : ∀ l, (f l).line = l.line)
    (h : ∀ l : L1Line, l.dirty.getLsbD (x % 128) = false → l.covered.getLsbD (x % 128) = false →
      (f l).dirty.getLsbD (x % 128) = false ∧ (f l).covered.getLsbD (x % 128) = false) (hk : k.clearAt x) :
    CoreSt.clearAt { k with l1 := k.l1.map f } x := by
  obtain ⟨hl1, hwcb, hport⟩ := hk
  refine ⟨fun l' hl' hat => ?_, hwcb, hport⟩
  obtain ⟨l, hl, rfl⟩ := List.mem_map.1 hl'
  obtain ⟨hd, hc⟩ := hl1 l hl ((hline l).symm.trans hat)
  exact h l hd hc

theorem State.records_settles (s : State) (r : List (Nat × List Nat)) : s.Settles { s with records := r } :=
  ⟨⟨rfl, fun _ h => h, fun _ => .refl _, fun h => State.memOk_of_eq h rfl rfl rfl⟩, fun _ h => ⟨h, rfl⟩⟩

theorem State.drainCovered_settles (s : State) (c : Nat) : s.Settles (s.drainCovered c) := by
  have hcore : (s.mergeCovered (s.core c).l1).core c = s.core c := State.core_eq_of_cores (s.mergeCovered_cores _) c
  have hclean : (s.mergeCovered (s.core c).l1).Settles
      ((s.mergeCovered (s.core c).l1).modCore c fun k => { k with l1 := k.l1.map L1Line.drained }) := by
    refine State.modCore_settles c (State.core_id _ c) (CoreSt.drained_mapL1 _ _) fun x hx => CoreSt.clearAt_mapL1 (fun _ => rfl) ?_ hx
    intro l hd _
    exact ⟨by simp only [L1Line.drained, BitVec.getLsbD_and, hd, Bool.false_and], BitVec.getLsbD_zero⟩
  rw [State.modCore, hcore] at hclean
  exact ((s.mergeCovered_settles c).trans hclean).trans (State.records_settles _ _)

theorem State.serveRecords_settles (s : State) (line : Nat) : s.Settles (s.serveRecords line) :=
  foldl_related Settles.refl Settles.trans _ (fun c _ u => u.drainCovered_settles c) s

theorem State.recordCore_settles (s : State) (c line : Nat) : s.Settles (s.recordCore c line) := by
  rw [State.recordCore]
  split
  · exact .refl s
  · refine Settles.trans ?_ (State.records_settles _ _)
    split
    · exact s.drainCovered_settles _
    · exact .refl s

theorem State.stopeLine_settles (s : State) (line : Nat) : s.Settles (s.stopeLine line) :=
  (s.serveRecords_settles line).trans (State.recallHome_settles _ line)

/-! ## Write-backs and drains (R218, R220) -/

theorem CoreSt.l1?_some {k : CoreSt} {line : Nat} {l : L1Line} (h : k.l1? line = some l) : l ∈ k.l1 ∧ l.line = line :=
  ⟨List.mem_of_find?_eq_some h, by simpa using List.find?_some h⟩

theorem CoreSt.mem_setL1 {k : CoreSt} {l e : L1Line} (h : e ∈ (k.setL1 l).l1) : e = l ∨ e ∈ k.l1 := by
  simp only [CoreSt.setL1] at h
  split at h
  · obtain ⟨d, hd, rfl⟩ := List.mem_map.1 h
    split
    · exact .inl rfl
    · exact .inr hd
  · rcases List.mem_append.1 h with h | h
    · exact .inr h
    · exact .inl (List.mem_singleton.1 h)

theorem CoreSt.clearAt_setL1 {k : CoreSt} {l : L1Line} {x : Loc} (hk : k.clearAt x)
    (h : l.line = lineAt x → l.dirty.getLsbD (x % 128) = false ∧ l.covered.getLsbD (x % 128) = false) : (k.setL1 l).clearAt x := by
  obtain ⟨hl1, hwcb, hport⟩ := hk
  refine ⟨fun e he hat => ?_, hwcb, hport⟩
  rcases CoreSt.mem_setL1 he with rfl | he
  · exact h hat
  · exact hl1 e he hat

theorem CoreSt.drained_setL1 (k : CoreSt) (l : L1Line) : k.Drained (k.setL1 l) :=
  ⟨rfl, rfl, rfl, fun e he => ⟨e, he, rfl, rfl, rfl, fun _ h => h⟩⟩

theorem CoreSt.drained_dropL1 (k : CoreSt) (line : Nat) : k.Drained (k.dropL1 line) :=
  ⟨rfl, rfl, rfl, fun e he => ⟨e, he, rfl, rfl, rfl, fun _ h => h⟩⟩

theorem State.setL1_settles {s : State} {c : Nat} {l : L1Line} (h : ∀ x, (s.core c).clearAt x → l.line = lineAt x →
    l.dirty.getLsbD (x % 128) = false ∧ l.covered.getLsbD (x % 128) = false) : s.Settles (s.modCore c fun k => k.setL1 l) :=
  State.modCore_settles c (State.core_id s c) (CoreSt.drained_setL1 _ _) fun x hx => CoreSt.clearAt_setL1 hx (h x hx)

theorem State.dropL1_settles (s : State) (c line : Nat) : s.Settles (s.modCore c fun k => k.dropL1 line) :=
  State.modCore_settles c (State.core_id s c) (CoreSt.drained_dropL1 _ _) fun _ hx =>
    ⟨fun l hl => hx.1 l (List.mem_of_mem_filter hl), hx.2.1, hx.2.2⟩

theorem State.writeBack_settles (s : State) (c line : Nat) : s.Settles (s.writeBack c line) := by
  rw [State.writeBack]
  split
  · exact .refl s
  · next l hl =>
    obtain ⟨hmem, hline⟩ := CoreSt.l1?_some hl
    split
    · exact .refl s
    · refine Settles.trans (Settles.trans (s.mergeHome_settles l.data fun x hx hat => ?_) (State.setL1_settles fun x _ _ => ⟨?_, ?_⟩))
        (State.recordCore_settles _ c line)
      · exact (State.l1_clear hx hmem (hline.trans hat)).1
      · exact BitVec.getLsbD_zero
      · exact BitVec.getLsbD_zero

theorem State.evictLine_settles (s : State) (c line : Nat) : s.Settles (s.evictLine c line) :=
  (s.writeBack_settles c line).trans (State.dropL1_settles _ c line)

theorem State.free_settles (s : State) (n : Nat) : s.Settles { s with free := n } :=
  ⟨⟨rfl, fun _ h => h, fun _ => .refl _, fun h => State.memOk_of_eq h rfl rfl rfl⟩, fun _ h => ⟨h, rfl⟩⟩

theorem State.makeRoom_settles (s : State) (c line : Nat) : s.Settles (s.makeRoom c line) := by
  simp only [State.makeRoom]
  split
  · exact .refl s
  · split
    · exact .refl s
    · exact (s.evictLine_settles c _).trans (State.free_settles _ _)

/-- What a drain of the bytes `m` of an entry leaves of a core: its copy of the line holds them, clean, and so do the entries of
that line and window no more. -/
def CoreSt.tookBytes (k : CoreSt) (e : WcbEntry) (m : BitVec 128) : CoreSt :=
  let upd (l : L1Line) : L1Line :=
    if l.line = e.line then
      { l with data := mergeLine l.data e.data m, valid := l.valid ||| m, dirty := l.dirty &&& ~~~m, covered := l.covered &&& ~~~m }
    else l
  let left (f : WcbEntry) : WcbEntry :=
    if f.window = e.window ∧ f.line = e.line then { f with mask := f.mask &&& ~~~m } else f
  { k with l1 := k.l1.map upd, wcb := (k.wcb.map left).filter (fun f => f.mask != 0) }

theorem State.drainBytes_eq (s : State) (c : Nat) (e : WcbEntry) (m : BitVec 128) :
    s.drainBytes c e m = ((s.mergeHome e.line m e.data).modCore c fun k => k.tookBytes e m).recordCore c e.line := rfl

/-- An entry that a drain of bytes leaves. -/
theorem CoreSt.mem_tookBytes {k : CoreSt} {e g : WcbEntry} {m : BitVec 128} (h : g ∈ (k.tookBytes e m).wcb) :
    g.mask ≠ 0 ∧ ∃ f ∈ k.wcb, g.window = f.window ∧ g.line = f.line ∧ g.owners = f.owners ∧
      g.mask = if f.window = e.window ∧ f.line = e.line then f.mask &&& ~~~m else f.mask := by
  simp only [CoreSt.tookBytes, List.mem_filter, List.mem_map, bne_iff_ne] at h
  obtain ⟨⟨f, hf, rfl⟩, hne⟩ := h
  refine ⟨hne, f, hf, ?_⟩
  split <;> exact ⟨rfl, rfl, rfl, rfl⟩

theorem CoreSt.drained_tookBytes (k : CoreSt) (e : WcbEntry) (m : BitVec 128) : k.Drained (k.tookBytes e m) := by
  refine ⟨rfl, rfl, rfl, fun g hg => ?_⟩
  obtain ⟨-, f, hf, hw, hl, ho, hm⟩ := CoreSt.mem_tookBytes hg
  refine ⟨f, hf, hw, hl, ho, fun j hj => ?_⟩
  rw [hm] at hj
  split at hj
  · rw [BitVec.getLsbD_and, Bool.and_eq_true] at hj
    exact hj.1
  · exact hj

theorem CoreSt.clearAt_tookBytes {k : CoreSt} {e : WcbEntry} {m : BitVec 128} {x : Loc} (hk : k.clearAt x) : (k.tookBytes e m).clearAt x := by
  obtain ⟨hl1, hwcb, hport⟩ := hk
  refine ⟨fun l' hl' hat => ?_, fun g hg hat => ?_, hport⟩
  · obtain ⟨l, hl, rfl⟩ := List.mem_map.1 hl'
    split at hat
    · next hline =>
      obtain ⟨hd, hc⟩ := hl1 l hl hat
      simp only [if_pos hline, BitVec.getLsbD_and, hd, hc, Bool.false_and, and_self]
    · next hline =>
      rw [if_neg hline]
      exact hl1 l hl hat
  · obtain ⟨f, hf, -, hl, -, hm⟩ := (CoreSt.drained_tookBytes k e m).wcb g hg
    have hclear := hwcb f hf (hl.symm.trans hat)
    cases hbit : g.mask.getLsbD (x % 128) with
    | false => rfl
    | true => rw [hm _ hbit] at hclear; exact hclear

theorem State.tookBytes_settles (s : State) (c : Nat) (e : WcbEntry) (m : BitVec 128) : s.Settles (s.modCore c fun k => k.tookBytes e m) :=
  State.modCore_settles c (State.core_id s c) (CoreSt.drained_tookBytes ..) fun _ hx => CoreSt.clearAt_tookBytes hx

theorem State.drainBytes_cachesOnly (s : State) (c : Nat) (e : WcbEntry) (m : BitVec 128) : s.CachesOnly (s.drainBytes c e m) := by
  rw [State.drainBytes_eq]
  exact ((s.mergeHome_cachesOnly e.line m e.data).trans (State.tookBytes_settles _ c e m).toCachesOnly).trans
    (State.recordCore_settles _ c e.line).toCachesOnly

theorem State.drainBytes_keepsByte (s : State) (c : Nat) {e : WcbEntry} {m : BitVec 128} {x : Loc}
    (h : e.line = lineAt x → m.getLsbD (x % 128) = false) : State.KeepsByte x s (s.drainBytes c e m) := by
  rw [State.drainBytes_eq]
  exact ((s.mergeHome_keepsByte e.data h).trans ((State.tookBytes_settles _ c e m).keeps x)).trans
    ((State.recordCore_settles _ c e.line).keeps x)

theorem State.drainWcb_settles (s : State) (c : Nat) (p : WcbEntry → Bool) : s.Settles (s.drainWcb c p) := by
  refine ⟨foldl_related CachesOnly.refl CachesOnly.trans _ (fun e _ u => u.drainBytes_cachesOnly c e e.mask) s, fun x hx => ?_⟩
  refine foldl_related (State.KeepsByte.refl x) State.KeepsByte.trans _ (fun e he u => u.drainBytes_keepsByte c ?_) s hx
  exact State.wcb_clear hx (List.mem_of_mem_filter he)

theorem State.giveUpLine_settles (s : State) (c line : Nat) : s.Settles (s.giveUpLine c line) :=
  (s.drainWcb_settles c _).trans (State.evictLine_settles _ c line)

/-! ## Fills, releases, acquires (R218, R233, R237, R239, R241) -/

theorem State.fillLine_settles (s : State) (c line : Nat) : s.Settles (s.fillLine c line) := by
  simp only [State.fillLine]
  split
  · next l hl =>
    exact State.setL1_settles fun x hx hat => hx.1 l (CoreSt.l1?_some hl).1 hat
  · exact (s.makeRoom_settles c line).trans (State.setL1_settles fun x _ _ => ⟨BitVec.getLsbD_zero, BitVec.getLsbD_zero⟩)

theorem State.replicas_settles (s : State) (l : List (Nat × Nat)) : s.Settles { s with replicas := l } :=
  ⟨⟨rfl, fun _ h => h, fun _ => .refl _, fun h => State.memOk_of_eq h rfl rfl rfl⟩, fun _ h => ⟨h, rfl⟩⟩

/-- The core's copy of a line given up before an access of policy 2. -/
def State.gaveUp (s : State) (c x : Nat) (pol : BitVec 2) : State := if pol = 2 then s.evictLine c (lineAt x) else s

/-- The line is served before a load that misses takes it. -/
def State.servedFor (s : State) (c x n : Nat) (pol : BitVec 2) : State :=
  if (s.gaveUp c x pol).l1Holds c x n then s.gaveUp c x pol else (s.gaveUp c x pol).serveRecords (lineAt x)

/-- The line is filled by a load that misses, as its policy says. -/
def State.filledBy (s : State) (c x : Nat) (pol : BitVec 2) (hit : Bool) : State :=
  if hit || pol = 2 then s else if pol = 0 || ((s.core c).l1? (lineAt x)).isSome then s.fillLine c (lineAt x) else s

/-- A line whose home is another slice leaves a frozen copy in the slice of its reader. -/
def State.replicated (s : State) (c x : Nat) (hit : Bool) : State :=
  if s.keepsFrozen x && !hit && clusterOver x != c / 4 && !(s.replicas.contains (c / 4, lineAt x)) && s.sliceWays (c / 4) != 0 then
    { s with replicas := (c / 4, lineAt x) :: s.replicas }
  else s

/-- The bytes of a load that the core's copy of the line gives, over those at home. -/
def State.cachedBytes (s : State) (c x n : Nat) : Nat :=
  match (s.core c).l1? (lineAt x) with
  | none => s.peek x n
  | some l => overlay (s.peek x n) (lineBytes l.data (x % 128) n) l.valid.toNat (x % 128) n

/-- The state that a load of a line leaves. -/
def State.loadedBy (s : State) (c x n : Nat) (pol : BitVec 2) : State :=
  ((s.servedFor c x n pol).filledBy c x pol ((s.gaveUp c x pol).l1Holds c x n)).replicated c x ((s.gaveUp c x pol).l1Holds c x n)

theorem State.loadLine_eq (s : State) (c va x n : Nat) (pol : BitVec 2) : s.loadLine c va x n pol =
    if (s.servedFor c x n pol).homePoison c va x n true then (s.servedFor c x n pol, none)
    else (s.loadedBy c x n pol, some ((s.loadedBy c x n pol).wcbOver c va x n ((s.loadedBy c x n pol).cachedBytes c x n))) := by
  unfold State.loadLine
  extract_lets line s1 hit s2 bad s3 s4 home off cached
  have h1 : s.gaveUp c x pol = s1 := rfl
  have h2 : s.servedFor c x n pol = s2 := by rw [State.servedFor, h1]
  have h3 : s2.filledBy c x pol hit = s3 := rfl
  have h4 : s.loadedBy c x n pol = s4 := by rw [State.loadedBy, h1, h2, h3]; rfl
  have h5 : s4.cachedBytes c x n = cached := rfl
  rw [h2, h4, h5]

theorem State.gaveUp_settles (s : State) (c x : Nat) (pol : BitVec 2) : s.Settles (s.gaveUp c x pol) := by
  rw [State.gaveUp]
  split
  · exact s.evictLine_settles c _
  · exact .refl s

theorem State.servedFor_settles (s : State) (c x n : Nat) (pol : BitVec 2) : s.Settles (s.servedFor c x n pol) := by
  rw [State.servedFor]
  split
  · exact s.gaveUp_settles c x pol
  · exact (s.gaveUp_settles c x pol).trans (State.serveRecords_settles _ _)

theorem State.filledBy_settles (s : State) (c x : Nat) (pol : BitVec 2) (hit : Bool) : s.Settles (s.filledBy c x pol hit) := by
  rw [State.filledBy]
  split
  · exact .refl s
  · split
    · exact s.fillLine_settles c _
    · exact .refl s

theorem State.replicated_settles (s : State) (c x : Nat) (hit : Bool) : s.Settles (s.replicated c x hit) := by
  rw [State.replicated]
  split
  · exact s.replicas_settles _
  · exact .refl s

theorem State.loadedBy_settles (s : State) (c x n : Nat) (pol : BitVec 2) : s.Settles (s.loadedBy c x n pol) :=
  ((s.servedFor_settles c x n pol).trans (State.filledBy_settles ..)).trans (State.replicated_settles ..)

theorem State.loadLine_settles (s : State) (c va x n : Nat) (pol : BitVec 2) : s.Settles (s.loadLine c va x n pol).1 := by
  rw [State.loadLine_eq]
  split
  · exact s.servedFor_settles c x n pol
  · exact s.loadedBy_settles c x n pol

/-- A line whose dirty bytes are covered. -/
def L1Line.cover (l : L1Line) : L1Line := { l with covered := l.covered ||| l.dirty }

theorem State.coverCore_eq (s : State) (c : Nat) (key : ThreadKey) : s.coverCore c key =
    (s.drainWcb c fun e => e.owners.contains key).modCore c fun k => { k with l1 := k.l1.map L1Line.cover } := rfl

theorem State.coverCore_settles (s : State) (c : Nat) (key : ThreadKey) : s.Settles (s.coverCore c key) := by
  rw [State.coverCore_eq]
  refine (s.drainWcb_settles c _).trans (State.modCore_settles c (State.core_id _ c) (CoreSt.drained_mapL1 _ _) fun x hx =>
    CoreSt.clearAt_mapL1 (fun _ => rfl) (fun l hd hc => ⟨hd, ?_⟩) hx)
  simp only [L1Line.cover, BitVec.getLsbD_or, hd, hc, Bool.or_false]

theorem State.acquire_settles (s : State) (v : View) (sc : Scope) : s.Settles (s.acquire v sc) := by
  simp only [State.acquire]
  split
  · refine State.modCore_settles _ (State.core_id s _) ⟨rfl, rfl, rfl, fun e he => ⟨e, he, rfl, rfl, rfl, fun _ h => h⟩⟩ fun x hx =>
      ⟨fun l' hl' hat => ?_, hx.2⟩
    obtain ⟨l, hl, rfl⟩ := List.mem_map.1 (List.mem_of_mem_filter hl')
    split
    · next hf => rw [if_pos hf] at hat; exact hx.1 l hl hat
    · next hf => rw [if_neg hf] at hat; exact hx.1 l hl hat
  · exact .refl s

theorem State.scPoints_settles (s : State) (l : List (Nat × Nat)) : s.Settles { s with scPoints := l } :=
  ⟨⟨rfl, fun _ h => h, fun _ => .refl _, fun h => State.memOk_of_eq h rfl rfl rfl⟩, fun _ h => ⟨h, rfl⟩⟩

theorem State.orderPoint_settles (s : State) (v : View) (sc : Scope) : s.Settles (s.orderPoint v sc) :=
  (s.scPoints_settles _).trans (foldl_related Settles.refl Settles.trans _ (fun q _ u => u.drainCovered_settles q.2) _)

end Sys2Proof.Machine
end

section
/-! Plain loads (spec/05, R119; spec/01, R32; spec/10, R233 to R239): what stands before an access at its core's port, and what a load
reads and leaves. -/

namespace Sys2Proof.Machine

open Sys2Proof

set_option Elab.async false

/-! ## A clear port (R235, R236) -/

/-- What a clear port holds that an access of the thread at issue would meet there: nothing but reductions. -/
theorem State.portClear_iff (s : State) : s.portClear = true ↔
    (s.core (coreIndex s.thr.view)).port = [] ∧
    (∀ m ∈ s.msgs, m.op.answers = true → m.key ≠ s.thr.key ∧ coreIndex m.view ≠ coreIndex s.thr.view) ∧
    (∀ h ∈ s.held, h.key ≠ s.thr.key ∧ coreIndex h.view ≠ coreIndex s.thr.view) ∧
    ∀ h ∈ s.loads, coreIndex h.view ≠ coreIndex s.thr.view := by
  simp only [State.portClear, Bool.and_eq_true, List.isEmpty_iff, List.all_eq_true, bne_iff_ne, ne_eq, Bool.not_eq_true',
    Bool.and_eq_false_iff, Bool.or_eq_false_iff, beq_eq_false_iff_ne, and_assoc, ← imp_iff_not_or, Bool.not_eq_false]
  simp only [← Bool.not_eq_true, imp_iff_not_or]

theorem State.flushPort_of_empty {s : State} {c : Nat} (h : (s.core c).port = []) : s.flushPort c = s := by
  rw [State.flushPort, h]
  rfl

theorem State.performMsgs_of_none {s : State} {p : MemMsg → Bool} (h : ∀ m ∈ s.msgs, p m = false) : s.performMsgs p = s := by
  have hnone : s.msgs.filter p = [] := List.filter_eq_nil_iff.2 fun m hm => by simp [h m hm]
  rw [State.performMsgs, hnone]
  rfl

theorem State.flushAtoms_of_clear {s : State} (h : s.portClear = true) (line : Nat) : s.flushAtoms (coreIndex s.thr.view) line = s := by
  obtain ⟨-, hmsgs, -, -⟩ := s.portClear_iff.1 h
  rw [State.flushAtoms]
  split
  · rfl
  · refine State.performMsgs_of_none fun m hm => ?_
    cases hans : m.op.answers with
    | false => rfl
    | true => rw [beq_eq_false_iff_ne.2 (hmsgs m hm hans).2]; rfl

theorem State.portOpen_of_clear {s : State} (h : s.portClear = true) (j : PortItem) : s.portOpen (coreIndex s.thr.view) j = s := by
  rw [State.portOpen, State.flushPort_of_empty (s.portClear_iff.1 h).1]
  induction j.ranges with
  | nil => rfl
  | cons r l ih => rw [List.foldl_cons, State.flushAtoms_of_clear h, ih]

theorem State.portItems_first_of_clear {s : State} (h : s.portClear = true) (j : PortItem) :
    ∀ i ∈ s.portItems (coreIndex s.thr.view), i.first j = false := by
  obtain ⟨hport, hmsgs, hheld, hloads⟩ := s.portClear_iff.1 h
  have hheld' : s.held.filter (fun h => coreIndex h.view == coreIndex s.thr.view) = [] :=
    List.filter_eq_nil_iff.2 fun h hh => by simpa using (hheld h hh).2
  have hloads' : s.loads.filter (fun h => coreIndex h.view == coreIndex s.thr.view) = [] :=
    List.filter_eq_nil_iff.2 fun h hh => by simpa using hloads h hh
  rw [State.portItems, hport, hheld', hloads']
  intro i hi
  simp only [List.map_nil, List.nil_append, List.append_nil, List.mem_map, List.mem_filter, beq_iff_eq] at hi
  obtain ⟨m, ⟨hm, hcore⟩, rfl⟩ := hi
  have hans : m.op.answers = false := by
    cases hans : m.op.answers with
    | false => rfl
    | true => exact absurd hcore (hmsgs m hm hans).2
  simp only [PortItem.first, State.msgItem, hans, Bool.false_eq_true, if_false]

theorem State.portFree_of_clear {s : State} (h : s.portClear = true) (j : PortItem) :
    s.portFree (coreIndex s.thr.view) j = s.storageUp j := by
  have hnone : (s.portItems (coreIndex s.thr.view)).any (fun i => i.older j && i.first j) = false := by
    rw [List.any_eq_false]
    intro i hi
    rw [State.portItems_first_of_clear h j i hi, Bool.and_false]
    exact Bool.false_ne_true
  rw [State.portFree, hnone]
  rfl

/-! ## What reading leaves -/

theorem State.loadAt_settles (s : State) (v : View) (g : Seg) (va x n : Nat) : s.Settles (s.loadAt v g va x n).1 := by
  have hline := s.loadLine_settles (coreIndex v) va x n g.policy
  rw [State.loadAt]
  split
  · split <;> exact .refl s
  · split
    · dsimp only
      split <;> exact s.stopeLine_settles _
    · split
      · next heq => rw [heq] at hline; exact hline
      · next heq => rw [heq] at hline; exact hline

theorem State.nearAt_settles (s : State) (va x n : Nat) : s.Settles (s.nearAt va x n).1 := by
  have hline : s.Settles (if isDram x = true then s.stopeLine (lineAt x) else s) := by
    split
    · exact s.stopeLine_settles _
    · exact .refl s
  simp only [State.nearAt]
  generalize (if isDram x = true then s.stopeLine (lineAt x) else s) = s1 at hline ⊢
  split <;> exact hline

theorem State.readParts_settles (s : State) (v : View) (near : Bool) (g : Seg) (ps : List LoadPart) (acc : Nat) :
    s.Settles (s.readParts v near g ps acc).1 := by
  induction ps generalizing s acc with
  | nil => exact .refl s
  | cons p ps ih =>
    have hpart : s.Settles (if near then s.nearAt p.va p.loc p.size else s.loadAt v g p.va p.loc p.size).1 := by
      split
      · exact s.nearAt_settles ..
      · exact s.loadAt_settles ..
    rw [State.readParts]
    split
    · next heq =>
      rw [heq] at hpart
      exact hpart.trans (ih _ _)
    · exact hpart

/-- No thread has changed, and no settled byte. -/
structure State.Quiet (s t : State) : Prop where
  thr : t.thr = s.thr
  others : t.others = s.others
  keeps : ∀ x, State.KeepsByte x s t

theorem State.Settles.quiet {s t : State} (h : s.Settles t) : s.Quiet t :=
  ⟨(congrArg State.thr h.apart :), (congrArg State.others h.apart :), h.keeps⟩

theorem State.Quiet.trans {s t u : State} (h : s.Quiet t) (h' : t.Quiet u) : s.Quiet u :=
  ⟨h'.thr.trans h.thr, h'.others.trans h.others, fun x => (h.keeps x).trans (h'.keeps x)⟩

theorem State.Quiet.keepsMemory {s t : State} (h : s.Quiet t) (stored : List (Loc × Nat)) : s.keepsMemory t stored :=
  fun x hx _ => (h.keeps x hx).2

theorem State.serviceFault_quiet (s : State) (v : View) (kind va level entry : Nat) : s.Quiet (s.serviceFault v kind va level entry) := by
  rw [State.serviceFault]
  split <;> exact ⟨rfl, rfl, fun _ h => ⟨h, rfl⟩⟩

theorem State.loadFailure_quiet (s : State) (v : View) (near : Bool) (va : Nat) (r : XRes) : s.Quiet (s.loadFailure v near va r).1 := by
  cases r <;> first | exact (Settles.refl s).quiet | exact s.serviceFault_quiet ..

theorem State.loadPlaced_quiet (s : State) (v : View) (near : Bool) (g : Seg) (r : List LoadPart × Option (Nat × XRes)) :
    s.Quiet (s.loadPlaced v near g r).1 := by
  have hread := (s.readParts_settles v near g r.1 0).quiet
  rw [State.loadPlaced]
  split
  · next heq _ =>
    rw [heq] at hread
    exact hread.trans (State.loadFailure_quiet ..)
  · exact hread

/-- What a load of a thread meets at a clear port: it is read, or it fails at a place, or the port holds it. -/
theorem State.loadElems_of_clear {s : State} (hport : s.portClear = true) (hthread : s.thr.isHandler = false) (g : Seg)
    (ps : List (Nat × Nat × Nat)) :
    let r := s.placeParts s.thr g ps
    s.loadElems g ps =
      if r.1.all (fun p => isLane p.loc) then s.loadPlaced s.thr.view false g r
      else match !s.thr.acquireBelow s.thr.accessNum && s.storageUp (s.item .load (r.1.map fun p => (p.loc, p.size))), r.2 with
        | true, _ => s.loadPlaced s.thr.view false g r
        | false, some f => s.loadFailure s.thr.view false f.1 f.2
        | false, none => (s, .wait) := by
  intro r
  rw [State.loadElems, hthread, if_neg Bool.false_ne_true, State.portOpen_of_clear hport]
  dsimp only
  rw [State.portFree_of_clear hport] <;> rfl

theorem State.loadElems_quiet_of_clear {s : State} (hport : s.portClear = true) (hthread : s.thr.isHandler = false) (g : Seg)
    (ps : List (Nat × Nat × Nat)) : s.Quiet (s.loadElems g ps).1 := by
  rw [State.loadElems_of_clear hport hthread]
  split
  · exact s.loadPlaced_quiet ..
  · split
    · exact s.loadPlaced_quiet ..
    · exact s.loadFailure_quiet ..
    · exact (Settles.refl s).quiet

/-! ## The bytes of a load -/

theorem memRead_congr {m m' : Memory} {x n : Nat} (h : ∀ j, j < n → memGet m' (x + j) = memGet m (x + j)) :
    memRead m' x n = memRead m x n := by
  induction n generalizing x with
  | zero => rfl
  | succ n ih =>
    rw [memRead, memRead, show memGet m' x = memGet m x from h 0 (Nat.succ_pos n), ih fun j hj => ?_]
    rw [show x + 1 + j = x + (j + 1) by omega]
    exact h (j + 1) (Nat.succ_lt_succ hj)

theorem memRead_testBit (m : Memory) (x n i : Nat) :
    (memRead m x n).testBit i = (decide (i / 8 < n) && (memGet m (x + i / 8)).getLsbD (i % 8)) := by
  induction n generalizing x i with
  | zero => simp [memRead]
  | succ n ih =>
    have hbyte : (memGet m x).toNat < 2 ^ 8 := (memGet m x).isLt
    rw [memRead, show (256 : Nat) = 2 ^ 8 from rfl, Nat.add_comm, Nat.testBit_two_pow_mul_add _ hbyte]
    by_cases hi : i < 8
    · rw [if_pos hi, Nat.div_eq_of_lt hi, Nat.mod_eq_of_lt hi, decide_eq_true (Nat.succ_pos n)]
      rfl
    · rw [if_neg hi, ih, show (i - 8) / 8 = i / 8 - 1 by omega, show (i - 8) % 8 = i % 8 by omega,
        show x + 1 + (i / 8 - 1) = x + i / 8 by omega]
      congr 1
      exact decide_eq_decide.2 (by omega)

theorem memRead_lt (m : Memory) (x n : Nat) : memRead m x n < 256 ^ n := by
  induction n generalizing x with
  | zero => exact Nat.one_pos
  | succ n ih =>
    have hbyte : (memGet m x).toNat < 256 := (memGet m x).isLt
    have hrest := ih (x + 1)
    rw [memRead, Nat.pow_succ]
    omega

theorem spreadMask_testBit (m n i : Nat) : (spreadMask m n).testBit i = (decide (i / 8 < n) && m.testBit (i / 8)) ∧ spreadMask m n < 2 ^ (8 * n) := by
  induction n with
  | zero => simp [spreadMask]
  | succ n ih =>
    obtain ⟨hbit, hlt⟩ := ih
    have hbyte : (if m.testBit n then 255 * 256 ^ n else 0) = 2 ^ (8 * n) * (if m.testBit n then 255 else 0) := by
      rw [show (256 : Nat) = 2 ^ 8 from rfl, ← Nat.pow_mul]
      split <;> omega
    rw [spreadMask, hbyte, Nat.add_comm]
    refine ⟨?_, ?_⟩
    · rw [Nat.testBit_two_pow_mul_add _ hlt]
      by_cases hi : i < 8 * n
      · rw [if_pos hi, hbit, decide_eq_true (by omega : i / 8 < n), decide_eq_true (by omega : i / 8 < n + 1)]
      · rw [if_neg hi]
        by_cases hn : i / 8 = n
        · rw [decide_eq_true (by omega : i / 8 < n + 1), hn, Bool.true_and]
          have hj : i - 8 * n < 8 := by omega
          split
          · next hm =>
            rw [hm, show (255 : Nat) = 2 ^ 8 - 1 from rfl, Nat.testBit_two_pow_sub_one]
            exact decide_eq_true hj
          · next hm => rw [Nat.zero_testBit]; exact (Bool.not_eq_true _ ▸ hm : m.testBit n = false).symm
        · rw [decide_eq_false (by omega : ¬i / 8 < n + 1), Bool.false_and]
          refine Nat.testBit_lt_two_pow (Nat.lt_of_lt_of_le (?_ : _ < 2 ^ 8) (Nat.pow_le_pow_right Nat.two_pos (by omega)))
          split <;> decide
    · have hpow : 2 ^ (8 * (n + 1)) = 2 ^ (8 * n) * 256 := by rw [Nat.mul_succ, Nat.pow_add]
      rw [hpow]
      split <;> nlinarith

/-- Bytes laid over others that they agree with change nothing. -/
theorem overlay_eq_of_agree {base top mask off n : Nat} (hbase : base < 256 ^ n)
    (h : ∀ i, i / 8 < n → mask.testBit (off + i / 8) = true → top.testBit i = base.testBit i) : overlay base top mask off n = base := by
  have hwidth : 256 ^ n = 2 ^ (8 * n) := by rw [show (256 : Nat) = 2 ^ 8 from rfl, ← Nat.pow_mul]
  rw [hwidth] at hbase
  apply Nat.eq_of_testBit_eq
  intro i
  have hk := (spreadMask_testBit (mask / 2 ^ off % 2 ^ n) n i).1
  have hlt := (spreadMask_testBit (mask / 2 ^ off % 2 ^ n) n i).2
  rw [overlay]
  rw [Nat.testBit_or, Nat.testBit_and, Nat.testBit_and, Nat.sub_right_comm, Nat.sub_sub, Nat.testBit_two_pow_sub_succ hlt, hk]
  by_cases hi : i / 8 < n
  · rw [decide_eq_true hi, decide_eq_true (by omega : i < 8 * n), Nat.testBit_mod_two_pow, decide_eq_true hi,
      ← Nat.shiftRight_eq_div_pow, Nat.testBit_shiftRight]
    cases hm : mask.testBit (off + i / 8) with
    | false => simp
    | true => simp [h i hi hm]
  · rw [decide_eq_false hi, Nat.testBit_lt_two_pow (Nat.lt_of_lt_of_le hbase (Nat.pow_le_pow_right Nat.two_pos (by omega)))]
    simp

/-- The bytes of a range that is settled are the same to read. -/
theorem State.Settles.memRead_eq {s t : State} (h : s.Settles t) {x n : Nat} (hx : s.settledRange x n) :
    memRead t.mem x n = memRead s.mem x n :=
  memRead_congr fun j hj => (h.keeps (x + j) (hx j hj)).2

theorem State.Settles.settledRange {s t : State} (h : s.Settles t) {x n : Nat} (hx : s.settledRange x n) : t.settledRange x n :=
  fun j hj => (h.keeps (x + j) (hx j hj)).1

theorem State.CachesOnly.poisoned_eq_false {s t : State} (h : s.CachesOnly t) {x n : Nat} (hx : s.poisoned x n = false) :
    t.poisoned x n = false := by
  rw [State.poisoned, Bool.and_eq_false_iff, List.any_eq_false] at hx ⊢
  exact hx.imp_right fun hx w hw => hx w (h.poison w hw)

theorem State.homePoison_of_not_poisoned {s : State} {x n : Nat} (c va : Nat) (cached : Bool) (h : s.poisoned x n = false) :
    s.homePoison c va x n cached = false := by
  have hword : ∀ i < n, wordAt (x + i) ∉ s.poison := by
    intro i hi hmem
    rw [State.poisoned, Bool.and_eq_false_iff, List.any_eq_false] at h
    rcases h with h | h
    · simp only [bne_eq_false_iff_eq] at h
      omega
    · refine h _ hmem ?_
      have hlo : x / 8 ≤ (x + i) / 8 := Nat.div_le_div_right (by omega)
      have hhi : (x + i) / 8 ≤ (x + n - 1) / 8 := Nat.div_le_div_right (by omega)
      rw [Bool.and_eq_true, decide_eq_true_eq, decide_eq_true_eq]
      exact ⟨hlo, hhi⟩
  rw [State.homePoison, Bool.and_eq_false_iff]
  refine .inr ?_
  rw [List.any_eq_false]
  intro i hi
  simp only [List.mem_range] at hi
  simp [hword i hi]

theorem State.wcbOver_of_no_window {s : State} {c va : Nat} (x n v : Nat) (h : ∀ e ∈ (s.core c).wcb, e.window ≠ va / 128) :
    s.wcbOver c va x n v = v := by
  rw [State.wcbOver]
  revert h v
  generalize (s.core c).wcb = l
  intro v h
  induction l with
  | nil => rfl
  | cons e l ih =>
    rw [List.foldl_cons, if_neg (by simpa using h e (List.mem_cons_self ..))]
    exact ih fun f hf => h f (List.mem_cons_of_mem _ hf)

theorem State.CachesOnly.no_window {s t : State} (h : s.CachesOnly t) {c w : Nat} (hs : ∀ e ∈ (s.core c).wcb, e.window ≠ w) :
    ∀ e ∈ (t.core c).wcb, e.window ≠ w := by
  intro e he
  obtain ⟨f, hf, hw, -⟩ := (h.cores c).wcb e he
  rw [hw]
  exact hs f hf

/-! ## A line of which the core holds nothing -/

theorem find_replaced_line {l : L1Line} (ls : List L1Line) (hany : ls.any (fun k => k.line == l.line) = true) :
    (ls.map fun k => if k.line == l.line then l else k).find? (fun k => k.line == l.line) = some l := by
  induction ls with
  | nil => exact absurd hany (by simp)
  | cons d ls ih =>
    rw [List.map_cons, List.find?_cons]
    by_cases hd : d.line = l.line
    · rw [if_pos (beq_iff_eq.2 hd), beq_self_eq_true]
    · rw [if_neg (by simpa using hd), beq_eq_false_iff_ne.2 hd]
      rw [List.any_cons, beq_eq_false_iff_ne.2 hd, Bool.false_or] at hany
      exact ih hany

theorem CoreSt.l1?_setL1 (k : CoreSt) (l : L1Line) : (k.setL1 l).l1? l.line = some l := by
  rw [CoreSt.l1?, CoreSt.setL1]
  split
  · next hany => exact find_replaced_line _ hany
  · next hany =>
    have hnone : k.l1.find? (fun d => d.line == l.line) = none := by
      rw [List.find?_eq_none]
      exact fun d hd h => hany (List.any_eq_true.2 ⟨d, hd, h⟩)
    rw [List.find?_append, hnone, List.find?_singleton, beq_self_eq_true]
    rfl

theorem CoreSt.l1?_none_iff (k : CoreSt) (line : Nat) : k.l1? line = none ↔ ∀ l ∈ k.l1, l.line ≠ line := by
  simp [CoreSt.l1?, List.find?_eq_none]

theorem State.drainCovered_core (s : State) (d c : Nat) :
    (s.drainCovered d).core c = if c = d then { s.core d with l1 := (s.core d).l1.map L1Line.drained } else s.core c := by
  have hset := State.core_setCore (s.mergeCovered (s.core d).l1) { s.core d with l1 := (s.core d).l1.map L1Line.drained } c
  rw [State.core_eq_of_cores (s.mergeCovered_cores _)] at hset
  have hid : (c = (s.core d).id) = (c = d) := by rw [State.core_id]
  exact (hset : (s.drainCovered d).core c = _).trans (if_congr (iff_of_eq hid) rfl rfl)

theorem State.serveRecords_l1?_none {s : State} {c line : Nat} (h : (s.core c).l1? line = none) (at_ : Nat) :
    ((s.serveRecords at_).core c).l1? line = none := by
  refine foldl_related (R := fun u v : State => (u.core c).l1? line = none → (v.core c).l1? line = none) (fun _ => id)
    (fun h h' hu => h' (h hu)) _ (fun d _ u hu => ?_) s h
  rw [State.drainCovered_core]
  split
  · next hcd =>
    rw [CoreSt.l1?_none_iff] at hu ⊢
    intro l' hl'
    obtain ⟨l, hl, rfl⟩ := List.mem_map.1 hl'
    exact hu l (by rw [hcd]; exact hl)
  · exact hu

theorem State.gaveUp_l1?_none {s : State} {c x : Nat} (h : (s.core c).l1? (lineAt x) = none) (pol : BitVec 2) :
    ((s.gaveUp c x pol).core c).l1? (lineAt x) = none := by
  rw [State.gaveUp]
  split
  · have hwrite : s.writeBack c (lineAt x) = s := by rw [State.writeBack, h]
    have hid : ((s.core c).dropL1 (lineAt x)).id = c := State.core_id s c
    rw [State.evictLine, hwrite, State.core_modCore s c c hid, if_pos rfl, CoreSt.l1?_none_iff]
    intro l hl
    simpa using (List.mem_filter.1 hl).2
  · exact h

theorem State.l1Holds_of_none {s : State} {c x : Nat} (n : Nat) (h : (s.core c).l1? (lineAt x) = none) : s.l1Holds c x n = false := by
  rw [State.l1Holds, h]

theorem State.servedFor_l1?_none {s : State} {c x : Nat} (n : Nat) (pol : BitVec 2) (h : (s.core c).l1? (lineAt x) = none) :
    ((s.servedFor c x n pol).core c).l1? (lineAt x) = none := by
  rw [State.servedFor, State.l1Holds_of_none n (State.gaveUp_l1?_none h pol)]
  exact State.serveRecords_l1?_none (State.gaveUp_l1?_none h pol) _

theorem State.replicated_core (s : State) (c x : Nat) (hit : Bool) (d : Nat) :
    (s.replicated c x hit).core d = s.core d ∧ (s.replicated c x hit).mem = s.mem := by
  rw [State.replicated]
  split <;> exact ⟨rfl, rfl⟩

/-- The bytes of a line that has just been filled are those at home. -/
theorem State.cachedBytes_fillLine {s : State} {c x n : Nat} (hnone : (s.core c).l1? (lineAt x) = none) (hx : s.settledRange x n) :
    (s.fillLine c (lineAt x)).cachedBytes c x n = memRead s.mem x n := by
  have hfill := s.fillLine_settles c (lineAt x)
  have hread : (s.fillLine c (lineAt x)).peek x n = memRead s.mem x n := hfill.memRead_eq hx
  have hline : ∃ (ok : BitVec 128) (fz : Bool), ((s.fillLine c (lineAt x)).core c).l1? (lineAt x) =
      some ⟨lineAt x, ok, 0, 0, fz, s.homeLine (lineAt x)⟩ := by
    simp only [State.fillLine, hnone]
    have hset (l : L1Line) : (((s.makeRoom c (lineAt x)).modCore c fun k => k.setL1 l).core c).l1? l.line = some l := by
      rw [State.core_modCore _ c c (State.core_id _ c), if_pos rfl, CoreSt.l1?_setL1]
    exact ⟨_, _, hset _⟩
  obtain ⟨ok, fz, hline⟩ := hline
  rw [State.cachedBytes, hline, hread]
  refine overlay_eq_of_agree (memRead_lt ..) fun i hi hvalid => ?_
  have hin : x % 128 + i / 8 < 128 := by
    by_contra hout
    have hok : ok.toNat.testBit (x % 128 + i / 8) = false := BitVec.getLsbD_of_ge ok _ (by omega)
    rw [hok] at hvalid
    exact Bool.noConfusion hvalid
  have hdiv : x = 128 * lineAt x + x % 128 := (Nat.div_add_mod x 128).symm
  have h256 : ∀ k, (256 : Nat) ^ k = 2 ^ (8 * k) := fun k => by rw [show (256 : Nat) = 2 ^ 8 from rfl, ← Nat.pow_mul]
  rw [lineBytes, h256, h256, Nat.testBit_mod_two_pow, ← Nat.shiftRight_eq_div_pow, Nat.testBit_shiftRight, decide_eq_true (by omega),
    Bool.true_and, State.homeLine, BitVec.toNat_ofNat, Nat.testBit_mod_two_pow, decide_eq_true (by omega), Bool.true_and, State.peek,
    memRead_testBit, memRead_testBit, decide_eq_true hi, decide_eq_true (by omega), show (8 * (x % 128) + i) / 8 = x % 128 + i / 8 by omega,
    show (8 * (x % 128) + i) % 8 = i % 8 by omega, ← Nat.add_assoc, ← hdiv]

theorem State.cachedBytes_filledBy {s : State} {c x n : Nat} (pol : BitVec 2) (hit : Bool) (hnone : (s.core c).l1? (lineAt x) = none)
    (hx : s.settledRange x n) : (s.filledBy c x pol hit).cachedBytes c x n = memRead s.mem x n := by
  have hhome : s.cachedBytes c x n = memRead s.mem x n := by rw [State.cachedBytes, hnone]; rfl
  rw [State.filledBy]
  split
  · exact hhome
  · split
    · exact State.cachedBytes_fillLine hnone hx
    · exact hhome

/-- A load of a line of which the core holds nothing reads the bytes at home. -/
theorem State.loadLine_of_absent {s : State} {c va x n : Nat} (pol : BitVec 2) (hpoison : s.poisoned x n = false)
    (hx : s.settledRange x n) (hnone : (s.core c).l1? (lineAt x) = none) (hwindow : ∀ e ∈ (s.core c).wcb, e.window ≠ va / 128) :
    (s.loadLine c va x n pol).2 = some (memRead s.mem x n) := by
  have hserve := s.servedFor_settles c x n pol
  have hload := s.loadedBy_settles c x n pol
  rw [State.loadLine_eq, State.homePoison_of_not_poisoned c va true (hserve.poisoned_eq_false hpoison), if_neg Bool.false_ne_true]
  dsimp only
  rw [State.wcbOver_of_no_window _ _ _ (hload.no_window hwindow)]
  have hcached : (s.loadedBy c x n pol).cachedBytes c x n = memRead (s.servedFor c x n pol).mem x n := by
    have hfilled := State.cachedBytes_filledBy pol ((s.gaveUp c x pol).l1Holds c x n) (State.servedFor_l1?_none n pol hnone) (hserve.settledRange hx)
    obtain ⟨hcore, hmem⟩ := State.replicated_core ((s.servedFor c x n pol).filledBy c x pol ((s.gaveUp c x pol).l1Holds c x n)) c x
      ((s.gaveUp c x pol).l1Holds c x n) c
    rw [← hfilled, State.loadedBy, State.cachedBytes, State.cachedBytes, hcore, State.peek, State.peek, hmem]
  rw [hcached, hserve.memRead_eq hx]

theorem State.loadAt_of_absent {s : State} {v : View} {va x n : Nat} (g : Seg) (hpoison : s.poisoned x n = false)
    (hx : s.settledRange x n) (hnone : (s.core (coreIndex v)).l1? (lineAt x) = none)
    (hwindow : ∀ e ∈ (s.core (coreIndex v)).wcb, e.window ≠ va / 128) : (s.loadAt v g va x n).2 = .value (memRead s.mem x n) := by
  have hline := State.loadLine_of_absent g.policy hpoison hx hnone hwindow
  have hstope := s.stopeLine_settles (lineAt x)
  rw [State.loadAt]
  split
  · rw [hpoison]
    rfl
  · split
    · dsimp only
      rw [State.homePoison_of_not_poisoned _ va false (hstope.poisoned_eq_false hpoison), if_neg Bool.false_ne_true,
        State.wcbOver_of_no_window _ _ _ (hstope.no_window hwindow)]
      exact congrArg LoadRes.value (hstope.memRead_eq hx)
    · split
      · next heq => rw [heq] at hline; exact congrArg LoadRes.value (Option.some.inj hline)
      · next heq => rw [heq] at hline; exact absurd hline (by simp)

theorem State.nearAt_of_settled {s : State} (va : Nat) {x n : Nat} (hpoison : s.poisoned x n = false) (hx : s.settledRange x n) :
    (s.nearAt va x n).2 = .value (memRead s.mem x n) := by
  have hline : s.Settles (if isDram x = true then s.stopeLine (lineAt x) else s) := by
    split
    · exact s.stopeLine_settles _
    · exact .refl s
  simp only [State.nearAt]
  generalize (if isDram x = true then s.stopeLine (lineAt x) else s) = s1 at hline ⊢
  rw [hline.poisoned_eq_false hpoison, if_neg Bool.false_ne_true]
  exact congrArg LoadRes.value (hline.memRead_eq hx)

/-! ## The pending entry of a load (R32) -/

/-- The pending entry of the unit at issue for a load, as what the load meets makes it. -/
def Thread.loadPend (t : Thread) (d : Dest) (left : Nat) (w : PendWait) (value : VWord) : Pend :=
  ⟨t.pendSeq, d, left, false, value, fullMask, 0, t.unitPc, w, t.hstate, t.accessNum, false⟩

/-- What an entry waits for after what its load meets. -/
def LoadRes.entryWait : LoadRes → PendWait
  | .value _ => .value
  | .park va => .park va false
  | .fault c va => .fault c va false
  | .wait => .port

/-- What an entry holds after what its load meets. -/
def LoadRes.entryValue (conv : Nat → VWord) : LoadRes → VWord
  | .value v => conv v
  | .park _ | .fault _ _ | .wait => 0

/-- A unit that is complete with one more pending entry, from a state in which no thread and no settled byte has changed. -/
theorem State.Quiet.completes_with_entry {s s1 t : State} (h : s.Quiet s1) (d : Dest) (left : Nat) (w : PendWait) (value : VWord)
    (ht : t.thr = (s.thr.addEntry s.thr.accessNum false d left w value fullMask 0).advance) (hothers : t.others = s1.others)
    (hkeeps : ∀ x, State.KeepsByte x s1 t) :
    s.passed t ∧ s.gains t (s.thr.loadPend d left w value) d left ∧ s.keepsMemory t [] := by
  refine ⟨⟨sameRegs_of ?_ (hothers.trans h.others), ?_, ?_, ?_⟩, ⟨?_, ?_, rfl, rfl, rfl, rfl, rfl, rfl, rfl⟩, fun x hx _ => ?_⟩
  · rw [ht]; rfl
  · rw [ht]; rfl
  · rw [ht]; rfl
  · rw [ht]; rfl
  · rw [ht]; exact List.length_append
  · rw [ht]; exact List.getLast?_concat ..
  · exact ((h.keeps x).trans (hkeeps x) hx).2

/-- A load of a thread makes its entry and completes, whatever it meets (R119). -/
theorem State.loadUnit_of_thread {s s1 : State} {g : Seg} {ps : List (Nat × Nat × Nat)} {r : LoadRes} (hthread : s.thr.isHandler = false)
    (hr : s.loadElems g ps = (s1, r)) (h : s.Quiet s1) (d : Dest) (left sx : Nat) :
    let e := s.thr.loadPend d left r.entryWait (r.entryValue (loadConv sx))
    s.passed (s.loadUnit g ps d left sx) ∧ s.gains (s.loadUnit g ps d left sx) e d left ∧ s.keepsMemory (s.loadUnit g ps d left sx) [] := by
  have hkeeps (t : State) (hmem : t.mem = s1.mem) (hsettled : t.settled = s1.settled) (x : Loc) : State.KeepsByte x s1 t :=
    fun hx => ⟨by rw [hsettled]; exact hx, by rw [hmem]⟩
  cases r with
  | wait =>
    have hunit : s.loadUnit g ps d left sx = s1.holdLoad g ps d left sx none := by simp only [State.loadUnit, hr, hthread]
    rw [hunit]
    exact h.completes_with_entry d left .port 0 (by rw [← h.thr]; rfl) rfl (hkeeps _ rfl rfl)
  | value v =>
    have hunit : s.loadUnit g ps d left sx = s1.onThr fun t => (t.loadEntry false d left (.value v) (loadConv sx)).advance := by
      simp only [State.loadUnit, hr, hthread]
    rw [hunit]
    exact h.completes_with_entry d left .value (loadConv sx v) (by rw [← h.thr]; rfl) rfl (hkeeps _ rfl rfl)
  | park va =>
    have hunit : s.loadUnit g ps d left sx = s1.onThr fun t => (t.loadEntry false d left (.park va) (loadConv sx)).advance := by
      simp only [State.loadUnit, hr, hthread]
    rw [hunit]
    exact h.completes_with_entry d left (.park va false) 0 (by rw [← h.thr]; rfl) rfl (hkeeps _ rfl rfl)
  | fault c va =>
    have hunit : s.loadUnit g ps d left sx = s1.onThr fun t => (t.loadEntry false d left (.fault c va) (loadConv sx)).advance := by
      simp only [State.loadUnit, hr, hthread]
    rw [hunit]
    exact h.completes_with_entry d left (.fault c va false) 0 (by rw [← h.thr]; rfl) rfl (hkeeps _ rfl rfl)

/-! ## A load of one piece -/

/-- An access within one line of its window is one piece. -/
theorem Seg.loadParts_of_line {g : Seg} {n off : Nat} (hpos : 0 < n) (hline : (g.base.toNat + off) % 128 + n ≤ 128) :
    g.loadParts n [(0, off)] = [(off, n, 0)] := by
  simp [Seg.loadParts, Seg.pieces, linePieces, Nat.ne_of_gt hpos, hline]

theorem State.placeParts_one_ok {s : State} {g : Seg} {off n : Nat} {x : Loc} (h : s.placeLoad s.thr g off n = .ok x) :
    s.placeParts s.thr g [(off, n, 0)] = ([⟨g.base.toNat + off, x, n, 0⟩], none) := by
  simp only [State.placeParts, h]

theorem State.placeParts_one_deny {s : State} {g : Seg} {off n : Nat} (h : s.placeLoad s.thr g off n = .deny) :
    s.placeParts s.thr g [(off, n, 0)] = ([], some (g.base.toNat + off, .deny)) := by
  simp only [State.placeParts, h]

theorem State.frameCheck_ok {s : State} {i : Island} {x y : Loc} {load : Bool} (h : s.frameCheck i y load = .ok x) : x = y := by
  simp only [State.frameCheck] at h
  split at h
  · split at h
    · exact (XRes.ok.inj h).symm
    · exact absurd h (by simp)
  · split at h
    · split at h
      · exact (XRes.ok.inj h).symm
      · exact absurd h (by simp)
    · exact absurd h (by simp)

theorem State.frameCheck_ne_deny (s : State) (i : Island) (y : Loc) (load : Bool) : s.frameCheck i y load ≠ .deny := by
  simp only [State.frameCheck]
  split
  · split <;> simp
  · split
    · split <;> simp
    · simp

theorem State.locate_of_isDram {s : State} {v : View} {g : Seg} {off : Nat} (h : g.isDram = true) (n : Need) (load : Bool) :
    s.locate v g off n load = match s.island? v.island with
      | none => .owner
      | some i => s.resolveVa i v.cluster (g.base.toNat + off) n load := by
  have hspace : g.space = spInter ∨ g.space = spBank ∨ g.space = spCode := by
    simpa [Seg.isDram, or_assoc] using h
  rw [State.locate]
  rcases hspace with h | h | h <;> rw [h] <;> rfl

/-- A load of a thread finds its bytes where any access does. -/
theorem State.placeLoad_of_locate {s : State} (hthread : s.thr.isHandler = false) {g : Seg} {off : Nat} (n : Nat) {r : XRes}
    (h : s.locate s.thr.view g off needR true = r) (hr : r = .deny ∨ ∃ x, r = .ok x) : s.placeLoad s.thr g off n = r := by
  rw [State.placeLoad, hthread, Bool.false_or]
  by_cases hdram : g.isDram = true
  · rw [hdram, if_neg (by simp)]
    rw [State.locate_of_isDram hdram] at h
    cases hi : s.island? s.thr.view.island with
    | none =>
      rw [hi] at h
      exact h
    | some i =>
      rw [hi] at h
      simp only [State.resolveVa] at h
      cases hx : translate s i s.thr.view.cluster (g.base.toNat + off) needR with
      | ok y =>
        simp only [hx] at h ⊢
        split
        · rcases hr with hr | ⟨x, hr⟩
          · exact absurd (h.trans hr) (s.frameCheck_ne_deny i y true)
          · rw [hr, State.frameCheck_ok (h.trans hr)]
        · exact h
      | _ => simpa only [hx] using h
  · rw [Bool.not_eq_true] at hdram
    rw [hdram, if_pos (by rfl), State.place, hthread]
    exact h

theorem State.readParts_one {s : State} (v : View) (near : Bool) (g : Seg) (va x n val : Nat)
    (h : (if near then s.nearAt va x n else s.loadAt v g va x n).2 = .value val) :
    (s.readParts v near g [⟨va, x, n, 0⟩] 0).2 = .value val := by
  rw [State.readParts]
  dsimp only
  split
  · next heq =>
    rw [heq] at h
    simp only [State.readParts, LoadRes.value.injEq] at h ⊢
    omega
  · exact h

theorem State.loadPlaced_one {s : State} (v : View) (near : Bool) (g : Seg) (va x n val : Nat)
    (h : (if near then s.nearAt va x n else s.loadAt v g va x n).2 = .value val) :
    (s.loadPlaced v near g ([⟨va, x, n, 0⟩], none)).2 = .value val := by
  rw [State.loadPlaced]
  split
  · next heq => simp at heq
  · exact s.readParts_one v near g va x n val h

/-- The bytes of a load of one piece that nothing stands before, where its storage is in order. -/
theorem State.loadElems_one_of_ready {s : State} (hready : s.readReady = true) (hthread : s.thr.isHandler = false) {g : Seg} {off n : Nat}
    {x : Loc} (hplace : s.placeLoad s.thr g off n = .ok x) (hup : s.padHealth x ≠ .failed) {v : Nat}
    (h : (s.loadAt s.thr.view g (g.base.toNat + off) x n).2 = .value v) : (s.loadElems g [(off, n, 0)]).2 = .value v := by
  obtain ⟨hacquire, hport⟩ := Bool.and_eq_true_iff.1 hready
  have hread := s.loadPlaced_one s.thr.view false g (g.base.toNat + off) x n v h
  have hfree : (!s.thr.acquireBelow s.thr.accessNum && s.storageUp (s.item .load [(x, n)])) = true := by
    rw [hacquire, Bool.true_and]
    simpa [State.storageUp, State.item] using hup
  rw [State.loadElems_of_clear hport hthread, State.placeParts_one_ok hplace]
  simp only [List.map_cons, List.map_nil, hfree]
  split <;> exact hread

/-- A load behind an acquire of its thread waits at the port, and changes nothing (R239). -/
theorem State.loadElems_one_held {s : State} (hport : s.portClear = true) (hthread : s.thr.isHandler = false)
    (hacquire : s.thr.acquireBelow s.thr.accessNum = true) {g : Seg} {off n : Nat} {x : Loc}
    (hplace : s.placeLoad s.thr g off n = .ok x) (hlane : isLane x = false) : s.loadElems g [(off, n, 0)] = (s, .wait) := by
  rw [State.loadElems_of_clear hport hthread, State.placeParts_one_ok hplace]
  simp only [List.all_cons, hlane, Bool.false_and, Bool.false_eq_true, if_false, hacquire, Bool.not_true]

/-- A load without the right to its page faults there (R292). -/
theorem State.loadElems_one_denied {s : State} (hport : s.portClear = true) (hthread : s.thr.isHandler = false) {g : Seg} {off n : Nat}
    (hplace : s.placeLoad s.thr g off n = .deny) : (s.loadElems g [(off, n, 0)]).2 = .fault .pageRight (g.base.toNat + off) := by
  rw [State.loadElems_of_clear hport hthread, State.placeParts_one_deny hplace]
  rfl

/-- A handler's load of one piece reads its bank group (R190). -/
theorem State.loadUnit_of_handler {s : State} (hhandler : s.thr.isHandler = true) {g : Seg} {off n : Nat} {x : Loc}
    (hplace : s.placeLoad s.thr g off n = .ok x) (hpoison : s.poisoned x n = false) (hx : s.settledRange x n) (d : Dest) (left sx : Nat) :
    let e := s.thr.loadPend d left .value (loadConv sx (memRead s.mem x n))
    let t := s.loadUnit g [(off, n, 0)] d left sx
    s.passed t ∧ s.gains t e d left ∧ s.keepsMemory t [] := by
  intro e t
  have hread := s.loadPlaced_one s.thr.view true g (g.base.toNat + off) x n _ (State.nearAt_of_settled _ hpoison hx)
  have helems : s.loadElems g [(off, n, 0)] = s.loadPlaced s.thr.view true g ([⟨g.base.toNat + off, x, n, 0⟩], none) := by
    rw [State.loadElems, hhandler, State.placeParts_one_ok hplace]
    rfl
  have hquiet := s.loadPlaced_quiet s.thr.view true g ([⟨g.base.toNat + off, x, n, 0⟩], none)
  rw [← helems] at hread hquiet
  have hunit : t = (s.loadElems g [(off, n, 0)]).1.onThr fun u =>
      (u.loadEntry false d left (.value (memRead s.mem x n)) (loadConv sx)).advance := by
    simp only [t, State.loadUnit, hread, hhandler]
  rw [hunit]
  refine hquiet.completes_with_entry d left .value (loadConv sx (memRead s.mem x n)) ?_ rfl fun x hx => ⟨hx, rfl⟩
  rw [← hquiet.thr]
  rfl

/-! ## Far loads (R219, R310) -/

theorem lineBytes_one_lt (d : BitVec 1024) (off : Nat) : lineBytes d off 1 < 256 := by
  rw [lineBytes]
  exact Nat.mod_lt _ (by decide)

theorem State.farByte?_lt {s : State} {isl fmod a b : Nat} (h : s.farByte? isl fmod a = some b) : b < 256 := by
  obtain ⟨l, -, hl⟩ := Option.bind_eq_some_iff.1 h
  split at hl
  · rw [← Option.some.inj hl]
    exact lineBytes_one_lt ..
  · exact absurd hl (by simp)

theorem partBytes_one (va n : Nat) : partBytes [(va, n)] = (List.range n).map fun i => va + i := by
  simp [partBytes]

/-- What the caches hold of a far access is a value of its bytes. -/
theorem State.farHeld_lt {s : State} {isl fmod va n v : Nat} (h : s.farHeld isl fmod [(va, n)] = some v) : v < 256 ^ n := by
  have hbytes : ∀ (l : List Nat) (v : Nat), l.foldr (fun a acc => match s.farByte? isl fmod a, acc with
      | some b, some v => some (b + 256 * v)
      | _, _ => none) (some 0) = some v → v < 256 ^ l.length := by
    intro l
    induction l with
    | nil => intro v hv; rw [← Option.some.inj hv]; exact Nat.one_pos
    | cons a l ih =>
      intro v hv
      rw [List.foldr_cons] at hv
      split at hv
      · next b w hb hw =>
        have hlo := State.farByte?_lt hb
        have hhi := ih w hw
        rw [← Option.some.inj hv, List.length_cons, Nat.pow_succ]
        omega
      · exact absurd hv (by simp)
  have hlt := hbytes _ v h
  rwa [partBytes_one, List.length_map, List.length_range] at hlt

theorem State.farHeld_of_no_lines {s : State} (isl fmod va : Nat) {n : Nat} (hpos : 0 < n) (h : s.farLines = []) :
    s.farHeld isl fmod [(va, n)] = none := by
  obtain ⟨m, rfl⟩ : ∃ m, n = m + 1 := ⟨n - 1, by omega⟩
  rw [State.farHeld, partBytes_one, List.range_succ_eq_map, List.map_cons, List.foldr_cons]
  simp only [State.farByte?, h, List.find?_nil, Option.bind_none]

theorem State.farSend_quiet (s : State) (entry : Option Nat) (va size fmod : Nat) (parts : List (Nat × Nat)) (sx upTo : Nat) :
    s.Quiet (s.farSend entry va size fmod parts sx upTo) :=
  ⟨rfl, rfl, fun x hs => State.setCore_keepsByte (fun h => by dsimp only at h; rw [State.core_id] at h; exact h) hs⟩

theorem State.farLoad_completes (s : State) (g : Seg) (d : Dest) (left : Nat) (parts : List (Nat × Nat)) (sx : Nat) :
    let held := if g.policy = 2 || s.thr.acquireBelow s.thr.accessNum then none else s.farHeld s.thr.view.island g.fmod.toNat parts
    let e := match held with
      | some v => s.thr.loadPend d left .value (loadConv sx v)
      | none => s.thr.loadPend d left .far 0
    let t := s.farLoad g d left parts sx
    s.passed t ∧ s.gains t e d left ∧ s.keepsMemory t [] := by
  intro held e t
  have hfar : t = match held with
      | some v => s.onThr (fun t => (t.loadEntry false d left (.value v) (loadConv sx)).advance)
      | none => (s.farSend (some s.thr.pendSeq) (parts.headD (0, 0)).1 ((parts.map (·.2)).foldl (· + ·) 0) g.fmod.toNat parts sx
          s.thr.accessNum).onThr (fun t => (t.addPend d left .far 0 fullMask 0).advance) := rfl
  rw [hfar]
  cases hheld : held with
  | some v =>
    have he : e = s.thr.loadPend d left .value (loadConv sx v) := by simp only [e, hheld]
    rw [he]
    exact (Settles.refl s).quiet.completes_with_entry d left .value (loadConv sx v) rfl rfl fun x hx => ⟨hx, rfl⟩
  | none =>
    have he : e = s.thr.loadPend d left .far 0 := by simp only [e, hheld]
    rw [he]
    have hquiet := s.farSend_quiet (some s.thr.pendSeq) (parts.headD (0, 0)).1 ((parts.map (·.2)).foldl (· + ·) 0) g.fmod.toNat parts sx
      s.thr.accessNum
    exact hquiet.completes_with_entry d left .far 0 rfl rfl fun x hx => ⟨hx, rfl⟩

/-! ## The statement -/

/-- A load whose checks pass goes to far memory, or is made at its segment (R119, R310). -/
theorem State.load_of_passes {s : State} {sg : BitVec 3} {off : Word} {n : Nat} (h : s.accCheck sg off.toNat n n rightR .load = none)
    (d : Dest) (la : BitVec 4) (sx : Nat) : s.load sg off n d la sx =
      let g := s.thr.seg sg
      if g.space = spFar then s.farLoad g d (s.thr.lookahead la) [(g.base.toNat + off.toNat, n)] sx
      else s.loadUnit g (g.loadParts n [(0, off.toNat)]) d (s.thr.lookahead la) sx := by
  rw [State.load, h]
  rfl

/-- Settles O37: a load makes its entry whatever it meets; where its bytes are found and nothing under way changes them, it reads them. -/
theorem loadsComplete : Obligations.LoadsComplete := by
  unfold Obligations.LoadsComplete
  intro i s f hform hpass
  obtain ⟨sx, hexec, hpos, hconv⟩ := exec_of_loadForm hform
  rw [State.load_of_passes hpass] at hexec
  intro g va c
  have hload (hspace : g.space ≠ spFar) : exec i s = .next (s.loadUnit g (g.loadParts f.n [(0, f.off.toNat)]) f.d (s.thr.lookahead f.la) sx) :=
    hexec.trans (congrArg Host.Outcome.next (if_neg hspace))
  have hone (hspace : g.space ≠ spFar) (hline : va % 128 + f.n ≤ 128) :
      exec i s = .next (s.loadUnit g [(f.off.toNat, f.n, 0)] f.d (s.thr.lookahead f.la) sx) := by
    rw [hload hspace, Seg.loadParts_of_line hpos hline]
  refine ⟨fun hhandler hspace hline x hx hpoison hsettled => ?_, fun hthread hacquire hport hspace hline x hx hlane => ?_,
    fun hthread hready => ?_⟩
  · have hplace : s.placeLoad s.thr g f.off.toNat f.n = .ok x := by rw [State.placeLoad, hhandler, Bool.true_or, if_pos rfl]; exact hx
    obtain ⟨hpassed, hgains, hkeeps⟩ := State.loadUnit_of_handler hhandler hplace hpoison hsettled f.d (s.thr.lookahead f.la) sx
    exact ⟨_, _, hone hspace hline, hpassed, hgains, hkeeps, rfl, hconv _ (memRead_lt ..)⟩
  · have hplace := State.placeLoad_of_locate hthread f.n hx (.inr ⟨x, rfl⟩)
    have hheld := State.loadElems_one_held hport hthread hacquire hplace hlane
    obtain ⟨hpassed, hgains, hkeeps⟩ := State.loadUnit_of_thread hthread hheld (State.Settles.refl s).quiet f.d (s.thr.lookahead f.la) sx
    have hunit : s.loadUnit g [(f.off.toNat, f.n, 0)] f.d (s.thr.lookahead f.la) sx =
        s.holdLoad g [(f.off.toNat, f.n, 0)] f.d (s.thr.lookahead f.la) sx none := by simp only [State.loadUnit, hheld, hthread]
    refine ⟨_, _, ⟨s.thr.key, s.thr.view, s.thr.pendSeq, s.thr.accessNum, s.portOrd, g, (s.placeParts s.thr g [(f.off.toNat, f.n, 0)]).1, sx, none⟩,
      hone hspace hline, hpassed, hgains, hkeeps, rfl, by rw [hunit]; rfl, rfl, rfl, ?_, rfl⟩
    rw [State.placeParts_one_ok hplace]
    rfl
  · obtain ⟨hacquire, hport⟩ := Bool.and_eq_true_iff.1 hready
    rw [Bool.not_eq_true'] at hacquire
    by_cases hspace : g.space = spFar
    · have hfar : exec i s = .next (s.farLoad g f.d (s.thr.lookahead f.la) [(va, f.n)] sx) :=
        hexec.trans (congrArg Host.Outcome.next (if_pos hspace))
      obtain ⟨hpassed, hgains, hkeeps⟩ := s.farLoad_completes g f.d (s.thr.lookahead f.la) [(va, f.n)] sx
      refine ⟨_, _, hfar, hpassed, hgains, hkeeps, fun _ hpolicy => ?_, fun v _ hpolicy hheld => ?_, fun hne => absurd hspace hne⟩
      · have hnone : (if g.policy = 2 || s.thr.acquireBelow s.thr.accessNum then none
            else s.farHeld s.thr.view.island g.fmod.toNat [(va, f.n)]) = none := by
          rcases hpolicy with hpolicy | hlines
          · rw [hpolicy]; rfl
          · split
            · rfl
            · exact State.farHeld_of_no_lines _ _ _ hpos hlines
        rw [hnone]
        rfl
      · have hsome : (if g.policy = 2 || s.thr.acquireBelow s.thr.accessNum then none
            else s.farHeld s.thr.view.island g.fmod.toNat [(va, f.n)]) = some v := by
          rw [hacquire, Bool.or_false, if_neg (by simpa using hpolicy), hheld]
        rw [hsome]
        exact ⟨rfl, hconv v (State.farHeld_lt hheld)⟩
    · have hquiet := State.loadElems_quiet_of_clear hport hthread g (g.loadParts f.n [(0, f.off.toNat)])
      obtain ⟨s1, r, hr⟩ : ∃ s1 r, s.loadElems g (g.loadParts f.n [(0, f.off.toNat)]) = (s1, r) := ⟨_, _, rfl⟩
      rw [hr] at hquiet
      obtain ⟨hpassed, hgains, hkeeps⟩ := State.loadUnit_of_thread hthread hr hquiet f.d (s.thr.lookahead f.la) sx
      refine ⟨_, _, hload hspace, hpassed, hgains, hkeeps, fun hfar => absurd hfar hspace, fun _ hfar => absurd hfar hspace,
        fun _ hline => ⟨fun x hx hpoison hup hsettled hl1 hwindow => ?_, fun hdeny => ?_⟩⟩
      · have hplace := State.placeLoad_of_locate hthread f.n hx (.inr ⟨x, rfl⟩)
        have hvalue := State.loadElems_one_of_ready hready hthread hplace hup
          (State.loadAt_of_absent g hpoison hsettled (Option.isNone_iff_eq_none.1 hl1) hwindow)
        rw [Seg.loadParts_of_line hpos hline] at hr
        rw [hr] at hvalue
        subst hvalue
        exact ⟨rfl, hconv _ (memRead_lt ..)⟩
      · have hplace := State.placeLoad_of_locate hthread f.n hdeny (.inl rfl)
        have hfault := State.loadElems_one_denied hport hthread hplace
        rw [Seg.loadParts_of_line hpos hline] at hr
        rw [hr] at hfault
        subst hfault
        rfl

end Sys2Proof.Machine
end

section
/-! FENCE and DRAIN (spec/05, R134, R135; spec/10, R237 to R241): the performance of a thread's messages, and what a fence leaves. -/

namespace Sys2Proof.Machine

open Sys2Proof

set_option Elab.async false

/-! ## What the performance of messages leaves -/

/-- Some of a thread's pending entries have their answers: nothing else of it has changed, and no access is open that was not. -/
structure Thread.Answered (u u' : Thread) : Prop where
  rest : u' = { u with pending := u'.pending }
  openBelow : ∀ n, u.openBelow n = false → u'.openBelow n = false

theorem Thread.Answered.refl (u : Thread) : u.Answered u := ⟨rfl, fun _ h => h⟩

theorem Thread.Answered.trans {u v w : Thread} (h : u.Answered v) (h' : v.Answered w) : u.Answered w :=
  ⟨by rw [h'.rest, h.rest], fun n hn => h'.openBelow n (h.openBelow n hn)⟩

theorem Thread.Answered.key {u u' : Thread} (h : u.Answered u') : u'.key = u.key := by rw [h.rest]
theorem Thread.Answered.view {u u' : Thread} (h : u.Answered u') : u'.view = u.view := by rw [h.rest]
theorem Thread.Answered.named {u u' : Thread} (h : u.Answered u') : u'.named = u.named := by rw [h.rest]; rfl

/-- An entry that is given an answer is open no more. -/
theorem Thread.modPend_answered (u : Thread) (i : Nat) {f : Pend → Pend} (hf : ∀ e, (f e).isOpen = false) : u.Answered (u.modPend i f) := by
  refine ⟨rfl, fun n hn => ?_⟩
  simp only [Thread.openBelow, Thread.modPend, Bool.or_eq_false_iff, List.any_eq_false] at hn ⊢
  obtain ⟨hpending, hreplay⟩ := hn
  refine ⟨fun e' he' => ?_, hreplay⟩
  obtain ⟨e, he, rfl⟩ := List.mem_map.1 he'
  split
  · rw [hf, Bool.false_and]; exact Bool.false_ne_true
  · exact hpending e he

theorem Thread.deliverOld_answered (u : Thread) (i bytes old : Nat) : u.Answered (u.deliverOld i bytes old) := by
  simp only [Thread.deliverOld]
  split
  · exact (u.modPend_answered i fun _ => rfl).trans (Thread.modPend_answered _ _ fun _ => rfl)
  · exact u.modPend_answered i fun _ => rfl

theorem Thread.failOld_answered (u : Thread) (i bytes : Nat) (c : Cause) (va : Nat) : u.Answered (u.failOld i bytes c va) := by
  simp only [Thread.failOld]
  split
  · exact (u.modPend_answered i fun _ => rfl).trans (Thread.modPend_answered _ _ fun _ => rfl)
  · exact u.modPend_answered i fun _ => rfl

/-- The state without its memory and caches, its threads, and what is on its way to memory. -/
def State.beyond (s : State) : State := { s.apart with thr := Thread.blank (.crew 0 0 0), others := [], msgs := [], faults := [] }

/-- Messages have been performed: entries of threads have answers, messages have left, faults have been recorded, and memory and
caches have changed. -/
structure State.Performed (s t : State) : Prop where
  beyond : t.beyond = s.beyond
  threads : ∃ f : Thread → Thread, (∀ u : Thread, u.Answered (f u)) ∧ t.thr = f s.thr ∧ t.others = s.others.map f
  msgs : ∀ m ∈ t.msgs, m ∈ s.msgs
  cores : ∀ c, (s.core c).Drained (t.core c)

theorem State.Performed.refl (s : State) : s.Performed s :=
  ⟨rfl, ⟨id, Thread.Answered.refl, rfl, (List.map_id _).symm⟩, fun _ h => h, fun _ => .refl _⟩

theorem State.Performed.trans {s t u : State} (h : s.Performed t) (h' : t.Performed u) : s.Performed u := by
  obtain ⟨f, hf, hthr, hothers⟩ := h.threads
  obtain ⟨f', hf', hthr', hothers'⟩ := h'.threads
  exact ⟨h'.beyond.trans h.beyond, ⟨f' ∘ f, fun u => (hf u).trans (hf' (f u)), by rw [hthr', hthr]; rfl,
    by rw [hothers', hothers, List.map_map]⟩, fun m hm => h.msgs m (h'.msgs m hm), fun c => (h.cores c).trans (h'.cores c)⟩

theorem State.CachesOnly.performed {s t : State} (h : s.CachesOnly t) : s.Performed t := by
  have hthr : t.thr = s.thr := (congrArg State.thr h.apart :)
  have hothers : t.others = s.others := (congrArg State.others h.apart :)
  have hmsgs : t.msgs = s.msgs := (congrArg State.msgs h.apart :)
  refine ⟨?_, ⟨id, Thread.Answered.refl, hthr, hothers.trans (List.map_id _).symm⟩, fun m hm => hmsgs ▸ hm, h.cores⟩
  rw [State.beyond, State.beyond, h.apart]

theorem State.modThread_performed (s : State) (k : ThreadKey) {f : Thread → Thread} (hf : ∀ u : Thread, u.Answered (f u)) :
    s.Performed (s.modThread k f) := by
  refine ⟨rfl, ⟨fun u => if u.key == k then f u else u, fun u => ?_, rfl, rfl⟩, fun _ h => h, fun _ => .refl _⟩
  dsimp only
  split
  · exact hf u
  · exact .refl u

theorem State.Performed.portClear {s t : State} (h : s.Performed t) (hs : s.portClear = true) : t.portClear = true := by
  obtain ⟨f, hf, hthr, -⟩ := h.threads
  have hheld : t.held = s.held := (congrArg State.held h.beyond :)
  have hloads : t.loads = s.loads := (congrArg State.loads h.beyond :)
  rw [State.portClear_iff] at hs ⊢
  obtain ⟨hport, hmsgs, hheldOk, hloadsOk⟩ := hs
  rw [hthr, (hf _).key, (hf _).view, hheld, hloads]
  exact ⟨(h.cores _).port.trans hport, fun m hm => hmsgs m (h.msgs m hm), hheldOk, hloadsOk⟩

theorem State.Performed.thread? {s t : State} (h : s.Performed t) (k : ThreadKey) :
    ∃ f : Thread → Thread, (∀ u : Thread, u.Answered (f u)) ∧ t.thread? k = (s.thread? k).map f := by
  obtain ⟨f, hf, hthr, hothers⟩ := h.threads
  have hkey : (fun u => u.key == k) ∘ f = fun u => u.key == k := funext fun u => by simp only [Function.comp, (hf u).key]
  refine ⟨f, hf, ?_⟩
  rw [State.thread?, State.thread?, State.threads, State.threads, hthr, hothers, ← List.map_cons, List.find?_map, hkey]

/-- Is nothing in the way of a message but what is at its core's port: no earlier access of its thread is open, its storage is in
order, and its engine works (R131, R236, R300, R357). -/
def State.letsThrough (s : State) (m : MemMsg) : Prop :=
  s.opensBelow m.key m.upTo = false ∧ s.padHealth m.loc ≠ .failed ∧ s.bankStopped m.loc = false

theorem State.Performed.opensBelow {s t : State} (h : s.Performed t) {k : ThreadKey} {n : Nat} (hs : s.opensBelow k n = false) :
    t.opensBelow k n = false := by
  obtain ⟨f, hf, hthread⟩ := h.thread? k
  rw [State.opensBelow] at hs ⊢
  rw [hthread]
  cases hk : s.thread? k with
  | none => rfl
  | some u =>
    rw [hk] at hs
    exact (hf u).openBelow n hs

theorem State.Performed.padHealth {s t : State} (h : s.Performed t) (x : Loc) : t.padHealth x = s.padHealth x := by
  have hretired : t.retiredUnits = s.retiredUnits := (congrArg State.retiredUnits h.beyond :)
  rw [State.padHealth, State.padHealth, (h.cores _).health, hretired]

theorem State.Performed.letsThrough {s t : State} (h : s.Performed t) {m : MemMsg} (hs : s.letsThrough m) : t.letsThrough m := by
  obtain ⟨hopen, hhealth, hbank⟩ := hs
  have hdies : t.dies = s.dies := (congrArg State.dies h.beyond :)
  refine ⟨h.opensBelow hopen, by rwa [h.padHealth], ?_⟩
  rwa [State.bankStopped, State.stackStopped, hdies]

theorem State.Performed.wayGone {s t : State} (h : s.Performed t) (k : ThreadKey) (x : Loc) (va : Nat) : t.wayGone k x va = s.wayGone k x va := by
  obtain ⟨f, hf, hthread⟩ := h.thread? k
  have hislands (n : Nat) : t.island? n = s.island? n := (congrArg (fun u : State => u.island? n) h.beyond :)
  have hbind : (t.thread? k).bind (fun u => t.island? u.view.island) = (s.thread? k).bind fun u => s.island? u.view.island := by
    rw [hthread, Option.bind_map]
    refine congrArg _ (funext fun u => ?_)
    simp only [Function.comp, (hf u).view, hislands]
  rw [State.wayGone, State.wayGone, hbind]

theorem State.letsThrough_of_msgReady {s : State} {m : MemMsg} (h : s.msgReady m = true) : s.letsThrough m := by
  simp only [State.msgReady, Bool.and_eq_true, Bool.not_eq_true', State.storageUp, State.msgItem, List.all_cons, List.all_nil,
    bne_iff_ne] at h
  obtain ⟨⟨⟨hopen, hhealth, -⟩, hbank⟩, -⟩ := h
  exact ⟨hopen, hhealth, hbank⟩

theorem State.msgReady_of_clear {s : State} (hport : s.portClear = true) {m : MemMsg} (hcore : coreIndex m.view = coreIndex s.thr.view)
    (h : s.letsThrough m) : s.msgReady m = true := by
  obtain ⟨hopen, hhealth, hbank⟩ := h
  have hnone : (s.portItems (coreIndex s.thr.view)).any (fun i => i.kind != .atom && i.older (s.msgItem m) && i.first (s.msgItem m)) = false := by
    rw [List.any_eq_false]
    intro i hi
    rw [State.portItems_first_of_clear hport _ i hi, Bool.and_false]
    exact Bool.false_ne_true
  have hup : s.storageUp (s.msgItem m) = true := by
    simp only [State.storageUp, State.msgItem, List.all_cons, List.all_nil, Bool.and_true, bne_iff_ne]
    exact hhealth
  simp only [State.msgReady, hcore, hnone, hopen, hbank, hup, Bool.not_false, Bool.and_true]

/-! ## One message -/

theorem State.poke_performed (s : State) (x n v : Nat) : s.Performed (s.poke x n v) := by
  rcases s.poke_cases x n v with ⟨-, h⟩ | ⟨-, h⟩ <;> rw [h]
  · exact .refl s
  · exact ⟨rfl, ⟨id, Thread.Answered.refl, rfl, (List.map_id _).symm⟩, fun _ h => h, fun _ => .refl _⟩

theorem State.poke_keepsByte {s : State} {x n : Nat} (v : Nat) {y : Loc} (h : y < x ∨ x + n ≤ y) : State.KeepsByte y s (s.poke x n v) := by
  rcases s.poke_cases x n v with ⟨-, hp⟩ | ⟨-, hp⟩ <;> rw [hp]
  · exact .refl y s
  · exact fun hs => ⟨hs, memGet_memWrite_of_outside _ _ _ _ h⟩

/-- The line of an operation at memory is served and recalled first. -/
theorem State.applyAt_eq (s : State) (x : Loc) (bytes : Nat) (op : MemOp) (a b : BitVec 128) : ∃ (s1 : State) (v : Nat),
    s.Settles s1 ∧ (s.applyAt x bytes op a b).1 = s1.poke x bytes v := by
  refine ⟨if isDram x then s.stopeLine (lineAt x) else s, _, ?_, rfl⟩
  split
  · exact s.stopeLine_settles _
  · exact .refl s

theorem State.applyAt_performed (s : State) (x : Loc) (bytes : Nat) (op : MemOp) (a b : BitVec 128) :
    s.Performed (s.applyAt x bytes op a b).1 := by
  obtain ⟨s1, v, hs1, heq⟩ := s.applyAt_eq x bytes op a b
  rw [heq]
  exact hs1.toCachesOnly.performed.trans (s1.poke_performed x bytes v)

theorem State.applyAt_keepsByte {s : State} {x : Loc} {bytes : Nat} (op : MemOp) (a b : BitVec 128) {y : Loc}
    (h : y < x ∨ x + bytes ≤ y) : State.KeepsByte y s (s.applyAt x bytes op a b).1 := by
  obtain ⟨s1, v, hs1, heq⟩ := s.applyAt_eq x bytes op a b
  rw [heq]
  exact (hs1.keeps y).trans (State.poke_keepsByte v h)

theorem State.storeFault_performed (s : State) (core : Nat) (key : ThreadKey) (pc va size : Nat) (red : Bool) (c : Cause) :
    s.Performed (s.storeFault core key pc va size red c) :=
  ⟨rfl, ⟨id, Thread.Answered.refl, rfl, (List.map_id _).symm⟩, fun _ h => h, fun _ => .refl _⟩

theorem State.lateFault_performed (s : State) (core : Nat) (key : ThreadKey) (pc va size : Nat) (red : Bool) (c : Cause) :
    s.Performed (s.lateFault core key pc va size red c) := by
  rw [State.lateFault]
  split
  · exact .refl s
  · exact s.storeFault_performed ..

/-- The message leaves, and its core gives up the line that it reaches. -/
def State.withdraw (s : State) (m : MemMsg) : State :=
  if isDram m.loc then State.giveUpLine { s with msgs := s.msgs.erase m } (coreIndex m.view) (lineAt m.loc)
  else { s with msgs := s.msgs.erase m }

theorem State.withdraw_settles (s : State) (m : MemMsg) : State.Settles { s with msgs := s.msgs.erase m } (s.withdraw m) := by
  rw [State.withdraw]
  split
  · exact State.giveUpLine_settles _ _ _
  · exact .refl _

theorem State.withdraw_msgs (s : State) (m : MemMsg) : (s.withdraw m).msgs = s.msgs.erase m :=
  (congrArg State.msgs (s.withdraw_settles m).apart :)

theorem State.withdraw_performed (s : State) (m : MemMsg) : s.Performed (s.withdraw m) := by
  have herase : s.Performed { s with msgs := s.msgs.erase m } :=
    ⟨rfl, ⟨id, Thread.Answered.refl, rfl, (List.map_id _).symm⟩, fun n hn => List.mem_of_mem_erase hn, fun _ => .refl _⟩
  exact herase.trans (s.withdraw_settles m).toCachesOnly.performed

theorem State.withdraw_keepsByte (s : State) (m : MemMsg) (x : Loc) : State.KeepsByte x s (s.withdraw m) := by
  have herase : State.KeepsByte x s { s with msgs := s.msgs.erase m } := by
    refine fun hs => ⟨?_, rfl⟩
    rw [State.settled_iff] at hs ⊢
    obtain ⟨hcores, hbeyond⟩ := hs
    refine ⟨hcores, ?_⟩
    simp only [State.clearBeyond, Bool.and_eq_true, List.all_eq_true] at hbeyond ⊢
    exact ⟨fun n hn => hbeyond.1 n (List.mem_of_mem_erase hn), hbeyond.2⟩
  exact herase.trans ((s.withdraw_settles m).keeps x)

/-- What keeps a message from being performed at its place. -/
def State.refusal (s : State) (m : MemMsg) : Option Cause :=
  if s.isFrozen m.loc then some .frozen
  else if s.wayGone m.key m.loc m.va then some .scratchBound
  else if m.op.answers && s.poisoned m.loc m.bytes then some .poison
  else none

theorem State.performOne_eq (s : State) (m : MemMsg) : s.performOne m =
    match (s.withdraw m).refusal m, m.entry with
    | some c, some i => (s.withdraw m).modThread m.key (fun t => t.failOld i m.bytes c m.va)
    | some c, none => (s.withdraw m).lateFault (coreIndex m.view) m.key m.pc m.va m.bytes true c
    | none, some i => ((s.withdraw m).applyAt m.loc m.bytes m.op m.a m.b).1.modThread m.key
        (fun t => t.deliverOld i m.bytes ((s.withdraw m).applyAt m.loc m.bytes m.op m.a m.b).2)
    | none, none => ((s.withdraw m).applyAt m.loc m.bytes m.op m.a m.b).1 := by
  unfold State.performOne
  extract_lets s0 s1 bad
  have h1 : s.withdraw m = s1 := rfl
  have hbad : s1.refusal m = bad := rfl
  rw [h1, hbad]
  cases bad <;> cases m.entry <;> rfl

theorem State.performOne_performed (s : State) (m : MemMsg) : s.Performed (s.performOne m) := by
  have hwithdraw := s.withdraw_performed m
  have happly := (s.withdraw m).applyAt_performed m.loc m.bytes m.op m.a m.b
  rw [State.performOne_eq]
  split
  · exact hwithdraw.trans (State.modThread_performed _ _ fun u => u.failOld_answered ..)
  · exact hwithdraw.trans (State.lateFault_performed ..)
  · exact (hwithdraw.trans happly).trans (State.modThread_performed _ _ fun u => u.deliverOld_answered ..)
  · exact hwithdraw.trans happly

/-- A settled byte is outside the reach of every message. -/
theorem State.outside_of_settled {s : State} {x : Loc} (hs : s.settled x = true) {m : MemMsg} (hm : m ∈ s.msgs) :
    x < m.loc ∨ m.loc + m.bytes ≤ x := by
  obtain ⟨-, hbeyond⟩ := (s.settled_iff x).1 hs
  simp only [State.clearBeyond, Bool.and_eq_true, List.all_eq_true] at hbeyond
  simpa using hbeyond.1 m hm

theorem State.performOne_keepsByte {s : State} {m : MemMsg} (hm : m ∈ s.msgs) (x : Loc) : State.KeepsByte x s (s.performOne m) := by
  intro hs
  have happly := State.applyAt_keepsByte (s := s.withdraw m) m.op m.a m.b (State.outside_of_settled hs hm)
  have hall : State.KeepsByte x s (s.performOne m) := by
    have hwithdraw := s.withdraw_keepsByte m x
    rw [State.performOne_eq]
    split
    · exact hwithdraw.trans fun h => ⟨h, rfl⟩
    · refine hwithdraw.trans ?_
      rw [State.lateFault]
      split <;> exact fun h => ⟨h, rfl⟩
    · exact (hwithdraw.trans happly).trans fun h => ⟨h, rfl⟩
    · exact hwithdraw.trans happly
  exact hall hs

theorem State.applyAt_msgs (s : State) (x : Loc) (bytes : Nat) (op : MemOp) (a b : BitVec 128) :
    (s.applyAt x bytes op a b).1.msgs = s.msgs ∧ (s.applyAt x bytes op a b).1.faults = s.faults := by
  obtain ⟨s1, v, hs1, heq⟩ := s.applyAt_eq x bytes op a b
  have hmsgs : s1.msgs = s.msgs := (congrArg State.msgs hs1.apart :)
  have hfaults : s1.faults = s.faults := (congrArg State.faults hs1.apart :)
  rw [heq, State.poke_msgs, State.poke_faults]
  exact ⟨hmsgs, hfaults⟩

theorem State.performOne_msgs (s : State) (m : MemMsg) : (s.performOne m).msgs = s.msgs.erase m := by
  have happly := ((s.withdraw m).applyAt_msgs m.loc m.bytes m.op m.a m.b).1
  rw [← s.withdraw_msgs m, State.performOne_eq]
  split
  · rfl
  · rw [State.lateFault]
    split <;> rfl
  · exact happly
  · exact happly

/-- A reduction that nothing keeps from its place makes no record. -/
theorem State.performOne_faults {s : State} {m : MemMsg} (hans : m.op.answers = false) (hfrozen : s.isFrozen m.loc = false)
    (hway : s.wayGone m.key m.loc m.va = false) : (s.performOne m).faults = s.faults := by
  have hwithdraw : (s.withdraw m).faults = s.faults := (congrArg State.faults (s.withdraw_settles m).apart :)
  have happly := ((s.withdraw m).applyAt_msgs m.loc m.bytes m.op m.a m.b).2
  have hrefusal : (s.withdraw m).refusal m = none := by
    have hfrozen' : (s.withdraw m).isFrozen m.loc = s.isFrozen m.loc :=
      (congrArg (fun u : State => u.isFrozen m.loc) (s.withdraw_settles m).apart :)
    have hway' : (s.withdraw m).wayGone m.key m.loc m.va = s.wayGone m.key m.loc m.va :=
      (congrArg (fun u : State => u.wayGone m.key m.loc m.va) (s.withdraw_settles m).apart :)
    rw [State.refusal, hfrozen', hfrozen, hway', hway, hans]
    rfl
  rw [State.performOne_eq, hrefusal]
  split
  · next heq _ => exact absurd heq (by simp)
  · next heq _ => exact absurd heq (by simp)
  · exact happly.trans hwithdraw
  · exact happly.trans hwithdraw

/-! ## The messages of the thread at issue -/

/-- A message of the thread at issue that a clear port lets go alone: it answers nothing, it is of the thread's core, and nothing
else is in its way. -/
structure State.GoesAlone (s : State) (m : MemMsg) : Prop where
  key : m.key = s.thr.key
  core : coreIndex m.view = coreIndex s.thr.view
  answers : m.op.answers = false
  lets : s.letsThrough m

theorem State.Performed.goesAlone {s t : State} (h : s.Performed t) {m : MemMsg} (hm : s.GoesAlone m) : t.GoesAlone m := by
  obtain ⟨f, hf, hthr, -⟩ := h.threads
  exact ⟨by rw [hthr, (hf _).key]; exact hm.key, by rw [hthr, (hf _).view]; exact hm.core, hm.answers, h.letsThrough hm.lets⟩

theorem State.performMsg_of_clear {s : State} (hport : s.portClear = true) {m : MemMsg} (hm : s.GoesAlone m) : s.performMsg m = s.performOne m := by
  obtain ⟨hempty, hmsgs, -, -⟩ := s.portClear_iff.1 hport
  have hready := State.msgReady_of_clear hport hm.core hm.lets
  have hbefore : (s.msgs.takeWhile (fun n => n != m)).filter (fun n => s.msgBefore n m) = [] := by
    refine List.filter_eq_nil_iff.2 fun n hn hb => ?_
    have hin : n ∈ s.msgs := (List.takeWhile_sublist _).subset hn
    simp only [State.msgBefore, MemMsg.before, Bool.and_eq_true, beq_iff_eq] at hb
    exact (hmsgs n hin hb.1.1.1).2 (hb.1.1.2.trans hm.core)
  rw [State.performMsg, hm.core, State.flushPort_of_empty hempty]
  simp only [hbefore, List.nil_append, List.all_cons, List.all_nil, hready, Bool.and_true, if_true, List.foldl_cons, List.foldl_nil]

theorem filter_erase_of_pos {α : Type} [BEq α] [LawfulBEq α] {p : α → Bool} {a : α} (h : p a = true) (l : List α) :
    (l.erase a).filter p = (l.filter p).erase a := by
  induction l with
  | nil => rfl
  | cons b l ih =>
    by_cases hb : b = a
    · subst hb
      rw [List.erase_cons_head, List.filter_cons_of_pos h, List.erase_cons_head]
    · rw [List.erase_cons_tail (by simpa using hb), List.filter_cons, List.filter_cons, ih]
      split
      · rw [List.erase_cons_tail (by simpa using hb)]
      · rfl

/-- Messages of the thread at issue that go alone are all performed. -/
theorem State.performMsgs_alone {s : State} (hport : s.portClear = true) {p : MemMsg → Bool}
    (h : ∀ m ∈ s.msgs, p m = true → s.GoesAlone m) :
    s.Performed (s.performMsgs p) ∧ (∀ x, State.KeepsByte x s (s.performMsgs p)) ∧ (∀ m ∈ (s.performMsgs p).msgs, p m = false) ∧
      ((∀ m ∈ s.msgs, p m = true → s.isFrozen m.loc = false ∧ s.wayGone m.key m.loc m.va = false) → (s.performMsgs p).faults = s.faults) := by
  have hfold : ∀ (l : List MemMsg) (u : State), u.msgs.filter p = l → s.Performed u → 
      let t := l.foldl (fun u m => if u.msgs.contains m then u.performMsg m else u) u
      u.Performed t ∧ (∀ x, State.KeepsByte x u t) ∧ t.msgs.filter p = [] ∧
        ((∀ m ∈ s.msgs, p m = true → s.isFrozen m.loc = false ∧ s.wayGone m.key m.loc m.va = false) → t.faults = u.faults) := by
    intro l
    induction l with
    | nil => exact fun u hu _ => ⟨.refl u, fun x => .refl x u, hu, fun _ => rfl⟩
    | cons m l ih =>
      intro u hu hsu
      have hmem : m ∈ u.msgs.filter p := by rw [hu]; exact List.mem_cons_self ..
      obtain ⟨hm, hp⟩ := List.mem_filter.1 hmem
      have halone := hsu.goesAlone (h m (hsu.msgs m hm) hp)
      have hone : u.performMsg m = u.performOne m := State.performMsg_of_clear (hsu.portClear hport) halone
      have hrest : (u.performOne m).msgs.filter p = l := by
        rw [State.performOne_msgs, filter_erase_of_pos hp, hu, List.erase_cons_head]
      obtain ⟨hperformed, hkeeps, hnone, hfaults⟩ := ih _ hrest (hsu.trans (u.performOne_performed m))
      rw [List.foldl_cons, if_pos (by simpa using hm), hone]
      refine ⟨(u.performOne_performed m).trans hperformed, fun x => (State.performOne_keepsByte hm x).trans (hkeeps x), hnone,
        fun hfree => (hfaults hfree).trans (State.performOne_faults halone.answers ?_ ?_)⟩
      · rw [← (hfree m (hsu.msgs m hm) hp).1]
        exact (congrArg (fun u : State => u.isFrozen m.loc) hsu.beyond :)
      · rw [hsu.wayGone, (hfree m (hsu.msgs m hm) hp).2]
  obtain ⟨hperformed, hkeeps, hnone, hfaults⟩ := hfold (s.msgs.filter p) s rfl (.refl s)
  exact ⟨hperformed, hkeeps, fun m hm => by simpa using List.filter_eq_nil_iff.1 hnone m hm, hfaults⟩

/-! ## What drains leave of the core's buffer and lines -/

theorem State.recordCore_core (s : State) (c line d : Nat) : ((s.recordCore c line).core d).wcb = (s.core d).wcb := by
  have hdrain (a : Nat) : ((s.drainCovered a).core d).wcb = (s.core d).wcb := by
    rw [State.drainCovered_core]
    split
    · next h => rw [h]
    · rfl
  rw [State.recordCore]
  split
  · rfl
  · dsimp only
    split
    · exact hdrain _
    · rfl

theorem State.drainBytes_wcb (s : State) (c : Nat) (e : WcbEntry) (m : BitVec 128) :
    ((s.drainBytes c e m).core c).wcb = ((s.core c).tookBytes e m).wcb := by
  have hcore : (s.mergeHome e.line m e.data).core c = s.core c := State.core_eq_of_cores (s.mergeHome_cases ..).2.1 c
  rw [State.drainBytes_eq, State.recordCore_core, State.core_modCore _ c c (State.core_id _ c), if_pos rfl, hcore]

/-- The bytes of an entry are no more in the buffer. -/
def CoreSt.without (k : CoreSt) (e : WcbEntry) : Prop :=
  ∀ g ∈ k.wcb, g.window = e.window → g.line = e.line → ∀ j, e.mask.getLsbD j = true → g.mask.getLsbD j = false

theorem CoreSt.without_tookBytes (k : CoreSt) (e : WcbEntry) : (k.tookBytes e e.mask).without e := by
  intro g hg hwindow hline j hj
  obtain ⟨-, f, -, hw, hl, -, hm⟩ := CoreSt.mem_tookBytes hg
  rw [if_pos ⟨hw.symm.trans hwindow, hl.symm.trans hline⟩] at hm
  rw [hm, BitVec.getLsbD_and, BitVec.getLsbD_not, hj]
  simp

theorem CoreSt.Drained.without {k k' : CoreSt} (h : k.Drained k') {e : WcbEntry} (he : k.without e) : k'.without e := by
  intro g hg hwindow hline j hj
  obtain ⟨f, hf, hw, hl, -, hm⟩ := h.wcb g hg
  have hclear := he f hf (hw.symm.trans hwindow) (hl.symm.trans hline) j hj
  cases hbit : g.mask.getLsbD j with
  | false => rfl
  | true => rw [hm j hbit] at hclear; exact hclear

/-- A fold of drains leaves no byte of any of its entries, and no entry without a byte. -/
theorem State.drainEntries_without (c : Nat) (l : List WcbEntry) (s : State) :
    let t := l.foldl (fun u e => u.drainEntry c e) s
    (∀ e ∈ l, (t.core c).without e) ∧ (l ≠ [] → ∀ g ∈ (t.core c).wcb, g.mask ≠ 0) := by
  induction l generalizing s with
  | nil => exact ⟨fun e he => absurd he List.not_mem_nil, fun h => absurd rfl h⟩
  | cons e l ih =>
    obtain ⟨hwithout, hmasks⟩ := ih (s.drainEntry c e)
    have hwcb : ((s.drainEntry c e).core c).wcb = ((s.core c).tookBytes e e.mask).wcb := s.drainBytes_wcb c e e.mask
    have hfold : (s.drainEntry c e).CachesOnly (l.foldl (fun u e => u.drainEntry c e) (s.drainEntry c e)) :=
      foldl_related CachesOnly.refl CachesOnly.trans l (fun e _ u => u.drainBytes_cachesOnly c e e.mask) _
    have hfirst : ((s.drainEntry c e).core c).without e := by
      intro g hg
      rw [hwcb] at hg
      exact CoreSt.without_tookBytes (s.core c) e g hg
    rw [List.foldl_cons]
    refine ⟨fun e' he' => ?_, fun _ g hg => ?_⟩
    · rcases List.mem_cons.1 he' with rfl | he'
      · exact (hfold.cores c).without hfirst
      · exact hwithout e' he'
    · cases l with
      | nil =>
        rw [List.foldl_nil, hwcb] at hg
        exact (CoreSt.mem_tookBytes hg).1
      | cons e' l => exact hmasks (List.cons_ne_nil e' l) g hg

/-- No buffer entry of a core is of a thread. -/
def State.unowned (s : State) (c : Nat) (key : ThreadKey) : Prop := ∀ e ∈ (s.core c).wcb, key ∉ e.owners

theorem State.CachesOnly.unowned {s t : State} (h : s.CachesOnly t) {c : Nat} {key : ThreadKey} (hs : s.unowned c key) : t.unowned c key := by
  intro e he
  obtain ⟨f, hf, -, -, ho, -⟩ := (h.cores c).wcb e he
  rw [ho]
  exact hs f hf

theorem State.drainWcb_unowned (s : State) (c : Nat) (key : ThreadKey) :
    (s.drainWcb c fun e => e.owners.contains key).unowned c key := by
  intro g hg hown
  have hdrained := (s.drainWcb_settles c fun e => e.owners.contains key).cores c
  obtain ⟨f, hf, hw, hl, ho, hm⟩ := hdrained.wcb g hg
  have hin : f ∈ (s.core c).wcb.filter fun e => e.owners.contains key :=
    List.mem_filter.2 ⟨hf, by rw [← ho]; simpa using hown⟩
  obtain ⟨hwithout, hmasks⟩ := State.drainEntries_without c ((s.core c).wcb.filter fun e => e.owners.contains key) s
  have hclear := hwithout f hin g hg hw hl
  refine hmasks (List.ne_nil_of_mem hin) g hg (BitVec.eq_of_getLsbD_eq fun j _ => ?_)
  have hzero : BitVec.getLsbD (0 : BitVec 128) j = false := BitVec.getLsbD_zero
  rw [hzero]
  cases hbit : g.mask.getLsbD j with
  | false => rfl
  | true => rw [hclear j (hm j hbit)] at hbit; exact hbit.symm

/-- Every dirty byte of a core is covered. -/
def State.coveredAll (s : State) (c : Nat) : Prop := ∀ l ∈ (s.core c).l1, l.dirty &&& ~~~l.covered = 0

theorem State.coverCore_coveredAll (s : State) (c : Nat) (key : ThreadKey) : (s.coverCore c key).coveredAll c := by
  intro l' hl'
  rw [State.coverCore_eq, State.core_modCore _ c c (State.core_id _ c), if_pos rfl] at hl'
  obtain ⟨l, -, rfl⟩ := List.mem_map.1 hl'
  apply BitVec.eq_of_getLsbD_eq
  intro j hj
  simp only [L1Line.cover, BitVec.getLsbD_and, BitVec.getLsbD_not, BitVec.getLsbD_or, BitVec.getLsbD_zero, hj, decide_true, Bool.true_and]
  cases l.dirty.getLsbD j <;> simp

theorem State.drainCovered_coveredAll {s : State} {c : Nat} (d : Nat) (h : s.coveredAll c) : (s.drainCovered d).coveredAll c := by
  intro l' hl'
  rw [State.drainCovered_core] at hl'
  split at hl'
  · next hcd =>
    obtain ⟨l, hl, rfl⟩ := List.mem_map.1 hl'
    have hzero : l.dirty &&& ~~~l.covered = 0 := h l (by rw [hcd]; exact hl)
    rw [L1Line.drained, hzero]
    exact BitVec.zero_and
  · exact h l' hl'

theorem State.orderPoint_coveredAll {s : State} {c : Nat} (v : View) (sc : Scope) (h : s.coveredAll c) : (s.orderPoint v sc).coveredAll c :=
  foldl_related (R := fun u w : State => u.coveredAll c → w.coveredAll c) (fun _ => id) (fun h h' hu => h' (h hu)) _
    (fun q _ _ hu => State.drainCovered_coveredAll q.2 hu) _ h

/-- What an acquire leaves of a line. -/
def L1Line.acquired (l : L1Line) : L1Line := if l.frozen then l else { l with valid := l.dirty }

theorem State.mem_acquire {s : State} {v : View} {sc : Scope} (hwide : scopeWide sc = true) {l' : L1Line}
    (h : l' ∈ ((s.acquire v sc).core (coreIndex v)).l1) : ∃ l ∈ (s.core (coreIndex v)).l1, l' = l.acquired := by
  rw [State.acquire, if_pos hwide, State.core_modCore _ _ _ (State.core_id s _), if_pos rfl] at h
  obtain ⟨l, hl, heq⟩ := List.mem_map.1 (List.mem_of_mem_filter h)
  exact ⟨l, hl, heq.symm⟩

theorem State.acquire_coveredAll {s : State} {v : View} (sc : Scope) (h : s.coveredAll (coreIndex v)) :
    (s.acquire v sc).coveredAll (coreIndex v) := by
  by_cases hwide : scopeWide sc = true
  · intro l' hl'
    obtain ⟨l, hl, rfl⟩ := State.mem_acquire hwide hl'
    rw [L1Line.acquired]
    split
    · exact h l hl
    · exact h l hl
  · rw [State.acquire, if_neg hwide]
    exact h

theorem State.acquire_clean {s : State} {v : View} {sc : Scope} (hwide : scopeWide sc = true) :
    ∀ l ∈ ((s.acquire v sc).core (coreIndex v)).l1, l.frozen = true ∨ l.valid = l.dirty := by
  intro l' hl'
  obtain ⟨l, -, rfl⟩ := State.mem_acquire hwide hl'
  rw [L1Line.acquired]
  split
  · next h => exact .inl h
  · exact .inr rfl

/-! ## The stages of a fence (R134) -/

/-- No thread has changed and no message has left or come; a core's buffer holds no byte more; no settled byte has changed. -/
structure State.Eases (c : Nat) (s t : State) : Prop where
  rest : { t.apart with farOut := [] } = { s.apart with farOut := [] }
  keeps : ∀ x, State.KeepsByte x s t
  unowned : ∀ key, s.unowned c key → t.unowned c key

theorem State.Eases.thr {c : Nat} {s t : State} (h : State.Eases c s t) : t.thr = s.thr := (congrArg State.thr h.rest :)
theorem State.Eases.others {c : Nat} {s t : State} (h : State.Eases c s t) : t.others = s.others := (congrArg State.others h.rest :)
theorem State.Eases.msgs {c : Nat} {s t : State} (h : State.Eases c s t) : t.msgs = s.msgs := (congrArg State.msgs h.rest :)

theorem State.Eases.refl (c : Nat) (s : State) : State.Eases c s s := ⟨rfl, fun x => .refl x s, fun _ h => h⟩

theorem State.Eases.trans {c : Nat} {s t u : State} (h : State.Eases c s t) (h' : State.Eases c t u) : State.Eases c s u :=
  ⟨h'.rest.trans h.rest, fun x => (h.keeps x).trans (h'.keeps x), fun key hs => h'.unowned key (h.unowned key hs)⟩

theorem State.Settles.eases {s t : State} (h : s.Settles t) (c : Nat) : State.Eases c s t :=
  ⟨by rw [h.apart], h.keeps, fun _ hs => h.unowned hs⟩

theorem State.ackFar_eases (s : State) (key : ThreadKey) (c : Nat) : State.Eases c s (s.ackFar key) :=
  ⟨rfl, fun _ h => ⟨h, rfl⟩, fun _ h => h⟩

theorem State.ackIf_eases (s : State) (b : Bool) (key : ThreadKey) (c : Nat) : State.Eases c s (if b then s.ackFar key else s) := by
  split
  · exact s.ackFar_eases key c
  · exact .refl c s

/-- A release of which no message is left to perform drains the thread's entries, and beyond the core covers its dirty bytes. -/
theorem State.release_of_none {s : State} {v : View} {key : ThreadKey} {sc : Scope}
    (h : ∀ m ∈ s.msgs, (m.key == key && (m.op.answers || scopeDevice sc)) = false) :
    State.Eases (coreIndex v) s (s.release v key sc) ∧ (scopeWide sc = true → (s.release v key sc).coveredAll (coreIndex v)) := by
  have hack := s.ackIf_eases (scopeDevice sc) key (coreIndex v)
  rw [State.release, State.performMsgs_of_none h]
  generalize (if scopeDevice sc = true then s.ackFar key else s) = s2 at hack ⊢
  split
  · exact ⟨hack.trans ((s2.coverCore_settles _ key).eases _), fun _ => s2.coverCore_coveredAll _ key⟩
  · next hnarrow => exact ⟨hack.trans ((s2.drainWcb_settles _ _).eases _), fun hwide => absurd hwide hnarrow⟩

/-- The messages of a test are performed, where there are any. -/
theorem State.performSome_alone {s : State} (hport : s.portClear = true) {p : MemMsg → Bool} (h : ∀ m ∈ s.msgs, p m = true → s.GoesAlone m) :
    let u := if s.msgs.isEmpty then s else s.performMsgs p
    s.Performed u ∧ (∀ x, State.KeepsByte x s u) ∧ (∀ m ∈ u.msgs, p m = false) ∧
      ((∀ m ∈ s.msgs, p m = true → s.isFrozen m.loc = false ∧ s.wayGone m.key m.loc m.va = false) → u.faults = s.faults) := by
  dsimp only
  split
  · next hempty =>
    rw [List.isEmpty_iff] at hempty
    exact ⟨.refl s, fun x => .refl x s, fun m hm => absurd hm (by simp [hempty]), fun _ => rfl⟩
  · exact State.performMsgs_alone hport h

theorem State.thread?_self (s : State) : s.thread? s.thr.key = some s.thr := by
  rw [State.thread?, State.threads, List.find?_cons, beq_self_eq_true]

theorem State.opensBelow_self (s : State) (n : Nat) : s.opensBelow s.thr.key n = s.thr.openBelow n := by
  rw [State.opensBelow, State.thread?_self]
  rfl

/-- What performing messages leaves of the thread at issue. -/
theorem State.Performed.thr {s t : State} (h : s.Performed t) : s.thr.Answered t.thr := by
  obtain ⟨f, hf, hthr, -⟩ := h.threads
  rw [hthr]
  exact hf s.thr

theorem State.Performed.sameRegs {s t : State} (h : s.Performed t) : s.sameRegs t := by
  obtain ⟨f, hf, hthr, hothers⟩ := h.threads
  rw [State.sameRegs, State.threads, State.threads, hthr, hothers, ← List.map_cons, List.map_map]
  exact List.map_congr_left fun u _ => (hf u).named

theorem State.portOf_of_clear {s : State} (hport : s.portClear = true) : s.portOf (coreIndex s.thr.view) s.thr.key = false := by
  obtain ⟨hempty, -, hheld, -⟩ := s.portClear_iff.1 hport
  have hnone : s.held.any (fun h => h.key == s.thr.key) = false := by
    rw [List.any_eq_false]
    exact fun h hh => by simpa using (hheld h hh).1
  rw [State.portOf, hempty, hnone]
  rfl

/-- A fence of a thread at a clear port of which every reduction is performed waits for nothing. -/
theorem State.fenceWaits_eq_false {s : State} {k : FenceKind} {sc : Scope} (hport : s.portClear = true)
    (hloads : FenceKind.acquires k = true → s.thr.loadsOpen = false) (hmsgs : scopeDevice sc = true → ∀ m ∈ s.msgs, m.key ≠ s.thr.key)
    (hfar : scopeDevice sc = true → ∀ m ∈ s.farOut, m.isRed s.thr.key = true → s.thr.openBelow m.upTo = false) :
    s.fenceWaits k sc = false := by
  obtain ⟨hempty, -, hheld, -⟩ := s.portClear_iff.1 hport
  have hheldAny (q : HeldStore → Bool) : s.held.any (fun h => h.key == s.thr.key && q h) = false := by
    rw [List.any_eq_false]
    intro h hh
    rw [beq_eq_false_iff_ne.2 (hheld h hh).1, Bool.false_and]
    exact Bool.false_ne_true
  have hportOf := State.portOf_of_clear hport
  have hstream : s.streamOpen = false := by simp only [State.streamOpen, hempty, List.any_nil]
  have hred : scopeDevice sc = true → s.reductionsOpen = false := by
    intro hdevice
    rw [State.reductionsOpen, hheldAny, Bool.or_false, Bool.or_eq_false_iff, List.any_eq_false, List.any_eq_false]
    refine ⟨fun m hm => ?_, fun m hm => ?_⟩
    · rw [beq_eq_false_iff_ne.2 (hmsgs hdevice m hm), Bool.false_and]
      exact Bool.false_ne_true
    · rw [s.opensBelow_self, Bool.and_eq_true]
      exact fun h => Bool.noConfusion ((hfar hdevice m hm h.1).symm.trans h.2)
  rw [State.fenceWaits, hportOf, hstream, Bool.and_false, Bool.or_false, Bool.or_false, Bool.or_eq_false_iff]
  constructor
  · cases hk : FenceKind.acquires k with
    | false => rfl
    | true => exact hloads hk
  · cases hdevice : scopeDevice sc with
    | false => rfl
    | true => exact hred hdevice

/-- A fence drains the thread's buffer entries, and at .dev and .sys its far reductions are acknowledged. -/
def State.fenceDrains (u : State) (v : View) (key : ThreadKey) (sc : Scope) : State :=
  if scopeDevice sc then (u.drainWcb (coreIndex v) fun e => e.owners.contains key).ackFar key
  else u.drainWcb (coreIndex v) fun e => e.owners.contains key

/-- The release half of a fence, which marks the next store. -/
def State.fenceReleases (u : State) (v : View) (key : ThreadKey) (k : FenceKind) (sc : Scope) : State :=
  if FenceKind.releases k then (u.release v key sc).onThr (fun t => { t with relFence := true }) else u

/-- The place of a FENCE.SC at its order points. -/
def State.fenceOrders (u : State) (v : View) (k : FenceKind) (sc : Scope) : State := if k = .sc then u.orderPoint v sc else u

/-- The acquire half of a fence. -/
def State.fenceAcquires (u : State) (v : View) (k : FenceKind) (sc : Scope) : State := if FenceKind.acquires k then u.acquire v sc else u

/-- What a fence does once it waits for nothing. -/
def State.fenceFrom (u : State) (v : View) (key : ThreadKey) (k : FenceKind) (sc : Scope) : State :=
  ((((u.fenceDrains v key sc).fenceReleases v key k sc).fenceOrders v k sc).fenceAcquires v k sc).finish

/-- The messages that a fence performs. -/
def State.fenceMsgs (s : State) (k : FenceKind) (sc : Scope) : State :=
  if s.msgs.isEmpty then s
  else s.performMsgs (fun m => m.key == s.thr.key && ((m.op.answers && FenceKind.acquires k) || scopeDevice sc))

theorem State.fence_eq {s : State} {k : FenceKind} {sc : Scope} (hrecord : s.ownRecord = none)
    (hport : ((s.fenceMsgs k sc).core (coreIndex s.thr.view)).port = []) (hwaits : (s.fenceMsgs k sc).fenceWaits k sc = false) :
    s.fence k sc = (s.fenceMsgs k sc).fenceFrom s.thr.view s.thr.key k sc := by
  have hfence : s.fence k sc = match s.ownRecord with
      | some f => s.deliverRecord f
      | none =>
        if ((s.fenceMsgs k sc).flushPort (coreIndex s.thr.view)).fenceWaits k sc then
          ((s.fenceMsgs k sc).flushPort (coreIndex s.thr.view)).stall
        else ((s.fenceMsgs k sc).flushPort (coreIndex s.thr.view)).fenceFrom s.thr.view s.thr.key k sc := rfl
  rw [hfence, hrecord, State.flushPort_of_empty hport, hwaits]
  rfl

theorem State.fenceDrains_eases (u : State) (v : View) (key : ThreadKey) (sc : Scope) : State.Eases (coreIndex v) u (u.fenceDrains v key sc) :=
  ((u.drainWcb_settles (coreIndex v) _).eases _).trans (State.ackIf_eases _ _ key _)

theorem State.fenceDrains_unowned (u : State) (v : View) (key : ThreadKey) (sc : Scope) : (u.fenceDrains v key sc).unowned (coreIndex v) key := by
  rw [State.fenceDrains]
  split <;> exact u.drainWcb_unowned _ key

theorem State.fenceOrders_settles (u : State) (v : View) (k : FenceKind) (sc : Scope) : u.Settles (u.fenceOrders v k sc) := by
  rw [State.fenceOrders]
  split
  · exact u.orderPoint_settles v sc
  · exact .refl u

theorem State.fenceAcquires_settles (u : State) (v : View) (k : FenceKind) (sc : Scope) : u.Settles (u.fenceAcquires v k sc) := by
  rw [State.fenceAcquires]
  split
  · exact u.acquire_settles v sc
  · exact .refl u

/-- The thread after the parts of a fence: the next store is marked where it releases. -/
def Thread.fenced (u : Thread) (k : FenceKind) : Thread := if FenceKind.releases k then { u with relFence := true } else u

/-- What the release half leaves, with no message left to perform. -/
theorem State.fenceReleases_leaves {u : State} {v : View} {key : ThreadKey} {k : FenceKind} {sc : Scope}
    (h : ∀ m ∈ u.msgs, (m.key == key && (m.op.answers || scopeDevice sc)) = false) :
    let t := u.fenceReleases v key k sc
    t.thr = u.thr.fenced k ∧ t.others = u.others ∧ t.msgs = u.msgs ∧ (∀ x, State.KeepsByte x u t) ∧
      (u.unowned (coreIndex v) key → t.unowned (coreIndex v) key) ∧
      (FenceKind.releases k = true → scopeWide sc = true → t.coveredAll (coreIndex v)) := by
  obtain ⟨hease, hcovered⟩ := State.release_of_none (v := v) h
  rw [State.fenceReleases, Thread.fenced]
  split
  · exact ⟨by rw [← hease.thr]; rfl, hease.others, hease.msgs, hease.keeps, hease.unowned key, fun _ hwide => hcovered hwide⟩
  · next hnot => exact ⟨rfl, rfl, rfl, fun x => .refl x u, id, fun hrel => absurd hrel hnot⟩

/-- What a fence leaves that waits for nothing, with no message left to perform. -/
theorem State.fenceFrom_leaves {u : State} {v : View} {key : ThreadKey} {k : FenceKind} {sc : Scope}
    (h : ∀ m ∈ u.msgs, (m.key == key && (m.op.answers || scopeDevice sc)) = false) :
    let t := u.fenceFrom v key k sc
    t.thr = (u.thr.fenced k).advance ∧ t.others = u.others ∧ t.msgs = u.msgs ∧ (∀ x, State.KeepsByte x u t) ∧ t.unowned (coreIndex v) key ∧
      (FenceKind.releases k = true → scopeWide sc = true → t.coveredAll (coreIndex v)) ∧
      (FenceKind.acquires k = true → scopeWide sc = true → ∀ l ∈ (t.core (coreIndex v)).l1, l.frozen = true ∨ l.valid = l.dirty) := by
  have hdrain := u.fenceDrains_eases v key sc
  have hunowned := u.fenceDrains_unowned v key sc
  rw [State.fenceFrom]
  generalize u.fenceDrains v key sc = u2 at hdrain hunowned ⊢
  obtain ⟨hthr, hothers, hmsgs, hkeeps, hrelUnowned, hcovered⟩ :=
    State.fenceReleases_leaves (u := u2) (v := v) (k := k) (by rw [hdrain.msgs]; exact h)
  generalize u2.fenceReleases v key k sc = u4 at hthr hothers hmsgs hkeeps hrelUnowned hcovered ⊢
  have horder := u4.fenceOrders_settles v k sc
  have horderCovered : u4.coveredAll (coreIndex v) → (u4.fenceOrders v k sc).coveredAll (coreIndex v) := by
    intro hu
    rw [State.fenceOrders]
    split
    · exact State.orderPoint_coveredAll v sc hu
    · exact hu
  generalize u4.fenceOrders v k sc = u5 at horder horderCovered ⊢
  have hacquire := u5.fenceAcquires_settles v k sc
  have hacquireCovered : u5.coveredAll (coreIndex v) → (u5.fenceAcquires v k sc).coveredAll (coreIndex v) := by
    intro hu
    rw [State.fenceAcquires]
    split
    · exact State.acquire_coveredAll sc hu
    · exact hu
  have hclean : FenceKind.acquires k = true → scopeWide sc = true →
      ∀ l ∈ ((u5.fenceAcquires v k sc).core (coreIndex v)).l1, l.frozen = true ∨ l.valid = l.dirty := by
    intro hacq hwide
    rw [State.fenceAcquires, if_pos hacq]
    exact State.acquire_clean hwide
  generalize u5.fenceAcquires v k sc = u6 at hacquire hacquireCovered hclean ⊢
  have heases := (horder.eases (coreIndex v)).trans (hacquire.eases (coreIndex v))
  refine ⟨?_, ?_, ?_, fun x => ((hdrain.keeps x).trans (hkeeps x)).trans (heases.keeps x), heases.unowned key (hrelUnowned hunowned),
    fun hrel hwide => hacquireCovered (horderCovered (hcovered hrel hwide)), hclean⟩
  · exact (congrArg Thread.advance (heases.thr.trans (hthr.trans (by rw [hdrain.thr]))) :)
  · exact heases.others.trans (hothers.trans hdrain.others)
  · exact heases.msgs.trans (hmsgs.trans hdrain.msgs)

theorem FenceKind.acquires_iff (k : FenceKind) : FenceKind.acquires k = true ↔ k ≠ .rel := by cases k <;> decide

theorem FenceKind.releases_iff (k : FenceKind) : FenceKind.releases k = true ↔ k ≠ .acq := by cases k <;> decide

theorem scopeWide_iff (sc : Scope) : scopeWide sc = true ↔ sc ≠ .slot ∧ sc ≠ .core := by cases sc <;> decide

theorem scopeDevice_iff (sc : Scope) : scopeDevice sc = true ↔ sc = .dev ∨ sc = .sys := by cases sc <;> decide

theorem Thread.fenced_named (u : Thread) (k : FenceKind) : (u.fenced k).advance.named = u.named := by
  rw [Thread.fenced]
  split <;> rfl

/-- A fence of a thread at a clear port, whose messages go alone, completes. -/
theorem State.fence_completes {s : State} {k : FenceKind} {sc : Scope} (hrecord : s.ownRecord = none) (hport : s.portClear = true)
    (hloads : FenceKind.acquires k = true → s.thr.loadsOpen = false)
    (hmsgs : scopeDevice sc = true → ∀ m ∈ s.msgs, m.key = s.thr.key → coreIndex m.view = coreIndex s.thr.view ∧ s.msgReady m = true)
    (hfar : scopeDevice sc = true → ∀ m ∈ s.farOut, m.isRed s.thr.key = true → s.thr.openBelow m.upTo = false) :
    let c := coreIndex s.thr.view
    let t := s.fence k sc
    s.passed t ∧ s.keepsMemory t [] ∧ t.unowned c s.thr.key ∧
      (FenceKind.releases k = true → t.thr.relFence = true ∧ (scopeWide sc = true → t.coveredAll c)) ∧
      (FenceKind.acquires k = true → scopeWide sc = true → ∀ l ∈ (t.core c).l1, l.frozen = true ∨ l.valid = l.dirty) ∧
      (scopeDevice sc = true → ∀ m ∈ t.msgs, m.key ≠ s.thr.key) ∧ (∀ m ∈ t.msgs, m.key = s.thr.key → m.op.answers = false) := by
  have hanswers := (s.portClear_iff.1 hport).2.1
  obtain ⟨hperformed, hkeepsMsgs, hnone, -⟩ := State.performSome_alone hport
    (p := fun m => m.key == s.thr.key && ((m.op.answers && FenceKind.acquires k) || scopeDevice sc)) fun m hm hp => by
      simp only [Bool.and_eq_true, beq_iff_eq, Bool.or_eq_true] at hp
      obtain ⟨hkey, hp⟩ := hp
      have hans : m.op.answers = false := Bool.eq_false_iff.2 fun hans => (hanswers m hm hans).1 hkey
      have hdevice : scopeDevice sc = true := hp.resolve_left fun h => by rw [hans] at h; exact Bool.noConfusion h.1
      obtain ⟨hcore, hready⟩ := hmsgs hdevice m hm hkey
      exact ⟨hkey, hcore, hans, State.letsThrough_of_msgReady hready⟩
  change s.Performed (s.fenceMsgs k sc) at hperformed
  change ∀ m ∈ (s.fenceMsgs k sc).msgs, _ at hnone
  change ∀ x, State.KeepsByte x s (s.fenceMsgs k sc) at hkeepsMsgs
  have hanswered := hperformed.thr
  have hport' := hperformed.portClear hport
  have hempty := (State.portClear_iff _).1 hport'
  rw [hanswered.view, hanswered.key] at hempty
  have hgone : scopeDevice sc = true → ∀ m ∈ (s.fenceMsgs k sc).msgs, m.key ≠ s.thr.key := by
    intro hdevice m hm hkey
    have := hnone m hm
    simp only [hkey, hdevice, beq_self_eq_true, Bool.or_true, Bool.and_self, Bool.true_eq_false] at this
  have hfarOut : (s.fenceMsgs k sc).farOut = s.farOut := (congrArg State.farOut hperformed.beyond :)
  have hwaits : (s.fenceMsgs k sc).fenceWaits k sc = false := by
    refine State.fenceWaits_eq_false hport' (fun hacq => ?_) ?_ ?_
    · have hseq : (s.fenceMsgs k sc).thr.pendSeq = s.thr.pendSeq := by rw [hanswered.rest]
      rw [Thread.loadsOpen, hseq]
      exact hanswered.openBelow _ (hloads hacq)
    · rw [hanswered.key]
      exact hgone
    · rw [hanswered.key, hfarOut]
      exact fun hdevice m hm hred => hanswered.openBelow _ (hfar hdevice m hm hred)
  have hleft : ∀ m ∈ (s.fenceMsgs k sc).msgs, (m.key == s.thr.key && (m.op.answers || scopeDevice sc)) = false := by
    intro m hm
    by_cases hkey : m.key = s.thr.key
    · have hnarrow : scopeDevice sc = false := Bool.eq_false_iff.2 fun hdevice => hgone hdevice m hm hkey
      have hans : m.op.answers = false := Bool.eq_false_iff.2 fun hans => (hempty.2.1 m hm hans).1 hkey
      rw [hnarrow, hans, Bool.or_false, Bool.and_false]
    · rw [beq_eq_false_iff_ne.2 hkey, Bool.false_and]
  obtain ⟨hthr, hothers, hmsgsT, hkeeps, hunowned, hcovered, hclean⟩ :=
    State.fenceFrom_leaves (v := s.thr.view) (k := k) hleft
  rw [State.fence_eq hrecord hempty.1 hwaits]
  refine ⟨⟨?_, ?_, ?_, ?_⟩, fun x hx _ => ((hkeepsMsgs x).trans (hkeeps x) hx).2, hunowned, fun hrel => ⟨?_, hcovered hrel⟩, hclean,
    fun hdevice => by rw [hmsgsT]; exact hgone hdevice, fun m hm hkey => ?_⟩
  · refine Eq.trans ?_ hperformed.sameRegs
    rw [State.threads, State.threads, List.map_cons, List.map_cons, hthr, hothers, Thread.fenced_named]
  · rw [hthr, Thread.fenced, hanswered.rest]
    split <;> rfl
  · rw [hthr]
    rfl
  · rw [hthr, Thread.fenced, hanswered.rest]
    split <;> rfl
  · rw [hthr, Thread.fenced, if_pos hrel]
    rfl
  · rw [hmsgsT] at hm
    exact Bool.eq_false_iff.2 fun hans => (hempty.2.1 m hm hans).1 hkey

/-- A DRAIN of a thread at a clear port, whose messages go alone and meet nothing, completes. -/
theorem State.drain_completes {s : State} (hport : s.portClear = true) (hfaults : s.faults.any (fun f => f.key == s.thr.key) = false)
    (hmsgs : ∀ m ∈ s.msgs, m.key = s.thr.key → s.isFrozen m.loc = false ∧ s.wayGone m.key m.loc m.va = false ∧
      coreIndex m.view = coreIndex s.thr.view ∧ s.msgReady m = true)
    (hfar : ∀ m ∈ s.farOut, m.isRed s.thr.key = true → s.thr.openBelow m.upTo = false) :
    let t := s.drainThen State.finish
    s.passed t ∧ s.keepsMemory t [] ∧ (∀ m ∈ t.msgs, m.key ≠ s.thr.key) ∧ ∀ m ∈ t.farOut, m.isRed s.thr.key = false := by
  obtain ⟨-, hanswers, hheld, -⟩ := s.portClear_iff.1 hport
  obtain ⟨hperformed, hkeeps, hnone, hsame⟩ := State.performSome_alone hport (p := fun m => m.key == s.thr.key && !m.op.answers)
    fun m hm hp => by
      simp only [Bool.and_eq_true, beq_iff_eq, Bool.not_eq_true'] at hp
      obtain ⟨hkey, hans⟩ := hp
      obtain ⟨-, -, hcore, hready⟩ := hmsgs m hm hkey
      exact ⟨hkey, hcore, hans, State.letsThrough_of_msgReady hready⟩
  have hdrain : s.drainThen State.finish =
      if s.held.any (fun h => h.key == s.thr.key && h.parked) then s.park .held
      else
        let s0 := if s.msgs.isEmpty then s else s.performMsgs (fun m => m.key == s.thr.key && !m.op.answers)
        let s2 := ((s0.flushPort (coreIndex s.thr.view)).arriveFaults).ackFar s.thr.key
        match s2.ownRecord with
        | some f => s2.deliverRecord f
        | none => if s2.storesOpen || s2.faults.any (fun f => f.key == s2.thr.key) then s2.stall else s2.finish := rfl
  generalize (if s.msgs.isEmpty = true then s else s.performMsgs fun m => m.key == s.thr.key && !m.op.answers) = u
    at hperformed hkeeps hnone hsame hdrain
  have hanswered := hperformed.thr
  have hport' := hperformed.portClear hport
  obtain ⟨hempty, hanswers', hheld', -⟩ := (State.portClear_iff _).1 hport'
  rw [hanswered.key, hanswered.view] at hanswers' hheld'
  rw [hanswered.view] at hempty
  have hfaultsU : u.faults.any (fun f => f.key == s.thr.key) = false := by
    rw [hsame fun m hm hp => ?_]
    · exact hfaults
    · simp only [Bool.and_eq_true, beq_iff_eq] at hp
      obtain ⟨hfrozen, hway, -⟩ := hmsgs m hm hp.1
      exact ⟨hfrozen, hway⟩
  rw [List.any_eq_false] at hfaultsU
  have hnoFault : ∀ q : StoreFault → Bool, ∀ f ∈ u.faults, ¬(f.key == s.thr.key && q f) = true := fun q f hf h =>
    hfaultsU f hf (Bool.and_eq_true_iff.1 h).1
  have harrive : u.arriveFaults = u := by
    rw [State.arriveFaults, hanswered.key, List.filter_eq_nil_iff.2 (hnoFault _)]
    rfl
  have hparked : s.held.any (fun h => h.key == s.thr.key && h.parked) = false := by
    rw [List.any_eq_false]
    intro h hh
    rw [beq_eq_false_iff_ne.2 (hheld h hh).1, Bool.false_and]
    exact Bool.false_ne_true
  have hgone : ∀ m ∈ u.msgs, m.key ≠ s.thr.key := by
    intro m hm hkey
    have hans : m.op.answers = false := Bool.eq_false_iff.2 fun hans => (hanswers' m hm hans).1 hkey
    have := hnone m hm
    simp only [hkey, hans, beq_self_eq_true, Bool.not_false, Bool.and_self, Bool.true_eq_false] at this
  have hfarOut : u.farOut = s.farOut := (congrArg State.farOut hperformed.beyond :)
  have hred : ∀ m ∈ (u.ackFar s.thr.key).farOut, m.isRed s.thr.key = false := by
    intro m hm
    obtain ⟨hin, hkept⟩ := List.mem_filter.1 hm
    rw [hfarOut] at hin
    cases hr : m.isRed s.thr.key with
    | false => rfl
    | true =>
      have hopen : u.opensBelow s.thr.key m.upTo = false := by
        rw [← hanswered.key, u.opensBelow_self]
        exact hanswered.openBelow _ (hfar m hin hr)
      rw [hr, hopen] at hkept
      exact Bool.noConfusion hkept
  have hrecord : (u.ackFar s.thr.key).ownRecord = none := by
    rw [State.ownRecord, List.find?_eq_none]
    change ∀ f ∈ u.faults, ¬(f.key == u.thr.key && _) = true
    rw [hanswered.key]
    exact hnoFault _
  have hopen : (u.ackFar s.thr.key).storesOpen = false := by
    have hportOf : (u.ackFar s.thr.key).portOf (coreIndex (u.ackFar s.thr.key).thr.view) (u.ackFar s.thr.key).thr.key = false :=
      State.portOf_of_clear (s := u.ackFar s.thr.key) hport'
    have hkey : (u.ackFar s.thr.key).thr.key = s.thr.key := hanswered.key
    rw [State.storesOpen, hportOf, Bool.false_or, Bool.or_eq_false_iff, List.any_eq_false, List.any_eq_false, hkey]
    refine ⟨fun m hm => ?_, fun m hm => ?_⟩
    · rw [beq_eq_false_iff_ne.2 (hgone m hm), Bool.false_and]
      exact Bool.false_ne_true
    · rw [hred m hm]
      exact Bool.false_ne_true
  have hfaultsAck : (u.ackFar s.thr.key).faults.any (fun f => f.key == (u.ackFar s.thr.key).thr.key) = false := by
    rw [List.any_eq_false]
    change ∀ f ∈ u.faults, ¬(f.key == u.thr.key) = true
    rw [hanswered.key]
    exact hfaultsU
  rw [hparked, if_neg Bool.false_ne_true] at hdrain
  simp only [State.flushPort_of_empty hempty, harrive, hrecord, hopen, hfaultsAck, Bool.or_self, Bool.false_eq_true, if_false] at hdrain
  intro t
  have ht : t = (u.ackFar s.thr.key).finish := hdrain
  rw [ht]
  refine ⟨⟨?_, ?_, rfl, ?_⟩, fun x hx _ => (hkeeps x hx).2, hgone, hred⟩
  · exact Eq.trans rfl hperformed.sameRegs
  · change u.thr.nextPc = s.thr.nextPc
    rw [hanswered.rest]
    rfl
  · change u.thr.status = s.thr.status
    rw [hanswered.rest]

/-- Settles O43: a FENCE whose waits are over releases, acquires and performs by its kind and scope, and a DRAIN empties the
thread's port. -/
theorem fenceAndDrain : Obligations.FenceAndDrain := by
  unfold Obligations.FenceAndDrain
  refine ⟨fun u k sc s => ?_, fun u s hport hfaults hmsgs hfar => ?_⟩
  · intro c wide hrecord hport hloads hdevice
    obtain ⟨hpassed, hkeeps, hunowned, hrel, hacq, hgone, hans⟩ := State.fence_completes (k := k) (sc := sc) hrecord hport
      (fun h => hloads ((FenceKind.acquires_iff k).1 h)) (fun h => (hdevice ((scopeDevice_iff sc).1 h)).1)
      (fun h => (hdevice ((scopeDevice_iff sc).1 h)).2)
    refine ⟨_, rfl, hpassed, hkeeps, hunowned, fun hk => ?_, fun hk hwide => ?_, fun hsc => hgone ((scopeDevice_iff sc).2 hsc), hans⟩
    · obtain ⟨hmark, hcovered⟩ := hrel ((FenceKind.releases_iff k).2 hk)
      exact ⟨hmark, fun hwide => hcovered ((scopeWide_iff sc).2 hwide)⟩
    · exact hacq ((FenceKind.acquires_iff k).2 hk) ((scopeWide_iff sc).2 hwide)
  · obtain ⟨hpassed, hkeeps, hgone, hreds⟩ := State.drain_completes hport hfaults hmsgs hfar
    refine ⟨_, rfl, hpassed, hkeeps, hgone, fun m hm hkey => ?_⟩
    have hred := hreds m hm
    simp only [FarMsg.isRed, hkey, beq_self_eq_true, Bool.true_and, Bool.and_eq_false_iff] at hred
    rcases hred with h | h
    · exact .inl (by simpa using h)
    · exact .inr (by simpa using h)

end Sys2Proof.Machine
end

section
/-! Launch and dispatch (spec/05, R98, R99; spec/11, R249 to R252; R87). -/

namespace Sys2Proof.Machine

open Sys2Proof

set_option Elab.async false

/-! ## Islands and their queues -/

theorem State.island?_modIsland (s : State) (n m : Nat) {f : Island → Island} (hf : ∀ i, (f i).num = i.num) :
    (s.modIsland n f).island? m = (s.island? m).map fun i => if m == n then f i else i := by
  have hnum (i : Island) : (if i.num == n then f i else i).num = i.num := by
    split
    · exact hf i
    · rfl
  have hfind : (fun i : Island => i.num == m) ∘ (fun i => if i.num == n then f i else i) = fun i => i.num == m :=
    funext fun i => by simp only [Function.comp, hnum]
  rw [State.island?, State.modIsland, List.find?_map, hfind, ← State.island?]
  cases h : s.island? m with
  | none => rfl
  | some i =>
    have hm : i.num = m := by simpa using List.find?_some h
    simp only [Option.map_some, hm]

theorem State.island?_num {s : State} {n : Nat} {i : Island} (h : s.island? n = some i) : i.num = n := by
  simpa using List.find?_some h

theorem Island.queue_num (i : Island) (q : Nat) : (i.queue q).num = q := by
  rw [Island.queue]
  cases h : i.queues.find? fun u => u.num == q with
  | none => rfl
  | some u => simpa using List.find?_some h

theorem find_replaced_queue {q : Queue} (qs : List Queue) (hany : qs.any (fun u => u.num == q.num) = true) :
    (qs.map fun u => if u.num == q.num then q else u).find? (fun u => u.num == q.num) = some q := by
  induction qs with
  | nil => exact absurd hany (by simp)
  | cons d qs ih =>
    rw [List.map_cons, List.find?_cons]
    by_cases hd : d.num = q.num
    · rw [if_pos (beq_iff_eq.2 hd), beq_self_eq_true]
    · rw [if_neg (by simpa using hd), beq_eq_false_iff_ne.2 hd]
      rw [List.any_cons, beq_eq_false_iff_ne.2 hd, Bool.false_or] at hany
      exact ih hany

theorem Island.queue_setQueue (i : Island) (q : Queue) : (i.setQueue q).queue q.num = q := by
  rw [Island.queue, Island.setQueue]
  dsimp only
  split
  · next hany => rw [find_replaced_queue _ hany]; rfl
  · next hany =>
    have hnone : i.queues.find? (fun u => u.num == q.num) = none := by
      rw [List.find?_eq_none]
      exact fun d hd h => hany (List.any_eq_true.2 ⟨d, hd, h⟩)
    rw [List.find?_append, hnone, List.find?_singleton, beq_self_eq_true]
    rfl

theorem Island.queue_map_shifts (i : Island) {f : Queue → Queue} (hnum : ∀ u, (f u).num = u.num) (hshifts : ∀ u, (f u).shifts = u.shifts)
    (q : Nat) : (Island.queue { i with queues := i.queues.map f } q).shifts = (i.queue q).shifts := by
  have hfind : (fun u : Queue => u.num == q) ∘ f = fun u => u.num == q := funext fun u => by simp only [Function.comp, hnum]
  rw [Island.queue, Island.queue, List.find?_map, hfind]
  cases i.queues.find? fun u => u.num == q with
  | none => rfl
  | some u => exact hshifts u

/-! ## Shifts -/

theorem State.shift?_modShift (s : State) (n m : Nat) {f : Shift → Shift} (hf : ∀ k, (f k).serial = k.serial) :
    (s.modShift n f).shift? m = (s.shift? m).map fun k => if m == n then f k else k := by
  have hserial (k : Shift) : (if k.serial == n then f k else k).serial = k.serial := by
    split
    · exact hf k
    · rfl
  have hfind : (fun k : Shift => k.serial == m) ∘ (fun k => if k.serial == n then f k else k) = fun k => k.serial == m :=
    funext fun k => by simp only [Function.comp, hserial]
  rw [State.shift?, State.modShift, List.find?_map, hfind, ← State.shift?]
  cases h : s.shift? m with
  | none => rfl
  | some k =>
    have hm : k.serial = m := by simpa using List.find?_some h
    simp only [Option.map_some, hm]

theorem State.shift?_serial {s : State} {n : Nat} {k : Shift} (h : s.shift? n = some k) : k.serial = n := by
  simpa using List.find?_some h

/-- The threads, the memory and the crews as they were: islands and shifts alone have changed, and wakes have been sent. -/
structure State.Schedules (s t : State) : Prop where
  rest : { t with islands := [], shifts := [], wakes := [] } = { s with islands := [], shifts := [], wakes := [] }

theorem State.Schedules.refl (s : State) : s.Schedules s := ⟨rfl⟩

theorem State.Schedules.trans {s t u : State} (h : s.Schedules t) (h' : t.Schedules u) : s.Schedules u := ⟨h'.rest.trans h.rest⟩

theorem State.modIsland_schedules (s : State) (n : Nat) (f : Island → Island) : s.Schedules (s.modIsland n f) := ⟨rfl⟩

theorem State.modShift_schedules (s : State) (n : Nat) (f : Shift → Shift) : s.Schedules (s.modShift n f) := ⟨rfl⟩

theorem State.wake_schedules (s : State) (k : ThreadKey) : s.Schedules (s.wake k) := by
  rw [State.wake]
  split <;> exact ⟨rfl⟩

theorem State.reachHead_schedules (s : State) (isl q : Nat) : s.Schedules (s.reachHead isl q) := by
  rw [State.reachHead]
  split
  · exact .refl s
  · split
    · exact .refl s
    · exact (s.modIsland_schedules _ _).trans (State.modShift_schedules _ _ _)

theorem State.wakeQueue_schedules (s : State) (isl q : Nat) : s.Schedules (s.wakeQueue isl q) := by
  rw [State.wakeQueue]
  split
  · exact .refl s
  · split
    · exact .refl s
    · exact (s.modIsland_schedules _ _).trans (State.wake_schedules _ _)

theorem State.leaveQueue_schedules (s : State) (k : Shift) : s.Schedules (s.leaveQueue k) := by
  have hout : s.Schedules (((s.modIsland k.island fun i =>
      { i with queues := i.queues.map fun q => if q.num = k.queue then { q with shifts := q.shifts.filter fun n => n != k.serial } else q }).modShift
        k.serial fun q => { q with gone := true }).wakeQueue k.island k.queue) :=
    ((s.modIsland_schedules _ _).trans (State.modShift_schedules _ _ _)).trans (State.wakeQueue_schedules _ _ _)
  rw [State.leaveQueue]
  split
  · exact hout.trans (State.reachHead_schedules _ _ _)
  · exact hout

/-! ## What the head of a queue does to shifts and queues -/

theorem State.reachHead_shift (s : State) (isl q : Nat) : ∀ k ∈ s.shifts, ∃ r, { k with ready := r } ∈ (s.reachHead isl q).shifts := by
  intro k hk
  have hsame : ∃ r, { k with ready := r } ∈ s.shifts := ⟨k.ready, hk⟩
  rw [State.reachHead]
  split
  · exact hsame
  · split
    · exact hsame
    · next n _ _ _ _ =>
      by_cases hn : k.serial == n
      · exact ⟨k.dep.isNone, List.mem_map.2 ⟨k, hk, if_pos hn⟩⟩
      · exact ⟨k.ready, List.mem_map.2 ⟨k, hk, if_neg hn⟩⟩

theorem State.reachHead_shift? (s : State) (isl q n : Nat) : ((s.reachHead isl q).shift? n).map (·.next) = (s.shift? n).map (·.next) := by
  rw [State.reachHead]
  split
  · rfl
  · split
    · rfl
    · dsimp only
      rw [State.shift?_modShift]
      · change ((s.shift? n).map _).map _ = _
        rw [Option.map_map]
        refine congrArg (fun f => (s.shift? n).map f) (funext fun k => ?_)
        simp only [Function.comp]
        split <;> rfl
      · exact fun _ => rfl

theorem State.reachHead_queue (s : State) (isl q n m : Nat) :
    ((s.reachHead isl q).island? n).map (fun i => (i.queue m).shifts) = (s.island? n).map fun i => (i.queue m).shifts := by
  rw [State.reachHead]
  split
  · rfl
  · split
    · rfl
    · change ((State.modIsland s isl _).island? n).map _ = _
      rw [State.island?_modIsland]
      · rw [Option.map_map]
        refine congrArg (fun f => (s.island? n).map f) (funext fun i => ?_)
        simp only [Function.comp]
        split
        · exact i.queue_map_shifts (fun u => by split <;> rfl) (fun u => by split <;> rfl) m
        · rfl
      · exact fun _ => rfl

/-- What a shift leaves that enters its queue at the tail. -/
theorem State.enterTail_schedules (s : State) (k : Shift) : s.Schedules (s.enterTail k) := by
  rw [State.enterTail]
  dsimp only
  split
  · exact (s.modIsland_schedules _ _).trans (State.reachHead_schedules _ _ _)
  · exact s.modIsland_schedules _ _

theorem State.enterTail_shift (s : State) (k : Shift) : ∀ j ∈ s.shifts, ∃ r, { j with ready := r } ∈ (s.enterTail k).shifts := by
  intro j hj
  rw [State.enterTail]
  dsimp only
  split
  · exact State.reachHead_shift _ _ _ j hj
  · exact ⟨j.ready, hj⟩

theorem State.enterTail_queue {s : State} {k : Shift} {i : Island} (h : s.island? k.island = some i) :
    ((s.enterTail k).island? k.island).map (fun j => (j.queue k.queue).shifts) = some ((i.queue k.queue).shifts ++ [k.serial]) := by
  let add (i : Island) : Island := i.setQueue { i.queue k.queue with shifts := (i.queue k.queue).shifts ++ [k.serial] }
  have hadd : ((s.modIsland k.island add).island? k.island).map (fun j => (j.queue k.queue).shifts) =
      some ((i.queue k.queue).shifts ++ [k.serial]) := by
    have hset : ((add i).queue k.queue).shifts = (i.queue k.queue).shifts ++ [k.serial] := by
      have hqueue := i.queue_setQueue { i.queue k.queue with shifts := (i.queue k.queue).shifts ++ [k.serial] }
      have hnum : (i.queue k.queue).num = k.queue := i.queue_num k.queue
      dsimp only at hqueue
      rw [hnum] at hqueue
      simp only [add, hnum, hqueue]
    rw [State.island?_modIsland s k.island k.island (f := add) fun _ => rfl, h]
    simp only [Option.map_some, beq_self_eq_true, if_true, hset]
  rw [State.enterTail]
  dsimp only
  split
  · exact (State.reachHead_queue _ _ _ _ _).trans hadd
  · exact hadd

/-! ## LAUNCH and GANG (R98, R99) -/

theorem HRes.packet_ok {r : HRes} {f : Seg → PacketRes} {k : Shift} (h : r.packet f = .ok k) : ∃ g, f g = .ok k := by
  cases r <;> first | exact ⟨_, h⟩ | exact absurd h (by simp [HRes.packet])

theorem packetBarrier_ok {s : State} {v : View} {htab x : Nat} {f : Option Ref → PacketRes} {k : Shift}
    (h : packetBarrier s v htab x f = .ok k) : ∃ b, f b = .ok k := by
  rw [packetBarrier] at h
  split at h
  · exact ⟨none, h⟩
  · obtain ⟨g, hg⟩ := HRes.packet_ok h
    dsimp only at hg
    split at hg
    · exact ⟨_, hg⟩
    · exact absurd hg (by simp)

theorem packetInbox_ok {s : State} {v : View} {k k' : Shift} {go : PacketRes} (h : packetInbox s v k go = .ok k') : go = .ok k' := by
  rw [packetInbox] at h
  split at h
  · exact h
  · obtain ⟨g, hg⟩ := HRes.packet_ok h
    dsimp only at hg
    split at hg
    · exact hg
    · exact absurd hg (by simp)

/-- A packet that passes is the shift that its fields describe. -/
theorem checkPacket_ok {s : State} {i : Island} {v : View} {x own : Nat} {gang : Option Word} {host : Bool} {k : Shift}
    (h : checkPacket s i v x own gang host = .ok k) : ∃ htab gl dep fin, k = packetShift x htab i.num gl host dep fin := by
  rw [checkPacket] at h
  extract_lets named htab gl at h
  split at h
  · exact absurd h (by simp)
  · split at h
    · exact absurd h (by simp)
    · exact absurd h (by simp)
    · split at h
      · exact absurd h (by simp)
      · exact absurd h (by simp)
      · exact absurd h (by simp)
      · exact absurd h (by simp)
      · split at h
        · exact absurd h (by simp)
        · split at h
          · exact absurd h (by simp)
          · split at h
            · exact absurd h (by simp)
            · split at h
              · exact absurd h (by simp)
              · obtain ⟨dep, hdep⟩ := packetBarrier_ok (packetInbox_ok h)
                obtain ⟨fin, hfin⟩ := packetBarrier_ok hdep
                exact ⟨_, _, dep, fin, (PacketRes.ok.inj hfin).symm⟩

/-- A thread that a release at .dev does not hold goes through its gate unchanged. -/
theorem State.deviceGate_of_ready {s : State} (h : s.deviceReady = true) (k : State → State) : s.deviceGate k = k s := by
  obtain ⟨hstore, hmsgs⟩ := Bool.and_eq_true_iff.1 h
  simp only [State.storeReady, State.readReady, Bool.and_eq_true, Bool.not_eq_true'] at hstore
  obtain ⟨⟨⟨⟨-, hport⟩, hloads⟩, -⟩, -⟩ := hstore
  have hnone : ∀ m ∈ s.msgs, (m.key == s.thr.key) = false := fun m hm => by
    simpa using List.all_eq_true.1 hmsgs m hm
  have hatoms : ∀ m ∈ s.msgs, (m.op.answers && m.key == s.thr.key) = false := fun m hm => by rw [hnone m hm, Bool.and_false]
  have hperform (p : MemMsg → Bool) (hp : ∀ m ∈ s.msgs, p m = false) : (if s.msgs.isEmpty then s else s.performMsgs p) = s := by
    split
    · rfl
    · exact State.performMsgs_of_none hp
  have hany : s.msgs.any (fun m => m.key == s.thr.key) = false := by
    rw [List.any_eq_false]
    exact fun m hm => by rw [hnone m hm]; exact Bool.false_ne_true
  rw [State.deviceGate, State.writeGate]
  dsimp only
  rw [hperform _ hatoms, State.flushPort_of_empty (s.portClear_iff.1 hport).1, hloads, State.portOf_of_clear hport, Bool.or_self,
    if_neg Bool.false_ne_true, hperform _ hnone, hany, if_neg Bool.false_ne_true]

theorem State.portClear_of_deviceReady {s : State} (h : s.deviceReady = true) : s.portClear = true ∧ ∀ m ∈ s.msgs, m.key ≠ s.thr.key := by
  obtain ⟨hstore, hmsgs⟩ := Bool.and_eq_true_iff.1 h
  simp only [State.storeReady, State.readReady, Bool.and_eq_true] at hstore
  exact ⟨hstore.1.1.1.2, fun m hm => by simpa using List.all_eq_true.1 hmsgs m hm⟩

/-- A load that has its bytes has changed caches alone. -/
theorem State.loadPlaced_value {s s1 : State} {v : View} {near : Bool} {g : Seg} {r : List LoadPart × Option (Nat × XRes)} {x : Nat}
    (h : s.loadPlaced v near g r = (s1, .value x)) : s.Settles s1 := by
  have hread := s.readParts_settles v near g r.1 0
  rw [State.loadPlaced] at h
  split at h
  · next f _ _ =>
    cases hf : f.2 <;> simp [State.loadFailure, hf] at h
  · rw [h] at hread
    exact hread

theorem State.loadFailure_ne_value (s : State) (v : View) (near : Bool) (va : Nat) (r : XRes) (s1 : State) (x : Nat) :
    s.loadFailure v near va r ≠ (s1, .value x) := by
  cases r <;> simp [State.loadFailure]

theorem State.loadBytes_value {s s1 : State} {g : Seg} {off n x : Nat} (hport : s.portClear = true)
    (h : s.loadBytes g off n = (s1, .value x)) : s.Settles s1 := by
  rw [State.loadBytes] at h
  cases hhandler : s.thr.isHandler with
  | true =>
    rw [State.loadElems, hhandler, if_pos rfl] at h
    exact State.loadPlaced_value h
  | false =>
    rw [State.loadElems_of_clear hport hhandler] at h
    split at h
    · exact State.loadPlaced_value h
    · split at h
      · exact State.loadPlaced_value h
      · exact absurd h (State.loadFailure_ne_value _ _ _ _ _ _ _)
      · exact absurd h (by simp)

/-- A LAUNCH or GANG whose checks pass and whose packet is read goes on with the packet. -/
theorem State.launchWith_of_read {s s1 : State} {d a : BitVec 6} {sg : BitVec 3} {gang : Option Word} {y h x : Nat}
    (hread : tableRead s s.thr.view s.thr.htab 8 = (.ok y, h)) (htab : s.thr.htab ≠ 0) (hlnc : h.testBit 17 = true)
    (hready : s.deviceReady = true) (hcheck : s.accCheck sg (s.thr.rg a).toNat 64 64 rightR .load = none)
    (hspace : (s.thr.seg sg).space ≠ spFar) (hbytes : s.loadBytes (s.thr.seg sg) (s.thr.rg a).toNat 64 = (s1, .value x)) :
    s.launchWith d a sg gang = s1.launchPacket d x gang := by
  have hbit : ¬h / 2 ^ 17 % 2 = 0 := by
    rw [Nat.testBit_eq_decide_div_mod_eq, decide_eq_true_eq] at hlnc
    omega
  have hcheck' : s.accCheck sg (s.rg a).toNat 64 64 rightR .load = none := hcheck
  have hbytes' : s.loadBytes (s.thr.seg sg) (s.rg a).toNat 64 = (s1, .value x) := hbytes
  rw [State.launchWith, State.withHeader_of_read _ htab hread, if_neg hbit, State.deviceGate_of_ready hready, hcheck']
  change (if (s.thr.seg sg).space = spFar then _ else _) = _
  rw [if_neg hspace, hbytes']

/-- A unit that is complete with one g register written, from a state in which no thread and no settled byte has changed. -/
theorem State.Quiet.completes_with_register {s s1 t : State} (h : s.Quiet s1) (d : BitVec 6) (x : Word)
    (ht : t.thr = (s1.thr.wg d x).advance) (hothers : t.others = s1.others) (hkeeps : ∀ y, State.KeepsByte y s1 t) :
    (s.onThr fun r => r.wg d x).passed t ∧ s.keepsMemory t [] := by
  rw [h.thr] at ht
  refine ⟨⟨sameRegs_of ?_ (hothers.trans h.others), ?_, ?_, ?_⟩, fun y hy _ => ((h.keeps y).trans (hkeeps y) hy).2⟩
  · rw [ht]; rfl
  · rw [ht]; rfl
  · rw [ht]; rfl
  · rw [ht]; rfl

theorem State.Schedules.keepsByte {s t : State} (h : s.Schedules t) (x : Loc) : State.KeepsByte x s t := by
  have hmem : t.mem = s.mem := (congrArg State.mem h.rest :)
  have hsettled : t.settled x = s.settled x := (congrArg (fun u : State => u.settled x) h.rest :)
  exact fun hx => ⟨hsettled.trans hx, by rw [hmem]⟩

/-- A shift that has just been numbered and put at the tail of its queue. -/
theorem State.addShift_enterTail {s : State} {k : Shift} {i : Island} (h : s.island? i.num = some i) (hk : k.island = i.num) :
    let t := (s.addShift k).enterTail { k with serial := s.nextSerial }
    t.nextSerial = s.nextSerial + 1 ∧
      (t.island? i.num).map (fun j => (j.queue k.queue).shifts) = some ((i.queue k.queue).shifts ++ [s.nextSerial]) ∧
      ∃ r, { k with serial := s.nextSerial, ready := r } ∈ t.shifts := by
  dsimp only
  have hsched := (s.addShift k).enterTail_schedules { k with serial := s.nextSerial }
  refine ⟨(congrArg State.nextSerial hsched.rest :), ?_, ?_⟩
  · rw [← hk] at h ⊢
    exact State.enterTail_queue (s := s.addShift k) (k := { k with serial := s.nextSerial }) h
  · exact (s.addShift k).enterTail_shift { k with serial := s.nextSerial } _ (List.mem_append_right _ (List.mem_singleton.2 rfl))

/-- The packet of a LAUNCH that is in order and finds room: the shift is numbered and put at the tail of its queue. -/
theorem State.launchPacket_ok {s : State} {d : BitVec 6} {x : Nat} {gang : Option Word} {i : Island} {k : Shift}
    (hisl : s.island? s.thr.view.island = some i) (hk : checkPacket s i s.thr.view x s.thr.htab gang false = .ok k)
    (henter : i.entersQueue k.queue s.thr.key = true) :
    s.launchPacket d x gang = (((s.releaseEager s.thr.view s.thr.key .dev).addShift k).enterTail
      { k with serial := s.nextSerial }).finishG d (wordOf s.nextSerial) := by
  rw [State.launchPacket, hisl]
  dsimp only
  rw [hk]
  dsimp only
  rw [henter, Bool.not_true, if_neg Bool.false_ne_true]

theorem State.launchPacket_invalid {s : State} {d : BitVec 6} {x : Nat} {gang : Option Word} {i : Island}
    (hisl : s.island? s.thr.view.island = some i) (hk : checkPacket s i s.thr.view x s.thr.htab gang false = .invalid) :
    s.launchPacket d x gang = s.finishG d 0 := by
  rw [State.launchPacket, hisl]
  dsimp only
  rw [hk]

/-- LAUNCH and GANG are one operation. -/
theorem exec_launchOrGang (u isGang : Bool) (d a b : BitVec 6) (sg : BitVec 3) (s : State) :
    exec (if isGang then .gang u d a b sg else .launch u d a sg) s =
      .next (s.launchWith d a sg (if isGang then some (s.thr.rg b) else none)) := by
  cases isGang <;> rfl

theorem State.Eases.quiet {c : Nat} {s t : State} (h : State.Eases c s t) : s.Quiet t := ⟨h.thr, h.others, h.keeps⟩

theorem State.Schedules.quiet {s t : State} (h : s.Schedules t) : s.Quiet t :=
  ⟨(congrArg State.thr h.rest :), (congrArg State.others h.rest :), h.keepsByte⟩

theorem State.Quiet.finishG {s t : State} (h : s.Quiet t) (d : BitVec 6) (x : Word) :
    (s.onThr fun r => r.wg d x).passed (t.finishG d x) ∧ s.keepsMemory (t.finishG d x) [] :=
  h.completes_with_register d x rfl rfl fun y => .refl y t

theorem State.addShift_quiet (s : State) (k : Shift) : s.Quiet (s.addShift k) := ⟨rfl, rfl, fun x => .refl x s⟩

/-- A packet read by LAUNCH or GANG, from its first 64 bytes on (R98, R99). -/
theorem State.launchPacket_settled {s s1 : State} {d : BitVec 6} {x : Nat} {gl : Option Word} {isl : Island} (hs1 : s.Settles s1)
    (hmsgs : ∀ m ∈ s.msgs, m.key ≠ s.thr.key) (hisl : s.island? s.thr.view.island = some isl) :
    (checkPacket s1 isl s.thr.view x s.thr.htab gl false = .invalid →
      (s.onThr fun r => r.wg d 0).passed (s1.launchPacket d x gl) ∧ s.keepsMemory (s1.launchPacket d x gl) [] ∧
        (s1.launchPacket d x gl).shifts = s.shifts) ∧
    (∀ k, checkPacket s1 isl s.thr.view x s.thr.htab gl false = .ok k → isl.entersQueue k.queue s.thr.key = true →
      let t := s1.launchPacket d x gl
      (s.onThr fun r => r.wg d (BitVec.ofNat 64 s.nextSerial)).passed t ∧ s.keepsMemory t [] ∧
        t.nextSerial = s.nextSerial + 1 ∧
        (t.island? isl.num).map (fun j => (j.queue k.queue).shifts) = some ((isl.queue k.queue).shifts ++ [s.nextSerial]) ∧
        ∃ r, { k with serial := s.nextSerial, ready := r } ∈ t.shifts) := by
  have hthr : s1.thr = s.thr := (congrArg State.thr hs1.apart :)
  have hshifts : s1.shifts = s.shifts := (congrArg State.shifts hs1.apart :)
  have hislands : s1.islands = s.islands := (congrArg State.islands hs1.apart :)
  have hserial : s1.nextSerial = s.nextSerial := (congrArg State.nextSerial hs1.apart :)
  have hmsgs1 : s1.msgs = s.msgs := (congrArg State.msgs hs1.apart :)
  have hisl1 : s1.island? s1.thr.view.island = some isl := by rw [State.island?, hislands, hthr]; exact hisl
  constructor
  · intro hinvalid
    rw [State.launchPacket_invalid hisl1 (by rw [hthr]; exact hinvalid)]
    obtain ⟨hpassed, hkeeps⟩ := hs1.quiet.finishG d 0
    exact ⟨hpassed, hkeeps, hshifts⟩
  · intro k hk henter
    have hnum : isl.num = s1.thr.view.island := State.island?_num hisl1
    have hki : k.island = isl.num := by
      obtain ⟨htab, gl, dep, fin, rfl⟩ := checkPacket_ok hk
      rfl
    dsimp only
    rw [State.launchPacket_ok hisl1 (by rw [hthr]; exact hk) (by rw [hthr]; exact henter)]
    have hease : State.Eases (coreIndex s1.thr.view) s1 (s1.releaseEager s1.thr.view s1.thr.key .dev) :=
      (State.release_of_none (v := s1.thr.view) fun m hm => by
        rw [hmsgs1] at hm
        rw [hthr, beq_eq_false_iff_ne.2 (hmsgs m hm), Bool.false_and]).1.trans ((State.drainCovered_settles _ _).eases _)
    generalize s1.releaseEager s1.thr.view s1.thr.key .dev = s2 at hease ⊢
    have hserial2 : s2.nextSerial = s1.nextSerial := (congrArg State.nextSerial hease.rest :)
    have hislands2 : s2.islands = s1.islands := (congrArg State.islands hease.rest :)
    have hisl2 : s2.island? isl.num = some isl := by rw [State.island?, hislands2, hnum]; exact hisl1
    rw [← hserial2, ← hserial, ← hserial2]
    obtain ⟨hnext, hqueue, hmem⟩ := State.addShift_enterTail hisl2 hki
    obtain ⟨hpassed, hkeeps⟩ := (((hs1.quiet.trans hease.quiet).trans (s2.addShift_quiet k)).trans
      (State.enterTail_schedules (s2.addShift k) { k with serial := s2.nextSerial }).quiet).finishG d (wordOf s2.nextSerial)
    exact ⟨hpassed, hkeeps, hnext, hqueue, hmem⟩

/-! ## Dependence (R249) -/

theorem State.serveRecordsIf_settles (s : State) (b : Bool) (line : Nat) : s.Settles (if b then s.serveRecords line else s) := by
  split
  · exact s.serveRecords_settles line
  · exact .refl s

theorem State.Settles.barrier_eq {s t : State} (h : s.Settles t) {x : Loc} (hx : s.settledRange x 16) : t.barrier x = s.barrier x := by
  rw [State.barrier, State.barrier, State.peek, State.peek, h.memRead_eq hx]

/-- The dependence of a packet at the head of its queue, read from its barrier: the packet is Ready where it is done. -/
theorem State.dependenceRead_settled {s : State} {k : Shift} {b : Ref} {x : Loc}
    (haddr : badAddress (b.seg.base.toNat + b.off) = false) (hplace : s.locateNow b.view b.seg b.off needR = .ok x)
    (hpoison : s.poisoned x 16 = false) (hx : s.settledRange x 16) :
    ∃ s1, s.Settles s1 ∧
      s.dependenceRead k b = if (s.barrier x).done then s1.modShift k.serial fun q => { q with ready := true } else s1 := by
  have hserve := s.serveRecordsIf_settles (isDram x) (lineAt x)
  refine ⟨_, hserve, ?_⟩
  rw [State.dependenceRead, haddr, Bool.and_false, if_neg Bool.false_ne_true, hplace]
  dsimp only
  rw [hserve.poisoned_eq_false hpoison, if_neg Bool.false_ne_true, hserve.barrier_eq hx]

theorem packetDependenceRead_settled {s : State} {n : Nat} {k : Shift} {b : Ref} {x : Loc} (hk : s.shift? n = some k)
    (hdep : k.dep = some b) (hhead : s.atHead k = true) (hready : k.ready = false)
    (haddr : badAddress (b.seg.base.toNat + b.off) = false) (hplace : s.locateNow b.view b.seg b.off needR = .ok x)
    (hpoison : s.poisoned x 16 = false) (hx : s.settledRange x 16) :
    ∃ t : State, exec (.packetDependenceRead n) s = .next t ∧ s.sameRegs t ∧ s.keepsMemory t [] ∧
      t.shift? n = some { k with ready := (s.barrier x).done } := by
  obtain ⟨s1, hs1, hread⟩ := State.dependenceRead_settled (k := k) haddr hplace hpoison hx
  have hexec : exec (.packetDependenceRead n) s = .next (s.dependenceRead k b) := by
    have harm : exec (.packetDependenceRead n) s = execPacketDependenceRead n s := rfl
    rw [harm, execPacketDependenceRead, State.tryDependence, hk]
    dsimp only
    rw [hdep]
    dsimp only
    rw [hhead, hready, Bool.not_false, Bool.and_self, if_pos rfl]
  have hshifts : s1.shifts = s.shifts := (congrArg State.shifts hs1.apart :)
  have hk1 : s1.shift? n = some k := by rw [State.shift?, hshifts]; exact hk
  rw [hread] at hexec
  refine ⟨_, hexec, ?_⟩
  split
  · next hdone =>
    have hquiet := hs1.quiet.trans (s1.modShift_schedules k.serial fun q => { q with ready := true }).quiet
    refine ⟨sameRegs_of (congrArg _ hquiet.thr) hquiet.others, hquiet.keepsMemory _, ?_⟩
    rw [State.shift?_modShift]
    · rw [hk1, Option.map_some, State.shift?_serial hk, beq_self_eq_true, if_pos rfl, hdone]
    · exact fun _ => rfl
  · next hdone =>
    refine ⟨sameRegs_of (congrArg _ hs1.quiet.thr) hs1.quiet.others, hs1.quiet.keepsMemory _, ?_⟩
    rw [hk1, Bool.eq_false_iff.2 hdone, ← hready]

/-! ## The choice of queue (R250) -/

theorem Queue.eff_le_of_beats {a b : Queue} (h : a.beats b = true) : b.eff ≤ a.eff := by
  rw [Queue.beats] at h
  split at h
  · exact (of_decide_eq_true h).le
  · next heq => exact (Decidable.not_not.1 heq).symm.le

theorem Queue.eff_le_of_not_beats {a b : Queue} (h : ¬a.beats b = true) : a.eff ≤ b.eff := by
  by_contra hlt
  refine h ?_
  rw [Queue.beats, if_pos (by omega)]
  exact decide_eq_true (by omega)

/-- The candidate is one of the Ready queues, and none has a greater effective priority. -/
theorem candidate_max {l : List (Queue × Shift)} {q : Queue × Shift} (h : candidate l = some q) :
    q ∈ l ∧ ∀ r ∈ l, r.1.eff ≤ q.1.eff := by
  induction l generalizing q with
  | nil => exact absurd h (by simp [candidate])
  | cons a l ih =>
    rw [candidate] at h
    cases hl : candidate l with
    | none =>
      have hnil : l = [] := by
        cases l with
        | nil => rfl
        | cons c l =>
          rw [candidate] at hl
          split at hl
          · exact absurd hl (by simp)
          · split at hl <;> exact absurd hl (by simp)
      rw [hl] at h
      obtain rfl := Option.some.inj h
      rw [hnil]
      exact ⟨List.mem_singleton.2 rfl, fun r hr => by rw [List.mem_singleton.1 hr]⟩
    | some b =>
      obtain ⟨hmem, hmax⟩ := ih hl
      rw [hl] at h
      dsimp only at h
      split at h
      · next hbeats =>
        obtain rfl := Option.some.inj h
        refine ⟨List.mem_cons_self, fun r hr => ?_⟩
        obtain rfl | hr := List.mem_cons.1 hr
        · exact le_refl _
        · exact (hmax r hr).trans (Queue.eff_le_of_beats hbeats)
      · next hbeats =>
        obtain rfl := Option.some.inj h
        refine ⟨List.mem_cons_of_mem _ hmem, fun r hr => ?_⟩
        obtain rfl | hr := List.mem_cons.1 hr
        · exact Queue.eff_le_of_not_beats hbeats
        · exact hmax r hr

/-- A Ready queue's packet is the shift of its serial number. -/
theorem State.readyQueues_shift? {s : State} {i : Island} {r : Queue × Shift} (h : r ∈ s.readyQueues i) :
    s.shift? r.2.serial = some r.2 := by
  obtain ⟨n, -, hn⟩ := List.mem_filterMap.1 h
  split at hn
  · next k hk =>
    split at hn
    · obtain ⟨m, -, hm⟩ := Option.bind_eq_some_iff.1 hk
      obtain rfl := Option.some.inj hn
      dsimp only
      rw [State.shift?_serial hm]
      exact hm
    · exact absurd hn (by simp)
  · exact absurd hn (by simp)

/-! ## Placement (R252) -/

theorem assignThreads_length {spad n : Nat} {free : List (List Nat)} {used : List (List (Nat × Nat))} {l : List (Nat × Nat × Nat)}
    (h : assignThreads spad n free used = some l) : l.length = n := by
  induction n generalizing free used l with
  | zero =>
    obtain rfl := Option.some.inj h
    rfl
  | succ n ih =>
    rw [assignThreads] at h
    split at h
    · obtain ⟨l', hl', rfl⟩ := Option.map_eq_some_iff.1 h
      rw [List.length_cons, ih hl']
    · exact absurd h (by simp)

theorem State.fit_length {s : State} {k : Shift} {cl : Nat} {f : Nat × Nat × List (Nat × Nat × Nat)} (h : s.fit k cl = some f) :
    f.2.2.length = k.threads := by
  rw [State.fit] at h
  split at h
  · exact absurd h (by simp)
  · obtain ⟨b, -, hb⟩ := List.exists_of_findSome?_eq_some h
    rw [State.fitAt] at hb
    dsimp only at hb
    split at hb
    · exact absurd hb (by simp)
    · obtain ⟨l, hl, rfl⟩ := Option.map_eq_some_iff.1 hb
      exact assignThreads_length hl

theorem mem_mapM_some {α β : Type} {f : α → Option β} {l : List α} {l' : List β} (h : l.mapM f = some l') :
    ∀ b ∈ l', ∃ a ∈ l, f a = some b := by
  induction l generalizing l' with
  | nil =>
    obtain rfl := Option.some.inj h
    exact fun b hb => absurd hb (by simp)
  | cons a l ih =>
    rw [List.mapM_cons] at h
    obtain ⟨b, hb, h⟩ := Option.bind_eq_some_iff.1 h
    obtain ⟨m, hm, h⟩ := Option.bind_eq_some_iff.1 h
    obtain rfl := Option.some.inj h
    intro c hc
    obtain rfl | hc := List.mem_cons.1 hc
    · exact ⟨a, List.mem_cons_self, hb⟩
    · obtain ⟨e, he, hfe⟩ := ih hm c hc
      exact ⟨e, List.mem_cons_of_mem _ he, hfe⟩

/-- Every member of a placement has as many threads as the packet names. -/
theorem State.placement_length {s : State} {i : Island} {k : Shift} {fs : List (Nat × Nat × List (Nat × Nat × Nat))}
    (h : s.placement i k = some fs) : ∀ f ∈ fs, f.2.2.length = k.threads := by
  intro f hf
  rw [State.placement] at h
  split at h
  · obtain ⟨cl, -, hcl⟩ := List.exists_of_findSome?_eq_some h
    obtain ⟨p, hp, rfl⟩ := Option.map_eq_some_iff.1 hcl
    rw [List.mem_singleton.1 hf]
    exact State.fit_length hp
  · obtain ⟨x0, -, hx0⟩ := List.exists_of_findSome?_eq_some h
    obtain ⟨l, -, hl⟩ := Option.bind_eq_some_iff.1 hx0
    obtain ⟨cl, -, hcl⟩ := mem_mapM_some hl f hf
    exact State.fit_length hcl

/-! ## A crew's memory (R87) -/

theorem crewMemoryRelease_released {s : State} {serial n : Nat} {k : Crew} (hk : s.crew? (serial, n) = some k)
    (hretired : k.retired = true) (howed : s.crewOwed k = false) :
    ∃ t : State, exec (.crewMemoryRelease serial n) s = .next t ∧
      t.crew? (serial, n) = none ∧ t.thr = s.thr ∧ t.mem = s.mem ∧
      t.others = s.others.filter (fun v => !v.inCrew serial n) := by
  have hexec : exec (.crewMemoryRelease serial n) s = execCrewMemoryRelease serial n s := rfl
  rw [hexec, execCrewMemoryRelease, hk]
  dsimp only
  rw [hretired, howed, Bool.not_true, Bool.or_self, if_neg Bool.false_ne_true]
  refine ⟨_, rfl, ?_, rfl, rfl, rfl⟩
  rw [State.crew?, List.find?_eq_none]
  exact fun c hc => by simpa only [Bool.not_eq_true', Bool.not_eq_true] using (List.mem_filter.1 hc).2

theorem crewMemoryRelease_kept {s : State} {serial n : Nat} {k : Crew} (hk : s.crew? (serial, n) = some k)
    (h : k.retired = false ∨ s.crewOwed k = true) : exec (.crewMemoryRelease serial n) s = .next s := by
  have hexec : exec (.crewMemoryRelease serial n) s = execCrewMemoryRelease serial n s := rfl
  have hkept : (!k.retired || s.crewOwed k) = true := by
    rcases h with h | h
    · rw [h]; rfl
    · rw [h, Bool.or_true]
  rw [hexec, execCrewMemoryRelease, hk]
  dsimp only
  rw [hkept, if_pos rfl]

/-! ## Dispatch (R247, R248) -/

/-- The threads `new` have been added and crews with them, and else memory and caches alone have changed. -/
structure State.Starts (s t : State) (new : List Thread) (crews : Nat) : Prop where
  rest : { t.apart with others := [], crews := [], empty := [], gangs := [], nextId := 0 } =
    { s.apart with others := [], crews := [], empty := [], gangs := [], nextId := 0 }
  others : t.others = s.others ++ new
  crews : t.crews.length = s.crews.length + crews

theorem State.Starts.refl (s : State) : s.Starts s [] 0 := ⟨rfl, (List.append_nil _).symm, rfl⟩

theorem State.Starts.trans {s t u : State} {new new' : List Thread} {n n' : Nat} (h : s.Starts t new n) (h' : t.Starts u new' n') :
    s.Starts u (new ++ new') (n + n') :=
  ⟨h'.rest.trans h.rest, by rw [h'.others, h.others, List.append_assoc], by rw [h'.crews, h.crews, Nat.add_assoc]⟩

theorem State.Starts.waits {s t : State} {new : List Thread} {n : Nat} (h : s.Starts t new n) : t.waits = s.waits :=
  (congrArg State.waits h.rest :)

theorem State.Settles.starts {s t : State} (h : s.Settles t) : s.Starts t [] 0 :=
  ⟨by rw [h.apart], (congrArg State.others h.apart :).trans (List.append_nil _).symm, congrArg List.length (congrArg State.crews h.apart :)⟩

/-- With no request waiting, clearing a range serves nothing. -/
theorem State.wipe_starts {s : State} (hw : s.waits = []) (lo n : Nat) : s.Starts (s.wipe lo n) [] 0 := by
  have hclear : s.Starts (s.clearRange lo n) [] 0 := ⟨rfl, (List.append_nil _).symm, rfl⟩
  have hwaits : (s.clearRange lo n).waits = [] := hw
  rw [State.wipe, State.serveRange, hwaits]
  exact hclear

/-- A thread as a crew starts it on a cluster. -/
def Shift.Started (k : Shift) (n cx cy stage cl tid : Nat) (v : Thread) : Prop :=
  ∃ w segs, w.cluster = cl ∧ v = k.newThread n cx cy stage tid w segs

theorem State.startThread_starts {s t : State} {k : Shift} {n cx cy stage tid cl b : Nat} {p : Nat × Nat × Nat} (hw : s.waits = [])
    (h : s.startThread k n cx cy stage tid cl b p = .ok t) : ∃ v, s.Starts t [v] 0 ∧ k.Started n cx cy stage cl tid v := by
  rw [State.startThread] at h
  dsimp only at h
  split at h
  · exact absurd h (by simp)
  · exact absurd h (by simp)
  · next segs hsegs =>
    obtain rfl := Ready.ok.inj h
    refine ⟨k.newThread n cx cy stage tid (k.viewAt cl b p) segs, ?_, k.viewAt cl b p, segs, rfl, rfl⟩
    have hclear : s.Starts (s.clearRange (laneLoc (coreIndex (k.viewAt cl b p)) (k.viewAt cl b p).slot 0) 8192) [] 0 :=
      ⟨rfl, (List.append_nil _).symm, rfl⟩
    have hset := (hclear.trans (State.wipe_starts (hclear.waits.trans hw) (spadLoc (coreIndex (k.viewAt cl b p)) (k.viewAt cl b p).spadBase)
      (k.viewAt cl b p).spadSize)).trans (State.acquire_settles _ (k.viewAt cl b p) .dev).starts
    generalize State.acquire _ _ _ = u at hset ⊢
    have hadd : u.Starts { u with others := u.others ++ [k.newThread n cx cy stage tid (k.viewAt cl b p) segs] }
        [k.newThread n cx cy stage tid (k.viewAt cl b p) segs] 0 := ⟨rfl, rfl, rfl⟩
    exact hset.trans hadd

/-- The threads of a crew, one for each place, in %tid order. -/
theorem startThreads_starts {k : Shift} {n cx cy stage cl b : Nat} {ps : List (Nat × Nat × Nat)} {tid : Nat} {s t : State} (hw : s.waits = [])
    (h : startThreads k n cx cy stage cl b ps tid s = .ok t) : ∃ new, s.Starts t new 0 ∧ new.length = ps.length ∧
      (∀ v ∈ new, ∃ j, k.Started n cx cy stage cl j v) ∧ ∀ j, j < ps.length → ∃ v ∈ new, k.Started n cx cy stage cl (tid + j) v := by
  induction ps generalizing tid s with
  | nil =>
    obtain rfl := Ready.ok.inj h
    exact ⟨[], .refl _, rfl, fun v hv => absurd hv (by simp), fun j hj => absurd hj (by simp)⟩
  | cons p ps ih =>
    rw [startThreads] at h
    split at h
    · next s1 hs1 =>
      obtain ⟨v, hstart, hv⟩ := State.startThread_starts hw hs1
      obtain ⟨new, hnew, hlength, hall, hsome⟩ := ih (hstart.waits.trans hw) h
      refine ⟨v :: new, hstart.trans hnew, by rw [List.length_cons, List.length_cons, hlength], fun u hu => ?_, fun j hj => ?_⟩
      · obtain rfl | hu := List.mem_cons.1 hu
        · exact ⟨tid, hv⟩
        · exact hall u hu
      · cases j with
        | zero => exact ⟨v, List.mem_cons_self, hv⟩
        | succ j =>
          obtain ⟨u, hu, hstarted⟩ := hsome j (by simpa using hj)
          exact ⟨u, List.mem_cons_of_mem _ hu, by rw [show tid + (j + 1) = tid + 1 + j by omega]; exact hstarted⟩
    · next hnot => exact absurd h (hnot t)

/-- One crew: a record of it, and its threads. -/
theorem State.startCrew_starts {s t : State} {k : Shift} {n cx cy stage : Nat} {gang : Option (Nat × Nat)}
    {f : Nat × Nat × List (Nat × Nat × Nat)} (hw : s.waits = []) (h : s.startCrew k n cx cy stage gang f = .ok t) :
    ∃ new, s.Starts t new 1 ∧ new.length = f.2.2.length ∧ (∀ v ∈ new, ∃ j, k.Started n cx cy stage f.1 j v) ∧
      ∀ j, j < f.2.2.length → ∃ v ∈ new, k.Started n cx cy stage f.1 j v := by
  unfold State.startCrew at h
  extract_lets cl b crew clear s1 at h
  have hadd : s.Starts { s with crews := s.crews ++ [crew] } [] 1 := ⟨rfl, (List.append_nil _).symm, by rw [List.length_append]; rfl⟩
  have hfold (l : List Nat) : ∀ u : State, u.waits = [] → u.Starts (l.foldl clear u) [] 0 := by
    induction l with
    | nil => exact fun u _ => .refl u
    | cons c l ih =>
      intro u hu
      have hclear : u.Starts (clear u c) [] 0 := State.wipe_starts hu _ _
      exact hclear.trans (ih _ (hclear.waits.trans hu))
  have hs1 : s.Starts s1 [] 1 := hadd.trans (hfold _ _ hw)
  obtain ⟨new, hnew, hlength, hall, hsome⟩ := startThreads_starts (hs1.waits.trans hw) h
  exact ⟨new, hs1.trans hnew, hlength, hall, fun j hj => by simpa only [Nat.zero_add] using hsome j hj⟩

/-- The crews of one decision, one for each member. -/
theorem startCrews_starts {k : Shift} {j cy stage : Nat} {gid : Option Nat} {fs : List (Nat × Nat × List (Nat × Nat × Nat))} {m : Nat}
    {s t : State} (hw : s.waits = []) (hlength : ∀ f ∈ fs, f.2.2.length = k.threads) (h : startCrews k j cy stage gid fs m s = .ok t) :
    ∃ new, s.Starts t new fs.length ∧ new.length = fs.length * k.threads ∧
      (∀ v ∈ new, ∃ n cx cl tid, k.Started n cx cy stage cl tid v) ∧ ∀ i tid, i < fs.length → tid < k.threads →
        let cx := j * k.gangLen + (m + i)
        ∃ v ∈ new, k.Started ((cy * k.ncx + cx) * k.nstage + stage) cx cy stage (fs.getD i (0, 0, [])).1 tid v := by
  induction fs generalizing m s with
  | nil =>
    obtain rfl := Ready.ok.inj h
    exact ⟨[], .refl _, by rw [List.length_nil, List.length_nil, Nat.zero_mul], fun v hv => absurd hv (by simp), fun i tid hi => absurd hi (by simp)⟩
  | cons f fs ih =>
    rw [startCrews] at h
    split at h
    · next s1 hs1 =>
      obtain ⟨first, hfirst, hfirstLength, hfirstAll, hfirstSome⟩ := State.startCrew_starts hw hs1
      obtain ⟨new, hnew, hnewLength, hall, hsome⟩ := ih (hfirst.waits.trans hw) (fun g hg => hlength g (List.mem_cons_of_mem _ hg)) h
      have hf : f.2.2.length = k.threads := hlength f List.mem_cons_self
      refine ⟨first ++ new, ?_, ?_, fun v hv => ?_, fun i tid hi htid => ?_⟩
      · rw [List.length_cons, Nat.add_comm]
        exact hfirst.trans hnew
      · rw [List.length_append, hfirstLength, hf, hnewLength, List.length_cons, Nat.add_mul, Nat.one_mul, Nat.add_comm]
      · obtain hv | hv := List.mem_append.1 hv
        · obtain ⟨tid, hstarted⟩ := hfirstAll v hv
          exact ⟨_, _, _, tid, hstarted⟩
        · exact hall v hv
      · cases i with
        | zero =>
          obtain ⟨v, hv, hstarted⟩ := hfirstSome tid (by rw [hf]; exact htid)
          exact ⟨v, List.mem_append_left _ hv, hstarted⟩
        | succ i =>
          obtain ⟨v, hv, hstarted⟩ := hsome i tid (by simpa using hi) htid
          refine ⟨v, List.mem_append_right _ hv, ?_⟩
          rw [show m + (i + 1) = m + 1 + i by omega]
          exact hstarted
    · next hnot => exact absurd h (hnot t)

/-- What a dispatch starts. -/
theorem State.dispatch_starts {s t : State} {k : Shift} {fs : List (Nat × Nat × List (Nat × Nat × Nat))} (hw : s.waits = [])
    (hlength : ∀ f ∈ fs, f.2.2.length = k.threads) (h : s.dispatch k fs = .ok t) :
    let gj := k.ncx / k.gangLen
    let cy := k.next / (k.nstage * gj)
    let stage := k.next % k.nstage
    ∃ new, s.Starts t new fs.length ∧ new.length = fs.length * k.threads ∧
      (∀ v ∈ new, ∃ n cx cl tid, k.Started n cx cy stage cl tid v) ∧ ∀ i tid, i < fs.length → tid < k.threads →
        let cx := k.next / k.nstage % gj * k.gangLen + i
        ∃ v ∈ new, k.Started ((cy * k.ncx + cx) * k.nstage + stage) cx cy stage (fs.getD i (0, 0, [])).1 tid v := by
  unfold State.dispatch at h
  extract_lets gj stage j cy gang at h
  dsimp only
  split at h
  · obtain ⟨new, hnew, hnewLength, hall, hsome⟩ := startCrews_starts hw hlength h
    exact ⟨new, hnew, hnewLength, hall, fun i tid hi htid => by simpa only [Nat.zero_add] using hsome i tid hi htid⟩
  · have hgang : s.Starts { s with gangs := s.gangs ++ [gang], nextId := s.nextId + 1 } [] 0 := ⟨rfl, (List.append_nil _).symm, rfl⟩
    obtain ⟨new, hnew, hnewLength, hall, hsome⟩ := startCrews_starts (s := { s with gangs := s.gangs ++ [gang], nextId := s.nextId + 1 }) hw hlength h
    refine ⟨new, ?_, hnewLength, hall, fun i tid hi htid => by simpa only [Nat.zero_add] using hsome i tid hi htid⟩
    have hboth := hgang.trans hnew
    rw [Nat.zero_add] at hboth
    exact hboth

/-! ## The decision (R250) -/

theorem State.wakeQueue_shifts (s : State) (isl q : Nat) : (s.wakeQueue isl q).shifts = s.shifts := by
  rw [State.wakeQueue]
  split
  · rfl
  · split
    · rfl
    · exact wake_shifts _ _

/-- A shift's count of crews is not touched as it leaves its queue. -/
theorem State.leaveQueue_shift? (s : State) (k : Shift) (n : Nat) : ((s.leaveQueue k).shift? n).map (·.next) = (s.shift? n).map (·.next) := by
  have hout : ((((s.modIsland k.island fun i =>
      { i with queues := i.queues.map fun q => if q.num = k.queue then { q with shifts := q.shifts.filter fun n => n != k.serial } else q }).modShift
        k.serial fun q => { q with gone := true }).wakeQueue k.island k.queue).shift? n).map (·.next) = (s.shift? n).map (·.next) := by
    rw [State.shift?, State.wakeQueue_shifts, ← State.shift?, State.shift?_modShift]
    · change ((s.shift? n).map _).map _ = _
      rw [Option.map_map]
      refine congrArg (fun f => (s.shift? n).map f) (funext fun k => ?_)
      simp only [Function.comp]
      split <;> rfl
    · exact fun _ => rfl
  rw [State.leaveQueue]
  split
  · exact (State.reachHead_shift? _ _ _ _).trans hout
  · exact hout

/-- What a decision leaves in the queues and the shift of its crew. -/
theorem State.afterDecision_next {s : State} (i : Island) (ready : List (Queue × Shift)) {k : Shift} (hk : s.shift? k.serial = some k) :
    s.Schedules (s.afterDecision i ready k) ∧ ((s.afterDecision i ready k).shift? k.serial).map (·.next) = some (k.next + 1) := by
  unfold State.afterDecision
  extract_lets mark s1 s2
  have hmark (u : State) (q : Queue × Shift) : u.Schedules (mark u q) ∧ (mark u q).shifts = u.shifts := by
    simp only [mark]
    split <;> exact ⟨State.modIsland_schedules _ _ _, rfl⟩
  have hs1 : s.Schedules s1 ∧ s1.shifts = s.shifts :=
    foldl_related (R := fun u v : State => u.Schedules v ∧ v.shifts = u.shifts) (fun u => ⟨.refl u, rfl⟩)
      (fun h h' => ⟨h.1.trans h'.1, h'.2.trans h.2⟩) ready (fun q _ u => hmark u q) s
  have hs2 : s.Schedules s2 := hs1.1.trans (s1.modShift_schedules _ _)
  have hnext : (s2.shift? k.serial).map (·.next) = some (k.next + 1) := by
    have hk1 : s1.shift? k.serial = some k := by rw [State.shift?, hs1.2]; exact hk
    simp only [s2]
    rw [State.shift?_modShift]
    · rw [hk1, Option.map_some, Option.map_some, beq_self_eq_true, if_pos rfl]
    · exact fun _ => rfl
  split
  · exact ⟨hs2.trans (s2.leaveQueue_schedules k), (s2.leaveQueue_shift? k k.serial).trans hnext⟩
  · exact ⟨hs2, hnext⟩

/-- A decision that can place and set up the candidate's next crew dispatches it. -/
theorem dispatchDecision_eq {s w : State} {isl : Island} {q : Queue × Shift} {fs : List (Nat × Nat × List (Nat × Nat × Nat))}
    (hheld : s.hostLaunches = []) (hisl : s.island? isl.num = some isl) (hq : candidate (s.readyQueues isl) = some q)
    (hplace : s.placement isl q.2 = some fs) (hinbox : q.2.inboxDone = true ∨ q.2.ibxh = 0) (hw : s.dispatch q.2 fs = .ok w) :
    exec (.dispatchDecision isl.num) s = .next (w.afterDecision isl (s.readyQueues isl) q.2) := by
  have harm : exec (.dispatchDecision isl.num) s = execDispatchDecision isl.num s := rfl
  have hadmit : s.admitHeld = s := by rw [State.admitHeld, hheld]; rfl
  have hstart : (q.2.inboxDone || decide (q.2.ibxh = 0)) = true := by
    rcases hinbox with h | h
    · rw [h, Bool.true_or]
    · rw [decide_eq_true h, Bool.or_true]
  rw [harm, execDispatchDecision, State.decision, hadmit]
  dsimp only
  rw [hisl]
  dsimp only
  rw [hq]
  dsimp only
  rw [State.decide, hplace]
  dsimp only
  rw [if_pos hstart, hw]

/-- Settles O49: a packet is read and queued with no thread but the issuer's changed, and a decision starts the threads of its
placement one by one; the loops over threads and members keep what has been started. -/
theorem launchAndDispatch : Obligations.LaunchAndDispatch := by
  unfold Obligations.LaunchAndDispatch
  refine ⟨?_, ?_, ?_, ?_⟩
  · intro i u isGang d a b sg s s1 y h x isl hi g off gl hread htab hlnc hready hcheck hspace hbytes hisl
    obtain ⟨hport, hmsgs⟩ := State.portClear_of_deviceReady hready
    have hexec : exec i s = .next (s1.launchPacket d x gl) := by
      rw [hi, exec_launchOrGang, State.launchWith_of_read hread htab hlnc hready hcheck hspace hbytes]
    obtain ⟨hinvalid, hok⟩ := State.launchPacket_settled (d := d) (x := x) (gl := gl) (State.loadBytes_value hport hbytes) hmsgs hisl
    refine ⟨fun hk => ⟨_, hexec, hinvalid hk⟩, fun k hk hroom hwaiters => ⟨_, hexec, ?_⟩⟩
    have henter : isl.entersQueue k.queue s.thr.key = true := by
      rw [Island.entersQueue, hwaiters, Bool.and_true, Bool.not_eq_true', Island.queueFull, decide_eq_false_iff_not]
      omega
    obtain ⟨hpassed, hkeeps, hserial, hqueue, r, hmem⟩ := hok k hk henter
    obtain ⟨tab, len, dep, fin, rfl⟩ := checkPacket_ok hk
    exact ⟨hpassed, hkeeps, hserial, hqueue, _, hmem, rfl, rfl, rfl, rfl, rfl, rfl, rfl, rfl, rfl⟩
  · intro s n k b x hk hdep hhead hready haddr hplace hpoison hx
    exact packetDependenceRead_settled hk hdep hhead hready haddr hplace hpoison hx
  · intro s w isl q fs hheld hwaits hisl hq hplace hinbox hw
    obtain ⟨hmem, hmax⟩ := candidate_max hq
    obtain ⟨new, hnew, hlength, hall, hsome⟩ := State.dispatch_starts hwaits (State.placement_length hplace) hw
    have hshifts : w.shifts = s.shifts := (congrArg State.shifts hnew.rest :)
    have hthr : w.thr = s.thr := (congrArg State.thr hnew.rest :)
    have hshift : w.shift? q.2.serial = some q.2 := by
      rw [State.shift?, hshifts]
      exact State.readyQueues_shift? hmem
    obtain ⟨hafter, hnext⟩ := State.afterDecision_next isl (s.readyQueues isl) hshift
    have hthreads : (w.afterDecision isl (s.readyQueues isl) q.2).threads = s.threads ++ new := by
      rw [State.threads, hafter.quiet.thr, hafter.quiet.others, hthr, hnew.others]
      rfl
    have hcrews : (w.afterDecision isl (s.readyQueues isl) q.2).crews = w.crews := (congrArg State.crews hafter.rest :)
    refine ⟨hmax, _, new, dispatchDecision_eq hheld hisl hq hplace hinbox hw, hthreads, fun v hv => ?_, hlength,
      fun m tid hm htid => ?_, by rw [hcrews, hnew.crews], hnext⟩
    · obtain ⟨n, cx, cl, tid, view, segs, -, rfl⟩ := hall v hv
      exact ⟨rfl, rfl, rfl, rfl, rfl, rfl, rfl, rfl⟩
    · obtain ⟨v, hv, view, segs, hcl, rfl⟩ := hsome m tid hm htid
      exact ⟨_, hv, rfl, rfl, rfl, rfl, hcl⟩
  · intro s serial n k hk
    exact ⟨crewMemoryRelease_kept hk, crewMemoryRelease_released hk⟩

end Sys2Proof.Machine
end

section
/-! PROOFS. FDEF (R207, R208): the descriptor is read, the checks answer, and a field that passes them is defined. -/

namespace Sys2Proof.Machine

open Sys2Proof

set_option Elab.async false

/-! ## Freeze counts -/

theorem State.freezeCount_setFreeze (s : State) (gr n k : Nat) : (s.setFreeze gr n).freezeCount k = if k = gr then n else s.freezeCount k := by
  have hrest : k ≠ gr → (s.freeze.filter fun p => p.1 != gr).find? (fun p => p.1 == k) = s.freeze.find? fun p => p.1 == k := by
    intro hk
    rw [List.find?_filter]
    refine congrArg (fun f => s.freeze.find? f) (funext fun p => ?_)
    by_cases hp : p.1 = k
    · simp [hp, hk]
    · simp [hp]
  have hgone : (s.freeze.filter fun p => p.1 != gr).find? (fun p => p.1 == gr) = none := by
    rw [List.find?_eq_none]
    exact fun p hp => by simpa using (List.mem_filter.1 hp).2
  rw [State.freezeCount, State.setFreeze]
  dsimp only
  by_cases hn : n = 0
  · rw [if_pos hn]
    by_cases hk : k = gr
    · rw [if_pos hk, hk, hgone, hn]; rfl
    · rw [if_neg hk, hrest hk]; rfl
  · rw [if_neg hn, List.find?_cons]
    by_cases hk : k = gr
    · rw [if_pos hk, hk, beq_self_eq_true]; rfl
    · rw [if_neg hk, beq_eq_false_iff_ne.2 (Ne.symm hk), hrest hk]; rfl

/-- A list of pieces frozen: each gains one freeze for every time that it is named. -/
theorem State.freezeCount_freezeAll (s : State) (l : List Nat) (k : Nat) : (s.freezeAll l).freezeCount k = s.freezeCount k + l.count k := by
  rw [State.freezeAll]
  induction l generalizing s with
  | nil => rfl
  | cons gr l ih =>
    rw [List.foldl_cons, ih, State.freezeCount_setFreeze, List.count_cons]
    by_cases hk : k = gr
    · rw [if_pos hk, hk, beq_self_eq_true, if_pos rfl]; omega
    · rw [if_neg hk, beq_eq_false_iff_ne.2 (Ne.symm hk), if_neg Bool.false_ne_true]; omega

theorem State.freezeAll_rest (s : State) (l : List Nat) : ∃ fr, s.freezeAll l = { s with freeze := fr } := by
  rw [State.freezeAll]
  induction l generalizing s with
  | nil => exact ⟨s.freeze, rfl⟩
  | cons gr l ih =>
    obtain ⟨fr, hfr⟩ := ih (s.setFreeze gr (s.freezeCount gr + 1))
    exact ⟨fr, hfr⟩

theorem State.pinFrames_rest (s : State) (l : List Nat) : ∃ fr, s.pinFrames l = { s with frames := fr } := by
  rw [State.pinFrames]
  induction l generalizing s with
  | nil => exact ⟨s.frames, rfl⟩
  | cons f l ih =>
    obtain ⟨fr, hfr⟩ := ih (s.setFrame { s.frame f with pin := s.fields.any fun k => k.frames.contains f })
    exact ⟨fr, hfr⟩

/-- What a definition leaves: the field in its list, and its tables frozen. -/
theorem State.define_leaves (s : State) (f : Field) :
    (s.define f).fields = s.fields ++ [f] ∧ (∀ k, (s.define f).freezeCount k = s.freezeCount k + (f.tables.flatMap (·.grans)).count k) ∧
      s.Quiet (s.define f) := by
  have hcount := s.freezeCount_freezeAll (f.tables.flatMap (·.grans))
  obtain ⟨fr, hfreeze⟩ := s.freezeAll_rest (f.tables.flatMap (·.grans))
  rw [State.define]
  obtain ⟨fs, hpin⟩ := State.pinFrames_rest { s.freezeAll (f.tables.flatMap (·.grans)) with
    fields := (s.freezeAll (f.tables.flatMap (·.grans))).fields ++ [f] } f.frames
  rw [hpin]
  rw [hfreeze] at hcount ⊢
  exact ⟨rfl, hcount, rfl, rfl, fun x => .refl x s⟩

/-! ## The checks -/

theorem fdefLast_stopped {s : State} {i : Island} {v : View} {d : BitVec 1024} {p : FieldPlace} {cpl : FieldTable}
    {bias ptab beta cmap : Option FieldTable} {f : Field} (h : fdefLast s i v d p cpl bias ptab beta cmap = .ok f) : f.st = .stopped := by
  rw [fdefLast] at h
  split at h
  · exact absurd h (by simp)
  · split at h
    · exact absurd h (by simp)
    · split at h
      · exact absurd h (by simp)
      · rw [← FdefRes.ok.inj h]

theorem fdefTables_stopped {s : State} {i : Island} {v : View} {htab : Nat} {d : BitVec 1024} {p : FieldPlace} {f : Field}
    (h : fdefTables s i v htab d p = .ok f) : f.st = .stopped := by
  rw [fdefTables] at h
  split at h
  · exact absurd h (by simp)
  · exact absurd h (by simp)
  · exact absurd h (by simp)
  · split at h
    · exact absurd h (by simp)
    · split at h
      · exact absurd h (by simp)
      · split at h
        · exact absurd h (by simp)
        · dsimp only at h
          split at h
          · split at h
            · exact absurd h (by simp)
            · exact fdefLast_stopped h
          · exact fdefLast_stopped h

theorem fdefPlace_stopped {s : State} {i : Island} {v : View} {htab : Nat} {d : BitVec 1024} {sg tg : Seg} {so tof : Nat} {f : Field}
    (h : fdefPlace s i v htab d sg tg so tof = .ok f) : f.st = .stopped := by
  rw [fdefPlace] at h
  split at h
  · exact absurd h (by simp)
  · split at h
    · exact absurd h (by simp)
    · exact absurd h (by simp)
    · exact absurd h (by simp)
    · split at h
      · exact absurd h (by simp)
      · split at h
        · exact absurd h (by simp)
        · split at h
          · exact absurd h (by simp)
          · exact fdefTables_stopped h

/-- A field is defined stopped. -/
theorem fdefCheck_stopped {s : State} {i : Island} {v : View} {htab : Nat} {d : BitVec 1024} {f : Field}
    (h : fdefCheck s i v htab d = .ok f) : f.st = .stopped := by
  rw [fdefCheck] at h
  split at h
  · exact absurd h (by simp)
  · split at h
    · exact absurd h (by simp)
    · split at h
      all_goals first | exact fdefPlace_stopped h | exact absurd h (by simp)

/-! ## The unit -/

/-- A release, or work for an engine, of a thread that waits for nothing goes on unchanged. -/
theorem State.writeGate_of_ready {s : State} (h : s.storeReady = true) (k : State → State) : s.writeGate k = k s := by
  simp only [State.storeReady, State.readReady, Bool.and_eq_true, Bool.not_eq_true'] at h
  obtain ⟨⟨⟨⟨-, hport⟩, hloads⟩, -⟩, -⟩ := h
  have hatoms : ∀ m ∈ s.msgs, (m.op.answers && m.key == s.thr.key) = false := fun m hm => by
    cases hans : m.op.answers with
    | false => rfl
    | true => rw [beq_eq_false_iff_ne.2 ((s.portClear_iff.1 hport).2.1 m hm hans).1]; rfl
  have hperform : (if s.msgs.isEmpty then s else s.performMsgs fun m => m.op.answers && m.key == s.thr.key) = s := by
    split
    · rfl
    · exact State.performMsgs_of_none hatoms
  rw [State.writeGate]
  rw [hperform, State.flushPort_of_empty (s.portClear_iff.1 hport).1, hloads, State.portOf_of_clear hport, Bool.or_self,
    if_neg Bool.false_ne_true]

theorem State.portClear_of_storeReady {s : State} (h : s.storeReady = true) : s.portClear = true := by
  simp only [State.storeReady, State.readReady, Bool.and_eq_true] at h
  exact h.1.1.1.2

theorem State.readGate_of_ready {s : State} (h : s.storeReady = true) (k : State → State) : s.readGate k = k s := by
  simp only [State.storeReady, State.readReady, Bool.and_eq_true, Bool.not_eq_true'] at h
  rw [State.readGate, h.1.1.1.1, if_neg Bool.false_ne_true]

/-- The descriptor of an instruction that passes its checks and finds its bytes. -/
theorem State.withDescriptor_of_read {s s1 : State} {a : BitVec 6} {sg : BitVec 3} {x : Nat} (k : State → Nat → State)
    (hready : s.storeReady = true)
    (hseg : segCheck (s.thr.seg sg) sg.toNat (s.thr.rg a).toNat 128 128 (rightR ||| rightE) (Acc.permits .load (s.thr.seg sg)) = none)
    (hform : formCheck s s.thr.view (s.thr.seg sg) (s.thr.rg a).toNat 128 = none) (hspace : (s.thr.seg sg).space ≠ spFar)
    (hbytes : s.loadBytes (s.thr.seg sg) (s.thr.rg a).toNat 128 = (s1, .value x)) : s.withDescriptor a sg k = k s1 x := by
  have htrap : firstTrap [segCheck (s.thr.seg sg) sg.toNat (s.rg a).toNat 128 128 (rightR ||| rightE) (Acc.permits .load (s.thr.seg sg)),
      formCheck s s.thr.view (s.thr.seg sg) (s.rg a).toNat 128] = none := by
    change firstTrap [segCheck _ _ (s.thr.rg a).toNat _ _ _ _, formCheck _ _ _ (s.thr.rg a).toNat _] = none
    rw [hseg, hform]
    rfl
  have hbytes' : s.loadBytes (s.thr.seg sg) (s.rg a).toNat 128 = (s1, .value x) := hbytes
  rw [State.withDescriptor, State.readGate_of_ready hready, State.writeGate_of_ready hready, htrap]
  change (if (s.thr.seg sg).space = spFar then _ else _) = _
  rw [if_neg hspace, hbytes']

theorem exec_fdef_of_read {s s1 : State} {u : Bool} {d a : BitVec 6} {sg : BitVec 3} {x : Nat} {i : Island}
    (hready : s.storeReady = true)
    (hseg : segCheck (s.thr.seg sg) sg.toNat (s.thr.rg a).toNat 128 128 (rightR ||| rightE) (Acc.permits .load (s.thr.seg sg)) = none)
    (hform : formCheck s s.thr.view (s.thr.seg sg) (s.thr.rg a).toNat 128 = none) (hspace : (s.thr.seg sg).space ≠ spFar)
    (hbytes : s.loadBytes (s.thr.seg sg) (s.thr.rg a).toNat 128 = (s1, .value x)) (hisl : s1.island? s1.thr.view.island = some i) :
    (∀ r, fdefCheck s1 i s1.thr.view s1.thr.htab (BitVec.ofNat 1024 x) = .fails r →
      exec (.fdef u d a sg) s = .next (s1.finishG d (wordOf (r * 2 ^ 16)))) ∧
    ∀ f, fdefCheck s1 i s1.thr.view s1.thr.htab (BitVec.ofNat 1024 x) = .ok f →
      exec (.fdef u d a sg) s = .next ((s1.define f).finishG d (wordOf f.num)) := by
  have harm : exec (.fdef u d a sg) s = execFdef u d a sg s := rfl
  rw [harm, execFdef, State.withDescriptor_of_read _ hready hseg hform hspace hbytes, hisl]
  dsimp only
  constructor
  · intro r hr
    rw [hr]
  · intro f hf
    rw [hf]

/-- Settles O55: the descriptor is read with no thread and no settled byte changed, and a definition changes freezes, pins and the
list of fields alone. -/
theorem fieldDefinition : Obligations.FieldDefinition := by
  unfold Obligations.FieldDefinition
  intro u d a sg s s1 x i g off hready hseg hform hspace hbytes hisl
  obtain ⟨hfails, hok⟩ := exec_fdef_of_read (u := u) (d := d) hready hseg hform hspace hbytes hisl
  have hs1 := State.loadBytes_value (State.portClear_of_storeReady hready) hbytes
  have hfields : s1.fields = s.fields := (congrArg State.fields hs1.apart :)
  have hfreeze : s1.freeze = s.freeze := (congrArg State.freeze hs1.apart :)
  refine ⟨fun r hr => ⟨_, hfails r hr, ?_⟩, fun f hf => ⟨_, hok f hf, ?_⟩⟩
  · obtain ⟨hpassed, hkeeps⟩ := hs1.quiet.finishG d (wordOf (r * 2 ^ 16))
    exact ⟨hpassed, hkeeps, hfields, hfreeze⟩
  · obtain ⟨hdefined, hcount, hquiet⟩ := s1.define_leaves f
    obtain ⟨hpassed, hkeeps⟩ := (hs1.quiet.trans hquiet).finishG d (wordOf f.num)
    refine ⟨hpassed, hkeeps, ?_, fdefCheck_stopped hf, fun k => ?_⟩
    · rw [← hfields]
      exact hdefined
    · have hbefore : s1.freezeCount k = s.freezeCount k := by rw [State.freezeCount, hfreeze, ← State.freezeCount]
      rw [← hbefore]
      exact hcount k

end Sys2Proof.Machine
end

section
/-! PROOFS. The matrix instructions (R166 to R185): the engine's tiles and its queue, and what a thread's instruction leaves of both. -/

namespace Sys2Proof.Machine

open Sys2Proof

set_option Elab.async false

/-! ## The engine of a cluster -/

theorem State.matrixEng_cluster (s : State) (cl : Nat) : (s.matrixEng cl).cluster = cl := by
  rw [State.matrixEng]
  cases h : s.matrix.find? fun m => m.cluster == cl with
  | none => rfl
  | some m => simpa using List.find?_some h

theorem find_replaced_engine {m : MatrixEng} (ms : List MatrixEng) (hany : ms.any (fun k => k.cluster == m.cluster) = true) :
    (ms.map fun k => if k.cluster == m.cluster then m else k).find? (fun k => k.cluster == m.cluster) = some m := by
  induction ms with
  | nil => exact absurd hany (by simp)
  | cons d ms ih =>
    rw [List.map_cons, List.find?_cons]
    by_cases hd : d.cluster = m.cluster
    · rw [if_pos (beq_iff_eq.2 hd), beq_self_eq_true]
    · rw [if_neg (by simpa using hd), beq_eq_false_iff_ne.2 hd]
      rw [List.any_cons, beq_eq_false_iff_ne.2 hd, Bool.false_or] at hany
      exact ih hany

theorem State.matrixEng_setEng (s : State) (m : MatrixEng) : (s.setEng m).matrixEng m.cluster = m := by
  rw [State.matrixEng, State.setEng]
  dsimp only
  split
  · next hany => rw [find_replaced_engine _ hany]; rfl
  · next hany =>
    have hnone : s.matrix.find? (fun k => k.cluster == m.cluster) = none := by
      rw [List.find?_eq_none]
      exact fun d hd h => hany (List.any_eq_true.2 ⟨d, hd, h⟩)
    rw [List.find?_append, hnone, List.find?_singleton, beq_self_eq_true]
    rfl

theorem State.myEng_setEng {s : State} {m : MatrixEng} (h : m.cluster = s.thr.view.cluster) : (s.setEng m).myEng = m := by
  rw [State.myEng]
  change (s.setEng m).matrixEng s.thr.view.cluster = m
  rw [← h]
  exact s.matrixEng_setEng m

theorem State.myEng_cluster (s : State) : s.myEng.cluster = s.thr.view.cluster := s.matrixEng_cluster _

theorem State.myEng_addOp (s : State) (o : MatrixOp) : (s.addOp o).myEng = { s.myEng with ops := s.myEng.ops ++ [o] } :=
  State.myEng_setEng s.myEng_cluster

/-- The engines alone have changed, and identifiers have been given out. -/
structure State.Engages (s t : State) : Prop where
  rest : { t with matrix := [], nextId := 0 } = { s with matrix := [], nextId := 0 }

theorem State.Engages.refl (s : State) : s.Engages s := ⟨rfl⟩

theorem State.Engages.trans {s t u : State} (h : s.Engages t) (h' : t.Engages u) : s.Engages u := ⟨h'.rest.trans h.rest⟩

theorem State.Engages.thr {s t : State} (h : s.Engages t) : t.thr = s.thr := (congrArg State.thr h.rest :)
theorem State.Engages.mem {s t : State} (h : s.Engages t) : t.mem = s.mem := (congrArg State.mem h.rest :)

theorem State.Engages.quiet {s t : State} (h : s.Engages t) : s.Quiet t := by
  have hmem : t.mem = s.mem := h.mem
  have hsettled (x : Loc) : t.settled x = s.settled x := (congrArg (fun u : State => u.settled x) h.rest :)
  exact ⟨h.thr, (congrArg State.others h.rest :), fun x hx => ⟨(hsettled x).trans hx, by rw [hmem]⟩⟩

theorem State.Quiet.matrixEng_eq {s t : State} (h : s.Quiet t) : t.matrixEng s.thr.view.cluster = t.myEng := by
  rw [State.myEng, h.thr]

theorem State.addOp_engages (s : State) (n : Nat) (o : MatrixOp) : s.Engages (State.addOp { s with nextId := n } o) := ⟨rfl⟩

theorem State.Quiet.finish {s t : State} (h : s.Quiet t) : s.passed t.finish ∧ s.keepsMemory t.finish [] := by
  refine ⟨⟨sameRegs_of ?_ h.others, ?_, rfl, ?_⟩, fun x hx _ => (h.keeps x hx).2⟩
  all_goals
    change _ = _
    rw [State.finish, State.onThr, h.thr]
    rfl

theorem State.Quiet.park {s t : State} (h : s.Quiet t) (w : Wait) : s.waitsFor (t.park w) w ∧ s.keepsMemory (t.park w) [] := by
  refine ⟨⟨sameRegs_of ?_ h.others, rfl, rfl, ?_, rfl⟩, fun x hx _ => (h.keeps x hx).2⟩
  all_goals
    rw [State.park, State.onThr, h.thr]
    rfl

/-! ## What comes before an operation -/

theorem State.unless_none (s : State) (k : State → State) : s.unless none k = k s := rfl

theorem State.withEngine_in_service {s : State} (h : s.engineRetired s.thr.view.cluster = false) (k : State → State) : s.withEngine k = k s := by
  rw [State.withEngine, h]
  rfl

theorem State.withEntry_of_room {s : State} (h : s.myEng.taken < 16) (k : State → State) : s.withEntry k = k s := by
  rw [State.withEntry, if_neg (by omega)]

theorem State.resumed_of_none {s : State} (h : s.thr.grant = none) (k : State → State) : s.resumed k = k s := by
  rw [State.resumed, h]
  rfl

theorem State.withPlace_of_ok {s : State} {x : Word} {g : Seg} (h : followHandle s s.thr.view s.thr.htab x = .ok g) (k : Seg → Nat → State) :
    s.withPlace x k = k g (handleOff x) := by
  rw [State.withPlace, h]

/-- A release within the cluster, of a thread with no atomic on its way: caches alone change. -/
theorem State.release_clus {s : State} (h : s.portClear = true) (v : View) : s.Settles (s.release v s.thr.key .clus) := by
  have hnone : ∀ m ∈ s.msgs, (m.key == s.thr.key && (m.op.answers || scopeDevice .clus)) = false := fun m hm => by
    cases hans : m.op.answers with
    | false => rw [Bool.and_comm]; rfl
    | true => rw [beq_eq_false_iff_ne.2 ((s.portClear_iff.1 h).2.1 m hm hans).1]; rfl
  rw [State.release, State.performMsgs_of_none hnone]
  change s.Settles (if scopeWide .clus = true then s.coverCore (coreIndex v) s.thr.key else _)
  split
  · exact s.coverCore_settles _ _
  · exact s.drainWcb_settles _ _

/-! ## MACQ and MREL (R169, R170) -/

theorem MatrixEng.owns_append (m : MatrixEng) (c : Nat × Nat) (t k : Nat) :
    MatrixEng.owns { m with owners := m.owners ++ [(t, c.1, c.2)] } c k = (m.owns c k || k == t) := by
  rw [MatrixEng.owns, MatrixEng.owns, List.contains_append, List.contains_cons, List.contains_nil, Bool.or_false]
  congr 1
  by_cases hk : k = t
  · rw [hk, beq_self_eq_true, beq_self_eq_true]
  · rw [beq_eq_false_iff_ne.2 hk]
    exact beq_eq_false_iff_ne.2 fun h => hk (congrArg Prod.fst h)

/-- One tile granted to the crew of the thread at issue. -/
def State.grantTile (s : State) (t : Nat) : State :=
  { s.setEng { s.myEng with owners := s.myEng.owners ++ [(t, s.thr.crewId.1, s.thr.crewId.2)], ops := s.myEng.ops ++ [.clear s.nextId t] } with
    nextId := s.nextId + 1 }

theorem State.grantTile_engages (s : State) (t : Nat) : s.Engages (s.grantTile t) := ⟨rfl⟩

theorem State.myEng_grantTile (s : State) (t : Nat) : (s.grantTile t).myEng =
    { s.myEng with owners := s.myEng.owners ++ [(t, s.thr.crewId.1, s.thr.crewId.2)], ops := s.myEng.ops ++ [.clear s.nextId t] } :=
  State.myEng_setEng (s := s) s.myEng_cluster

/-- The tiles of a list that are asked for and free become the crew's. -/
theorem State.grantTiles_owns (req : Nat) (l : List Nat) (s : State) : s.Engages (s.grantTiles req l) ∧
    ∀ k, (s.grantTiles req l).myEng.owns s.thr.crewId k =
      (s.myEng.owns s.thr.crewId k || (l.contains k && req.testBit k && s.myEng.owners.all fun o => o.1 != k)) := by
  induction l generalizing s with
  | nil => exact ⟨.refl s, fun k => by rw [State.grantTiles, List.contains_nil, Bool.false_and, Bool.false_and, Bool.or_false]⟩
  | cons t ts ih =>
    have hany (k : Nat) : (!s.myEng.owners.any fun o => o.1 == k) = s.myEng.owners.all fun o => o.1 != k := by
      rw [List.not_any_eq_all_not]; rfl
    by_cases hgrant : (req.testBit t && !s.myEng.owners.any fun o => o.1 == t) = true
    · have hstep : s.grantTiles req (t :: ts) = (s.grantTile t).grantTiles req ts := if_pos hgrant
      rw [hany, Bool.and_eq_true] at hgrant
      obtain ⟨hrest, howns⟩ := ih (s.grantTile t)
      rw [hstep]
      refine ⟨(s.grantTile_engages t).trans hrest, fun k => ?_⟩
      have hk := howns k
      rw [(s.grantTile_engages t).thr, s.myEng_grantTile] at hk
      rw [hk]
      change (MatrixEng.owns { s.myEng with owners := s.myEng.owners ++ [(t, s.thr.crewId.1, s.thr.crewId.2)] } s.thr.crewId k || _) = _
      rw [MatrixEng.owns_append, List.contains_cons, List.all_append]
      by_cases hkt : k = t
      · rw [hkt, beq_self_eq_true, hgrant.1, hgrant.2]
        simp only [Bool.or_true, Bool.true_or, Bool.true_and]
      · rw [beq_eq_false_iff_ne.2 hkt]
        simp only [Bool.or_false, Bool.false_or, List.all_cons, List.all_nil, Bool.and_true, bne_iff_ne.2 (Ne.symm hkt)]
    · have hstep : s.grantTiles req (t :: ts) = s.grantTiles req ts := if_neg hgrant
      obtain ⟨hrest, howns⟩ := ih s
      rw [hstep]
      refine ⟨hrest, fun k => ?_⟩
      rw [howns k, List.contains_cons]
      by_cases hkt : k = t
      · rw [hany, Bool.not_eq_true] at hgrant
        rw [hkt, Bool.and_assoc, Bool.and_assoc, hgrant, Bool.and_false, Bool.and_false]
      · rw [beq_eq_false_iff_ne.2 hkt, Bool.false_or]

/-- One tile of the crew withdrawn. -/
def State.withdrawTile (s : State) (t : Nat) : State :=
  { s.setEng { s.myEng with owners := s.myEng.owners.filter fun o => o.1 != t
                            ops := s.myEng.ops.map (MatrixOp.cancelOn t) ++ [.release s.nextId t] } with nextId := s.nextId + 1 }

theorem State.withdrawTile_engages (s : State) (t : Nat) : s.Engages (s.withdrawTile t) := ⟨rfl⟩

theorem State.owners_withdrawTile (s : State) (t : Nat) : (s.withdrawTile t).myEng.owners = s.myEng.owners.filter fun o => o.1 != t :=
  congrArg MatrixEng.owners (State.myEng_setEng (s := s) (m := { s.myEng with
    owners := s.myEng.owners.filter fun o => o.1 != t, ops := s.myEng.ops.map (MatrixOp.cancelOn t) ++ [.release s.nextId t] }) s.myEng_cluster)

/-- The tiles of a list that are named and owned are the crew's no more. -/
theorem State.withdrawTiles_owners (req : Nat) (l : List Nat) (s : State) : s.Engages (s.withdrawTiles req l) ∧
    (s.withdrawTiles req l).myEng.owners = s.myEng.owners.filter fun o =>
      !(l.contains o.1 && req.testBit o.1 && s.myEng.owns s.thr.crewId o.1) := by
  induction l generalizing s with
  | nil => exact ⟨.refl s, (List.filter_eq_self.2 fun o _ => rfl).symm⟩
  | cons t ts ih =>
    by_cases hout : (req.testBit t && s.myEng.owns s.thr.crewId t) = true
    · have hstep : s.withdrawTiles req (t :: ts) = (s.withdrawTile t).withdrawTiles req ts := if_pos hout
      obtain ⟨hrest, howners⟩ := ih (s.withdrawTile t)
      rw [hstep]
      refine ⟨(s.withdrawTile_engages t).trans hrest, ?_⟩
      rw [howners, (s.withdrawTile_engages t).thr, s.owners_withdrawTile, List.filter_filter]
      refine List.filter_congr fun o _ => ?_
      rw [List.contains_cons]
      by_cases hot : o.1 = t
      · rw [hot, beq_self_eq_true, Bool.true_or, Bool.true_and, hout, bne_self_eq_false, Bool.and_false]
        rfl
      · have howns : (s.withdrawTile t).myEng.owns s.thr.crewId o.1 = s.myEng.owns s.thr.crewId o.1 := by
          rw [MatrixEng.owns, MatrixEng.owns, s.owners_withdrawTile, Bool.eq_iff_iff, List.contains_iff_mem, List.contains_iff_mem,
            List.mem_filter]
          exact and_iff_left (bne_iff_ne.2 hot)
        rw [howns, beq_eq_false_iff_ne.2 hot, bne_iff_ne.2 hot, Bool.false_or, Bool.and_true]
    · have hstep : s.withdrawTiles req (t :: ts) = s.withdrawTiles req ts := if_neg hout
      obtain ⟨hrest, howners⟩ := ih s
      rw [hstep]
      refine ⟨hrest, ?_⟩
      rw [howners]
      refine List.filter_congr fun o _ => ?_
      rw [List.contains_cons]
      by_cases hot : o.1 = t
      · rw [hot, Bool.and_assoc, Bool.and_assoc, Bool.eq_false_iff.2 hout, Bool.and_false, Bool.and_false]
      · rw [beq_eq_false_iff_ne.2 hot, Bool.false_or]

/-- Bit k of the ownership mask. -/
theorem MatrixEng.ownMask_testBit (m : MatrixEng) (c : Nat × Nat) (k : Nat) : (m.ownMask c).testBit k = (decide (k < 16) && m.owns c k) := by
  have hfold : ∀ n, let x := (List.range n).foldl (fun x t => if m.owns c t then x + 2 ^ t else x) 0
      x < 2 ^ n ∧ ∀ k, x.testBit k = (decide (k < n) && m.owns c k) := by
    intro n
    induction n with
    | zero => exact ⟨Nat.zero_lt_one, fun k => by simp⟩
    | succ n ih =>
      obtain ⟨hlt, hbits⟩ := ih
      rw [List.range_succ, List.foldl_append, List.foldl_cons, List.foldl_nil]
      generalize (List.range n).foldl _ 0 = x at hlt hbits ⊢
      dsimp only at hlt hbits ⊢
      split
      · next howns =>
        refine ⟨by rw [Nat.pow_succ]; omega, fun k => ?_⟩
        rw [Nat.add_comm]
        rcases Nat.lt_trichotomy k n with hk | rfl | hk
        · rw [Nat.testBit_two_pow_add_gt hk, hbits, decide_eq_true hk, decide_eq_true (Nat.lt_succ_of_lt hk)]
        · rw [Nat.testBit_two_pow_add_eq, hbits, howns]
          simp
        · rw [Nat.testBit_lt_two_pow, decide_eq_false (by omega), Bool.false_and]
          calc 2 ^ n + x < 2 ^ n + 2 ^ n := Nat.add_lt_add_left hlt _
            _ = 2 ^ (n + 1) := by rw [Nat.pow_succ]; omega
            _ ≤ 2 ^ k := Nat.pow_le_pow_right (by omega) hk
      · next howns =>
        refine ⟨by rw [Nat.pow_succ]; omega, fun k => ?_⟩
        rw [hbits]
        by_cases hk : k = n
        · rw [hk, Bool.eq_false_iff.2 howns, Bool.and_false, Bool.and_false]
        · rw [decide_eq_decide.2 (by omega : k < n ↔ k < n + 1)]
  exact (hfold 16).2 k

/-! ## The instructions -/

theorem State.acquire_mem (s : State) (v : View) (sc : Scope) : (s.acquire v sc).mem = s.mem := by
  rw [State.acquire]
  split <;> rfl

theorem exec_macq {s : State} (h : s.engineRetired s.thr.view.cluster = false) (u : Bool) (d a : BitVec 6) :
    ∃ (t : State) (x : Word), exec (.macq u d a) s = .next t ∧
      (s.onThr fun r => r.wg d x).passed t ∧ t.mem = s.mem ∧ ∀ k, k < 16 →
        let free := s.myEng.owners.all fun o => o.1 != k
        x.getLsbD k = ((s.thr.rg a).getLsbD k && (s.myEng.owns s.thr.crewId k || free)) ∧
        (t.matrixEng s.thr.view.cluster).owns s.thr.crewId k = (s.myEng.owns s.thr.crewId k || ((s.thr.rg a).getLsbD k && free)) := by
  obtain ⟨heng, howns⟩ := State.grantTiles_owns ((s.rg a).toNat % 65536) (List.range 16) s
  have hexec : exec (.macq u d a) s = .next ((s.grantTiles ((s.rg a).toNat % 65536) (List.range 16)).finishG d
      (wordOf ((s.rg a).toNat % 65536 &&& (s.grantTiles ((s.rg a).toNat % 65536) (List.range 16)).myEng.ownMask s.thr.crewId))) := by
    have harm : exec (.macq u d a) s = execMacq u d a s := rfl
    rw [harm, execMacq, State.withEngine_in_service h]
  generalize s.grantTiles ((s.rg a).toNat % 65536) (List.range 16) = s1 at heng howns hexec
  refine ⟨_, _, hexec, (heng.quiet.finishG d _).1, heng.mem, fun k hk => ?_⟩
  have hreq : ((s.rg a).toNat % 65536).testBit k = (s.thr.rg a).getLsbD k := by
    rw [show (65536 : Nat) = 2 ^ 16 from rfl, Nat.testBit_mod_two_pow, decide_eq_true hk, Bool.true_and]
    rfl
  have hmem : (List.range 16).contains k = true := List.contains_iff_mem.2 (List.mem_range.2 hk)
  have hk' := howns k
  rw [hreq, hmem, Bool.true_and] at hk'
  dsimp only
  refine ⟨?_, ?_⟩
  · rw [wordOf, BitVec.getLsbD_ofNat, decide_eq_true (by omega : k < 64), Bool.true_and, Nat.testBit_and, hreq,
      MatrixEng.ownMask_testBit, decide_eq_true hk, Bool.true_and, hk']
    cases (s.thr.rg a).getLsbD k <;> simp
  · rw [← hk', ← heng.quiet.matrixEng_eq]
    rfl

theorem exec_mrel {s : State} (h : s.engineRetired s.thr.view.cluster = false) (u : Bool) (a : BitVec 6) :
    ∃ t : State, exec (.mrel u a) s = .next t ∧ s.passed t ∧ t.mem = s.mem ∧
      (t.matrixEng s.thr.view.cluster).owners = s.myEng.owners.filter fun o =>
        !(decide (o.1 < 16) && (s.thr.rg a).getLsbD o.1 && s.myEng.owns s.thr.crewId o.1) := by
  obtain ⟨heng, howners⟩ := State.withdrawTiles_owners ((s.rg a).toNat % 65536) (List.range 16) s
  have hexec : exec (.mrel u a) s = .next (s.withdrawTiles ((s.rg a).toNat % 65536) (List.range 16)).finish := by
    have harm : exec (.mrel u a) s = execMrel u a s := rfl
    rw [harm, execMrel, State.withEngine_in_service h]
  generalize s.withdrawTiles ((s.rg a).toNat % 65536) (List.range 16) = s1 at heng howners hexec
  refine ⟨_, hexec, heng.quiet.finish.1, heng.mem, ?_⟩
  change (s1.matrixEng s.thr.view.cluster).owners = _
  rw [heng.quiet.matrixEng_eq, howners]
  refine List.filter_congr fun o _ => ?_
  have hbit : ((List.range 16).contains o.1 && ((s.rg a).toNat % 65536).testBit o.1) = (decide (o.1 < 16) && (s.thr.rg a).getLsbD o.1) := by
    have hmem : (List.range 16).contains o.1 = decide (o.1 < 16) := by
      rw [Bool.eq_iff_iff, List.contains_iff_mem, List.mem_range, decide_eq_true_eq]
    rw [hmem, show (65536 : Nat) = 2 ^ 16 from rfl, Nat.testBit_mod_two_pow, ← Bool.and_assoc, Bool.and_self]
    rfl
  rw [hbit]

/-- What an instruction leaves that appends one operation to its engine's queue, from a state that waits for nothing. -/
theorem State.Quiet.addOp {s s1 : State} (h : s.Quiet s1) (heng : s1.myEng = s.myEng) (n : Nat) (o : MatrixOp) :
    s.Quiet (State.addOp { s1 with nextId := n } o) ∧
      ((State.addOp { s1 with nextId := n } o).matrixEng s.thr.view.cluster).ops = s.myEng.ops ++ [o] := by
  have hadd := h.trans (s1.addOp_engages n o).quiet
  have hmine : State.myEng { s1 with nextId := n } = s1.myEng := rfl
  exact ⟨hadd, by rw [hadd.matrixEng_eq, State.myEng_addOp, hmine, heng]⟩

theorem State.Settles.myEng_eq {s t : State} (h : s.Settles t) : t.myEng = s.myEng := by
  have hmatrix : t.matrix = s.matrix := (congrArg State.matrix h.apart :)
  rw [State.myEng, State.myEng, State.matrixEng, State.matrixEng, h.quiet.thr, hmatrix]

theorem exec_mzero {s : State} (h : s.engineRetired s.thr.view.cluster = false) (u : Bool) (tile : BitVec 4) :
    (s.myEng.owns s.thr.crewId tile.toNat = false → exec (.mzero u tile) s = .next (s.trap .matrixOperand 5 0)) ∧
    (s.myEng.owns s.thr.crewId tile.toNat = true → s.myEng.taken < 16 → ∃ t : State, exec (.mzero u tile) s = .next t ∧ s.passed t ∧
      t.mem = s.mem ∧ t.nextId = s.nextId + 1 ∧
      (t.matrixEng s.thr.view.cluster).ops = s.myEng.ops ++ [.zero s.nextId tile.toNat]) := by
  have harm : exec (.mzero u tile) s = execMzero u tile s := rfl
  rw [harm, execMzero, State.withEngine_in_service h]
  refine ⟨fun hnot => ?_, fun howns hroom => ?_⟩
  · rw [hnot]
    rfl
  · rw [howns]
    rw [if_pos rfl, State.unless_none, State.withEntry_of_room hroom]
    obtain ⟨hquiet, hops⟩ := State.Quiet.addOp (State.Settles.refl s).quiet rfl (s.nextId + 1) (.zero s.nextId tile.toNat)
    exact ⟨_, rfl, hquiet.finish.1, rfl, rfl, hops⟩

theorem exec_mpoll {s : State} (h : s.engineRetired s.thr.view.cluster = false) (u : Bool) (d a : BitVec 6) :
    (∀ j, s.myEng.job? ((s.thr.rg a).toNat % 2 ^ 48) = some j → completes (.mpoll u d a) s fun r =>
      r.wg d (BitVec.ofNat 64 ((match j.state with
        | .queued => 1 | .running => 2 | .waitChunk => 3 | .suspended => 4 | .preempted => 5) + j.t % 2 ^ 32 * 256))) ∧
    (s.myEng.job? ((s.thr.rg a).toNat % 2 ^ 48) = none → ∃ t : State, exec (.mpoll u d a) s = .next t ∧
      (s.onThr fun r => r.wg d 0).passed t ∧ t.mem = s.mem) := by
  have harm : exec (.mpoll u d a) s = execMpoll u d a s := rfl
  have hnum : jobNum (s.rg a) = (s.thr.rg a).toNat % 2 ^ 48 := rfl
  refine ⟨fun j hj => ?_, fun hj => ?_⟩
  · rw [completes, harm, execMpoll, State.withEngine_in_service h, hnum, hj]
    rfl
  · rw [harm, execMpoll, State.withEngine_in_service h, hnum, hj]
    exact ⟨_, rfl, ((s.acquire_settles s.thr.view .clus).quiet.finishG d 0).1, s.acquire_mem s.thr.view .clus⟩

theorem exec_mwait {s : State} (h : s.engineRetired s.thr.view.cluster = false) (u : Bool) (a : BitVec 6) :
    (∀ j, s.myEng.job? ((s.thr.rg a).toNat % 2 ^ 48) = some j → ∃ t : State, exec (.mwait u a) s = .next t ∧ s.waitsFor t (.job j.id) ∧
      t.mem = s.mem) ∧
    (s.myEng.job? ((s.thr.rg a).toNat % 2 ^ 48) = none → ∃ t : State, exec (.mwait u a) s = .next t ∧ s.passed t ∧ t.mem = s.mem) := by
  have harm : exec (.mwait u a) s = execMwait u a s := rfl
  have hnum : jobNum (s.rg a) = (s.thr.rg a).toNat % 2 ^ 48 := rfl
  refine ⟨fun j hj => ?_, fun hj => ?_⟩
  · rw [harm, execMwait, State.withEngine_in_service h, hnum, hj]
    exact ⟨_, rfl, ((State.Settles.refl s).quiet.park _).1, rfl⟩
  · rw [harm, execMwait, State.withEngine_in_service h, hnum, hj]
    exact ⟨_, rfl, (s.acquire_settles s.thr.view .clus).quiet.finish.1, s.acquire_mem s.thr.view .clus⟩

/-- MLD that passes its checks appends its operation (R172). -/
theorem mld_queues (s : State) : s.mldQueues := by
  intro u d a tile sg bar g off b hengine howns hready hseg hform hbar hcheck hroom
  have hrange : formRange s s.thr.view g off 16384 = none := (if_neg (by decide)).trans hform
  have htrap : firstTrap [segCheck g sg.toNat off 16384 64 (rightR ||| rightE) g.isOperand, formRange s s.thr.view g off 16384] = none := by
    rw [hseg, hrange]
    rfl
  have hown : (if s.myEng.owns s.thr.crewId tile.toNat = true then none else matrixTrap 5) = none := if_pos howns
  have hexec : exec (.mld u d a tile sg) s = .next
      (State.addOp { s.release s.thr.view s.thr.key .clus with nextId := s.nextId + 1 }
        (.load s.nextId tile.toNat s.thr.key ⟨g, off, s.thr.view⟩ ⟨bar, handleOff b, s.thr.view⟩ 0)).finish := by
    have harm : exec (.mld u d a tile sg) s = execMld u d a tile sg s := rfl
    rw [harm, execMld, State.withEngine_in_service hengine, hown, State.unless_none, State.writeGate_of_ready hready]
    change Host.Outcome.next (s.unless (firstTrap [segCheck g sg.toNat off 16384 64 (rightR ||| rightE) g.isOperand,
      formRange s s.thr.view g off 16384]) fun s => s.withPlace b _) = _
    rw [htrap, State.unless_none, State.withPlace_of_ok hbar]
    change Host.Outcome.next (s.unless (barrierCheck s bar b) _) = _
    rw [hcheck, State.unless_none, State.withEntry_of_room hroom]
    rfl
  have hrelease := State.release_clus (State.portClear_of_storeReady hready) s.thr.view
  obtain ⟨hquiet, hops⟩ := hrelease.quiet.addOp hrelease.myEng_eq (s.nextId + 1)
    (.load s.nextId tile.toNat s.thr.key ⟨g, off, s.thr.view⟩ ⟨bar, handleOff b, s.thr.view⟩ 0)
  exact ⟨_, hexec, hquiet.finish.1, hquiet.finish.2, rfl, hops⟩

theorem State.withOperands_of {s : State} {os : List Operand} {refs : List (Nat × Ref)} (h : s.operandsAt os = some refs)
    (acc : List (Nat × Ref)) (k : State → List (Nat × Ref) → State) : s.withOperands os acc k = k s (acc ++ refs) := by
  induction os generalizing acc refs with
  | nil =>
    obtain rfl := Option.some.inj h
    rw [State.withOperands, List.append_nil]
  | cons o os ih =>
    rw [State.operandsAt] at h
    split at h
    · next g hg =>
      dsimp only at h
      split at h
      · exact absurd h (by simp)
      · next hpass =>
        simp only [Bool.or_eq_true, not_or, Option.not_isSome_iff_eq_none] at hpass
        obtain ⟨refs', hrefs, rfl⟩ := Option.map_eq_some_iff.1 h
        have htrap : firstTrap [segCheck g (handleNum o.x) (handleOff o.x) o.size o.align o.rights (o.permits g),
            formCheck s s.thr.view g (handleOff o.x) o.size] = none := by
          have hseg : segCheck g (handleNum o.x) (handleOff o.x) o.size o.align o.rights (o.permits g) = none := hpass.1
          have hform : formCheck s s.thr.view g (handleOff o.x) o.size = none := hpass.2
          rw [hseg, hform]
          rfl
        rw [State.withOperands, State.withPlace_of_ok hg, htrap, State.unless_none, ih hrefs, List.append_assoc]
        rfl
    · exact absurd h (by simp)

/-- A job that is accepted: the last of the queue, with the engine's next job number (R177). -/
theorem State.acceptJob_leaves {s s1 : State} (hs1 : s.Settles s1) (hport : s1.portClear = true) (d : BitVec 6) (desc : BitVec 1024)
    (f : BitVec 13) (base : Nat) (sparse : Bool) (ring : Option RingInfo) (refs : List (Nat × Ref)) :
    let t := s1.acceptJob d desc f base sparse ring refs
    (s.onThr fun r => r.wg d (BitVec.ofNat 64 s.myEng.jobSeq)).passed t ∧ s.keepsMemory t [] ∧
      (t.matrixEng s.thr.view.cluster).ops = s.myEng.ops ++ [.job ⟨s.myEng.jobSeq, s.thr.key, s.thr.view, desc, f, refs, base, sparse, ring,
        .queued, false, 0, 0, 0, (0, 0), none, 0, none, none⟩] ∧
      (t.matrixEng s.thr.view.cluster).jobSeq = s.myEng.jobSeq + 1 := by
  have hs2 := hs1.trans (State.release_clus hport s1.thr.view)
  unfold State.acceptJob
  extract_lets s2 m j m1 m2 t
  have hm : m = s.myEng := hs2.myEng_eq
  have hthr : s1.thr = s.thr := hs1.quiet.thr
  have hm2 : m2.cluster = m.cluster ∧ m2.ops = m.ops ++ [.job j] ∧ m2.jobSeq = m.jobSeq + 1 := by
    simp only [m2]
    split <;> exact ⟨rfl, rfl, rfl⟩
  have hset : (s2.setEng m2).matrixEng s.thr.view.cluster = m2 := by
    have hcluster : m2.cluster = s.thr.view.cluster := by rw [hm2.1, hm, State.myEng_cluster]
    rw [← hcluster]
    exact s2.matrixEng_setEng m2
  have hengages : s2.Engages (s2.setEng m2) := ⟨rfl⟩
  obtain ⟨hpassed, hkeeps⟩ := (hs2.quiet.trans hengages.quiet).finishG d (wordOf m.jobSeq)
  have hnumber : (s.onThr fun r => r.wg d (BitVec.ofNat 64 s.myEng.jobSeq)) = s.onThr fun r => r.wg d (wordOf m.jobSeq) := by
    rw [hm]
    rfl
  rw [hnumber]
  refine ⟨hpassed, hkeeps, ?_, ?_⟩
  · refine (congrArg MatrixEng.ops hset).trans (hm2.2.1.trans ?_)
    rw [show j = ⟨m.jobSeq, s1.thr.key, s1.thr.view, desc, f, refs, base, sparse, ring, .queued, false, 0, 0, 0, (0, 0), none, 0, none, none⟩ from rfl,
      hthr, hm]
  · refine (congrArg MatrixEng.jobSeq hset).trans (hm2.2.2.trans ?_)
    rw [hm]

theorem State.Settles.portClear {s t : State} (h : s.Settles t) (hs : s.portClear = true) : t.portClear = true := by
  have hmsgs : t.msgs = s.msgs := (congrArg State.msgs h.apart :)
  have hheld : t.held = s.held := (congrArg State.held h.apart :)
  have hloads : t.loads = s.loads := (congrArg State.loads h.apart :)
  rw [State.portClear_iff] at hs ⊢
  rw [h.quiet.thr, hmsgs, hheld, hloads, (h.cores _).port]
  exact hs

/-- A job instruction that passes its checks appends its job (R177, R179). -/
theorem jobs_queue (s : State) : s.jobsQueue := by
  intro i u sparse isRing d a tile sg s1 x refs hi g off desc n f ring hengine hready hseg hform hspace hbytes hreason hrefs hroom
  have hs1 := State.loadBytes_value (State.portClear_of_storeReady hready) hbytes
  have hthr : s1.thr = s.thr := hs1.quiet.thr
  have hexec : exec i s = .next (s.queueJob d a tile sg sparse isRing) := by
    rw [hi]
    cases sparse <;> cases isRing <;> rfl
  have hqueue : s.queueJob d a tile sg sparse isRing = s1.acceptJob d desc f tile.toNat sparse ring refs := by
    rw [State.queueJob, State.withEngine_in_service hengine, State.withDescriptor_of_read _ hready hseg hform hspace hbytes]
    have hreason1 : jobReason s1.myEng s1.thr.crewId desc (s1.thr.fmt.toList.getD n 0) tile.toNat sparse isRing ring = none := by
      rw [hs1.myEng_eq, hthr]
      exact hreason
    have hrefs1 : s1.operandsAt (jobOperands desc (s1.thr.fmt.toList.getD n 0) (s1.thr.scl.toList.getD n 0) sparse ring) = some refs := by
      rw [hthr]
      exact hrefs
    have hroom1 : s1.myEng.taken < 16 := by
      rw [hs1.myEng_eq]
      exact hroom
    have hf : s1.thr.fmt.toList.getD n 0 = f := by rw [hthr]
    dsimp only
    rw [hreason1]
    dsimp only
    rw [State.withOperands_of hrefs1, State.withEntry_of_room hroom1, hf, List.nil_append]
  obtain ⟨hpassed, hkeeps, hops, hseq⟩ := State.acceptJob_leaves hs1 (hs1.portClear (State.portClear_of_storeReady hready)) d desc f tile.toNat
    sparse ring refs
  rw [← hqueue] at hpassed hkeeps hops hseq
  exact ⟨_, _, hexec, hpassed, hkeeps, hops, hseq, rfl, rfl, rfl, rfl, rfl, rfl, rfl, rfl, rfl, rfl, rfl⟩

theorem exec_mdrain_granted {s : State} (h : s.thr.grant.isSome = true) (u : Bool) (d a : BitVec 6) (tile : BitVec 4) (sg : BitVec 3) (rm : Rm) :
    completes (.mdrain u d a tile sg rm) s id := by
  have harm : exec (.mdrain u d a tile sg rm) s = execMdrain u d a tile sg rm s := rfl
  rw [completes, harm, execMdrain, State.resumed, if_pos h]
  rfl

/-- The drain that an MDRAIN appends (R185). -/
def State.drainOf (s : State) (d a : BitVec 6) (tile : BitVec 4) (sg : BitVec 3) (rm : Rm) : DrainJob :=
  ⟨s.nextId, tile.toNat, s.thr.key, ⟨s.thr.seg sg, (s.thr.rg a).toNat, s.thr.view⟩, s.thr.rg d, rm,
    s.thr.fmt.toList.getD (bitsAt (s.thr.rg d).toNat 20 2) 0, s.thr.srctr, s.thr.srkey, 0, false⟩

/-- MDRAIN that passes its checks: its drain is queued, and the thread waits for it. -/
theorem exec_mdrain_queued {s : State} (hengine : s.engineRetired s.thr.view.cluster = false) (u : Bool) (d a : BitVec 6) (tile : BitVec 4)
    (sg : BitVec 3) (rm : Rm) (hgrant : s.thr.grant = none) (hvalid : drainInvalid (s.thr.rg d) tile.toNat rm = false)
    (howns : s.myEng.owns s.thr.crewId tile.toNat = true)
    (hsecond : drainSrc (s.thr.rg d) = 2 → s.myEng.owns s.thr.crewId (tile.toNat + 1) = true) (hready : s.storeReady = true)
    (hcheck : drainCheck s (s.thr.seg sg) sg.toNat (s.thr.rg a).toNat (s.thr.rg d) = none) (hroom : s.myEng.taken < 16) :
    exec (.mdrain u d a tile sg rm) s = .next ((State.addOp { s.release s.thr.view s.thr.key .clus with nextId := s.nextId + 1 }
      (.drain (s.drainOf d a tile sg rm))).park (.engine s.nextId)) := by
  have hpair : (s.myEng.owns s.thr.crewId tile.toNat && (drainSrc (s.thr.rg d) != 2 || s.myEng.owns s.thr.crewId (tile.toNat + 1))) = true := by
    rw [howns, Bool.true_and, Bool.or_eq_true]
    by_cases hsrc : drainSrc (s.thr.rg d) = 2
    · exact .inr (hsecond hsrc)
    · exact .inl (bne_iff_ne.2 hsrc)
  have hinvalid : (if drainInvalid (s.rg d) tile.toNat rm = true then matrixTrap 10 else none) = none := by
    change (if drainInvalid (s.thr.rg d) tile.toNat rm = true then matrixTrap 10 else none) = none
    rw [hvalid, if_neg Bool.false_ne_true]
  have hcheck' : drainCheck s (s.thr.seg sg) sg.toNat (s.rg a).toNat (s.rg d) = none := hcheck
  have hpair' : (if (s.myEng.owns s.thr.crewId tile.toNat && (drainSrc (s.rg d) != 2 || s.myEng.owns s.thr.crewId (tile.toNat + 1))) = true
      then none else matrixTrap 5) = none := if_pos hpair
  have harm : exec (.mdrain u d a tile sg rm) s = execMdrain u d a tile sg rm s := rfl
  rw [harm, execMdrain, State.resumed_of_none hgrant, State.withEngine_in_service hengine, hinvalid, State.unless_none, hpair',
    State.unless_none, State.writeGate_of_ready hready, hcheck', State.unless_none, State.withEntry_of_room hroom]
  rfl

/-- Settles O50: each instruction appends to its cluster's engine, or reads it, and leaves its thread and the settled bytes alone;
the tiles are granted and withdrawn one by one. -/
theorem matrixInstructions : Obligations.MatrixInstructions := by
  unfold Obligations.MatrixInstructions
  intro s cl m c hengine
  refine ⟨exec_macq hengine, exec_mrel hengine, exec_mzero hengine, mld_queues s, jobs_queue s, exec_mpoll hengine, exec_mwait hengine,
    fun u d a tile sg rm => ⟨fun hgrant => exec_mdrain_granted hgrant u d a tile sg rm, ?_⟩⟩
  intro hgrant hvalid howns hsecond hready hcheck hroom
  have hexec := exec_mdrain_queued hengine u d a tile sg rm hgrant hvalid howns hsecond hready hcheck hroom
  have hrelease := State.release_clus (State.portClear_of_storeReady hready) s.thr.view
  obtain ⟨hquiet, hops⟩ := hrelease.quiet.addOp hrelease.myEng_eq (s.nextId + 1) (.drain (s.drainOf d a tile sg rm))
  obtain ⟨hwaits, hkeeps⟩ := hquiet.park (.engine s.nextId)
  exact ⟨_, hexec, hwaits, hkeeps, s.drainOf d a tile sg rm, hops, rfl, rfl, rfl, rfl, rfl, rfl, rfl⟩

end Sys2Proof.Machine
end

section
/-! O11. Memory, the full/empty bits and the poison marks stay in canonical form (`State.memOk`): one rule per operation of
the state, in the order of the definitions. This part holds the predicates that say it of outcomes, and the rules of the
state, the caches, the save areas, the waiting and the crews. -/

namespace Sys2Proof.Machine

open Sys2Proof

set_option Elab.async false

/-! ## What is in form -/

/-- A command's outcome is in form. -/
def CmdRes.Formed : CmdRes → Prop
  | .done s _ _ | .later s | .retry s => s.memOk = true

/-- What waits before a unit is in form. -/
def Due.Formed : Due → Prop
  | .clear s | .stop s => s.memOk = true

/-- The next state, where there is one, is in form. -/
def OutFormed : Out → Prop
  | .next s => s.memOk = true
  | .fault _ | .refused _ => True

theorem ite_form {c : Prop} [Decidable c] {s t : State} (hs : s.memOk = true) (ht : t.memOk = true) :
    (if c then s else t).memOk = true := by
  split
  · exact hs
  · exact ht

theorem ite_cmdFormed {c : Prop} [Decidable c] {r q : CmdRes} (hr : r.Formed) (hq : q.Formed) :
    (if c then r else q).Formed := by
  split
  · exact hr
  · exact hq

theorem foldl_form {α : Type} {f : State → α → State} {s : State} {l : List α}
    (hf : ∀ u b, u.memOk = true → (f u b).memOk = true) (h : s.memOk = true) : (l.foldl f s).memOk = true := by
  induction l generalizing s with
  | nil => exact h
  | cons b l ih => exact ih (hf s b h)

theorem State.modIsland_memOk {s : State} {n : Nat} {f : Island → Island} (h : s.memOk = true) :
    (s.modIsland n f).memOk = true :=
  h

theorem State.modCore_memOk {s : State} {id : Nat} {f : CoreSt → CoreSt} (h : s.memOk = true) :
    (s.modCore id f).memOk = true :=
  State.setCore_memOk _ h

theorem State.setFreeze_memOk {s : State} {gr n : Nat} (h : s.memOk = true) : (s.setFreeze gr n).memOk = true :=
  h

theorem State.finishG_memOk {s : State} {d : BitVec 6} {x : Word} (h : s.memOk = true) :
    (s.finishG d x).memOk = true :=
  State.onThr_memOk _ h

theorem State.finish_memOk {s : State} (h : s.memOk = true) : s.finish.memOk = true :=
  State.onThr_memOk _ h

theorem State.stall_memOk {s : State} (h : s.memOk = true) : s.stall.memOk = true :=
  State.onThr_memOk _ h

theorem State.park_memOk {s : State} {w : Wait} (h : s.memOk = true) : (s.park w).memOk = true :=
  State.onThr_memOk _ h

theorem State.modThread_memOk {s : State} {k : ThreadKey} {f : Thread → Thread} (h : s.memOk = true) :
    (s.modThread k f).memOk = true :=
  State.mapThreads_memOk _ h

theorem State.focus_memOk {s : State} {k : ThreadKey} (h : s.memOk = true) : (s.focus k).memOk = true := by
  unfold State.focus
  split
  · exact h
  · split
    · exact h
    · exact h

theorem State.wakeWith_memOk {s : State} {k : ThreadKey} {x : Word} (h : s.memOk = true) :
    (s.wakeWith k x).memOk = true :=
  State.wake_memOk _ (State.modThread_memOk h)

theorem State.wakeTrap_memOk {s : State} {k : ThreadKey} {c : Cause} {i0 i1 : Word} (h : s.memOk = true) :
    (s.wakeTrap k c i0 i1).memOk = true :=
  State.wake_memOk _ (State.modThread_memOk h)

theorem State.serviceFault_memOk {s : State} {v : View} {kind va level entry : Nat} (h : s.memOk = true) :
    (s.serviceFault v kind va level entry).memOk = true :=
  ite_form h h

theorem State.recallHome_memOk {s : State} {line : Nat} (h : s.memOk = true) : (s.recallHome line).memOk = true :=
  h

theorem State.drainCovered_memOk {s : State} {c : Nat} (h : s.memOk = true) : (s.drainCovered c).memOk = true :=
  (s.drainCovered_settles c).form h

theorem State.serveRecords_memOk {s : State} {line : Nat} (h : s.memOk = true) : (s.serveRecords line).memOk = true :=
  foldl_form (fun _ _ h0 => State.drainCovered_memOk h0) h

theorem State.recordCore_memOk {s : State} {c line : Nat} (h : s.memOk = true) : (s.recordCore c line).memOk = true :=
  (s.recordCore_settles c line).form h

theorem State.writeBack_memOk {s : State} {c line : Nat} (h : s.memOk = true) :
    (s.writeBack c line).memOk = true := by
  unfold State.writeBack
  split
  · exact h
  · exact ite_form h (State.recordCore_memOk (State.modCore_memOk (State.mergeHome_memOk _ _ _ h)))

theorem State.evictLine_memOk {s : State} {c line : Nat} (h : s.memOk = true) : (s.evictLine c line).memOk = true :=
  State.modCore_memOk (State.writeBack_memOk h)

theorem State.makeRoom_memOk {s : State} {c line : Nat} (h : s.memOk = true) : (s.makeRoom c line).memOk = true := by
  unfold State.makeRoom
  dsimp only
  split
  · exact h
  · split
    · exact h
    · exact State.memOk_of_eq (State.evictLine_memOk h) rfl rfl rfl

theorem State.drainBytes_memOk {s : State} {c : Nat} {e : WcbEntry} {m : BitVec 128} (h : s.memOk = true) :
    (s.drainBytes c e m).memOk = true :=
  State.recordCore_memOk (State.modCore_memOk (State.mergeHome_memOk _ _ _ h))

theorem State.drainEntry_memOk {s : State} {c : Nat} {e : WcbEntry} (h : s.memOk = true) :
    (s.drainEntry c e).memOk = true :=
  State.drainBytes_memOk h

theorem State.drainGranule_memOk {s : State} {c : Nat} {e : WcbEntry} (h : s.memOk = true) :
    (s.drainGranule c e).memOk = true := by
  unfold State.drainGranule
  split
  · exact h
  · exact State.drainBytes_memOk h

theorem State.drainWcb_memOk {s : State} {c : Nat} {p : WcbEntry → Bool} (h : s.memOk = true) :
    (s.drainWcb c p).memOk = true :=
  foldl_form (fun _ _ h0 => State.drainEntry_memOk h0) h

theorem State.giveUpLine_memOk {s : State} {c line : Nat} (h : s.memOk = true) : (s.giveUpLine c line).memOk = true :=
  State.evictLine_memOk (State.drainWcb_memOk h)

theorem State.storeFault_memOk {s : State} {core : Nat} {key : ThreadKey} {pc va size : Nat} {red : Bool} {c : Cause}
    (h : s.memOk = true) :
    (s.storeFault core key pc va size red c).memOk = true :=
  h

theorem State.applyAt_memOk {s : State} {x : Loc} {bytes : Nat} {op : MemOp} {a b : BitVec 128} {r : State × Nat}
    (h : s.memOk = true) (heq : s.applyAt x bytes op a b = r) :
    r.1.memOk = true := by
  subst heq
  unfold State.applyAt
  dsimp only
  exact State.poke_memOk _ _ _ (ite_form (State.recallHome_memOk (State.serveRecords_memOk h)) h)

theorem State.fillLine_memOk {s : State} {c line : Nat} (h : s.memOk = true) : (s.fillLine c line).memOk = true := by
  unfold State.fillLine
  dsimp only
  split
  · exact State.modCore_memOk h
  · exact State.modCore_memOk (State.makeRoom_memOk h)

theorem State.storeHome_memOk {s : State} {c x n v : Nat} (h : s.memOk = true) : (s.storeHome c x n v).memOk = true :=
  State.recordCore_memOk (State.mergeHome_memOk _ _ _ (State.evictLine_memOk h))

theorem State.storeL1_memOk {s : State} {c x n v : Nat} (h : s.memOk = true) : (s.storeL1 c x n v).memOk = true := by
  unfold State.storeL1
  dsimp only
  split
  · exact State.modCore_memOk h
  · exact State.modCore_memOk (State.makeRoom_memOk h)

theorem State.storeLine_memOk {s : State} {c : Nat} {key : ThreadKey} {va x n v : Nat} {pol : BitVec 2} {sync : Bool}
    (h : s.memOk = true) :
    (s.storeLine c key va x n v pol sync).memOk = true := by
  unfold State.storeLine
  dsimp only
  split
  · exact State.storeHome_memOk h
  · split
    · exact State.modCore_memOk h
    · split
      · refine State.modCore_memOk ?_
        split
        · exact State.drainEntry_memOk h
        · exact h
      · exact ite_form (State.storeHome_memOk h) (State.storeL1_memOk h)

theorem State.coverCore_memOk {s : State} {c : Nat} {key : ThreadKey} (h : s.memOk = true) :
    (s.coverCore c key).memOk = true :=
  State.modCore_memOk (State.drainWcb_memOk h)

theorem State.performStore_memOk {s : State} {c : Nat} {key : ThreadKey} {va x n v : Nat} {pol : BitVec 2}
    {sync : Bool} (h : s.memOk = true) :
    (s.performStore c key va x n v pol sync).memOk = true :=
  ite_form (State.storeLine_memOk (ite_form (State.coverCore_memOk h) h)) (State.poke_memOk _ _ _ (ite_form
    (State.drainCovered_memOk (State.coverCore_memOk h)) h))

theorem State.lateFault_memOk {s : State} {core : Nat} {key : ThreadKey} {pc va size : Nat} {red : Bool} {c : Cause}
    (h : s.memOk = true) :
    (s.lateFault core key pc va size red c).memOk = true :=
  ite_form h (State.storeFault_memOk h)

theorem State.portLeave_memOk {s : State} {c : Nat} {p : PortStore} (h : s.memOk = true) :
    (s.portLeave c p).memOk = true := by
  unfold State.portLeave
  dsimp only
  split
  · exact ite_form (State.modCore_memOk h) (State.lateFault_memOk (State.modCore_memOk (State.modCore_memOk h)))
  · exact State.performStore_memOk (State.modCore_memOk h)

theorem State.flushPort_memOk {s : State} {c : Nat} (h : s.memOk = true) : (s.flushPort c).memOk = true :=
  foldl_form (fun _ _ h0 => ite_form (State.portLeave_memOk h0) h0) h

theorem State.portStore_memOk {s : State} {c : Nat} {key : ThreadKey} {upTo pc va x n v : Nat} {pol : BitVec 2}
    {sync quiet : Bool} (h : s.memOk = true) :
    (s.portStore c key upTo pc va x n v pol sync quiet).memOk = true :=
  ite_form (State.performStore_memOk h) (State.modCore_memOk h)

/-- What a message does to the state in which it is performed. -/
theorem State.performOne_memOk {s : State} {m : MemMsg} (h : s.memOk = true) : (s.performOne m).memOk = true := by
  have h1 : (if isDram m.loc then State.giveUpLine { s with msgs := s.msgs.erase m } (coreIndex m.view) (lineAt m.loc)
      else { s with msgs := s.msgs.erase m }).memOk = true := ite_form (State.giveUpLine_memOk h) h
  unfold State.performOne
  dsimp only
  generalize (if isDram m.loc then State.giveUpLine { s with msgs := s.msgs.erase m } (coreIndex m.view)
    (lineAt m.loc)
      else { s with msgs := s.msgs.erase m }) = s1 at h1 ⊢
  split
  · exact State.modThread_memOk h1
  · exact State.lateFault_memOk h1
  · split
    · exact State.modThread_memOk (State.applyAt_memOk h1 rfl)
    · exact State.applyAt_memOk h1 rfl

theorem State.performMsg_memOk {s : State} {m : MemMsg} (h : s.memOk = true) : (s.performMsg m).memOk = true :=
  ite_form (foldl_form (fun _ _ h0 => State.performOne_memOk h0) (State.flushPort_memOk h)) (State.flushPort_memOk h)

theorem State.performMsgs_memOk {s : State} {p : MemMsg → Bool} (h : s.memOk = true) :
    (s.performMsgs p).memOk = true :=
  foldl_form (fun _ _ h0 => ite_form (State.performMsg_memOk h0) h0) h

theorem State.flushAtoms_memOk {s : State} {c line : Nat} (h : s.memOk = true) : (s.flushAtoms c line).memOk = true :=
  ite_form h (State.performMsgs_memOk h)

theorem State.portOpen_memOk {s : State} {c : Nat} {j : PortItem} (h : s.memOk = true) :
    (s.portOpen c j).memOk = true :=
  foldl_form (fun _ _ h0 => State.flushAtoms_memOk h0) (State.flushPort_memOk h)

theorem State.ackFar_memOk {s : State} {key : ThreadKey} (h : s.memOk = true) : (s.ackFar key).memOk = true :=
  h

theorem State.release_memOk {s : State} {v : View} {key : ThreadKey} {sc : Scope} (h : s.memOk = true) :
    (s.release v key sc).memOk = true :=
  ite_form (State.coverCore_memOk (ite_form (State.ackFar_memOk (State.performMsgs_memOk h)) (State.performMsgs_memOk
    h))) (State.drainWcb_memOk (ite_form (State.ackFar_memOk (State.performMsgs_memOk h)) (State.performMsgs_memOk
    h)))

theorem State.releaseEager_memOk {s : State} {v : View} {key : ThreadKey} {sc : Scope} (h : s.memOk = true) :
    (s.releaseEager v key sc).memOk = true :=
  State.drainCovered_memOk (State.release_memOk h)

theorem State.releaseFor_memOk {s : State} {v : View} {key : ThreadKey} {sp : BitVec 4} (h : s.memOk = true) :
    (s.releaseFor v key sp).memOk = true :=
  ite_form (State.release_memOk h) (State.releaseEager_memOk h)

theorem State.acquire_memOk {s : State} {v : View} {sc : Scope} (h : s.memOk = true) :
    (s.acquire v sc).memOk = true :=
  ite_form (State.modCore_memOk h) h

theorem State.orderPoint_memOk {s : State} {v : View} {sc : Scope} (h : s.memOk = true) :
    (s.orderPoint v sc).memOk = true :=
  foldl_form (fun _ _ h0 => State.drainCovered_memOk h0) h

theorem State.kickLine_memOk {s : State} {c line : Nat} (h : s.memOk = true) : (s.kickLine c line).memOk = true := by
  unfold State.kickLine
  dsimp only
  split
  · exact State.serveRecords_memOk h
  · exact ite_form (State.serveRecords_memOk h) (State.modCore_memOk (State.mergeHome_memOk _ _ _
      (State.serveRecords_memOk h)))

theorem State.stopeLine_memOk {s : State} {line : Nat} (h : s.memOk = true) : (s.stopeLine line).memOk = true :=
  State.recallHome_memOk (State.serveRecords_memOk h)

theorem State.recallRange_memOk {s : State} {lo n : Nat} (h : s.memOk = true) : (s.recallRange lo n).memOk = true :=
  foldl_form (fun _ _ h0 => foldl_form (fun _ _ h1 => State.writeBack_memOk h1) (State.drainWcb_memOk h0)) h

theorem State.save_memOk {s : State} {area off x : Nat} (h : s.memOk = true) : (s.save area off x).memOk = true :=
  State.poke_memOk _ _ _ h

theorem State.saveList_memOk {s : State} {area off : Nat} {l : List Nat} (h : s.memOk = true) :
    (s.saveList area off l).memOk = true := by
  induction l generalizing s off with
  | nil => exact h
  | cons x xs ih => exact ih (State.save_memOk h)

theorem State.savePending_memOk {s : State} {area off : Nat} {l : List Pend} (h : s.memOk = true) :
    (s.savePending area off l).memOk = true := by
  induction l generalizing s off with
  | nil => exact h
  | cons e es ih => exact ih (State.poke_memOk _ _ _ h)

theorem State.renewPending_memOk {s : State} {area off : Nat} {l : List Pend} (h : s.memOk = true) :
    (s.renewPending area off l).memOk = true := by
  induction l generalizing s off with
  | nil => exact h
  | cons e es ih => exact ih (State.poke_memOk _ _ _ h)

theorem State.refreshPending_memOk {s : State} {k : ThreadKey} (h : s.memOk = true) :
    (s.refreshPending k).memOk = true := by
  unfold State.refreshPending
  split
  · exact h
  · exact ite_form (State.renewPending_memOk h) h

theorem State.saveWake_memOk {s : State} {k : ThreadKey} (h : s.memOk = true) : (s.saveWake k).memOk = true := by
  unfold State.saveWake
  split
  · exact h
  · exact ite_form (State.save_memOk (State.save_memOk h)) h

theorem State.sendReply_memOk {s : State} {r : Reply} (h : s.memOk = true) : (s.sendReply r).memOk = true :=
  h

theorem State.answer_memOk {s : State} {h1 : CmdHeader} {op status : Nat} {body : List Byte} (h : s.memOk = true) :
    (s.answer h1 op status body).memOk = true :=
  State.sendReply_memOk h

theorem State.writeWord_memOk {s : State} {v : View} {x n val : Nat} (h : s.memOk = true) :
    (s.writeWord v x n val).memOk = true :=
  ite_form (State.recordCore_memOk (State.poke_memOk _ _ _ (State.giveUpLine_memOk h))) (State.poke_memOk _ _ _ h)

theorem State.grantEntry_memOk {s : State} {w : WordWait} {i : Nat} {f : Pend → Pend} (h : s.memOk = true) :
    (s.grantEntry w i f).memOk = true := by
  unfold State.grantEntry
  dsimp only
  split
  · exact State.refreshPending_memOk (State.modThread_memOk h)
  · exact ite_form (State.wake_memOk _ (State.refreshPending_memOk (State.modThread_memOk h)))
      (State.refreshPending_memOk (State.modThread_memOk h))

theorem State.performReq_memOk {s : State} {w : WordWait} (h : s.memOk = true) : (s.performReq w).memOk = true := by
  unfold State.performReq
  dsimp only
  split
  · split
    · split
      · split
        · exact State.wake_memOk _ (State.serveRecords_memOk h)
        · exact State.grantEntry_memOk (State.serveRecords_memOk h)
      · split
        · exact State.wakeWith_memOk (State.acquire_memOk (ite_form (State.setFull_memOk _ _ (State.serveRecords_memOk
            h)) (State.serveRecords_memOk h)))
        · exact State.grantEntry_memOk (State.acquire_memOk (ite_form (State.setFull_memOk _ _
            (State.serveRecords_memOk h)) (State.serveRecords_memOk h)))
    · split
      · split
        · exact State.wake_memOk _ h
        · exact State.grantEntry_memOk h
      · split
        · exact State.wakeWith_memOk (State.acquire_memOk (ite_form (State.setFull_memOk _ _ h) h))
        · exact State.grantEntry_memOk (State.acquire_memOk (ite_form (State.setFull_memOk _ _ h) h))
  · exact State.wakeWith_memOk (State.setFull_memOk _ _ (State.writeWord_memOk h))
  · exact State.wakeWith_memOk (State.setFull_memOk _ _ (State.writeWord_memOk h))

theorem State.serveGo_memOk {s : State} {w n : Nat} (h : s.memOk = true) : (s.serveGo w n).memOk = true := by
  induction n generalizing s with
  | zero =>
    rw [State.serveGo]
    exact h
  | succ n n1 =>
    rw [State.serveGo]
    split
    · exact h
    · exact ite_form (n1 (State.performReq_memOk h)) h

theorem State.serveWord_memOk {s : State} {w : Nat} (h : s.memOk = true) : (s.serveWord w).memOk = true :=
  State.serveGo_memOk h

theorem State.changeFull_memOk {s : State} {w : Nat} {full : Bool} (h : s.memOk = true) :
    (s.changeFull w full).memOk = true :=
  State.serveWord_memOk (State.setFull_memOk _ _ h)

theorem State.serveRange_memOk {s : State} {lo n : Nat} (h : s.memOk = true) : (s.serveRange lo n).memOk = true :=
  foldl_form (fun _ _ h0 => State.serveWord_memOk h0) h

theorem State.clearRange_memOk {s : State} {lo n : Nat} (h : s.memOk = true) : (s.clearRange lo n).memOk = true := by
  rw [State.memOk_iff] at h ⊢
  exact ⟨memClear_wf _ _ h.1, setClear_rising _ _ h.2.1, setClear_rising _ _ h.2.2⟩

theorem State.wipe_memOk {s : State} {lo n : Nat} (h : s.memOk = true) : (s.wipe lo n).memOk = true :=
  State.serveRange_memOk (State.clearRange_memOk h)

theorem State.wakeBarrier_memOk {s : State} {x : Loc} (h : s.memOk = true) : (s.wakeBarrier x).memOk = true :=
  foldl_form (fun _ _ h0 => State.sendReply_memOk h0) (State.memOk_of_eq (foldl_form (fun _ _ h0 => State.wake_memOk _
    h0) (ite_form (State.serveRecords_memOk h) h)) rfl rfl rfl)

theorem State.updBarrier_memOk {s : State} {x : Loc} {rel : Option Nat} {f : Barrier → Barrier} (h : s.memOk = true) :
    (s.updBarrier x rel f).memOk = true := by
  unfold State.updBarrier
  dsimp only
  split
  · split
    · refine State.wakeBarrier_memOk ?_
      split
      · exact State.recordCore_memOk (State.poke_memOk _ _ _ (State.stopeLine_memOk h))
      · exact State.poke_memOk _ _ _ (State.stopeLine_memOk h)
    · split
      · exact State.recordCore_memOk (State.poke_memOk _ _ _ (State.stopeLine_memOk h))
      · exact State.poke_memOk _ _ _ (State.stopeLine_memOk h)
  · split
    · refine State.wakeBarrier_memOk ?_
      split
      · exact State.poke_memOk _ _ _ h
      · exact State.poke_memOk _ _ _ h
    · split
      · exact State.poke_memOk _ _ _ h
      · exact State.poke_memOk _ _ _ h

theorem State.arrivalFault_memOk {s : State} {a : Arrival} {c : Cause} (h : s.memOk = true) :
    (s.arrivalFault a c).memOk = true := by
  unfold State.arrivalFault
  split
  · exact h
  · exact ite_form h (State.lateFault_memOk h)

theorem State.arrive_memOk {s : State} {a : Arrival} (h : s.memOk = true) : (s.arrive a).memOk = true := by
  unfold State.arrive
  split
  · exact ite_form (State.arrivalFault_memOk h) (State.updBarrier_memOk h)
  · exact h
  · dsimp only
    exact State.memOk_of_eq (State.serviceFault_memOk h) rfl rfl rfl
  · exact State.arrivalFault_memOk h

theorem State.retryArrivals_memOk {s : State} (h : s.memOk = true) : s.retryArrivals.memOk = true :=
  foldl_form (fun _ _ h0 => State.arrive_memOk h0) h

theorem State.modCrew_memOk {s : State} {c : Nat × Nat} {f : Crew → Crew} (h : s.memOk = true) :
    (s.modCrew c f).memOk = true :=
  h

theorem State.modShift_memOk {s : State} {n : Nat} {f : Shift → Shift} (h : s.memOk = true) :
    (s.modShift n f).memOk = true :=
  h

theorem State.setEng_memOk {s : State} {m : MatrixEng} (h : s.memOk = true) : (s.setEng m).memOk = true :=
  h

theorem State.flushCore_memOk {s : State} {c : Nat} (h : s.memOk = true) : (s.flushCore c).memOk = true :=
  State.drainCovered_memOk (State.modCore_memOk (State.drainWcb_memOk (State.flushPort_memOk h)))

theorem State.barcCheck_memOk {s : State} {c : Nat × Nat} (h : s.memOk = true) : (s.barcCheck c).memOk = true := by
  unfold State.barcCheck
  split
  · exact h
  · dsimp only
    exact ite_form h (foldl_form (fun _ _ h0 => State.wakeWith_memOk (State.acquire_memOk h0)) (State.modCrew_memOk
        (foldl_form (fun _ _ h0 => State.drainCovered_memOk h0) h)))

theorem State.shiftCheck_memOk {s : State} {n : Nat} (h : s.memOk = true) : (s.shiftCheck n).memOk = true := by
  unfold State.shiftCheck
  split
  · exact h
  · dsimp only
    split
    · split
      · exact h
      · split
        · exact h
        · exact State.arrive_memOk h
    · split
      · exact State.performMsgs_memOk h
      · split
        · exact State.memOk_of_eq (State.performMsgs_memOk h) rfl rfl rfl
        · exact State.arrive_memOk (State.memOk_of_eq (State.performMsgs_memOk h) rfl rfl rfl)

theorem State.returnTiles_memOk {s : State} {cl : Nat} (h : s.memOk = true) : (s.returnTiles cl).memOk = true :=
  ite_form h (State.setEng_memOk h)

theorem State.gangLoss_memOk {s : State} {c : Nat × Nat} (h : s.memOk = true) : (s.gangLoss c).memOk = true := by
  unfold State.gangLoss
  split
  · exact h
  · exact h

theorem State.crewCheck_memOk {s : State} {c : Nat × Nat} (h : s.memOk = true) : (s.crewCheck c).memOk = true := by
  unfold State.crewCheck
  split
  · exact h
  · exact ite_form h (State.shiftCheck_memOk (State.modShift_memOk (State.returnTiles_memOk (State.flushCore_memOk
      (State.flushCore_memOk (State.flushCore_memOk (State.flushCore_memOk (State.modCrew_memOk h))))))))

theorem State.endThread_memOk {s : State} {key : ThreadKey} {killed : Bool} (h : s.memOk = true) :
    (s.endThread key killed).memOk = true := by
  unfold State.endThread
  split
  · exact h
  · split
    · exact h
    · dsimp only
      split
      · exact State.setEng_memOk (State.flushPort_memOk (State.modThread_memOk h))
      · exact State.crewCheck_memOk (State.barcCheck_memOk (ite_form (State.gangLoss_memOk (State.setEng_memOk
          (State.flushPort_memOk (State.modThread_memOk h)))) (State.setEng_memOk (State.flushPort_memOk
          (State.modThread_memOk h)))))

theorem State.endCrew_memOk {s : State} {c : Nat × Nat} (h : s.memOk = true) : (s.endCrew c).memOk = true :=
  foldl_form (fun _ _ h0 => State.endThread_memOk h0) h

theorem State.terminateCrew_memOk {s : State} {c : Nat × Nat} {cause : Cause} (h : s.memOk = true) :
    (s.terminateCrew c cause).memOk = true :=
  State.endCrew_memOk (State.modShift_memOk h)

theorem State.killCrew_memOk {s : State} {c : Nat × Nat} (h : s.memOk = true) : (s.killCrew c).memOk = true :=
  State.endCrew_memOk (State.modShift_memOk h)

theorem State.wakeQueue_memOk {s : State} {isl q : Nat} (h : s.memOk = true) : (s.wakeQueue isl q).memOk = true := by
  unfold State.wakeQueue
  split
  · exact h
  · split
    · exact h
    · dsimp only
      exact State.wake_memOk _ (State.modIsland_memOk h)

theorem State.leaveQueues_memOk {s : State} {k : ThreadKey} (h : s.memOk = true) : (s.leaveQueues k).memOk = true :=
  ite_form h (foldl_form (fun _ _ h0 => foldl_form (fun _ _ h1 => State.wakeQueue_memOk h1) h0) h)

theorem State.reachHead_memOk {s : State} {isl q : Nat} (h : s.memOk = true) : (s.reachHead isl q).memOk = true := by
  unfold State.reachHead
  split
  · exact h
  · split
    · exact h
    · dsimp only
      exact State.modShift_memOk (State.modIsland_memOk h)

theorem State.leaveQueue_memOk {s : State} {k : Shift} (h : s.memOk = true) : (s.leaveQueue k).memOk = true :=
  ite_form (State.reachHead_memOk (State.wakeQueue_memOk (State.modShift_memOk (State.modIsland_memOk h))))
    (State.wakeQueue_memOk (State.modShift_memOk (State.modIsland_memOk h)))

theorem State.killShift_memOk {s : State} {n : Nat} (h : s.memOk = true) : (s.killShift n).memOk = true := by
  unfold State.killShift
  split
  · exact h
  · dsimp only
    exact State.shiftCheck_memOk (foldl_form (fun _ _ h0 => State.killCrew_memOk h0) (ite_form
        (State.modShift_memOk h) (State.leaveQueue_memOk (State.modShift_memOk h))))

end Sys2Proof.Machine
end

section
/-! O11, continued: the accesses of a thread, full/empty operations, barriers and the instructions of the system. -/

namespace Sys2Proof.Machine

open Sys2Proof

set_option Elab.async false

theorem State.parkPage_memOk {s : State} {va : Nat} (h : s.memOk = true) : (s.parkPage va).memOk = true :=
  State.park_memOk (ite_form h h)

theorem State.enterTrap_memOk {s : State} {c : Cause} {i0 i1 : Word} {resume : BitVec 52} {rpl : Bool} {left : Nat}
    (h : s.memOk = true) :
    (s.enterTrap c i0 i1 resume rpl left).memOk = true :=
  ite_form (State.onThr_memOk _ h) (ite_form (State.stall_memOk h) (ite_form (State.terminateCrew_memOk h)
    (State.onThr_memOk _ h)))

theorem State.takePark_memOk {s : State} {e : Pend} (h : s.memOk = true) : (s.takePark e).memOk = true := by
  unfold State.takePark
  split
  · exact State.parkPage_memOk (State.onThr_memOk _ h)
  · exact h
  · exact h
  · exact h
  · exact h
  · exact h
  · exact h

theorem State.takeFailed_memOk {s : State} {e : Pend} (h : s.memOk = true) : (s.takeFailed e).memOk = true := by
  unfold State.takeFailed
  split
  · exact State.takePark_memOk h
  · dsimp only
    split
    · exact State.takePark_memOk h
    · exact ite_form (State.stall_memOk h) (ite_form (State.enterTrap_memOk (State.onThr_memOk _ h))
        (State.enterTrap_memOk (State.onThr_memOk _ h)))
  · exact h
  · exact h
  · exact h
  · exact h
  · exact h

theorem State.endWindows_memOk {s : State} {k : State → State} (h : s.memOk = true)
    (hk : ∀ (s : State), s.memOk = true → (k s).memOk = true) :
    (s.endWindows k).memOk = true := by
  unfold State.endWindows
  split
  · exact hk _ h
  · dsimp only
    split
    · exact State.takeFailed_memOk (ite_form h (State.performMsgs_memOk h))
    · exact hk _ (ite_form h (State.performMsgs_memOk h))

theorem State.trap_memOk {s : State} {c : Cause} {i0 i1 : Word} (h : s.memOk = true) :
    (s.trap c i0 i1).memOk = true := by
  unfold State.trap
  split
  · exact State.takePark_memOk h
  · exact State.endWindows_memOk h (fun _ h0 => State.enterTrap_memOk h0)

theorem State.trapUnit_memOk {s : State} {c : Cause} {va : Nat} (h : s.memOk = true) :
    (s.trapUnit c va).memOk = true :=
  State.trap_memOk h

theorem State.unless_memOk {s : State} {t : Option TrapInfo} {k : State → State} (h : s.memOk = true)
    (hk : ∀ (s : State), s.memOk = true → (k s).memOk = true) :
    (s.unless t k).memOk = true := by
  unfold State.unless
  split
  · exact State.trap_memOk h
  · exact hk _ h

theorem State.transfer_memOk {s : State} {target : Word} {f : Thread → Thread} (h : s.memOk = true) :
    (s.transfer target f).memOk = true := by
  unfold State.transfer
  split
  · exact State.trap_memOk h
  · exact ite_form (State.stall_memOk h) (State.parkPage_memOk h)
  · exact ite_form (State.stall_memOk (State.serviceFault_memOk h)) (State.parkPage_memOk (State.serviceFault_memOk
      h))
  · exact ite_form (State.onThr_memOk _ h) (State.trap_memOk h)

theorem State.readGate_memOk {s : State} {k : State → State} (h : s.memOk = true)
    (hk : ∀ (s : State), s.memOk = true → (k s).memOk = true) :
    (s.readGate k).memOk = true :=
  ite_form (State.stall_memOk h) (hk _ h)

theorem State.writeGate_memOk {s : State} {k : State → State} (h : s.memOk = true)
    (hk : ∀ (s : State), s.memOk = true → (k s).memOk = true) :
    (s.writeGate k).memOk = true :=
  ite_form (State.stall_memOk (State.flushPort_memOk (ite_form h (State.performMsgs_memOk h)))) (hk _
    (State.flushPort_memOk (ite_form h (State.performMsgs_memOk h))))

theorem State.deviceGate_memOk {s : State} {k : State → State} (h : s.memOk = true)
    (hk : ∀ (s : State), s.memOk = true → (k s).memOk = true) :
    (s.deviceGate k).memOk = true :=
  State.writeGate_memOk h (fun _ h0 => ite_form (State.stall_memOk (ite_form h0 (State.performMsgs_memOk h0))) (hk _
    (ite_form h0 (State.performMsgs_memOk h0))))

theorem State.portGate_memOk {s : State} {k : PortKind} {x n : Nat} {go : State → State} (h : s.memOk = true)
    (hgo : ∀ (s : State), s.memOk = true → (go s).memOk = true) :
    (s.portGate k x n go).memOk = true :=
  ite_form (hgo _ h) (ite_form (hgo _ (State.portOpen_memOk h)) (State.stall_memOk (State.portOpen_memOk h)))

theorem State.readParts_memOk {s : State} {v : View} {near : Bool} {g : Seg} {l : List LoadPart} {n : Nat} {r :
    State × LoadRes}
    (h : s.memOk = true) (heq : s.readParts v near g l n = r) : r.1.memOk = true := by
  subst heq
  exact (s.readParts_settles v near g l n).form h

theorem State.loadFailure_memOk {s : State} {v : View} {near : Bool} {va : Nat} {x : XRes} {r : State × LoadRes}
    (h : s.memOk = true) (heq : s.loadFailure v near va x = r) :
    r.1.memOk = true := by
  subst heq
  unfold State.loadFailure
  split
  · exact h
  · exact State.serviceFault_memOk h
  · exact h

theorem State.loadPlaced_memOk {s : State} {v : View} {near : Bool} {g : Seg}
    {r : List LoadPart × Option (Nat × XRes)} {p : State × LoadRes} (h : s.memOk = true)
    (heq : s.loadPlaced v near g r = p) :
    p.1.memOk = true := by
  subst heq
  unfold State.loadPlaced
  split
  · next heq _ =>
    exact State.loadFailure_memOk (State.readParts_memOk h heq :) rfl
  · exact State.readParts_memOk h rfl

theorem State.loadElems_memOk {s : State} {g : Seg} {ps : List (Nat × Nat × Nat)} {r : State × LoadRes}
    (h : s.memOk = true) (heq : s.loadElems g ps = r) :
    r.1.memOk = true := by
  subst heq
  unfold State.loadElems
  dsimp only
  split
  · exact State.loadPlaced_memOk h rfl
  · split
    · exact State.loadPlaced_memOk h rfl
    · split
      · exact State.loadPlaced_memOk (State.portOpen_memOk h) rfl
      · exact State.loadFailure_memOk (State.portOpen_memOk h) rfl
      · exact State.portOpen_memOk h

theorem State.loadBytes_memOk {s : State} {g : Seg} {off n : Nat} {r : State × LoadRes} (h : s.memOk = true)
    (heq : s.loadBytes g off n = r) :
    r.1.memOk = true := by
  subst heq
  unfold State.loadBytes
  exact State.loadElems_memOk h rfl

theorem State.farSend_memOk {s : State} {entry : Option Nat} {va size fmod : Nat} {parts : List (Nat × Nat)}
    {sx upTo :
    Nat}
    (h : s.memOk = true) : (s.farSend entry va size fmod parts sx upTo).memOk = true :=
  h

theorem State.keepByte_memOk {s : State} {isl fmod a b : Nat} (h : s.memOk = true) :
    (s.keepByte isl fmod a b).memOk = true :=
  ite_form h h

theorem State.farFill_memOk {s : State} {isl fmod : Nat} {l : List Nat} {n : Nat} {r : State × Nat}
    (h : s.memOk = true) (heq : s.farFill isl fmod l n = r) :
    r.1.memOk = true := by
  induction l generalizing s n r with
  | nil =>
    subst heq
    rw [State.farFill]
    exact h
  | cons b l ih =>
    subst heq
    rw [State.farFill]
    split
    · next heq =>
      exact (ih (State.keepByte_memOk h) heq :)

theorem State.farLoad_memOk {s : State} {g : Seg} {d : Dest} {left : Nat} {parts : List (Nat × Nat)} {sx : Nat}
    (h : s.memOk = true) :
    (s.farLoad g d left parts sx).memOk = true := by
  unfold State.farLoad
  split
  · exact State.onThr_memOk _ h
  · exact State.onThr_memOk _ (State.farSend_memOk h)

theorem State.holdLoad_memOk {s : State} {g : Seg} {ps : List (Nat × Nat × Nat)} {d : Dest} {left sx : Nat}
    {lds : Option Bool} (h : s.memOk = true) :
    (s.holdLoad g ps d left sx lds).memOk = true :=
  State.onThr_memOk _ h

theorem State.loadUnit_memOk {s : State} {g : Seg} {ps : List (Nat × Nat × Nat)} {d : Dest} {left sx : Nat}
    (h : s.memOk = true) :
    (s.loadUnit g ps d left sx).memOk = true := by
  unfold State.loadUnit
  dsimp only
  split
  · exact State.holdLoad_memOk (State.loadElems_memOk h rfl)
  · exact State.stall_memOk (State.loadElems_memOk h rfl)
  · exact State.stall_memOk (State.loadElems_memOk h rfl)
  · exact State.onThr_memOk _ h
  · exact State.onThr_memOk _ (State.loadElems_memOk h rfl)

theorem State.load_memOk {s : State} {i : BitVec 3} {off : Word} {n : Nat} {d : Dest} {la : BitVec 4} {sx : Nat}
    (h : s.memOk = true) :
    (s.load i off n d la sx).memOk = true :=
  State.unless_memOk h (fun _ h0 => ite_form (State.farLoad_memOk h0) (State.loadUnit_memOk h0))

theorem State.storePiece_memOk {s : State} {g : Seg} {p : Nat × Nat} {v : Nat} {sync quiet : Bool}
    (h : s.memOk = true) :
    (s.storePiece g p v sync quiet).memOk = true := by
  unfold State.storePiece
  split
  · exact ite_form (State.poke_memOk _ _ _ (ite_form (State.stopeLine_memOk h) h)) (State.portStore_memOk
      (State.flushAtoms_memOk (State.flushPort_memOk h)))
  · exact h

theorem State.storePieces_memOk {s : State} {g : Seg} {sync quiet : Bool} {l : List (Nat × Nat)} {n : Nat}
    (h : s.memOk = true) :
    (s.storePieces g sync quiet l n).memOk = true := by
  induction l generalizing s n with
  | nil =>
    rw [State.storePieces]
    exact h
  | cons b l ih =>
    rw [State.storePieces]
    exact ih (State.storePiece_memOk h)

theorem State.faultStore_memOk {s : State} {va size : Nat} {red : Bool} {c : Cause} (h : s.memOk = true) :
    (s.faultStore va size red c).memOk = true :=
  State.storeFault_memOk h

theorem State.storeElems_memOk {s : State} {g : Seg} {sync : Bool} {l : List (Nat × Nat × Nat)} {b : Bool}
    (h : s.memOk = true) :
    (s.storeElems g sync l b).memOk = true := by
  induction l generalizing s b with
  | nil =>
    rw [State.storeElems]
    exact h
  | cons b1 l ih =>
    rw [State.storeElems]
    split
    · dsimp only
      exact ih (ite_form h (State.faultStore_memOk h))
    · exact ih (State.storePieces_memOk h)

theorem State.holdStore_memOk {s : State} {g : Seg} {es : List (Nat × Nat × Nat)} {sync parked : Bool} {op : HeldOp}
    (h : s.memOk = true) :
    (s.holdStore g es sync parked op).memOk = true :=
  h

theorem State.reported_memOk {s : State} {v : View} {kind : Nat} {x : StoreRes} (h : s.memOk = true) :
    (s.reported v kind x).memOk = true := by
  unfold State.reported
  split
  · exact State.serviceFault_memOk h
  · exact h
  · exact h
  · exact h

theorem State.storeBytes_memOk {s : State} {g : Seg} {es : List (Nat × Nat × Nat)} (h : s.memOk = true) :
    (s.storeBytes g es).memOk = true := by
  unfold State.storeBytes
  dsimp only
  split
  · exact ite_form (State.stall_memOk (State.reported_memOk h)) (State.onThr_memOk _ (State.holdStore_memOk
      (State.reported_memOk h)))
  · split
    · exact State.onThr_memOk _ h
    · exact State.onThr_memOk _ (State.storeElems_memOk h)

theorem State.finishStore_memOk {s : State} (h : s.memOk = true) : s.finishStore.memOk = true :=
  ite_form h (State.finish_memOk h)

theorem State.store_memOk {s : State} {i : BitVec 3} {off : Word} {n v : Nat} (h : s.memOk = true) :
    (s.store i off n v).memOk = true :=
  State.unless_memOk h (fun _ h0 => State.finishStore_memOk (State.storeBytes_memOk h0))

theorem State.retryJobs_memOk {s : State} (h : s.memOk = true) : s.retryJobs.memOk = true :=
  ite_form h (State.onThr_memOk _ (State.setEng_memOk h))

theorem State.trapReturn_memOk {s : State} (h : s.memOk = true) : s.trapReturn.memOk = true := by
  unfold State.trapReturn
  refine State.endWindows_memOk h (fun s0 h0 => ?_)
  dsimp only
  split
  · exact State.trap_memOk h0
  · exact State.parkPage_memOk h0
  · exact State.parkPage_memOk (State.serviceFault_memOk h0)
  · exact ite_form (State.stall_memOk h0) (State.onThr_memOk _ (State.retryJobs_memOk h0))

theorem State.intScalar_memOk {s : State} {t : IntTy} {d a b : BitVec 6} {f : Nat → Nat → Nat → Nat → Nat × Flags}
    (h : s.memOk = true) :
    (s.intScalar t d a b f).memOk = true :=
  State.onThr_memOk _ h

theorem State.intVector_memOk {s : State} {t : IntTy} {d a b : BitVec 5} {p : BitVec 3}
    {f : Nat → Nat → Nat → Nat → Nat × Flags} (h : s.memOk = true) :
    (s.intVector t d a b p f).memOk = true :=
  State.onThr_memOk _ h

theorem State.wordOp_memOk {s : State} {d : BitVec 6} {x : Thread → Word} (h : s.memOk = true) :
    (s.wordOp d x).memOk = true :=
  State.onThr_memOk _ h

theorem State.fScalar_memOk {s : State} {d : BitVec 6} {rm : Rm} {f : Thread → Rounded} (h : s.memOk = true) :
    (s.fScalar d rm f).memOk = true :=
  State.onThr_memOk _ h

theorem State.fVector_memOk {s : State} {d : BitVec 5} {p : Pred} {gw dw n : Nat} {rm : Rm} {draws : Nat}
    {f : Thread → Nat → Rounded} (h : s.memOk = true) :
    (s.fVector d p gw dw n rm draws f).memOk = true :=
  State.onThr_memOk _ h

theorem State.fLanes_memOk {s : State} {t : FTy} {d : BitVec 5} {p : BitVec 3} {rm : Rm} {f : Thread → Nat → Rounded}
    (h : s.memOk = true) :
    (s.fLanes t d p rm f).memOk = true :=
  State.fVector_memOk h

theorem State.fPendScalar_memOk {s : State} {d : BitVec 6} {la : BitVec 4} {rm : Rm} {f : Thread → Rounded}
    (h : s.memOk = true) :
    (s.fPendScalar d la rm f).memOk = true :=
  State.onThr_memOk _ h

theorem State.fPendVector_memOk {s : State} {t : FTy} {d : BitVec 5} {p : BitVec 3} {la : BitVec 4} {rm : Rm}
    {f : Thread → Nat → Rounded} (h : s.memOk = true) :
    (s.fPendVector t d p la rm f).memOk = true :=
  State.onThr_memOk _ h

theorem State.sendStore_memOk {s : State} {g : Seg} {off bytes : Nat} {op : MemOp} {a : BitVec 128} {n : Need}
    (h : s.memOk = true) :
    (s.sendStore g off bytes op a n).memOk = true := by
  unfold State.sendStore
  dsimp only
  split
  · exact h
  · exact State.holdStore_memOk h
  · exact State.holdStore_memOk (State.serviceFault_memOk h)
  · exact State.faultStore_memOk h

theorem State.syncEager_memOk {s : State} (h : s.memOk = true) : s.syncEager.memOk = true :=
  ite_form (State.onThr_memOk _ (State.drainCovered_memOk h)) h

theorem State.handlerNibble_memOk {s : State} {g : Seg} {off : Nat} {high : Bool} {x : Nat} (h : s.memOk = true) :
    (s.handlerNibble g off high x).memOk = true := by
  unfold State.handlerNibble
  split
  · exact ite_form (State.onThr_memOk _ h) (State.finish_memOk (State.applyAt_memOk h rfl))
  · exact State.stall_memOk h
  · exact State.stall_memOk (State.serviceFault_memOk h)
  · exact State.onThr_memOk _ h

theorem State.portNibble_memOk {s : State} {g : Seg} {off : Nat} {high : Bool} {x : Nat} {y : Loc}
    (h : s.memOk = true) :
    (s.portNibble g off high x y).memOk = true :=
  ite_form (State.applyAt_memOk (State.portOpen_memOk h) rfl) (State.holdStore_memOk (State.portOpen_memOk h))

theorem State.storeNibble_memOk {s : State} {sg : BitVec 3} {off : Nat} {high : Bool} {x : Nat} (h : s.memOk = true) :
    (s.storeNibble sg off high x).memOk = true := by
  unfold State.storeNibble
  refine State.unless_memOk h (fun s0 h0 => ?_)
  dsimp only
  split
  · exact State.handlerNibble_memOk h0
  · split
    · exact State.finish_memOk (State.onThr_memOk _ (State.holdStore_memOk h0))
    · split
      · exact ite_form (State.finish_memOk (State.portNibble_memOk (State.syncEager_memOk h0))) (State.finish_memOk
          (State.sendStore_memOk (State.syncEager_memOk h0)))
      · exact State.finish_memOk (State.sendStore_memOk (State.syncEager_memOk h0))

theorem State.loadVector_memOk {s : State} {sg : BitVec 3} {d : BitVec 5} {la : BitVec 4} {esz : Nat}
    {lanes : List (Nat × Nat)} (h : s.memOk = true) :
    (s.loadVector sg d la esz lanes).memOk = true :=
  State.unless_memOk h (fun _ h0 => ite_form (State.farLoad_memOk h0) (State.loadUnit_memOk h0))

theorem State.storeVector_memOk {s : State} {sg : BitVec 3} {x : VWord} {esz : Nat} {lanes : List (Nat × Nat)}
    (h : s.memOk = true) :
    (s.storeVector sg x esz lanes).memOk = true :=
  State.unless_memOk h (fun _ h0 => State.finishStore_memOk (State.storeBytes_memOk h0))

theorem State.illegalHere_memOk {s : State} {i : Instr} (h : s.memOk = true) : (s.illegalHere i).memOk = true :=
  State.trap_memOk h

theorem State.arriveFault_memOk {s : State} {f : StoreFault} (h : s.memOk = true) : (s.arriveFault f).memOk = true :=
  h

theorem State.enterQueue_memOk {s : State} {core : Nat} (h : s.memOk = true) : (s.enterQueue core).memOk = true := by
  unfold State.enterQueue
  split
  · split
    · exact h
    · exact h
  · exact h

theorem State.arriveFaults_memOk {s : State} (h : s.memOk = true) : s.arriveFaults.memOk = true :=
  foldl_form (fun _ _ h0 => State.arriveFault_memOk h0) h

theorem State.deliverRecord_memOk {s : State} {f : StoreFault} (h : s.memOk = true) :
    (s.deliverRecord f).memOk = true := by
  unfold State.deliverRecord
  split
  · exact State.takePark_memOk h
  · exact State.endWindows_memOk h (fun _ h0 => ite_form (State.stall_memOk h0) (State.enterTrap_memOk
      (State.enterQueue_memOk h0)))

theorem State.drainThen_memOk {s : State} {k : State → State} (h : s.memOk = true)
    (hk : ∀ (s : State), s.memOk = true → (k s).memOk = true) :
    (s.drainThen k).memOk = true := by
  unfold State.drainThen
  split
  · exact State.park_memOk h
  · dsimp only
    split
    · exact State.deliverRecord_memOk (State.ackFar_memOk (State.arriveFaults_memOk (State.flushPort_memOk (ite_form h
        (State.performMsgs_memOk h)))))
    · exact ite_form (State.stall_memOk (State.ackFar_memOk (State.arriveFaults_memOk (State.flushPort_memOk
        (ite_form h (State.performMsgs_memOk h)))))) (hk _ (State.ackFar_memOk (State.arriveFaults_memOk
        (State.flushPort_memOk (ite_form h (State.performMsgs_memOk h))))))

theorem State.settleThen_memOk {s : State} {k : State → State} (h : s.memOk = true)
    (hk : ∀ (s : State), s.memOk = true → (k s).memOk = true) :
    (s.settleThen k).memOk = true := by
  unfold State.settleThen
  dsimp only
  split
  · exact State.takeFailed_memOk (ite_form h (State.performMsgs_memOk h))
  · exact ite_form (State.stall_memOk (ite_form h (State.performMsgs_memOk h))) (hk _ (ite_form h
      (State.performMsgs_memOk h)))

theorem execExit_memOk {b : Bool} {s : State} (h : s.memOk = true) : OutFormed (execExit b s) :=
  State.settleThen_memOk h (fun _ h0 => State.drainThen_memOk h0 (fun _ h1 => ite_form (State.stall_memOk h1)
    (State.endThread_memOk h1)))

theorem State.trapAfter_memOk {s : State} {c : Cause} {code : BitVec 14} (h : s.memOk = true) :
    (s.trapAfter c code).memOk = true := by
  unfold State.trapAfter
  split
  · exact State.takePark_memOk h
  · exact State.endWindows_memOk h (fun _ h0 => ite_form (State.stall_memOk h0) (State.onThr_memOk _
      (State.enterTrap_memOk h0)))

theorem State.withHeader_memOk {s : State} {k : Nat → State} (h : s.memOk = true)
    (hk : ∀ (n : Nat), (k n).memOk = true) :
    (s.withHeader k).memOk = true := by
  unfold State.withHeader
  split
  · exact State.parkPage_memOk h
  · exact State.parkPage_memOk (State.serviceFault_memOk h)
  · exact hk _
  · exact hk _

theorem State.engineWork_memOk {s : State} {w : EngineWork} (h : s.memOk = true) : (s.engineWork w).memOk = true :=
  h

theorem State.writeWpart_memOk {s : State} {u : Bool} {d : BitVec 6} (h : s.memOk = true) :
    (s.writeWpart u d).memOk = true :=
  ite_form (State.finish_memOk h) (State.withHeader_memOk h (fun _ => ite_form (State.trap_memOk h) (ite_form
    (State.illegalHere_memOk h) (ite_form (State.finish_memOk h) (State.engineWork_memOk h)))))

theorem execMwr_memOk {u : Bool} {d : BitVec 6} {m : MReg} {s : State} (h : s.memOk = true) :
    OutFormed (execMwr u d m s) := by
  unfold execMwr
  change State.memOk _ = true
  split
  · exact State.writeWpart_memOk h
  · exact State.onThr_memOk _ h

theorem execSegld_memOk {b : Bool} {a : BitVec 6} {sg : BitVec 3} {s : State} (h : s.memOk = true) :
    OutFormed (execSegld b a sg s) := by
  unfold execSegld
  change State.memOk _ = true
  split
  · exact State.onThr_memOk _ h
  · exact State.parkPage_memOk h
  · exact State.parkPage_memOk (State.serviceFault_memOk h)
  · exact State.trap_memOk h
  · exact State.trap_memOk h

theorem execBarc_memOk {b : Bool} {s : State} (h : s.memOk = true) : OutFormed (execBarc b s) :=
  ite_form (State.finish_memOk h) (State.writeGate_memOk h (fun _ h0 => ite_form (State.finish_memOk
    (State.onThr_memOk _ (State.memOk_of_eq (State.barcCheck_memOk (State.park_memOk (State.modCrew_memOk
    (State.release_memOk h0)))) rfl rfl rfl))) (State.barcCheck_memOk (State.park_memOk (State.modCrew_memOk
    (State.release_memOk h0))))))

theorem State.atPlace_memOk {s : State} {g : Seg} {off : Nat} {n : Need} {load : Bool} {bad : State → Cause → State}
    {ok : State → Loc → State} (h : s.memOk = true)
    (hbad : ∀ (s : State) (x : Cause), s.memOk = true → (bad s x).memOk = true)
    (hok : ∀ (s : State) (x : Loc), s.memOk = true → (ok s x).memOk = true) :
    (s.atPlace g off n load bad ok).memOk = true := by
  unfold State.atPlace
  dsimp only
  split
  · exact hok _ _ h
  · exact ite_form (State.stall_memOk h) (State.parkPage_memOk h)
  · exact ite_form (State.stall_memOk (State.serviceFault_memOk h)) (State.parkPage_memOk (State.serviceFault_memOk
      h))
  · exact ite_form (State.onThr_memOk _ h) (hbad _ _ h)

theorem State.atWrite_memOk {s : State} {g : Seg} {off size : Nat} {red : Bool} {n : Need} {hold : State → State}
    {ok : State → Loc → State} (h : s.memOk = true) (hhold : ∀ (s : State), s.memOk = true → (hold s).memOk = true)
    (hok : ∀ (s : State) (x : Loc), s.memOk = true → (ok s x).memOk = true) :
    (s.atWrite g off size red n hold ok).memOk = true := by
  unfold State.atWrite
  dsimp only
  split
  · exact ite_form (ite_form (State.onThr_memOk _ h) (State.finish_memOk (State.faultStore_memOk h))) (hok _ _ h)
  · exact ite_form (State.stall_memOk h) (hhold _ h)
  · exact ite_form (State.stall_memOk (State.serviceFault_memOk h)) (hhold _ (State.serviceFault_memOk h))
  · exact ite_form (State.onThr_memOk _ h) (State.finish_memOk (State.faultStore_memOk h))

theorem State.ownLine_memOk {s : State} {x : Loc} (h : s.memOk = true) : (s.ownLine x).memOk = true :=
  ite_form h (ite_form (State.stopeLine_memOk h) (State.giveUpLine_memOk h))

theorem State.serveAt_memOk {s : State} {x : Loc} (h : s.memOk = true) : (s.serveAt x).memOk = true :=
  ite_form (State.serveRecords_memOk h) h

theorem State.waitWord_memOk {s : State} {g : Seg} {off : Nat} {x : Loc} {r : WordReq} (h : s.memOk = true) :
    (s.waitWord g off x r).memOk = true :=
  State.park_memOk (ite_form h h)

theorem State.ldsAt_memOk {s : State} {v : View} {sp : BitVec 4} {x n : Nat} {consume : Bool} {r : State × LdsRes}
    (h : s.memOk = true) (heq : s.ldsAt v sp x n consume = r) :
    r.1.memOk = true := by
  subst heq
  unfold State.ldsAt
  dsimp only
  split
  · split
    · exact State.serveAt_memOk (State.giveUpLine_memOk h)
    · split
      · exact State.serveAt_memOk (State.giveUpLine_memOk h)
      · exact State.acquire_memOk (ite_form (State.changeFull_memOk (State.serveAt_memOk (State.giveUpLine_memOk h)))
          (State.serveAt_memOk (State.giveUpLine_memOk h)))
  · split
    · exact State.serveAt_memOk h
    · split
      · exact State.serveAt_memOk h
      · exact State.acquire_memOk (ite_form (State.changeFull_memOk (State.serveAt_memOk h)) (State.serveAt_memOk h))

theorem State.ldsNear_memOk {s : State} {x n : Nat} {consume : Bool} {r : State × LdsRes} (h : s.memOk = true)
    (heq : s.ldsNear x n consume = r) :
    r.1.memOk = true := by
  subst heq
  unfold State.ldsNear
  dsimp only
  split
  · exact State.serveAt_memOk (State.ownLine_memOk h)
  · split
    · exact State.serveAt_memOk (State.ownLine_memOk h)
    · exact ite_form (State.changeFull_memOk (State.serveAt_memOk (State.ownLine_memOk h))) (State.serveAt_memOk
        (State.ownLine_memOk h))

theorem State.ldsHandler_memOk {s : State} {d : Dest} {left x n : Nat} {consume : Bool} (h : s.memOk = true) :
    (s.ldsHandler d left x n consume).memOk = true := by
  unfold State.ldsHandler
  split
  · next heq =>
    exact State.onThr_memOk _ (State.ldsNear_memOk h heq :)
  · next heq =>
    exact State.onThr_memOk _ (State.ldsNear_memOk h heq :)
  · next heq =>
    exact State.onThr_memOk _ (State.ldsNear_memOk h heq :)

theorem State.ldsThread_memOk {s : State} {g : Seg} {d : Dest} {left off va x n : Nat} {consume : Bool}
    (h : s.memOk = true) :
    (s.ldsThread g d left off va x n consume).memOk = true := by
  unfold State.ldsThread
  split
  · next heq =>
    exact State.onThr_memOk _ (State.ldsAt_memOk h heq :)
  · next heq =>
    exact State.onThr_memOk _ (State.ldsAt_memOk h heq :)
  · next heq =>
    exact ite_form (State.waitWord_memOk (State.ldsAt_memOk h heq :)) (State.onThr_memOk _
        (State.ldsAt_memOk h heq :))

theorem State.lds_memOk {s : State} {la : BitVec 4} {sg : BitVec 3} {d a : BitVec 6} {dbl consume : Bool}
    (h : s.memOk = true) :
    (s.lds la sg d a dbl consume).memOk = true := by
  unfold State.lds
  dsimp only
  split
  · exact State.onThr_memOk _ h
  · refine State.unless_memOk h (fun s0 h0 => ?_)
    split
    · split
      · exact State.onThr_memOk _ h0
      · exact State.stall_memOk h0
      · exact State.onThr_memOk _ h0
    · split
      · exact State.onThr_memOk _ (State.serviceFault_memOk h0)
      · exact State.stall_memOk (State.serviceFault_memOk h0)
      · exact State.onThr_memOk _ (State.serviceFault_memOk h0)
    · exact ite_form (State.ldsHandler_memOk h0) (ite_form (State.holdLoad_memOk (State.portOpen_memOk h0))
        (State.ldsThread_memOk (State.portOpen_memOk h0)))
    · split
      · exact State.onThr_memOk _ h0
      · exact State.onThr_memOk _ h0
      · exact State.onThr_memOk _ h0

theorem State.syncWrite_memOk {s : State} {v : View} {key : ThreadKey} {g : Seg} {op : HeldOp} {fenced : Bool}
    {x n val : Nat} (h : s.memOk = true) :
    (s.syncWrite v key g op fenced x n val).memOk = true := by
  unfold State.syncWrite
  dsimp only
  split
  · exact State.changeFull_memOk (State.writeWord_memOk (ite_form (State.releaseFor_memOk h) h))
  · exact State.changeFull_memOk (ite_form (State.recordCore_memOk (ite_form (State.releaseFor_memOk h) h)) (ite_form
      (State.releaseFor_memOk h) h))
  · exact State.updBarrier_memOk (ite_form (State.giveUpLine_memOk (ite_form (State.releaseFor_memOk h) h)) (ite_form
      (State.releaseFor_memOk h) h))
  · exact ite_form (State.releaseFor_memOk h) h
  · exact ite_form (State.releaseFor_memOk h) h
  · exact ite_form (State.releaseFor_memOk h) h
  · exact ite_form (State.releaseFor_memOk h) h

theorem State.nearWrite_memOk {s : State} {op : HeldOp} {x n val : Nat} (h : s.memOk = true) :
    (s.nearWrite op x n val).memOk = true := by
  unfold State.nearWrite
  dsimp only
  split
  · exact State.changeFull_memOk (State.poke_memOk _ _ _ (ite_form (State.stopeLine_memOk h) h))
  · exact State.changeFull_memOk (ite_form (State.stopeLine_memOk h) h)
  · exact ite_form (State.stopeLine_memOk h) h
  · exact ite_form (State.stopeLine_memOk h) h
  · exact ite_form (State.stopeLine_memOk h) h
  · exact ite_form (State.stopeLine_memOk h) h
  · exact ite_form (State.stopeLine_memOk h) h

theorem State.unitWrite_memOk {s : State} {g : Seg} {op : HeldOp} {x n val : Nat} (h : s.memOk = true) :
    (s.unitWrite g op x n val).memOk = true :=
  ite_form (State.nearWrite_memOk h) (State.onThr_memOk _ (State.syncWrite_memOk h))

theorem State.holdSync_memOk {s : State} {g : Seg} {op : HeldOp} {off n val : Nat} {parked : Bool}
    (h : s.memOk = true) :
    (s.holdSync g op off n val parked).memOk = true :=
  State.onThr_memOk _ (State.holdStore_memOk h)

theorem State.syncUnit_memOk {s : State} {g : Seg} {op : HeldOp} {off n val : Nat} {need : Need}
    (h : s.memOk = true) :
    (s.syncUnit g op off n val need).memOk = true :=
  State.atWrite_memOk h (fun _ h0 => State.finish_memOk (State.holdSync_memOk h0)) (fun _ _ h0 => ite_form
    (State.finish_memOk (State.unitWrite_memOk h0)) (ite_form (State.finish_memOk (State.holdSync_memOk
    (State.portOpen_memOk (ite_form h0 (State.performMsgs_memOk h0))))) (State.finish_memOk (State.unitWrite_memOk
    (State.portOpen_memOk (ite_form h0 (State.performMsgs_memOk h0)))))))

theorem State.sts_memOk {s : State} {sg : BitVec 3} {d a : BitVec 6} {dbl over_ : Bool} (h : s.memOk = true) :
    (s.sts sg d a dbl over_).memOk = true :=
  ite_form (State.finish_memOk h) (ite_form (State.unless_memOk h (fun _ h0 => State.syncUnit_memOk h0))
    (State.writeGate_memOk h (fun _ h0 => State.unless_memOk h0 (fun _ h1 => State.atWrite_memOk h1
    (fun _ h2 => State.park_memOk (State.holdStore_memOk h2)) (fun _ _ h2 => State.portGate_memOk h2
    (fun _ h3 => ite_form (State.finish_memOk (State.unitWrite_memOk h3)) (ite_form (State.onThr_memOk _ h3)
    (State.waitWord_memOk (State.onThr_memOk _ (State.releaseFor_memOk h3))))))))))

theorem State.setBit_memOk {s : State} {sg : BitVec 3} {a : BitVec 6} {full : Bool} (h : s.memOk = true) :
    (s.setBit sg a full).memOk = true :=
  State.unless_memOk h (fun _ h0 => State.syncUnit_memOk h0)

theorem execFeq_memOk {b : Bool} {sg : BitVec 3} {d a : BitVec 6} {s : State} (h : s.memOk = true) :
    OutFormed (execFeq b sg d a s) :=
  State.readGate_memOk h (fun _ h0 => State.unless_memOk h0 (fun _ h1 => State.atPlace_memOk h1
    (fun _ _ h2 => State.trapUnit_memOk h2) (fun _ _ h2 => ite_form (State.trapUnit_memOk h2) (State.portGate_memOk h2
    (fun _ h3 => State.finishG_memOk h3)))))

theorem State.ringStep_memOk {s : State} {v : View} {off : Nat} {x : Loc} {r : State × Nat} (h : s.memOk = true)
    (heq : s.ringStep v off x = r) :
    r.1.memOk = true := by
  subst heq
  unfold State.ringStep
  dsimp only
  exact ite_form (State.recordCore_memOk (State.poke_memOk _ _ _ (State.serveAt_memOk (ite_form
      (State.giveUpLine_memOk h) h)))) (State.poke_memOk _ _ _ (State.serveAt_memOk (ite_form
      (State.giveUpLine_memOk h) h)))

theorem State.joinWord_memOk {s : State} {key : ThreadKey} {g : Seg} {off : Nat} {x : Loc} {r : WordReq}
    (h : s.memOk = true) :
    (s.joinWord key g off x r).memOk = true := by
  unfold State.joinWord
  dsimp only
  split
  · exact State.modThread_memOk h
  · exact ite_form (State.saveList_memOk (State.modThread_memOk h)) (State.modThread_memOk h)

theorem State.slotOne_memOk {s : State} {v : View} {key : ThreadKey} {pc : Nat} {g : Seg} {slot : Nat} {val : Word}
    {ord : Nat} (h : s.memOk = true) :
    (s.slotOne v key pc g slot val ord).memOk = true := by
  unfold State.slotOne
  dsimp only
  split
  · exact State.wakeWith_memOk (State.lateFault_memOk h)
  · split
    · exact State.wakeTrap_memOk h
    · split
      · exact ite_form (State.wakeWith_memOk (State.lateFault_memOk h)) (ite_form (State.joinWord_memOk h)
          (State.wakeWith_memOk (State.changeFull_memOk (State.writeWord_memOk h))))
      · exact h
      · exact State.memOk_of_eq (State.serviceFault_memOk h) rfl rfl rfl
      · exact State.wakeWith_memOk (State.lateFault_memOk h)

theorem State.slotStep_memOk {s : State} {v : View} {key : ThreadKey} {pc : Nat} {g : Seg} {slot : Nat} {val : Word}
    {ord : Nat} (h : s.memOk = true) :
    (s.slotStep v key pc g slot val ord).memOk = true := by
  unfold State.slotStep
  dsimp only
  refine State.slotOne_memOk (foldl_form (fun u0 b0 h0 => ?_) h)
  split
  · exact h0
  · exact State.slotOne_memOk h0

theorem State.takeGrant_memOk {s : State} (h : s.memOk = true) : s.takeGrant.memOk = true :=
  ite_form (State.finish_memOk (State.onThr_memOk _ h)) h

theorem execApnd_memOk {b : Bool} {sg : BitVec 3} {d a : BitVec 6} {s : State} (h : s.memOk = true) :
    OutFormed (execApnd b sg d a s) := by
  unfold execApnd
  dsimp only
  exact ite_form (State.finish_memOk h) (State.writeGate_memOk h (fun _ h0 => State.unless_memOk h0
      (fun _ h1 => State.atWrite_memOk h1 (fun _ h2 => State.park_memOk (State.holdStore_memOk h2))
      (fun _ _ h2 => State.portGate_memOk h2 (fun _ h3 => State.takeGrant_memOk (State.slotStep_memOk
      (State.park_memOk (State.ringStep_memOk (State.onThr_memOk _ (State.releaseFor_memOk h3)) rfl))))))))

theorem State.fence_memOk {s : State} {k : FenceKind} {sc : Scope} (h : s.memOk = true) :
    (s.fence k sc).memOk = true := by
  unfold State.fence
  dsimp only
  split
  · exact State.deliverRecord_memOk h
  · exact ite_form (State.stall_memOk (State.flushPort_memOk (ite_form h (State.performMsgs_memOk h))))
      (State.finish_memOk (ite_form (State.acquire_memOk (ite_form (State.orderPoint_memOk (ite_form
      (State.onThr_memOk _ (State.release_memOk (ite_form (State.ackFar_memOk (State.drainWcb_memOk
      (State.flushPort_memOk (ite_form h (State.performMsgs_memOk h))))) (State.drainWcb_memOk (State.flushPort_memOk
      (ite_form h (State.performMsgs_memOk h))))))) (ite_form (State.ackFar_memOk (State.drainWcb_memOk
      (State.flushPort_memOk (ite_form h (State.performMsgs_memOk h))))) (State.drainWcb_memOk (State.flushPort_memOk
      (ite_form h (State.performMsgs_memOk h))))))) (ite_form (State.onThr_memOk _ (State.release_memOk (ite_form
      (State.ackFar_memOk (State.drainWcb_memOk (State.flushPort_memOk (ite_form h (State.performMsgs_memOk h)))))
      (State.drainWcb_memOk (State.flushPort_memOk (ite_form h (State.performMsgs_memOk h))))))) (ite_form
      (State.ackFar_memOk (State.drainWcb_memOk (State.flushPort_memOk (ite_form h (State.performMsgs_memOk h)))))
      (State.drainWcb_memOk (State.flushPort_memOk (ite_form h (State.performMsgs_memOk h)))))))) (ite_form
      (State.orderPoint_memOk (ite_form (State.onThr_memOk _ (State.release_memOk (ite_form (State.ackFar_memOk
      (State.drainWcb_memOk (State.flushPort_memOk (ite_form h (State.performMsgs_memOk h))))) (State.drainWcb_memOk
      (State.flushPort_memOk (ite_form h (State.performMsgs_memOk h))))))) (ite_form (State.ackFar_memOk
      (State.drainWcb_memOk (State.flushPort_memOk (ite_form h (State.performMsgs_memOk h))))) (State.drainWcb_memOk
      (State.flushPort_memOk (ite_form h (State.performMsgs_memOk h))))))) (ite_form (State.onThr_memOk _
      (State.release_memOk (ite_form (State.ackFar_memOk (State.drainWcb_memOk (State.flushPort_memOk (ite_form h
      (State.performMsgs_memOk h))))) (State.drainWcb_memOk (State.flushPort_memOk (ite_form h
      (State.performMsgs_memOk h))))))) (ite_form (State.ackFar_memOk (State.drainWcb_memOk (State.flushPort_memOk
      (ite_form h (State.performMsgs_memOk h))))) (State.drainWcb_memOk (State.flushPort_memOk (ite_form h
      (State.performMsgs_memOk h)))))))))

theorem State.barrierOp_memOk {s : State} {sg : BitVec 3} {a b : BitVec 6} {op : BarrierOp} (h : s.memOk = true) :
    (s.barrierOp sg a b op).memOk = true :=
  State.unless_memOk h (fun _ h0 => State.syncUnit_memOk h0)

theorem State.barrierRead_memOk {s : State} {sg : BitVec 3} {a : BitVec 6} {k : State → Loc → Scope → State}
    (h : s.memOk = true) (hk : ∀ (s : State) (x : Loc) (x1 : Scope), s.memOk = true → (k s x x1).memOk = true) :
    (s.barrierRead sg a k).memOk = true :=
  State.readGate_memOk h (fun _ h0 => State.unless_memOk h0 (fun _ h1 => State.atPlace_memOk h1
    (fun _ _ h2 => State.trapUnit_memOk h2) (fun _ _ h2 => ite_form (State.trapUnit_memOk h2) (State.portGate_memOk h2
    (fun _ h3 => hk _ _ _ (State.serveAt_memOk (State.ownLine_memOk h3)))))))

theorem execTbwait_memOk {b : Bool} {a : BitVec 6} {sg : BitVec 3} {s : State} (h : s.memOk = true) :
    OutFormed (execTbwait b a sg s) :=
  State.barrierRead_memOk h (fun _ _ _ h0 => ite_form (State.finish_memOk (State.acquire_memOk h0))
    (State.park_memOk h0))

theorem execTbtest_memOk {b : Bool} {d a : BitVec 6} {sg : BitVec 3} {s : State} (h : s.memOk = true) :
    OutFormed (execTbtest b d a sg s) :=
  State.barrierRead_memOk h (fun _ _ _ h0 => State.finishG_memOk (ite_form (State.acquire_memOk h0) h0))

end Sys2Proof.Machine
end

section
/-! O11, continued: launches, engines, the matrix unit, copies, near memory, freezes and row operations. -/

namespace Sys2Proof.Machine

open Sys2Proof

set_option Elab.async false

theorem State.addShift_memOk {s : State} {k : Shift} (h : s.memOk = true) : (s.addShift k).memOk = true :=
  h

theorem State.enterTail_memOk {s : State} {k : Shift} (h : s.memOk = true) : (s.enterTail k).memOk = true :=
  ite_form (State.reachHead_memOk (State.modIsland_memOk h)) (State.modIsland_memOk h)

theorem State.parkQueue_memOk {s : State} {isl q : Nat} (h : s.memOk = true) : (s.parkQueue isl q).memOk = true :=
  State.park_memOk (State.modIsland_memOk h)

theorem State.launchPacket_memOk {s : State} {d : BitVec 6} {x : Nat} {gang : Option Word} (h : s.memOk = true) :
    (s.launchPacket d x gang).memOk = true := by
  unfold State.launchPacket
  split
  · exact State.finishG_memOk h
  · split
    · exact State.parkPage_memOk h
    · exact State.parkPage_memOk (State.serviceFault_memOk h)
    · exact State.trap_memOk h
    · exact State.finishG_memOk h
    · exact ite_form (State.parkQueue_memOk h) (State.finishG_memOk (State.enterTail_memOk (State.addShift_memOk
        (State.releaseEager_memOk h))))

theorem State.launchWith_memOk {s : State} {d a : BitVec 6} {sg : BitVec 3} {gang : Option Word}
    (h : s.memOk = true) :
    (s.launchWith d a sg gang).memOk = true := by
  unfold State.launchWith
  dsimp only
  refine State.withHeader_memOk h (fun n0 => ite_form (State.trap_memOk h) (State.deviceGate_memOk h
      (fun s1 h1 => State.unless_memOk h1 (fun s2 h2 => ?_))))
  split
  · exact ite_form (State.trapUnit_memOk (State.modCore_memOk h2)) (State.launchPacket_memOk (State.modCore_memOk h2))
  · split
    · next heq =>
      exact State.parkPage_memOk (State.loadBytes_memOk h2 heq :)
    · next heq =>
      exact State.trapUnit_memOk (State.loadBytes_memOk h2 heq :)
    · next heq =>
      exact State.launchPacket_memOk (State.loadBytes_memOk h2 heq :)
    · next heq =>
      exact State.stall_memOk (State.loadBytes_memOk h2 heq :)

theorem State.dependenceFails_memOk {s : State} {k : Shift} {c : Cause} (h : s.memOk = true) :
    (s.dependenceFails k c).memOk = true :=
  State.shiftCheck_memOk (State.leaveQueue_memOk (State.modShift_memOk h))

theorem State.dependenceRead_memOk {s : State} {k : Shift} {b : Ref} (h : s.memOk = true) :
    (s.dependenceRead k b).memOk = true := by
  unfold State.dependenceRead
  split
  · exact State.dependenceFails_memOk h
  · split
    · dsimp only
      exact ite_form (State.dependenceFails_memOk (ite_form (State.serveRecords_memOk h) h)) (ite_form
          (State.modShift_memOk (ite_form (State.serveRecords_memOk h) h)) (ite_form (State.serveRecords_memOk h) h))
    · exact h
    · exact State.serviceFault_memOk h
    · exact State.dependenceFails_memOk h

theorem State.tryDependence_memOk {s : State} {serial : Nat} (h : s.memOk = true) :
    (s.tryDependence serial).memOk = true := by
  unfold State.tryDependence
  split
  · exact h
  · split
    · exact h
    · exact ite_form (State.dependenceRead_memOk h) h

theorem State.ringWord_memOk {s : State} {i : Island} {g : Seg} {log2cap ring w : Nat} {t : State} (h :
    s.memOk = true)
    (heq : s.ringWord i g log2cap ring w = .ok t) : t.memOk = true := by
  unfold State.ringWord at heq
  split at heq
  · dsimp only at heq
    split at heq
    · exact absurd heq (by simp)
    · rw [← Ready.ok.inj heq]
      exact State.changeFull_memOk (State.poke_memOk _ _ _ (ite_form (State.stopeLine_memOk h) h))
  · exact absurd heq (by simp)
  · exact absurd heq (by simp)

theorem initRingsGo_memOk {i : Island} {k : Shift} {g : Seg} {l : List (Nat × Nat)} {s t : State} (h : s.memOk = true)
    (heq : initRingsGo i k g l s = .ok t) : t.memOk = true := by
  induction l generalizing s with
  | nil =>
    rw [← Ready.ok.inj heq]
    exact h
  | cons p ps ih =>
    rw [initRingsGo] at heq
    split at heq
    · next s1 hs1 => exact ih (State.ringWord_memOk h hs1) heq
    · next hnot => exact absurd heq (hnot t)

theorem State.initRings_memOk {s : State} {i : Island} {k : Shift} {g : Seg} {t : State} (h : s.memOk = true) (heq :
    s.initRings i k g = .ok t) :
    t.memOk = true :=
  initRingsGo_memOk h heq

theorem State.startThread_memOk {s : State} {k : Shift} {n cx cy stage tid cl b : Nat} {p : Nat × Nat × Nat}
    {t : State} (h :
    s.memOk = true)
    (heq : s.startThread k n cx cy stage tid cl b p = .ok t) : t.memOk = true := by
  unfold State.startThread at heq
  dsimp only at heq
  split at heq
  · exact absurd heq (by simp)
  · exact absurd heq (by simp)
  · rw [← Ready.ok.inj heq]
    exact State.memOk_of_eq (State.acquire_memOk (v := k.viewAt cl b p) (sc := .dev) (State.wipe_memOk
        (State.clearRange_memOk h))) rfl rfl rfl

theorem startThreads_memOk {k : Shift} {n cx cy stage cl b : Nat} {l : List (Nat × Nat × Nat)} {tid : Nat}
    {s t : State} (h :
    s.memOk = true)
    (heq : startThreads k n cx cy stage cl b l tid s = .ok t) : t.memOk = true := by
  induction l generalizing s tid with
  | nil =>
    rw [← Ready.ok.inj heq]
    exact h
  | cons p ps ih =>
    rw [startThreads] at heq
    split at heq
    · next s1 hs1 => exact ih (State.startThread_memOk h hs1) heq
    · next hnot => exact absurd heq (hnot t)

theorem State.startCrew_memOk {s : State} {k : Shift} {n cx cy stage : Nat} {gang : Option (Nat × Nat)} {f :
    Nat × Nat × List (Nat × Nat × Nat)}
    {t : State} (h : s.memOk = true) (heq : s.startCrew k n cx cy stage gang f = .ok t) : t.memOk = true := by
  unfold State.startCrew at heq
  extract_lets cl b crew clear s1 at heq
  have hcrew : State.memOk { s with crews := s.crews ++ [crew] } = true := h
  exact startThreads_memOk (foldl_form (f := clear) (fun _ _ hu => State.wipe_memOk hu) hcrew) heq

theorem startCrews_memOk {k : Shift} {j cy stage : Nat} {gid : Option Nat}
    {l : List (Nat × Nat × List (Nat × Nat × Nat))} {m :
    Nat}
    {s t : State} (h : s.memOk = true) (heq : startCrews k j cy stage gid l m s = .ok t) : t.memOk = true := by
  induction l generalizing s m with
  | nil =>
    rw [← Ready.ok.inj heq]
    exact h
  | cons f fs ih =>
    rw [startCrews] at heq
    split at heq
    · next s1 hs1 => exact ih (State.startCrew_memOk h hs1) heq
    · next hnot => exact absurd heq (hnot t)

theorem State.dispatch_memOk {s : State} {k : Shift} {fs : List (Nat × Nat × List (Nat × Nat × Nat))} {t : State} (h :
    s.memOk = true)
    (heq : s.dispatch k fs = .ok t) : t.memOk = true := by
  unfold State.dispatch at heq
  extract_lets gj stage j cy gang at heq
  split at heq
  · exact startCrews_memOk h heq
  · exact startCrews_memOk (s := { s with gangs := s.gangs ++ [gang], nextId := s.nextId + 1 }) h heq

theorem State.admitHeld_memOk {s : State} (h : s.memOk = true) : s.admitHeld.memOk = true := by
  unfold State.admitHeld
  split
  · exact h
  · dsimp only
    split
    · exact h
    · exact State.answer_memOk (State.enterTail_memOk h)

theorem State.afterDecision_memOk {s : State} {i : Island} {ready : List (Queue × Shift)} {k : Shift}
    (h : s.memOk = true) :
    (s.afterDecision i ready k).memOk = true :=
  ite_form (State.leaveQueue_memOk (State.modShift_memOk (foldl_form (fun _ _ h0 => ite_form
    (State.modIsland_memOk h0) (State.modIsland_memOk h0)) h))) (State.modShift_memOk (foldl_form
    (fun _ _ h0 => ite_form (State.modIsland_memOk h0) (State.modIsland_memOk h0)) h))

theorem State.decide_memOk {s : State} {i : Island} {ready : List (Queue × Shift)} {k : Shift} (h : s.memOk = true) :
    (s.decide i ready k).memOk = true := by
  unfold State.decide
  split
  · exact h
  · dsimp only
    split
    · split
      · next heq1 =>
        exact State.afterDecision_memOk (State.dispatch_memOk h heq1 :)
      · exact h
      · exact State.serviceFault_memOk h
    · split
      · split
        · next heq2 =>
          split
          · next heq3 =>
            exact State.afterDecision_memOk (State.dispatch_memOk (State.initRings_memOk h heq2 :) heq3 :)
          · exact h
          · exact State.serviceFault_memOk h
        · exact h
        · exact State.serviceFault_memOk h
      · exact h
      · exact State.serviceFault_memOk h
      · split
        · next heq2 =>
          exact State.afterDecision_memOk (State.dispatch_memOk h heq2 :)
        · exact h
        · exact State.serviceFault_memOk h
      · split
        · next heq2 =>
          exact State.afterDecision_memOk (State.dispatch_memOk h heq2 :)
        · exact h
        · exact State.serviceFault_memOk h

theorem State.decision_memOk {s : State} {island : Nat} (h : s.memOk = true) : (s.decision island).memOk = true := by
  unfold State.decision
  dsimp only
  split
  · exact State.admitHeld_memOk h
  · split
    · exact State.admitHeld_memOk h
    · exact State.decide_memOk (State.admitHeld_memOk h)

theorem execCrewMemoryRelease_memOk {serial n : Nat} {s : State} (h : s.memOk = true) :
    OutFormed (execCrewMemoryRelease serial n s) := by
  unfold execCrewMemoryRelease
  change State.memOk _ = true
  split
  · exact h
  · exact ite_form h h

theorem State.resumed_memOk {s : State} {k : State → State} (h : s.memOk = true)
    (hk : ∀ (s : State), s.memOk = true → (k s).memOk = true) :
    (s.resumed k).memOk = true :=
  ite_form (State.finish_memOk h) (hk _ h)

theorem State.engPlace_memOk {s : State} {kind : Nat} {v : View} {g : Seg} {off : Nat} {n : Need}
    {r : State × EngRes × Loc} (h : s.memOk = true) (heq : s.engPlace kind v g off n = r) :
    r.1.memOk = true := by
  subst heq
  unfold State.engPlace
  dsimp only
  split
  · exact h
  · split
    · exact h
    · exact h
    · exact State.serviceFault_memOk h
    · exact h

theorem State.engReadPiece_memOk {s : State} {kind c : Nat} {v : View} {g : Seg} {off n : Nat}
    {r : State × EngRes × Nat} (h : s.memOk = true) (heq : s.engReadPiece kind c v g off n = r) :
    r.1.memOk = true := by
  subst heq
  unfold State.engReadPiece
  split
  · dsimp only
    split
    · exact State.modCore_memOk h
    · exact State.modCore_memOk h
  · split
    · next heq =>
      dsimp only
      split
      · split
        · exact State.kickLine_memOk (State.engPlace_memOk h heq :)
        · exact State.kickLine_memOk (State.engPlace_memOk h heq :)
      · split
        · exact (State.engPlace_memOk h heq :)
        · exact (State.engPlace_memOk h heq :)
    · next heq =>
      exact (State.engPlace_memOk h heq :)

theorem State.engReadGo_memOk {s : State} {kind c : Nat} {v : View} {g : Seg} {off : Nat} {l : List (Nat × Nat)}
    {n : Nat} {r : State × EngRes × Nat} (h : s.memOk = true) (heq : s.engReadGo kind c v g off l n = r) :
    r.1.memOk = true := by
  induction l generalizing s n r with
  | nil =>
    subst heq
    rw [State.engReadGo]
    exact h
  | cons b l ih =>
    subst heq
    rw [State.engReadGo]
    split
    · next heq =>
      exact ih (State.engReadPiece_memOk h heq :) rfl
    · next heq =>
      exact (State.engReadPiece_memOk h heq :)

theorem State.engRead_memOk {s : State} {kind c : Nat} {v : View} {g : Seg} {off n : Nat} {r : State × EngRes × Nat}
    (h : s.memOk = true) (heq : s.engRead kind c v g off n = r) :
    r.1.memOk = true := by
  subst heq
  unfold State.engRead
  exact State.engReadGo_memOk h rfl

theorem State.engWritable_memOk {s : State} {kind : Nat} {v : View} {g : Seg} {off : Nat} {need : Need}
    {r : State × EngRes × Loc} (h : s.memOk = true) (heq : s.engWritable kind v g off need = r) :
    r.1.memOk = true := by
  subst heq
  unfold State.engWritable
  split
  · next heq =>
    split
    · exact (State.engPlace_memOk h heq :)
    · split
      · exact (State.engPlace_memOk h heq :)
      · exact (State.engPlace_memOk h heq :)
  · exact State.engPlace_memOk h rfl

theorem State.engWritePiece_memOk {s : State} {kind c : Nat} {v : View} {g : Seg} {off n val : Nat} {need : Need}
    {r : State × EngRes} (h : s.memOk = true) (heq : s.engWritePiece kind c v g off n val need = r) :
    r.1.memOk = true := by
  subst heq
  unfold State.engWritePiece
  split
  · next heq =>
    split
    · exact State.mergeHome_memOk _ _ _ (State.kickLine_memOk (State.engWritable_memOk h heq :))
    · exact State.poke_memOk _ _ _ (State.engWritable_memOk h heq :)
  · next heq =>
    exact (State.engWritable_memOk h heq :)

theorem State.engWriteGo_memOk {s : State} {kind c : Nat} {v : View} {g : Seg} {off val : Nat} {need : Need}
    {l : List (Nat × Nat)} {r : State × EngRes} (h : s.memOk = true)
    (heq : s.engWriteGo kind c v g off val need l = r) :
    r.1.memOk = true := by
  induction l generalizing s r with
  | nil =>
    subst heq
    rw [State.engWriteGo]
    exact h
  | cons b l ih =>
    subst heq
    rw [State.engWriteGo]
    split
    · next heq =>
      exact ih (State.engWritePiece_memOk h heq :) rfl
    · exact State.engWritePiece_memOk h rfl

theorem State.engWrite_memOk {s : State} {kind c : Nat} {v : View} {g : Seg} {off n val : Nat} {r : State × EngRes}
    (h : s.memOk = true) (heq : s.engWrite kind c v g off n val = r) :
    r.1.memOk = true := by
  subst heq
  unfold State.engWrite
  exact State.engWriteGo_memOk h rfl

theorem State.engCheck_memOk {s : State} {kind : Nat} {v : View} {g : Seg} {off : Nat} {need : Need}
    {l : List (Nat × Nat)} {r : State × EngRes} (h : s.memOk = true) (heq : s.engCheck kind v g off need l = r) :
    r.1.memOk = true := by
  induction l generalizing s r with
  | nil =>
    subst heq
    rw [State.engCheck]
    exact h
  | cons b l ih =>
    subst heq
    rw [State.engCheck]
    split
    · next heq =>
      exact ih (State.engWritable_memOk h heq :) rfl
    · next heq =>
      exact (State.engWritable_memOk h heq :)

theorem State.engWriteWhole_memOk {s : State} {kind c : Nat} {v : View} {g : Seg} {off n val : Nat} {need : Need}
    {r : State × EngRes} (h : s.memOk = true) (heq : s.engWriteWhole kind c v g off n val need = r) :
    r.1.memOk = true := by
  subst heq
  unfold State.engWriteWhole
  dsimp only
  split
  · next heq =>
    exact State.engWriteGo_memOk (State.engCheck_memOk h heq :) rfl
  · exact State.engCheck_memOk h rfl

theorem State.withPlace_memOk {s : State} {x : Word} {k : Seg → Nat → State} (h : s.memOk = true)
    (hk : ∀ (x : Seg) (n : Nat), (k x n).memOk = true) :
    (s.withPlace x k).memOk = true := by
  unfold State.withPlace
  split
  · exact hk _ _
  · exact State.parkPage_memOk h
  · exact State.parkPage_memOk (State.serviceFault_memOk h)
  · exact State.trap_memOk h
  · exact State.trap_memOk h

theorem State.withEngine_memOk {s : State} {k : State → State} (h : s.memOk = true)
    (hk : ∀ (s : State), s.memOk = true → (k s).memOk = true) :
    (s.withEngine k).memOk = true :=
  State.unless_memOk h (fun _ h0 => hk _ h0)

theorem State.withEntry_memOk {s : State} {k : State → State} (h : s.memOk = true)
    (hk : ∀ (s : State), s.memOk = true → (k s).memOk = true) :
    (s.withEntry k).memOk = true :=
  ite_form (State.onThr_memOk _ h) (hk _ h)

theorem State.addOp_memOk {s : State} {o : MatrixOp} (h : s.memOk = true) : (s.addOp o).memOk = true :=
  State.setEng_memOk h

theorem State.grantTiles_memOk {s : State} {req : Nat} {l : List Nat} (h : s.memOk = true) :
    (s.grantTiles req l).memOk = true := by
  induction l generalizing s with
  | nil => exact h
  | cons t ts ih =>
    rw [State.grantTiles]
    dsimp only
    split
    · exact ih h
    · exact ih h

theorem State.withdrawTiles_memOk {s : State} {req : Nat} {l : List Nat} (h : s.memOk = true) :
    (s.withdrawTiles req l).memOk = true := by
  induction l generalizing s with
  | nil => exact h
  | cons t ts ih =>
    rw [State.withdrawTiles]
    dsimp only
    split
    · exact ih h
    · exact ih h

theorem execMzero_memOk {b : Bool} {tile : BitVec 4} {s : State} (h : s.memOk = true) :
    OutFormed (execMzero b tile s) :=
  State.withEngine_memOk h (fun _ h0 => State.unless_memOk h0 (fun _ h1 => State.withEntry_memOk h1
    (fun _ h2 => State.finish_memOk (State.addOp_memOk h2))))

theorem execMld_memOk {b : Bool} {d a : BitVec 6} {tile : BitVec 4} {sg : BitVec 3} {s : State} (h : s.memOk = true) :
    OutFormed (execMld b d a tile sg s) :=
  State.withEngine_memOk h (fun _ h0 => State.unless_memOk h0 (fun _ h1 => State.writeGate_memOk h1
    (fun _ h2 => State.unless_memOk h2 (fun _ h3 => State.withPlace_memOk h3 (fun _ _ => State.unless_memOk h3
    (fun _ h5 => State.withEntry_memOk h5 (fun _ h6 => State.finish_memOk (State.addOp_memOk (State.memOk_of_eq
    (State.release_memOk h6) rfl rfl rfl)))))))))

theorem State.withOperands_memOk {s : State} {l : List Operand} {l1 : List (Nat × Ref)}
    {k : State → List (Nat × Ref) → State} (h : s.memOk = true)
    (hk : ∀ (s : State) (l : List (Nat × Ref)), s.memOk = true → (k s l).memOk = true) :
    (s.withOperands l l1 k).memOk = true := by
  induction l generalizing s l1 with
  | nil =>
    rw [State.withOperands]
    exact hk _ _ h
  | cons b l ih =>
    rw [State.withOperands]
    exact State.withPlace_memOk h (fun _ _ => State.unless_memOk h (fun _ h1 => ih h1))

theorem State.acceptJob_memOk {s : State} {d : BitVec 6} {desc : BitVec 1024} {f : BitVec 13} {base : Nat}
    {sparse : Bool} {ring : Option RingInfo} {refs : List (Nat × Ref)} (h : s.memOk = true) :
    (s.acceptJob d desc f base sparse ring refs).memOk = true :=
  State.finishG_memOk (State.setEng_memOk (State.release_memOk h))

theorem State.withDescriptor_memOk {s : State} {a : BitVec 6} {sg : BitVec 3} {k : State → Nat → State} (h :
    s.memOk = true)
    (hk : ∀ u x, u.memOk = true → (k u x).memOk = true) : (s.withDescriptor a sg k).memOk = true := by
  unfold State.withDescriptor
  refine State.readGate_memOk h fun s1 h1 => State.writeGate_memOk h1 fun s2 h2 => State.unless_memOk h2
      fun u hu => ?_
  dsimp only
  split
  · split
    · exact hk _ _ hu
    · split
      · exact State.trapUnit_memOk hu
      · exact hk _ _ (State.farFill_memOk (by exact State.modCore_memOk (by exact hu)) rfl)
  · split
    · next s3 heq => exact State.stall_memOk (State.loadBytes_memOk hu heq :)
    · next s3 va heq => exact State.parkPage_memOk (State.loadBytes_memOk hu heq :)
    · next s3 c va heq => exact State.trapUnit_memOk (State.loadBytes_memOk hu heq :)
    · next s3 x heq => exact hk _ _ (State.loadBytes_memOk hu heq :)

theorem State.queueJob_memOk {s : State} {d a : BitVec 6} {tile : BitVec 4} {sg : BitVec 3} {sparse isRing : Bool}
    (h :
    s.memOk = true) :
    (s.queueJob d a tile sg sparse isRing).memOk = true := by
  unfold State.queueJob
  refine State.withEngine_memOk h fun s1 h1 => State.withDescriptor_memOk h1 fun u x hu => ?_
  dsimp only
  split
  · exact State.unless_memOk hu fun _ hw => hw
  · exact State.withOperands_memOk hu fun _ _ hw => State.withEntry_memOk hw fun _ hz => State.acceptJob_memOk hz

theorem execMpoll_memOk {b : Bool} {d a : BitVec 6} {s : State} (h : s.memOk = true) :
    OutFormed (execMpoll b d a s) := by
  unfold execMpoll
  change State.memOk _ = true
  refine State.withEngine_memOk h (fun s0 h0 => ?_)
  split
  · exact State.finishG_memOk (State.acquire_memOk h0)
  · exact State.finishG_memOk h0

theorem execMwait_memOk {b : Bool} {a : BitVec 6} {s : State} (h : s.memOk = true) : OutFormed (execMwait b a s) := by
  unfold execMwait
  change State.memOk _ = true
  refine State.withEngine_memOk h (fun s0 h0 => ?_)
  split
  · exact State.finish_memOk (State.acquire_memOk h0)
  · exact State.park_memOk h0

theorem execMdrain_memOk {b : Bool} {d a : BitVec 6} {tile : BitVec 4} {sg : BitVec 3} {rm : Rm} {s : State}
    (h : s.memOk = true) :
    OutFormed (execMdrain b d a tile sg rm s) :=
  State.resumed_memOk h (fun _ h0 => State.withEngine_memOk h0 (fun _ h1 => State.unless_memOk h1
    (fun _ h2 => State.unless_memOk h2 (fun _ h3 => State.writeGate_memOk h3 (fun _ h4 => State.unless_memOk h4
    (fun _ h5 => State.withEntry_memOk h5 (fun _ h6 => State.park_memOk (State.addOp_memOk (State.memOk_of_eq
    (State.release_memOk h6) rfl rfl rfl)))))))))

theorem State.kick_memOk {s : State} {hart : Nat} {src dst bar : Ref} {len : Nat} {feSet gather : Bool}
    (h : s.memOk = true) :
    (s.kick hart src dst bar len feSet gather).memOk = true :=
  State.memOk_of_eq (State.release_memOk h) rfl rfl rfl

theorem State.copy_memOk {s : State} {d : BitVec 5} {a b : BitVec 6} {sg : BitVec 3} {feSet gather : Bool}
    (h : s.memOk = true) :
    (s.copy d a b sg feSet gather).memOk = true :=
  State.writeGate_memOk h (fun _ h0 => State.unless_memOk h0 (fun _ h1 => State.withPlace_memOk h1
    (fun _ _ => State.unless_memOk h1 (fun _ h3 => State.withPlace_memOk h3 (fun _ _ => State.unless_memOk h3
    (fun _ h5 => ite_form (State.stall_memOk h5) (State.finish_memOk (State.kick_memOk h5))))))))

theorem State.copyMessage_memOk {s : State} {c : CopyJob} (h : s.memOk = true) : (s.copyMessage c).memOk = true := by
  unfold State.copyMessage
  dsimp only
  split
  · exact h
  · split
    · exact h
    · exact h

theorem State.copyRead_memOk {s : State} {c : CopyJob} {at_ : Nat} {r : State × EngRes × Nat} (h : s.memOk = true)
    (heq : s.copyRead c at_ = r) :
    r.1.memOk = true := by
  subst heq
  unfold State.copyRead
  dsimp only
  split
  · split
    · exact h
    · exact h
  · exact State.engRead_memOk h rfl

theorem State.fillWords_memOk {s : State} {v : View} {g : Seg} {off : Nat} {l : List (Nat × Nat)}
    (h : s.memOk = true) :
    (s.fillWords v g off l).memOk = true := by
  induction l generalizing s with
  | nil =>
    rw [State.fillWords]
    exact h
  | cons b l ih =>
    rw [State.fillWords]
    split
    · next heq =>
      exact ih (State.changeFull_memOk (State.engPlace_memOk h heq :))
    · next heq =>
      exact ih (State.engPlace_memOk h heq :)

theorem State.copyWrite_memOk {s : State} {c : CopyJob} {at_ x : Nat} {r : State × EngRes} (h : s.memOk = true)
    (heq : s.copyWrite c at_ x = r) :
    r.1.memOk = true := by
  subst heq
  unfold State.copyWrite
  split
  · exact h
  · dsimp only
    split
    · next heq =>
      split
      · exact State.fillWords_memOk (State.engWriteWhole_memOk h heq :)
      · exact (State.engWriteWhole_memOk h heq :)
    · exact State.engWriteWhole_memOk h rfl

theorem State.copyGo_memOk {s : State} {c : CopyJob} {n : Nat} {r : State × CopyJob × EngRes} (h : s.memOk = true)
    (heq :
    s.copyGo c n = r) :
    r.1.memOk = true := by
  induction n generalizing s c r with
  | zero =>
    subst heq
    exact h
  | succ n ih =>
    subst heq
    rw [State.copyGo]
    dsimp only
    split
    · exact h
    · split
      · exact h
      · split
        · next s1 x heq =>
          have h1 : s1.memOk = true := (State.copyRead_memOk (State.copyMessage_memOk h) heq :)
          split
          · next s2 heq2 => exact ih (State.copyWrite_memOk h1 heq2 :) rfl
          · next s2 r _ heq2 => exact (State.copyWrite_memOk h1 heq2 :)
        · next s1 r x _ heq => exact (State.copyRead_memOk (State.copyMessage_memOk h) heq :)

theorem State.endCopy_memOk {s : State} {c : CopyJob} {value : Nat} {fault : Bool} (h : s.memOk = true) :
    (s.endCopy c value fault).memOk = true :=
  State.arrive_memOk h

theorem execCopyCompletion_memOk {id n : Nat} {s : State} (h : s.memOk = true) :
    OutFormed (execCopyCompletion id n s) := by
  unfold execCopyCompletion
  change State.memOk _ = true
  split
  · exact h
  · split
    · exact h
    · split
      · next heq1 =>
        exact State.endCopy_memOk (State.copyGo_memOk h heq1 :)
      · next heq1 =>
        exact ite_form (State.endCopy_memOk (State.copyGo_memOk h heq1 :)) (State.copyGo_memOk h heq1 :)

theorem State.setCall_memOk {s : State} {c : Call} (h : s.memOk = true) : (s.setCall c).memOk = true :=
  h

theorem State.writeHeader_memOk {s : State} {slot : Loc} {status nval callId : Nat} {full : Bool}
    (h : s.memOk = true) :
    (s.writeHeader slot status nval callId full).memOk = true :=
  State.changeFull_memOk (State.poke_memOk _ _ _ h)

theorem State.routeCall_memOk {s : State} {c : Call} {r : State × Call} (h : s.memOk = true)
    (heq : s.routeCall c = r) :
    r.1.memOk = true := by
  subst heq
  unfold State.routeCall
  split
  · next heq =>
    exact (State.engPlace_memOk h heq :)
  · next heq =>
    exact (State.engPlace_memOk h heq :)
  · next heq =>
    exact (State.engPlace_memOk h heq :)

theorem State.sendCall_memOk {s : State} {g : Seg} {off : Nat} {slot : Loc} {entry k : Nat} {rel : Bool} (h :
    s.memOk = true) :
    (s.sendCall g off slot entry k rel).memOk = true := by
  have h1 : (if rel then (s.flushCore (coreIndex s.thr.view)).releaseEager s.thr.view s.thr.key
    (if g.space = spFar then .sys else .dev)
      else s).memOk = true := ite_form (State.releaseEager_memOk (State.flushCore_memOk h)) h
  unfold State.sendCall
  extract_lets v core s1 id s2 payload far c s3
  have h2 : s2.memOk = true := State.writeHeader_memOk (State.modCore_memOk h1)
  have h3 : s3.memOk = true := h2
  clear_value s3
  split
  · exact State.memOk_of_eq (State.modCore_memOk (id := core) (f := fun k => { k with farSeq := k.farSeq + 1 }) h3)
      rfl rfl rfl
  · split
    next s4 c1 heq => exact State.memOk_of_eq (State.routeCall_memOk h3 heq :) rfl rfl rfl

theorem execRcall_memOk {b : Bool} {d a : BitVec 6} {k : BitVec 3} {rel : Bool} {sg e : BitVec 3} {s : State}
    (h : s.memOk = true) :
    OutFormed (execRcall b d a k rel sg e s) := by
  unfold execRcall
  dsimp only
  change State.memOk _ = true
  split
  · next h1 =>
    refine State.deviceGate_memOk h (fun s0 h0 => State.unless_memOk h0 (fun s1 h1 => State.withPlace_memOk h1
        (fun x2 n2 => State.unless_memOk h1 (fun s3 h3 => ?_))))
    split
    · exact State.stall_memOk h3
    · split
      · exact State.finish_memOk (State.sendCall_memOk h3)
      · exact State.stall_memOk h3
  · next h1 =>
    refine State.writeGate_memOk h (fun s0 h0 => State.unless_memOk h0 (fun s1 h1 => State.withPlace_memOk h1
        (fun x2 n2 => State.unless_memOk h1 (fun s3 h3 => ?_))))
    split
    · exact State.stall_memOk h3
    · split
      · exact State.finish_memOk (State.sendCall_memOk h3)
      · exact State.stall_memOk h3

theorem execRret_memOk {u : Bool} {a b : BitVec 6} {s : State} (h : s.memOk = true) : OutFormed (execRret u a b s) :=
  ite_form (State.illegalHere_memOk h) (ite_form (State.onThr_memOk _ h) (State.onThr_memOk _ h))

theorem State.acceptCall_memOk {s : State} {c : Call} (h : s.memOk = true) : (s.acceptCall c).memOk = true :=
  h

theorem execCallArrival_memOk {id : Nat} {s : State} (h : s.memOk = true) : OutFormed (execCallArrival id s) := by
  unfold execCallArrival
  change State.memOk _ = true
  split
  · exact h
  · split
    · split
      · next heq2 =>
        exact State.setCall_memOk (State.routeCall_memOk h heq2 :)
    · exact ite_form h (State.acceptCall_memOk h)
    · exact h
    · exact h
    · exact h

theorem execHandlerStart_memOk {id : Nat} {s : State} (h : s.memOk = true) : OutFormed (execHandlerStart id s) := by
  unfold execHandlerStart
  change State.memOk _ = true
  split
  · exact h
  · dsimp only
    split
    · exact ite_form (State.setCall_memOk h) h
    · exact h

theorem State.removeThread_memOk {s : State} {k : ThreadKey} (h : s.memOk = true) : (s.removeThread k).memOk = true :=
  h

theorem State.endCall_memOk {s : State} {id : Nat} {r : BitVec 8 × Nat × List Word} (h : s.memOk = true) :
    (s.endCall id r).memOk = true := by
  unfold State.endCall
  split
  · exact State.removeThread_memOk h
  · exact State.removeThread_memOk (State.setCall_memOk h)

theorem State.writeVals_memOk {s : State} {slot : Loc} {l : List Word} {n : Nat} (h : s.memOk = true) :
    (s.writeVals slot l n).memOk = true := by
  induction l generalizing s n with
  | nil =>
    rw [State.writeVals]
    exact h
  | cons b l ih =>
    rw [State.writeVals]
    exact ih (State.poke_memOk _ _ _ h)

theorem State.landReply_memOk {s : State} {c : Call} {r : BitVec 8 × Nat × List Word} (h : s.memOk = true) :
    (s.landReply c r).memOk = true :=
  ite_form (State.writeHeader_memOk (State.writeVals_memOk h)) h

theorem execReplyArrival_memOk {id : Nat} {s : State} (h : s.memOk = true) : OutFormed (execReplyArrival id s) := by
  unfold execReplyArrival
  change State.memOk _ = true
  split
  · exact h
  · split
    · exact ite_form h (State.landReply_memOk h)
    · exact h

theorem execRcallTimeout_memOk {id : Nat} {s : State} (h : s.memOk = true) : OutFormed (execRcallTimeout id s) := by
  unfold execRcallTimeout
  change State.memOk _ = true
  split
  · exact h
  · exact ite_form h (ite_form (State.writeHeader_memOk (State.modCore_memOk (ite_form h (State.setCall_memOk h))))
      (ite_form h (State.setCall_memOk h)))

theorem State.withGranules_memOk {s : State} {g : Seg} {off n : Nat} {load : Bool} {k : List (Nat × Nat) → State}
    (h : s.memOk = true) (hk : ∀ (l : List (Nat × Nat)), (k l).memOk = true) :
    (s.withGranules g off n load k).memOk = true := by
  unfold State.withGranules
  split
  · exact hk _
  · exact State.parkPage_memOk h
  · exact State.parkPage_memOk (State.serviceFault_memOk h)
  · exact State.trapUnit_memOk h

theorem execHset_memOk {b : Bool} {e : BitVec 3} {a : BitVec 6} {sg : BitVec 3} {s : State} (h : s.memOk = true) :
    OutFormed (execHset b e a sg s) := by
  unfold execHset
  dsimp only
  change State.memOk _ = true
  refine State.resumed_memOk h (fun s0 h0 => State.unless_memOk h0 (fun s1 h1 => State.withGranules_memOk h1
      (fun l2 => ?_)))
  split
  · exact State.trap_memOk h1
  · exact State.engineWork_memOk h1

theorem execHclr_memOk {b : Bool} {e sg : BitVec 3} {s : State} (h : s.memOk = true) :
    OutFormed (execHclr b e sg s) :=
  State.resumed_memOk h (fun _ h0 => State.unless_memOk h0 (fun _ h1 => State.engineWork_memOk h1))

theorem State.endEngJob_memOk {s : State} {j : EngineJob} (h : s.memOk = true) : (s.endEngJob j).memOk = true := by
  unfold State.endEngJob
  dsimp only
  split
  · exact State.answer_memOk h
  · exact State.wakeWith_memOk h

theorem execHandlerInstall_memOk {id : Nat} {s : State} (h : s.memOk = true) :
    OutFormed (execHandlerInstall id s) := by
  unfold execHandlerInstall
  change State.memOk _ = true
  split
  · split
    · dsimp only
      exact State.endEngJob_memOk (State.modIsland_memOk h)
    · exact h
  · exact h

theorem execHandlerClear_memOk {id : Nat} {s : State} (h : s.memOk = true) : OutFormed (execHandlerClear id s) := by
  unfold execHandlerClear
  change State.memOk _ = true
  split
  · split
    · exact State.endEngJob_memOk (State.modIsland_memOk h)
    · exact h
  · exact h

theorem State.freezeAll_memOk {s : State} {l : List Nat} (h : s.memOk = true) : (s.freezeAll l).memOk = true :=
  foldl_form (fun _ _ h0 => State.setFreeze_memOk h0) h

theorem State.thawAll_memOk {s : State} {l : List Nat} (h : s.memOk = true) : (s.thawAll l).memOk = true :=
  foldl_form (fun _ _ h0 => State.setFreeze_memOk h0) h

theorem execFrz_memOk {b : Bool} {a b1 : BitVec 6} {sg : BitVec 3} {s : State} (h : s.memOk = true) :
    OutFormed (execFrz b a b1 sg s) := by
  unfold execFrz
  dsimp only
  change State.memOk _ = true
  refine State.resumed_memOk h (fun s0 h0 => State.deviceGate_memOk h0 (fun s1 h1 => State.unless_memOk h1
      (fun s2 h2 => ite_form (State.finish_memOk h2) (State.withGranules_memOk (State.releaseEager_memOk h2)
      (fun l3 => ?_)))))
  split
  · exact State.trap_memOk (State.releaseEager_memOk h2)
  · exact State.trap_memOk (State.releaseEager_memOk h2)
  · exact State.engineWork_memOk (State.freezeAll_memOk (State.releaseEager_memOk h2))

theorem State.recallPieces_memOk {s : State} {l : List Nat} (h : s.memOk = true) : (s.recallPieces l).memOk = true :=
  foldl_form (fun _ _ h0 => State.memOk_of_eq (State.recallRange_memOk h0) rfl rfl rfl) h

theorem execFreezeDrain_memOk {id : Nat} {s : State} (h : s.memOk = true) : OutFormed (execFreezeDrain id s) := by
  unfold execFreezeDrain
  change State.memOk _ = true
  split
  · split
    · exact State.endEngJob_memOk (State.recallPieces_memOk h)
    · exact h
  · exact h

theorem State.beginThaw_memOk {s : State} {l : List (Nat × Nat)} {island : Nat} {bar : Option Ref}
    {conn : Option CmdHeader} (h : s.memOk = true) :
    (s.beginThaw l island bar conn).memOk = true :=
  State.memOk_of_eq (ite_form h (State.thawAll_memOk h)) rfl rfl rfl

theorem execThaw_memOk {b : Bool} {d a b1 : BitVec 6} {sg : BitVec 3} {s : State} (h : s.memOk = true) :
    OutFormed (execThaw b d a b1 sg s) :=
  State.writeGate_memOk h (fun _ h0 => State.unless_memOk h0 (fun _ h1 => State.withPlace_memOk h1
    (fun _ _ => State.unless_memOk h1 (fun _ h3 => State.withGranules_memOk h3 (fun _ => State.finish_memOk
    (State.beginThaw_memOk h3))))))

theorem State.invalidatePiece_memOk {s : State} {gr : Nat} (h : s.memOk = true) :
    (s.invalidatePiece gr).memOk = true :=
  State.memOk_of_eq (foldl_form (fun _ _ h0 => foldl_form (fun _ _ h1 => State.evictLine_memOk h1) h0) h) rfl rfl rfl

theorem execThawArrival_memOk {id : Nat} {s : State} (h : s.memOk = true) : OutFormed (execThawArrival id s) := by
  unfold execThawArrival
  change State.memOk _ = true
  split
  · exact h
  · dsimp only
    split
    · exact State.arrive_memOk (foldl_form (fun _ _ h0 => State.invalidatePiece_memOk h0) h)
    · exact State.answer_memOk (foldl_form (fun _ _ h0 => State.invalidatePiece_memOk h0) h)
    · exact foldl_form (fun _ _ h0 => State.invalidatePiece_memOk h0) h

theorem execFrzq_memOk {b : Bool} {d a : BitVec 6} {sg : BitVec 3} {s : State} (h : s.memOk = true) :
    OutFormed (execFrzq b d a sg s) :=
  State.readGate_memOk h (fun _ h0 => State.unless_memOk h0 (fun _ h1 => State.withGranules_memOk h1
    (fun _ => State.finishG_memOk h1)))

theorem State.rowWork_memOk {s : State} {op : Nat} {d : BitVec 5} {a : BitVec 6} {srcs : List Nat} {pattern : Word}
    {sg : BitVec 3} (h : s.memOk = true) :
    (s.rowWork op d a srcs pattern sg).memOk = true :=
  State.writeGate_memOk h (fun _ h0 => State.unless_memOk h0 (fun _ h1 => State.withPlace_memOk h1
    (fun _ _ => State.unless_memOk h1 (fun _ h3 => State.finish_memOk (State.memOk_of_eq (State.release_memOk h3) rfl
    rfl rfl)))))

theorem State.openRow_memOk {s : State} {core : Nat} {x : Loc} (h : s.memOk = true) :
    (s.openRow core x).memOk = true :=
  foldl_form (fun _ _ h0 => State.recallHome_memOk (State.kickLine_memOk h0)) h

theorem State.readRow_memOk {s : State} {v : View} {g : Seg} {off : Nat} {r : State × EngRes × Loc}
    (h : s.memOk = true) (heq : s.readRow v g off = r) :
    r.1.memOk = true := by
  subst heq
  unfold State.readRow
  split
  · next heq =>
    dsimp only
    split
    · exact State.openRow_memOk (State.engPlace_memOk h heq :)
    · exact State.openRow_memOk (State.engPlace_memOk h heq :)
  · exact State.engPlace_memOk h rfl

theorem State.readRows_memOk {s : State} {v : View} {g : Seg} {i : Nat} {l : List Nat} {r : State × EngRes × List Loc}
    (h : s.memOk = true) (heq : s.readRows v g i l = r) :
    r.1.memOk = true := by
  induction l generalizing s r with
  | nil =>
    subst heq
    rw [State.readRows]
    exact h
  | cons b l ih =>
    subst heq
    rw [State.readRows]
    split
    · next heq =>
      split
      · next heq1 =>
        exact (ih (State.readRow_memOk h heq :) heq1 :)
    · next heq =>
      exact (State.readRow_memOk h heq :)

theorem State.rowFull_memOk {s : State} {y : Loc} {src : Option Loc} (h : s.memOk = true) :
    (s.rowFull y src).memOk = true :=
  foldl_form (fun _ _ h0 => ite_form h0 (State.changeFull_memOk h0)) h

theorem State.oneRow_memOk {s : State} {j : RowJob} {i : Nat} {r : State × EngRes} (h : s.memOk = true) (heq :
    s.oneRow j i = r) :
    r.1.memOk = true := by
  subst heq
  unfold State.oneRow
  extract_lets v g
  split
  · next s1 xs heq =>
    have h1 : s1.memOk = true := (State.readRows_memOk h heq :)
    split
    · next s2 y heq2 =>
      have h2 : s2.memOk = true := (State.engPlace_memOk h1 heq2 :)
      split
      · exact h2
      · extract_lets s3 row
        have h3 : s3.memOk = true := State.openRow_memOk h2
        clear_value s3 row
        have h4 := State.poke_memOk y 1024 (rowResult j.op j.pattern (row 0) (row 1) (row 2)) h3
        dsimp only
        generalize s3.poke y 1024 _ = u at h4 ⊢
        exact State.rowFull_memOk h4
    · next s2 r x _ heq2 => exact (State.engPlace_memOk h1 heq2 :)
  · next s1 r x _ heq => exact (State.readRows_memOk h heq :)

theorem State.rowGo_memOk {s : State} {j : RowJob} {n : Nat} {r : State × RowJob × EngRes} (h : s.memOk = true) (heq :
    s.rowGo j n = r) :
    r.1.memOk = true := by
  induction n generalizing s j r with
  | zero =>
    subst heq
    exact h
  | succ n ih =>
    subst heq
    rw [State.rowGo]
    split
    · exact h
    · split
      · next s1 heq => exact ih (State.oneRow_memOk h heq :) rfl
      · next s1 r _ heq => exact (State.oneRow_memOk h heq :)

theorem execRowOperationPerform_memOk {id n : Nat} {s : State} (h : s.memOk = true) :
    OutFormed (execRowOperationPerform id n s) := by
  unfold execRowOperationPerform
  change State.memOk _ = true
  split
  · exact h
  · dsimp only
    split
    · exact h
    · split
      · next heq1 =>
        exact State.arrive_memOk (State.rowGo_memOk h heq1 :)
      · next heq1 =>
        exact ite_form (State.arrive_memOk (State.rowGo_memOk h heq1 :)) (State.rowGo_memOk h heq1 :)

end Sys2Proof.Machine
end

section
/-! O11, continued: fields, the events around threads, the host commands and the vector instructions. -/

namespace Sys2Proof.Machine

open Sys2Proof

set_option Elab.async false

theorem State.setField_memOk {s : State} {f : Field} (h : s.memOk = true) : (s.setField f).memOk = true :=
  h

theorem State.setFrame_memOk {s : State} {f : Frame} (h : s.memOk = true) : (s.setFrame f).memOk = true :=
  h

theorem State.pinFrames_memOk {s : State} {l : List Nat} (h : s.memOk = true) : (s.pinFrames l).memOk = true :=
  foldl_form (fun _ _ h0 => State.setFrame_memOk h0) h

theorem State.define_memOk {s : State} {f : Field} (h : s.memOk = true) : (s.define f).memOk = true :=
  State.pinFrames_memOk (State.memOk_of_eq (State.freezeAll_memOk h) rfl rfl rfl)

theorem execFdef_memOk {b : Bool} {d a : BitVec 6} {sg : BitVec 3} {s : State} (h : s.memOk = true) :
    OutFormed (execFdef b d a sg s) := by
  unfold execFdef
  change State.memOk _ = true
  refine State.withDescriptor_memOk h (fun u0 x0 h0 => ?_)
  split
  · exact State.finishG_memOk h0
  · split
    · exact State.finishG_memOk (State.define_memOk h0)
    · exact State.finishG_memOk h0
    · exact State.parkPage_memOk h0
    · exact State.parkPage_memOk (State.serviceFault_memOk h0)

theorem State.unfreeze_memOk {s : State} {island : Nat} {grs : List Nat} (h : s.memOk = true) :
    (s.unfreeze island grs).memOk = true :=
  ite_form h (State.memOk_of_eq (State.thawAll_memOk h) rfl rfl rfl)

theorem State.startSweep_memOk {s : State} {f : Field} (h : s.memOk = true) : (s.startSweep f).memOk = true := by
  unfold State.startSweep
  split
  · exact State.setField_memOk h
  · split
    · exact State.setField_memOk h
    · dsimp only
      exact State.pinFrames_memOk (State.unfreeze_memOk (State.setField_memOk h))

theorem State.purgeRange_memOk {s : State} {lo n : Nat} (h : s.memOk = true) : (s.purgeRange lo n).memOk = true :=
  State.memOk_of_eq (foldl_form (fun _ _ h0 => foldl_form (fun _ _ h1 => State.evictLine_memOk h1)
    (State.drainWcb_memOk h0)) h) rfl rfl rfl

theorem State.withField_memOk {s : State} {a : BitVec 6} {k : State → Field → State} (h : s.memOk = true)
    (hk : ∀ (s : State) (x : Field), s.memOk = true → (k s x).memOk = true) :
    (s.withField a k).memOk = true := by
  unfold State.withField
  dsimp only
  split
  · exact State.trap_memOk h
  · exact hk _ _ h

theorem execFrun_memOk {b : Bool} {a : BitVec 6} {s : State} (h : s.memOk = true) : OutFormed (execFrun b a s) := by
  unfold execFrun
  change State.memOk _ = true
  refine State.withField_memOk h (fun s0 x0 h0 => State.deviceGate_memOk h0 (fun s1 h1 => State.finish_memOk ?_))
  split
  · exact State.startSweep_memOk (foldl_form (fun _ _ h0 => State.purgeRange_memOk h0) (State.releaseEager_memOk h1))
  · exact State.setField_memOk (State.releaseEager_memOk h1)
  · exact State.releaseEager_memOk h1
  · exact State.releaseEager_memOk h1
  · exact State.releaseEager_memOk h1

theorem State.dropUpdates_memOk {s : State} {f : Field} (h : s.memOk = true) : (s.dropUpdates f).memOk = true :=
  State.mapThreads_memOk _ h

theorem State.arriveDue_memOk {s : State} {f : Field} (h : s.memOk = true) : (s.arriveDue f).memOk = true :=
  foldl_form (fun _ _ h0 => State.arrive_memOk h0) h

theorem State.undefine_memOk {s : State} {f : Field} (h : s.memOk = true) : (s.undefine f).memOk = true :=
  State.arriveDue_memOk (State.dropUpdates_memOk (State.pinFrames_memOk (State.unfreeze_memOk h)))

theorem execFstop_memOk {b : Bool} {a : BitVec 6} {s : State} (h : s.memOk = true) : OutFormed (execFstop b a s) := by
  unfold execFstop
  change State.memOk _ = true
  refine State.withField_memOk h (fun s0 x0 h0 => State.finish_memOk ?_)
  split
  · exact State.setField_memOk h0
  · exact h0
  · exact State.undefine_memOk h0
  · exact State.undefine_memOk h0
  · exact State.undefine_memOk h0

theorem State.copyRow_memOk {s : State} {x y : Loc} (h : s.memOk = true) : (s.copyRow x y).memOk = true := by
  unfold State.copyRow
  dsimp only
  exact State.rowFull_memOk (State.poke_memOk _ _ _ (foldl_form (fun _ _ h0 => State.stopeLine_memOk h0) (foldl_form
      (fun _ _ h0 => State.stopeLine_memOk h0) h)))

theorem State.copySlab_memOk {s : State} {f : Field} {e : Nat} (h : s.memOk = true) : (s.copySlab f e).memOk = true :=
  foldl_form (fun _ _ h0 => State.copyRow_memOk h0) h

theorem State.copyField_memOk {s : State} {f : Field} (h : s.memOk = true) : (s.copyField f).memOk = true :=
  foldl_form (fun _ _ h0 => State.copySlab_memOk h0) h

theorem State.faultField_memOk {s : State} {f : Field} {reason : Nat} (h : s.memOk = true) :
    (s.faultField f reason).memOk = true :=
  State.dropUpdates_memOk (State.setField_memOk h)

theorem State.snapNow_memOk {s : State} {f : Field} {r : Ref} (h : s.memOk = true) : (s.snapNow f r).memOk = true :=
  ite_form (State.faultField_memOk (State.copyField_memOk h)) (State.setField_memOk (State.copyField_memOk h))

theorem execFsnap_memOk {b : Bool} {a b1 : BitVec 6} {s : State} (h : s.memOk = true) :
    OutFormed (execFsnap b a b1 s) := by
  unfold execFsnap
  dsimp only
  change State.memOk _ = true
  refine State.withField_memOk h (fun s0 x0 h0 => State.withPlace_memOk h0 (fun x1 n1 => State.unless_memOk h0
      (fun s2 h2 => ite_form (State.stall_memOk h2) (State.finish_memOk ?_))))
  split
  · exact State.setField_memOk h2
  · exact State.setField_memOk h2
  · exact State.snapNow_memOk h2
  · exact State.snapNow_memOk h2
  · exact State.setField_memOk (State.copyField_memOk h2)

theorem execSnapshotArrival_memOk {island num : Nat} {s : State} (h : s.memOk = true) :
    OutFormed (execSnapshotArrival island num s) := by
  unfold execSnapshotArrival
  change State.memOk _ = true
  split
  · exact h
  · exact ite_form h (State.arriveDue_memOk (State.startSweep_memOk h))

theorem execFcpl_memOk {b : Bool} {a b1 : BitVec 6} {s : State} (h : s.memOk = true) :
    OutFormed (execFcpl b a b1 s) :=
  State.resumed_memOk h (fun _ h0 => State.withField_memOk h0 (fun _ _ h1 => State.withPlace_memOk h1
    (fun _ _ => State.unless_memOk h1 (fun _ h3 => State.engineWork_memOk h3))))

theorem State.failEngJob_memOk {s : State} {j : EngineJob} {c : Cause} {i0 i1 : Word} (h : s.memOk = true) :
    (s.failEngJob j c i0 i1).memOk = true :=
  State.wakeTrap_memOk h

theorem State.acceptTable_memOk {s : State} {f : Field} {t : FieldTable} (h : s.memOk = true) :
    (s.acceptTable f t).memOk = true :=
  State.pinFrames_memOk (State.setField_memOk (State.freezeAll_memOk h))

theorem execCouplingCheck_memOk {id : Nat} {s : State} (h : s.memOk = true) : OutFormed (execCouplingCheck id s) := by
  unfold execCouplingCheck
  change State.memOk _ = true
  split
  · exact h
  · split
    · split
      · exact State.failEngJob_memOk h
      · split
        · exact h
        · split
          · exact State.endEngJob_memOk (State.acceptTable_memOk h)
          · exact h
          · exact State.serviceFault_memOk h
          · exact State.failEngJob_memOk h
          · exact State.failEngJob_memOk h
          · exact State.failEngJob_memOk h
          · exact State.failEngJob_memOk h
    · exact h

theorem State.writeSite_memOk {s : State} {f : Field} {li v : Nat} (h : s.memOk = true) :
    (s.writeSite f li v).memOk = true :=
  State.poke_memOk _ _ _ h

theorem State.updateSites_memOk {s : State} {f : Field} {l : List Nat} {r : State × Bool} (h : s.memOk = true)
    (heq : s.updateSites f l = r) :
    r.1.memOk = true := by
  induction l generalizing s r with
  | nil =>
    subst heq
    rw [State.updateSites]
    exact h
  | cons b l ih =>
    subst heq
    rw [State.updateSites]
    split
    · exact ih (State.writeSite_memOk h) rfl
    · exact h

theorem State.tableWait_memOk {s : State} {r : Ref} {va : Nat} {t : State} (h : s.memOk = true) (heq :
    s.tableWait r va = some t) :
    t.memOk = true := by
  unfold State.tableWait at heq
  split at heq
  · rw [← Option.some.inj heq]
    exact h
  · rw [← Option.some.inj heq]
    exact State.serviceFault_memOk h
  · exact absurd heq (by simp)
theorem State.tablesWait_memOk {s t : State} {l : List FieldTable} (h : s.memOk = true)
    (heq : l.findSome? (fun k => k.pages.findSome? (s.tableWait k.ref)) = some t) : t.memOk = true := by
  obtain ⟨k, -, hk⟩ := List.exists_of_findSome?_eq_some heq
  obtain ⟨va, -, hva⟩ := List.exists_of_findSome?_eq_some hk
  exact State.tableWait_memOk h hva

theorem State.phaseFails_memOk {s : State} {f : Field} (h : s.memOk = true) : (s.phaseFails f).memOk = true := by
  unfold State.phaseFails
  split
  · next u heq => exact State.tablesWait_memOk h heq
  · exact State.faultField_memOk h

theorem State.startUpdate_memOk {s : State} {f : Field} {e li : Nat} (h : s.memOk = true) :
    (s.startUpdate f e li).memOk = true := by
  unfold State.startUpdate
  split
  · exact h
  · split
    · exact State.faultField_memOk h
    · split
      · exact State.phaseFails_memOk h
      · dsimp only
        exact h

theorem State.endUpdate_memOk {s : State} {k : ThreadKey} {island num li : Nat} {r : BitVec 8 × Nat × List Word}
    (h : s.memOk = true) :
    (s.endUpdate k island num li r).memOk = true := by
  unfold State.endUpdate
  dsimp only
  split
  · exact State.removeThread_memOk h
  · split
    · exact State.faultField_memOk (State.removeThread_memOk h)
    · split
      · exact State.setField_memOk (State.removeThread_memOk h)
      · exact State.setField_memOk (State.removeThread_memOk h)
      · exact State.setField_memOk (State.writeSite_memOk (State.removeThread_memOk h))

theorem State.handlerPhase_memOk {s : State} {f : Field} {j e : Nat} (h : s.memOk = true) :
    (s.handlerPhase f j e).memOk = true := by
  unfold State.handlerPhase
  split
  · split
    · exact State.phaseFails_memOk h
    · exact State.setField_memOk h
  · exact State.setField_memOk h
  · exact ite_form h (State.startUpdate_memOk h)

theorem State.tablePhase_memOk {s : State} {f : Field} {j : Nat} (h : s.memOk = true) :
    (s.tablePhase f j).memOk = true := by
  unfold State.tablePhase
  split
  · exact State.phaseFails_memOk h
  · split
    · exact h
    · split
      · next s1 heq => exact State.setField_memOk (State.updateSites_memOk h heq :)
      · next s1 heq =>
        split
        · next u hu => exact State.tablesWait_memOk h hu
        · exact State.faultField_memOk (State.updateSites_memOk h heq :)

theorem execFieldPhase_memOk {island num j : Nat} {s : State} (h : s.memOk = true) :
    OutFormed (execFieldPhase island num j s) := by
  unfold execFieldPhase
  change State.memOk _ = true
  split
  · exact h
  · split
    · exact h
    · exact ite_form h (ite_form (State.faultField_memOk h) (ite_form (State.tablePhase_memOk h)
        (State.handlerPhase_memOk h)))

theorem execFieldPhaseBarrier_memOk {island num : Nat} {s : State} (h : s.memOk = true) :
    OutFormed (execFieldPhaseBarrier island num s) := by
  unfold execFieldPhaseBarrier
  change State.memOk _ = true
  split
  · exact h
  · exact ite_form (State.setField_memOk h) h

theorem execFieldSweepEnd_memOk {island num : Nat} {s : State} (h : s.memOk = true) :
    OutFormed (execFieldSweepEnd island num s) := by
  unfold execFieldSweepEnd
  change State.memOk _ = true
  split
  · exact h
  · exact ite_form (State.pinFrames_memOk (State.unfreeze_memOk (ite_form (State.faultField_memOk (ite_form h
      (State.copyField_memOk h))) (State.startSweep_memOk (ite_form h (State.copyField_memOk h)))))) h

theorem State.takeHalo_memOk {s : State} {island num : Nat} {p : HaloPart} (h : s.memOk = true) :
    (s.takeHalo island num p).memOk = true := by
  unfold State.takeHalo
  split
  · exact h
  · dsimp only
    exact ite_form h (ite_form (State.setField_memOk h) (ite_form (State.setField_memOk h) (State.setField_memOk h)))

theorem State.farAnswer_memOk {s : State} {k : ThreadKey} {i : Nat} {x : VWord} (h : s.memOk = true) :
    (s.farAnswer k i x).memOk = true := by
  unfold State.farAnswer
  split
  · exact h
  · dsimp only
    exact ite_form (ite_form (State.modThread_memOk (State.modThread_memOk h)) (State.modThread_memOk h))
        (State.modThread_memOk (State.farFill_memOk (by exact h) rfl))

theorem State.listLds_memOk {s : State} {h1 : HeldLoad} {p : LoadPart} {consume : Bool} (h : s.memOk = true) :
    (s.listLds h1 p consume).memOk = true :=
  State.refreshPending_memOk (State.modThread_memOk h)

theorem State.loadPerform_memOk {s : State} {h1 : HeldLoad} (h : s.memOk = true) :
    (s.loadPerform h1).memOk = true := by
  have hend (u : State) (r : LoadRes) (hu : u.memOk = true) :
      ((u.modThread h1.key (fun t => t.modPend h1.entry (h1.settle r))).refreshPending h1.key).memOk = true :=
    State.refreshPending_memOk (State.modThread_memOk hu)
  unfold State.loadPerform
  extract_lets s0 end_
  have h0 : s0.memOk = true := h
  clear_value s0
  split
  · exact hend _ _ h0
  · split
    · next s1 v heq => exact hend _ _ (State.ldsAt_memOk h0 heq :)
    · next s1 heq => exact hend _ _ (State.ldsAt_memOk h0 heq :)
    · next s1 heq => exact State.listLds_memOk (State.ldsAt_memOk h0 heq :)
  · split
    next s1 r heq => exact hend _ _ (State.readParts_memOk h0 heq :)

theorem State.loadGo1_memOk {s : State} {h1 : HeldLoad} (h : s.memOk = true) : (s.loadGo1 h1).memOk = true :=
  ite_form (State.loadPerform_memOk (State.portOpen_memOk h)) (State.portOpen_memOk h)

theorem State.loadTry_memOk {s : State} {k : ThreadKey} {i : Nat} (h : s.memOk = true) :
    (s.loadTry k i).memOk = true := by
  unfold State.loadTry
  split
  · exact h
  · exact State.loadGo1_memOk h

theorem State.loadsGo_memOk {s : State} {core : Nat} (h : s.memOk = true) : (s.loadsGo core).memOk = true :=
  foldl_form (fun _ _ h0 => State.loadGo1_memOk h0) h

theorem execResultArrival_memOk {k : ThreadKey} {i : Nat} {far : VWord} {s : State} (h : s.memOk = true) :
    OutFormed (execResultArrival k i far s) := by
  unfold execResultArrival
  dsimp only
  change State.memOk _ = true
  split
  · exact h
  · split
    · exact State.modThread_memOk h
    · exact State.modThread_memOk (State.performMsgs_memOk h)
    · exact ite_form (State.farAnswer_memOk h) h
    · exact State.loadTry_memOk h
    · exact h
    · exact h
    · exact h

theorem State.farFailure_memOk {s : State} {k : ThreadKey} {e : Pend} (h : s.memOk = true) :
    (s.farFailure k e).memOk = true :=
  State.modThread_memOk h

theorem execLongLatencyFault_memOk {k : ThreadKey} {i : Nat} {s : State} (h : s.memOk = true) :
    OutFormed (execLongLatencyFault k i s) := by
  unfold execLongLatencyFault
  change State.memOk _ = true
  split
  · exact h
  · split
    · exact State.modThread_memOk h
    · exact State.modThread_memOk h
    · exact ite_form (State.farFailure_memOk h) h
    · exact h
    · exact h
    · exact h
    · exact h

theorem execWake_memOk {k : ThreadKey} {s : State} (h : s.memOk = true) : OutFormed (execWake k s) :=
  ite_form (State.saveWake_memOk (State.modThread_memOk h)) h

theorem execIllegalWord_memOk {w : BitVec 32} {half : Bool} {s : State} (h : s.memOk = true) :
    OutFormed (execIllegalWord w half s) :=
  State.trap_memOk h

theorem execStorefaultRecord_memOk {i : Nat} {s : State} (h : s.memOk = true) :
    OutFormed (execStorefaultRecord i s) := by
  unfold execStorefaultRecord
  change State.memOk _ = true
  split
  · exact h
  · exact ite_form (State.arriveFault_memOk h) h

theorem State.heldPieces_memOk {s : State} {h1 : HeldStore} {l : List (Nat × Nat)} {n : Nat} (h : s.memOk = true) :
    (s.heldPieces h1 l n).memOk = true := by
  induction l generalizing s n with
  | nil =>
    rw [State.heldPieces]
    exact h
  | cons b l ih =>
    rw [State.heldPieces]
    refine ih ?_
    split
    · exact State.performStore_memOk h
    · exact h

theorem State.heldElems_memOk {s : State} {h1 : HeldStore} {l : List (Nat × Nat × Nat)} {b : Bool}
    (h : s.memOk = true) :
    (s.heldElems h1 l b).memOk = true := by
  induction l generalizing s b with
  | nil =>
    rw [State.heldElems]
    exact h
  | cons b1 l ih =>
    rw [State.heldElems]
    split
    · dsimp only
      exact ih (ite_form h (State.lateFault_memOk h))
    · exact ih (State.heldPieces_memOk h)

theorem State.heldAct_memOk {s : State} {h1 : HeldStore} {x : Loc} {off n val : Nat} (h : s.memOk = true) :
    (s.heldAct h1 x off n val).memOk = true := by
  unfold State.heldAct
  split
  · exact h
  · dsimp only
    exact State.performMsg_memOk (State.memOk_of_eq (ite_form (State.drainCovered_memOk (State.coverCore_memOk h)) h)
        rfl rfl rfl)
  · exact State.syncWrite_memOk h
  · exact State.syncWrite_memOk h
  · exact State.syncWrite_memOk h
  · exact ite_form (State.joinWord_memOk (State.releaseFor_memOk h)) (State.wakeWith_memOk (State.syncWrite_memOk h))
  · split
    · next heq1 =>
      exact State.slotStep_memOk (State.ringStep_memOk (State.releaseFor_memOk h) heq1 :)
  · exact State.slotStep_memOk h

theorem State.heldFails_memOk {s : State} {h1 : HeldStore} {off n : Nat} {c : Cause} (h : s.memOk = true) :
    (s.heldFails h1 off n c).memOk = true := by
  unfold State.heldFails
  dsimp only
  split
  · exact State.wakeWith_memOk (State.lateFault_memOk h)
  · exact State.wakeWith_memOk (State.lateFault_memOk h)
  · exact State.wakeWith_memOk (State.lateFault_memOk h)
  · exact State.lateFault_memOk h
  · exact State.lateFault_memOk h
  · exact State.lateFault_memOk h
  · exact State.lateFault_memOk h
  · exact State.lateFault_memOk h

theorem State.heldPerform_memOk {s : State} {h1 : HeldStore} (h : s.memOk = true) :
    (s.heldPerform h1).memOk = true := by
  unfold State.heldPerform
  split
  · exact State.heldElems_memOk h
  · exact h
  · split
    · exact State.heldAct_memOk h
    · exact State.heldFails_memOk h
    · exact h

theorem State.heldWake_memOk {s : State} {k : ThreadKey} (h : s.memOk = true) : (s.heldWake k).memOk = true :=
  ite_form h (ite_form (State.wake_memOk _ h) h)

theorem State.heldTry_memOk {s : State} {h1 : HeldStore} (h : s.memOk = true) : (s.heldTry h1).memOk = true := by
  unfold State.heldTry
  dsimp only
  split
  · exact State.portOpen_memOk h
  · split
    · exact State.memOk_of_eq (State.reported_memOk (State.portOpen_memOk h)) rfl rfl rfl
    · split
      · exact State.shiftCheck_memOk (State.heldWake_memOk (State.heldPerform_memOk (State.memOk_of_eq
          (State.portOpen_memOk h) rfl rfl rfl)))
      · exact State.heldWake_memOk (State.heldPerform_memOk (State.memOk_of_eq (State.portOpen_memOk h) rfl rfl rfl))

theorem execHeldStorePerform_memOk {i : Nat} {s : State} (h : s.memOk = true) :
    OutFormed (execHeldStorePerform i s) := by
  unfold execHeldStorePerform
  change State.memOk _ = true
  split
  · exact h
  · exact State.heldTry_memOk h

theorem State.heldGo_memOk {s : State} {core : Nat} (h : s.memOk = true) : (s.heldGo core).memOk = true :=
  ite_form h (foldl_form (fun _ _ h0 => ite_form (State.heldTry_memOk h0) h0) h)

theorem execTranslationWalk_memOk {island cluster va : Nat} {s : State} (h : s.memOk = true) :
    OutFormed (execTranslationWalk island cluster va s) := by
  unfold execTranslationWalk
  change State.memOk _ = true
  split
  · exact h
  · split
    · exact h
    · split
      · exact ite_form h h
      · exact State.serviceFault_memOk h
      · exact h
      · exact h

theorem State.wakePages_memOk {s : State} {p : ThreadKey × Nat × Nat → Bool} (h : s.memOk = true) :
    (s.wakePages p).memOk = true :=
  foldl_form (fun _ _ h0 => State.wake_memOk _ h0) h

theorem State.putEntry_memOk {s : State} {e : Nat × Word} (h : s.memOk = true) : (s.putEntry e).memOk = true :=
  ite_form (State.poke_memOk _ _ _ (State.stopeLine_memOk h)) h

theorem execPageServed_memOk {island va : Nat} {entries : List (Nat × Word)} {s : State} (h : s.memOk = true) :
    OutFormed (execPageServed island va entries s) :=
  State.retryArrivals_memOk (State.wakePages_memOk (State.memOk_of_eq (foldl_form (fun _ _ h0 => State.putEntry_memOk
    h0) h) rfl rfl rfl))

theorem execFrameOwnershipWrite_memOk {frame owner st : Nat} {pin : Bool} {s : State} (h : s.memOk = true) :
    OutFormed (execFrameOwnershipWrite frame owner st pin s) :=
  ite_form h (State.retryArrivals_memOk (State.wakePages_memOk (State.memOk_of_eq (ite_form (State.wipe_memOk
    (State.setFrame_memOk h)) (State.setFrame_memOk h)) rfl rfl rfl)))

theorem execStopeAtomic_memOk {i : Nat} {s : State} (h : s.memOk = true) : OutFormed (execStopeAtomic i s) := by
  unfold execStopeAtomic
  change State.memOk _ = true
  split
  · exact h
  · split
    · exact h
    · split
      · exact ite_form (State.shiftCheck_memOk (State.performMsg_memOk h)) (State.performMsg_memOk h)
      · exact State.performMsg_memOk h

theorem execWcbDrain_memOk {core i : Nat} {s : State} (h : s.memOk = true) : OutFormed (execWcbDrain core i s) := by
  unfold execWcbDrain
  change State.memOk _ = true
  split
  · exact h
  · exact State.drainGranule_memOk h

theorem State.clearWays_memOk {s : State} {i : Island} {lo n : Nat} (h : s.memOk = true) :
    (s.clearWays i lo n).memOk = true :=
  foldl_form (fun _ _ h0 => foldl_form (fun _ _ h1 => State.clearRange_memOk h1) h0) h

theorem State.dropWaiter_memOk {s : State} {w : WordWait} {z : Nat} (h : s.memOk = true) :
    (s.dropWaiter w z).memOk = true := by
  unfold State.dropWaiter
  dsimp only
  split
  · exact State.grantEntry_memOk h
  · exact State.wakeTrap_memOk h
  · exact State.wakeTrap_memOk h
  · exact State.wakeTrap_memOk h

theorem State.dropWaiters_memOk {s : State} {i : Island} {z : Nat} (h : s.memOk = true) :
    (s.dropWaiters i z).memOk = true :=
  foldl_form (fun _ _ h0 => State.dropWaiter_memOk h0) h

theorem State.dropBarriers_memOk {s : State} {i : Island} {n : Nat} (h : s.memOk = true) :
    (s.dropBarriers i n).memOk = true :=
  foldl_form (fun _ _ h0 => State.wake_memOk _ h0) h

theorem State.dropLines_memOk {s : State} {i : Island} (h : s.memOk = true) : (s.dropLines i).memOk = true :=
  h

theorem State.repartition_memOk {s : State} {i : Island} {n step : Nat} {r : State × Nat} (h : s.memOk = true)
    (heq : s.repartition i n step = r) :
    r.1.memOk = true := by
  subst heq
  unfold State.repartition
  dsimp only
  split
  · split
    · exact State.dropLines_memOk h
    · exact State.dropLines_memOk h
    · exact State.dropLines_memOk h
    · exact State.clearWays_memOk h
    · exact State.modIsland_memOk h
    · exact State.modIsland_memOk h
  · split
    · exact State.modIsland_memOk h
    · split
      · exact h
      · exact h
    · exact State.clearWays_memOk (State.dropBarriers_memOk (State.dropWaiters_memOk h))
    · exact State.modIsland_memOk h

theorem execRepartition_memOk {id : Nat} {s : State} (h : s.memOk = true) : OutFormed (execRepartition id s) := by
  unfold execRepartition
  change State.memOk _ = true
  split
  · exact h
  · dsimp only
    split
    · exact ite_form (ite_form (State.endEngJob_memOk (State.repartition_memOk h rfl)) (State.memOk_of_eq
        (State.repartition_memOk h rfl) rfl rfl rfl)) h
    · exact h

theorem State.salvage_memOk {s : State} {c : Nat} (h : s.memOk = true) : (s.salvage c).memOk = true := by
  unfold State.salvage
  extract_lets one s0 s1 s2 rest
  have h1 : s1.memOk = true := foldl_form (f := one) (fun u l hu => State.memOk_of_eq (State.mergeHome_memOk l.line
    (l.dirty &&& Config.l1Check u.free) l.data hu) rfl rfl rfl) h
  have h2 : s2.memOk = true := State.modCore_memOk h1
  exact h2

theorem execCoreFailure_memOk {core : Nat} {s : State} (h : s.memOk = true) : OutFormed (execCoreFailure core s) :=
  ite_form (foldl_form (fun _ _ h0 => State.terminateCrew_memOk h0) (State.salvage_memOk h)) h

theorem execCoreRepairedOrRetired_memOk {core : Nat} {repaired : Bool} {s : State} (h : s.memOk = true) :
    OutFormed (execCoreRepairedOrRetired core repaired s) :=
  ite_form (State.retryArrivals_memOk (State.wakePages_memOk (State.serveRange_memOk (State.modCore_memOk (foldl_form
    (fun _ _ h0 => State.clearRange_memOk h0) (State.clearRange_memOk h)))))) h

theorem State.deadCall_memOk {s : State} {c : Call} (h : s.memOk = true) : (s.deadCall c).memOk = true :=
  ite_form (State.removeThread_memOk (State.setCall_memOk h)) (State.setCall_memOk h)

theorem execStopeEngineFailure_memOk {engine : Nat} {s : State} (h : s.memOk = true) :
    OutFormed (execStopeEngineFailure engine s) :=
  ite_form h (foldl_form (fun _ _ h0 => State.faultField_memOk h0) (foldl_form (fun _ _ h0 => State.deadCall_memOk h0)
    h))

theorem State.ok_memOk {s : State} (h : s.memOk = true) : s.ok.Formed :=
  h

theorem State.refuse_memOk {s : State} (h : s.memOk = true) : s.refuse.Formed :=
  h

theorem State.modConn_memOk {s : State} {id : Nat} {f : Conn → Conn} (h : s.memOk = true) :
    (s.modConn id f).memOk = true :=
  h

theorem takeCommand_memOk {h1 : CmdHeader} {op : Nat} {r : CmdRes} (hr : r.Formed) :
    (takeCommand h1 op r).memOk = true := by
  unfold takeCommand
  dsimp only
  split
  · exact State.answer_memOk (State.modConn_memOk hr)
  · exact State.modConn_memOk hr
  · exact hr

theorem State.command_memOk {s : State} {h1 : CmdHeader} {op : Nat} {islands : List Nat} {k : State → CmdRes}
    (h : s.memOk = true) (hk : ∀ (s : State), s.memOk = true → (k s).Formed) :
    (s.command h1 op islands k).memOk = true := by
  unfold State.command
  split
  · exact h
  · exact ite_form h (ite_form h (ite_form h (ite_form h (ite_form (takeCommand_memOk h) (ite_form
      (takeCommand_memOk h) (takeCommand_memOk (hk _ h)))))))

theorem State.islandCommand_memOk {s : State} {h1 : CmdHeader} {op : Nat} {k : State → Island → CmdRes}
    (h : s.memOk = true) (hk : ∀ (s : State) (x : Island), s.memOk = true → (k s x).Formed) :
    (s.islandCommand h1 op k).memOk = true := by
  unfold State.islandCommand
  refine State.command_memOk h (fun s0 h0 => ?_)
  split
  · exact h0
  · exact hk _ _ h0

theorem State.withdrawUnits_memOk {s : State} (h : s.memOk = true) : s.withdrawUnits.memOk = true :=
  ite_form h h

theorem State.createIsland_memOk {s : State} {num : Nat} {shape : Shape} {tenant root wpart : Nat} {tables : List Nat}
    (h : s.memOk = true) :
    (s.createIsland num shape tenant root wpart tables).Formed :=
  ite_cmdFormed (State.refuse_memOk h) (ite_cmdFormed h (State.ok_memOk (State.clearWays_memOk (State.memOk_of_eq
    (State.withdrawUnits_memOk h) rfl rfl rfl))))

theorem State.destroyIsland_memOk {s : State} {n : Nat} (h : s.memOk = true) : (s.destroyIsland n).memOk = true :=
  State.memOk_of_eq (foldl_form (fun _ _ h0 => State.sendReply_memOk h0) (foldl_form
    (fun _ _ h0 => State.removeThread_memOk h0) (foldl_form (fun _ _ h0 => State.undefine_memOk h0) (foldl_form
    (fun _ _ h0 => State.killShift_memOk h0) h)))) rfl rfl rfl

theorem State.rangeRes_memOk {s : State} {i : Island} {n : Need} {writes : Bool} {l : List (Nat × Nat)}
    {r : State × EngRes} (h : s.memOk = true) (heq : s.rangeRes i n writes l = r) :
    r.1.memOk = true := by
  induction l generalizing s r with
  | nil =>
    subst heq
    rw [State.rangeRes]
    exact h
  | cons b l ih =>
    subst heq
    rw [State.rangeRes]
    split
    · next heq =>
      split
      · exact (State.engPlace_memOk h heq :)
      · exact ih (State.engPlace_memOk h heq :) rfl
    · next heq =>
      exact (State.engPlace_memOk h heq :)

theorem execPut_memOk {h1 : CmdHeader} {va : Nat} {bytes : List Byte} {s : State} (h : s.memOk = true) :
    OutFormed (execPut h1 va bytes s) := by
  unfold execPut
  change State.memOk _ = true
  refine State.islandCommand_memOk h (fun s0 x0 h0 => ?_)
  split
  · exact State.refuse_memOk h0
  · split
    · next heq =>
      exact State.ok_memOk (State.engWrite_memOk (State.rangeRes_memOk h0 heq :) rfl)
    · next heq =>
      exact (State.rangeRes_memOk h0 heq :)
    · next heq =>
      exact State.refuse_memOk (State.rangeRes_memOk h0 heq :)

theorem State.getWord_memOk {s : State} {i : Island} {va len : Nat} {got : List Byte} {r : State × EngRes × List Byte}
    (h : s.memOk = true) (heq : s.getWord i va len got = r) :
    r.1.memOk = true := by
  subst heq
  unfold State.getWord
  dsimp only
  split
  · exact h
  · split
    · next heq =>
      exact (State.engReadPiece_memOk h heq :)
    · next heq =>
      exact (State.engReadPiece_memOk h heq :)

theorem execGet_memOk {h1 : CmdHeader} {va len : Nat} {s : State} (h : s.memOk = true) :
    OutFormed (execGet h1 va len s) := by
  unfold execGet
  change State.memOk _ = true
  refine State.islandCommand_memOk h (fun s0 x0 h0 => ?_)
  split
  · exact State.refuse_memOk h0
  · dsimp only
    split
    · next heq =>
      exact State.refuse_memOk (State.getWord_memOk h0 heq :)
    · next heq =>
      exact ite_cmdFormed (State.getWord_memOk h0 heq :) (State.getWord_memOk h0 heq :)

theorem execLaunchCommand_memOk {h1 : CmdHeader} {packet : BitVec 512} {s : State} (h : s.memOk = true) :
    OutFormed (execLaunchCommand h1 packet s) := by
  refine State.islandCommand_memOk h fun u i hu => ?_
  split
  · exact hu
  · exact State.serviceFault_memOk hu
  · exact State.refuse_memOk hu
  · exact State.refuse_memOk hu
  · next k _ =>
    have hadd : (u.addShift k).memOk = true := State.addShift_memOk hu
    exact ite_cmdFormed hadd (State.enterTail_memOk hadd)

theorem execWait_memOk {h1 : CmdHeader} {va : Nat} {s : State} (h : s.memOk = true) :
    OutFormed (execWait h1 va s) := by
  unfold execWait
  change State.memOk _ = true
  refine State.islandCommand_memOk h (fun s0 x0 h0 => ?_)
  split
  · exact State.refuse_memOk h0
  · split
    · next heq =>
      dsimp only
      exact ite_cmdFormed (State.refuse_memOk (State.serveRecords_memOk (State.engPlace_memOk h0 heq :)))
          (ite_cmdFormed (State.serveRecords_memOk (State.engPlace_memOk h0 heq :)) (State.memOk_of_eq
          (State.serveRecords_memOk (State.engPlace_memOk h0 heq :)) rfl rfl rfl))
    · next heq =>
      exact (State.engPlace_memOk h0 heq :)
    · next heq =>
      exact State.refuse_memOk (State.engPlace_memOk h0 heq :)

theorem execKill_memOk {h1 : CmdHeader} {serial : Nat} {s : State} (h : s.memOk = true) :
    OutFormed (execKill h1 serial s) := by
  unfold execKill
  change State.memOk _ = true
  refine State.islandCommand_memOk h (fun s0 x0 h0 => ?_)
  split
  · exact State.refuse_memOk h0
  · split
    · exact State.refuse_memOk h0
    · split
      · dsimp only
        exact State.ok_memOk (State.shiftCheck_memOk (State.modShift_memOk (State.answer_memOk h0)))
      · exact State.ok_memOk (State.killShift_memOk h0)

theorem State.withRange_memOk {s : State} {i : Island} {va len : Nat} {load : Bool}
    {k : State → List (Nat × Nat) → CmdRes} (h : s.memOk = true)
    (hk : ∀ (s : State) (l : List (Nat × Nat)), s.memOk = true → (k s l).Formed) :
    (s.withRange i va len load k).Formed := by
  unfold State.withRange
  split
  · exact State.refuse_memOk h
  · split
    · exact hk _ _ h
    · exact h
    · exact State.serviceFault_memOk h
    · exact State.refuse_memOk h

theorem execFreezeFrz_memOk {h1 : CmdHeader} {va len : Nat} {s : State} (h : s.memOk = true) :
    OutFormed (execFreezeFrz h1 va len s) :=
  State.islandCommand_memOk h (fun _ _ h0 => State.withRange_memOk h0 (fun _ _ h1 => ite_cmdFormed (State.ok_memOk h1)
    (ite_cmdFormed (State.refuse_memOk h1) (State.memOk_of_eq (State.freezeAll_memOk h1) rfl rfl rfl))))

theorem execFreezeThaw_memOk {h1 : CmdHeader} {va len : Nat} {s : State} (h : s.memOk = true) :
    OutFormed (execFreezeThaw h1 va len s) :=
  State.islandCommand_memOk h (fun _ _ h0 => State.withRange_memOk h0 (fun _ _ h1 => State.beginThaw_memOk h1))

theorem execFreezeFrzq_memOk {h1 : CmdHeader} {va : Nat} {s : State} (h : s.memOk = true) :
    OutFormed (execFreezeFrzq h1 va s) :=
  State.islandCommand_memOk h (fun _ _ h0 => ite_cmdFormed (State.refuse_memOk h0) (State.withRange_memOk h0
    (fun _ _ h1 => h1)))

theorem State.wakeIsland_memOk {s : State} {isl : Nat} (h : s.memOk = true) : (s.wakeIsland isl).memOk = true :=
  State.wakePages_memOk h

theorem execStraitOpen_memOk {h1 : CmdHeader} {reader : StraitReader} {owner base ngran rate burst : Nat} {s : State}
    (h : s.memOk = true) :
    OutFormed (execStraitOpen h1 reader owner base ngran rate burst s) := by
  unfold execStraitOpen
  change State.memOk _ = true
  refine State.islandCommand_memOk h (fun s0 x0 h0 => ?_)
  split
  · exact h0
  · exact ite_cmdFormed (State.refuse_memOk h0) (ite_cmdFormed h0 (ite_cmdFormed h0 (State.ok_memOk
      (State.wakeIsland_memOk (State.memOk_of_eq (foldl_form (fun _ _ h0 => State.putEntry_memOk h0) h0) rfl rfl
      rfl)))))

theorem State.dropReplicas_memOk {s : State} {i : Island} {base n : Nat} (h : s.memOk = true) :
    (s.dropReplicas i base n).memOk = true :=
  h

theorem execStraitClose_memOk {h1 : CmdHeader} {reader owner base : Nat} {s : State} (h : s.memOk = true) :
    OutFormed (execStraitClose h1 reader owner base s) := by
  unfold execStraitClose
  change State.memOk _ = true
  refine State.islandCommand_memOk h (fun s0 x0 h0 => ?_)
  split
  · exact State.refuse_memOk h0
  · dsimp only
    split
    · exact State.ok_memOk (State.wakeIsland_memOk h0)
    · exact State.ok_memOk (State.dropReplicas_memOk (State.wakeIsland_memOk h0))

theorem execFartab_memOk {h1 : CmdHeader} {idx : Nat} {module : Option Nat} {target conn port : Nat} {s : State}
    (h : s.memOk = true) :
    OutFormed (execFartab h1 idx module target conn port s) := by
  unfold execFartab
  change State.memOk _ = true
  refine State.islandCommand_memOk h (fun s0 x0 h0 => ?_)
  dsimp only
  split
  · exact State.refuse_memOk h0
  · split
    · exact State.ok_memOk (State.modIsland_memOk h0)
    · exact ite_cmdFormed (State.refuse_memOk h0) (State.ok_memOk (State.modIsland_memOk h0))

theorem execFieldlink_memOk {h1 : CmdHeader} {num : Nat} {ext : List Nat} {offset : FieldPart} {lockstep : Bool}
    {bound : Nat} {s : State} (h : s.memOk = true) :
    OutFormed (execFieldlink h1 num ext offset lockstep bound s) := by
  unfold execFieldlink
  change State.memOk _ = true
  refine State.islandCommand_memOk h (fun s0 x0 h0 => ?_)
  split
  · exact State.refuse_memOk h0
  · dsimp only
    exact ite_cmdFormed (State.refuse_memOk h0) (State.ok_memOk (State.setField_memOk h0))

theorem State.laneOp_memOk {s : State} {t : IntTy} {d : BitVec 5} {p : BitVec 3} {f : Thread → Nat → Nat}
    (h : s.memOk = true) :
    (s.laneOp t d p f).memOk = true :=
  State.onThr_memOk _ h

theorem execVdot_memOk {t : DotTy} {d a b : BitVec 5} {p : BitVec 3} {rm : Rm} {s : State} (h : s.memOk = true) :
    OutFormed (execVdot t d a b p rm s) := by
  unfold execVdot
  split
  · exact State.fVector_memOk h
  · dsimp only
    exact State.fVector_memOk h

end Sys2Proof.Machine
end

section
/-! O11, continued: the moves of the matrix engine, spills, the device, the fabric, and the instructions of the threads. -/

namespace Sys2Proof.Machine

open Sys2Proof

set_option Elab.async false

theorem State.setTileWord_memOk {s : State} {cl t w v : Nat} (h : s.memOk = true) :
    (s.setTileWord cl t w v).memOk = true :=
  State.poke_memOk _ _ _ h

theorem State.clearTile_memOk {s : State} {cl t : Nat} (h : s.memOk = true) : (s.clearTile cl t).memOk = true :=
  State.clearRange_memOk h

theorem State.dropOp_memOk {s : State} {cl : Nat} {o : MatrixOp} (h : s.memOk = true) :
    (s.dropOp cl o).memOk = true :=
  State.setEng_memOk h

theorem State.setOp_memOk {s : State} {cl : Nat} {o new : MatrixOp} (h : s.memOk = true) :
    (s.setOp cl o new).memOk = true :=
  State.setEng_memOk h

theorem State.onJob_memOk {s : State} {cl id : Nat} {k : Job → State} (h : s.memOk = true)
    (hk : ∀ (x : Job), (k x).memOk = true) :
    (s.onJob cl id k).memOk = true := by
  unfold State.onJob
  split
  · exact h
  · exact hk _

theorem State.setJob_memOk {s : State} {cl : Nat} {j new : Job} (h : s.memOk = true) :
    (s.setJob cl j new).memOk = true :=
  State.setOp_memOk h

theorem execMatrixAccept_memOk {cl : Nat} {s : State} (h : s.memOk = true) : OutFormed (execMatrixAccept cl s) := by
  unfold execMatrixAccept
  change State.memOk _ = true
  dsimp only
  split
  · exact h
  · split
    · exact h
    · exact State.modThread_memOk (State.setEng_memOk h)

theorem execTileClear_memOk {cl id : Nat} {s : State} (h : s.memOk = true) : OutFormed (execTileClear cl id s) := by
  unfold execTileClear
  change State.memOk _ = true
  dsimp only
  split
  · exact h
  · exact ite_form (State.dropOp_memOk (State.clearTile_memOk h)) h

theorem execTileRelease_memOk {cl id : Nat} {s : State} (h : s.memOk = true) :
    OutFormed (execTileRelease cl id s) := by
  unfold execTileRelease
  change State.memOk _ = true
  dsimp only
  split
  · exact h
  · exact ite_form h (ite_form (State.dropOp_memOk (State.setEng_memOk h)) (State.setEng_memOk h))

theorem State.loadGo_memOk {s : State} {cl tile : Nat} {src : Ref} {pos n : Nat} {r : State × Nat × EngRes} (h :
    s.memOk = true)
    (heq : s.loadGo cl tile src pos n = r) : r.1.memOk = true := by
  induction n generalizing s pos r with
  | zero =>
    subst heq
    exact h
  | succ n ih =>
    subst heq
    rw [State.loadGo]
    split
    · exact h
    · split
      · next s1 x heq => exact ih (State.setTileWord_memOk (State.engRead_memOk h heq :)) rfl
      · next s1 r x _ heq => exact (State.engRead_memOk h heq :)

theorem execMldCompletion_memOk {cl id n : Nat} {s : State} (h : s.memOk = true) :
    OutFormed (execMldCompletion cl id n s) := by
  unfold execMldCompletion
  change State.memOk _ = true
  dsimp only
  split
  · split
    · split
      · next heq1 =>
        exact State.arrive_memOk (State.dropOp_memOk (State.loadGo_memOk h heq1 :))
      · next heq1 =>
        exact ite_form (State.arrive_memOk (State.dropOp_memOk (State.loadGo_memOk h heq1 :))) (State.setOp_memOk
            (State.loadGo_memOk h heq1 :))
    · exact h
  · exact h

theorem State.jobRead_memOk {s : State} {j : Job} {op rel n : Nat} {r : State × JobRes Nat} (h : s.memOk = true)
    (heq : s.jobRead j op rel n = r) :
    r.1.memOk = true := by
  subst heq
  unfold State.jobRead
  dsimp only
  split
  · next heq =>
    exact (State.engRead_memOk h heq :)
  · next heq =>
    exact (State.engRead_memOk h heq :)
  · next heq =>
    exact (State.engRead_memOk h heq :)

theorem State.jobReads_memOk {s : State} {j : Job} {op : Nat} {l : List (Nat × Nat)} {r : State × JobRes (List Nat)}
    (h : s.memOk = true) (heq : s.jobReads j op l = r) :
    r.1.memOk = true := by
  induction l generalizing s r with
  | nil =>
    subst heq
    rw [State.jobReads]
    exact h
  | cons b l ih =>
    subst heq
    rw [State.jobReads]
    split
    · next heq =>
      split
      · next heq1 =>
        exact (ih (State.jobRead_memOk h heq :) heq1 :)
      · exact ih (State.jobRead_memOk h heq :) rfl
    · next heq =>
      exact (State.jobRead_memOk h heq :)
    · next heq =>
      exact (State.jobRead_memOk h heq :)

theorem jobThen_memOk {α β : Type} {r : State × JobRes α} {k : State → α → State × JobRes β} {q : State × JobRes β}
    (hr :
    r.1.memOk = true)
    (hk : ∀ u x, u.memOk = true → (k u x).1.memOk = true) (heq : jobThen r k = q) : q.1.memOk = true := by
  subst heq
  unfold jobThen
  split
  · exact hk _ _ hr
  · exact hr
  · exact hr

theorem State.readB_memOk {s : State} {j : Job} {kb : Nat} {r : State × JobRes (List Nat × Nat)} (h : s.memOk = true)
    (heq : s.readB j kb = r) :
    r.1.memOk = true := by
  subst heq
  unfold State.readB
  dsimp only
  refine jobThen_memOk (State.jobReads_memOk h rfl) (fun u0 x0 h0 => ?_) rfl
  split
  · exact jobThen_memOk (State.jobRead_memOk h0 rfl) (fun _ _ h0 => h0) rfl
  · exact h0

theorem State.readStep_memOk {s : State} {j : Job} {chunk : Nat} {r : State × JobRes StepData} (h : s.memOk = true)
    (heq : s.readStep j chunk = r) :
    r.1.memOk = true := by
  subst heq
  unfold State.readStep
  dsimp only
  refine jobThen_memOk (State.jobReads_memOk h rfl) (fun u0 x0 h0 => jobThen_memOk ?_ (fun u1 x1 h1 => jobThen_memOk
      ?_ (fun u2 x2 h2 => jobThen_memOk ?_ (fun _ _ h3 => h3) rfl) rfl) rfl) rfl
  · split
    · exact State.jobReads_memOk h0 rfl
    · exact h0
  · split
    · exact State.jobReads_memOk h1 rfl
    · exact h1
  · split
    · exact h2
    · exact State.readB_memOk h2 rfl

theorem State.updateCell_memOk {s : State} {cl : Nat} {j : Job} {x : StepData} {tile i c : Nat} {r : State × Flags}
    (h : s.memOk = true) (heq : s.updateCell cl j x tile i c = r) :
    r.1.memOk = true := by
  subst heq
  unfold State.updateCell
  dsimp only
  split
  · exact State.setTileWord_memOk (State.setTileWord_memOk h)
  · exact State.setTileWord_memOk h

theorem State.updateAll_memOk {s : State} {cl : Nat} {j : Job} {x : StepData} {tile : Nat} {r : State × Flags} (h :
    s.memOk = true)
    (heq : s.updateAll cl j x tile = r) : r.1.memOk = true := by
  subst heq
  have hfold (l : List Nat) : ∀ acc : State × Flags, acc.1.memOk = true → (l.foldl (fun (acc : State × Flags) p =>
      ((acc.1.updateCell cl j x tile (p / descN j.desc) (p % descN j.desc)).1,
        acc.2 ||| (acc.1.updateCell cl j x tile (p / descN j.desc) (p % descN j.desc)).2)) acc).1.memOk = true := by
    induction l with
    | nil => exact fun _ hacc => hacc
    | cons p l ih =>
      intro acc hacc
      have hcell : (acc.1.updateCell cl j x tile (p / descN j.desc) (p % descN j.desc)).1.memOk = true :=
        State.updateCell_memOk hacc rfl
      exact ih _ hcell
  exact hfold _ _ h

theorem State.ownChunk_memOk {s : State} {j : Job} {g : RingInfo} {r : State × JobRes Chunk} (h : s.memOk = true)
    (heq : s.ownChunk j g = r) :
    r.1.memOk = true := by
  subst heq
  unfold State.ownChunk
  dsimp only
  refine jobThen_memOk (State.jobReads_memOk h rfl) (fun u0 x0 h0 => jobThen_memOk ?_ (fun _ _ h1 => h1) rfl) rfl
  split
  · exact State.jobReads_memOk h0 rfl
  · exact h0

theorem State.forward_memOk {s : State} {g : RingInfo} {c : Chunk} (h : s.memOk = true) :
    (s.forward g c).memOk = true :=
  State.setEng_memOk h

theorem State.beginStep_memOk {s : State} {cl : Nat} {j : Job} {g : RingInfo} {r : State × JobRes Job}
    (h : s.memOk = true) (heq : s.beginStep cl j g = r) :
    r.1.memOk = true := by
  subst heq
  unfold State.beginStep
  split
  · exact h
  · dsimp only
    split
    · exact jobThen_memOk (State.ownChunk_memOk h rfl) (fun _ _ h0 => ite_form (State.forward_memOk h0) h0) rfl
    · split
      · exact h
      · split
        · exact h
        · exact ite_form (State.forward_memOk (State.setEng_memOk h)) (State.setEng_memOk h)

theorem execRingChunkArrival_memOk {cl : Nat} {s : State} (h : s.memOk = true) :
    OutFormed (execRingChunkArrival cl s) := by
  unfold execRingChunkArrival
  change State.memOk _ = true
  dsimp only
  split
  · exact h
  · exact ite_form (State.setEng_memOk h) h

theorem State.suspend_memOk {s : State} {cl : Nat} {j : Job} {e : JobErr} (h : s.memOk = true) :
    (s.suspend cl j e).memOk = true :=
  State.setJob_memOk h

theorem State.tensorScales_memOk {s : State} {j : Job} {r : State × JobRes (Nat × Nat)} (h : s.memOk = true)
    (heq : s.tensorScales j = r) :
    r.1.memOk = true := by
  subst heq
  unfold State.tensorScales
  split
  · exact jobThen_memOk (State.jobRead_memOk h rfl) (fun _ _ h0 => h0) rfl
  · exact h

theorem execJobBegin_memOk {cl id : Nat} {s : State} (h : s.memOk = true) : OutFormed (execJobBegin cl id s) := by
  unfold execJobBegin
  change State.memOk _ = true
  refine State.onJob_memOk h (fun x0 => ?_)
  split
  · exact h
  · split
    · exact State.setJob_memOk h
    · split
      · next heq =>
        exact (State.tensorScales_memOk h heq :)
      · next heq =>
        exact State.suspend_memOk (State.tensorScales_memOk h heq :)
      · next heq =>
        dsimp only
        exact State.setJob_memOk (ite_form (foldl_form (fun _ _ h0 => State.clearTile_memOk h0)
            (State.tensorScales_memOk h heq :)) (State.tensorScales_memOk h heq :))

theorem State.runStep_memOk {s : State} {cl : Nat} {j j1 : Job} (h : s.memOk = true) :
    (s.runStep cl j j1).memOk = true := by
  unfold State.runStep
  dsimp only
  split
  · next heq =>
    exact State.setJob_memOk (State.readStep_memOk h heq :)
  · next heq =>
    exact State.setJob_memOk (State.readStep_memOk h heq :)
  · next heq =>
    exact ite_form (State.setJob_memOk (State.readStep_memOk h heq :)) (State.setJob_memOk (State.updateAll_memOk
        (State.readStep_memOk h heq :) rfl))

theorem execJobKstep_memOk {cl id : Nat} {s : State} (h : s.memOk = true) : OutFormed (execJobKstep cl id s) := by
  unfold execJobKstep
  change State.memOk _ = true
  refine State.onJob_memOk h (fun x0 => ?_)
  split
  · exact h
  · split
    · split
      · split
        · next heq1 =>
          exact ite_form (State.setJob_memOk (State.beginStep_memOk h heq1 :)) (State.beginStep_memOk h heq1 :)
        · next heq1 =>
          exact State.suspend_memOk (State.beginStep_memOk h heq1 :)
        · next heq1 =>
          exact State.runStep_memOk (State.beginStep_memOk h heq1 :)
      · exact State.runStep_memOk h
    · exact State.runStep_memOk h

theorem State.completionFault_memOk {s : State} {j : Job} {r : Ref} {c : Cause} (h : s.memOk = true) :
    (s.completionFault j r c).memOk = true :=
  ite_form (State.storeFault_memOk h) h

theorem State.writeRecord_memOk {s : State} {j : Job} {st : JobStatus} {r : State × Bool} (h : s.memOk = true)
    (heq : s.writeRecord j st = r) :
    r.1.memOk = true := by
  subst heq
  unfold State.writeRecord
  split
  · exact h
  · split
    · next heq1 =>
      exact (State.engWriteWhole_memOk h heq1 :)
    · next heq1 =>
      exact (State.engWriteWhole_memOk h heq1 :)
    · next heq1 =>
      exact State.completionFault_memOk (State.engWriteWhole_memOk h heq1 :)

theorem State.arriveJob_memOk {s : State} {j : Job} {st : JobStatus} (h : s.memOk = true) :
    (s.arriveJob j st).memOk = true := by
  unfold State.arriveJob
  split
  · exact h
  · exact State.arrive_memOk h

theorem State.wakeJob_memOk {s : State} {cl id : Nat} (h : s.memOk = true) : (s.wakeJob cl id).memOk = true :=
  foldl_form (fun _ _ h0 => State.wake_memOk _ h0) h

theorem execJobCompletion_memOk {cl id : Nat} {s : State} (h : s.memOk = true) :
    OutFormed (execJobCompletion cl id s) := by
  unfold execJobCompletion
  change State.memOk _ = true
  refine State.onJob_memOk h (fun x0 => ?_)
  split
  · exact h
  · split
    · exact h
    · split
      · next heq1 =>
        exact (State.writeRecord_memOk h heq1 :)
      · next heq1 =>
        exact State.returnTiles_memOk (State.wakeJob_memOk (State.dropOp_memOk (State.arriveJob_memOk
            (State.writeRecord_memOk h heq1 :))))

theorem State.tellOwner_memOk {s : State} {cl : Nat} {j : Job} {f : Cause × Word × Word} (h : s.memOk = true) :
    (s.tellOwner cl j f).memOk = true := by
  unfold State.tellOwner
  dsimp only
  split
  · exact State.modThread_memOk h
  · split
    · exact State.wake_memOk _ (State.modThread_memOk h)
    · split
      · exact State.wake_memOk _ (State.dropOp_memOk (State.modThread_memOk h))
      · exact State.modThread_memOk h
    · exact State.modThread_memOk h

theorem execJobFault_memOk {cl id : Nat} {s : State} (h : s.memOk = true) : OutFormed (execJobFault cl id s) := by
  unfold execJobFault
  change State.memOk _ = true
  refine State.onJob_memOk h (fun x0 => ?_)
  split
  · exact h
  · exact ite_form h (ite_form (State.tellOwner_memOk (State.setJob_memOk h)) (State.setJob_memOk h))

theorem execRingWatchdogExpiry_memOk {cl id : Nat} {s : State} (h : s.memOk = true) :
    OutFormed (execRingWatchdogExpiry cl id s) := by
  unfold execRingWatchdogExpiry
  change State.memOk _ = true
  refine State.onJob_memOk h (fun x0 => ?_)
  split
  · exact h
  · split
    · exact h
    · split
      · dsimp only
        exact State.tellOwner_memOk (State.setJob_memOk h)
      · dsimp only
        exact State.tellOwner_memOk (State.setJob_memOk h)

theorem State.giveUpRange_memOk {s : State} {v : View} {g : Seg} {off n : Nat} (h : s.memOk = true) :
    (s.giveUpRange v g off n).memOk = true := by
  unfold State.giveUpRange
  split
  · refine foldl_form (fun u0 b0 h0 => ?_) h
    split
    · exact State.giveUpLine_memOk h0
    · exact h0
  · exact h

theorem State.drainGo_memOk {s : State} {cl : Nat} {d : DrainJob} {i n : Nat} {r : State × Nat × EngRes} (h :
    s.memOk = true)
    (heq : s.drainGo cl d i n = r) : r.1.memOk = true := by
  induction n generalizing s i r with
  | zero =>
    subst heq
    exact h
  | succ n ih =>
    subst heq
    rw [State.drainGo]
    split
    · next s1 heq => exact ih (State.engWrite_memOk (State.giveUpRange_memOk h) heq :) rfl
    · next s1 r _ heq => exact (State.engWrite_memOk (State.giveUpRange_memOk h) heq :)

theorem State.addHist_memOk {s : State} {cl : Nat} {d : DrainJob} {r : State × EngRes × Nat} (h : s.memOk = true)
    (heq : s.addHist cl d = r) :
    r.1.memOk = true := by
  subst heq
  unfold State.addHist
  dsimp only
  split
  · next heq =>
    exact State.engWriteWhole_memOk (State.engRead_memOk (State.giveUpRange_memOk h) heq :) rfl
  · exact State.engRead_memOk (State.giveUpRange_memOk h) rfl

theorem State.drainFails_memOk {s : State} {cl : Nat} {d : DrainJob} {operand off : Nat} {c : Cause}
    (h : s.memOk = true) :
    (s.drainFails cl d operand off c).memOk = true :=
  State.wakeTrap_memOk (State.dropOp_memOk h)

theorem State.drainEnds_memOk {s : State} {cl : Nat} {d : DrainJob} (h : s.memOk = true) :
    (s.drainEnds cl d).memOk = true :=
  State.wakeWith_memOk (State.modThread_memOk (State.dropOp_memOk h))

theorem execMdrainPerform_memOk {cl id : Nat} {s : State} (h : s.memOk = true) :
    OutFormed (execMdrainPerform cl id s) := by
  unfold execMdrainPerform
  change State.memOk _ = true
  dsimp only
  split
  · split
    · exact h
    · split
      · next heq1 =>
        exact State.drainFails_memOk (State.drainGo_memOk h heq1 :)
      · next heq1 =>
        exact State.setOp_memOk (State.drainGo_memOk h heq1 :)
      · next heq1 =>
        split
        · split
          · next heq2 =>
            exact State.drainEnds_memOk (State.addHist_memOk (State.drainGo_memOk h heq1 :) heq2 :)
          · next heq2 =>
            exact State.setOp_memOk (State.addHist_memOk (State.drainGo_memOk h heq1 :) heq2 :)
          · next heq2 =>
            exact State.drainFails_memOk (State.addHist_memOk (State.drainGo_memOk h heq1 :) heq2 :)
        · exact State.drainEnds_memOk (State.drainGo_memOk h heq1 :)
  · exact h

theorem State.failOp_memOk {s : State} {o : MatrixOp} (h : s.memOk = true) : (s.failOp o).memOk = true := by
  unfold State.failOp
  split
  · exact State.wake_memOk _ h
  · exact State.arrive_memOk h
  · exact h
  · exact h
  · exact h
  · exact h

theorem State.failMatrix_memOk {s : State} {cl : Nat} (h : s.memOk = true) : (s.failMatrix cl).memOk = true := by
  unfold State.failMatrix
  dsimp only
  split
  · exact h
  · refine foldl_form (fun _ _ h0 => State.gangLoss_memOk h0) (foldl_form (fun u0 b0 h0 => ?_) (foldl_form
      (fun _ _ h0 => State.failOp_memOk h0) (State.setEng_memOk h)))
    split
    · split
      · exact State.wake_memOk _ (State.modThread_memOk h0)
      · exact State.modThread_memOk h0
    · exact State.modThread_memOk h0

theorem State.copyOut_memOk {s : State} {x y n : Nat} (h : s.memOk = true) : (s.copyOut x y n).memOk = true :=
  foldl_form (fun _ _ h0 => State.setFull_memOk _ _ h0) (State.poke_memOk _ _ _ h)

theorem State.saveJob_memOk {s : State} {cl area : Nat} {j : Job} (h : s.memOk = true) :
    (s.saveJob cl area j).memOk = true :=
  ite_form (State.poke_memOk _ _ _ (State.poke_memOk _ _ _ (State.poke_memOk _ _ _ (State.saveList_memOk h))))
    (State.poke_memOk _ _ _ (State.poke_memOk _ _ _ (State.saveList_memOk h)))

theorem State.loadJob_memOk {s : State} {cl area : Nat} {j : Job} (h : s.memOk = true) :
    (s.loadJob cl area j).memOk = true :=
  ite_form (State.poke_memOk _ _ _ (State.poke_memOk _ _ _ h)) (State.poke_memOk _ _ _ h)

theorem State.writeArea_memOk {s : State} {t : Thread} (h : s.memOk = true) : (s.writeArea t).memOk = true := by
  unfold State.writeArea
  dsimp only
  split
  · exact State.copyOut_memOk (State.savePending_memOk (foldl_form (fun _ _ h0 => State.poke_memOk _ _ _ h0)
      (State.saveList_memOk (State.saveList_memOk (foldl_form (fun _ _ h0 => State.poke_memOk _ _ _ h0)
      (State.poke_memOk _ _ _ (State.saveList_memOk (State.saveList_memOk h))))))))
  · exact State.saveJob_memOk (State.copyOut_memOk (State.savePending_memOk (foldl_form
      (fun _ _ h0 => State.poke_memOk _ _ _ h0) (State.saveList_memOk (State.saveList_memOk (foldl_form
      (fun _ _ h0 => State.poke_memOk _ _ _ h0) (State.poke_memOk _ _ _ (State.saveList_memOk
      (State.saveList_memOk h)))))))))

theorem State.mapJobs_memOk {s : State} {t : Thread} {f : Job → Job} (h : s.memOk = true) :
    (s.mapJobs t f).memOk = true :=
  ite_form h (State.setEng_memOk h)

theorem execSpillSave_memOk {k : ThreadKey} {s : State} (h : s.memOk = true) : OutFormed (execSpillSave k s) := by
  unfold execSpillSave
  change State.memOk _ = true
  split
  · exact h
  · split
    · exact h
    · dsimp only
      split
      · exact State.performMsgs_memOk h
      · split
        · exact State.modThread_memOk (State.mapJobs_memOk (State.performMsgs_memOk h))
        · exact State.writeArea_memOk (State.modThread_memOk (State.mapJobs_memOk (State.performMsgs_memOk h)))

theorem execSpillSlot_memOk {h1 : CmdHeader} {k : ThreadKey} {area : Nat} {s : State} (h : s.memOk = true) :
    OutFormed (execSpillSlot h1 k area s) := by
  unfold execSpillSlot
  change State.memOk _ = true
  refine State.islandCommand_memOk h (fun s0 x0 h0 => ?_)
  split
  · exact State.refuse_memOk h0
  · exact ite_cmdFormed (State.refuse_memOk h0) (ite_cmdFormed (State.ok_memOk h0) (ite_cmdFormed h0 (ite_cmdFormed
      (State.refuse_memOk h0) (State.modThread_memOk h0))))

theorem State.refill_memOk {s : State} {t : Thread} (h : s.memOk = true) : (s.refill t).memOk = true := by
  unfold State.refill
  dsimp only
  refine State.modThread_memOk (State.mapJobs_memOk ?_)
  split
  · exact State.loadJob_memOk (State.copyOut_memOk (State.clearRange_memOk h))
  · exact State.copyOut_memOk (State.clearRange_memOk h)

theorem execRefillSlot_memOk {h1 : CmdHeader} {k : ThreadKey} {s : State} (h : s.memOk = true) :
    OutFormed (execRefillSlot h1 k s) := by
  unfold execRefillSlot
  change State.memOk _ = true
  refine State.islandCommand_memOk h (fun s0 x0 h0 => ?_)
  split
  · exact State.refuse_memOk h0
  · exact ite_cmdFormed (State.refuse_memOk h0) (ite_cmdFormed (State.ok_memOk (State.refill_memOk h0)) h0)

theorem State.saveBuffer_memOk {s : State} {area b : Nat} {c : Option Chunk} (h : s.memOk = true) :
    (s.saveBuffer area b c).memOk = true := by
  unfold State.saveBuffer
  split
  · refine State.saveList_memOk ?_
    rw [State.memOk_iff] at h ⊢
    exact ⟨memWriteList_wf _ _ h.1, h.2⟩
  · exact State.saveList_memOk h

theorem State.saveEntry_memOk {s : State} {at_ : Nat} {o : MatrixOp} (h : s.memOk = true) :
    (s.saveEntry at_ o).memOk = true := by
  unfold State.saveEntry
  dsimp only
  split
  · exact State.poke_memOk _ _ _ (State.saveList_memOk h)
  · exact State.saveList_memOk h
  · exact State.saveList_memOk h
  · exact State.saveList_memOk h
  · exact State.saveList_memOk h
  · exact State.saveList_memOk h

theorem State.saveQueue_memOk {s : State} {at_ n : Nat} {l : List MatrixOp} (h : s.memOk = true) :
    (s.saveQueue at_ n l).memOk = true := by
  induction l generalizing s n with
  | nil =>
    rw [State.saveQueue]
    exact foldl_form (fun _ _ h0 => State.saveList_memOk h0) h
  | cons b l ih =>
    rw [State.saveQueue]
    exact ite_form (ih (State.saveEntry_memOk h)) (ih h)

theorem State.writeCluster_memOk {s : State} {cl area : Nat} (h : s.memOk = true) :
    (s.writeCluster cl area).memOk = true :=
  State.saveBuffer_memOk (State.saveBuffer_memOk (State.saveList_memOk (State.saveQueue_memOk (foldl_form
    (fun _ _ h0 => State.poke_memOk _ _ _ h0) (foldl_form (fun _ _ h0 => State.copyOut_memOk h0) h)))))

theorem execEvictCluster_memOk {h1 : CmdHeader} {cl area : Nat} {s : State} (h : s.memOk = true) :
    OutFormed (execEvictCluster h1 cl area s) :=
  State.islandCommand_memOk h (fun _ _ h0 => ite_cmdFormed (State.refuse_memOk h0) (ite_cmdFormed
    (State.mapThreads_memOk _ (State.setEng_memOk h0)) (State.ok_memOk (State.writeCluster_memOk
    (State.setEng_memOk h0)))))

theorem execRestoreCluster_memOk {h1 : CmdHeader} {cl area : Nat} {s : State} (h : s.memOk = true) :
    OutFormed (execRestoreCluster h1 cl area s) :=
  State.islandCommand_memOk h (fun _ _ h0 => ite_cmdFormed (State.refuse_memOk h0) (State.ok_memOk (State.setEng_memOk
    (foldl_form (fun _ _ h1 => State.poke_memOk _ _ _ h1) (foldl_form (fun _ _ h1 => State.copyOut_memOk h1) h0)))))

theorem State.cold_memOk {s : State} (h : s.memOk = true) : s.cold.memOk = true :=
  State.memOk_of_eq resetMemoryForm rfl rfl rfl

theorem State.modDie_memOk {s : State} {stack : Nat} {f : StackSt → StackSt} (h : s.memOk = true) :
    (s.modDie stack f).memOk = true :=
  h

theorem execRecoveryFetch_memOk {stack : Nat} {img : Image} {s : State} (h : s.memOk = true) :
    OutFormed (execRecoveryFetch stack img s) := by
  have hdie : (s.modDie stack fun d => d.fetched stack img).memOk = true := State.modDie_memOk h
  exact ite_form h (ite_form hdie hdie)

theorem execLoadimg_memOk {h1 : CmdHeader} {stack : Nat} {img : Image} {s : State} (h : s.memOk = true) :
    OutFormed (execLoadimg h1 stack img s) := by
  refine State.command_memOk h fun u hu => ?_
  split
  · exact State.refuse_memOk hu
  · split
    · exact hu
    · next l _ =>
      have hdie : (u.modDie stack fun d => d.otherSlot fun o => ⟨some img, o.seq + 1⟩).memOk = true :=
        State.modDie_memOk hu
      exact ite_cmdFormed (ite_cmdFormed hdie hdie) hu

theorem State.measure_memOk {s : State} {w : Wear} (h : s.memOk = true) : (s.measure w).memOk = true :=
  ite_form h h

theorem execTelemetry_memOk {h1 : CmdHeader} {q : Telemetry} {s : State} (h : s.memOk = true) :
    OutFormed (execTelemetry h1 q s) := by
  unfold execTelemetry
  change State.memOk _ = true
  refine State.command_memOk h (fun s0 h0 => ?_)
  split
  · dsimp only
    exact foldl_form (fun _ _ h0 => State.measure_memOk h0) h0
  · exact h0
  · split
    · exact h0
    · exact State.refuse_memOk h0
    · exact State.refuse_memOk h0
    · exact State.refuse_memOk h0
  · exact h0

theorem execPatrolScrub_memOk {loc : Nat} {bad : Bool} {s : State} (h : s.memOk = true) :
    OutFormed (execPatrolScrub loc bad s) := by
  refine ite_form ?_ h
  rw [State.memOk_iff] at h ⊢
  exact ⟨h.1, h.2.1, setAdd_rising _ h.2.2⟩

theorem State.retireSlice_memOk {s : State} {cl : Nat} (h : s.memOk = true) : (s.retireSlice cl).memOk = true :=
  State.wipe_memOk h

theorem execUnitRetirement_memOk {w : Wear} {s : State} (h : s.memOk = true) : OutFormed (execUnitRetirement w s) :=
  ite_form (State.measure_memOk h) (ite_form (State.failMatrix_memOk (State.memOk_of_eq (State.measure_memOk h) rfl
    rfl rfl)) (ite_form (State.retireSlice_memOk (State.memOk_of_eq (State.measure_memOk h) rfl rfl rfl))
    (State.memOk_of_eq (State.measure_memOk h) rfl rfl rfl)))

theorem State.farAccept_memOk {s : State} {m c n : Nat} (h : s.memOk = true) : (s.farAccept m c n).memOk = true :=
  h

theorem State.farPlace_memOk {s : State} {i : Island} {va : Nat} {n : Need} {load : Bool} {r : State × XRes}
    (h : s.memOk = true) (heq : s.farPlace i va n load = r) :
    r.1.memOk = true := by
  subst heq
  unfold State.farPlace
  split
  · exact h
  · split
    · exact State.serviceFault_memOk h
    · exact h

theorem State.noteFetch_memOk {s : State} {gr module : Nat} (h : s.memOk = true) :
    (s.noteFetch gr module).memOk = true :=
  ite_form h h

theorem State.farOp_memOk {s : State} {x : Loc} {bytes : Nat} {op : MemOp} {a b : BitVec 128} (h : s.memOk = true) :
    (s.farOp x bytes op a b).memOk = true :=
  ite_form h (State.applyAt_memOk h rfl)

theorem State.farCall_memOk {s : State} {i : Island} {va entry : Nat} {payload : List Word} {caller : Word}
    (h : s.memOk = true) :
    (s.farCall i va entry payload caller).memOk = true :=
  State.memOk_of_eq (State.routeCall_memOk (by exact h) rfl) rfl rfl rfl

theorem State.farReply_memOk {s : State} {id : Nat} {status : BitVec 8} {vals : List Word} (h : s.memOk = true) :
    (s.farReply id status vals).memOk = true := by
  unfold State.farReply
  split
  · exact h
  · exact ite_form (State.setCall_memOk h) h

theorem State.farAt_memOk {s : State} {i : Island} {va : Nat} {n : Need} {load engine : Bool}
    {k : State → Loc → State} {r : State × Bool} (h : s.memOk = true)
    (hk : ∀ (s : State) (x : Loc), s.memOk = true → (k s x).memOk = true) (heq : s.farAt i va n load engine k = r) :
    r.1.memOk = true := by
  subst heq
  unfold State.farAt
  split
  · next heq =>
    split
    · exact (State.farPlace_memOk h heq :)
    · exact hk _ _ (State.farPlace_memOk h heq :)
  · next heq =>
    exact (State.farPlace_memOk h heq :)
  · next heq =>
    exact (State.farPlace_memOk h heq :)

theorem State.farPush_memOk {s : State} {x : Loc} {data : Word} {feSet : Bool} (h : s.memOk = true) :
    (s.farPush x data feSet).memOk = true :=
  ite_form h (ite_form (State.changeFull_memOk (State.poke_memOk _ _ _ (State.unpoison_memOk _ _
    (State.stopeLine_memOk h)))) (State.poke_memOk _ _ _ (State.unpoison_memOk _ _ (State.stopeLine_memOk h))))

theorem State.farDrop_memOk {s : State} {i : Island} {fmod granule : Nat} (h : s.memOk = true) :
    (s.farDrop i fmod granule).memOk = true :=
  h

theorem State.farHalo_memOk {s : State} {i : Island} {module num face sweep phase first : Nat} {vals : List Nat}
    (h : s.memOk = true) :
    (s.farHalo i module num face sweep phase first vals).memOk = true := by
  unfold State.farHalo
  dsimp only
  split
  · exact h
  · exact ite_form (State.takeHalo_memOk h) h

theorem State.farServe_memOk {s : State} {i : Island} {module : Nat} {x : FarReq} {r : State × Bool}
    (h : s.memOk = true) (heq : s.farServe i module x = r) :
    r.1.memOk = true := by
  subst heq
  unfold State.farServe
  split
  · exact State.farAt_memOk h (fun _ _ h0 => ite_form (State.noteFetch_memOk h0) h0) rfl
  · exact State.farAt_memOk h (fun _ _ h0 => State.farOp_memOk h0) rfl
  · exact State.farAt_memOk h (fun _ _ h0 => State.farOp_memOk h0) rfl
  · exact State.farAt_memOk h (fun _ _ h0 => State.farOp_memOk h0) rfl
  · exact State.farAt_memOk h (fun _ _ h0 => State.farOp_memOk h0) rfl
  · exact State.farAt_memOk h (fun _ _ h0 => State.farPush_memOk h0) rfl
  · exact State.farCall_memOk h
  · exact State.farReply_memOk h
  · exact State.farHalo_memOk h
  · exact State.farDrop_memOk h
  · exact h

theorem execFarMessageArrival_memOk {module core num island : Nat} {req : FarReq} {s : State} (h : s.memOk = true) :
    OutFormed (execFarMessageArrival module core num island req s) := by
  unfold execFarMessageArrival
  change State.memOk _ = true
  split
  · exact h
  · split
    · exact h
    · split
      · exact h
      · split
        · next heq1 =>
          exact State.farAccept_memOk (State.farServe_memOk h heq1 :)
        · next heq1 =>
          exact (State.farServe_memOk h heq1 :)

theorem State.farTimeout_memOk {s : State} {m : FarMsg} (h : s.memOk = true) : (s.farTimeout m).memOk = true := by
  unfold State.farTimeout
  dsimp only
  split
  · split
    · exact State.farFailure_memOk h
    · exact h
  · split
    · exact State.endCopy_memOk h
    · exact h
  · exact State.lateFault_memOk h

theorem execFarAccessTimeout_memOk {core num : Nat} {s : State} (h : s.memOk = true) :
    OutFormed (execFarAccessTimeout core num s) := by
  unfold execFarAccessTimeout
  change State.memOk _ = true
  split
  · exact h
  · exact ite_form h (State.farTimeout_memOk h)

theorem State.atomicAt_memOk {s : State} {va bytes : Nat} {op : MemOp} {x y : BitVec 128} {z : Loc}
    {entry : State → PendWait → Nat → State} (h : s.memOk = true)
    (hentry : ∀ (s : State) (x : PendWait) (n : Nat), s.memOk = true → (entry s x n).memOk = true) :
    (s.atomicAt va bytes op x y z entry).memOk = true :=
  ite_form (hentry _ _ _ (State.memOk_of_eq (ite_form h (State.portOpen_memOk h)) rfl rfl rfl)) (ite_form
    (hentry _ _ _ (ite_form h (State.portOpen_memOk h)))
    (hentry _ _ _ (State.applyAt_memOk (ite_form h (State.portOpen_memOk h)) rfl)))

theorem State.atomicNear_memOk {s : State} {bytes : Nat} {op : MemOp} {x y : BitVec 128} {z : Loc}
    {entry : State → PendWait → Nat → State} (h : s.memOk = true)
    (hentry : ∀ (s : State) (x : PendWait) (n : Nat), s.memOk = true → (entry s x n).memOk = true) :
    (s.atomicNear bytes op x y z entry).memOk = true :=
  ite_form (State.onThr_memOk _ h) (ite_form (State.onThr_memOk _ h) (hentry _ _ _ (State.applyAt_memOk h rfl)))

theorem State.atomic_memOk {s : State} {sg : BitVec 3} {d a : BitVec 6} {la : BitVec 4} {bytes : Nat} {op : MemOp}
    {x y : BitVec 128} (h : s.memOk = true) :
    (s.atomic sg d a la bytes op x y).memOk = true := by
  unfold State.atomic
  dsimp only
  refine State.unless_memOk h (fun s0 h0 => ?_)
  split
  · exact State.onThr_memOk _ (State.farSend_memOk h0)
  · split
    · exact ite_form (State.atomicNear_memOk h0 (fun _ _ _ h0 => State.onThr_memOk _ h0)) (State.atomicAt_memOk h0
        (fun _ _ _ h0 => State.onThr_memOk _ h0))
    · exact ite_form (State.stall_memOk h0) (State.onThr_memOk _ h0)
    · exact ite_form (State.stall_memOk (State.serviceFault_memOk h0)) (State.onThr_memOk _ (State.serviceFault_memOk
        h0))
    · exact ite_form (State.onThr_memOk _ h0) (State.onThr_memOk _ h0)

theorem State.reduce_memOk {s : State} {sg : BitVec 3} {a : BitVec 6} {bytes : Nat} {op : MemOp} {x : BitVec 128}
    (h : s.memOk = true) :
    (s.reduce sg a bytes op x).memOk = true :=
  State.unless_memOk h (fun _ h0 => ite_form (State.finish_memOk (State.farSend_memOk h0)) (State.finish_memOk
    (State.sendStore_memOk h0)))

theorem State.predOp_memOk {s : State} {d : BitVec 3} {x : Thread → Pred} (h : s.memOk = true) :
    (s.predOp d x).memOk = true :=
  State.onThr_memOk _ h

end Sys2Proof.Machine
end

section
/-! O11, concluded: every instruction, every unit and every turn, and the step. -/

namespace Sys2Proof.Machine

open Sys2Proof

set_option Elab.async false

theorem exec_memOk {i : Instr} {s : State} (h : s.memOk = true) : OutFormed (exec i s) := by
  unfold exec
  split
  · exact State.finish_memOk h
  · exact ite_form (State.transfer_memOk h) (State.finish_memOk h)
  · exact ite_form (State.transfer_memOk h) (State.finish_memOk h)
  · exact ite_form (State.transfer_memOk h) (State.finish_memOk h)
  · exact ite_form (State.transfer_memOk h) (State.finishG_memOk h)
  · exact ite_form (State.transfer_memOk h) (State.finish_memOk h)
  · exact State.transfer_memOk h
  · exact State.transfer_memOk h
  · exact State.transfer_memOk h
  · exact execExit_memOk h
  · exact State.onThr_memOk _ (State.finish_memOk h)
  · exact ite_form (State.onThr_memOk _ (State.finish_memOk h)) (State.trapAfter_memOk h)
  · exact State.trapAfter_memOk h
  · exact ite_form (State.trapReturn_memOk h) (State.illegalHere_memOk h)
  · exact State.finishG_memOk h
  · exact execMwr_memOk h
  · exact execSegld_memOk h
  · exact ite_form (State.trap_memOk h) (ite_form (State.trap_memOk h) (State.onThr_memOk _ h))
  · exact State.finishG_memOk h
  · exact State.launchWith_memOk h
  · exact State.launchWith_memOk h
  · exact execBarc_memOk h
  · exact ite_form (State.endThread_memOk (State.finish_memOk h)) (State.finish_memOk h)
  · exact State.killCrew_memOk (State.finish_memOk h)
  · exact State.killShift_memOk (State.finish_memOk h)
  · exact State.load_memOk h
  · exact State.load_memOk h
  · exact State.load_memOk h
  · exact State.load_memOk h
  · exact State.load_memOk h
  · exact State.load_memOk h
  · exact State.load_memOk h
  · exact State.storeNibble_memOk h
  · exact State.store_memOk h
  · exact State.store_memOk h
  · exact State.store_memOk h
  · exact State.store_memOk h
  · exact ite_form (State.loadVector_memOk h) (State.load_memOk h)
  · exact ite_form (State.storeVector_memOk h) (State.store_memOk h)
  · exact State.loadVector_memOk h
  · exact State.loadVector_memOk h
  · exact State.storeVector_memOk h
  · exact State.storeVector_memOk h
  · exact State.lds_memOk h
  · exact State.lds_memOk h
  · exact State.sts_memOk h
  · exact State.sts_memOk h
  · exact State.setBit_memOk h
  · exact State.setBit_memOk h
  · exact execFeq_memOk h
  · exact State.atomic_memOk h
  · exact State.atomic_memOk h
  · exact State.atomic_memOk h
  · exact State.reduce_memOk h
  · exact State.reduce_memOk h
  · exact execApnd_memOk h
  · exact State.fence_memOk h
  · exact State.drainThen_memOk h (fun _ h0 => State.finish_memOk h0)
  · exact State.barrierOp_memOk h
  · exact State.barrierOp_memOk h
  · exact State.barrierOp_memOk h
  · exact execTbwait_memOk h
  · exact execTbtest_memOk h
  · exact State.copy_memOk h
  · exact State.copy_memOk h
  · exact State.copy_memOk h
  · exact execRcall_memOk h
  · exact execRret_memOk h
  · exact execHset_memOk h
  · exact execHclr_memOk h
  · exact execFrz_memOk h
  · exact execThaw_memOk h
  · exact execFrzq_memOk h
  · exact State.rowWork_memOk h
  · exact State.rowWork_memOk h
  · exact State.rowWork_memOk h
  · exact execFdef_memOk h
  · exact execFrun_memOk h
  · exact execFstop_memOk h
  · exact execFsnap_memOk h
  · exact execFcpl_memOk h
  · exact State.finishG_memOk h
  · exact State.queueJob_memOk h
  · exact State.queueJob_memOk h
  · exact State.queueJob_memOk h
  · exact State.queueJob_memOk h
  · exact State.withEngine_memOk h (fun _ h0 => State.finishG_memOk (State.grantTiles_memOk h0))
  · exact State.withEngine_memOk h (fun _ h0 => State.finish_memOk (State.withdrawTiles_memOk h0))
  · exact execMzero_memOk h
  · exact execMld_memOk h
  · exact execMdrain_memOk h
  · exact execMpoll_memOk h
  · exact execMwait_memOk h
  · exact State.intScalar_memOk h
  · exact State.intVector_memOk h
  · exact State.intScalar_memOk h
  · exact State.intVector_memOk h
  · exact State.intScalar_memOk h
  · exact State.intVector_memOk h
  · exact State.intScalar_memOk h
  · exact State.intVector_memOk h
  · exact State.intScalar_memOk h
  · exact State.intVector_memOk h
  · exact State.intScalar_memOk h
  · exact State.intVector_memOk h
  · exact State.intScalar_memOk h
  · exact State.intVector_memOk h
  · exact State.intScalar_memOk h
  · exact State.intVector_memOk h
  · exact State.intScalar_memOk h
  · exact State.intVector_memOk h
  · exact State.intScalar_memOk h
  · exact State.intVector_memOk h
  · exact State.intScalar_memOk h
  · exact State.intVector_memOk h
  · exact State.intScalar_memOk h
  · exact State.intVector_memOk h
  · exact State.intScalar_memOk h
  · exact State.intVector_memOk h
  · exact State.intScalar_memOk h
  · exact State.intVector_memOk h
  · exact State.intScalar_memOk h
  · exact State.intVector_memOk h
  · exact State.intScalar_memOk h
  · exact State.intVector_memOk h
  · exact State.intScalar_memOk h
  · exact State.intVector_memOk h
  · exact State.intScalar_memOk h
  · exact State.intVector_memOk h
  · exact State.intScalar_memOk h
  · exact State.intVector_memOk h
  · exact State.intScalar_memOk h
  · exact State.intVector_memOk h
  · exact State.intScalar_memOk h
  · exact State.intVector_memOk h
  · exact State.intScalar_memOk h
  · exact State.intVector_memOk h
  · exact State.intScalar_memOk h
  · exact State.intVector_memOk h
  · exact State.intScalar_memOk h
  · exact State.onThr_memOk _ h
  · exact State.onThr_memOk _ h
  · exact State.predOp_memOk h
  · exact State.predOp_memOk h
  · exact State.predOp_memOk h
  · exact State.predOp_memOk h
  · exact State.predOp_memOk h
  · exact State.wordOp_memOk h
  · exact State.wordOp_memOk h
  · exact State.wordOp_memOk h
  · exact State.wordOp_memOk h
  · exact State.wordOp_memOk h
  · exact State.wordOp_memOk h
  · exact State.wordOp_memOk h
  · exact State.wordOp_memOk h
  · exact State.wordOp_memOk h
  · exact State.wordOp_memOk h
  · exact State.wordOp_memOk h
  · exact State.fScalar_memOk h
  · exact State.fLanes_memOk h
  · exact State.fScalar_memOk h
  · exact State.fLanes_memOk h
  · exact State.fScalar_memOk h
  · exact State.fLanes_memOk h
  · exact State.fScalar_memOk h
  · exact State.fLanes_memOk h
  · exact State.fScalar_memOk h
  · exact State.fLanes_memOk h
  · exact State.fScalar_memOk h
  · exact State.fLanes_memOk h
  · exact State.fPendScalar_memOk h
  · exact State.fPendVector_memOk h
  · exact State.fPendScalar_memOk h
  · exact State.fPendVector_memOk h
  · exact State.fScalar_memOk h
  · exact State.fLanes_memOk h
  · exact State.fScalar_memOk h
  · exact State.fLanes_memOk h
  · exact State.fScalar_memOk h
  · exact State.fLanes_memOk h
  · exact State.fScalar_memOk h
  · exact State.fLanes_memOk h
  · exact State.fScalar_memOk h
  · exact State.fLanes_memOk h
  · exact State.onThr_memOk _ h
  · exact State.onThr_memOk _ h
  · exact State.fScalar_memOk h
  · exact State.fLanes_memOk h
  · exact State.fScalar_memOk h
  · exact State.fLanes_memOk h
  · exact State.fScalar_memOk h
  · exact State.fVector_memOk h
  · exact State.onThr_memOk _ h
  · exact State.fVector_memOk h
  · exact State.fScalar_memOk h
  · exact State.fVector_memOk h
  · exact State.fPendScalar_memOk h
  · exact State.fPendVector_memOk h
  · exact State.fPendScalar_memOk h
  · exact State.fPendVector_memOk h
  · exact State.fPendScalar_memOk h
  · exact State.fPendVector_memOk h
  · exact State.fPendScalar_memOk h
  · exact State.fPendVector_memOk h
  · exact State.fPendScalar_memOk h
  · exact State.fPendVector_memOk h
  · exact State.fPendScalar_memOk h
  · exact State.fPendVector_memOk h
  · exact State.fPendScalar_memOk h
  · exact State.fPendVector_memOk h
  · exact State.onThr_memOk _ h
  · exact State.wordOp_memOk h
  · exact State.onThr_memOk _ h
  · exact State.laneOp_memOk h
  · exact State.laneOp_memOk h
  · exact State.onThr_memOk _ h
  · exact execVdot_memOk h
  · exact State.laneOp_memOk h
  · exact State.laneOp_memOk h
  · exact State.onThr_memOk _ h
  · exact State.fVector_memOk h
  · exact State.wordOp_memOk h
  · exact State.fVector_memOk h
  · exact State.fLanes_memOk h
  · exact execResultArrival_memOk h
  · exact execLongLatencyFault_memOk h
  · exact execWake_memOk h
  · exact execStorefaultRecord_memOk h
  · exact State.enterQueue_memOk h
  · exact execHeldStorePerform_memOk h
  · exact execTranslationWalk_memOk h
  · exact execPageServed_memOk h
  · exact execStopeAtomic_memOk h
  · exact execWcbDrain_memOk h
  · exact ite_form (State.evictLine_memOk h) (State.writeBack_memOk h)
  · exact execCopyCompletion_memOk h
  · exact execMatrixAccept_memOk h
  · exact execTileClear_memOk h
  · exact execTileRelease_memOk h
  · exact execMldCompletion_memOk h
  · exact execJobBegin_memOk h
  · exact execJobKstep_memOk h
  · exact execJobCompletion_memOk h
  · exact execRingChunkArrival_memOk h
  · exact execRingWatchdogExpiry_memOk h
  · exact execJobFault_memOk h
  · exact execMdrainPerform_memOk h
  · exact State.failMatrix_memOk h
  · exact execCallArrival_memOk h
  · exact execHandlerStart_memOk h
  · exact State.modThread_memOk h
  · exact execReplyArrival_memOk h
  · exact execRcallTimeout_memOk h
  · exact execHandlerInstall_memOk h
  · exact execHandlerClear_memOk h
  · exact execFreezeDrain_memOk h
  · exact execThawArrival_memOk h
  · exact execRowOperationPerform_memOk h
  · exact execRepartition_memOk h
  · exact execCouplingCheck_memOk h
  · exact execFieldPhase_memOk h
  · exact execFieldPhaseBarrier_memOk h
  · exact execFieldSweepEnd_memOk h
  · exact execSnapshotArrival_memOk h
  · exact State.tryDependence_memOk h
  · exact State.decision_memOk h
  · exact execCrewMemoryRelease_memOk h
  · exact execSpillSave_memOk h
  · exact execCoreFailure_memOk h
  · exact execPatrolScrub_memOk h
  · exact h
  · exact h
  · exact ite_form h (ite_form (State.memOk_of_eq (State.cold_memOk h) rfl rfl rfl) h)
  · exact State.modDie_memOk h
  · exact h
  · exact execUnitRetirement_memOk h
  · exact execFarMessageArrival_memOk h
  · exact State.memOk_of_eq (State.cold_memOk h) rfl rfl rfl
  · exact execRecoveryFetch_memOk h
  · exact execLoadimg_memOk h
  · exact State.command_memOk h (fun _ h0 => ite_cmdFormed (State.createIsland_memOk h0) h0)
  · exact State.islandCommand_memOk h (fun _ _ h0 => State.ok_memOk (State.destroyIsland_memOk h0))
  · exact execPut_memOk h
  · exact execGet_memOk h
  · exact execLaunchCommand_memOk h
  · exact execWait_memOk h
  · exact execFreezeFrz_memOk h
  · exact execFreezeThaw_memOk h
  · exact execFreezeFrzq_memOk h
  · exact execStraitOpen_memOk h
  · exact execStraitClose_memOk h
  · exact execFartab_memOk h
  · exact State.islandCommand_memOk h (fun _ _ h0 => State.ok_memOk h0)
  · exact execFieldlink_memOk h
  · exact execSpillSlot_memOk h
  · exact execRefillSlot_memOk h
  · exact execEvictCluster_memOk h
  · exact execRestoreCluster_memOk h
  · exact execKill_memOk h
  · exact execTelemetry_memOk h
  · exact ite_form h (State.command_memOk h (fun _ h0 => State.refuse_memOk h0))
  · exact execIllegalWord_memOk h
  · exact execFarAccessTimeout_memOk h
  · exact execStopeEngineFailure_memOk h
  · exact execCoreRepairedOrRetired_memOk h
  · exact State.saveWake_memOk (State.modThread_memOk h)
  · exact execFrameOwnershipWrite_memOk h
  · exact State.memOk_of_eq (State.cold_memOk h) rfl rfl rfl
  · exact ite_form h h

theorem andThen_memOk {o : Out} {k : State → State} (ho : OutFormed o)
    (hk : ∀ u, u.memOk = true → (k u).memOk = true) :
    OutFormed (andThen o k) := by
  unfold andThen
  split
  · exact hk _ ho
  · trivial
  · trivial

theorem State.parkListed_memOk {s : State} {i : Nat} (h : s.memOk = true) : (s.parkListed i).memOk = true := by
  unfold State.parkListed
  split
  · exact State.park_memOk h
  · exact State.stall_memOk h

theorem State.awaitLoad_memOk {s : State} {e : Pend} (h : s.memOk = true) : (s.awaitLoad e).memOk = true := by
  unfold State.awaitLoad
  split
  · exact State.parkListed_memOk h
  · exact State.stall_memOk h

theorem State.landDue_memOk {s : State} {n : Nat} (h : s.memOk = true) : (s.landDue n).Formed := by
  induction n generalizing s with
  | zero =>
    rw [State.landDue]
    split
    · exact State.stall_memOk h
    · exact h
  | succ n n1 =>
    rw [State.landDue]
    split
    · exact h
    · split
      · exact n1 (State.onThr_memOk _ h)
      · dsimp only
        split
        · exact State.stall_memOk (State.performMsgs_memOk h)
        · exact n1 (State.performMsgs_memOk h)
      · dsimp only
        split
        · exact State.awaitLoad_memOk (State.loadTry_memOk h)
        · exact n1 (State.loadTry_memOk h)
      · exact State.takeFailed_memOk h
      · exact State.takeFailed_memOk h
      · exact State.stall_memOk h
      · exact State.parkListed_memOk h

theorem State.deliverMatrix_memOk {s : State} {f : Cause × Word × Word} (h : s.memOk = true) :
    (s.deliverMatrix f).memOk = true := by
  unfold State.deliverMatrix
  dsimp only
  split
  · exact State.takePark_memOk h
  · exact State.trap_memOk (State.onThr_memOk _ h)

theorem State.deliverUnit_memOk {s : State} {w : GrantTrap} (h : s.memOk = true) :
    (s.deliverUnit w).memOk = true := by
  unfold State.deliverUnit
  split
  · exact State.takePark_memOk h
  · exact State.endWindows_memOk h (fun _ h0 => ite_form (State.stall_memOk h0) (State.enterTrap_memOk
      (State.onThr_memOk _ h0)))

theorem State.dueUnit_memOk {s : State} (h : s.memOk = true) : s.dueUnit.Formed := by
  have hland : (s.landDue (2 * s.thr.pending.length + 2)).Formed := State.landDue_memOk h
  unfold State.dueUnit
  generalize s.landDue (2 * s.thr.pending.length + 2) = d at hland ⊢
  split
  · exact State.deliverUnit_memOk hland
  · exact hland

theorem State.due_memOk {s : State} (h : s.memOk = true) : s.due.Formed := by
  unfold State.due
  split
  · exact State.takeFailed_memOk h
  · split
    · exact State.park_memOk h
    · split
      · exact State.deliverRecord_memOk h
      · split
        · exact State.deliverUnit_memOk h
        · exact State.deliverMatrix_memOk h
        · exact State.dueUnit_memOk h

theorem State.fetchFailed_memOk {s : State} {w : UnitWords} (h : s.memOk = true) :
    (s.fetchFailed w).memOk = true := by
  unfold State.fetchFailed
  split
  · exact ite_form (State.stall_memOk h) (State.parkPage_memOk h)
  · exact ite_form (State.stall_memOk (State.serviceFault_memOk h)) (State.parkPage_memOk (State.serviceFault_memOk
      h))
  · exact State.trap_memOk h
  · exact h
  · exact h

theorem State.runLone_memOk {s : State} {w : BitVec 32} (h : s.memOk = true) : OutFormed (s.runLone w) := by
  unfold State.runLone
  split
  · exact execIllegalWord_memOk h
  · split
    · exact State.onThr_memOk _ h
    · exact exec_memOk h

theorem State.beginA_memOk {s c : State} (hs : s.memOk = true) (hc : c.memOk = true) : (s.beginA c).memOk = true :=
  State.onThr_memOk _ hs

theorem State.mergeA_memOk {s : State} {a : Instr} {r : State} (hs : s.memOk = true) (hr : r.memOk = true) :
    (s.mergeA a r).memOk = true :=
  ite_form hs (State.onThr_memOk _ hs)

theorem State.runA_memOk {s : State} {a : Instr} {c : State} (hs : s.memOk = true) (hc : c.memOk = true) :
    OutFormed (s.runA a c) :=
  andThen_memOk (exec_memOk (State.beginA_memOk hs hc)) (fun _ h0 => State.mergeA_memOk hc h0)

theorem State.runPair_memOk {s : State} {c a : Instr} (h : s.memOk = true) : OutFormed (s.runPair c a) := by
  have hc : OutFormed (exec c s) := exec_memOk h
  unfold State.runPair
  generalize exec c s = o at hc ⊢
  split
  · next r =>
    split
    · exact hc
    · split
      · have ha : OutFormed (s.runA a s) := State.runA_memOk h h
        generalize s.runA a s = o at ha ⊢
        split
        · exact exec_memOk ha
        · exact ha
      · exact State.runA_memOk h hc
  · exact hc

theorem State.runWords_memOk {s : State} {wc wa : BitVec 32} (h : s.memOk = true) : OutFormed (s.runWords wc wa) := by
  unfold State.runWords
  split
  · exact execIllegalWord_memOk h
  · split
    · exact exec_memOk h
    · exact execIllegalWord_memOk h
  · split
    · exact State.onThr_memOk _ h
    · split
      · exact State.trap_memOk h
      · exact State.runPair_memOk h

theorem State.runUnit_memOk {s : State} (h : s.memOk = true) : OutFormed s.runUnit := by
  unfold State.runUnit
  split
  · split
    · exact State.runLone_memOk (State.onThr_memOk _ h)
    · exact State.fetchFailed_memOk (State.onThr_memOk _ h)
  · split
    · exact State.runLone_memOk (State.onThr_memOk _ h)
    · split
      · exact State.runWords_memOk (State.onThr_memOk _ h)
      · exact State.onThr_memOk _ h
    · exact State.fetchFailed_memOk h

theorem State.endHandler_memOk {s : State} (h : s.memOk = true) : s.endHandler.memOk = true := by
  unfold State.endHandler
  split
  · exact h
  · split
    · exact h
    · exact State.endCall_memOk h
    · exact State.endUpdate_memOk h

theorem State.unitDone_memOk {s : State} {before : Thread} {now : Nat} (h : s.memOk = true) :
    (s.unitDone before now).memOk = true :=
  ite_form (State.onThr_memOk _ (State.onThr_memOk _ h)) (State.onThr_memOk _ h)

theorem State.leavePlace_memOk {s : State} (h : s.memOk = true) : s.leavePlace.memOk = true := by
  unfold State.leavePlace
  split
  · exact h
  · exact h
  · exact State.leaveQueues_memOk h

theorem State.afterUnit_memOk {s : State} {before : Thread} {now : Nat} (h : s.memOk = true) :
    (s.afterUnit before now).memOk = true :=
  State.endHandler_memOk (State.leavePlace_memOk (ite_form (State.unitDone_memOk h) (State.onThr_memOk _ h)))

theorem State.issue_memOk {s : State} (h : s.memOk = true) : OutFormed s.issue := by
  unfold State.issue
  extract_lets s0 now before go
  have h0 : s0.memOk = true := State.onThr_memOk _ h
  have hgo (u : State) (hu : u.memOk = true) : OutFormed (go u) := andThen_memOk (State.runUnit_memOk hu)
    fun _ hr => State.afterUnit_memOk hr
  clear_value s0
  split
  · exact State.endHandler_memOk (State.onThr_memOk _ h0)
  · split
    · exact State.endHandler_memOk h0
    · split
      · exact State.afterUnit_memOk (State.deliverUnit_memOk h0)
      · exact hgo _ h0
      · split
        · exact hgo _ h0
        · have hdue : s0.due.Formed := State.due_memOk h0
          generalize s0.due = d at hdue ⊢
          split
          · exact State.afterUnit_memOk hdue
          · exact hgo _ hdue

theorem State.dueFar_memOk {s : State} {t : Thread} (h : s.memOk = true) : (s.dueFar t).memOk = true := by
  unfold State.dueFar
  split
  · exact h
  · dsimp only
    exact ite_form (State.farFailure_memOk h) (State.farAnswer_memOk h)

theorem State.knowStalled_memOk {s : State} {t : Thread} (h : s.memOk = true) : (s.knowStalled t).memOk = true :=
  ite_form (State.modThread_memOk h) h

theorem State.turnOf_memOk {s : State} {t : Thread} (h : s.memOk = true) : OutFormed (s.turnOf t) :=
  State.issue_memOk (State.focus_memOk (State.knowStalled_memOk (State.dueFar_memOk h)))

theorem State.freeTurn_memOk {s : State} {core c : Nat} (h : s.memOk = true) : OutFormed (s.freeTurn core c) := by
  unfold State.freeTurn
  split
  · exact h
  · exact State.turnOf_memOk h

theorem State.portRounds_memOk {s : State} {core n : Nat} (h : s.memOk = true) :
    (s.portRounds core n).memOk = true := by
  induction n generalizing s with
  | zero =>
    rw [State.portRounds]
    exact h
  | succ n n1 =>
    rw [State.portRounds]
    exact n1 (State.loadsGo_memOk (State.heldGo_memOk (State.flushPort_memOk h)))

theorem State.heldFar_memOk {s : State} {core : Nat} (h : s.memOk = true) : (s.heldFar core).memOk = true :=
  foldl_form (fun _ _ h0 => State.dueFar_memOk h0) h

theorem State.shiftsEnd_memOk {s : State} (h : s.memOk = true) : s.shiftsEnd.memOk = true :=
  foldl_form (fun _ _ h0 => State.shiftCheck_memOk h0) h

theorem State.portGoes_memOk {s : State} {core : Nat} (h : s.memOk = true) : (s.portGoes core).memOk = true :=
  State.shiftsEnd_memOk (State.portRounds_memOk (State.heldFar_memOk h))

theorem State.slotTurn_memOk {s : State} {core c : Nat} (h : s.memOk = true) : OutFormed (s.slotTurn core c) := by
  unfold State.slotTurn
  split
  · exact State.freeTurn_memOk h
  · split
    · exact State.freeTurn_memOk (State.modThread_memOk h)
    · split
      · exact State.freeTurn_memOk h
      · split
        · exact State.turnOf_memOk h
        · split
          · exact h
          · exact State.freeTurn_memOk h

theorem State.coreTurn_memOk {s : State} {core : Nat} (h : s.memOk = true) : OutFormed (s.coreTurn core) := by
  unfold State.coreTurn
  dsimp only
  split
  · exact h
  · split
    · exact State.portGoes_memOk h
    · exact State.slotTurn_memOk (State.portGoes_memOk h)

theorem State.handlerTurn_memOk {s : State} {t : Thread} (h : s.memOk = true) : OutFormed (s.handlerTurn t) := by
  unfold State.handlerTurn
  split
  · exact h
  · exact State.turnOf_memOk h

theorem State.passTurn_memOk {s : State} (h : s.memOk = true) : s.passTurn.memOk = true :=
  ite_form h h

theorem State.islandTurn_memOk {s : State} {i : Island} (h : s.memOk = true) : (s.islandTurn i).memOk = true :=
  State.decision_memOk (foldl_form (fun _ _ h0 => State.tryDependence_memOk h0) h)

theorem State.move_memOk {s : State} {x : Move} (h : s.memOk = true) : OutFormed (s.move x) := by
  unfold State.move
  split
  · split
    · exact exec_memOk h
    · exact h
  · exact State.coreTurn_memOk h
  · split
    · exact h
    · split
      · exact State.handlerTurn_memOk h
      · exact h

theorem State.nextDraw_memOk {s : State} (h : s.memOk = true) : s.nextDraw.memOk = true :=
  h

theorem State.rotate_memOk {s : State} (h : s.memOk = true) : OutFormed s.rotate := by
  unfold State.rotate
  split
  · exact State.coreTurn_memOk (State.passTurn_memOk h)
  · split
    · exact State.handlerTurn_memOk (State.passTurn_memOk h)
    · split
      · exact State.islandTurn_memOk (State.passTurn_memOk h)
      · exact State.passTurn_memOk h

theorem step_memOk {s : State} (h : s.memOk = true) : OutFormed (step s) := by
  unfold step
  split
  · exact State.move_memOk (by exact h)
  · split
    · trivial
    · split
      · exact execWake_memOk (State.nextDraw_memOk h)
      · exact State.rotate_memOk (State.nextDraw_memOk h)

/-- Settles O11: each operation that a step is made of keeps the form, and so does the step. -/
theorem stepKeepsMemoryForm : Obligations.StepKeepsMemoryForm := by
  intro s t h ht
  have hstep : OutFormed (step s) := step_memOk h
  rw [ht] at hstep
  exact hstep

end Sys2Proof.Machine
end
